-- ==== Sys2Proof/Word.lean ====
section
/-! DEFINITION. The machine's words: bytes, 32-bit and 64-bit words, and the list-of-pairs maps that sparse
state is held in. Bit 0 is the least significant bit and multi-byte values are little-endian (R1). -/

namespace Sys2Proof

/-- One byte. -/
abbrev Byte := BitVec 8

/-- A 32-bit word: a lane, a completion counter, an instruction parcel (R21, R50). -/
abbrev Word32 := BitVec 32

/-- A 64-bit word: a scalar register, a predicate, a control register (R21). -/
abbrev Word64 := BitVec 64

/-- A sparse map from a natural number: keys rise strictly, and no entry equals what an unlisted key reads as. -/
abbrev AMap (α : Type) := List (Nat × α)

/-- A sparse byte store: pairs of address and byte, in the canonical form of `AMap`. -/
abbrev Mem := AMap Byte

end Sys2Proof
end

