-- ==== Sys2Proof/Syntax.lean ====
section
/-! DEFINITION. The instructions and events of the opcode table: `Instr`, one constructor per row of
spec/opcode_table.json, with the operands that the instruction reference names (R340 to R441). A constructor of the
second half of `Instr` is a step of another agent than a context (an engine, the scheduler, the host, a fabric port):
it has no instruction word and comes to run only from `State.agenda` or from the machine's own pending work. -/

namespace Sys2Proof

/-- A scalar register s0 to s31 (R31). -/
abbrev Reg := Fin 32
/-- A predicate register p0 to p7 (R31). -/
abbrev Pred := Fin 8
/-- A vector register v0 to v15 (R31). -/
abbrev VReg := Fin 16
/-- A completion counter c0 to c15 (R31). -/
abbrev Cnt := Fin 16
/-- A guard slot gd0 to gd7 (R31); 0 in a guard field means unguarded. -/
abbrev Guard := Fin 8

/-- Condition codes (R59), in the order of their codes 0 to 9. -/
inductive Cond where
  | eq | ne | lt | le | gt | ge | ltu | leu | gtu | geu
  deriving DecidableEq, Repr, Inhabited

/-- Scope codes (R60, R236), in the order of their codes 0 to 6. -/
inductive Scope where
  | core | cluster | group | team | die | module | system
  deriving DecidableEq, Repr, Inhabited

/-- Element types (R102), in the order of their codes 0 to 11. -/
inductive ElemType where
  | fp32 | bf16 | fp16 | e4m3 | e5m2 | e2m1 | int32 | int8 | int4 | uint8 | uint4 | int16
  deriving DecidableEq, Repr, Inhabited

/-- Rounding modes (R109), in the order of their codes 0 to 4. -/
inductive RoundMode where
  | rne | rz | rdn | rup | rs
  deriving DecidableEq, Repr, Inhabited

/-- Access sizes (R61): byte, half, word, double. -/
inductive Size where
  | b | h | w | d
  deriving DecidableEq, Repr, Inhabited

/-- Local spaces (R61): W, A, C and the event-unit window E. -/
inductive Space where
  | w | a | c | e
  deriving DecidableEq, Repr, Inhabited

/-- Phase levels 1 to 3: cluster, group, team (R84). -/
inductive Level where
  | l1 | l2 | l3
  deriving DecidableEq, Repr, Inhabited

/-- Combining operations of VOTE (R89). -/
inductive VoteOp where
  | and | or | sum | max
  deriving DecidableEq, Repr, Inhabited

/-- Predicate operations of PLOG (R174); `reg` is operation 5, which reads a scalar register. -/
inductive PlogOp where
  | and | or | xor | andn | not | reg
  deriving DecidableEq, Repr, Inhabited

/-- Modes of PCNT (R174). -/
inductive PcntMode where
  | count | lowest | bits
  deriving DecidableEq, Repr, Inhabited

/-- Reductions of VRED and VSCAN (R428). -/
inductive RedOp where
  | sum | max | min
  deriving DecidableEq, Repr, Inhabited

/-- Functions of VFN (R430). -/
inductive FnOp where
  | recip | sqrt | rsqrt | exp2 | log2 | exp | tanh | sigm
  deriving DecidableEq, Repr, Inhabited

/-- Group sizes of the integer types (R196): none, 32, 64 or 128. -/
inductive GroupSize where
  | none | g32 | g64 | g128
  deriving DecidableEq, Repr, Inhabited

/-- Which ends of a copy or send bump their counter (R140); 11 is no code. -/
inductive Where where
  | issuer | destination | both
  deriving DecidableEq, Repr, Inhabited

/-- Reach of TLBINV (R414). -/
inductive Reach where
  | core | die | module
  deriving DecidableEq, Repr, Inhabited

/-- Acquire, release and their one scope (R60, R237, R238). -/
structure MemOrder where
  acq : Bool
  rel : Bool
  sc : Scope
  deriving DecidableEq, Repr, Inhabited

/-- A local memory operand space[base+off] (R33). -/
structure MemArg where
  sp : Space
  base : Reg
  off : BitVec 16
  deriving DecidableEq, Repr, Inhabited

/-- Operands of a flat atomic but ACAS's third (R341). `tag` is read only with `tg`. -/
structure AtomicArgs where
  w : Bool
  tg : Bool
  d : Reg
  a : Reg
  b : Reg
  ct : Cnt
  gd : Guard
  ord : MemOrder
  tag : BitVec 14
  deriving DecidableEq, Repr, Inhabited

/-- Operands of GET, PUT and GRIST (R135). `lin` marks a lineage operand. -/
structure XferArgs where
  a : Reg
  b : Reg
  c : Reg
  ct : Cnt
  gd : Guard
  ord : MemOrder
  lsp : Space
  t : Bool
  k : Bool
  lin : Bool
  len : BitVec 32
  deriving DecidableEq, Repr, Inhabited

/-- Operands of CPY, SEND.d and SEND.p (R135, R140, R262). -/
structure CopyArgs where
  a : Reg
  b : Reg
  c : Reg
  ct : Cnt
  gd : Guard
  ord : MemOrder
  lsp : Space
  t : Bool
  k : Bool
  dsp : Space
  wh : Where
  dt : Bool
  dk : Bool
  len : BitVec 32
  deriving DecidableEq, Repr, Inhabited

/-- Operands of SEND.i (R262). -/
structure InboxArgs where
  a : Reg
  b : Reg
  ct : Cnt
  gd : Guard
  ord : MemOrder
  lsp : Space
  t : Bool
  k : Bool
  wh : Where
  len : BitVec 32
  deriving DecidableEq, Repr, Inhabited

/-- The second operand of a vector instruction: a vector register, or a scalar used in every lane (R420). -/
inductive VOperand where
  | vec (v : VReg)
  | scalar (s : Reg)
  deriving DecidableEq, Repr, Inhabited

/-- The source of VBCAST (R426): an immediate or a scalar register. -/
inductive BcastSrc where
  | imm (v : BitVec 32)
  | scalar (s : Reg)
  deriving DecidableEq, Repr, Inhabited

/-- Lane selection of a vector instruction (R420): predicate and zeroing. -/
structure VMask where
  zm : Bool
  pm : Pred
  deriving DecidableEq, Repr, Inhabited

/-- Operands of MMUL (R218). -/
structure MmulArgs where
  a : Reg
  b : Reg
  ct : Cnt
  gd : Guard
  pri : Fin 4
  at' : ElemType
  ot : ElemType
  st : Bool
  grp : GroupSize
  k : Bool
  gang : Bool
  acc : Bool
  tg : Bool
  ksteps : BitVec 16
  nvec : BitVec 16
  woff : BitVec 16
  stride : BitVec 16
  deriving DecidableEq, Repr, Inhabited

/-- Operands of MCORR (R207, R218). -/
structure McorrArgs where
  a : Reg
  b : Reg
  c : Reg
  ct : Cnt
  gd : Guard
  ty : ElemType
  k : Bool
  tg : Bool
  nvec : BitVec 16
  stride : BitVec 16
  deriving DecidableEq, Repr, Inhabited

/-- Operands of MSPLIT (R211, R218): GANG and KSTEPS are 1 and OT equals AT in every well-formed word. -/
structure MsplitArgs where
  a : Reg
  b : Reg
  c : Reg
  ct : Cnt
  gd : Guard
  pri : Fin 4
  ty : ElemType
  k : Bool
  acc : Bool
  tg : Bool
  nvec : BitVec 16
  stride : BitVec 16
  deriving DecidableEq, Repr, Inhabited

/-- A run of bytes that the loader places in flat memory at a virtual address (R47). -/
structure Segment where
  va : Nat
  bytes : List Byte
  deriving DecidableEq, Repr, Inhabited

/-- A lineage root of a .node directive (R45): element type, dimensions outermost first, initial bytes. -/
structure NodeInit where
  ty : ElemType
  dims : List Nat
  init : List Byte
  deriving DecidableEq, Repr, Inhabited

/-- A queue of a .queue directive (R41): header address, and the number that num= gives, if any. -/
structure QueueInit where
  header : Nat
  num : Option Nat
  deriving DecidableEq, Repr, Inhabited

/-- A local-store image that belongs to a task (R40, R49). -/
structure LocalImage where
  task : Nat
  sp : Space
  addr : Nat
  bytes : List Byte
  deriving DecidableEq, Repr, Inhabited

/-- The loadable image that hivas writes (R47): sections and records as placed, roots, queues, local images, and the
task record that a host start launches. -/
structure ProgImage where
  asid : Nat
  segs : List Segment
  nodes : List NodeInit
  queues : List QueueInit
  images : List LocalImage
  entry : Nat
  deriving DecidableEq, Repr, Inhabited

/-- PCIe AtomicOps (R314). -/
inductive HostAtomicOp where
  | fetchAdd | swap | cas
  deriving DecidableEq, Repr, Inhabited

/-- The eight flat atomics (R341). -/
inductive AtomicKind where
  | add | addw | swap | cas | min | max | and | or
  deriving DecidableEq, Repr, Inhabited

/-- What a request that arrives over the fabric asks for (R326). A tagged atomic names its requester: global core name,
context and tag (R324). -/
inductive PeerOp where
  | read (n : Nat)
  | write (bytes : List Byte) (poison : Bool)
  | atomic (k : AtomicKind) (wide : Bool) (v cmp : Word64) (tag : Option (Nat × Nat × Nat))
  deriving DecidableEq, Repr, Inhabited

/-- A request that arrives over the fabric, with its command's address space and colour (R270, R326). -/
structure PeerAsk where
  asid : Nat
  colour : Bool
  op : PeerOp
  deriving DecidableEq, Repr, Inhabited

/-- What the host sends to a byte of BAR 4 that takes no such access: a write, or an AtomicOp (R315, R316). -/
structure WindowAccess where
  off : Nat
  atomic : Bool
  deriving DecidableEq, Repr, Inhabited

/-- One reading of a die's sensors and its grant (R338, R339). -/
structure PowerReading where
  die : Fin 4
  grant : BitVec 22
  level : BitVec 5
  tmax : BitVec 8
  vmin : BitVec 8
  roFreq : BitVec 16
  deriving DecidableEq, Repr, Inhabited

/-- The grants of a period: of dies, with their readings, and of the stacks, 0 to 11, and the system die, 12 (R338). -/
structure PowerGrants where
  dies : List PowerReading
  others : List (Fin 13 × BitVec 22)
  deriving DecidableEq, Repr, Inhabited

/-- The rows of spec/opcode_table.json. -/
inductive Instr where
  -- scalar integer (R344 to R406)
  | nop
  | add (d a b : Reg)
  | addImm (d a : Reg) (imm : BitVec 32)
  | sub (d a b : Reg)
  | subImm (d a : Reg) (imm : BitVec 32)
  | mul (d a b : Reg)
  | mulImm (d a : Reg) (imm : BitVec 32)
  | mulh (d a b : Reg)
  | div (d a b : Reg)
  | rem (d a b : Reg)
  | and (d a b : Reg)
  | andImm (d a : Reg) (imm : BitVec 32)
  | or (d a b : Reg)
  | orImm (d a : Reg) (imm : BitVec 32)
  | xor (d a b : Reg)
  | xorImm (d a : Reg) (imm : BitVec 32)
  | andn (d a b : Reg)
  | shl (d a b : Reg)
  | shlImm (d a : Reg) (imm : BitVec 32)
  | shr (d a b : Reg)
  | shrImm (d a : Reg) (imm : BitVec 32)
  | sra (d a b : Reg)
  | sraImm (d a : Reg) (imm : BitVec 32)
  | rol (d a b : Reg)
  | rolImm (d a : Reg) (imm : BitVec 32)
  | min (d a b : Reg)
  | minImm (d a : Reg) (imm : BitVec 32)
  | max (d a b : Reg)
  | maxImm (d a : Reg) (imm : BitVec 32)
  | cmp (cond : Cond) (d a b : Reg)
  | cmpImm (cond : Cond) (d a : Reg) (imm : BitVec 32)
  | sel (d a b c : Reg)
  | clz (d a : Reg)
  | popc (d a : Reg)
  | mov (d a : Reg)
  | movi (d : Reg) (imm : BitVec 64)
  | bfx (s : Bool) (d a : Reg) (lsb wm1 : BitVec 6)
  | bfi (d a : Reg) (lsb wm1 : BitVec 6)
  -- scalar floating (R360 to R364)
  | fadd (ty : ElemType) (rm : RoundMode) (d a b : Reg)
  | fsub (ty : ElemType) (rm : RoundMode) (d a b : Reg)
  | fmul (ty : ElemType) (rm : RoundMode) (d a b : Reg)
  | ffma (ty : ElemType) (rm : RoundMode) (d a b c : Reg)
  | fmin (ty : ElemType) (d a b : Reg)
  | fmax (ty : ElemType) (d a b : Reg)
  | fcmp (cond : Cond) (ty : ElemType) (d a b : Reg)
  | fcvt (dst src : ElemType) (rm : RoundMode) (d a : Reg)
  -- control flow
  | br (off : BitVec 32)
  | brc (cond : Cond) (a b : Reg) (off : BitVec 32)
  | call (off : BitVec 32)
  | ret (a : Reg)
  | jmpr (d a : Reg)
  | chk (a b : Reg) (off : BitVec 32)
  | yield (mask : BitVec 32) (budget : BitVec 8)
  | exit (a : Reg)
  | trap (n : BitVec 16)
  -- local store
  | ld (sz : Size) (sx tg k : Bool) (d : Reg) (m : MemArg)
  | st (sz : Size) (tg k : Bool) (d : Reg) (m : MemArg)
  | lds (sz : Size) (sx tg k : Bool) (d : Reg) (m : MemArg)
  | tagTest (sz : Size) (d : Reg) (m : MemArg)
  | tagEmpty (sz : Size) (m : MemArg)
  | tagFull (sz : Size) (m : MemArg)
  | tagSpent (sz : Size) (m : MemArg)
  -- contexts, phases, waits
  | hstart (d a b c : Reg)
  | hjoin (d a : Reg)
  | phaseC (n : Level)
  | phaseX (n : Level)
  | vote (op : VoteOp) (d a : Reg) (n : Level)
  | evsig (e : Fin 8) (ct : Cnt) (a : Reg) (off : BitVec 32) (h : Fin 11)
  | sleept (a : Reg)
  | time (d : Reg)
  | waitcGe (ct : Cnt) (n : BitVec 32)
  | waitcLeOl (n : BitVec 16)
  | waitcLeOs (n : BitVec 16)
  | nbrd (d : Reg) (p : Pred) (dir : Fin 4)
  | recv (sz : Size) (sx tg k : Bool) (d : Reg) (base : Reg) (off : BitVec 16)
  -- predicates, guards, repetition
  | plog (op : PlogOp) (d : Pred) (a : Fin 32) (b : Pred)
  | pcnt (mode : PcntMode) (d : Reg) (a : Pred)
  | gset (g : Guard) (v : Fin 3)
  | gres (g : Guard) (a : Reg)
  | repseq (n : BitVec 5)
  | repgo (n : BitVec 16) (stride : BitVec 4)
  | repetitionReissue (core ctx : Nat)
  | cntset (ct : Cnt) (v : BitVec 32)
  -- flat atomics and address waits
  | aadd (x : AtomicArgs)
  | aaddw (x : AtomicArgs)
  | aswap (x : AtomicArgs)
  | acas (x : AtomicArgs) (c : Reg)
  | amin (x : AtomicArgs)
  | amax (x : AtomicArgs)
  | aand (x : AtomicArgs)
  | aor (x : AtomicArgs)
  | await (w : Bool) (d a b : Reg) (ct : Cnt) (acq : Bool) (sc : Scope)
  | awaitRegistrationRetry (core ctx : Nat)
  -- events and tasks
  | evpost (a b : Reg) (ct : Cnt) (gd : Guard) (ord : MemOrder)
  | evwait (d a b : Reg)
  | evwaitRegistrationRetry (core ctx : Nat)
  | trig (ct : Cnt) (gd : Guard)
  | done (a : Reg) (ct : Cnt) (gd : Guard) (ord : MemOrder)
  | wdq (b : Reg) (ct : Cnt) (gd : Guard) (r : Fin 4)
  -- heat tables
  | heatage (a : Reg) (ct : Cnt) (gd : Guard) (ord : MemOrder) (n : BitVec 14)
  | rowrank (a b : Reg) (ct : Cnt) (gd : Guard) (ord : MemOrder) (h : BitVec 14)
  | rowmig (a b : Reg) (ct : Cnt) (gd : Guard) (ord : MemOrder)
  -- kiln
  | kiln (full : Bool) (d : Reg) (ct : Cnt)
  | kilnAnswer (core ctx : Nat)
  | kilnst (d a : Reg)
  | kilnrel (d a : Reg) (ct : Cnt)
  | kilnrb (d a : Reg) (ct : Cnt)
  -- control registers and system
  | csrr (d : Reg) (csr : BitVec 12)
  | csrw (a : Reg) (csr : BitVec 12)
  | rfe
  | tlbinv (all anyasid : Bool) (reach : Reach) (a : Reg)
  | icinv
  -- put-and-get
  | get (x : XferArgs)
  | put (x : XferArgs)
  | grist (x : XferArgs)
  | gristScatter (x : XferArgs)
  | cpy (x : CopyArgs)
  | sendD (x : CopyArgs)
  | sendP (x : CopyArgs)
  | sendI (x : InboxArgs)
  | sendIRetry (core id : Nat)
  | nmc (b c : Reg) (ct : Cnt) (gd : Guard) (ord : MemOrder) (len : BitVec 32)
  | nmcPart (core id part : Nat)
  | nmscan (abs : Bool) (a b c : Reg) (ct : Cnt) (gd : Guard) (ord : MemOrder) (ty : ElemType)
      (kmax : BitVec 10) (len : BitVec 32)
  | tspawn (d a b : Reg) (ct : Cnt) (gd : Guard) (ord : MemOrder)
  -- lineage
  | lfork (d a c : Reg)
  | lforkAf (d a c : Reg) (ct : Cnt)
  | lflat (d a : Reg) (ct : Cnt) (gd : Guard) (ord : MemOrder)
  | lrebase (d a b : Reg) (ct : Cnt) (gd : Guard) (ord : MemOrder)
  | ldel (d a : Reg) (ct : Cnt)
  | lpack (d a : Reg) (ct : Cnt) (gd : Guard) (ord : MemOrder)
  | linfo (d a : Reg)
  | nodeSwitch (id : Nat)
  | splice (id : Nat)
  -- vector
  | vclaim (n : BitVec 7)
  | vrel
  | vld (ty : ElemType) (sp : Space) (t k : Bool) (vd : VReg) (base : Reg) (m : VMask)
  | vst (ty : ElemType) (sp : Space) (t k : Bool) (vd : VReg) (base : Reg) (pm : Pred)
  | vadd (ty : ElemType) (rm : RoundMode) (vd va : VReg) (b : VOperand) (m : VMask)
  | vsub (ty : ElemType) (rm : RoundMode) (vd va : VReg) (b : VOperand) (m : VMask)
  | vmul (ty : ElemType) (rm : RoundMode) (vd va : VReg) (b : VOperand) (m : VMask)
  | vfma (ty : ElemType) (rm : RoundMode) (vd va : VReg) (b : VOperand) (vc : VReg) (m : VMask)
  | vmax (ty : ElemType) (vd va : VReg) (b : VOperand) (m : VMask)
  | vmin (ty : ElemType) (vd va : VReg) (b : VOperand) (m : VMask)
  | vabs (ty : ElemType) (vd va : VReg) (m : VMask)
  | vcvt (dst src : ElemType) (rm : RoundMode) (vd va : VReg) (m : VMask)
  | vqnt (ty : ElemType) (rm : RoundMode) (vd va vc : VReg) (m : VMask)
  | vdqn (ty : ElemType) (rm : RoundMode) (vd va vc : VReg) (m : VMask)
  | vred (op : RedOp) (ty : ElemType) (rm : RoundMode) (vd va : VReg) (m : VMask)
  | vscan (op : RedOp) (ty : ElemType) (rm : RoundMode) (vd va : VReg) (m : VMask)
  | vshuf (vd va vb : VReg) (ps : Pred) (m : VMask)
  | vcmp (cond : Cond) (ty : ElemType) (pd : Pred) (va : VReg) (b : VOperand) (m : VMask)
  | vsel (vd va vb : VReg) (pk : Pred) (m : VMask)
  | vfn (fn : FnOp) (ty : ElemType) (rm : RoundMode) (vd va : VReg) (m : VMask)
  | vbcast (ty : ElemType) (vd : VReg) (src : BcastSrc) (m : VMask)
  | vidx (vd : VReg) (imm : BitVec 32) (m : VMask)
  | vand (vd va : VReg) (b : VOperand) (m : VMask)
  | vor (vd va : VReg) (b : VOperand) (m : VMask)
  | vxor (vd va : VReg) (b : VOperand) (m : VMask)
  | vshl (vd va : VReg) (b : VOperand) (m : VMask)
  | vshr (arith : Bool) (vd va : VReg) (b : VOperand) (m : VMask)
  -- matrix
  | mlds (act : Bool) (grp : GroupSize) (ot : ElemType) (gang : Bool) (pri : Fin 4) (ct : Cnt) (gd : Guard)
      (woff : BitVec 16)
  | mswap (gang : Bool) (pri : Fin 4) (ct : Cnt) (gd : Guard)
  | mmul (x : MmulArgs)
  | mcorr (x : McorrArgs)
  | msplit (x : MsplitArgs)
  | msplitJoin (core id : Nat)
  | mgangWide (ct : Cnt) (gd : Guard)
  | mgangDeep (ct : Cnt) (gd : Guard)
  | matrixCommandStart (core id : Nat)
  | matrixSuspend (core id : Nat)
  -- steps of the core's units
  | bump (core id : Nat)
  | stall (core ctx : Nat)
  | watchdog (core ctx : Nat)
  | nbrdTimeout (core ctx : Nat)
  | sleepWake (core ctx : Nat)
  | phaseCompletion (core : Nat)
  -- loader, dispatcher, scheduler
  | programLoad (p : ProgImage)
  | queueDispatch (q : Nat)
  | launch (pid : Nat)
  | barrier (pid : Nat)
  | copy (pid : Nat)
  | nmem (pid : Nat)
  | eventPacket (pid : Nat)
  | nopPacket (pid : Nat)
  | barrierRound (pid : Nat)
  | packetCompletion (pid : Nat)
  | taskPlace (task row col : Nat)
  | wake (team : Nat)
  | teamStart (team : Nat)
  | taskComplete (team : Nat)
  | takeRequest (team : Nat)
  | takeWithdraw (team : Nat)
  | teamSave (team : Nat)
  | teamResume (team : Nat)
  -- kiln units
  | marker (core k : Nat)
  | lineDrain (core : Nat)
  | kilnDrainTimeout (core : Nat)
  | kilnPageCopy (asid va : Nat)
  | kilnComplete (asid : Nat)
  -- host port
  | hostRead (off len : Nat)
  | hostWrite (off : Nat) (bytes : List Byte) (ep : Bool)
  | hostAtomic (op : HostAtomicOp) (wide : Bool) (off : Nat) (v cmp : Word64)
  | cxlMemRead (pa : Nat)
  | cxlMemWrite (pa : Nat) (bytes : List Byte) (poison : Bool)
  | queueWindowFetchadd (q : Nat) (v : Word64)
  | queueWindowRead (q off len : Nat)
  | eventWindowWrite (e : Nat) (v : Word64)
  | eventWindowRead (e : Nat)
  | mgmtErrClear (v : Word64)
  | mgmtReset (key : BitVec 32)
  | hotReset
  | warmResetComplete
  | coldStart (fail : BitVec 8) (bad : List Nat)
  | startUpComplete
  | timeset (v : Word64)
  | ptmintWrite (v : Word64)
  | ptmDialogue (offset : Word64)
  | fullReport
  | shortReport
  | registerWrite (off : Nat) (v : Word64)
  | powerGrant (g : PowerGrants)
  | thermalTrip (die : Fin 4)
  -- fabric
  | linkDead (port : Fin 16)
  | linkRetrained (port : Fin 16)
  | linkStateNotice (node : Nat) (up : Bool)
  | drainRound (port : Fin 16)
  | remoteAtomicTimeout (core id : Nat)
  | tagTupleExpiry (i : Nat)
  | peerRequest (src epoch addr : Nat) (ask : PeerAsk)
  | peerRetireTimeout (w : Fin 128)
  | replicaWriteTimeout (i die : Nat)
  | droppedWindowWrite (w : WindowAccess)
  | remoteKilnStart (asid k : Nat) (base : Bool)
  | remoteRollback (asid k : Nat)
  deriving DecidableEq, Repr

end Sys2Proof
end

