-- ==== Sys2Proof/WellFormed.lean ====
section
/-! DEFINITION. Which terms of `Instr` an instruction word can stand for: the limits of R57 to R63 and of the
reference entries that the word alone decides. A word whose fields name an ill-formed term raises ILLEGAL_ENC. -/

namespace Sys2Proof

namespace ElemType

/-- Element sizes in bits (R102). -/
def bits : ElemType → Nat
  | .fp32 | .int32 => 32
  | .bf16 | .fp16 | .int16 => 16
  | .e4m3 | .e5m2 | .int8 | .uint8 => 8
  | .e2m1 | .int4 | .uint4 => 4

/-- The six floating types (R102). -/
def isFloat : ElemType → Bool
  | .fp32 | .bf16 | .fp16 | .e4m3 | .e5m2 | .e2m1 => true
  | .int32 | .int8 | .int4 | .uint8 | .uint4 | .int16 => false

/-- The types of the scalar floating instructions and of VFN: FP32, BF16, FP16 (R361, R430). -/
def isWide : ElemType → Bool
  | .fp32 | .bf16 | .fp16 => true
  | .e4m3 | .e5m2 | .e2m1 | .int32 | .int8 | .int4 | .uint8 | .uint4 | .int16 => false

/-- The narrow floating class: E4M3, E5M2, E2M1 (R194), which is also the block-scaled class (R106). -/
def isNarrow : ElemType → Bool
  | .e4m3 | .e5m2 | .e2m1 => true
  | .fp32 | .bf16 | .fp16 | .int32 | .int8 | .int4 | .uint8 | .uint4 | .int16 => false

/-- The 16-bit class of the array: BF16, FP16 (R194). -/
def is16 : ElemType → Bool
  | .bf16 | .fp16 => true
  | .fp32 | .e4m3 | .e5m2 | .e2m1 | .int32 | .int8 | .int4 | .uint8 | .uint4 | .int16 => false

/-- The integer class of the array: INT8, UINT8, INT4, UINT4 (R194). -/
def isArrayInt : ElemType → Bool
  | .int8 | .uint8 | .int4 | .uint4 => true
  | .fp32 | .bf16 | .fp16 | .e4m3 | .e5m2 | .e2m1 | .int32 | .int16 => false

/-- The types of vector arithmetic (R423). -/
def isVector : ElemType → Bool
  | .fp32 | .bf16 | .fp16 | .int32 | .int16 | .int8 | .uint8 => true
  | .e4m3 | .e5m2 | .e2m1 | .int4 | .uint4 => false

end ElemType

/-- Weight and activation types are of one class (R194). -/
def sameArrayClass (a o : ElemType) : Bool :=
  (a.is16 && decide (a = o)) || (a.isNarrow && o.isNarrow) || (a.isArrayInt && o.isArrayInt)

/-- B, the size of a weight block with its metadata (R195). -/
def weightBlockBytes (ot : ElemType) (g : GroupSize) : Nat :=
  32 * ot.bits + (if ot.isNarrow || (ot.isArrayInt && decide (g ≠ .none)) then 64 else 0)

/-- A length in bytes from 8 to `hi`, a multiple of 8 (R135). -/
def lenOk (len : BitVec 32) (hi : Nat) : Bool :=
  decide (len.toNat % 8 = 0 ∧ 8 ≤ len.toNat ∧ len.toNat ≤ hi)

/-- SC is must-be-zero without acquire and release (R60). -/
def MemOrder.ok (o : MemOrder) : Bool := o.acq || o.rel || decide (o.sc = .core)

/-- Tag bits of a local operand: .k needs .t, and W is untagged (R61, R127, R135). -/
def tagsOk (sp : Space) (t k : Bool) : Bool := (!t || decide (sp ≠ .w)) && (!k || t)

/-- Limits of LD and ST on size, extension, tags and space (R375, R411). -/
def localOk (sz : Size) (sx tg k : Bool) (sp : Space) : Bool :=
  !(sx && decide (sz = .d)) && tagsOk sp tg k && (decide (sp ≠ .e) || (decide (sz = .d) && !tg))

/-- An integer result takes no rounding mode (R420). -/
def rmOk (ty : ElemType) (rm : RoundMode) : Bool := ty.isFloat || decide (rm = .rne)

/-- A conversion between integer types takes no rounding mode (R363, R429). -/
def cvtOk (dst src : ElemType) (rm : RoundMode) : Bool :=
  dst.isFloat || src.isFloat || decide (rm = .rne)

/-- The conditions that a floating comparison accepts (R59). -/
def Cond.floatOk : Cond → Bool
  | .eq | .ne | .lt | .le | .gt | .ge => true
  | .ltu | .leu | .gtu | .geu => false

/-- A branch offset is a multiple of 4 (R57). -/
def offOk (off : BitVec 32) : Bool := decide (off.toNat % 4 = 0)

/-- The numbers of the unprivileged CSR table (R82). -/
def userCsrs : List Nat :=
  [0x000, 0x001, 0x002, 0x003, 0x010, 0x011, 0x012, 0x013, 0x018, 0x019, 0x01A, 0x020, 0x021, 0x022, 0x023,
   0x024, 0x025, 0x026, 0x027, 0x028, 0x029, 0x02A, 0x030]

/-- The numbers of the supervisor CSR map (R293). -/
def supCsrs : List Nat :=
  [0x100, 0x101, 0x102, 0x103, 0x104, 0x105, 0x106, 0x107, 0x108, 0x109, 0x10A]

/-- The CSRs all of whose fields are RO (R20, R82 to R84, R91, R173, R178, R293): CSRW of them raises ILLEGAL_ENC
(R63). -/
def roCsrs : List Nat :=
  [0x000, 0x001, 0x002, 0x003, 0x010, 0x011, 0x012, 0x013, 0x018, 0x01A, 0x020, 0x023, 0x027, 0x105]

/-- A CSR number that one of the two tables holds (R63). -/
def csrKnown (n : Nat) : Bool := userCsrs.contains n || supCsrs.contains n

/-- The types that NMSCAN accepts (R229). -/
def scanTypeOk (ty : ElemType) : Bool := ty.isVector

/-- An atomic's tag is must-be-zero without .tg (R341). -/
def AtomicArgs.ok (x : AtomicArgs) : Bool := x.ord.ok && (x.tg || decide (x.tag = 0))

/-- Limits of GET and PUT (R135, R365, R396). -/
def XferArgs.ok (x : XferArgs) : Bool :=
  x.ord.ok && decide (x.lsp ≠ .e) && tagsOk x.lsp x.t x.k && (x.lin || decide (x.c = 0)) && lenOk x.len 0xC000

/-- Limits of GRIST (R135, R368). -/
def XferArgs.gristOk (x : XferArgs) : Bool :=
  x.ord.ok && decide (x.lsp ≠ .e) && tagsOk x.lsp x.t x.k && !x.lin && lenOk x.len 0xFFFFFFF8

/-- Limits of CPY, SEND.d and SEND.p: R135, R140, R262. -/
def CopyArgs.ok (x : CopyArgs) (hi : Nat) : Bool :=
  x.ord.ok && decide (x.lsp ≠ .e) && tagsOk x.lsp x.t x.k && decide (x.dsp ≠ .e) && tagsOk x.dsp x.dt x.dk &&
    lenOk x.len hi

/-- Limits of SEND.i (R262). -/
def InboxArgs.ok (x : InboxArgs) : Bool :=
  x.ord.ok && decide (x.lsp ≠ .e) && tagsOk x.lsp x.t x.k && lenOk x.len 256

/-- Limits of MMUL that the word alone decides (R194, R198 to R200, R218). -/
def MmulArgs.ok (x : MmulArgs) : Bool :=
  sameArrayClass x.at' x.ot && (decide (x.grp = .none) || x.ot.isArrayInt) && (!x.k || x.tg) &&
    decide (1 ≤ x.ksteps.toNat ∧ 1 ≤ x.nvec.toNat ∧ x.nvec.toNat ≤ 32 ∧ x.stride.toNat % 8 = 0 ∧
      x.woff.toNat + x.ksteps.toNat * weightBlockBytes x.ot x.grp ≤ 0xC000) &&
    (!x.st || decide (x.ksteps = 1 ∧ x.woff = 0))

/-- Limits of MCORR (R194, R198, R200, R218). -/
def McorrArgs.ok (x : McorrArgs) : Bool :=
  x.ty.isWide && (!x.k || x.tg) &&
    decide (1 ≤ x.nvec.toNat ∧ x.nvec.toNat ≤ 16 ∧ x.stride.toNat % 8 = 0)

/-- Limits of MSPLIT (R198, R200, R211). -/
def MsplitArgs.ok (x : MsplitArgs) : Bool :=
  x.ty.is16 && (!x.k || x.tg) &&
    decide (1 ≤ x.nvec.toNat ∧ x.nvec.toNat ≤ 16 ∧ x.stride.toNat % 8 = 0)

/-- The row is a step of another agent than a context: it has no instruction word. -/
def Instr.isEvent : Instr → Bool
  | .repetitionReissue .. | .awaitRegistrationRetry .. | .evwaitRegistrationRetry .. | .kilnAnswer ..
  | .sendIRetry .. | .nmcPart .. | .nodeSwitch .. | .splice .. | .msplitJoin .. | .matrixCommandStart ..
  | .matrixSuspend .. | .bump .. | .stall .. | .watchdog .. | .nbrdTimeout .. | .sleepWake .. | .phaseCompletion ..
  | .programLoad .. | .queueDispatch .. | .launch .. | .barrier .. | .copy .. | .nmem .. | .eventPacket ..
  | .nopPacket .. | .barrierRound .. | .packetCompletion .. | .taskPlace .. | .wake .. | .teamStart ..
  | .taskComplete .. | .takeRequest .. | .takeWithdraw .. | .teamSave .. | .teamResume .. | .marker ..
  | .lineDrain .. | .kilnDrainTimeout .. | .kilnPageCopy .. | .kilnComplete .. | .hostRead .. | .hostWrite ..
  | .hostAtomic .. | .cxlMemRead .. | .cxlMemWrite .. | .queueWindowFetchadd .. | .queueWindowRead ..
  | .eventWindowWrite .. | .eventWindowRead .. | .mgmtErrClear .. | .mgmtReset .. | .hotReset | .warmResetComplete
  | .coldStart .. | .startUpComplete | .timeset .. | .ptmintWrite .. | .ptmDialogue .. | .fullReport | .shortReport
  | .registerWrite .. | .powerGrant .. | .thermalTrip .. | .linkDead .. | .linkRetrained .. | .linkStateNotice ..
  | .drainRound .. | .remoteAtomicTimeout .. | .tagTupleExpiry .. | .peerRequest .. | .peerRetireTimeout ..
  | .replicaWriteTimeout .. | .droppedWindowWrite .. | .remoteKilnStart .. | .remoteRollback .. => true
  | _ => false

/-- The limits on an instruction's operands that its word alone decides. An event has no word, and none is asked of
it here. -/
def Instr.wellFormed : Instr → Bool
  | .shlImm _ _ k | .shrImm _ _ k | .sraImm _ _ k | .rolImm _ _ k => decide (k.toNat ≤ 63)
  | .bfx _ _ _ lsb wm1 | .bfi _ _ lsb wm1 => decide (lsb.toNat + wm1.toNat + 1 ≤ 64)
  | .fadd ty .. | .fsub ty .. | .fmul ty .. | .ffma ty .. | .fmin ty .. | .fmax ty .. => ty.isWide
  | .fcmp c ty .. => c.floatOk && ty.isWide
  | .fcvt dst src rm _ _ => cvtOk dst src rm
  | .br off | .brc _ _ _ off | .call off | .chk _ _ off => offOk off
  | .yield mask budget => decide (mask.toNat % 2 = 0) && decide (budget ≠ 0)
  | .ld sz sx tg k _ m => localOk sz sx tg k m.sp
  | .st sz tg k _ m => localOk sz false tg k m.sp
  | .lds sz sx tg k _ m => localOk sz sx tg k m.sp && decide (m.sp ≠ .e)
  | .tagTest _ _ m | .tagEmpty _ m | .tagFull _ m | .tagSpent _ m => decide (m.sp = .a ∨ m.sp = .c)
  | .evsig _ ct a off h => offOk off && (decide (h ≠ 0) || decide (ct = 0 ∧ a = 0 ∧ off = 0))
  | .recv sz sx tg k _ _ _ => localOk sz sx tg k .a
  | .plog op _ a b => (decide (op = .reg) || decide (a.val < 8)) && (decide (op ≠ .not) || decide (b = 0))
  | .gset g _ | .gres g _ => decide (g ≠ 0)
  | .repseq n => decide (1 ≤ n.toNat ∧ n.toNat ≤ 16)
  | .aadd x | .aaddw x | .aswap x | .acas x _ | .amin x | .amax x | .aand x | .aor x => x.ok
  | .await _ _ _ _ _ acq sc => acq || decide (sc = .core)
  | .evpost _ _ _ _ ord | .done _ _ _ ord | .rowmig _ _ _ _ ord | .tspawn _ _ _ _ _ ord
  | .lflat _ _ _ _ ord | .lrebase _ _ _ _ _ ord | .lpack _ _ _ _ ord => ord.ok
  | .heatage _ _ _ ord n => ord.ok && decide (1 ≤ n.toNat ∧ n.toNat ≤ 8)
  | .rowrank _ _ _ _ ord h => ord.ok && decide (1 ≤ h.toNat)
  | .csrr _ csr => csrKnown csr.toNat
  | .csrw _ csr => csrKnown csr.toNat && !roCsrs.contains csr.toNat
  | .tlbinv all _ _ a => !all || decide (a = 0)
  | .get x | .put x => x.ok
  | .grist x | .gristScatter x => x.gristOk
  | .cpy x => x.ok 0xC000
  | .sendD x | .sendP x => x.ok 256
  | .sendI x => x.ok
  | .nmc _ _ _ _ ord len => ord.ok && decide (len ≠ 0)
  | .nmscan _ _ _ _ _ _ ord ty kmax len => ord.ok && scanTypeOk ty && decide (kmax ≠ 0) && decide (len ≠ 0)
  | .vclaim n => decide (n.toNat % 8 = 0 ∧ 8 ≤ n.toNat ∧ n.toNat ≤ 64)
  | .vld _ sp t k _ _ _ => decide (sp ≠ .e) && tagsOk sp t k
  | .vst _ sp t k _ _ _ => decide (sp = .a ∨ sp = .c) && tagsOk sp t k
  | .vadd ty rm .. | .vsub ty rm .. | .vmul ty rm .. | .vfma ty rm .. => ty.isVector && rmOk ty rm
  | .vmax ty .. | .vmin ty .. | .vabs ty .. => ty.isVector
  | .vcvt dst src rm _ _ _ => cvtOk dst src rm
  | .vqnt ty _ vd _ vc _ => ty.isNarrow && decide (vc ≠ vd)
  | .vdqn ty .. => ty.isNarrow
  | .vred op ty rm .. | .vscan op ty rm .. =>
      ty.isVector && (decide (rm = .rne) || (decide (op = .sum) && ty.isFloat))
  | .vcmp c ty .. => ty.isVector && (c.floatOk || !ty.isFloat)
  | .vfn _ ty .. => ty.isWide
  | .mlds _ grp ot _ _ _ _ woff =>
      (ot.is16 || ot.isNarrow || ot.isArrayInt) && (decide (grp = .none) || ot.isArrayInt) &&
        decide (woff.toNat % 64 = 0 ∧ woff.toNat + weightBlockBytes ot grp ≤ 0xC000)
  | .mmul x => x.ok
  | .mcorr x => x.ok
  | .msplit x => x.ok
  | _ => true

end Sys2Proof
end

