-- ==== Sys2Proof/Decode.lean ====
section
/-! DEFINITION. The decoder (R50 to R66) and, after it, the encoder written from the same tables. A format of R54 is
the list of its field widths from bit 0 up; `unpack` cuts a word into those fields and `pack` joins them. Every field
that an entry does not name is must-be-zero (R56). -/

namespace Sys2Proof

/-- Why a word is no instruction (R51, R53, R56). `truncated` is no fault of the hardware: fewer bytes were given
than the length of the first parcel asks for. -/
inductive DecodeError where
  | illegalLen
  | illegalOp
  | illegalEnc
  | truncated
  deriving DecidableEq, Repr

/-- What decoding a word answers. -/
abbrev Dec := Except DecodeError Instr

/-- The fields of `x`, given their widths from bit 0 up. -/
def unpack : List Nat → Nat → List Nat
  | [], _ => []
  | w :: ws, x => x % 2 ^ w :: unpack ws (x / 2 ^ w)

/-- The word whose fields are given, as pairs of width and value from bit 0 up. -/
def pack : List (Nat × Nat) → Nat
  | [] => 0
  | (w, v) :: r => v + 2 ^ w * pack r

/-! ## The formats of R54 -/

/-- Length, opcode, D, A, B, C, M, FN, zero. -/
def fmtR : List Nat := [2, 8, 5, 5, 5, 5, 4, 8, 22]
/-- Length, opcode, D, A, M, FN, IMM. -/
def fmtI : List Nat := [2, 8, 5, 5, 4, 8, 32]
/-- Length, opcode, A, B, CND, FN, OFF. -/
def fmtB : List Nat := [2, 8, 5, 5, 4, 8, 32]
/-- Length, opcode, D, BASE, SP, SZ, TG, SX, FN, OFF16, zero. -/
def fmtM : List Nat := [2, 8, 5, 5, 2, 3, 1, 1, 5, 16, 16]
/-- Length, opcode, D, A, B, GD, SC, AQ, RL, CT, C, FN, IMM14. -/
def fmtE : List Nat := [2, 8, 5, 5, 5, 3, 3, 1, 1, 4, 5, 8, 14]
/-- Length, opcode, D, A, CSR, FN, zero. -/
def fmtS : List Nat := [2, 8, 5, 5, 12, 8, 24]
/-- The fields of E, then LEN32. -/
def fmtEL : List Nat := [2, 8, 5, 5, 5, 3, 3, 1, 1, 4, 5, 8, 14, 32]
/-- Length, opcode, VD, VA, VB, VC, PM, ZM, TY, RM, FN, zero, IMM32 or SREG. -/
def fmtV : List Nat := [2, 8, 5, 5, 5, 5, 3, 1, 4, 4, 8, 14, 32]
/-- Length, opcode, D, zero, FN, zero, IMM64. -/
def fmtX : List Nat := [2, 8, 5, 19, 8, 22, 64]
/-- Length, opcode, A, B, C, GD, PRI, CT, AT, OT, FN, GANG, ACC, TG, zero, KSTEPS, NVEC, WOFF, STRIDE. -/
def fmtMX : List Nat := [2, 8, 5, 5, 5, 3, 2, 4, 4, 4, 8, 1, 1, 1, 11, 16, 16, 16, 16]

/-! ## Codes -/

/-- A scalar register number; every 5-bit value is one (R58). -/
def regOf (n : Nat) : Reg := Fin.ofNat 32 n
/-- A 4-bit counter field; every value is valid (R58). -/
def cntOf (n : Nat) : Cnt := Fin.ofNat 16 n
/-- A 3-bit guard field; every value is valid (R58). -/
def gdOf (n : Nat) : Guard := Fin.ofNat 8 n
/-- A 3-bit predicate field; every value is valid (R58). -/
def predOf (n : Nat) : Pred := Fin.ofNat 8 n
/-- A vector register number, once bit 4 of the field is known to be zero (R58). -/
def vregOf (n : Nat) : VReg := Fin.ofNat 16 n
/-- A one-bit field. -/
def flag (n : Nat) : Bool := n == 1
/-- A one-bit field's value. -/
def bit (b : Bool) : Nat := if b then 1 else 0

/-- Condition codes 0 to 9 (R59). -/
def Cond.ofCode : Nat → Option Cond
  | 0 => some .eq | 1 => some .ne | 2 => some .lt | 3 => some .le | 4 => some .gt | 5 => some .ge
  | 6 => some .ltu | 7 => some .leu | 8 => some .gtu | 9 => some .geu | _ => none

def Cond.code : Cond → Nat
  | .eq => 0 | .ne => 1 | .lt => 2 | .le => 3 | .gt => 4 | .ge => 5 | .ltu => 6 | .leu => 7 | .gtu => 8 | .geu => 9

/-- Scope codes 0 to 6 (R60). -/
def Scope.ofCode : Nat → Option Scope
  | 0 => some .core | 1 => some .cluster | 2 => some .group | 3 => some .team | 4 => some .die
  | 5 => some .module | 6 => some .system | _ => none

def Scope.code : Scope → Nat
  | .core => 0 | .cluster => 1 | .group => 2 | .team => 3 | .die => 4 | .module => 5 | .system => 6

/-- Element type codes 0 to 11 (R62, R102). -/
def ElemType.ofCode : Nat → Option ElemType
  | 0 => some .fp32 | 1 => some .bf16 | 2 => some .fp16 | 3 => some .e4m3 | 4 => some .e5m2 | 5 => some .e2m1
  | 6 => some .int32 | 7 => some .int8 | 8 => some .int4 | 9 => some .uint8 | 10 => some .uint4
  | 11 => some .int16 | _ => none

def ElemType.code : ElemType → Nat
  | .fp32 => 0 | .bf16 => 1 | .fp16 => 2 | .e4m3 => 3 | .e5m2 => 4 | .e2m1 => 5 | .int32 => 6 | .int8 => 7
  | .int4 => 8 | .uint8 => 9 | .uint4 => 10 | .int16 => 11

/-- Rounding mode codes 0 to 4 (R62, R109). -/
def RoundMode.ofCode : Nat → Option RoundMode
  | 0 => some .rne | 1 => some .rz | 2 => some .rdn | 3 => some .rup | 4 => some .rs | _ => none

def RoundMode.code : RoundMode → Nat
  | .rne => 0 | .rz => 1 | .rdn => 2 | .rup => 3 | .rs => 4

/-- Size codes 0 to 3 (R61). -/
def Size.ofCode : Nat → Option Size
  | 0 => some .b | 1 => some .h | 2 => some .w | 3 => some .d | _ => none

def Size.code : Size → Nat
  | .b => 0 | .h => 1 | .w => 2 | .d => 3

/-- Space codes 0 to 3 (R61). -/
def Space.ofCode (n : Nat) : Space :=
  match n with
  | 0 => .w | 1 => .a | 2 => .c | _ => .e

def Space.code : Space → Nat
  | .w => 0 | .a => 1 | .c => 2 | .e => 3

/-- Levels 1 to 3 (R98). -/
def Level.ofCode : Nat → Option Level
  | 1 => some .l1 | 2 => some .l2 | 3 => some .l3 | _ => none

def Level.code : Level → Nat
  | .l1 => 1 | .l2 => 2 | .l3 => 3

/-- VOTE operations (R89). -/
def VoteOp.ofCode : Nat → Option VoteOp
  | 0 => some .and | 1 => some .or | 2 => some .sum | 3 => some .max | _ => none

def VoteOp.code : VoteOp → Nat
  | .and => 0 | .or => 1 | .sum => 2 | .max => 3

/-- PLOG operations (R174). -/
def PlogOp.ofCode : Nat → Option PlogOp
  | 0 => some .and | 1 => some .or | 2 => some .xor | 3 => some .andn | 4 => some .not | 5 => some .reg | _ => none

def PlogOp.code : PlogOp → Nat
  | .and => 0 | .or => 1 | .xor => 2 | .andn => 3 | .not => 4 | .reg => 5

/-- PCNT modes (R174). -/
def PcntMode.ofCode : Nat → Option PcntMode
  | 0 => some .count | 1 => some .lowest | 2 => some .bits | _ => none

def PcntMode.code : PcntMode → Nat
  | .count => 0 | .lowest => 1 | .bits => 2

/-- Reduction operations (R428). -/
def RedOp.ofCode : Nat → Option RedOp
  | 0 => some .sum | 1 => some .max | 2 => some .min | _ => none

def RedOp.code : RedOp → Nat
  | .sum => 0 | .max => 1 | .min => 2

/-- VFN functions (R430). -/
def FnOp.ofCode : Nat → Option FnOp
  | 0 => some .recip | 1 => some .sqrt | 2 => some .rsqrt | 3 => some .exp2 | 4 => some .log2 | 5 => some .exp
  | 6 => some .tanh | 7 => some .sigm | _ => none

def FnOp.code : FnOp → Nat
  | .recip => 0 | .sqrt => 1 | .rsqrt => 2 | .exp2 => 3 | .log2 => 4 | .exp => 5 | .tanh => 6 | .sigm => 7

/-- Group sizes (R196). -/
def GroupSize.ofCode (n : Nat) : GroupSize :=
  match n with
  | 0 => .none | 1 => .g32 | 2 => .g64 | _ => .g128

def GroupSize.code : GroupSize → Nat
  | .none => 0 | .g32 => 1 | .g64 => 2 | .g128 => 3

/-- WHERE codes (R140). -/
def Where.ofCode : Nat → Option Where
  | 0 => some .issuer | 1 => some .destination | 2 => some .both | _ => none

def Where.code : Where → Nat
  | .issuer => 0 | .destination => 1 | .both => 2

/-- TLBINV reach (R414). -/
def Reach.ofCode : Nat → Option Reach
  | 0 => some .core | 1 => some .die | 2 => some .module | _ => none

def Reach.code : Reach → Nat
  | .core => 0 | .die => 1 | .module => 2

/-! ## Decoding -/

/-- The instruction `i`, unless a field that must be zero is not, or `i` breaks a limit (R56). -/
def mk (zeros : List Nat) (i : Instr) : Dec :=
  if zeros.all (· == 0) && i.wellFormed then .ok i else .error .illegalEnc

/-- Goes on with a code's meaning; a code without one raises ILLEGAL_ENC. -/
def withCode {α : Type} (o : Option α) (k : α → Dec) : Dec :=
  match o with
  | some x => k x
  | none => .error .illegalEnc

def asR (w : Nat) (k : (d a b c m fn z : Nat) → Dec) : Dec :=
  match unpack fmtR w with
  | [_, _, d, a, b, c, m, fn, z] => k d a b c m fn z
  | _ => .error .illegalEnc

def asI (w : Nat) (k : (d a m fn imm : Nat) → Dec) : Dec :=
  match unpack fmtI w with
  | [_, _, d, a, m, fn, imm] => k d a m fn imm
  | _ => .error .illegalEnc

def asB (w : Nat) (k : (a b cnd fn off : Nat) → Dec) : Dec :=
  match unpack fmtB w with
  | [_, _, a, b, cnd, fn, off] => k a b cnd fn off
  | _ => .error .illegalEnc

def asM (w : Nat) (k : (d base sp sz tg sx fn off z : Nat) → Dec) : Dec :=
  match unpack fmtM w with
  | [_, _, d, base, sp, sz, tg, sx, fn, off, z] => k d base sp sz tg sx fn off z
  | _ => .error .illegalEnc

def asE (w : Nat) (k : (d a b gd sc aq rl ct c fn imm : Nat) → Dec) : Dec :=
  match unpack fmtE w with
  | [_, _, d, a, b, gd, sc, aq, rl, ct, c, fn, imm] => k d a b gd sc aq rl ct c fn imm
  | _ => .error .illegalEnc

def asS (w : Nat) (k : (d a csr fn z : Nat) → Dec) : Dec :=
  match unpack fmtS w with
  | [_, _, d, a, csr, fn, z] => k d a csr fn z
  | _ => .error .illegalEnc

def asEL (w : Nat) (k : (d a b gd sc aq rl ct c fn imm len : Nat) → Dec) : Dec :=
  match unpack fmtEL w with
  | [_, _, d, a, b, gd, sc, aq, rl, ct, c, fn, imm, len] => k d a b gd sc aq rl ct c fn imm len
  | _ => .error .illegalEnc

def asV (w : Nat) (k : (vd va vb vc pm zm ty rm fn z imm : Nat) → Dec) : Dec :=
  match unpack fmtV w with
  | [_, _, vd, va, vb, vc, pm, zm, ty, rm, fn, z, imm] => k vd va vb vc pm zm ty rm fn z imm
  | _ => .error .illegalEnc

def asX (w : Nat) (k : (d z1 fn z2 imm : Nat) → Dec) : Dec :=
  match unpack fmtX w with
  | [_, _, d, z1, fn, z2, imm] => k d z1 fn z2 imm
  | _ => .error .illegalEnc

def asMX (w : Nat) (k : (a b c gd pri ct aty oty fn gang acc tg z ks nv wo st : Nat) → Dec) : Dec :=
  match unpack fmtMX w with
  | [_, _, a, b, c, gd, pri, ct, aty, oty, fn, gang, acc, tg, z, ks, nv, wo, st] =>
    k a b c gd pri ct aty oty fn gang acc tg z ks nv wo st
  | _ => .error .illegalEnc

/-- OP d, a, b (R344). -/
def decRRR (w : Nat) (f : Reg → Reg → Reg → Instr) : Dec :=
  asR w fun d a b c m fn z => mk [c, m, fn, z] (f (regOf d) (regOf a) (regOf b))

/-- OP d, a (R349, R384). -/
def decRR (w : Nat) (f : Reg → Reg → Instr) : Dec :=
  asR w fun d a b c m fn z => mk [b, c, m, fn, z] (f (regOf d) (regOf a))

/-- OP d, a, imm (R344). -/
def decRRI (w : Nat) (f : Reg → Reg → BitVec 32 → Instr) : Dec :=
  asI w fun d a m fn imm => mk [m, fn] (f (regOf d) (regOf a) (BitVec.ofNat 32 imm))

/-- FADD and its kin (R361): FN holds the type, M the rounding mode. -/
def decFRRR (w : Nat) (f : ElemType → RoundMode → Reg → Reg → Reg → Instr) : Dec :=
  asR w fun d a b c m fn z =>
    withCode (ElemType.ofCode fn) fun ty => withCode (RoundMode.ofCode m) fun rm =>
      mk [c, z] (f ty rm (regOf d) (regOf a) (regOf b))

/-- The order fields SC, AQ, RL (R60). -/
def withOrder (sc aq rl : Nat) (k : MemOrder → Dec) : Dec :=
  withCode (Scope.ofCode sc) fun s => k { acq := flag aq, rel := flag rl, sc := s }

/-- The flat atomics (R341); `f` takes field C too. FN[0] is .w and FN[1] is .tg. -/
def decAtomic (w : Nat) (useC : Bool) (f : AtomicArgs → Reg → Instr) : Dec :=
  asE w fun d a b gd sc aq rl ct c fn imm =>
    match unpack [1, 1, 6] fn with
    | [fw, ftg, fz] => withOrder sc aq rl fun ord =>
      mk [fz, if useC then 0 else c]
        (f { w := flag fw, tg := flag ftg, d := regOf d, a := regOf a, b := regOf b, ct := cntOf ct, gd := gdOf gd,
             ord := ord, tag := BitVec.ofNat 14 imm } (regOf c))
    | _ => .error .illegalEnc

/-- GET, PUT and GRIST (R135). `dir` says which DIR and LIN values the form takes. -/
def decXfer (w : Nat) (f : (dir : Nat) → XferArgs → Instr) (grist : Bool) : Dec :=
  asEL w fun d a b gd sc aq rl ct c fn imm len =>
    match unpack [2, 1, 1, 1, 1, 2] fn with
    | [lsp, t, k, lin, dir, fz] => withOrder sc aq rl fun ord =>
      mk [d, imm, fz, if grist then 0 else dir]
        (f dir { a := regOf a, b := regOf b, c := regOf c, ct := cntOf ct, gd := gdOf gd, ord := ord,
                 lsp := Space.ofCode lsp, t := flag t, k := flag k, lin := flag lin, len := BitVec.ofNat 32 len })
    | _ => .error .illegalEnc

/-- The operands that CPY, SEND.d and SEND.p share (R135, R262): source fields from FN, destination from IMM14. -/
def decCopy (d a b gd sc aq rl ct c lsp t k imm len : Nat) (zeros : List Nat) (f : CopyArgs → Instr) : Dec :=
  match unpack [2, 2, 1, 1, 8] imm with
  | [dsp, wh, dt, dk, iz] => withOrder sc aq rl fun ord => withCode (Where.ofCode wh) fun wh =>
    mk (d :: iz :: zeros)
      (f { a := regOf a, b := regOf b, c := regOf c, ct := cntOf ct, gd := gdOf gd, ord := ord,
           lsp := Space.ofCode lsp, t := flag t, k := flag k, dsp := Space.ofCode dsp, wh := wh, dt := flag dt,
           dk := flag dk, len := BitVec.ofNat 32 len })
  | _ => .error .illegalEnc

/-- SEND.i (R262): C, the destination space, DT and DK are must-be-zero. -/
def decInbox (d a b gd sc aq rl ct c lsp t k imm len : Nat) (zeros : List Nat) : Dec :=
  match unpack [2, 2, 1, 1, 8] imm with
  | [dsp, wh, dt, dk, iz] => withOrder sc aq rl fun ord => withCode (Where.ofCode wh) fun wh =>
    mk (d :: iz :: c :: dsp :: dt :: dk :: zeros)
      (.sendI { a := regOf a, b := regOf b, ct := cntOf ct, gd := gdOf gd, ord := ord, lsp := Space.ofCode lsp,
                t := flag t, k := flag k, wh := wh, len := BitVec.ofNat 32 len })
  | _ => .error .illegalEnc

/-- M-format operands (R54, R61). -/
def memArg (sp base off : Nat) : MemArg :=
  { sp := Space.ofCode sp, base := regOf base, off := BitVec.ofNat 16 off }

/-- LD, LDS and RECV: FN[0] is .k (R375). -/
def decLoad (w : Nat) (f : Size → Bool → Bool → Bool → Reg → MemArg → Instr) : Dec :=
  asM w fun d base sp sz tg sx fn off z =>
    match unpack [1, 4] fn with
    | [k, fz] => withCode (Size.ofCode sz) fun sz =>
      mk [fz, z] (f sz (flag sx) (flag tg) (flag k) (regOf d) (memArg sp base off))
    | _ => .error .illegalEnc

/-- TAG (R412): FN[1:0] is the operation, and D is named by TEST alone. -/
def decTag (w : Nat) : Dec :=
  asM w fun d base sp sz tg sx fn off z =>
    match unpack [2, 3] fn with
    | [op, fz] => withCode (Size.ofCode sz) fun sz =>
      match op with
      | 0 => mk [tg, sx, fz, z] (.tagTest sz (regOf d) (memArg sp base off))
      | 1 => mk [d, tg, sx, fz, z] (.tagEmpty sz (memArg sp base off))
      | 2 => mk [d, tg, sx, fz, z] (.tagFull sz (memArg sp base off))
      | _ => mk [d, tg, sx, fz, z] (.tagSpent sz (memArg sp base off))
    | _ => .error .illegalEnc

/-- Lane selection fields. -/
def maskOf (zm pm : Nat) : VMask := { zm := flag zm, pm := predOf pm }

/-- The second operand of a vector instruction (R420): FN[0] = 0 names VB and asks for a zero SREG field, FN[0] = 1
names SREG in [68:64] and asks for a zero VB. -/
def withVOperand (s vb imm : Nat) (k : VOperand → Dec) : Dec :=
  if s == 0 then
    if imm == 0 && vb < 16 then k (.vec (vregOf vb)) else .error .illegalEnc
  else
    if vb == 0 && imm < 32 then k (.scalar (regOf imm)) else .error .illegalEnc

/-- VADD and its kin (R423): VD, VA, second operand, TY, RM. -/
def decVArith (w : Nat) (f : ElemType → RoundMode → VReg → VReg → VOperand → VMask → Instr) : Dec :=
  asV w fun vd va vb vc pm zm ty rm fn z imm =>
    match unpack [1, 7] fn with
    | [s, fz] => withCode (ElemType.ofCode ty) fun ty => withCode (RoundMode.ofCode rm) fun rm =>
      withVOperand s vb imm fun b =>
        mk [vd / 16, va / 16, vc, fz, z] (f ty rm (vregOf vd) (vregOf va) b (maskOf zm pm))
    | _ => .error .illegalEnc

/-- VMAX and VMIN (R423): as VADD with RM must-be-zero. -/
def decVMinMax (w : Nat) (f : ElemType → VReg → VReg → VOperand → VMask → Instr) : Dec :=
  asV w fun vd va vb vc pm zm ty rm fn z imm =>
    match unpack [1, 7] fn with
    | [s, fz] => withCode (ElemType.ofCode ty) fun ty => withVOperand s vb imm fun b =>
        mk [vd / 16, va / 16, vc, rm, fz, z] (f ty (vregOf vd) (vregOf va) b (maskOf zm pm))
    | _ => .error .illegalEnc

/-- The bitwise instructions and shifts (R424): TY and RM must be zero; FN[1] is .s of VSHR. -/
def decVBits (w : Nat) (sOk : Bool) (f : Bool → VReg → VReg → VOperand → VMask → Instr) : Dec :=
  asV w fun vd va vb vc pm zm ty rm fn z imm =>
    match unpack [1, 1, 6] fn with
    | [s, ar, fz] => withVOperand s vb imm fun b =>
        mk [vd / 16, va / 16, vc, ty, rm, fz, z, if sOk then 0 else ar]
          (f (flag ar) (vregOf vd) (vregOf va) b (maskOf zm pm))
    | _ => .error .illegalEnc

/-- VRED and VSCAN (R428): FN[1:0] is the operation. -/
def decVRed (w : Nat) (f : RedOp → ElemType → RoundMode → VReg → VReg → VMask → Instr) : Dec :=
  asV w fun vd va vb vc pm zm ty rm fn z imm =>
    withCode (RedOp.ofCode fn) fun op => withCode (ElemType.ofCode ty) fun ty =>
      withCode (RoundMode.ofCode rm) fun rm =>
        mk [vd / 16, va / 16, vb, vc, z, imm] (f op ty rm (vregOf vd) (vregOf va) (maskOf zm pm))

/-- VQNT and VDQN (R431, R432). -/
def decVQuant (w : Nat) (f : ElemType → RoundMode → VReg → VReg → VReg → VMask → Instr) : Dec :=
  asV w fun vd va vb vc pm zm ty rm fn z imm =>
    withCode (ElemType.ofCode ty) fun ty => withCode (RoundMode.ofCode rm) fun rm =>
      mk [vd / 16, va / 16, vc / 16, vb, fn, z, imm]
        (f ty rm (vregOf vd) (vregOf va) (vregOf vc) (maskOf zm pm))

/-- VLD (R433): FN[1:0] is the space, FN[2] .t, FN[3] .k; the base register is SREG. -/
def decVld (w : Nat) : Dec :=
  asV w fun vd va vb vc pm zm ty rm fn z imm =>
    match unpack [2, 1, 1, 4] fn with
    | [sp, t, k, fz] => withCode (ElemType.ofCode ty) fun ty =>
      mk [vd / 16, va, vb, vc, rm, fz, z, imm / 32]
        (.vld ty (Space.ofCode sp) (flag t) (flag k) (vregOf vd) (regOf imm) (maskOf zm pm))
    | _ => .error .illegalEnc

/-- VST (R434): as VLD, with ZM must-be-zero. -/
def decVst (w : Nat) : Dec :=
  asV w fun vd va vb vc pm zm ty rm fn z imm =>
    match unpack [2, 1, 1, 4] fn with
    | [sp, t, k, fz] => withCode (ElemType.ofCode ty) fun ty =>
      mk [vd / 16, va, vb, vc, zm, rm, fz, z, imm / 32]
        (.vst ty (Space.ofCode sp) (flag t) (flag k) (vregOf vd) (regOf imm) (predOf pm))
    | _ => .error .illegalEnc

/-- VFMA (R423). -/
def decVfma (w : Nat) : Dec :=
  asV w fun vd va vb vc pm zm ty rm fn z imm =>
    match unpack [1, 7] fn with
    | [s, fz] => withCode (ElemType.ofCode ty) fun ty => withCode (RoundMode.ofCode rm) fun rm =>
      withVOperand s vb imm fun b =>
        mk [vd / 16, va / 16, vc / 16, fz, z] (.vfma ty rm (vregOf vd) (vregOf va) b (vregOf vc) (maskOf zm pm))
    | _ => .error .illegalEnc

/-- VCMP (R425): VD names a predicate, FN[4:1] the condition. -/
def decVcmp (w : Nat) : Dec :=
  asV w fun vd va vb vc pm zm ty rm fn z imm =>
    match unpack [1, 4, 3] fn with
    | [s, c, fz] => withCode (ElemType.ofCode ty) fun ty => withCode (Cond.ofCode c) fun c =>
      withVOperand s vb imm fun b =>
        mk [vd / 8, va / 16, vc, rm, fz, z] (.vcmp c ty (predOf vd) (vregOf va) b (maskOf zm pm))
    | _ => .error .illegalEnc

/-- VBCAST (R426). -/
def decVbcast (w : Nat) : Dec :=
  asV w fun vd va vb vc pm zm ty rm fn z imm =>
    withCode (ElemType.ofCode ty) fun ty =>
      match fn with
      | 0 => mk [vd / 16, va, vb, vc, rm, z] (.vbcast ty (vregOf vd) (.imm (BitVec.ofNat 32 imm)) (maskOf zm pm))
      | 1 => mk [vd / 16, va, vb, vc, rm, z, imm / 32] (.vbcast ty (vregOf vd) (.scalar (regOf imm)) (maskOf zm pm))
      | _ => .error .illegalEnc

/-- VSHUF and VSEL (R425, R427): whole lanes, VC names a predicate. -/
def decVPred (w : Nat) (f : VReg → VReg → VReg → Pred → VMask → Instr) : Dec :=
  asV w fun vd va vb vc pm zm ty rm fn z imm =>
    mk [vd / 16, va / 16, vb / 16, vc / 8, ty, rm, fn, z, imm]
      (f (vregOf vd) (vregOf va) (vregOf vb) (predOf vc) (maskOf zm pm))

/-- VCVT (R429): TY is the destination, FN[3:0] the source. -/
def decVcvt (w : Nat) : Dec :=
  asV w fun vd va vb vc pm zm ty rm fn z imm =>
    withCode (ElemType.ofCode ty) fun dst => withCode (ElemType.ofCode fn) fun src =>
      withCode (RoundMode.ofCode rm) fun rm =>
        mk [vd / 16, va / 16, vb, vc, z, imm] (.vcvt dst src rm (vregOf vd) (vregOf va) (maskOf zm pm))

/-- VFN (R430). -/
def decVfn (w : Nat) : Dec :=
  asV w fun vd va vb vc pm zm ty rm fn z imm =>
    withCode (FnOp.ofCode fn) fun fn => withCode (ElemType.ofCode ty) fun ty =>
      withCode (RoundMode.ofCode rm) fun rm =>
        mk [vd / 16, va / 16, vb, vc, z, imm] (.vfn fn ty rm (vregOf vd) (vregOf va) (maskOf zm pm))

/-- A shift or other two-register lineage word (R158). -/
def decLin (w : Nat) (useB : Bool) (ordOk : Bool) (useCt : Bool)
    (f : (d a b : Reg) → Cnt → Guard → MemOrder → Instr) : Dec :=
  asEL w fun d a b gd sc aq rl ct c fn imm len =>
    withOrder sc aq rl fun ord =>
      mk [c, fn, imm, len, if useB then 0 else b, if ordOk then 0 else gd + sc + aq + rl, if useCt then 0 else ct]
        (f (regOf d) (regOf a) (regOf b) (cntOf ct) (gdOf gd) ord)

/-- LFORK (R158): FN 0, or FN 1 for .af, which alone names CT. -/
def decLfork (w : Nat) : Dec :=
  asEL w fun d a b gd sc aq rl ct c fn imm len =>
    match fn with
    | 0 => mk [b, gd, sc, aq, rl, ct, imm, len] (.lfork (regOf d) (regOf a) (regOf c))
    | 1 => mk [b, gd, sc, aq, rl, imm, len] (.lforkAf (regOf d) (regOf a) (regOf c) (cntOf ct))
    | _ => .error .illegalEnc

/-- The 64-bit space (R64). -/
def decode64 (op w : Nat) : Dec :=
  match op with
  | 0x00 => asR w fun d a b c m fn z => mk [d, a, b, c, m, fn, z] .nop
  | 0x01 => decRRR w .add
  | 0x02 => decRRR w .sub
  | 0x03 => decRRR w .mul
  | 0x04 => decRRR w .mulh
  | 0x05 => decRRR w .div
  | 0x06 => decRRR w .rem
  | 0x07 => decRRR w .and
  | 0x08 => decRRR w .or
  | 0x09 => decRRR w .xor
  | 0x0A => decRRR w .andn
  | 0x0B => decRRR w .shl
  | 0x0C => decRRR w .shr
  | 0x0D => decRRR w .sra
  | 0x0E => decRRR w .rol
  | 0x0F => decRRR w .min
  | 0x10 => decRRR w .max
  | 0x11 => asR w fun d a b c m fn z => withCode (Cond.ofCode m) fun cd =>
      mk [c, fn, z] (.cmp cd (regOf d) (regOf a) (regOf b))
  | 0x12 => asR w fun d a b c m fn z => mk [m, fn, z] (.sel (regOf d) (regOf a) (regOf b) (regOf c))
  | 0x13 => decRR w .clz
  | 0x14 => decRR w .popc
  | 0x15 => decRR w .mov
  | 0x18 => decFRRR w .fadd
  | 0x19 => decFRRR w .fsub
  | 0x1A => decFRRR w .fmul
  | 0x1B => asR w fun d a b c m fn z => withCode (ElemType.ofCode fn) fun ty => withCode (RoundMode.ofCode m) fun rm =>
      mk [z] (.ffma ty rm (regOf d) (regOf a) (regOf b) (regOf c))
  | 0x1C => asR w fun d a b c m fn z => withCode (ElemType.ofCode fn) fun ty =>
      mk [c, m, z] (.fmin ty (regOf d) (regOf a) (regOf b))
  | 0x1D => asR w fun d a b c m fn z => withCode (ElemType.ofCode fn) fun ty =>
      mk [c, m, z] (.fmax ty (regOf d) (regOf a) (regOf b))
  | 0x1E => asR w fun d a b c m fn z => withCode (ElemType.ofCode fn) fun ty => withCode (Cond.ofCode m) fun cd =>
      mk [c, z] (.fcmp cd ty (regOf d) (regOf a) (regOf b))
  | 0x1F => asR w fun d a b c m fn z =>
      match unpack [4, 4] fn with
      | [dst, src] => withCode (ElemType.ofCode dst) fun dst => withCode (ElemType.ofCode src) fun src =>
        withCode (RoundMode.ofCode m) fun rm => mk [b, c, z] (.fcvt dst src rm (regOf d) (regOf a))
      | _ => .error .illegalEnc
  | 0x20 => asB w fun a b cnd fn off => mk [a, b, cnd, fn] (.br (BitVec.ofNat 32 off))
  | 0x21 => asB w fun a b cnd fn off => withCode (Cond.ofCode cnd) fun cd =>
      mk [fn] (.brc cd (regOf a) (regOf b) (BitVec.ofNat 32 off))
  | 0x22 => asB w fun a b cnd fn off => mk [a, b, cnd, fn] (.call (BitVec.ofNat 32 off))
  | 0x23 => asR w fun d a b c m fn z => mk [d, b, c, m, fn, z] (.ret (regOf a))
  | 0x24 => decRR w .jmpr
  | 0x25 => asB w fun a b cnd fn off => mk [cnd, fn] (.chk (regOf a) (regOf b) (BitVec.ofNat 32 off))
  | 0x26 => asI w fun d a m fn imm => mk [d, a, m] (.yield (BitVec.ofNat 32 imm) (BitVec.ofNat 8 fn))
  | 0x27 => asR w fun d a b c m fn z => mk [d, b, c, m, fn, z] (.exit (regOf a))
  | 0x28 => asI w fun d a m fn imm => mk [d, a, m, fn, imm / 0x10000] (.trap (BitVec.ofNat 16 imm))
  | 0x30 => decLoad w .ld
  | 0x31 => asM w fun d base sp sz tg sx fn off z =>
      match unpack [1, 4] fn with
      | [k, fz] => withCode (Size.ofCode sz) fun sz =>
        mk [sx, fz, z] (.st sz (flag tg) (flag k) (regOf d) (memArg sp base off))
      | _ => .error .illegalEnc
  | 0x32 => decLoad w .lds
  | 0x33 => decTag w
  | 0x34 => asR w fun d a b c m fn z => mk [m, fn, z] (.hstart (regOf d) (regOf a) (regOf b) (regOf c))
  | 0x35 => decRR w .hjoin
  | 0x38 => asI w fun d a m fn imm => withCode (Level.ofCode imm) fun n =>
      match fn with
      | 0 => mk [d, a, m] (.phaseC n)
      | 1 => mk [d, a, m] (.phaseX n)
      | _ => .error .illegalEnc
  | 0x39 => asR w fun d a b c m fn z => withCode (VoteOp.ofCode fn) fun op => withCode (Level.ofCode m) fun n =>
      mk [b, c, z] (.vote op (regOf d) (regOf a) n)
  | 0x3A => asI w fun d a m fn imm =>
      if h : fn < 11 then mk [d / 8] (.evsig (gdOf d) (cntOf m) (regOf a) (BitVec.ofNat 32 imm) ⟨fn, h⟩)
      else .error .illegalEnc
  | 0x3B => asR w fun d a b c m fn z => mk [d, b, c, m, fn, z] (.sleept (regOf a))
  | 0x3C => asR w fun d a b c m fn z => mk [a, b, c, m, fn, z] (.time (regOf d))
  | 0x3D => asI w fun d a m fn imm =>
      match fn with
      | 0 => mk [d, m, a / 16] (.waitcGe (cntOf a) (BitVec.ofNat 32 imm))
      | 1 => mk [d, m, a, imm / 0x10000] (.waitcLeOl (BitVec.ofNat 16 imm))
      | 2 => mk [d, m, a, imm / 0x10000] (.waitcLeOs (BitVec.ofNat 16 imm))
      | _ => .error .illegalEnc
  | 0x3E => asI w fun d a m fn imm =>
      if h : imm < 4 then mk [m, fn, a / 8] (.nbrd (regOf d) (predOf a) ⟨imm, h⟩) else .error .illegalEnc
  | 0x3F => asM w fun d base sp sz tg sx fn off z =>
      match unpack [1, 4] fn with
      | [k, fz] => withCode (Size.ofCode sz) fun sz =>
        mk [fz, z, if sp == 1 then 0 else 1]
          (.recv sz (flag sx) (flag tg) (flag k) (regOf d) (regOf base) (BitVec.ofNat 16 off))
      | _ => .error .illegalEnc
  | 0x41 => decRRI w .addImm
  | 0x42 => decRRI w .subImm
  | 0x43 => decRRI w .mulImm
  | 0x47 => decRRI w .andImm
  | 0x48 => decRRI w .orImm
  | 0x49 => decRRI w .xorImm
  | 0x4B => decRRI w .shlImm
  | 0x4C => decRRI w .shrImm
  | 0x4D => decRRI w .sraImm
  | 0x4E => decRRI w .rolImm
  | 0x4F => decRRI w .minImm
  | 0x50 => decRRI w .maxImm
  | 0x51 => asI w fun d a m fn imm => withCode (Cond.ofCode m) fun cd =>
      mk [fn] (.cmpImm cd (regOf d) (regOf a) (BitVec.ofNat 32 imm))
  | 0x55 => asI w fun d a m fn imm =>
      match unpack [6, 2, 6, 18] imm with
      | [lsb, z1, wm1, z2] => mk [m, fn / 2, z1, z2]
          (.bfx (flag (fn % 2)) (regOf d) (regOf a) (BitVec.ofNat 6 lsb) (BitVec.ofNat 6 wm1))
      | _ => .error .illegalEnc
  | 0x56 => asI w fun d a m fn imm =>
      match unpack [6, 2, 6, 18] imm with
      | [lsb, z1, wm1, z2] => mk [m, fn, z1, z2]
          (.bfi (regOf d) (regOf a) (BitVec.ofNat 6 lsb) (BitVec.ofNat 6 wm1))
      | _ => .error .illegalEnc
  | 0x58 => asR w fun d a b c m fn z => withCode (PlogOp.ofCode fn) fun op =>
      mk [c, m, z, d / 8, b / 8] (.plog op (predOf d) (regOf a) (predOf b))
  | 0x59 => asR w fun d a b c m fn z => withCode (PcntMode.ofCode fn) fun md =>
      mk [b, c, m, z, a / 8] (.pcnt md (regOf d) (predOf a))
  | 0x5A => asI w fun d a m fn imm =>
      if h : imm < 3 then mk [a, m, fn, d / 8] (.gset (gdOf d) ⟨imm, h⟩) else .error .illegalEnc
  | 0x5B => asR w fun d a b c m fn z => mk [b, c, m, fn, z, d / 8] (.gres (gdOf d) (regOf a))
  | 0x5C => asI w fun d a m fn imm => mk [d, a, m, fn, imm / 32] (.repseq (BitVec.ofNat 5 imm))
  | 0x5D => asI w fun d a m fn imm => mk [d, a, m, fn / 16, imm / 0x10000]
      (.repgo (BitVec.ofNat 16 imm) (BitVec.ofNat 4 fn))
  | 0x5E => asI w fun d a m fn imm => mk [d, m, fn, a / 16] (.cntset (cntOf a) (BitVec.ofNat 32 imm))
  | 0x60 => decAtomic w false fun x _ => .aadd x
  | 0x61 => decAtomic w false fun x _ => .aaddw x
  | 0x62 => decAtomic w false fun x _ => .aswap x
  | 0x63 => decAtomic w true fun x c => .acas x c
  | 0x64 => decAtomic w false fun x _ => .amin x
  | 0x65 => decAtomic w false fun x _ => .amax x
  | 0x66 => decAtomic w false fun x _ => .aand x
  | 0x67 => decAtomic w false fun x _ => .aor x
  | 0x68 => asE w fun d a b gd sc aq rl ct c fn imm => withCode (Scope.ofCode sc) fun sc =>
      mk [gd, rl, c, fn / 2, imm] (.await (flag (fn % 2)) (regOf d) (regOf a) (regOf b) (cntOf ct) (flag aq) sc)
  | 0x6A => asE w fun d a b gd sc aq rl ct c fn imm => withOrder sc aq rl fun ord =>
      mk [d, c, fn, imm] (.evpost (regOf a) (regOf b) (cntOf ct) (gdOf gd) ord)
  | 0x6B => asE w fun d a b gd sc aq rl ct c fn imm =>
      mk [gd, sc, aq, rl, ct, c, fn, imm] (.evwait (regOf d) (regOf a) (regOf b))
  | 0x6C => asE w fun d a b gd sc aq rl ct c fn imm =>
      mk [d, a, b, sc, aq, rl, c, fn, imm] (.trig (cntOf ct) (gdOf gd))
  | 0x6D => asE w fun d a b gd sc aq rl ct c fn imm => withOrder sc aq rl fun ord =>
      mk [d, b, c, fn, imm] (.done (regOf a) (cntOf ct) (gdOf gd) ord)
  | 0x6E => asE w fun d a b gd sc aq rl ct c fn imm =>
      if h : imm < 4 then mk [d, a, sc, aq, rl, c, fn] (.wdq (regOf b) (cntOf ct) (gdOf gd) ⟨imm, h⟩)
      else .error .illegalEnc
  | 0x70 => asE w fun d a b gd sc aq rl ct c fn imm => withOrder sc aq rl fun ord =>
      mk [d, b, c, fn] (.heatage (regOf a) (cntOf ct) (gdOf gd) ord (BitVec.ofNat 14 imm))
  | 0x71 => asE w fun d a b gd sc aq rl ct c fn imm => withOrder sc aq rl fun ord =>
      mk [d, c, fn] (.rowrank (regOf a) (regOf b) (cntOf ct) (gdOf gd) ord (BitVec.ofNat 14 imm))
  | 0x72 => asE w fun d a b gd sc aq rl ct c fn imm => withOrder sc aq rl fun ord =>
      mk [d, c, fn, imm] (.rowmig (regOf a) (regOf b) (cntOf ct) (gdOf gd) ord)
  | 0x74 => asE w fun d a b gd sc aq rl ct c fn imm =>
      mk [a, b, gd, sc, aq, rl, c, fn / 2, imm] (.kiln (flag (fn % 2)) (regOf d) (cntOf ct))
  | 0x75 => asE w fun d a b gd sc aq rl ct c fn imm =>
      mk [b, gd, sc, aq, rl, ct, c, fn, imm] (.kilnst (regOf d) (regOf a))
  | 0x76 => asE w fun d a b gd sc aq rl ct c fn imm =>
      mk [b, gd, sc, aq, rl, c, fn, imm] (.kilnrel (regOf d) (regOf a) (cntOf ct))
  | 0x77 => asE w fun d a b gd sc aq rl ct c fn imm =>
      mk [b, gd, sc, aq, rl, c, fn, imm] (.kilnrb (regOf d) (regOf a) (cntOf ct))
  | 0x78 => asS w fun d a csr fn z => mk [a, fn, z] (.csrr (regOf d) (BitVec.ofNat 12 csr))
  | 0x79 => asS w fun d a csr fn z => mk [d, fn, z] (.csrw (regOf a) (BitVec.ofNat 12 csr))
  | 0x7A => asS w fun d a csr fn z => mk [d, a, csr, fn, z] .rfe
  | 0x7B => asS w fun d a csr fn z =>
      match unpack [1, 1, 2, 4] fn with
      | [al, any, rc, fz] => withCode (Reach.ofCode rc) fun rc =>
        mk [d, csr, z, fz] (.tlbinv (flag al) (flag any) rc (regOf a))
      | _ => .error .illegalEnc
  | 0x7C => asS w fun d a csr fn z => mk [d, a, csr, fn, z] .icinv
  | _ => .error .illegalOp

/-- The 96-bit space (R65). -/
def decode96 (op w : Nat) : Dec :=
  match op with
  | 0x01 => decXfer w (fun _ x => .get x) false
  | 0x02 => decXfer w (fun _ x => .put x) false
  | 0x03 => decXfer w (fun dir x => if dir == 0 then .grist x else .gristScatter x) true
  | 0x04 => asEL w fun d a b gd sc aq rl ct c fn imm len =>
      match unpack [2, 1, 1, 4] fn with
      | [lsp, t, k, fz] => decCopy d a b gd sc aq rl ct c lsp t k imm len [fz] .cpy
      | _ => .error .illegalEnc
  | 0x05 => asEL w fun d a b gd sc aq rl ct c fn imm len =>
      match unpack [2, 1, 1, 2, 2] fn with
      | [lsp, t, k, kind, fz] =>
        match kind with
        | 0 => decCopy d a b gd sc aq rl ct c lsp t k imm len [fz] .sendD
        | 1 => decCopy d a b gd sc aq rl ct c lsp t k imm len [fz] .sendP
        | 2 => decInbox d a b gd sc aq rl ct c lsp t k imm len [fz]
        | _ => .error .illegalEnc
      | _ => .error .illegalEnc
  | 0x06 => asEL w fun d a b gd sc aq rl ct c fn imm len => withOrder sc aq rl fun ord =>
      mk [d, a, fn, imm] (.nmc (regOf b) (regOf c) (cntOf ct) (gdOf gd) ord (BitVec.ofNat 32 len))
  | 0x07 => asEL w fun d a b gd sc aq rl ct c fn imm len => withOrder sc aq rl fun ord =>
      match unpack [4, 10] imm with
      | [ty, kmax] => withCode (ElemType.ofCode ty) fun ty =>
        mk [d, fn / 2] (.nmscan (flag (fn % 2)) (regOf a) (regOf b) (regOf c) (cntOf ct) (gdOf gd) ord ty
          (BitVec.ofNat 10 kmax) (BitVec.ofNat 32 len))
      | _ => .error .illegalEnc
  | 0x08 => asEL w fun d a b gd sc aq rl ct c fn imm len => withOrder sc aq rl fun ord =>
      mk [c, fn, imm, len] (.tspawn (regOf d) (regOf a) (regOf b) (cntOf ct) (gdOf gd) ord)
  | 0x10 => decLfork w
  | 0x11 => decLin w false true true fun d a _ ct gd ord => .lflat d a ct gd ord
  | 0x12 => decLin w true true true fun d a b ct gd ord => .lrebase d a b ct gd ord
  | 0x13 => decLin w false false true fun d a _ ct _ _ => .ldel d a ct
  | 0x14 => decLin w false true true fun d a _ ct gd ord => .lpack d a ct gd ord
  | 0x15 => decLin w false false false fun d a _ _ _ _ => .linfo d a
  | 0x20 => asV w fun vd va vb vc pm zm ty rm fn z imm =>
      mk [vd, va, vb, vc, pm, zm, ty, rm, fn, z, imm / 128] (.vclaim (BitVec.ofNat 7 imm))
  | 0x21 => asV w fun vd va vb vc pm zm ty rm fn z imm => mk [vd, va, vb, vc, pm, zm, ty, rm, fn, z, imm] .vrel
  | 0x22 => decVld w
  | 0x23 => decVst w
  | 0x24 => decVArith w .vadd
  | 0x25 => decVArith w .vsub
  | 0x26 => decVArith w .vmul
  | 0x27 => decVfma w
  | 0x28 => decVMinMax w .vmax
  | 0x29 => decVMinMax w .vmin
  | 0x2A => asV w fun vd va vb vc pm zm ty rm fn z imm => withCode (ElemType.ofCode ty) fun ty =>
      mk [vd / 16, va / 16, vb, vc, rm, fn, z, imm] (.vabs ty (vregOf vd) (vregOf va) (maskOf zm pm))
  | 0x2B => decVcvt w
  | 0x2C => decVQuant w .vqnt
  | 0x2D => decVQuant w .vdqn
  | 0x2E => decVRed w .vred
  | 0x2F => decVRed w .vscan
  | 0x30 => decVPred w .vshuf
  | 0x31 => decVcmp w
  | 0x32 => decVPred w .vsel
  | 0x33 => decVfn w
  | 0x34 => decVbcast w
  | 0x35 => asV w fun vd va vb vc pm zm ty rm fn z imm =>
      mk [vd / 16, va, vb, vc, ty, rm, fn, z] (.vidx (vregOf vd) (BitVec.ofNat 32 imm) (maskOf zm pm))
  | 0x36 => decVBits w false fun _ vd va b m => .vand vd va b m
  | 0x37 => decVBits w false fun _ vd va b m => .vor vd va b m
  | 0x38 => decVBits w false fun _ vd va b m => .vxor vd va b m
  | 0x39 => decVBits w false fun _ vd va b m => .vshl vd va b m
  | 0x3A => decVBits w true .vshr
  | _ => .error .illegalOp

/-- The 128-bit space (R66, R218). -/
def decode128 (op w : Nat) : Dec :=
  match op with
  | 0x01 => asX w fun d z1 fn z2 imm => mk [z1, fn, z2] (.movi (regOf d) (BitVec.ofNat 64 imm))
  | 0x02 => asMX w fun a b c gd pri ct aty oty fn gang acc tg z ks nv wo st =>
      match unpack [1, 2, 5] fn with
      | [act, grp, fz] => withCode (ElemType.ofCode oty) fun ot =>
        mk [a, b, c, aty, acc, tg, z, ks, nv, st, fz]
          (.mlds (flag act) (GroupSize.ofCode grp) ot (flag gang) (Fin.ofNat 4 pri) (cntOf ct) (gdOf gd)
            (BitVec.ofNat 16 wo))
      | _ => .error .illegalEnc
  | 0x03 => asMX w fun a b c gd pri ct aty oty fn gang acc tg z ks nv wo st =>
      mk [a, b, c, aty, oty, fn, acc, tg, z, ks, nv, wo, st]
        (.mswap (flag gang) (Fin.ofNat 4 pri) (cntOf ct) (gdOf gd))
  | 0x04 => asMX w fun a b c gd pri ct aty oty fn gang acc tg z ks nv wo st =>
      match unpack [1, 2, 1, 4] fn with
      | [s, grp, k, fz] => withCode (ElemType.ofCode aty) fun aty => withCode (ElemType.ofCode oty) fun oty =>
        mk [c, z, fz]
          (.mmul { a := regOf a, b := regOf b, ct := cntOf ct, gd := gdOf gd, pri := Fin.ofNat 4 pri, at' := aty,
                   ot := oty, st := flag s, grp := GroupSize.ofCode grp, k := flag k, gang := flag gang,
                   acc := flag acc, tg := flag tg, ksteps := BitVec.ofNat 16 ks, nvec := BitVec.ofNat 16 nv,
                   woff := BitVec.ofNat 16 wo, stride := BitVec.ofNat 16 st })
      | _ => .error .illegalEnc
  | 0x05 => asMX w fun a b c gd pri ct aty oty fn gang acc tg z ks nv wo st =>
      match unpack [3, 1, 4] fn with
      | [f0, k, fz] => withCode (ElemType.ofCode aty) fun aty =>
        mk [pri, oty, gang, acc, z, ks, wo, f0, fz]
          (.mcorr { a := regOf a, b := regOf b, c := regOf c, ct := cntOf ct, gd := gdOf gd, ty := aty, k := flag k,
                    tg := flag tg, nvec := BitVec.ofNat 16 nv, stride := BitVec.ofNat 16 st })
      | _ => .error .illegalEnc
  | 0x06 => asMX w fun a b c gd pri ct aty oty fn gang acc tg z ks nv wo st =>
      match unpack [3, 1, 4] fn with
      | [f0, k, fz] => withCode (ElemType.ofCode aty) fun aty' =>
        mk [z, wo, f0, fz, if gang == 1 && ks == 1 && aty == oty then 0 else 1]
          (.msplit { a := regOf a, b := regOf b, c := regOf c, ct := cntOf ct, gd := gdOf gd, pri := Fin.ofNat 4 pri,
                     ty := aty', k := flag k, acc := flag acc, tg := flag tg, nvec := BitVec.ofNat 16 nv,
                     stride := BitVec.ofNat 16 st })
      | _ => .error .illegalEnc
  | 0x07 => asMX w fun a b c gd pri ct aty oty fn gang acc tg z ks nv wo st =>
      match fn with
      | 0 => mk [a, b, c, pri, aty, oty, gang, acc, tg, z, ks, nv, wo, st] (.mgangWide (cntOf ct) (gdOf gd))
      | 1 => mk [a, b, c, pri, aty, oty, gang, acc, tg, z, ks, nv, wo, st] (.mgangDeep (cntOf ct) (gdOf gd))
      | _ => .error .illegalEnc
  | _ => .error .illegalOp

/-- The length in bytes that parcel 0 gives (R51); `none` for the code 11. -/
def lengthOf (parcel0 : Nat) : Option Nat :=
  match parcel0 % 4 with
  | 0 => some 8
  | 1 => some 12
  | 2 => some 16
  | _ => none

/-- The instruction of the word `w`, whose length its bits [1:0] give (R51, R53). -/
def decodeWord (w : Nat) : Dec :=
  match w % 4 with
  | 0 => decode64 (w / 4 % 256) (w % 2 ^ 64)
  | 1 => decode96 (w / 4 % 256) (w % 2 ^ 96)
  | 2 => decode128 (w / 4 % 256) (w % 2 ^ 128)
  | _ => .error .illegalLen

/-- The number that a list of bytes holds, the first byte lowest (R1, R50). -/
def leNat : List Byte → Nat
  | [] => 0
  | b :: bs => b.toNat + 256 * leNat bs

/-- The `n` bytes of a number, the lowest first (R1, R50). -/
def leBytes : Nat → Nat → List Byte
  | 0, _ => []
  | n + 1, x => BitVec.ofNat 8 x :: leBytes n (x / 256)

/-- Decodes the first instruction of a list of bytes, with the rest of the list. -/
def decodeBytes (bs : List Byte) : Except DecodeError (Instr × List Byte) :=
  if bs.length < 4 then .error .truncated
  else
    match lengthOf (leNat (bs.take 4)) with
    | none => .error .illegalLen
    | some n =>
      if bs.length < n then .error .truncated
      else
        match decodeWord (leNat (bs.take n)) with
        | .ok i => .ok (i, bs.drop n)
        | .error e => .error e

/-- The instruction whose bits are `w`, numbered from bit 0 of its first parcel; every bit from `nbits` up is zero. -/
def decodeTableWord (nbits w : Nat) : Option Instr :=
  match decodeBytes (leBytes 16 (w % 2 ^ nbits)) with
  | .ok (i, _) => some i
  | .error _ => none

/-! ## Encoding -/

def encR (op d a b c m fn : Nat) : Nat × Nat :=
  (8, pack [(2, 0), (8, op), (5, d), (5, a), (5, b), (5, c), (4, m), (8, fn), (22, 0)])

def encI (op d a m fn imm : Nat) : Nat × Nat :=
  (8, pack [(2, 0), (8, op), (5, d), (5, a), (4, m), (8, fn), (32, imm)])

def encB (op a b cnd off : Nat) : Nat × Nat :=
  (8, pack [(2, 0), (8, op), (5, a), (5, b), (4, cnd), (8, 0), (32, off)])

def encM (op d : Nat) (m : MemArg) (sz tg sx fn : Nat) : Nat × Nat :=
  (8, pack [(2, 0), (8, op), (5, d), (5, m.base.val), (2, m.sp.code), (3, sz), (1, tg), (1, sx), (5, fn),
    (16, m.off.toNat), (16, 0)])

def encE (op d a b gd : Nat) (o : MemOrder) (ct c fn imm : Nat) : Nat × Nat :=
  (8, pack [(2, 0), (8, op), (5, d), (5, a), (5, b), (3, gd), (3, o.sc.code), (1, bit o.acq), (1, bit o.rel),
    (4, ct), (5, c), (8, fn), (14, imm)])

def encS (op d a csr fn : Nat) : Nat × Nat :=
  (8, pack [(2, 0), (8, op), (5, d), (5, a), (12, csr), (8, fn), (24, 0)])

def encEL (op d a b gd : Nat) (o : MemOrder) (ct c fn imm len : Nat) : Nat × Nat :=
  (12, pack [(2, 1), (8, op), (5, d), (5, a), (5, b), (3, gd), (3, o.sc.code), (1, bit o.acq), (1, bit o.rel),
    (4, ct), (5, c), (8, fn), (14, imm), (32, len)])

def encV (op vd va vb vc : Nat) (m : VMask) (ty rm fn imm : Nat) : Nat × Nat :=
  (12, pack [(2, 1), (8, op), (5, vd), (5, va), (5, vb), (5, vc), (3, m.pm.val), (1, bit m.zm), (4, ty), (4, rm),
    (8, fn), (14, 0), (32, imm)])

def encMX (op a b c gd pri ct aty oty fn gang acc tg ks nv wo st : Nat) : Nat × Nat :=
  (16, pack [(2, 2), (8, op), (5, a), (5, b), (5, c), (3, gd), (2, pri), (4, ct), (4, aty), (4, oty), (8, fn),
    (1, gang), (1, acc), (1, tg), (11, 0), (16, ks), (16, nv), (16, wo), (16, st)])

/-- No order: SC, AQ and RL zero. -/
def noOrder : MemOrder := { acq := false, rel := false, sc := .core }

def encAtomic (op : Nat) (x : AtomicArgs) (c : Nat) : Nat × Nat :=
  encE op x.d.val x.a.val x.b.val x.gd.val x.ord x.ct.val c (pack [(1, bit x.w), (1, bit x.tg), (6, 0)]) x.tag.toNat

def encXfer (op dir : Nat) (x : XferArgs) : Nat × Nat :=
  encEL op 0 x.a.val x.b.val x.gd.val x.ord x.ct.val x.c.val
    (pack [(2, x.lsp.code), (1, bit x.t), (1, bit x.k), (1, bit x.lin), (1, dir), (2, 0)]) 0 x.len.toNat

def encCopy (op kind : Nat) (x : CopyArgs) : Nat × Nat :=
  encEL op 0 x.a.val x.b.val x.gd.val x.ord x.ct.val x.c.val
    (pack [(2, x.lsp.code), (1, bit x.t), (1, bit x.k), (2, kind), (2, 0)])
    (pack [(2, x.dsp.code), (2, x.wh.code), (1, bit x.dt), (1, bit x.dk), (8, 0)]) x.len.toNat

def encInbox (x : InboxArgs) : Nat × Nat :=
  encEL 0x05 0 x.a.val x.b.val x.gd.val x.ord x.ct.val 0
    (pack [(2, x.lsp.code), (1, bit x.t), (1, bit x.k), (2, 2), (2, 0)])
    (pack [(2, 0), (2, x.wh.code), (1, 0), (1, 0), (8, 0)]) x.len.toNat

/-- FN[0], VB and the SREG field of a second operand (R420). -/
def VOperand.fields : VOperand → Nat × Nat × Nat
  | .vec v => (0, v.val, 0)
  | .scalar s => (1, 0, s.val)

def encVArith (op : Nat) (ty : ElemType) (rm : RoundMode) (vd va : VReg) (b : VOperand) (m : VMask) : Nat × Nat :=
  encV op vd.val va.val b.fields.2.1 0 m ty.code rm.code b.fields.1 b.fields.2.2

def encVBits (op ar : Nat) (vd va : VReg) (b : VOperand) (m : VMask) : Nat × Nat :=
  encV op vd.val va.val b.fields.2.1 0 m 0 0 (pack [(1, b.fields.1), (1, ar), (6, 0)]) b.fields.2.2

/-- The length in bytes and the word of an instruction (R54, R64 to R66); an event has none. -/
def encode : Instr → Option (Nat × Nat)
  | .nop => some (encR 0x00 0 0 0 0 0 0)
  | .add d a b => some (encR 0x01 d.val a.val b.val 0 0 0)
  | .addImm d a i => some (encI 0x41 d.val a.val 0 0 i.toNat)
  | .sub d a b => some (encR 0x02 d.val a.val b.val 0 0 0)
  | .subImm d a i => some (encI 0x42 d.val a.val 0 0 i.toNat)
  | .mul d a b => some (encR 0x03 d.val a.val b.val 0 0 0)
  | .mulImm d a i => some (encI 0x43 d.val a.val 0 0 i.toNat)
  | .mulh d a b => some (encR 0x04 d.val a.val b.val 0 0 0)
  | .div d a b => some (encR 0x05 d.val a.val b.val 0 0 0)
  | .rem d a b => some (encR 0x06 d.val a.val b.val 0 0 0)
  | .and d a b => some (encR 0x07 d.val a.val b.val 0 0 0)
  | .andImm d a i => some (encI 0x47 d.val a.val 0 0 i.toNat)
  | .or d a b => some (encR 0x08 d.val a.val b.val 0 0 0)
  | .orImm d a i => some (encI 0x48 d.val a.val 0 0 i.toNat)
  | .xor d a b => some (encR 0x09 d.val a.val b.val 0 0 0)
  | .xorImm d a i => some (encI 0x49 d.val a.val 0 0 i.toNat)
  | .andn d a b => some (encR 0x0A d.val a.val b.val 0 0 0)
  | .shl d a b => some (encR 0x0B d.val a.val b.val 0 0 0)
  | .shlImm d a i => some (encI 0x4B d.val a.val 0 0 i.toNat)
  | .shr d a b => some (encR 0x0C d.val a.val b.val 0 0 0)
  | .shrImm d a i => some (encI 0x4C d.val a.val 0 0 i.toNat)
  | .sra d a b => some (encR 0x0D d.val a.val b.val 0 0 0)
  | .sraImm d a i => some (encI 0x4D d.val a.val 0 0 i.toNat)
  | .rol d a b => some (encR 0x0E d.val a.val b.val 0 0 0)
  | .rolImm d a i => some (encI 0x4E d.val a.val 0 0 i.toNat)
  | .min d a b => some (encR 0x0F d.val a.val b.val 0 0 0)
  | .minImm d a i => some (encI 0x4F d.val a.val 0 0 i.toNat)
  | .max d a b => some (encR 0x10 d.val a.val b.val 0 0 0)
  | .maxImm d a i => some (encI 0x50 d.val a.val 0 0 i.toNat)
  | .cmp c d a b => some (encR 0x11 d.val a.val b.val 0 c.code 0)
  | .cmpImm c d a i => some (encI 0x51 d.val a.val c.code 0 i.toNat)
  | .sel d a b c => some (encR 0x12 d.val a.val b.val c.val 0 0)
  | .clz d a => some (encR 0x13 d.val a.val 0 0 0 0)
  | .popc d a => some (encR 0x14 d.val a.val 0 0 0 0)
  | .mov d a => some (encR 0x15 d.val a.val 0 0 0 0)
  | .movi d i => some (16, pack [(2, 2), (8, 0x01), (5, d.val), (19, 0), (8, 0), (22, 0), (64, i.toNat)])
  | .bfx s d a lsb wm1 =>
      some (encI 0x55 d.val a.val 0 (bit s) (pack [(6, lsb.toNat), (2, 0), (6, wm1.toNat), (18, 0)]))
  | .bfi d a lsb wm1 => some (encI 0x56 d.val a.val 0 0 (pack [(6, lsb.toNat), (2, 0), (6, wm1.toNat), (18, 0)]))
  | .fadd ty rm d a b => some (encR 0x18 d.val a.val b.val 0 rm.code ty.code)
  | .fsub ty rm d a b => some (encR 0x19 d.val a.val b.val 0 rm.code ty.code)
  | .fmul ty rm d a b => some (encR 0x1A d.val a.val b.val 0 rm.code ty.code)
  | .ffma ty rm d a b c => some (encR 0x1B d.val a.val b.val c.val rm.code ty.code)
  | .fmin ty d a b => some (encR 0x1C d.val a.val b.val 0 0 ty.code)
  | .fmax ty d a b => some (encR 0x1D d.val a.val b.val 0 0 ty.code)
  | .fcmp c ty d a b => some (encR 0x1E d.val a.val b.val 0 c.code ty.code)
  | .fcvt dst src rm d a => some (encR 0x1F d.val a.val 0 0 rm.code (pack [(4, dst.code), (4, src.code)]))
  | .br off => some (encB 0x20 0 0 0 off.toNat)
  | .brc c a b off => some (encB 0x21 a.val b.val c.code off.toNat)
  | .call off => some (encB 0x22 0 0 0 off.toNat)
  | .ret a => some (encR 0x23 0 a.val 0 0 0 0)
  | .jmpr d a => some (encR 0x24 d.val a.val 0 0 0 0)
  | .chk a b off => some (encB 0x25 a.val b.val 0 off.toNat)
  | .yield mask budget => some (encI 0x26 0 0 0 budget.toNat mask.toNat)
  | .exit a => some (encR 0x27 0 a.val 0 0 0 0)
  | .trap n => some (encI 0x28 0 0 0 0 n.toNat)
  | .ld sz sx tg k d m => some (encM 0x30 d.val m sz.code (bit tg) (bit sx) (bit k))
  | .st sz tg k d m => some (encM 0x31 d.val m sz.code (bit tg) 0 (bit k))
  | .lds sz sx tg k d m => some (encM 0x32 d.val m sz.code (bit tg) (bit sx) (bit k))
  | .tagTest sz d m => some (encM 0x33 d.val m sz.code 0 0 0)
  | .tagEmpty sz m => some (encM 0x33 0 m sz.code 0 0 1)
  | .tagFull sz m => some (encM 0x33 0 m sz.code 0 0 2)
  | .tagSpent sz m => some (encM 0x33 0 m sz.code 0 0 3)
  | .hstart d a b c => some (encR 0x34 d.val a.val b.val c.val 0 0)
  | .hjoin d a => some (encR 0x35 d.val a.val 0 0 0 0)
  | .phaseC n => some (encI 0x38 0 0 0 0 n.code)
  | .phaseX n => some (encI 0x38 0 0 0 1 n.code)
  | .vote op d a n => some (encR 0x39 d.val a.val 0 0 n.code op.code)
  | .evsig e ct a off h => some (encI 0x3A e.val a.val ct.val h.val off.toNat)
  | .sleept a => some (encR 0x3B 0 a.val 0 0 0 0)
  | .time d => some (encR 0x3C d.val 0 0 0 0 0)
  | .waitcGe ct n => some (encI 0x3D 0 ct.val 0 0 n.toNat)
  | .waitcLeOl n => some (encI 0x3D 0 0 0 1 n.toNat)
  | .waitcLeOs n => some (encI 0x3D 0 0 0 2 n.toNat)
  | .nbrd d p dir => some (encI 0x3E d.val p.val 0 0 dir.val)
  | .recv sz sx tg k d base off =>
      some (encM 0x3F d.val { sp := .a, base := base, off := off } sz.code (bit tg) (bit sx) (bit k))
  | .plog op d a b => some (encR 0x58 d.val a.val b.val 0 0 op.code)
  | .pcnt md d a => some (encR 0x59 d.val a.val 0 0 0 md.code)
  | .gset g v => some (encI 0x5A g.val 0 0 0 v.val)
  | .gres g a => some (encR 0x5B g.val a.val 0 0 0 0)
  | .repseq n => some (encI 0x5C 0 0 0 0 n.toNat)
  | .repgo n s => some (encI 0x5D 0 0 0 s.toNat n.toNat)
  | .cntset ct v => some (encI 0x5E 0 ct.val 0 0 v.toNat)
  | .aadd x => some (encAtomic 0x60 x 0)
  | .aaddw x => some (encAtomic 0x61 x 0)
  | .aswap x => some (encAtomic 0x62 x 0)
  | .acas x c => some (encAtomic 0x63 x c.val)
  | .amin x => some (encAtomic 0x64 x 0)
  | .amax x => some (encAtomic 0x65 x 0)
  | .aand x => some (encAtomic 0x66 x 0)
  | .aor x => some (encAtomic 0x67 x 0)
  | .await w d a b ct acq sc =>
      some (encE 0x68 d.val a.val b.val 0 { acq := acq, rel := false, sc := sc } ct.val 0 (bit w) 0)
  | .evpost a b ct gd o => some (encE 0x6A 0 a.val b.val gd.val o ct.val 0 0 0)
  | .evwait d a b => some (encE 0x6B d.val a.val b.val 0 noOrder 0 0 0 0)
  | .trig ct gd => some (encE 0x6C 0 0 0 gd.val noOrder ct.val 0 0 0)
  | .done a ct gd o => some (encE 0x6D 0 a.val 0 gd.val o ct.val 0 0 0)
  | .wdq b ct gd r => some (encE 0x6E 0 0 b.val gd.val noOrder ct.val 0 0 r.val)
  | .heatage a ct gd o n => some (encE 0x70 0 a.val 0 gd.val o ct.val 0 0 n.toNat)
  | .rowrank a b ct gd o h => some (encE 0x71 0 a.val b.val gd.val o ct.val 0 0 h.toNat)
  | .rowmig a b ct gd o => some (encE 0x72 0 a.val b.val gd.val o ct.val 0 0 0)
  | .kiln full d ct => some (encE 0x74 d.val 0 0 0 noOrder ct.val 0 (bit full) 0)
  | .kilnst d a => some (encE 0x75 d.val a.val 0 0 noOrder 0 0 0 0)
  | .kilnrel d a ct => some (encE 0x76 d.val a.val 0 0 noOrder ct.val 0 0 0)
  | .kilnrb d a ct => some (encE 0x77 d.val a.val 0 0 noOrder ct.val 0 0 0)
  | .csrr d csr => some (encS 0x78 d.val 0 csr.toNat 0)
  | .csrw a csr => some (encS 0x79 0 a.val csr.toNat 0)
  | .rfe => some (encS 0x7A 0 0 0 0)
  | .tlbinv al any rc a =>
      some (encS 0x7B 0 a.val 0 (pack [(1, bit al), (1, bit any), (2, rc.code), (4, 0)]))
  | .icinv => some (encS 0x7C 0 0 0 0)
  | .get x => some (encXfer 0x01 0 x)
  | .put x => some (encXfer 0x02 0 x)
  | .grist x => some (encXfer 0x03 0 x)
  | .gristScatter x => some (encXfer 0x03 1 x)
  | .cpy x => some (encCopy 0x04 0 x)
  | .sendD x => some (encCopy 0x05 0 x)
  | .sendP x => some (encCopy 0x05 1 x)
  | .sendI x => some (encInbox x)
  | .nmc b c ct gd o len => some (encEL 0x06 0 0 b.val gd.val o ct.val c.val 0 0 len.toNat)
  | .nmscan ab a b c ct gd o ty kmax len =>
      some (encEL 0x07 0 a.val b.val gd.val o ct.val c.val (bit ab) (pack [(4, ty.code), (10, kmax.toNat)]) len.toNat)
  | .tspawn d a b ct gd o => some (encEL 0x08 d.val a.val b.val gd.val o ct.val 0 0 0 0)
  | .lfork d a c => some (encEL 0x10 d.val a.val 0 0 noOrder 0 c.val 0 0 0)
  | .lforkAf d a c ct => some (encEL 0x10 d.val a.val 0 0 noOrder ct.val c.val 1 0 0)
  | .lflat d a ct gd o => some (encEL 0x11 d.val a.val 0 gd.val o ct.val 0 0 0 0)
  | .lrebase d a b ct gd o => some (encEL 0x12 d.val a.val b.val gd.val o ct.val 0 0 0 0)
  | .ldel d a ct => some (encEL 0x13 d.val a.val 0 0 noOrder ct.val 0 0 0 0)
  | .lpack d a ct gd o => some (encEL 0x14 d.val a.val 0 gd.val o ct.val 0 0 0 0)
  | .linfo d a => some (encEL 0x15 d.val a.val 0 0 noOrder 0 0 0 0 0)
  | .vclaim n => some (encV 0x20 0 0 0 0 { zm := false, pm := 0 } 0 0 0 n.toNat)
  | .vrel => some (encV 0x21 0 0 0 0 { zm := false, pm := 0 } 0 0 0 0)
  | .vld ty sp t k vd base m =>
      some (encV 0x22 vd.val 0 0 0 m ty.code 0 (pack [(2, sp.code), (1, bit t), (1, bit k), (4, 0)]) base.val)
  | .vst ty sp t k vd base pm =>
      some (encV 0x23 vd.val 0 0 0 { zm := false, pm := pm } ty.code 0
        (pack [(2, sp.code), (1, bit t), (1, bit k), (4, 0)]) base.val)
  | .vadd ty rm vd va b m => some (encVArith 0x24 ty rm vd va b m)
  | .vsub ty rm vd va b m => some (encVArith 0x25 ty rm vd va b m)
  | .vmul ty rm vd va b m => some (encVArith 0x26 ty rm vd va b m)
  | .vfma ty rm vd va b vc m =>
      some (encV 0x27 vd.val va.val b.fields.2.1 vc.val m ty.code rm.code b.fields.1 b.fields.2.2)
  | .vmax ty vd va b m => some (encVArith 0x28 ty .rne vd va b m)
  | .vmin ty vd va b m => some (encVArith 0x29 ty .rne vd va b m)
  | .vabs ty vd va m => some (encV 0x2A vd.val va.val 0 0 m ty.code 0 0 0)
  | .vcvt dst src rm vd va m => some (encV 0x2B vd.val va.val 0 0 m dst.code rm.code src.code 0)
  | .vqnt ty rm vd va vc m => some (encV 0x2C vd.val va.val 0 vc.val m ty.code rm.code 0 0)
  | .vdqn ty rm vd va vc m => some (encV 0x2D vd.val va.val 0 vc.val m ty.code rm.code 0 0)
  | .vred op ty rm vd va m => some (encV 0x2E vd.val va.val 0 0 m ty.code rm.code op.code 0)
  | .vscan op ty rm vd va m => some (encV 0x2F vd.val va.val 0 0 m ty.code rm.code op.code 0)
  | .vshuf vd va vb ps m => some (encV 0x30 vd.val va.val vb.val ps.val m 0 0 0 0)
  | .vcmp c ty pd va b m =>
      some (encV 0x31 pd.val va.val b.fields.2.1 0 m ty.code 0 (pack [(1, b.fields.1), (4, c.code), (3, 0)])
        b.fields.2.2)
  | .vsel vd va vb pk m => some (encV 0x32 vd.val va.val vb.val pk.val m 0 0 0 0)
  | .vfn fn ty rm vd va m => some (encV 0x33 vd.val va.val 0 0 m ty.code rm.code fn.code 0)
  | .vbcast ty vd (.imm v) m => some (encV 0x34 vd.val 0 0 0 m ty.code 0 0 v.toNat)
  | .vbcast ty vd (.scalar s) m => some (encV 0x34 vd.val 0 0 0 m ty.code 0 1 s.val)
  | .vidx vd imm m => some (encV 0x35 vd.val 0 0 0 m 0 0 0 imm.toNat)
  | .vand vd va b m => some (encVBits 0x36 0 vd va b m)
  | .vor vd va b m => some (encVBits 0x37 0 vd va b m)
  | .vxor vd va b m => some (encVBits 0x38 0 vd va b m)
  | .vshl vd va b m => some (encVBits 0x39 0 vd va b m)
  | .vshr ar vd va b m => some (encVBits 0x3A (bit ar) vd va b m)
  | .mlds act grp ot gang pri ct gd woff =>
      some (encMX 0x02 0 0 0 gd.val pri.val ct.val 0 ot.code (pack [(1, bit act), (2, grp.code), (5, 0)]) (bit gang)
        0 0 0 0 woff.toNat 0)
  | .mswap gang pri ct gd => some (encMX 0x03 0 0 0 gd.val pri.val ct.val 0 0 0 (bit gang) 0 0 0 0 0 0)
  | .mmul x =>
      some (encMX 0x04 x.a.val x.b.val 0 x.gd.val x.pri.val x.ct.val x.at'.code x.ot.code
        (pack [(1, bit x.st), (2, x.grp.code), (1, bit x.k), (4, 0)]) (bit x.gang) (bit x.acc) (bit x.tg)
        x.ksteps.toNat x.nvec.toNat x.woff.toNat x.stride.toNat)
  | .mcorr x =>
      some (encMX 0x05 x.a.val x.b.val x.c.val x.gd.val 0 x.ct.val x.ty.code 0
        (pack [(3, 0), (1, bit x.k), (4, 0)]) 0 0 (bit x.tg) 0 x.nvec.toNat 0 x.stride.toNat)
  | .msplit x =>
      some (encMX 0x06 x.a.val x.b.val x.c.val x.gd.val x.pri.val x.ct.val x.ty.code x.ty.code
        (pack [(3, 0), (1, bit x.k), (4, 0)]) 1 (bit x.acc) (bit x.tg) 1 x.nvec.toNat 0 x.stride.toNat)
  | .mgangWide ct gd => some (encMX 0x07 0 0 0 gd.val 0 ct.val 0 0 0 0 0 0 0 0 0 0)
  | .mgangDeep ct gd => some (encMX 0x07 0 0 0 gd.val 0 ct.val 0 0 1 0 0 0 0 0 0 0)
  | _ => none

/-- The length in bytes of an instruction (R51); 0 for an event. -/
def Instr.len (i : Instr) : Nat :=
  match encode i with
  | some (n, _) => n
  | none => 0

end Sys2Proof
end

