-- ==== Sys2Proof/Machine/Maps.lean ====
section
/-! DEFINITION. Sparse maps and byte stores: read, write, erase, ranges. `put` keeps every entry it is given; `set` drops
an entry that equals the default, so that a store written by `set` alone has one form for one content. -/

namespace Sys2Proof

/-- The value at a key; the default where the key is not listed. -/
def AMap.get {α : Type} (dflt : α) : AMap α → Nat → α
  | [], _ => dflt
  | (k', v) :: r, k => if k' = k then v else AMap.get dflt r k

/-- The value at a key, if it is listed. -/
def AMap.find {α : Type} : AMap α → Nat → Option α
  | [], _ => none
  | (k', v) :: r, k => if k' = k then some v else AMap.find r k

/-- Lists the value at a key, in the place that keeps the keys rising. -/
def AMap.put {α : Type} : AMap α → Nat → α → AMap α
  | [], k, v => [(k, v)]
  | (k', v') :: r, k, v =>
    if k' = k then (k, v) :: r else if k < k' then (k, v) :: (k', v') :: r else (k', v') :: AMap.put r k v

/-- Drops a key. -/
def AMap.erase {α : Type} (m : AMap α) (k : Nat) : AMap α := m.filter (fun e => !decide (e.1 = k))

/-- Lists the value, or drops the key when the value is the default. -/
def AMap.set {α : Type} [DecidableEq α] (dflt : α) (m : AMap α) (k : Nat) (v : α) : AMap α :=
  if v = dflt then AMap.erase m k else AMap.put m k v

/-- Changes the value at a key. -/
def AMap.modify {α : Type} (dflt : α) (m : AMap α) (k : Nat) (f : α → α) : AMap α := m.put k (f (m.get dflt k))

/-- The keys rise strictly. -/
def AMap.sorted {α : Type} : AMap α → Bool
  | [] => true
  | [_] => true
  | (k, _) :: (k', v') :: r => decide (k < k') && AMap.sorted ((k', v') :: r)

/-- The canonical form of a map with a default: keys rise, and no entry equals the default. -/
def AMap.wf {α : Type} [DecidableEq α] (dflt : α) (m : AMap α) : Bool :=
  AMap.sorted m && m.all (fun e => !decide (e.2 = dflt))

/-- The entries with keys from `lo` to `lo + n − 1`, their keys less `lo` and plus `at'`. -/
def AMap.slice {α : Type} (m : AMap α) (lo n at' : Nat) : AMap α :=
  m.filterMap (fun e => if lo ≤ e.1 ∧ e.1 < lo + n then some (e.1 - lo + at', e.2) else none)

/-- Drops the keys from `lo` to `lo + n − 1`. -/
def AMap.clear {α : Type} (m : AMap α) (lo n : Nat) : AMap α :=
  m.filter (fun e => !decide (lo ≤ e.1 ∧ e.1 < lo + n))

/-- Writes every entry of a second map over the first. -/
def AMap.over {α : Type} [DecidableEq α] (dflt : α) (m : AMap α) : AMap α → AMap α
  | [] => m
  | (k, v) :: r => AMap.over dflt (m.set dflt k v) r

/-- The byte at an address; an unlisted one reads as 0 (R128, R332). -/
def Mem.get (m : Mem) (a : Nat) : Byte := AMap.get 0 m a

/-- Writes one byte. -/
def Mem.set (m : Mem) (a : Nat) (v : Byte) : Mem := AMap.set 0 m a v

/-- `n` bytes from an address, lowest address first. -/
def Mem.read (m : Mem) (a : Nat) : Nat → List Byte
  | 0 => []
  | n + 1 => m.get a :: Mem.read m (a + 1) n

/-- Writes bytes from an address on, lowest address first. -/
def Mem.write (m : Mem) (a : Nat) : List Byte → Mem
  | [] => m
  | b :: bs => Mem.write (m.set a b) (a + 1) bs

/-- The canonical form of a byte store. -/
def Mem.wf (m : Mem) : Bool := AMap.wf 0 m

/-- The unsigned number in `n` bytes at an address. -/
def Mem.num (m : Mem) (a n : Nat) : Nat := leNat (m.read a n)

/-- Writes the low `n` bytes of a number. -/
def Mem.setNum (m : Mem) (a n v : Nat) : Mem := m.write a (leBytes n v)

/-- A 64-bit word at an address. -/
def Mem.word (m : Mem) (a : Nat) : Word64 := BitVec.ofNat 64 (m.num a 8)

/-- Bits [hi:lo] of a number (R74: field). -/
def bits (x hi lo : Nat) : Nat := (x >>> lo) % 2 ^ (hi - lo + 1)

/-- Bit i of a number. -/
def bitAt (x i : Nat) : Bool := x.testBit i

/-- A number with bits [hi:lo] replaced. -/
def setBits (x hi lo v : Nat) : Nat :=
  let n := hi - lo + 1
  x - (bits x hi lo <<< lo) + ((v % 2 ^ n) <<< lo)

/-- 1 for true. -/
def b2n (b : Bool) : Nat := if b then 1 else 0

/-- ⌈a / b⌉. -/
def ceilDiv (a b : Nat) : Nat := (a + b - 1) / b

/-- The numbers lo, lo + 1, …, lo + n − 1. -/
def upFrom (lo : Nat) : Nat → List Nat
  | 0 => []
  | n + 1 => lo :: upFrom (lo + 1) n

/-- The low n bits of a number, read as two's complement. -/
def toSigned (n v : Nat) : Int :=
  let m := v % 2 ^ n
  if 2 * m < 2 ^ n then (m : Int) else (m : Int) - (2 ^ n : Nat)

/-- The low n bits of an integer, as an unsigned number. -/
def ofSigned (n : Nat) (i : Int) : Nat := (i % ((2 ^ n : Nat) : Int)).toNat

end Sys2Proof
end

