-- ==== Sys2Proof/Config.lean ====
section
/-! DEFINITION. What is fixed for the module, and the free values: constants without a body, about which nothing
can be proved (DESIGN CHOICE, log 4). -/

namespace Sys2Proof.Config

/-- Columns of the module mesh (R17). -/
abbrev meshCols : Nat := 224
/-- Rows of the module mesh (R17). -/
abbrev meshRows : Nat := 120
/-- Cores of the module (R17). -/
abbrev coreCount : Nat := 26880
/-- Channel units of the module (R14). -/
abbrev channelCount : Nat := 384
/-- Bytes of HBM, 432 GiB (R313). -/
abbrev hbmSize : Nat := 0x6C00000000
/-- First physical address of host memory (R313). -/
abbrev hostBase : Nat := 0x400000000000
/-- First physical address of the peer windows (R313). -/
abbrev peerBase : Nat := 0x800000000000
/-- First physical address past the peer windows (R313). -/
abbrev physEnd : Nat := 0x1000000000000
/-- Depth bound of a lineage chain (R149). -/
abbrev depthMax : Nat := 7
/-- Unreleased kilns that a job may have (R272). -/
abbrev kilnMaxLive : Nat := 2
/-- Lineage nodes of one address space: indices 1 to 2^24 − 1 (R149). -/
abbrev nodeMax : Nat := 0xFFFFFF
/-- Outstanding counter bound of `ol` and `os` (R80). -/
abbrev outstandingMax : Nat := 65535

/-- Free value number `n` of 64 bits (DESIGN CHOICE, log 4): what a location that the manual calls undefined holds. The index is the
counter `State.freeCtr`, so that two free values need not be equal. -/
opaque freeWord : Nat → Word64

/-- Free byte number `n` (DESIGN CHOICE, log 4): a byte of a sector that a Cask command writes poisoned, or of a read that an
uncorrectable error spoils (R312, R442). -/
opaque freeByte : Nat → Byte

/-- What a device address of another module holds for a read of the system die in a cycle: a byte and its poison, and whether the read
is refused there (DESIGN CHOICE, log 18): free values. -/
opaque remoteByte : (cycle node addr : Nat) → Byte
opaque remotePoison : (cycle node addr : Nat) → Bool
opaque remoteRefuses : (cycle node addr : Nat) → Bool

/-- Number of images that the root of trust has measured, and byte i of the SHA-512 measurement of image k (R334). -/
opaque imageCount : Nat
opaque measurement : (k i : Nat) → Byte

/-- Byte i of the public identity key (R334). -/
opaque identityKey : (i : Nat) → Byte

/-- Byte i of the Ed25519 signature of a message under the private half of a public key (R334, R335). -/
opaque signature : (key msg : List Byte) → (i : Nat) → Byte

end Sys2Proof.Config
end

