-- ==== Sys2Proof/Machine/State.lean ====
section
/-! DEFINITION. The state of the module: everything the manual gives it, as plain data, level by level (context, core,
cluster, die, system die, host and fabric). Sparse families are `AMap`s: an unlisted key reads as the default that the
accessors of Maps.lean name. INVENTORY.md lists every field with its rule and its reset value. -/

namespace Sys2Proof.Machine

open Sys2Proof

/-- Why a step stops the machine. Closed, with no constructor: nothing raises one, since the spec gives every instruction and
every event an effect (R69, R70, R295). -/
inductive Fault where
  deriving DecidableEq, Repr

/-- Why a step refuses an instruction. Closed: one constructor. -/
inductive Refusal where
  /-- Raised by `exec` alone, for an instruction that has no meaning yet. Safe: the model stops where the hardware goes
  on. -/
  | notModelled (mnemonic : String)
  deriving DecidableEq, Repr

/-- Values of a guard slot (R179). -/
inductive GuardVal where
  | tru | fls | pending
  deriving DecidableEq, Repr, Inhabited

/-- What a command's GD field bound to at issue (R180): a value, or the next resolution of a pending slot. -/
inductive Binding where
  | val (b : Bool)
  | slot (g : Nat)
  deriving DecidableEq, Repr, Inhabited

/-- A scalar register: its value and its D bit (R21). -/
structure SReg where
  val : Word64 := 0
  d : Bool := false
  deriving DecidableEq, Repr, Inhabited

/-- Tags of one 256-byte local line (R129, R134). -/
structure Tag where
  v : Bool := false
  u : Bool := false
  p : Bool := false
  deriving DecidableEq, Repr, Inhabited

/-- What a waiting context has outstanding outside its core's own registers (R93, R302). -/
inductive Held where
  | none
  /-- AWAIT registered at the home (R244). -/
  | awaitReg
  /-- AWAIT refused for want of a waiter record; sends its request again at the cycle named. -/
  | awaitRefused (again : Nat) (va : Word64) (wide : Bool) (t : Word64)
  /-- AWAIT answered with a value. -/
  | awaitDone (v : Word64)
  /-- EVWAIT registered with its event (R257). -/
  | eventReg
  /-- EVWAIT refused for want of a waiter record; sends its request again at the cycle named (R258). -/
  | eventRefused (again : Nat) (e : Nat) (n : Word32)
  /-- EVWAIT served. -/
  | eventDone (v : Word64)
  /-- Arrived at barrier line `line`, which stood at generation `gen` (R185). -/
  | barrier (line : Nat) (gen : BitVec 16)
  /-- Queued on mutex line `line` (R186). -/
  | mutexQueued (line : Nat)
  /-- The mutex was handed over. -/
  | mutexGranted (line : Nat)
  /-- An LD queued on event line `line` (R187). -/
  | eventLine (line : Nat)
  /-- That LD was served with this value. -/
  | eventLineDone (line : Nat) (v : Word64)
  /-- KILN's request is with the Kiln controller (R272). -/
  | kilnAsked
  /-- KILNST, KILNREL or KILNRB stands in the Kiln controller's line (R373). -/
  | kilnTurn
  /-- KILN was answered. -/
  | kilnDone (v : Word64)
  /-- NBRD waits for its neighbour since the cycle named (R94). -/
  | neighbour (since : Nat)
  /-- NBRD was answered: ready or not, and the value. -/
  | neighbourDone (ready : Bool) (v : Word64)
  /-- SLEEPT until the counter reaches the value (R330). -/
  | asleep (t : Word64)
  /-- The sleep of SLEEPT has ended. -/
  | awake
  deriving DecidableEq, Repr, Inhabited

/-- A context parked at a YIELD whose team is being taken (R92). -/
structure Parked where
  mask : Word32
  budget : BitVec 8
  deriving DecidableEq, Repr, Inhabited

/-- The repetition buffer's state of a context (R175 to R178): REPIDX and the captured words. -/
structure Rep where
  iter : BitVec 16 := 0
  word : BitVec 4 := 0
  len : BitVec 5 := 0
  stride : BitVec 4 := 0
  active : Bool := false
  cnt : BitVec 16 := 0
  /-- Captured words, first captured first (R72: they are not decoded again). -/
  caps : List Instr := []
  /-- The address of the REPGO that started the repetition (R181). -/
  goPc : Word64 := 0
  /-- The iteration under way has been counted (R91). -/
  charged : Bool := false
  /-- The cycle since which the next reissue has waited at its issue, while its wait counts (R93, R178). -/
  waitSince : Option Nat := none
  /-- The cause and FADDR of a reissue that failed a check, until the context takes that trap (R178). -/
  trap : Option (Nat × Word64) := none
  /-- Stopped by a trap or by a take; RFE or resumption clears it (R178). -/
  stopped : Bool := false
  deriving DecidableEq, Repr, Inhabited

/-- One scalar context (R78, R79, R82, R293). -/
structure Ctx where
  live : Bool := false
  /-- Number of the context's starts: a command of an earlier life counts no more (R79, R80). -/
  life : Nat := 0
  pc : Word64 := 0
  sregs : AMap SReg := []
  preds : AMap Word64 := []
  ol : BitVec 16 := 0
  os : BitVec 16 := 0
  budget : BitVec 8 := 255
  left : BitVec 16 := 65280
  lstat : BitVec 2 := 0
  nbtmo : BitVec 16 := 256
  rep : Rep := {}
  /-- FRM [8:0]: NV, DZ, OF, UF, NX, three zeros, FTZ (R112). -/
  frm : BitVec 9 := 0
  /-- ISTAT [1:0]: DZ, SAT (R119). -/
  istat : BitVec 2 := 0
  ystall : Word32 := 0x04000000
  seed : Word32 := 1
  /-- Generators that have advanced since SEED was last written; an unlisted one still holds its seed value (R111). -/
  gens : AMap Word32 := []
  /-- Lanes of the claim, 0 to 64 (R171). -/
  vcount : Fin 65 := 0
  vreq : BitVec 7 := 0
  /-- v0 to v15 of the claim, lane l of register v at key 64 v + l (R171). -/
  vregs : AMap Word32 := []
  sup : Bool := false
  psup : Bool := false
  nest : Bool := false
  cause : Word64 := 0
  epc : Word64 := 0
  faddr : Word64 := 0
  faultrec : Word64 := 0
  /-- Records of this context were lost (R300). -/
  ovf : Bool := false
  /-- Sequence number of the next engine command (R298). -/
  seq : BitVec 16 := 0
  /-- Registers that an engine command in progress reserves, with the command's number (R340). -/
  reserved : AMap Nat := []
  exitVal : Word64 := 0
  /-- The cycle at which the present wait began, while the context waits (R93). -/
  waitSince : Option Nat := none
  /-- Kind and object of the wait as R302 numbers them; none for a wait that does not count against YSTALL. -/
  waitObj : Option (Nat × Nat) := none
  held : Held := .none
  parked : Option Parked := none
  deriving DecidableEq, Repr, Inhabited

/-- One fault record (R298). -/
structure FaultRec where
  pc : Word64
  addr : Word64
  ctx : Nat
  ct : Nat
  status : Nat
  seq : BitVec 16
  /-- ITER and WORD for a reissued command (R181). -/
  rep : Option (BitVec 16 × BitVec 4)
  deriving DecidableEq, Repr, Inhabited

/-- One armed entry of the waiting-task table (R265). -/
structure WttEntry where
  ct : Nat
  threshold : Word32
  target : Word64
  helper : Nat
  deriving DecidableEq, Repr, Inhabited

/-- A waiting-task entry that has fired and disarmed itself, while its helper is live (R265). Each entry holds one at
most: an arm replaces what its entry held (R358). -/
structure PendStart where
  entry : Nat
  helper : Nat
  target : Word64
  arg : Word64
  deriving DecidableEq, Repr, Inhabited

/-- The inbox of a core (R263). -/
structure Inbox where
  base : BitVec 7 := 0
  lines : BitVec 8 := 0
  head : BitVec 15 := 0
  used : BitVec 16 := 0
  drop : BitVec 16 := 0
  deriving DecidableEq, Repr, Inhabited

/-- An arrival of PHASE.x or VOTE to which h0 has not returned (R88, R89, R302). -/
structure Arrival where
  level : Level
  /-- VOTE's operation; none for PHASE.x. -/
  op : Option VoteOp
  val : Word64
  /-- Which of the core's arrivals at its level it is (R88). -/
  k : BitVec 16
  /-- The instruction that made it, which waits for it when executed again (R302). -/
  pc : Word64
  /-- Commands with lower numbers were issued before the arrival (R88). -/
  before : Nat
  /-- It has completed, with this combined value. -/
  result : Option Word64 := none
  deriving DecidableEq, Repr, Inhabited

/-- The phase state of a core (R87 to R90). -/
structure Phase where
  /-- The communication phase is open. -/
  open' : Bool := false
  /-- Arrivals at levels 1, 2 and 3, counted as R310 saves them (DESIGN CHOICE, log 25). -/
  n1 : BitVec 16 := 0
  n2 : BitVec 16 := 0
  n3 : BitVec 16 := 0
  /-- Arrivals that h0 has not returned from: more than one after a STALL alone (R302). -/
  arrivals : List Arrival := []
  deriving DecidableEq, Repr, Inhabited

/-- Progress of an engine command. -/
inductive Prog where
  /-- Held: its guard, its acquire or release conditions or its tag is not yet met, or it has not begun. -/
  | waiting
  /-- It has sent a request. -/
  | running
  /-- Its work has ended with this status, address word (R297), and it waits for its bump. -/
  | ended (status : Nat) (addr : Word64)
  deriving DecidableEq, Repr, Inhabited

/-- Where a SEND.i stands with its retries (R262). -/
structure InboxTry where
  refusals : Nat := 0
  /-- The cycle of the next try. -/
  again : Nat := 0
  deriving DecidableEq, Repr, Inhabited

/-- A put-and-get engine command that has issued and not completed (R141, R443). -/
structure PgeCmd where
  id : Nat
  ctx : Nat
  /-- The life of its context in which it issued. -/
  life : Nat := 0
  pc : Word64
  seq : BitVec 16
  ins : Instr
  /-- The values read from A, B and C at issue. -/
  va : Word64
  vb : Word64
  vc : Word64
  /-- The record that the command read from the local store at issue: NMC's command block, TSPAWN's image. -/
  img : List Byte := []
  bind : Binding
  /-- The colour taken at issue, the parity of KSTAT.KNUM (R270). -/
  colour : Bool
  /-- The address space at issue. -/
  asid : Nat
  sup : Bool
  prog : Prog := .waiting
  /-- Units moved, parts applied, elements scanned. -/
  pos : Nat := 0
  /-- The tag condition of the local line under way has been met (R130); a poisoned unit has entered that line (R134). -/
  tagged : Bool := false
  badLine : Bool := false
  /-- CPY and SEND: the same tag condition at the destination. -/
  dtagged : Bool := false
  tries : InboxTry := {}
  /-- NMC: parts still to apply; element statistics for the completion record (R227). -/
  parts : List Nat := []
  first : Option Nat := none
  poisoned : Nat := 0
  partStatus : Nat := 0
  heapFull : Bool := false
  /-- FRM and ISTAT flags gathered (R113). -/
  flags : BitVec 9 := 0
  /-- A value read from elsewhere and carried: an atomic's old value, TSPAWN's index. -/
  result : Option Word64 := none
  /-- CPY and SEND: units read from the source and not yet written, with their poison. -/
  buffer : List (List Byte × Bool) := []
  /-- The command has written host memory; whether the zero-length read behind those writes has been sent and answered
  (R318). -/
  hostWrote : Bool := false
  fence : Option Bool := none
  /-- When a request left for a peer window, by `HostPort.clock` (R323); the answer is an input. -/
  sentAt : Option Nat := none
  /-- Units that have left through a fabric port and are not answered. -/
  outUnits : List Nat := []
  /-- The destination end has been bumped (R140). -/
  bumpedDst : Bool := false
  /-- The INFL record of its last delivery names the counter that this bump changes (R278). -/
  inflBump : Bool := false
  deriving DecidableEq, Repr

/-- Where a matrix command stands at the array (R202, R203). -/
inductive MxPhase where
  | queued
  | running
  | suspended
  | ended (status : Nat) (addr : Word64)
  deriving DecidableEq, Repr, Inhabited

/-- A matrix queue command that has issued and not completed (R190 to R217, R443). -/
structure MxCmd where
  id : Nat
  ctx : Nat
  /-- The life of its context in which it issued. -/
  life : Nat := 0
  pc : Word64
  seq : BitVec 16
  rep : Option (BitVec 16 × BitVec 4)
  ins : Instr
  va : Word64
  vb : Word64
  vc : Word64
  /-- The descriptor read from A at issue (MCORR, MSPLIT), and MSPLIT's header and map, bound at issue (R217). -/
  img : List Byte := []
  bind : Binding
  colour : Bool
  asid : Nat
  sup : Bool
  /-- Its place in the cluster's arrival order (R193). -/
  arrival : Nat
  /-- The cycle at which it reached the array or was last suspended (R203). -/
  since : Nat
  phase : MxPhase := .queued
  /-- Effective priority with which it started (R203), and the geometry in which it runs (R381). -/
  prio : Nat := 0
  deep : Bool := false
  /-- Pieces of work done: k-steps times vectors, rows, or vectors. -/
  pos : Nat := 0
  /-- Lines whose tag condition the command has met (R200). -/
  seen : List Nat := []
  /-- The status and address with which it ends once it begins: what its header or map read met at issue (R211, R217). -/
  fail : Option (Nat × Word64) := none
  /-- FRM flags and ISTAT.SAT gathered. -/
  flags : BitVec 9 := 0
  sat : Bool := false
  /-- Rows whose computation met poison, and the first affected sector's address (R445). -/
  badRows : List Nat := []
  /-- C lines that received an affected output. -/
  badLines : List Nat := []
  badAddr : Option Word64 := none
  /-- Sums of Σ qw·qa, Σ qa and Σ qw of a group under way, per output (R121), as saved in the column units. -/
  acc : AMap (List Int) := []
  /-- SHIFT of the heat table at an MSPLIT's update of COUNT (R212). -/
  shift : Nat := 0
  deriving DecidableEq, Repr

/-- An armed row migration (R215, R216). -/
structure Migration where
  table : Word64
  map : Word64
  ct : Nat
  asid : Nat
  deriving DecidableEq, Repr, Inhabited

/-- A translation held in a TLB (R147). -/
structure TlbEntry where
  asid : Nat
  va : Nat
  size : Nat
  pa : Nat
  r : Bool
  w : Bool
  x : Bool
  rm : Bool
  s : Bool
  kst : BitVec 16
  /-- Physical address of the leaf entry, which the Kiln controller writes (R283). -/
  leaf : Nat
  deriving DecidableEq, Repr, Inhabited

/-- A fetched 32-byte block (R73). -/
structure IBlock where
  asid : Nat
  va : Nat
  bytes : List Byte
  deriving DecidableEq, Repr, Inhabited

/-- One core (R21). -/
structure Core where
  ctxs : AMap Ctx := []
  /-- The context that took the issue slot last, and the cycle in which it did (R81). -/
  rr : Nat := 10
  issuedAt : Option Nat := none
  /-- The team the core is reserved for (R248, R249). -/
  team : Option Nat := none
  /-- Every context has exited and every command has completed: the member's part has ended (R249). -/
  partEnded : Bool := false
  /-- h0 has executed EXIT (R90). -/
  exited : Bool := false
  teamrank : Word64 := 0
  teamsize : Word64 := 0
  teamorg : Word64 := 0
  teamshape : Word64 := 0
  dom1 : Word64 := 0
  dom2 : Word64 := 0
  dom3 : Word64 := 0
  counters : AMap Word32 := []
  guards : AMap GuardVal := []
  w : Mem := []
  a : Mem := []
  c : Mem := []
  /-- Tags of the lines of W (0 to 191), A (192 to 319) and C (320 to 383). -/
  tags : AMap Tag := []
  pub : Word64 := 0
  inbox : Inbox := {}
  knum : BitVec 16 := 0
  rb : Bool := false
  rbk : BitVec 16 := 0
  tvec : Word64 := 0
  ptbase : Word64 := 0
  asid : BitVec 16 := 0
  /-- The PTBASE and ASID that translations use: those of the last wake, resumption or TLBINV (R294). -/
  curPtbase : Word64 := 0
  curAsid : BitVec 16 := 0
  fenceIdx : BitVec 6 := 0
  wtt : AMap WttEntry := []
  starts : List PendStart := []
  faultq : List FaultRec := []
  phase : Phase := {}
  /-- Phased sends that the send queue holds, oldest first (R87). -/
  sendq : List PgeCmd := []
  pge : List PgeCmd := []
  mx : List MxCmd := []
  /-- Number of the next engine command of the core. -/
  nextId : Nat := 1
  armed : Option Migration := none
  icache : List IBlock := []
  tlb : List TlbEntry := []
  /-- 64-byte lines of flat memory that the atomic line buffer owns, 8 at most (R21, R233). -/
  linebuf : List Nat := []
  /-- Lines written since the core's last cut, by tag number (R279). -/
  dirty : List Nat := []
  /-- Lines still to drain for the running kiln, ascending, and the cycle at which the drain began (R279). -/
  drain : List Nat := []
  drainSince : Option Nat := none
  deriving DecidableEq, Repr, Inhabited

/-- The plane's latch (R190): type, group size, and for each of its 16 columns the record or scale and the column sum. -/
structure Latch where
  ty : ElemType := .bf16
  grp : GroupSize := .none
  meta' : List Nat := []
  sums : List Int := []
  deriving DecidableEq, Repr, Inhabited

/-- A plane of 16 × 16 weights: element (k, j) at key 16 j + k, its raw bits; +0 unlisted (R190, R195). -/
structure Plane where
  wts : AMap Nat := []
  latch : Latch := {}
  deriving DecidableEq, Repr, Inhabited

/-- A barrier line of an event unit (R185). -/
structure BarrierLine where
  mask : BitVec 8 := 0xFF
  arr : BitVec 8 := 0
  gen : BitVec 16 := 0
  link : BitVec 4 := 0
  deriving DecidableEq, Repr, Inhabited

/-- A mutex line (R186): the owner's slice and context, and the queued callers. -/
structure MutexLine where
  owner : Option (Nat × Nat) := none
  queue : List (Nat × Nat) := []
  deriving DecidableEq, Repr, Inhabited

/-- An event line (R187): its count and the waiting LDs (slice, context). -/
structure EventLine where
  count : Word32 := 0
  queue : List (Nat × Nat) := []
  deriving DecidableEq, Repr, Inhabited

/-- One cluster (R22, R184, R190). -/
structure Cluster where
  deep : Bool := false
  active : AMap Plane := []
  shadow : AMap Plane := []
  barriers : AMap BarrierLine := []
  mutexes : AMap MutexLine := []
  events : AMap EventLine := []
  /-- Number of the next command that reaches the array (R193). -/
  nextArrival : Nat := 0
  deriving DecidableEq, Repr, Inhabited

/-- A containment rectangle (R306). -/
structure FenceRect where
  col0 : BitVec 8 := 0
  row0 : BitVec 7 := 0
  width : BitVec 8 := 0
  height : BitVec 7 := 0
  v : Bool := false
  deriving DecidableEq, Repr, Inhabited

/-- One compute die (R23, R306, R338). -/
structure Die where
  tlb : List TlbEntry := []
  fences : AMap FenceRect := []
  grant : BitVec 22 := 0
  level : BitVec 5 := 16
  tmax : BitVec 8 := 0
  vmin : BitVec 8 := 0
  roFreq : BitVec 16 := 0
  /-- The arbiter holds LEVEL at 1 (R339); the time since which a sensor has read 110 °C or more. -/
  hold : Bool := false
  hotSince : Option Nat := none
  deriving DecidableEq, Repr, Inhabited

/-- A write to a read-mostly page between its two steps (R232): bytes at physical addresses, and the dies whose
replica is not yet updated. -/
structure RmWrite where
  granule : Nat
  cells : List (Nat × Byte)
  /-- Sectors that the write leaves poisoned, and sectors that it covers whole with clean data (R442). -/
  poison : List Nat
  clear : List Nat := []
  dies : List Nat
  /-- Dies whose replicas could not be written, and are poisoned. -/
  lost : List Nat := []
  since : Nat
  core : Nat
  cmd : Nat
  deriving DecidableEq, Repr, Inhabited

/-- A waiter of AWAIT at a home (R244). -/
structure Waiter where
  core : Nat
  ctx : Nat
  pa : Nat
  wide : Bool
  threshold : Word64
  deriving DecidableEq, Repr, Inhabited

/-- The requester of a tagged atomic (R324): global core name, context. -/
structure TagTuple where
  channel : Nat
  name : Nat
  ctx : Nat
  tag : Nat
  result : Word64
  at' : Nat
  deriving DecidableEq, Repr, Inhabited

/-- States of a lineage node (R149). -/
inductive NodeState where
  | free | live | sealed | frozen | husk
  deriving DecidableEq, Repr, Inhabited

/-- Delta kinds (R149). -/
inductive DeltaKind where
  | none | xor | add | lowrank
  deriving DecidableEq, Repr, Inhabited

/-- A stored block (R151, R152). A full block holds 4,096 bytes; an X or A block its sector mask and its present
sectors, byte i of sector s at key 128 s + i; an A block the type of its differences, its node's DFMT, which it keeps when a
splice moves it (R168). Poison is per 32-byte sector of the resolved block. -/
inductive Entry where
  | inherit
  | full (data : Mem) (poison : List Nat)
  | xor (mask : Word32) (data : Mem) (poison : List Nat)
  | add (dfmt : ElemType) (mask : Word32) (data : Mem) (poison : List Nat)
  | zero
  | reserved
  deriving DecidableEq, Repr, Inhabited

/-- A node descriptor and its block map (R149, R151). -/
structure Node where
  parent : Word32 := 0
  handle : Word32 := 0
  depth : Nat := 0
  klev : Nat := 0
  state : NodeState := .free
  kind : DeltaKind := .none
  fmt : ElemType := .fp32
  dfmt : ElemType := .fp32
  dims : List Nat := []
  rank : Nat := 0
  busy : Bool := false
  children : Nat := 0
  refs : Nat := 0
  u : Word32 := 0
  v : Word32 := 0
  af : Bool := false
  knum : BitVec 16 := 0
  /-- The node is FROZEN, so that its descendants count it in KLEV and not in DEPTH (R155). -/
  iced : Bool := false
  /-- What a block absent from `map` is held as: Z in a root, I in a child (R162). -/
  dflt : Entry := .zero
  map : AMap Entry := []
  deriving DecidableEq, Repr, Inhabited

/-- A splice of a husk into its sole child, block by block (R168). SPLICE names it by address space × 2^24 + husk. -/
structure Splice where
  husk : Nat
  child : Nat
  /-- Blocks of the two maps still to switch. -/
  todo : List Nat
  /-- It has begun; until then it waits for its child to be no longer BUSY. -/
  started : Bool
  deriving DecidableEq, Repr, Inhabited

/-- A lineage engine command that has issued and not completed (R158 to R168, R443). -/
structure LinCmd where
  id : Nat
  core : Nat
  ctx : Nat
  pc : Word64
  seq : BitVec 16
  ins : Instr
  /-- The values read from A, B and C at issue. -/
  va : Word64 := 0
  vb : Word64 := 0
  vc : Word64 := 0
  node : Nat
  base : Nat
  bind : Binding
  colour : Bool
  asid : Nat
  prog : Prog := .waiting
  /-- The next block to work on. -/
  blk : Nat := 0
  /-- LREBASE's new map (R165). -/
  newMap : AMap Entry := []
  /-- The new map of the node's frozen version, which an old LREBASE changes too (R281). -/
  frozMap : AMap Entry := []
  /-- New maps that it has taken heap room for. -/
  rooms : Nat := 0
  /-- Its changes are made: husks whose splices it waits for before its bump (R160, R168). -/
  after : Option (List Nat) := none
  deriving DecidableEq, Repr

/-- An address space (R149, R294): fixed by the supervisor when it creates the space. -/
structure AddrSpace where
  tvec : Word64 := 0
  ptbase : Word64 := 0
  nodes : AMap Node := []
  /-- Generation of each index that has been used; an unlisted one is 1 (R48). -/
  gens : AMap (BitVec 8) := []
  /-- Nodes the table holds; the heap's 512-byte units in each channel's share. -/
  tableSize : Nat := 0
  heapUnits : Nat := 0
  heapUsed : AMap Nat := []
  splices : List Splice := []
  deriving DecidableEq, Repr, Inhabited

/-- An armed queue (R250): its number and n as its CONFIG last showed them to the dispatcher. -/
structure Queue where
  num : Nat
  header : Nat
  asid : Nat
  n : Nat
  /-- A dispatched BARRIER packet holds the queue back (R252). -/
  barrier : Option Nat := none
  deriving DecidableEq, Repr, Inhabited

/-- A command block that an NMEM packet runs (R253): the block, its elements, and what NMC's parts gather. -/
structure CaskRun where
  img : List Byte
  n : Nat
  /-- Physical addresses of the granules of DST and SRC. -/
  pas : List Nat := []
  parts : List Nat := []
  first : Option Nat := none
  poisoned : Nat := 0
  status : Nat := 0
  heapFull : Bool := false
  deriving DecidableEq, Repr, Inhabited

/-- A dispatched packet that has not completed (R251 to R254). -/
structure Packet where
  id : Nat
  queue : Nat
  header : Nat
  asid : Nat
  index : Nat
  /-- The slot's eight doublewords. -/
  words : List Word64
  /-- The work has begun: COPY bytes moved, NMEM blocks done, LAUNCH enqueued. -/
  begun : Bool := false
  pos : Nat := 0
  /-- The work has ended: well, or by an abort. -/
  ended : Option Bool := none
  /-- Time of the last BARRIER round, and whether a named signal has changed atomically since (R254). -/
  lastRound : Nat := 0
  poke : Bool := false
  /-- The system die's colour for the job when its work began (R281). -/
  colour : Bool := false
  cask : Option CaskRun := none
  /-- LAUNCH: the task's base priority, read at dispatch (R247). -/
  base : Nat := 0
  /-- COPY: bytes read and not yet written, and whether they are poisoned; a request through a window is out; its answer. -/
  buf : List Byte := []
  bufBad : Bool := false
  /-- COPY through a window: bytes already written to the sector under way were poisoned. -/
  secBad : Bool := false
  out : Bool := false
  answer : Option (Word64 × Bool) := none
  deriving DecidableEq, Repr, Inhabited

/-- Where a resident team stands (R248, R249, R309). -/
inductive TeamPhase where
  | placed
  | waking
  | running
  /-- Stopped by R304 step 1; the commands that have sent requests complete (step 2). The cause, and the core, PC and
  FADDR of the member that raised it. -/
  | failing (cause core : Nat) (pc faddr : Word64)
  deriving DecidableEq, Repr, Inhabited

/-- A team on the mesh (R83, R248, R259). -/
structure Team where
  id : Nat
  rec' : Nat
  asid : Nat
  pkt : Nat
  queue : Nat
  base : Nat
  sup : Bool
  row0 : Nat
  col0 : Nat
  width : Nat
  height : Nat
  phase : TeamPhase := .placed
  resumes : Bool := false
  /-- The distributor: NX and NY of ranges 0 to 3, and NEXT (R259). -/
  ranges : List (Nat × Nat) := []
  next : AMap Nat := []
  /-- Arrivals of the members that a taken team's cores had not returned from, by rank (R100, R302). -/
  arrivals : AMap (List Arrival) := []
  bitmap : Word64 := 0
  save : Word64 := 0
  trigDone : Bool := false
  /-- The scheduler asks to take the team, since the cycle at which its first context parked (R99). -/
  take : Bool := false
  takeSince : Option Nat := none
  /-- A write fault in the save area: not requested again during this launch (R308). -/
  noTake : Bool := false
  /-- A taken team that a rollback has reached: the kiln's number, and RBPC where the team is redirected; its cores take both
  when it resumes (R288). -/
  rolled : Option (BitVec 16 × Option Word64) := none
  deriving DecidableEq, Repr, Inhabited

/-- A task that the scheduler holds: WAITING or READY (R246, R247). -/
structure TaskEntry where
  rec' : Nat
  asid : Nat
  pkt : Nat
  queue : Nat
  ready : Bool
  /-- The cycle since which it has been READY. -/
  since : Nat
  base : Nat
  width : Nat
  height : Nat
  /-- The team as it was taken, which resumes from its save area (R311). -/
  was : Option Team := none
  deriving DecidableEq, Repr, Inhabited

/-- States of a kiln (R273). -/
inductive KilnState where
  | running | complete | aborted
  deriving DecidableEq, Repr, Inhabited

/-- A page copied for a kiln, by leaf (R283). -/
structure PageCopy where
  va : Nat
  size : Nat
  pa : Nat
  copy : Nat
  leaf : Nat
  oldKst : BitVec 16
  /-- Offset of the copy in the manifest area. -/
  off : Nat
  deriving DecidableEq, Repr, Inhabited

/-- One old packet delivered after its receiver's cut (R278). -/
inductive Infl where
  /-- Bytes written to a core's local store, and the tags of their line after the write where the write changed them; the
  counter that the packet bumps there, if any. -/
  | store (core : Nat) (sp : Space) (addr : Nat) (bytes : List Byte) (tag : Option Tag) (ct : Option Nat)
  | inbox (core : Nat) (rank : Nat) (payload : List Byte) (poison : Bool) (ct : Option Nat)
  | bump (core : Nat) (ct : Nat)
  deriving DecidableEq, Repr, Inhabited

/-- A LINE record (R279, R286): the line's tag number, its 256 bytes and its tags. -/
structure LineRec where
  core : Nat
  line : Nat
  bytes : Mem
  tag : Tag
  deriving DecidableEq, Repr, Inhabited

/-- A CORE record (R275, R286): the core as it stood at its cut. -/
structure CoreRec where
  core : Nat
  /-- Number of the team at the cut. -/
  team : Nat
  body : Core
  cluster : Cluster
  /-- Lineage commands that had sent no request (R276). -/
  lin : List LinCmd
  deriving DecidableEq, Repr, Inhabited

/-- One kiln of a job (R269 to R289). -/
structure Kiln where
  num : BitVec 16
  base : Bool
  state : KilnState
  /-- Not released, rolled back past or aborted (R271). -/
  unreleased : Bool := true
  /-- Cores of the job that have cut. -/
  cut : List Nat := []
  cores : List CoreRec := []
  lines : List LineRec := []
  infl : List Infl := []
  /-- Frozen handles and the live handles they stand under (R282). -/
  frozen : List (Word32 × Word32) := []
  /-- Live handles of those that were SEALED. -/
  sealed : List Word32 := []
  /-- Live handles of those that an old LDEL has deleted (R281). -/
  killed : List Word32 := []
  newNodes : List Word32 := []
  pages : List PageCopy := []
  /-- Scheduler entries of the job at the start (R286), as the scheduler holds them: task records of the SCHED record,
  entries, and the queues and the packets that are restored with them (R288, R290). -/
  sched : List Nat := []
  tasks : List TaskEntry := []
  packets : List Packet := []
  queues : List Queue := []
  /-- The job's resident teams at the start. -/
  teams : List Team := []
  /-- Teams that were failing at the start, or failed before each of their members had cut: none of their members is restored
  (R290). -/
  failed : List Team := []
  /-- Modules of the job that have not yet reported that their cores have cut, and the old packets that each of the others
  has reported as sent and received (R280). -/
  remotesLeft : List Nat := []
  remote : List (Nat × Nat × Nat) := []
  /-- What this module has reported last. -/
  reported : Option (Nat × Nat) := none
  /-- Old packets that the parties of this module have sent and received so far (R280). -/
  oldSent : Nat := 0
  received : Nat := 0
  /-- The program has written bytes of its manifest (R285). -/
  spoiled : Bool := false
  records : Nat := 0
  /-- Unit at which its run of records begins, counted as `Job.nextUnit` counts. -/
  startUnit : Nat := 0
  deriving DecidableEq, Repr, Inhabited

/-- A registered job (R269). -/
structure Job where
  asid : Nat
  desc : Nat
  mbase : Nat := 0
  msize : Nat := 0
  last : BitVec 16 := 0
  kilns : List Kiln := []
  /-- Units of 64 bytes written to the manifest ring since the job was registered, records discarded by an abort
  taken back. -/
  nextUnit : Nat := 0
  /-- Modules other than this one that the job spans, by node number. -/
  remotes : List Nat := []
  /-- RBTASK and RBPC as the descriptor was last read (R269). -/
  redirect : List (Nat × Word64) := []
  deriving DecidableEq, Repr, Inhabited

/-- A request that waits for the Kiln controller (R272, R373): KILN's, or one of another kiln instruction, which its context
makes itself when its turn has come. -/
structure KilnReq where
  core : Nat
  ctx : Nat
  answers : Bool := true
  full : Bool
  d : Nat
  ct : Nat
  deriving DecidableEq, Repr, Inhabited

/-- A marker on its way to a router (R277). -/
structure Marker where
  router : Nat
  asid : Nat
  k : Nat
  deriving DecidableEq, Repr, Inhabited

/-- A page that a new write waits to have copied (R283). -/
structure PageReq where
  asid : Nat
  va : Nat
  deriving DecidableEq, Repr, Inhabited

/-- A containment under way (R307): the fence stands and the teams fail; then the cores are reset. -/
structure Containment where
  die : Nat
  /-- The rectangle's index; none for the whole die. -/
  rect : Option Nat
  row0 : Nat
  col0 : Nat
  width : Nat
  height : Nat
  /-- Teams that fail, and their task records. -/
  teams : List Nat
  recs : List Nat
  asids : List Nat := []
  deriving DecidableEq, Repr, Inhabited

/-- A notice for queue 0 (R256). -/
structure Notice where
  code : Nat
  args : List Word64
  deriving DecidableEq, Repr, Inhabited

/-- A waiter of a named event (R257, R258). -/
structure EventWaiter where
  core : Nat
  ctx : Nat
  n : Word32
  /-- It takes a record of the overflow area. -/
  overflow : Bool
  deriving DecidableEq, Repr, Inhabited

/-- A local image that belongs to a task of an address space (R49). -/
structure Image where
  asid : Nat
  task : Nat
  sp : Space
  addr : Nat
  bytes : List Byte
  deriving DecidableEq, Repr, Inhabited

/-- The host port's answers and signals, in order: what leaves the module (R315 to R317, R333). -/
inductive HostOut where
  | data (bytes : List Byte) (poison : List Bool)
  | old (v : Word64)
  | completerAbort
  | unsupported
  | cxlLine (bytes : List Byte) (poison : Bool)
  | msix
  | aer
  | cxlEvent
  | zeroLengthRead
  | done
  deriving DecidableEq, Repr, Inhabited

/-- A peer window (R325). -/
structure PeerWindow where
  node : BitVec 20 := 0
  v : Bool := false
  epoch : BitVec 16 := 0
  rbase : BitVec 48 := 0
  size : BitVec 40 := 0
  out : BitVec 24 := 0
  /-- The time at which V was cleared, while round 4 has not ended (R327). -/
  closedAt : Option Nat := none
  deriving DecidableEq, Repr, Inhabited

/-- An export entry (R326). -/
structure Export where
  node : BitVec 20 := 0
  v : Bool := false
  epoch : BitVec 16 := 0
  base : BitVec 48 := 0
  size : BitVec 40 := 0
  drops : Word32 := 0
  deriving DecidableEq, Repr, Inhabited

/-- A request on its way to a peer window (R319 to R325): of an engine command, or of a packet of the system die. -/
structure FabPacket where
  core : Nat
  ctx : Nat := 0
  cmd : Nat
  unit' : Nat := 0
  window : Nat := 0
  node : Nat := 0
  isAtomic : Bool := false
  isWrite : Bool := false
  /-- The window's epoch, the remote physical address, the bytes written or the operands of an atomic, their poison, and the
  colour and address space of the command (R270, R325). -/
  epoch : BitVec 16 := 0
  addr : Nat := 0
  data : List Byte := []
  poison : Bool := false
  colour : Bool := false
  asid : Nat := 0
  /-- When V of its window was cleared after it had been sent or queued (R327). -/
  closed : Option Nat := none
  deriving DecidableEq, Repr, Inhabited

/-- A fabric port (R319 to R322). -/
structure Port where
  up : Bool := true
  /-- Queued and not sent; sent and in the retry buffer; received by the other end and not answered. Oldest first. -/
  queue : List FabPacket := []
  retry : List FabPacket := []
  flight : List FabPacket := []
  /-- Drain rounds done since the link was declared dead, and the time of the declaration. -/
  round : Option Nat := none
  deadAt : Nat := 0
  /-- Address space and kiln of the last marker that it has passed on (R277). -/
  marked : Option (Nat × Nat) := none
  deriving DecidableEq, Repr, Inhabited

/-- What the module sends out of a fabric port on its own account: answers to requests that arrived (R326), link-state
notices (R321), and what the Kiln controllers and routers of a job's modules tell each other (R272, R277, R280, R288). -/
inductive FabOut where
  | data (bytes : List Byte) (poison : Bool)
  | old (v : Word64)
  | ack
  | status (code : Nat)
  | linkNotice (dead : Nat)
  | marker (asid k : Nat)
  | kilnStart (asid k : Nat) (base : Bool)
  | kilnCounts (asid sent received : Nat)
  | kilnRollback (asid k : Nat)
  | kilnRelease (asid k : Nat)
  | kilnAbort (asid k : Nat)
  deriving DecidableEq, Repr, Inhabited

/-- The root of trust's state that an interface shows (R334, R335): the nonce, the last report, and the public session
key since it was generated. -/
structure Trust where
  nonce : Mem := []
  report : List Byte := []
  session : Option (List Byte) := none
  deriving DecidableEq, Repr, Inhabited

/-- What the power arbiter keeps beside the dies' registers (R338): the grants of the stacks, 0 to 11, and of the system die,
12; since when the grants have summed to more than 3,000 W; and until when they may not again. -/
structure Arbiter where
  others : AMap (BitVec 22) := []
  overSince : Option Nat := none
  restUntil : Nat := 0
  deriving DecidableEq, Repr, Inhabited

/-- The management registers of BAR 0 and what the port sends out (R315, R316, R328, R329, R333). -/
structure HostPort where
  ready : Bool := true
  stage : BitVec 3 := 3
  fail : BitVec 8 := 0
  lastrst : BitVec 2 := 0
  hpe : Bool := false
  errirq : Bool := false
  err : Word64 := 0
  bar2base : Word64 := 0
  /-- The size of BAR 2 (R315; DESIGN CHOICE, log 120 for its value at reset). -/
  bar2size : Nat := 0x40000000
  time : Word64 := 0
  /-- Nanoseconds that the counter has counted since State.reset: what every limit in time is measured by (R4). A write of TIMESET does
  not move it. -/
  clock : Nat := 0
  /-- Nanoseconds of true time, by which the slew of the counter is limited (R329). -/
  trueNs : Nat := 0
  timeerr : Word64 := 0
  ptmint : Word64 := 10000000
  nextPtm : Nat := 10000000
  /-- Nanoseconds that the counter has still to gain, or to lose, by its slewed rate (R329). -/
  slew : Int := 0
  arbiter : Arbiter := {}
  trust : Trust := {}
  out : List HostOut := []
  deriving DecidableEq, Repr, Inhabited

/-- A request of another module that waits at its home: a tagged atomic which finds no tuple free (R324). -/
structure PeerWait where
  src : Nat
  addr : Nat
  asid : Nat
  colour : Bool
  op : PeerOp
  deriving DecidableEq, Repr, Inhabited

/-- The fabric side of the module (R319 to R327). -/
structure Fabric where
  ports : AMap Port := []
  routes : AMap (BitVec 16) := []
  windows : AMap PeerWindow := []
  exports : AMap Export := []
  /-- Nodes that a link-state notice has reported as not reached (R321). -/
  down : List Nat := []
  /-- Tagged atomics of other modules that wait at their homes, oldest first (R324). -/
  waiting : List PeerWait := []
  /-- What has been sent, with the port that it took, in order. -/
  out : List (Nat × FabOut) := []
  deriving DecidableEq, Repr, Inhabited

/-- Flat memory and what its homes hold (R230 to R244, R313, R324). -/
structure Flat where
  hbm : Mem := []
  /-- Poisoned 32-byte sectors of HBM by sector number (R133). -/
  poison : AMap Bool := []
  /-- Sectors of read-mostly pages that are poisoned in one die's replica alone: 4 × sector + die (R232). -/
  lost : AMap Bool := []
  host : Mem := []
  hostPoison : AMap Bool := []
  /-- 4,096-byte pages of host memory whose reads complete with Unsupported Request or Completer Abort (R318). -/
  hostAbsent : List Nat := []
  rmWrites : List RmWrite := []
  waiters : List Waiter := []
  tuples : List TagTuple := []
  deriving DecidableEq, Repr, Inhabited

/-- The system die (R12, R245 to R292). -/
structure SysDie where
  spaces : AMap AddrSpace := []
  lin : List LinCmd := []
  queues : List Queue := []
  packets : List Packet := []
  tasks : List TaskEntry := []
  containments : List Containment := []
  teams : List Team := []
  notices : List Notice := []
  events : AMap Word32 := []
  evWaiters : AMap (List EventWaiter) := []
  images : List Image := []
  jobs : List Job := []
  kilnReqs : List KilnReq := []
  pageReqs : List PageReq := []
  /-- Number of the last kiln of a job that each router has forwarded, by router and address space at key router × 2^16 +
  ASID (R277), and the markers on their way. -/
  forwarded : AMap Nat := []
  markers : List Marker := []
  nodeid : BitVec 20 := 0
  wttNext : BitVec 8 := 0
  wttBase : BitVec 38 := 0
  evovf : BitVec 40 := 0
  /-- Number of the next team, packet or splice. -/
  nextId : Nat := 1
  /-- The model's own fields: the cycle of the last fork, and the place in it after that fork (R378, log 1). -/
  forkCycle : Nat := 0
  forkNext : Nat := 0
  deriving DecidableEq, Repr, Inhabited

/-- What comes in from outside the module and has no row of the opcode table, and what an engine chooses for itself. -/
inductive Input where
  /-- Cycles of the core clock and nanoseconds of the counter pass. -/
  | elapse (cycles ns : Nat)
  /-- An uncorrectable error: the home marks the sectors that one DRAM word touches (R442). -/
  | dramError (pa : Nat)
  | nodeError (asid node blk sector : Nat)
  /-- A core's TLB and its die's drop the translations of a page (R147 lets hardware hold fewer). -/
  | tlbDrop (core va : Nat)
  /-- A core's instruction cache drops a block, or fetches one ahead (R73). -/
  | blockDrop (core va : Nat)
  | blockFetch (core va : Nat)
  /-- The atomic line buffer takes or gives up a line (R233). -/
  | lineOwn (core pa : Nat)
  | lineRecall (core pa : Nat)
  /-- The answer to a request through a peer window: data, acknowledgement or PEER_RETIRED (R325, R326). -/
  | peerReply (core cmd unit : Nat) (data : Word64) (retired poisoned : Bool)
  /-- The host changes its own memory, or what of it answers reads (R318). -/
  | hostMemory (a : Nat) (bytes : List Byte) (poison : Bool)
  | hostPage (page : Nat) (absent : Bool)
  /-- The zero-length read of a release has completed (R318). -/
  | hostReadDone (core cmd : Nat)
  /-- A queued packet of a port has been sent; the oldest in its retry buffer has been received (R319, R322). -/
  | portSend (port : Nat)
  | portReceived (port : Nat)
  /-- Firmware sets the node number and the routes (R19, R320). -/
  | setNode (node : BitVec 20)
  | setRoute (node : Nat) (entry : BitVec 16)
  /-- A module of a job reports that its part of the running kiln is whole, and the old packets that its parties have sent and
  received (R280). -/
  | kilnCounts (asid node sent received : Nat)
  /-- Another module of a job has released kiln k and the older ones, or aborted the running kiln k (R274, R289). -/
  | kilnRelease (asid k : Nat)
  | kilnAbort (asid k : Nat)
  /-- A marker of another module arrives at a router (R277). -/
  | markerIn (router asid k : Nat)
  /-- The supervisor creates an address space or registers a job (R149, R269). -/
  | createSpace (asid : Nat) (tvec ptbase : Word64) (tableSize heapUnits : Nat)
  | registerJob (asid desc : Nat) (remotes : List Nat)
  /-- Software has armed a queue: the dispatcher finds ARMED in the CONFIG of a header (R250). -/
  | armQueue (asid header : Nat)
  /-- The host reads a register of BAR 0 (R316, R325, R326, R328, R329, R333). -/
  | registerRead (off : Nat)
  /-- A request of the host that uses a feature which R314 does not list. -/
  | hostOther
  /-- The host resizes BAR 2 to 2^bits bytes (R315). -/
  | resizeBar2 (bits : Nat)
  deriving DecidableEq, Repr

/-- One piece of an engine's own work. -/
inductive Work where
  /-- The next unit of a put-and-get command. -/
  | pge (core id : Nat)
  /-- The next k-step or output of a matrix command that has started. -/
  | mx (core id : Nat)
  /-- The next block of a lineage command. -/
  | lin (core id : Nat)
  /-- A die updates its replica in the i-th read-mostly write (R232). -/
  | replica (i die : Nat)
  /-- The Kiln controller appends a notice to queue 0 (R256). -/
  | notice
  /-- A member's part has ended (R249). -/
  | part (core : Nat)
  /-- Steps 3 to 5 of R304 for a team whose commands have completed. -/
  | failDone (team : Nat)
  /-- Steps 3 to 5 of R307 for the oldest containment whose teams have failed. -/
  | contain
  deriving DecidableEq, Repr

/-- Who moves next. -/
inductive Action where
  /-- An event row of the opcode table. -/
  | event (i : Instr)
  /-- The issue slot of a core (R81). -/
  | issue (core : Nat)
  /-- A context that waits in an instruction tries it again, without the issue slot (R81). -/
  | retry (core ctx : Nat)
  | work (w : Work)
  | input (i : Input)
  deriving DecidableEq, Repr

/-- The machine. -/
structure State where
  /-- Who moves next, first first; when it is empty, the policy of Step.lean chooses (DESIGN CHOICE, log 1). -/
  agenda : List Action := []
  /-- Core and context whose instruction `exec` runs (DESIGN CHOICE, log 1). -/
  curCore : Nat := 0
  curCtx : Nat := 0
  /-- Index of the next free value (DESIGN CHOICE, log 4). -/
  freeCtr : Nat := 0
  /-- Cycles of the core clock since reset, the base of every limit given in cycles (DESIGN CHOICE, log 1). -/
  cycle : Nat := 0
  /-- The cycle in which an action was last taken, and the lowest place in it that is still open: contexts act in rising
  order of core and context, before everything else of the cycle (R171, R193, R370, R373, R378; DESIGN CHOICE, log 1). -/
  slotCycle : Nat := 0
  slotNext : Nat := 0
  cores : AMap Core := []
  clusters : AMap Cluster := []
  dies : AMap Die := []
  flat : Flat := {}
  sys : SysDie := {}
  host : HostPort := {}
  fab : Fabric := {}
  deriving DecidableEq, Repr, Inhabited

/-- The module when its cold start has ended (R332, R333): READY 1, STAGE 3, every store zero, no address space, no
queue armed, no team placed (DESIGN CHOICE, log 3, DESIGN CHOICE, log 5). -/
def State.reset : State := {}

end Sys2Proof.Machine
end

