-- ==== Sys2Proof/Machine/Access.lean ====
section
/-! DEFINITION. Names for the parts of the state and the one place where each register is read and written: contexts,
scalar registers with their D bits, predicates, completion counters, guards, local stores and tags. -/

namespace Sys2Proof.Machine

open Sys2Proof

/-! Cause and status codes (R297). -/

abbrev stOk : Nat := 0
abbrev causeIllegalLen : Nat := 1
abbrev causeIllegalOp : Nat := 2
abbrev causeIllegalEnc : Nat := 3
abbrev causeFetchSpan : Nat := 4
abbrev causePriv : Nat := 5
abbrev causeLocalRange : Nat := 6
abbrev causeAlign : Nat := 7
abbrev causeDeferred : Nat := 8
abbrev causeXlate : Nat := 9
abbrev causeProt : Nat := 10
abbrev causePoison : Nat := 11
abbrev causePoisonEgress : Nat := 12
abbrev causeLinHandle : Nat := 13
abbrev causeLinSealed : Nat := 14
abbrev causeLinKind : Nat := 15
abbrev causeLinShape : Nat := 16
abbrev causeWatchdog : Nat := 17
abbrev causeStall : Nat := 18
abbrev causeEngine : Nat := 19
abbrev causeVlane : Nat := 20
abbrev causeGang : Nat := 21
abbrev causeSendReject : Nat := 22
abbrev causePeerRetired : Nat := 23
abbrev causeLinkDead : Nat := 24
abbrev causeAtomicUnknown : Nat := 25
abbrev stDiscarded : Nat := 26
abbrev causeTrap : Nat := 32

/-- The word of a number. -/
def w64 (n : Nat) : Word64 := BitVec.ofNat 64 n

/-- The party that the accesses of the system die's units belong to: no core's number. -/
abbrev sysParty : Nat := Config.coreCount

/-! Parts of the state. -/

/-- Core c (R17); an unlisted core is as State.reset leaves it. -/
def State.core (s : State) (c : Nat) : Core := s.cores.get {} c

/-- Changes core c. -/
def State.modCore (s : State) (c : Nat) (f : Core → Core) : State := { s with cores := s.cores.put c (f (s.core c)) }

/-- Context h of a core. -/
def Core.ctx (x : Core) (h : Nat) : Ctx := x.ctxs.get {} h

/-- Changes context h of a core. -/
def Core.modCtx (x : Core) (h : Nat) (f : Ctx → Ctx) : Core := { x with ctxs := x.ctxs.put h (f (x.ctx h)) }

/-- Changes context h of core c. -/
def State.modCtx (s : State) (c h : Nat) (f : Ctx → Ctx) : State := s.modCore c (fun x => x.modCtx h f)

/-- The core whose instruction runs. -/
def State.home (s : State) : Core := s.core s.curCore

/-- Changes the core whose instruction runs. -/
def State.modHome (s : State) (f : Core → Core) : State := s.modCore s.curCore f

/-- The context whose instruction runs. -/
def State.me (s : State) : Ctx := s.home.ctx s.curCtx

/-- Changes the context whose instruction runs. -/
def State.modMe (s : State) (f : Ctx → Ctx) : State := s.modCtx s.curCore s.curCtx f

/-- Cluster k (R18). -/
def State.cluster (s : State) (k : Nat) : Cluster := s.clusters.get {} k

/-- Changes cluster k. -/
def State.modCluster (s : State) (k : Nat) (f : Cluster → Cluster) : State :=
  { s with clusters := s.clusters.put k (f (s.cluster k)) }

/-- Die d (R10). -/
def State.die (s : State) (d : Nat) : Die := s.dies.get {} d

/-- Changes die d. -/
def State.modDie (s : State) (d : Nat) (f : Die → Die) : State := { s with dies := s.dies.put d (f (s.die d)) }

/-- Changes the system die. -/
def State.modSys (s : State) (f : SysDie → SysDie) : State := { s with sys := f s.sys }

/-- Changes flat memory. -/
def State.modFlat (s : State) (f : Flat → Flat) : State := { s with flat := f s.flat }

/-- Changes the host port. -/
def State.modHost (s : State) (f : HostPort → HostPort) : State := { s with host := f s.host }

/-- Changes the fabric side. -/
def State.modFab (s : State) (f : Fabric → Fabric) : State := { s with fab := f s.fab }

/-- Sends an answer or a signal out of the host port. -/
def State.emit (s : State) (o : HostOut) : State := s.modHost (fun h => { h with out := h.out ++ [o] })

/-- Address space a (R149). -/
def State.space (s : State) (a : Nat) : AddrSpace := s.sys.spaces.get {} a

/-- Changes address space a. -/
def State.modSpace (s : State) (a : Nat) (f : AddrSpace → AddrSpace) : State :=
  s.modSys (fun y => { y with spaces := y.spaces.put a (f (s.space a)) })

/-- The next free value of 64 bits, and the state after taking it (DESIGN CHOICE, log 4). -/
def State.free (s : State) : Word64 × State := (Config.freeWord s.freeCtr, { s with freeCtr := s.freeCtr + 1 })

/-- The next free byte, and the state after taking it (DESIGN CHOICE, log 4). -/
def State.freeByte (s : State) : Byte × State := (Config.freeByte s.freeCtr, { s with freeCtr := s.freeCtr + 1 })

/-! Places (R10, R17, R18). -/

/-- Row, column, die, cluster and slice of a core. -/
def rowOf (c : Nat) : Nat := c / 224
def colOf (c : Nat) : Nat := c % 224
def dieOf (c : Nat) : Nat := (rowOf c / 60) * 2 + colOf c / 112
def clusterOf (c : Nat) : Nat := rowOf c * 28 + colOf c / 8
def sliceOf (c : Nat) : Nat := c % 224 % 8

/-- The core at a row and column. -/
def coreAt (row col : Nat) : Nat := row * 224 + col

/-- The routers at which the links of the system die enter the mesh, one on each die (R12). -/
def entryCores : List Nat := [coreAt 59 111, coreAt 59 112, coreAt 60 111, coreAt 60 112]

/-- The core of slice i in a cluster. -/
def coreOfSlice (cl i : Nat) : Nat := coreAt (cl / 28) (cl % 28 * 8 + i)

/-- The channel of a physical address in HBM (R15). -/
def channelOf (pa : Nat) : Nat := pa / 4096 % Config.channelCount

/-- The global name of a core (R19). -/
def State.coreName (s : State) (c : Nat) : Nat := s.sys.nodeid.toNat * 2 ^ 15 + c

/-- What a physical address reaches (R313). -/
inductive Range where
  | hbm
  | nothing
  | host (a : Nat)
  | peer (w off : Nat)
  deriving DecidableEq, Repr

/-- The range of a physical address (R313). -/
def rangeOf (pa : Nat) : Range :=
  if pa < Config.hbmSize then .hbm
  else if pa < Config.hostBase then .nothing
  else if pa < Config.peerBase then .host (pa - Config.hostBase)
  else if pa < Config.physEnd then .peer ((pa - Config.peerBase) / 2 ^ 40) ((pa - Config.peerBase) % 2 ^ 40)
  else .nothing

/-! Registers of a context. -/

/-- Value of scalar register i; 0 when i = 0 (R74: sv). -/
def Ctx.sv (x : Ctx) (i : Nat) : Word64 := if i = 0 then 0 else (x.sregs.get {} i).val

/-- D bit of scalar register i; 0 when i = 0 (R74: dbit). -/
def Ctx.dbit (x : Ctx) (i : Nat) : Bool := if i = 0 then false else (x.sregs.get {} i).d

/-- Writes scalar register i; no effect when i = 0 (R74: set_s). -/
def Ctx.setS (x : Ctx) (i : Nat) (v : Word64) (d : Bool) : Ctx :=
  if i = 0 then x else { x with sregs := x.sregs.set {} i { val := v, d := d } }

/-- Predicate i; all ones when i = 0 (R74: pv). -/
def Ctx.pv (x : Ctx) (i : Nat) : Word64 := if i = 0 then BitVec.allOnes 64 else x.preds.get 0 i

/-- Writes predicate i; no effect when i = 0 (R74: set_p). -/
def Ctx.setP (x : Ctx) (i : Nat) (v : Word64) : Ctx :=
  if i = 0 then x else { x with preds := x.preds.set 0 i v }

/-- Sets sticky flags of FRM (R113). -/
def Ctx.orFrm (x : Ctx) (f : BitVec 9) : Ctx := { x with frm := x.frm ||| f }

/-- Sets sticky flags of ISTAT (R119). -/
def Ctx.orIstat (x : Ctx) (f : BitVec 2) : Ctx := { x with istat := x.istat ||| f }

/-- Generator l of a context (R111). -/
def Ctx.gen (x : Ctx) (seedOf : Word32 → Nat → Word32) (l : Nat) : Word32 :=
  match x.gens.find l with
  | some g => g
  | none => seedOf x.seed l

/-! Registers of a core. -/

/-- Completion counter ct (R21). -/
def Core.counter (x : Core) (ct : Nat) : Word32 := x.counters.get 0 ct

/-- Writes completion counter ct. -/
def Core.setCounter (x : Core) (ct : Nat) (v : Word32) : Core := { x with counters := x.counters.set 0 ct v }

/-- Guard slot g; slot 0 is always true (R179). -/
def Core.guard (x : Core) (g : Nat) : GuardVal := if g = 0 then .tru else x.guards.get .tru g

/-- What a command whose GD field is g binds to at issue (R180). -/
def Core.bindGuard (x : Core) (g : Nat) : Binding :=
  match x.guard g with
  | .tru => .val true
  | .fls => .val false
  | .pending => .slot g

/-- A core's colour (R270). -/
def Core.colour (x : Core) : Bool := x.knum.toNat % 2 = 1

/-! Local stores (R126). -/

/-- limit(SP) of R75. -/
def limitOf : Space → Nat
  | .w => 0xC000
  | .a => 0x8000
  | .c => 0x4000
  | .e => 0x100

/-- The tag number of the line that holds an address: W 0 to 191, A 192 to 319, C 320 to 383. -/
def lineOf (sp : Space) (a : Nat) : Nat :=
  match sp with
  | .w => a / 256
  | .a => 192 + a / 256
  | .c => 320 + a / 256
  | .e => 384 + a / 8

/-- Space and first address of a line by its tag number. -/
def lineSpace (l : Nat) : Space := if l < 192 then .w else if l < 320 then .a else .c
def lineAddr (l : Nat) : Nat := if l < 192 then 256 * l else if l < 320 then 256 * (l - 192) else 256 * (l - 320)

/-- The bytes of W, A or C. -/
def Core.store (x : Core) : Space → Mem
  | .w => x.w
  | .a => x.a
  | .c => x.c
  | .e => []

/-- Replaces the bytes of W, A or C. -/
def Core.setStore (x : Core) (sp : Space) (m : Mem) : Core :=
  match sp with
  | .w => { x with w := m }
  | .a => { x with a := m }
  | .c => { x with c := m }
  | .e => x

/-- Tags of a line (R129). -/
def Core.tag (x : Core) (l : Nat) : Tag := x.tags.get {} l

/-- Lists a number in a rising list, once. -/
def insertNat (n : Nat) : List Nat → List Nat
  | [] => [n]
  | k :: r => if n = k then k :: r else if n < k then n :: k :: r else k :: insertNat n r

/-- Notes that a line has been written since the core's last cut (R279). -/
def Core.touch (x : Core) (l : Nat) : Core := { x with dirty := insertNat l x.dirty }

/-- Writes the tags of a line. -/
def Core.setTag (x : Core) (l : Nat) (t : Tag) : Core := ({ x with tags := x.tags.set {} l t }).touch l

/-- Reads n local bytes as a number. -/
def Core.ld (x : Core) (sp : Space) (a n : Nat) : Nat := (x.store sp).num a n

/-- Writes the low n bytes of a number at a local address, which lies in one line, and notes the line as written. -/
def Core.st (x : Core) (sp : Space) (a n v : Nat) : Core :=
  (x.setStore sp ((x.store sp).setNum a n v)).touch (lineOf sp a)

/-- Writes bytes from a local address on, which may span lines. -/
def Core.stBytes (x : Core) (sp : Space) (a : Nat) (bs : List Byte) : Core :=
  let y := x.setStore sp ((x.store sp).write a bs)
  if bs.isEmpty then y
  else (upFrom (lineOf sp a) (lineOf sp (a + bs.length - 1) - lineOf sp a + 1)).foldl (fun z l => z.touch l) y

/-- Sets P of the lines of a local extent. -/
def Core.markPoison (x : Core) (sp : Space) (a n : Nat) : Core :=
  if n = 0 then x
  else (upFrom (lineOf sp a) (lineOf sp (a + n - 1) - lineOf sp a + 1)).foldl
    (fun z l => z.setTag l { z.tag l with p := true }) x

/-- The first address of a local extent that lies in a line with P set (R134). -/
def Core.poisonAt (x : Core) (sp : Space) (a n : Nat) : Option Nat :=
  if sp = .e ∨ n = 0 then none
  else
    match (upFrom (lineOf sp a) (lineOf sp (a + n - 1) - lineOf sp a + 1)).find? (fun l => (x.tag l).p) with
    | some l => some (max a (lineAddr l))
    | none => none

/-- Whether a line waits to be drained for a kiln, so that a write of it waits (R279). -/
def Core.pendingDrain (x : Core) (sp : Space) (a n : Nat) : Bool :=
  x.drain.any (fun l => decide (n ≠ 0 ∧ lineOf sp a ≤ l ∧ l ≤ lineOf sp (a + n - 1)))

/-- Whether tags allow a tagged read of a line: full or spent (R129). -/
def Tag.readable (t : Tag) : Bool := t.v

/-- Whether tags allow a tagged write of a line: empty or spent (R129). -/
def Tag.writable (t : Tag) : Bool := !t.v || t.u

/-- The core one step away, if the mesh has one (R94). -/
def neighbour (c dir : Nat) : Option Nat :=
  let r := rowOf c
  let k := colOf c
  match dir with
  | 0 => if 1 ≤ r then some (c - 224) else none
  | 1 => if k + 1 < 224 then some (c + 1) else none
  | 2 => if r + 1 < 120 then some (c + 224) else none
  | _ => if 1 ≤ k then some (c - 1) else none

/-! Teams. -/

/-- A resident team by its number. -/
def State.team (s : State) (t : Nat) : Option Team := s.sys.teams.find? (fun x => x.id = t)

/-- Changes a resident team. -/
def State.modTeam (s : State) (t : Nat) (f : Team → Team) : State :=
  s.modSys (fun y => { y with teams := y.teams.map (fun x => if x.id = t then f x else x) })

/-- The cores of a team in order of rank (R83). -/
def Team.cores (t : Team) : List Nat :=
  (upFrom t.row0 t.height).flatMap (fun r => (upFrom t.col0 t.width).map (fun k => coreAt r k))

/-- The rank of a core in its team (R83). -/
def Team.rankOf (t : Team) (c : Nat) : Nat := (rowOf c - t.row0) * t.width + (colOf c - t.col0)

/-- The core of a rank (R83). -/
def Team.coreOf (t : Team) (r : Nat) : Nat := coreAt (t.row0 + r / t.width) (t.col0 + r % t.width)

/-- The team that a core is reserved for. -/
def State.teamOf (s : State) (c : Nat) : Option Team := (s.core c).team.bind s.team

end Sys2Proof.Machine
end

