-- ==== Sys2Proof/Machine/FabricCore.lean ====
section
/-! DEFINITION. Below the fabric's rows: routes and ports, peer windows and exports, and how a command's request leaves
through a window (R319 to R327). -/

namespace Sys2Proof.Machine

open Sys2Proof

/-- Port, window and export by number. -/
def Fabric.port (f : Fabric) (p : Nat) : Port := f.ports.get {} p
def Fabric.modPort (f : Fabric) (p : Nat) (g : Port → Port) : Fabric := { f with ports := f.ports.put p (g (f.port p)) }
def Fabric.window (f : Fabric) (w : Nat) : PeerWindow := f.windows.get {} w
def Fabric.modWindow (f : Fabric) (w : Nat) (g : PeerWindow → PeerWindow) : Fabric :=
  { f with windows := f.windows.put w (g (f.window w)) }

/-- A port takes part in route choice while its link is up, and after its death until the drain rounds end (R322). -/
def Port.chosen (p : Port) : Bool := p.up || p.round.isSome

/-- The ports of a route entry for a class of traffic, in order of choice (R320). -/
def routePorts (r : BitVec 16) (ordered : Bool) : List Nat :=
  let v := r.toNat
  if !bitAt v 15 then []
  else
    let alts := (if !ordered || bitAt v 13 then [bits v 7 4] else []) ++ (if !ordered || bitAt v 14 then [bits v 11 8] else [])
    bits v 3 0 :: alts

/-- The port that a packet for a node takes; none ends it with LINK_DEAD (R320). Unordered traffic joins no queue of a dead
port. -/
def Fabric.choose (f : Fabric) (node : Nat) (ordered : Bool) : Option Nat :=
  if f.down.contains node then none
  else (routePorts (f.routes.get 0 node) ordered).find? (fun p => if ordered then (f.port p).chosen else (f.port p).up)

/-- Queues a request of a command for a node; none when it has no route (R320, R322). -/
def State.sendPacket (s : State) (k : FabPacket) : Option State :=
  (s.fab.choose k.node true).map (fun p => s.modFab (fun f => f.modPort p (fun q => { q with queue := q.queue ++ [k] })))

/-- Sends an answer to a node on any route that is up; an answer without one is lost (R320, unordered traffic). -/
def State.reply (s : State) (node : Nat) (o : FabOut) : State :=
  match s.fab.choose node false with
  | some p => s.modFab (fun f => { f with out := f.out ++ [(p, o)] })
  | none => s

/-- A request has left, or has its answer or its end: OUT of its window (R325). -/
def Fabric.asked (f : Fabric) (k : FabPacket) : Fabric := f.modWindow k.window (fun w => { w with out := w.out + 1 })
def Fabric.answered (f : Fabric) (k : FabPacket) : Fabric :=
  f.modWindow k.window (fun w => { w with out := if w.out = 0 then 0 else w.out - 1 })

/-- The oldest packet that has been sent and that a test selects, and the fabric without it. -/
def Fabric.takeSent (f : Fabric) (p : FabPacket → Bool) : Option (FabPacket × Fabric) :=
  match f.ports.find? (fun e => (e.2.flight ++ e.2.retry).any p) with
  | none => none
  | some e =>
    match e.2.flight.find? p with
    | some k => some (k, f.modPort e.1 (fun q => { q with flight := q.flight.erase k }))
    | none => (e.2.retry.find? p).map (fun k => (k, f.modPort e.1 (fun q => { q with retry := q.retry.erase k })))

/-- Whether an access through a window at an offset may go out (R325). -/
def PeerWindow.admits (w : PeerWindow) (off : Nat) : Bool := w.v && decide (off < w.size.toNat)

/-- The export entries that cover an address (R326). -/
def Fabric.covering (f : Fabric) (addr : Nat) : List (Nat × Export) :=
  f.exports.filter (fun e => e.2.v && decide (e.2.base.toNat ≤ addr) && decide (addr < e.2.base.toNat + e.2.size.toNat))

/-- Whether a request of a source node with an epoch is served at an address (R326). -/
def Fabric.serves (f : Fabric) (src epoch addr : Nat) : Bool :=
  (f.covering addr).any (fun e => decide (e.2.node.toNat = src) && decide (e.2.epoch.toNat = epoch))

/-- A request that is not served is counted in DROPS of the covering entries, saturating (R326). -/
def Fabric.dropped (f : Fabric) (addr : Nat) : Fabric :=
  (f.covering addr).foldl (fun f e => { f with exports := f.exports.put e.1 { e.2 with
    drops := if e.2.drops = BitVec.allOnes 32 then e.2.drops else e.2.drops + 1 } }) f

/-- The device address that a window reaches in its own module: a packet for the module's own node never leaves it and is
served as a request that has arrived, or dropped and counted as one (R319, R326). None: PEER_RETIRED. -/
def State.loopback (s : State) (w : PeerWindow) (off : Nat) : Option Nat × State :=
  let addr := w.rbase.toNat + off
  if s.fab.serves s.sys.nodeid.toNat w.epoch.toNat addr then (some addr, s)
  else (none, s.modFab (fun f => f.dropped addr))

/-- What becomes of a request through a window. -/
inductive Through where
  /-- It is served in this module, at a physical address of HBM. -/
  | here (pa : Nat) (s : State)
  /-- It is served in this module, and reaches host memory at an address (R313, R326). -/
  | host (a : Nat) (s : State)
  /-- It is served in this module, and reaches nothing: PROT (R313). -/
  | prot (s : State)
  /-- It is queued for another module. -/
  | sent (s : State)
  /-- The window does not admit it, or the module's own export refuses it: PEER_RETIRED. -/
  | closed (s : State)
  /-- It has no route: LINK_DEAD. -/
  | dead

/-- Sends a request through window w at an offset (R319, R320, R325). `k` says what it asks for. -/
def State.through (s : State) (w off : Nat) (k : FabPacket) : Through :=
  let win := s.fab.window w
  if !win.admits off then .closed s
  else if win.node = s.sys.nodeid then
    match s.loopback win off with
    | (some pa, t) =>
      (match rangeOf pa with
        | .hbm => .here pa t
        | .host a => .host a t
        | _ => .prot t)
    | (none, t) => .closed t
  else
    match s.sendPacket { k with window := w, node := win.node.toNat, epoch := win.epoch, addr := win.rbase.toNat + off } with
    | some t => .sent t
    | none => .dead

end Sys2Proof.Machine
end

