-- ==== Sys2Proof/Machine/Flat.lean ====
section
/-! DEFINITION. Flat memory below the commands: address ranges, poison sectors, page-table walks, TLBs, the granule
locks of read-mostly pages, and uncoloured reads and writes at the homes (R133, R145 to R147, R230 to R232, R313). -/

namespace Sys2Proof.Machine

open Sys2Proof

/-- Kinds of access that a translation is asked for (R143, R342). -/
inductive Kind where
  | read | write | both | fetch
  deriving DecidableEq, Repr

/-- The 32-byte sectors that a byte range touches, and those that it covers whole. -/
def sectorsIn (pa n : Nat) : List Nat := if n = 0 then [] else upFrom (pa / 32) ((pa + n - 1) / 32 - pa / 32 + 1)
def sectorsWhole (pa n : Nat) : List Nat := upFrom ((pa + 31) / 32) ((pa + n) / 32 - (pa + 31) / 32)

/-- Sets the poison of sectors. -/
def setPoison (p : AMap Bool) (ks : List Nat) (v : Bool) : AMap Bool := ks.foldl (fun q k => q.set false k v) p

/-- Whether a byte range of a store touches a poisoned 32-byte sector (R133). -/
def poisonedIn (p : AMap Bool) (pa n : Nat) : Bool := (sectorsIn pa n).any (fun k => p.get false k)

/-- Marks every sector that a byte range touches. -/
def poisonOver (p : AMap Bool) (pa n : Nat) : AMap Bool := setPoison p (sectorsIn pa n) true

/-- Clears every sector that a byte range covers whole (R134, R442). -/
def unpoisonOver (p : AMap Bool) (pa n : Nat) : AMap Bool := setPoison p (sectorsWhole pa n) false

/-- Whether HBM bytes are poisoned. -/
def State.hbmPoisoned (s : State) (pa n : Nat) : Bool := poisonedIn s.flat.poison pa n

/-- Bytes with later cells written over them. -/
def overlay (cells : List (Nat × Byte)) (pa : Nat) (bs : List Byte) : List Byte :=
  (bs.zipIdx).map (fun e => match cells.find? (fun q => q.1 = pa + e.2) with | some q => q.2 | none => e.1)

/-- The replicas of sectors: the numbers under which their poison is kept (R232). -/
def replicas (ks dies : List Nat) : List Nat := ks.flatMap (fun k => dies.map (fun d => 4 * k + d))

/-- The sectors that a read-mostly write touches. -/
def RmWrite.sectors (w : RmWrite) : List Nat := (w.cells.map (fun c => c.1 / 32)).eraseDups

/-- Whether a die's replica of bytes of HBM is poisoned, by a write under way or by an earlier one (R232). -/
def State.lostAt (s : State) (die pa n : Nat) : Bool :=
  (sectorsIn pa n).any (fun k => s.flat.rmWrites.any (fun w => w.lost.contains die && w.sectors.contains k) ||
    (s.flat.lost.get false (4 * k + die) && !s.flat.rmWrites.any (fun w => w.clear.contains k)))

/-- Bytes of HBM as a reader that belongs to no compute die sees them, and whether a sector of them is poisoned: a
read-mostly write between its two steps is seen at once, since a die that has not updated its replica stalls every reader
of it, and a replica's own poison is that of its die alone (R230, R232; DEDUCED, log 13). -/
def State.hbmSeen (s : State) (pa n : Nat) : List Byte × Bool :=
  (s.flat.rmWrites.foldl (fun b w => overlay w.cells pa b) (s.flat.hbm.read pa n),
    (sectorsIn pa n).any (fun k => s.flat.rmWrites.any (fun w => w.poison.contains k) ||
      (s.flat.poison.get false k && !s.flat.rmWrites.any (fun w => w.clear.contains k))))

/-- HBM bytes at a physical address. -/
def State.hbmNum (s : State) (pa n : Nat) : Nat := s.flat.hbm.num pa n

/-- Writes HBM bytes without colour, locks or poison (R285's controller writes, R305's record). -/
def State.hbmPut (s : State) (pa : Nat) (bs : List Byte) : State :=
  s.modFlat (fun f => { f with hbm := f.hbm.write pa bs })

/-! Translation (R145, R146). -/

/-- One page-table entry, read at its home: POISON in a poisoned sector, PROT outside HBM (DEDUCED, log 11). -/
def State.pte (s : State) (pa : Nat) : Except Nat Nat :=
  if Config.hbmSize < pa + 8 then .error causeProt
  else if (s.hbmSeen pa 8).2 then .error causePoison
  else .ok (leNat (s.hbmSeen pa 8).1)

/-- Whether a pointer entry has a must-be-zero bit set (R145, R146). -/
def pointerBad (e : Nat) : Bool := bits e 6 2 ≠ 0 || bits e 11 7 ≠ 0 || bits e 63 48 ≠ 0

/-- The walk from a table on. `levels` holds, for each level from this one down, the position of its index in the
address and the index's width; a leaf at this level maps 2^position bytes, and none is allowed at the first. -/
def walkFrom (s : State) (asid va : Nat) : (table : Nat) → (top : Bool) → List (Nat × Nat) → Except Nat TlbEntry
  | _, _, [] => .error causeXlate
  | table, top, (lo, width) :: rest => do
    let at' := table + 8 * ((va >>> lo) % 2 ^ width)
    let e ← s.pte at'
    if bitAt e 0 = false then .error causeXlate
    else if bitAt e 1 then
      let pa := bits e 47 16 * 2 ^ 16
      if top || bits e 15 7 ≠ 0 || pa % 2 ^ lo ≠ 0 then .error causeXlate
      else
        .ok { asid := asid, va := va / 2 ^ lo * 2 ^ lo, size := 2 ^ lo, pa := pa, r := bitAt e 2, w := bitAt e 3,
              x := bitAt e 4, rm := bitAt e 5, s := bitAt e 6, kst := BitVec.ofNat 16 (bits e 63 48), leaf := at' }
    else if pointerBad e then .error causeXlate
    else walkFrom s asid va (bits e 47 12 * 2 ^ 12) false rest

/-- The four levels: index position and width (R145). -/
def walkLevels : List (Nat × Nat) := [(39, 13), (30, 9), (21, 9), (16, 5)]

/-- A walk from the level-3 table at `ptbase` (R145, R146). -/
def walk (s : State) (asid ptbase va : Nat) : Except Nat TlbEntry :=
  if 2 ^ 52 ≤ va then .error causeXlate else walkFrom s asid va (bits ptbase 47 16 * 2 ^ 16) true walkLevels

/-- Whether a translation allows an access (R146): the permission bits, S, and code from HBM only. -/
def TlbEntry.permits (e : TlbEntry) (k : Kind) (sup : Bool) (va : Nat) : Bool :=
  (!e.s || sup) &&
  match k with
  | .read => e.r
  | .write => e.w
  | .both => e.r && e.w
  | .fetch => e.x && decide (rangeOf (e.pa + (va - e.va)) = .hbm)

/-- The physical address of a virtual one under a translation. -/
def TlbEntry.phys (e : TlbEntry) (va : Nat) : Nat := e.pa + (va - e.va)

/-- The entry of a TLB that translates an address (R147). -/
def tlbFind (t : List TlbEntry) (asid va : Nat) : Option TlbEntry :=
  t.find? (fun e => e.asid = asid && decide (e.va ≤ va) && decide (va < e.va + e.size))

/-- Adds a translation, dropping the oldest when the TLB is full (DESIGN CHOICE, log 12). -/
def tlbAdd (t : List TlbEntry) (cap : Nat) (e : TlbEntry) : List TlbEntry :=
  let u := t ++ [e]
  u.drop (u.length - cap)

/-- The translation of an address for a core: its first-level TLB, its die's TLB, or a walk, whose entry both keep
(R147). -/
def State.lookup (s : State) (c va : Nat) : Except Nat (TlbEntry × State) :=
  let x := s.core c
  let asid := x.curAsid.toNat
  if 2 ^ 52 ≤ va then .error causeXlate
  else
    match tlbFind x.tlb asid va with
    | some e => .ok (e, s)
    | none =>
      match tlbFind (s.die (dieOf c)).tlb asid va with
      | some e => .ok (e, s.modCore c (fun y => { y with tlb := tlbAdd y.tlb 1024 e }))
      | none =>
        match walk s asid x.curPtbase.toNat va with
        | .error k => .error k
        | .ok e =>
          .ok (e, (s.modCore c (fun y => { y with tlb := tlbAdd y.tlb 1024 e })).modDie (dieOf c)
            (fun d => { d with tlb := tlbAdd d.tlb 65536 e }))

/-- xlate() of R74 for a core: the translation, or XLATE, PROT or POISON. -/
def State.xlate (s : State) (c : Nat) (sup : Bool) (k : Kind) (va : Nat) : Except Nat (TlbEntry × State) :=
  match s.lookup c va with
  | .error e => .error e
  | .ok (e, t) => if e.permits k sup va then .ok (e, t) else .error causeProt

/-- Translation for a unit of the system die in an address space: a walk, kept nowhere. -/
def State.sysXlate (s : State) (asid : Nat) (sup : Bool) (k : Kind) (va : Nat) : Except Nat TlbEntry :=
  match walk s asid (s.space asid).ptbase.toNat va with
  | .error e => .error e
  | .ok e => if e.permits k sup va then .ok e else .error causeProt

/-! Read-mostly pages (R232). -/

/-- The write between its two steps that holds a granule's lock, if any. -/
def State.rmLock (s : State) (pa : Nat) : Option RmWrite :=
  s.flat.rmWrites.find? (fun w => w.granule = pa / 4096)

/-- Outcome of an access at a home. -/
inductive Served (α : Type) where
  | ok (v : α)
  | stall
  | fault (cause : Nat)
  deriving Repr

/-- Bytes of one granule of HBM as a reader on a die sees them, and whether a sector of them is poisoned: it waits while its
die's replica is locked (R230, R232). -/
def State.hbmRead (s : State) (die pa n : Nat) : Served (List Byte × Bool) :=
  match s.rmLock pa with
  | some w => if w.dies.contains die then .stall else .ok ((s.hbmSeen pa n).1, (s.hbmSeen pa n).2 || s.lostAt die pa n)
  | none => .ok (s.flat.hbm.read pa n, s.hbmPoisoned pa n || s.lostAt die pa n)

/-- Step 2 of R232 ends: the write is performed, and its granule is unlocked. -/
def State.perform (s : State) (w : RmWrite) : State :=
  s.modFlat (fun f => { f with
    rmWrites := f.rmWrites.erase w
    hbm := w.cells.foldl (fun m c => m.set c.1 c.2) f.hbm
    poison := setPoison (setPoison f.poison w.clear false) w.poison true
    lost := setPoison (setPoison f.lost (replicas w.clear [0, 1, 2, 3]) false) (replicas w.sectors w.lost) true })

/-- Performs the read-mostly writes whose granules meet n bytes from a physical address on: what a party without a die of its
own finds when it writes there (DEDUCED, log 13). -/
def State.settle (s : State) (pa n : Nat) : State :=
  (s.flat.rmWrites.filter (fun w => decide (pa / 4096 ≤ w.granule ∧ w.granule ≤ (pa + n - 1) / 4096))).foldl State.perform s

/-- Recalls a 64-byte line that an atomic line buffer owns (R233): an access has reached its home. -/
def State.recall (s : State) (pa : Nat) : State :=
  if s.cores.any (fun e => e.2.linebuf.contains (pa / 64)) then
    { s with cores := s.cores.map (fun e => (e.1, { e.2 with linebuf := e.2.linebuf.filter (fun k => k ≠ pa / 64) })) }
  else s

/-- What a write does to the poison of the sectors it touches. -/
inductive PoisonAct where
  | keep
  | set
  | clear
  deriving DecidableEq, Repr

/-- Sectors that a write of n bytes leaves poisoned, and sectors whose poison it clears. -/
def PoisonAct.sets (act : PoisonAct) (pa n : Nat) : List Nat := if act = .set then sectorsIn pa n else []
def PoisonAct.clears (act : PoisonAct) (pa n : Nat) : List Nat :=
  match act with
  | .keep => sectorsWhole pa n
  | .set => []
  | .clear => [pa / 32]

/-- Poison after a write of n bytes. -/
def applyPoison (act : PoisonAct) (p : AMap Bool) (pa n : Nat) : AMap Bool :=
  setPoison (setPoison p (act.clears pa n) false) (act.sets pa n) true

/-- Writes HBM bytes and their sectors' poison. A write that covers a whole sector clears it; `clear` says that the
write's command has covered the whole sector of `pa` (R442). -/
def State.hbmWrite (s : State) (pa : Nat) (bs : List Byte) (act : PoisonAct) : State :=
  s.modFlat (fun f =>
    { f with hbm := f.hbm.write pa bs, poison := applyPoison act f.poison pa bs.length
             lost := setPoison f.lost (replicas (act.clears pa bs.length) [0, 1, 2, 3]) false })

/-- Step 1 of R232 for bytes of HBM, granule by granule: a write by a party's command, and all four replicas locked. -/
def State.openRm (s : State) (core cmd : Nat) (act : PoisonAct) : (pa : Nat) → (bs : List Byte) → (fuel : Nat) → State
  | _, [], _ => s
  | _, _, 0 => s
  | pa, b :: bs, fuel + 1 =>
    let k := min (bs.length + 1) (4096 - pa % 4096)
    let part := (b :: bs).take k
    (s.modFlat (fun f => { f with rmWrites := f.rmWrites ++
      [{ granule := pa / 4096, cells := (part.zipIdx).map (fun e => (pa + e.2, e.1)), poison := act.sets pa k
         clear := act.clears pa k, dies := [0, 1, 2, 3], since := s.host.clock, core := core, cmd := cmd }] })).openRm
      core cmd act (pa + k) ((b :: bs).drop k) fuel

/-- Host memory, at a host address (R313, R318). -/
def State.hostRead (s : State) (a n : Nat) : List Byte × Bool := (s.flat.host.read a n, poisonedIn s.flat.hostPoison a n)

/-- Writes host memory. -/
def State.hostPut (s : State) (a : Nat) (bs : List Byte) : State :=
  s.modFlat (fun f => { f with host := f.host.write a bs, hostPoison := unpoisonOver f.hostPoison a bs.length })

/-- Removes a translation from the TLBs of every core and die (R283: the leaf of a page that has been stamped). -/
def State.dropLeaf (s : State) (leaf : Nat) : State :=
  { s with
    cores := s.cores.map (fun e => (e.1, { e.2 with tlb := e.2.tlb.filter (fun t => t.leaf ≠ leaf) }))
    dies := s.dies.map (fun e => (e.1, { e.2 with tlb := e.2.tlb.filter (fun t => t.leaf ≠ leaf) })) }

/-! Reads and writes of a virtual extent by the system die, whole (R252, R253, R285). -/

/-- Splits an extent at multiples of 8, so that every piece lies in one unit: first address and length. -/
def pieces (va : Nat) : (n fuel : Nat) → List (Nat × Nat)
  | 0, _ => []
  | _, 0 => []
  | n, f + 1 =>
    let k := min n (8 - va % 8)
    (va, k) :: pieces (va + k) (n - k) f

/-- Reads bytes of another module for the system die, the whole exchange at once: what the other module answers is free (R319, R325;
DESIGN CHOICE, log 18). -/
def State.remoteRead (s : State) (w : PeerWindow) (off n : Nat) : Except Nat (List Byte × Bool) :=
  let node := w.node.toNat
  let addr := w.rbase.toNat + off
  if (s.fab.choose node true).isNone then .error causeLinkDead
  else if Config.remoteRefuses s.cycle node addr then .error causePeerRetired
  else .ok ((upFrom 0 n).map (fun i => Config.remoteByte s.cycle node (addr + i)), Config.remotePoison s.cycle node addr)

/-- Host memory for the system die. -/
def State.sysHost (s : State) (a n : Nat) : Except Nat (List Byte × Bool) :=
  if s.flat.hostAbsent.contains (a / 4096) then .error causeProt else .ok (s.hostRead a n)

/-- Bytes through a window for the system die: of this module, or of another one (R313, R325, R326). -/
def State.sysPeer (s : State) (w off n : Nat) : Except Nat (List Byte × Bool) :=
  let win := s.fab.window w
  if !win.admits off then .error causePeerRetired
  else if win.node ≠ s.sys.nodeid then s.remoteRead win off n
  else
    match (s.loopback win off).1 with
    | none => .error causePeerRetired
    | some pa =>
      match rangeOf pa with
      | .hbm => .ok (s.hbmSeen pa n)
      | .host a => s.sysHost a n
      | _ => .error causeProt

/-- A refused access of the system die through a window of its own module is counted by the export entries (R326). -/
def State.countRefused (s : State) (asid va : Nat) (k : Kind) : State :=
  match s.sysXlate asid true k va with
  | .ok e =>
    (match rangeOf (e.phys va) with
      | .peer w off =>
        let win := s.fab.window w
        if win.admits off && decide (win.node = s.sys.nodeid) then (s.loopback win off).2 else s
      | _ => s)
  | .error _ => s

/-- Reads bytes of an address space: the bytes and whether any sector was poisoned, or the first fault. -/
def State.sysRead (s : State) (asid : Nat) (sup : Bool) : (va n : Nat) → (fuel : Nat) → Except Nat (List Byte × Bool)
  | _, 0, _ => .ok ([], false)
  | _, _, 0 => .error causeXlate
  | va, n + 1, fuel + 1 => do
    let e ← s.sysXlate asid sup .read va
    let k := min (n + 1) (e.va + e.size - va)
    match rangeOf (e.phys va) with
    | .hbm =>
      let (r, p) ← s.sysRead asid sup (va + k) (n + 1 - k) fuel
      .ok ((s.hbmSeen (e.phys va) k).1 ++ r, (s.hbmSeen (e.phys va) k).2 || p)
    | .host a =>
      let (b, q) ← s.sysHost a k
      let (r, p) ← s.sysRead asid sup (va + k) (n + 1 - k) fuel
      .ok (b ++ r, q || p)
    | .peer w off =>
      let (b, q) ← s.sysPeer w off k
      let (r, p) ← s.sysRead asid sup (va + k) (n + 1 - k) fuel
      .ok (b ++ r, q || p)
    | .nothing => .error causeProt

/-- Translates every page of an extent, giving (physical address, length) runs. -/
def State.sysRuns (s : State) (asid : Nat) (sup : Bool) (k : Kind) : (va n fuel : Nat) → Except Nat (List (TlbEntry × Nat × Nat))
  | _, 0, _ => .ok []
  | _, _, 0 => .error causeXlate
  | va, n + 1, fuel + 1 => do
    let e ← s.sysXlate asid sup k va
    let j := min (n + 1) (e.va + e.size - va)
    let r ← s.sysRuns asid sup k (va + j) (n + 1 - j) fuel
    .ok ((e, va, j) :: r)

end Sys2Proof.Machine
end

