-- ==== Sys2Proof/Machine/Real.lean ====
section
/-! DEFINITION. Number formats and exact arithmetic (spec/05_numbers.md): element values as exact dyadic numbers, their
sums and products, and the one rounding into a format with its flags. -/

namespace Sys2Proof.Machine

open Sys2Proof

/-- An exact value: NaN, an infinity, or (−1)^neg × m × 2^e, with the sign of a zero kept (R103). -/
inductive Num where
  | nan
  | inf (neg : Bool)
  | fin (neg : Bool) (m : Nat) (e : Int)
  deriving DecidableEq, Repr, Inhabited

/-- The flag bits of FRM [4:0] (R112), in the width of FRM. -/
abbrev Flags := BitVec 9

/-- No flag. -/
def noFlags : Flags := 0
/-- Invalid operation (R118). -/
def fNV : Flags := 1
/-- Division by zero (R112). -/
def fDZ : Flags := 2
/-- Overflow (R112). -/
def fOF : Flags := 4
/-- Underflow (R114). -/
def fUF : Flags := 8
/-- Inexact (R112). -/
def fNX : Flags := 16

/-- Fraction bits of a floating type (R102). -/
def fracBits : ElemType → Nat
  | .fp32 => 23
  | .bf16 => 7
  | .fp16 => 10
  | .e4m3 => 3
  | .e5m2 => 2
  | .e2m1 => 1
  | _ => 0

/-- Exponent bias of a floating type (R102). -/
def expBias : ElemType → Nat
  | .fp32 => 127
  | .bf16 => 127
  | .fp16 => 15
  | .e4m3 => 7
  | .e5m2 => 15
  | .e2m1 => 1
  | _ => 0

/-- Whether the type has infinities (R102). -/
def hasInf : ElemType → Bool
  | .fp32 | .bf16 | .fp16 | .e5m2 => true
  | _ => false

/-- Encoding, without sign, of the largest finite magnitude (R102). -/
def maxCode : ElemType → Nat
  | .fp32 => 0x7F7FFFFF
  | .bf16 => 0x7F7F
  | .fp16 => 0x7BFF
  | .e4m3 => 0x7E
  | .e5m2 => 0x7B
  | .e2m1 => 7
  | _ => 0

/-- The canonical NaN of a floating type (R102, R104); E2M1 has none and takes +0 (R116). -/
def nanCode : ElemType → Nat
  | .fp32 => 0x7FC00000
  | .bf16 => 0x7FC0
  | .fp16 => 0x7E00
  | .e4m3 => 0x7F
  | .e5m2 => 0x7E
  | _ => 0

/-- Whether an integer type is signed (R102). -/
def isSignedInt : ElemType → Bool
  | .int32 | .int16 | .int8 | .int4 => true
  | _ => false

/-- The exact value of an integer. -/
def Num.ofInt (i : Int) : Num := .fin (decide (i < 0)) i.natAbs 0

/-- The value of an element of a floating type (R103). -/
def decodeFloat (ty : ElemType) (v : Nat) : Num :=
  let b := fracBits ty
  let ebits := ty.bits - 1 - b
  let neg := v.testBit (ty.bits - 1)
  let e := (v >>> b) % 2 ^ ebits
  let m := v % 2 ^ b
  if ty = .e4m3 ∧ e = 15 ∧ m = 7 then .nan
  else if hasInf ty = true ∧ e = 2 ^ ebits - 1 then (if m = 0 then .inf neg else .nan)
  else if e = 0 then .fin neg m (1 - (expBias ty : Int) - b)
  else .fin neg (2 ^ b + m) ((e : Int) - expBias ty - b)

/-- The exact integer that an element of an integer type holds (R102). -/
def decodeInt (ty : ElemType) (v : Nat) : Int :=
  if isSignedInt ty then toSigned ty.bits v else ((v % 2 ^ ty.bits : Nat) : Int)

/-- The value of an element of any type, before any block scale (R74: decode). -/
def decodeElem (ty : ElemType) (v : Nat) : Num :=
  if ty.isFloat then decodeFloat ty v else Num.ofInt (decodeInt ty v)

/-- A value times 2^k, which is exact. -/
def Num.scale (x : Num) (k : Int) : Num :=
  match x with
  | .fin n m e => .fin n m (e + k)
  | x => x

/-- The value of an element under an E8M0 scale byte (R106). -/
def scaled (x : Num) (e : Nat) : Num := if e = 0xFF then .nan else x.scale ((e : Int) - 127)

/-- The value with its sign turned. -/
def Num.neg : Num → Num
  | .nan => .nan
  | .inf n => .inf (!n)
  | .fin n m e => .fin (!n) m e

/-- The value without its sign. -/
def Num.abs : Num → Num
  | .nan => .nan
  | .inf _ => .inf false
  | .fin _ m e => .fin false m e

/-- The signed integer m × 2^(e − base), where base ≤ e. -/
def Num.over (base : Int) : Num → Int
  | .fin n m e => let k : Nat := m * 2 ^ (e - base).toNat; if n then -(k : Int) else (k : Int)
  | _ => 0

/-- Whether a value is a zero. -/
def Num.isZero : Num → Bool
  | .fin _ 0 _ => true
  | _ => false

/-- The sign bit of a value; a NaN has none. -/
def Num.sign : Num → Bool
  | .nan => false
  | .inf n => n
  | .fin n _ _ => n

/-- Whether a value is NaN. -/
def Num.isNan : Num → Bool
  | .nan => true
  | _ => false

/-- The least exponent among finite addends. -/
def leastExp : List Num → Int → Int
  | [], b => b
  | .fin _ 0 _ :: xs, b => leastExp xs b
  | .fin _ _ e :: xs, b => leastExp xs (min e b)
  | _ :: xs, b => leastExp xs b

/-- The exact sum of addends, with the sign that R118 gives a zero sum. Infinities of
both signs give NaN with NV; a NaN addend gives NaN without NV, infinities of both signs beside it too (DESIGN CHOICE, log
110: R104 and R118 do not say which of them decides the flag). -/
def sumNum (rm : RoundMode) (xs : List Num) : Num × Flags :=
  if xs.any Num.isNan then (.nan, noFlags)
  else if xs.contains (.inf true) && xs.contains (.inf false) then (.nan, fNV)
  else if xs.contains (.inf true) then (.inf true, noFlags)
  else if xs.contains (.inf false) then (.inf false, noFlags)
  else
    let base := leastExp xs 0
    let t : Int := (xs.map (Num.over base)).foldl (· + ·) 0
    if t ≠ 0 then (.fin (decide (t < 0)) t.natAbs base, noFlags)
    else if xs.all (fun x => x.isZero && x.sign) && !xs.isEmpty then (.fin true 0 0, noFlags)
    else if xs.all (fun x => x.isZero && !x.sign) then (.fin false 0 0, noFlags)
    else (.fin (decide (rm = .rdn)) 0 0, noFlags)

/-- The exact product of two values; zero times infinity is NaN with NV (R118). -/
def mulNum (x y : Num) : Num × Flags :=
  match x, y with
  | .nan, _ => (.nan, noFlags)
  | _, .nan => (.nan, noFlags)
  | .inf a, .inf b => (.inf (a != b), noFlags)
  | .inf a, .fin b m _ => if m = 0 then (.nan, fNV) else (.inf (a != b), noFlags)
  | .fin a m _, .inf b => if m = 0 then (.nan, fNV) else (.inf (a != b), noFlags)
  | .fin a m e, .fin b n f => (.fin (a != b) (m * n) (e + f), noFlags)

/-- Orders two values; none when one is NaN. Zeros of both signs are equal. -/
def cmpNum (x y : Num) : Option Ordering :=
  match x, y with
  | .nan, _ => none
  | _, .nan => none
  | .inf a, .inf b => some (compare (if a then (0 : Nat) else 1) (if b then 0 else 1))
  | .inf a, _ => some (if a then .lt else .gt)
  | _, .inf b => some (if b then .gt else .lt)
  | .fin n m e, .fin n' m' e' =>
    let base := min e e'
    some (compare ((Num.fin n m e).over base) ((Num.fin n' m' e').over base))

/-- Whether x is less than y, −0 counting as below +0 (R118: FMIN, FMAX). -/
def ltSigned (x y : Num) : Bool :=
  match cmpNum x y with
  | some .lt => true
  | some .eq => x.sign && !y.sign
  | _ => false

/-- m × 2^sh or m ÷ 2^−sh rounded to an integer in a mode; `r` is the 16-bit draw that RS uses (R109, R110). Also whether
the result is inexact. -/
def roundShift (rm : RoundMode) (neg : Bool) (m : Nat) (sh : Int) (r : Nat) : Nat × Bool :=
  if 0 ≤ sh then (m * 2 ^ sh.toNat, false)
  else
    let k := (-sh).toNat
    let q := m / 2 ^ k
    let rem := m % 2 ^ k
    let up : Bool :=
      match rm with
      | .rne => decide (2 * rem > 2 ^ k) || (decide (2 * rem = 2 ^ k) && decide (q % 2 = 1))
      | .rz => false
      | .rdn => neg && decide (rem ≠ 0)
      | .rup => !neg && decide (rem ≠ 0)
      | .rs => decide (2 ^ k * 2 ^ 16 ≤ rem * 2 ^ 16 + r * 2 ^ k)
    (if up then q + 1 else q, decide (rem ≠ 0))

/-- Exponent of the leading bit of m × 2^e, where m ≠ 0. -/
def topExp (m : Nat) (e : Int) : Int := (Nat.log2 m : Int) + e

/-- Exponent of the smallest normal of a floating type (R103). -/
def minExp (ty : ElemType) : Int := 1 - (expBias ty : Int)

/-- The encoding, without sign, of k × 2^u in a floating type, where k × 2^u is one of its finite magnitudes and u is its
spacing there. -/
def codeOf (ty : ElemType) (k : Nat) (u : Int) : Nat :=
  let b := fracBits ty
  if k < 2 ^ b then k
  else if k = 2 ^ (b + 1) then ((u + 1 + b + expBias ty).toNat <<< b)
  else ((u + b + expBias ty).toNat <<< b) + (k - 2 ^ b)

/-- The largest finite magnitude of a floating type. -/
def maxNum (ty : ElemType) : Num := decodeFloat ty (maxCode ty)

/-- Whether k × 2^u exceeds the largest finite magnitude. -/
def beyondMax (ty : ElemType) (k : Nat) (u : Int) : Bool :=
  match cmpNum (.fin false k u) (maxNum ty) with
  | some .gt => true
  | _ => false

/-- Puts the sign bit before an encoding. -/
def withSign (ty : ElemType) (neg : Bool) (code : Nat) : Nat := if neg then code + 2 ^ (ty.bits - 1) else code

/-- The infinity of a type that has one; the largest finite magnitude of one that has none (R116). -/
def infCode (ty : ElemType) : Nat := if hasInf ty then maxCode ty + 1 else maxCode ty

/-- What an overflowing finite value gives (R109, R116), without sign. `truncFinite`: the truncation stays finite. -/
def overflowCode (ty : ElemType) (rm : RoundMode) (neg truncFinite : Bool) : Nat :=
  match rm with
  | .rne => infCode ty
  | .rz => maxCode ty
  | .rdn => if neg then infCode ty else maxCode ty
  | .rup => if neg then maxCode ty else infCode ty
  | .rs => if truncFinite then maxCode ty else infCode ty

/-- Whether a finite value is tiny in a type: nonzero, and below the smallest normal after rounding with the exponent
unbounded (R114). -/
def isTiny (ty : ElemType) (rm : RoundMode) (r : Nat) (neg : Bool) (m : Nat) (e : Int) : Bool :=
  if ty = .e2m1 ∨ m = 0 then false
  else
    let uf := topExp m e - fracBits ty
    let (k, _) := roundShift rm neg m (e - uf) r
    match cmpNum (.fin false k uf) (.fin false 1 (minExp ty)) with
    | some .lt => true
    | _ => false

/-- An exact value rounded once into a floating type in a mode, with its flags; `r` is RS's draw (R109 to R116). -/
def roundFloat (ty : ElemType) (rm : RoundMode) (r : Nat) (x : Num) : Nat × Flags :=
  match x with
  | .nan => (nanCode ty, if ty = .e2m1 then fNV else noFlags)
  | .inf n => (withSign ty n (infCode ty), if hasInf ty then noFlags else fOF ||| fNX)
  | .fin n m e =>
    if m = 0 then (withSign ty n 0, noFlags)
    else
      let b := fracBits ty
      let uf := topExp m e - b
      let (kf, _) := roundShift rm n m (e - uf) r
      if beyondMax ty kf uf then
        let (kt, _) := roundShift .rz n m (e - uf) r
        (withSign ty n (overflowCode ty rm n (!beyondMax ty kt uf)), fOF ||| fNX)
      else
        let u := max uf (minExp ty - b)
        let (k, inexact) := roundShift rm n m (e - u) r
        let tiny := isTiny ty rm r n m e
        let fl := if inexact then (if tiny then fUF ||| fNX else fNX) else noFlags
        (withSign ty n (codeOf ty k u), fl)

/-- Least and greatest value of an integer type (R102). -/
def intMin (ty : ElemType) : Int := if isSignedInt ty then -(2 ^ (ty.bits - 1) : Nat) else 0
def intMax (ty : ElemType) : Int :=
  if isSignedInt ty then ((2 ^ (ty.bits - 1) : Nat) : Int) - 1 else ((2 ^ ty.bits : Nat) : Int) - 1

/-- An integer replaced by the nearer bound of a type, and whether it was (R117, R119). -/
def saturate (ty : ElemType) (i : Int) : Int × Bool :=
  if i < intMin ty then (intMin ty, true) else if i > intMax ty then (intMax ty, true) else (i, false)

/-- The element bits of an integer in an integer type. -/
def encodeInt (ty : ElemType) (i : Int) : Nat := ofSigned ty.bits i

/-- A floating value converted to an integer type (R117), with its flags. -/
def roundInt (ty : ElemType) (rm : RoundMode) (r : Nat) (x : Num) : Nat × Flags :=
  match x with
  | .nan => (0, fNV)
  | .inf n => (encodeInt ty (if n then intMin ty else intMax ty), fNV)
  | .fin n m e =>
    let (k, inexact) := roundShift rm n m e r
    let i : Int := if n then -(k : Int) else (k : Int)
    let (j, sat) := saturate ty i
    (encodeInt ty j, if sat then fNV else if inexact then fNX else noFlags)

/-- An exact value rounded into any type: flags of FRM, and ISTAT.SAT (R116, R117). `fromInt`: the source is an integer
type, whose conversion to an integer type saturates without NV. -/
def roundTo (ty : ElemType) (rm : RoundMode) (r : Nat) (fromInt : Bool) (x : Num) : Nat × Flags × Bool :=
  if ty.isFloat then let (v, f) := roundFloat ty rm r x; (v, f, false)
  else if fromInt then
    let (j, sat) := saturate ty (x.over 0)
    (encodeInt ty j, noFlags, sat)
  else let (v, f) := roundInt ty rm r x; (v, f, false)

/-- rne32 of R74: an exact value rounded to FP32 to nearest even. -/
def rne32 (x : Num) : Nat × Flags := roundFloat .fp32 .rne 0 x

/-- The value that an FP32 word holds. -/
def val32 (v : Nat) : Num := decodeFloat .fp32 v

/-- The FP32 sum of an FP32 word and an exact value, rounded once. -/
def add32 (a : Nat) (x : Num) : Nat × Flags :=
  let (t, f) := sumNum .rne [val32 a, x]
  let (v, g) := rne32 t
  (v, f ||| g)

/-- The next draw of a generator and the generator after it (R111): bits [15:0], then sixteen steps. -/
def genStep (g : Nat) : Nat := if g.testBit 0 then (g >>> 1) ^^^ 0x80200003 else g >>> 1

/-- Sixteen steps of a generator. -/
def genAdvance : Nat → Nat → Nat
  | 0, g => g
  | n + 1, g => genAdvance n (genStep g)

/-- The value that SEED gives generator l (R111). -/
def genSeed (seed : Word32) (l : Nat) : Word32 :=
  let g := seed ^^^ BitVec.ofNat 32 (l * 0x01000193)
  if g = 0 then 1 else g

end Sys2Proof.Machine
end

