-- ==== Sys2Proof/Machine/Lineage.lean ====
section
/-! DEFINITION. The lineage store on plain data: handles, block maps, resolution, copy-on-write, the heap's accounting,
forking, freeing, husks and splices (spec/07_lineage.md). The commands that call these are in LineageCmd.lean. -/

namespace Sys2Proof.Machine

open Sys2Proof

/-- A 4,096-byte block: its bytes, and its poisoned 32-byte sectors, 0 to 127. -/
abbrev Block := Mem × List Nat

/-- Every sector of a block. -/
def allSectors : List Nat := upFrom 0 128

/-- A list's union with another, rising. -/
def unionNat (a b : List Nat) : List Nat := b.foldl (fun l n => insertNat n l) a

/-! Handles and descriptors (R148, R149). -/

/-- Index and generation of a handle (R148). -/
def handleIdx (h : Word32) : Nat := h.toNat % 2 ^ 24
def handleGen (h : Word32) : Nat := h.toNat / 2 ^ 24

/-- The node of an index. -/
def AddrSpace.node (sp : AddrSpace) (i : Nat) : Node := sp.nodes.get {} i

/-- Changes the node of an index. -/
def AddrSpace.modNode (sp : AddrSpace) (i : Nat) (f : Node → Node) : AddrSpace :=
  { sp with nodes := sp.nodes.put i (f (sp.node i)) }

/-- The current generation of an index (R48, R148). -/
def AddrSpace.gen (sp : AddrSpace) (i : Nat) : BitVec 8 := sp.gens.get 1 i

/-- Whether a state makes a handle valid (R148). -/
def NodeState.named : NodeState → Bool
  | .live | .sealed | .frozen => true
  | _ => false

/-- The index that a valid handle names (R148). -/
def AddrSpace.valid (sp : AddrSpace) (h : Word32) : Option Nat :=
  let i := handleIdx h
  if h ≠ 0 ∧ i ≠ 0 ∧ (sp.node i).state.named = true ∧ (sp.gen i).toNat = handleGen h then some i else none

/-- The handle of an index at its current generation. -/
def AddrSpace.handleOf (sp : AddrSpace) (i : Nat) : Word32 := BitVec.ofNat 32 ((sp.gen i).toNat * 2 ^ 24 + i)

/-- The lowest free index from `i` on (R48). -/
def lowestFree (nodes : AMap Node) : (i fuel : Nat) → Nat
  | i, 0 => i
  | i, f + 1 => if (nodes.get {} i).state = .free then i else lowestFree nodes (i + 1) f

/-- The lowest free index, if the table has one. -/
def AddrSpace.freeIdx (sp : AddrSpace) : Option Nat :=
  let i := lowestFree sp.nodes 1 (sp.nodes.length + 1)
  if i ≤ min sp.tableSize Config.nodeMax then some i else none

/-- Elements of a node, and its size in bytes (R149). -/
def Node.elems (n : Node) : Nat := n.dims.foldl (· * ·) 1
def Node.size (n : Node) : Nat := (n.elems * n.fmt.bits + 7) / 8
def Node.blocks (n : Node) : Nat := ceilDiv n.size 4096

/-- Rows and columns of a node's matrix view (R153). -/
def Node.cols (n : Node) : Nat := n.dims.getLastD 1
def Node.rows (n : Node) : Nat := n.dims.dropLast.foldl (· * ·) 1

/-- The map entry of a block. -/
def Node.entry (n : Node) (k : Nat) : Entry := n.map.get n.dflt k

/-- The parent's index; 0 for none. -/
def Node.parentIdx (n : Node) : Nat := handleIdx n.parent

/-- The indices of a node's ancestors, nearest first (R155). -/
def AddrSpace.ancestors (sp : AddrSpace) : (i fuel : Nat) → List Nat
  | _, 0 => []
  | i, f + 1 =>
    let p := (sp.node i).parentIdx
    if p = 0 then [] else p :: sp.ancestors p f

/-- Fuel for chains of nodes: every node at most once. -/
def AddrSpace.fuel (sp : AddrSpace) : Nat := sp.nodes.length + 2

/-- Whether node a is an ancestor of node i. -/
def AddrSpace.isAncestor (sp : AddrSpace) (a i : Nat) : Bool := (sp.ancestors i sp.fuel).contains a

/-- The indices of a node's descendants. -/
def AddrSpace.descendants (sp : AddrSpace) (i : Nat) : List Nat :=
  (sp.nodes.filter (fun e => !decide (e.2.state = .free) && sp.isAncestor i e.1)).map (·.1)

/-- The indices of a node's children. -/
def AddrSpace.childrenOf (sp : AddrSpace) (i : Nat) : List Nat :=
  (sp.nodes.filter (fun e => !decide (e.2.state = .free) && decide (e.2.parentIdx = i))).map (·.1)

/-- A node's depth: its ancestors that are not FROZEN; `depth` holds one less with AF (R149). -/
def Node.fullDepth (n : Node) : Nat := n.depth + b2n n.af

/-- DEPTH of the descriptor, which holds 0 to 7, and 7 with AF (R149, R163). -/
def Node.depthField (n : Node) : Nat := if n.af then 7 else min 7 n.depth

/-- KLEV of the descriptor, which holds 0 to 2 (R149; DESIGN CHOICE, log 123: R282 lets a chain hold more FROZEN nodes). -/
def Node.klevField (n : Node) : Nat := min 2 n.klev

/-- A node's depth lowered by k. AF, which holds a depth beyond 7, is cleared when that brings the node within the bound: with a
depth of 8 DEPTH becomes 8 − k (R149). -/
def Node.lower (n : Node) (k : Nat) : Node :=
  let d := n.fullDepth - k
  if n.af && decide (7 < d) then { n with depth := d - 1 } else { n with depth := d, af := false }

/-- How far the descendants reach below a node (R165). -/
def AddrSpace.height (sp : AddrSpace) (i : Nat) : Nat :=
  (sp.descendants i).foldl (fun m d => max m ((sp.node d).depth - (sp.node i).depth)) 0

/-- HEIGHT of the descriptor: the greatest DEPTH among the descendants, less the node's own (R149). -/
def AddrSpace.heightField (sp : AddrSpace) (i : Nat) : Nat :=
  (sp.descendants i).foldl (fun m d => max m ((sp.node d).depthField - (sp.node i).depthField)) 0

/-! Elements of a block (R105). -/

/-- Element i of a block or byte store, in a type. -/
def elemAt (ty : ElemType) (m : Mem) (i : Nat) : Nat :=
  if ty.bits = 4 then (m.get (i / 2)).toNat / 16 ^ (i % 2) % 16 else m.num (i * (ty.bits / 8)) (ty.bits / 8)

/-- Writes element i. -/
def setElem (ty : ElemType) (m : Mem) (i v : Nat) : Mem :=
  if ty.bits = 4 then
    let b := (m.get (i / 2)).toNat
    m.set (i / 2) (BitVec.ofNat 8 (if i % 2 = 0 then b / 16 * 16 + v % 16 else v % 16 * 16 + b % 16))
  else m.setNum (i * (ty.bits / 8)) (ty.bits / 8) v

/-- The first sector of 32 bytes that element i touches. -/
def elemSector (ty : ElemType) (i : Nat) : Nat := i * ty.bits / 256

/-! Dot products (R122). -/

/-- The exact sum of products of one block of 32, rounded once to FP32. -/
def blockSum (ps : List (Num × Num)) : Nat × Flags :=
  let prods := ps.map (fun p => mulNum p.1 p.2)
  let (t, f) := sumNum .rne (prods.map (·.1))
  let (v, g) := rne32 t
  (v, prods.foldl (fun h p => h ||| p.2) (f ||| g))

/-- The running FP32 sum over the blocks that follow the first (R122). -/
def dotRest : (fuel : Nat) → List (Num × Num) → Nat → Flags → Nat × Flags
  | 0, _, acc, f => (acc, f)
  | _, [], acc, f => (acc, f)
  | n + 1, ps, acc, f =>
    let (b, g) := blockSum (ps.take 32)
    let (v, h) := add32 acc (val32 b)
    dotRest n (ps.drop 32) v (f ||| g ||| h)

/-- A Cask unit's dot product: blocks of 32 in ascending order, the first written, not added (R122). -/
def caskDot (ps : List (Num × Num)) : Nat × Flags :=
  let (b, f) := blockSum (ps.take 32)
  dotRest (ps.length / 32 + 1) (ps.drop 32) b f

/-! Resolution (R154). -/

/-- Present sectors of a sector mask (R152). -/
def maskSectors (m : Word32) : List Nat := (upFrom 0 32).filter (fun s => m.toNat.testBit s)

/-- Adds the stored differences of one 128-byte sector to a block (R154: add_sectors). -/
def addSector (fmt dfmt : ElemType) (data : Mem) (s : Nat) (base : Mem) : Mem :=
  let e := 1024 / fmt.bits
  (upFrom 0 e).foldl (fun m i =>
    let pos := s * e + i
    let d := if dfmt.bits = 4 then 0 else data.num (128 * s + i * (dfmt.bits / 8)) (dfmt.bits / 8)
    let v := elemAt fmt m pos
    if fmt.isFloat then
      let (t, _) := sumNum .rne [decodeElem fmt v, decodeElem dfmt d]
      setElem fmt m pos (roundFloat fmt .rne 0 t).1
    else setElem fmt m pos (ofSigned fmt.bits (decodeInt fmt v + decodeInt dfmt d))) base

/-- Byte by byte XOR of stored sectors into a block. -/
def xorData (base data : Mem) : Mem := data.foldl (fun m e => m.set e.1 (m.get e.1 ^^^ e.2)) base

/-- The four 32-byte sectors of each 128-byte sector of a mask that are poisoned in the entry. -/
def underMask (mask : Word32) (p : List Nat) : List Nat := p.filter (fun q => mask.toNat.testBit (q / 4))

/-- The resolved bytes of a block of a node, with the sectors that are poisoned (R154). The fuel bounds the links to
parents and factors. A block that no walk ends in F or Z for, or that meets a reserved code, is poisoned whole (R151). -/
def AddrSpace.resolve (sp : AddrSpace) : (fuel i k : Nat) → Block
  | 0, _, _ => ([], allSectors)
  | fuel + 1, i, k =>
    let n := sp.node i
    let below : Unit → Block := fun _ => if n.parentIdx = 0 then ([], allSectors) else sp.resolve fuel n.parentIdx k
    match n.entry k with
    | .full d p => (d, p)
    | .zero => ([], [])
    | .reserved => ([], allSectors)
    | .xor mask d p =>
      let (b, q) := below ()
      (xorData b d, unionNat q (underMask mask p))
    | .add ty mask d p =>
      let (b, q) := below ()
      ((maskSectors mask).foldl (fun m s => addSector n.fmt ty d s m) b, unionNat q (underMask mask p))
    | .inherit =>
      let (b, q) := below ()
      if n.kind = .lowrank then
        let per := 4096 / (n.fmt.bits / 8)
        let u := sp.node (handleIdx n.u)
        let v := sp.node (handleIdx n.v)
        let factor (h : Word32) (f : Node) (e : Nat) : Num × Bool :=
          let sz := f.fmt.bits / 8
          let (blk, ps) := sp.resolve fuel (handleIdx h) (e * sz / 4096)
          let j := e % (4096 / sz)
          (decodeElem f.fmt (elemAt f.fmt blk j), ps.contains (elemSector f.fmt j))
        (upFrom 0 (min per (n.elems - k * per))).foldl (fun (acc : Block) j =>
          let e := k * per + j
          let us := (upFrom 0 n.rank).map (fun t => factor n.u u (e / n.cols * n.rank + t))
          let vs := (upFrom 0 n.rank).map (fun t => factor n.v v (t * n.cols + e % n.cols))
          let (t, _) := caskDot ((us.zip vs).map (fun z => (z.1.1, z.2.1)))
          let (x, _) := sumNum .rne [decodeElem n.fmt (elemAt n.fmt b j), val32 t]
          (setElem n.fmt acc.1 j (roundFloat n.fmt .rne 0 x).1,
            if us.any (·.2) || vs.any (·.2) then insertNat (elemSector n.fmt j) acc.2 else acc.2)) (b, q)
      else (b, q)

/-- resolve(h, k) of R74, with fuel for every link that can occur. -/
def AddrSpace.block (sp : AddrSpace) (i k : Nat) : Block := sp.resolve (sp.nodes.length + 12) i k

/-- The aligned 8 bytes of a node's element image at an offset, and whether they lie in a poisoned sector (R144). -/
def AddrSpace.readUnit (sp : AddrSpace) (i off : Nat) : List Byte × Bool :=
  let (b, p) := sp.block i (off / 4096)
  (b.read (off % 4096) 8, p.contains (off % 4096 / 32))

/-! The heap (R151, R152). -/

/-- 512-byte units that an entry's storage takes (R152). -/
def Entry.units (n : Node) : Entry → Nat
  | .full _ _ => 8
  | .xor m _ _ => ceilDiv (16 + (maskSectors m).length * 128) 512
  | .add ty m _ _ => ceilDiv (16 + (maskSectors m).length * (1024 / n.fmt.bits * ty.bits / 8)) 512
  | _ => 0

/-- Changes the units in use of a channel's share. -/
def AddrSpace.useHeap (sp : AddrSpace) (ch : Nat) (take give : Nat) : AddrSpace :=
  { sp with heapUsed := sp.heapUsed.set 0 ch (sp.heapUsed.get 0 ch + take - give) }

/-- Whether a channel's share has room for more units. -/
def AddrSpace.room (sp : AddrSpace) (ch units : Nat) : Bool := sp.heapUsed.get 0 ch + units ≤ sp.heapUnits

/-- Puts an entry in a node's map: needs room for the new storage before the old is released (R156). -/
def AddrSpace.setEntry (sp : AddrSpace) (i k : Nat) (e : Entry) : Option AddrSpace :=
  let n := sp.node i
  let ch := k % Config.channelCount
  let new := e.units n
  if sp.room ch new then
    some ((sp.useHeap ch new ((n.entry k).units n)).modNode i (fun n => { n with map := n.map.set n.dflt k e }))
  else none

/-- Units of a map of nb blocks in a channel: four bytes a block (DESIGN CHOICE, log 14). -/
def mapUnits (nb ch : Nat) : Nat := ceilDiv (4 * ((nb + Config.channelCount - 1 - ch) / Config.channelCount)) 512

/-- Takes or gives the room of a map of nb blocks; none when a channel lacks it. -/
def AddrSpace.takeMap (sp : AddrSpace) (nb : Nat) : Option AddrSpace :=
  (upFrom 0 (min nb Config.channelCount)).foldl (fun o ch =>
    o.bind (fun sp => if sp.room ch (mapUnits nb ch) then some (sp.useHeap ch (mapUnits nb ch) 0) else none)) (some sp)

def AddrSpace.giveMap (sp : AddrSpace) (nb : Nat) : AddrSpace :=
  (upFrom 0 (min nb Config.channelCount)).foldl (fun sp ch => sp.useHeap ch 0 (mapUnits nb ch)) sp

/-- Releases the storage of a node's blocks and its map. -/
def AddrSpace.giveBlocks (sp : AddrSpace) (n : Node) : AddrSpace :=
  (n.map.foldl (fun sp e => sp.useHeap (e.1 % Config.channelCount) 0 (e.2.units n)) sp).giveMap n.blocks

/-! Writing (R156). -/

/-- Poison of a block's sectors after a write within it. `whole` says that the write's command has covered the sector of
the bytes with unpoisoned data. -/
def writePoison (p : List Nat) (off n : Nat) (set whole : Bool) : List Nat :=
  let secs := upFrom (off / 32) ((off + n - 1) / 32 - off / 32 + 1)
  if set then unionNat p secs
  else if whole then p.filter (fun q => !secs.contains q)
  else p.filter (fun q => !(decide (off ≤ 32 * q ∧ 32 * q + 32 ≤ off + n)))

/-- Writes bytes within one block of a node by copy-on-write; none when the heap has no room (R156). -/
def AddrSpace.writeBlock (sp : AddrSpace) (i k off : Nat) (bs : List Byte) (set whole : Bool) : Option AddrSpace :=
  let (d, p) := sp.block i k
  let e := Entry.full (d.write off bs) (writePoison p off bs.length set whole)
  match (sp.node i).entry k with
  | .full _ _ => some (sp.modNode i (fun n => { n with map := n.map.set n.dflt k e }))
  | _ => sp.setEntry i k e

/-- Stores a whole block as F. -/
def AddrSpace.storeBlock (sp : AddrSpace) (i k : Nat) (b : Block) : Option AddrSpace :=
  match (sp.node i).entry k with
  | .full _ _ => some (sp.modNode i (fun n => { n with map := n.map.set n.dflt k (.full b.1 b.2) }))
  | _ => sp.setEntry i k (.full b.1 b.2)

/-! Forking (R162, R163). -/

/-- Makes a new node at an index, with room for its map. -/
def AddrSpace.addNode (sp : AddrSpace) (i : Nat) (n : Node) : Option AddrSpace :=
  (sp.takeMap n.blocks).map (fun sp => sp.modNode i (fun _ => { n with handle := sp.handleOf i }))

/-- Seals a node for a new child or a new user as factor. -/
def sealNode (n : Node) : Node := { n with state := if n.state = .live then .sealed else n.state }

/-! Freeing, husks and splices (R167, R168). -/

/-- Blocks that a splice has to switch: those on which the husk's or its child's map lists something; every block when the
child is LOWRANK and the husk does not simply pass on its parent's blocks (R168). The others keep what their entries say. -/
def spliceTodo (h n : Node) : List Nat :=
  if n.kind = .lowrank ∧ (h.dflt ≠ .inherit ∨ h.kind = .lowrank) then upFrom 0 n.blocks
  else unionNat (h.map.map (·.1)) (n.map.map (·.1))

/-- The indices that a LOWRANK node names as factors, each once: REFS counts nodes (R149). -/
def Node.factors (n : Node) : List Nat :=
  if n.kind ≠ .lowrank then [] else if n.u = n.v then [handleIdx n.u] else [handleIdx n.u, handleIdx n.v]

/-- What a husk's counts ask for: nothing, its freeing, or a splice into its sole child (R167). -/
def AddrSpace.settle (sp : AddrSpace) : (fuel i : Nat) → AddrSpace
  | 0, _ => sp
  | fuel + 1, i =>
    let n := sp.node i
    if n.state ≠ .husk then sp
    else if n.children = 0 ∧ n.refs = 0 then
      let sp := (sp.giveBlocks n).modNode i (fun _ => {})
      let sp := { sp with splices := sp.splices.filter (fun x => x.husk ≠ i) }
      let sp := if n.parentIdx = 0 then sp
        else (sp.modNode n.parentIdx (fun m => { m with children := m.children - 1 })).settle fuel n.parentIdx
      n.factors.foldl (fun sp u => (sp.modNode u (fun m => { m with refs := m.refs - 1 })).settle fuel u) sp
    else if n.children = 1 ∧ n.refs = 0 ∧ (sp.splices.any (fun x => x.husk = i)) = false then
      match sp.childrenOf i with
      | c :: _ => { sp with splices := sp.splices ++ [{ husk := i, child := c, todo := spliceTodo n (sp.node c), started := false }] }
      | [] => sp
    else sp

/-- Lowers the REFS of a LOWRANK node's factors (R164, R165, R167). -/
def AddrSpace.dropFactors (sp : AddrSpace) (n : Node) : AddrSpace :=
  n.factors.foldl (fun sp u => (sp.modNode u (fun m => { m with refs := m.refs - 1 })).settle sp.fuel u) sp

/-- Lowers a parent's CHILDREN (R164, R165). -/
def AddrSpace.dropChild (sp : AddrSpace) (p : Nat) : AddrSpace :=
  if p = 0 then sp else (sp.modNode p (fun m => { m with children := m.children - 1 })).settle sp.fuel p

/-- The generation after g; 255 wraps to 1 (R148). -/
def nextGen (g : BitVec 8) : BitVec 8 := if g = 255 then 1 else g + 1

/-- A FROZEN node is to be a HUSK: from then on its descendants count it in DEPTH, and no more in KLEV (R155; DEDUCED, log 74). A
descendant at depth 7 counts 8 ancestors until the splice ends, against R170; its DEPTH shows 7 (DEDUCED, log 124). -/
def AddrSpace.thaw (sp : AddrSpace) (i : Nat) : AddrSpace :=
  if (sp.node i).iced then
    ((sp.descendants i).foldl (fun sp d => sp.modNode d (fun n => { n with klev := n.klev - 1, depth := n.depth + 1 })) sp).modNode i
      (fun n => { n with iced := false })
  else sp

/-- Kills a node's handle (R167): FREE without children or references, HUSK otherwise. -/
def AddrSpace.kill (sp : AddrSpace) (i : Nat) : AddrSpace :=
  let sp := ({ sp with gens := sp.gens.set 1 i (nextGen (sp.gen i)) } : AddrSpace).thaw i
  (sp.modNode i (fun n => { n with state := .husk })).settle sp.fuel i

/-- The entry that a splice gives a block of the child (R168); none when it needs heap room that is not there. A child
entry I over an I of a LOWRANK husk, where the child is LOWRANK too, is materialised, since no entry says both (DEDUCED, log 15). -/
def AddrSpace.spliceEntry (sp : AddrSpace) (h c k : Nat) : Option AddrSpace :=
  let hn := sp.node h
  let cn := sp.node c
  let he := hn.entry k
  let mat (_ : Unit) : Option AddrSpace := sp.storeBlock c k (sp.block c k)
  let move (e : Entry) (sp : AddrSpace) : AddrSpace :=
    (sp.modNode c (fun n => { n with map := n.map.set n.dflt k e })).modNode h
      (fun n => { n with map := n.map.set n.dflt k .inherit })
  let inheritAtHusk (o : Option AddrSpace) : Option AddrSpace :=
    o.map (fun sp => (sp.useHeap (k % Config.channelCount) 0 (he.units hn)).modNode h
      (fun n => { n with map := n.map.set n.dflt k .inherit }))
  match cn.entry k, he with
  | .full _ _, _ => inheritAtHusk (some sp)
  | .zero, _ => inheritAtHusk (some sp)
  | .inherit, .inherit => if cn.kind = .lowrank ∧ hn.kind = .lowrank then mat () else some sp
  | .inherit, e => if cn.kind = .lowrank then inheritAtHusk (mat ()) else some (move e sp)
  | .xor m1 d1 p1, .xor m2 d2 p2 =>
    let e := Entry.xor (m1 ||| m2) (xorData d1 d2) (unionNat (underMask m1 p1) (underMask m2 p2))
    inheritAtHusk (sp.setEntry c k e)
  | _, _ => inheritAtHusk (mat ())

/-- A splice begins (R168). A child of KIND NONE, which inherits every block that it does not hold whole, is from now on of the
kind of an XOR or ADD husk, since it takes the husk's entries (R153; DEDUCED, log 15). -/
def AddrSpace.spliceStart (sp : AddrSpace) (h c : Nat) : AddrSpace :=
  let hn := sp.node h
  let cn := sp.node c
  if cn.kind = .none ∧ (hn.kind = .xor ∨ hn.kind = .add) then sp.modNode c (fun n => { n with kind := hn.kind, dfmt := hn.dfmt }) else sp

/-- The node switch that ends a splice (R168): the child takes the husk's parent, and the husk becomes FREE. Unless the child is
LOWRANK or the husk NONE, every delta that the child now holds came from the husk: it takes the husk's KIND, delta type and factors
(R153; DEDUCED, log 15). A splice that was to put a second husk into this one puts it into the child. -/
def AddrSpace.spliceSwitch (sp : AddrSpace) (h c : Nat) : AddrSpace :=
  let hn := sp.node h
  let cn := sp.node c
  let below := c :: sp.descendants c
  let sp := below.foldl (fun sp d => sp.modNode d (fun n => n.lower 1)) sp
  let dflt : Entry := if cn.dflt = .inherit then hn.dflt else cn.dflt
  let sp := sp.modNode c (fun n =>
    let n := { n with parent := hn.parent, busy := false, map := n.map.filter (fun e => !decide (e.2 = dflt)), dflt := dflt }
    match cn.kind, hn.kind with
    | .lowrank, _ => n
    | _, .none => n
    | _, k => { n with kind := k, dfmt := hn.dfmt, rank := hn.rank, u := hn.u, v := hn.v })
  let sp := if cn.kind = .lowrank then sp.dropFactors hn else sp
  let sp := (sp.giveMap hn.blocks).modNode h (fun _ => {})
  { sp with splices := sp.splices.map (fun x => if x.child = h then { x with child := c } else x) }

end Sys2Proof.Machine
end

