-- ==== Sys2Proof/Machine/KilnCore.lean ====
section
/-! DEFINITION. Below the kiln instructions: jobs and their kilns, the manifest ring and page pool, interposition of
frozen nodes, page copies, and the abort of a running kiln (R269 to R289). -/

namespace Sys2Proof.Machine

open Sys2Proof

/-- The registered job of an address space (R269). -/
def State.job (s : State) (asid : Nat) : Option Job := s.sys.jobs.find? (fun j => j.asid = asid)

/-- Changes the job of an address space. -/
def State.modJob (s : State) (asid : Nat) (f : Job → Job) : State :=
  s.modSys (fun y => { y with jobs := y.jobs.map (fun j => if j.asid = asid then f j else j) })

/-- The running kiln of a job, if any (R272). -/
def Job.running (j : Job) : Option Kiln := j.kilns.find? (fun k => k.state = .running)

/-- The running or newest unreleased kiln, which colours are compared with (R281). -/
def Job.current (j : Job) : Option Kiln := (j.kilns.filter (fun k => k.unreleased)).getLast?

/-- The frozen version of a live handle for a kiln. -/
def Kiln.frozenOf (k : Kiln) (h : Word32) : Option Word32 := (k.frozen.find? (fun z => z.2 = h)).map (·.1)

/-- The kiln of a number that is not released, rolled back past or aborted. -/
def Job.kiln (j : Job) (k : BitVec 16) : Option Kiln := j.kilns.find? (fun x => x.num = k && x.unreleased)

/-- Changes the kiln of a number. -/
def State.modKiln (s : State) (asid : Nat) (k : BitVec 16) (f : Kiln → Kiln) : State :=
  s.modJob asid (fun j => { j with kilns := j.kilns.map (fun x => if x.num = k ∧ x.state ≠ .aborted then f x else x) })

/-- The parity of a kiln number, the colour that is new for it (R270). -/
def kilnColour (k : BitVec 16) : Bool := k.toNat % 2 = 1

/-- The kiln number after another, mod 2^16 (R270; DEDUCED, log 16: 0 follows 65,535). -/
def nextKiln (k : BitVec 16) : BitVec 16 := k + 1

/-- The cores of a job's resident teams. -/
def State.jobCores (s : State) (asid : Nat) : List Nat :=
  (s.sys.teams.filter (fun t => t.asid = asid)).flatMap Team.cores

/-! Writing through an address space without colour (R285). -/

/-- Writes a sparse content over n bytes at a virtual address: every byte it does not list is written as zero. -/
def State.vaWrite (s : State) (asid : Nat) (va n : Nat) (m : Mem) : Except Nat State := do
  let runs ← s.sysRuns asid true .write va n (n / 65536 + 3)
  runs.foldlM (fun s (r : TlbEntry × Nat × Nat) =>
    let (e, a, k) := r
    let pa := e.phys a
    if rangeOf pa = .hbm ∧ rangeOf (pa + k - 1) = .hbm then
      .ok (s.modFlat (fun f => { f with
        hbm := (f.hbm.clear pa k).over 0 (AMap.slice m (a - va) k pa), poison := unpoisonOver f.poison pa k
        lost := setPoison f.lost (replicas (sectorsWhole pa k) [0, 1, 2, 3]) false }))
    else .error causeProt) s

/-! The manifest (R285, R286). -/

/-- Units of the manifest area, a ring (R285). -/
def Job.ringUnits (j : Job) : Nat := j.msize / 64

/-- Units that records still need: from the first kept kiln's run to the end (R285). -/
def Job.usedUnits (j : Job) : Nat :=
  match j.kilns with
  | [] => 0
  | k :: _ => j.nextUnit - k.startUnit

/-- Pages that the page pool holds for the kilns of a job (R274, R283). -/
def Job.poolPages (j : Job) : List PageCopy := j.kilns.flatMap (fun x => if x.unreleased then x.pages else [])

/-- Where n units of the ring from unit u on meet a page of the pool: the first unit after that page. -/
def Job.meets (j : Job) (u n : Nat) (p : PageCopy) : Option Nat :=
  let lap := u / j.ringUnits * j.ringUnits
  let hit (o : Nat) : Bool := decide (p.off / 64 + o < u + n ∧ u < p.off / 64 + ceilDiv p.size 64 + o)
  if hit lap then some (p.off / 64 + ceilDiv p.size 64 + lap)
  else if hit (lap + j.ringUnits) then some (p.off / 64 + ceilDiv p.size 64 + lap + j.ringUnits)
  else none

/-- The first unit from u on at which a record of n units meets no page of the pool: the ring passes over such pages
(DESIGN CHOICE, log 17). -/
def Job.unitFor (j : Job) (n : Nat) : (u fuel : Nat) → Nat
  | u, 0 => u
  | u, f + 1 =>
    match j.poolPages.findSome? (j.meets u n) with
    | some u' => j.unitFor n u' f
    | none => u

/-- Units of the area that hold neither a kept record nor a page of the pool. -/
def Job.freeUnits (j : Job) : Nat :=
  let used := j.usedUnits
  j.ringUnits - used - ((j.poolPages.filter (fun p => (j.meets (j.nextUnit - used) used p).isNone)).foldl
    (fun n p => n + ceilDiv p.size 64) 0)

/-- Drops the oldest kilns whose records no later rollback needs (R285). -/
def trimKilns : List Kiln → List Kiln
  | [] => []
  | k :: r =>
    if k.unreleased = false ∧ k.state ≠ .running ∧ r.any (fun x => x.base && decide (x.state = .complete)) = true then
      trimKilns r
    else k :: r

/-- Applies the reuse rule of R285. -/
def State.trimJob (s : State) (asid : Nat) : State := s.modJob asid (fun j => { j with kilns := trimKilns j.kilns })

/-- Releases the frozen nodes of a kiln: each becomes a HUSK and splices into its live child (R274). -/
def releaseFrozen (sp : AddrSpace) (k : Kiln) : AddrSpace :=
  k.frozen.foldl (fun sp fz =>
    match sp.valid fz.1 with
    | some i => sp.kill i
    | none => sp) sp

/-- A command that has sent no request takes the colour given (R276). -/
def PgeCmd.recolour (p : PgeCmd) (colour : Bool) : PgeCmd := if p.prog = .waiting then { p with colour := colour } else p
def MxCmd.recolour (m : MxCmd) (colour : Bool) : MxCmd := if m.phase = .queued then { m with colour := colour } else m
def LinCmd.recolour (l : LinCmd) (colour : Bool) : LinCmd := if l.prog = .waiting then { l with colour := colour } else l

/-- Recolours the queued commands of a core. -/
def State.recolourCore (s : State) (c : Nat) (colour : Bool) : State :=
  (s.modCore c (fun x => { x with
    pge := x.pge.map (fun p => p.recolour colour), sendq := x.sendq.map (fun p => p.recolour colour)
    mx := x.mx.map (fun m => m.recolour colour) })).modSys (fun y => { y with
      lin := y.lin.map (fun l => if l.core = c then l.recolour colour else l) })

/-- Versions of an aborted kiln that the kiln before it has none of pass to that one, whose snapshot they hold too: it stays
valid (R289). The rest of the aborted kiln's frozen nodes are left to be released. -/
def Kiln.inherit (p k : Kiln) : Kiln × Kiln :=
  let mine := k.frozen.filter (fun z => (p.frozenOf z.2).isNone && !p.newNodes.contains z.2)
  let pages := k.pages.filter (fun q => !p.pages.any (fun r => r.leaf = q.leaf))
  ({ p with frozen := p.frozen ++ mine, sealed := p.sealed ++ k.sealed, killed := p.killed ++ k.killed, pages := p.pages ++ pages
            newNodes := p.newNodes ++ k.newNodes },
   { k with frozen := k.frozen.filter (fun z => !mine.contains z) })

/-- Tells the other modules of a job something, over any route that is up (R272, R274, R280, R288, R289, R320). -/
def State.tellModules (s : State) (asid : Nat) (o : FabOut) : State :=
  match s.job asid with
  | some j => j.remotes.foldl (fun s n => s.reply n o) s
  | none => s

/-- Ends the running kiln of a job as aborted in this module (R289): its frozen versions are released, its records discarded, and every
core of the job takes the abort as a cut. -/
def State.abortHere (s : State) (asid : Nat) : State :=
  match (s.job asid).bind Job.running with
  | none => s
  | some k =>
    let older := ((s.job asid).bind (fun j => (j.kilns.filter (fun x => x.unreleased && decide (x.state = .complete))).getLast?))
    let (k, s) := match older with
      | none => (k, s)
      | some p =>
        let (p', k') := p.inherit k
        (k', s.modKiln asid p.num (fun _ => p'))
    let s := s.modSpace asid (fun sp => releaseFrozen sp k)
    let s := (s.jobCores asid).foldl (fun s c =>
      (s.recolourCore c (kilnColour k.num)).modCore c (fun x => { x with knum := k.num, drain := [], drainSince := none })) s
    (s.modJob asid (fun j => { j with
      nextUnit := k.startUnit
      kilns := j.kilns.map (fun x => if x.num = k.num ∧ x.state = .running then
        { x with
          state := .aborted, unreleased := false, frozen := [], sealed := [], killed := [], pages := [], newNodes := []
          cores := [], lines := [], infl := [] }
        else x) })).modSys (fun y => { y with pageReqs := y.pageReqs.filter (fun q => q.asid ≠ asid) })

/-- The running kiln of a job aborts, in every module of the job (R289). -/
def State.abortKiln (s : State) (asid : Nat) : State :=
  match (s.job asid).bind Job.running with
  | none => s
  | some k => (s.tellModules asid (.kilnAbort asid k.num.toNat)).abortHere asid

/-- Another module has aborted kiln k of a job (R289). -/
def State.abortedBy (s : State) (asid k : Nat) : State :=
  match (s.job asid).bind Job.running with
  | some x => if x.num.toNat = k then s.abortHere asid else s
  | none => s

/-- A record's 64-byte unit (R286): type, kiln number, data units, words from +0x08 on. -/
def recordUnit (typ : Nat) (k : BitVec 16) (dunits : Nat) (words : List Nat) : Mem :=
  (words.zipIdx).foldl (fun m e => Mem.setNum m (8 + 8 * e.2) 8 e.1)
    (Mem.setNum (Mem.setNum (Mem.setNum [] 0 1 typ) 2 2 k.toNat) 4 4 dunits)

/-- Writes one unit of the ring after another. -/
def State.putUnits (s : State) (asid : Nat) (j : Job) (from' : Nat) (m : Mem) : (unit n : Nat) → Except Nat State
  | _, 0 => .ok s
  | u, n + 1 => do
    let done := u - from'
    let t ← s.vaWrite asid (j.mbase + 64 * (u % j.ringUnits)) 64 (AMap.slice m (64 * done) 64 0)
    t.putUnits asid j from' m (u + 1) n

/-- Appends a record of kiln `num`, unless it has aborted; a full ring or a fault of the write aborts the running kiln (R285,
R289). -/
def State.addRecord (s : State) (asid : Nat) (num : BitVec 16) (typ : Nat) (words : List Nat) (data : Mem) (dunits : Nat) : State :=
  match s.job asid with
  | none => s
  | some j =>
    match j.kiln num with
    | none => s
    | some k =>
      let u := j.unitFor (1 + dunits) j.nextUnit (2 * j.poolPages.length)
      if j.ringUnits < j.usedUnits + (u - j.nextUnit) + 1 + dunits then s.abortKiln asid
      else
        let m := (recordUnit typ k.num dunits words) ++ AMap.slice data 0 (64 * dunits) 64
        match s.putUnits asid j u m u (1 + dunits) with
        | .error _ => s.abortKiln asid
        | .ok t =>
          (t.modJob asid (fun j => { j with nextUnit := u + 1 + dunits })).modKiln asid k.num
            (fun x => { x with records := x.records + 1 })

/-! Frozen versions (R281 to R284). -/

/-- Whether a change of a colour is new for the job's current kiln; none when there is no kiln to compare with. Old
packets exist only while a kiln runs: when it is COMPLETE all have been received, and after an abort homes treat every
write as new (R280, R289). -/
def State.newFor (s : State) (asid : Nat) (colour : Option Bool) : Option (Kiln × Bool) :=
  match (s.job asid).bind Job.current with
  | none => none
  | some k =>
    match colour with
    | none => some (k, true)
    | some c => some (k, decide (k.state ≠ .running) || c == kilnColour k.num)

/-- Makes the frozen node F under node i for kiln k (R282); none when the table or the heap has no room. Each changed node of a chain
has its own, so that a chain may hold more than the two FROZEN nodes of R149, R155 and R284 (DESIGN CHOICE, log 123). -/
def interposeIn (sp : AddrSpace) (i : Nat) (k : BitVec 16) : Option (AddrSpace × Word32) :=
  match sp.freeIdx with
  | none => none
  | some f =>
    let n := sp.node i
    (sp.takeMap n.blocks).map (fun sp =>
      let h := sp.handleOf f
      let sp := sp.modNode f (fun _ =>
        { n with handle := h, state := .frozen, knum := k, iced := true, children := 1, refs := 0, busy := false })
      let sp := sp.modNode i (fun n =>
        { n with parent := h, kind := .none, dfmt := n.fmt, rank := 0, u := 0, v := 0, map := [], dflt := .inherit })
      let sp := (i :: sp.descendants i).foldl (fun sp d => sp.modNode d (fun n => { n with klev := n.klev + 1 })) sp
      ({ sp with splices := sp.splices.map (fun x => if x.child = i then { x with child := f } else x) }, h))

/-- The frozen version of a node for the current kiln, which an old change reaches besides the live one (R281). -/
def State.frozenFor (s : State) (asid i : Nat) (colour : Bool) : Option Nat :=
  match s.newFor asid (some colour) with
  | some (k, false) => (k.frozenOf ((s.space asid).node i).handle).bind (s.space asid).valid
  | _ => none

/-- Notes for a rollback that an old command has sealed or deleted the node of a live handle (R281, R288). -/
def State.markFrozen (s : State) (asid : Nat) (h : Word32) (colour kill : Bool) : State :=
  match s.newFor asid (some colour) with
  | some (k, false) => s.modKiln asid k.num (fun x =>
      if (x.frozenOf h).isNone then x
      else if kill then { x with killed := x.killed ++ [h] } else { x with sealed := x.sealed ++ [h] })
  | _ => s

/-- Prepares a change of a node: interposes when it is the first new change for the current kiln (R282). None when that
finds no room. -/
def State.interpose (s : State) (asid i : Nat) (colour : Option Bool) : Option State :=
  match s.newFor asid colour with
  | some (k, true) =>
    let h := ((s.space asid).node i).handle
    if (k.frozenOf h).isSome || k.newNodes.contains h then some s
    else
      match interposeIn (s.space asid) i k.num with
      | none => none
      | some (sp, f) =>
        let s := (s.modSpace asid (fun _ => sp)).modKiln asid k.num (fun x => { x with
          frozen := x.frozen ++ [(f, h)]
          sealed := if ((s.space asid).node i).state = .sealed then x.sealed ++ [h] else x.sealed })
        some (s.addRecord asid k.num 4 [f.toNat, h.toNat] [] 0)
  | _ => some s

/-- Notes a node that a new command created (R282, R286). -/
def State.noteNewNode (s : State) (asid : Nat) (h : Word32) (colour : Option Bool) : State :=
  match s.newFor asid colour with
  | some (k, true) =>
    (s.modKiln asid k.num (fun x => { x with newNodes := x.newNodes ++ [h] })).addRecord asid k.num 7 [h.toNat] [] 0
  | _ => s

/-- Counts old packets that parties of the job in this module have sent and received (R280). -/
def State.countOldBy (s : State) (asid sent received : Nat) : State :=
  match (s.job asid).bind Job.running with
  | none => s
  | some k => s.modKiln asid k.num (fun x => { x with oldSent := x.oldSent + sent, received := x.received + received })

/-- Counts an old exchange within the module: the request and its answer, each sent and received (R280; DEDUCED, log 113 for
what counts as one packet). -/
def State.countOld (s : State) (asid : Nat) : State := s.countOldBy asid 2 2

/-- The same for a command of a colour, when that is old. -/
def State.countIfOld (s : State) (asid sent received : Nat) (colour : Bool) : State :=
  match s.newFor asid (some colour) with
  | some (_, false) => s.countOldBy asid sent received
  | _ => s

/-! Page copies (R283). -/

/-- A place in the page pool for a page of a size: the highest one of the area that neither a kept record nor another page
of the pool takes (DESIGN CHOICE, log 17). -/
def Job.poolPlace (j : Job) (size : Nat) : (i fuel : Nat) → Option Nat
  | _, 0 => none
  | i, f + 1 =>
    if j.msize < i * size then none
    else
      let p : PageCopy := { va := 0, size := size, pa := 0, copy := 0, leaf := 0, oldKst := 0, off := j.msize - i * size }
      if j.poolPages.any (fun q => decide (q.off < p.off + size) && decide (p.off < q.off + q.size)) ||
          (j.meets (j.nextUnit - j.usedUnits) j.usedUnits p).isSome then
        j.poolPlace size (i + 1) f
      else some p.off

/-- Whether a virtual extent is mapped to consecutive physical pages of HBM. -/
def contiguous : List (TlbEntry × Nat × Nat) → Bool
  | [] => true
  | [(e, a, k)] => decide (rangeOf (e.phys a) = .hbm ∧ rangeOf (e.phys a + k - 1) = .hbm)
  | (e, a, k) :: (e', a', k') :: r => decide (e.phys a + k = e'.phys a') && contiguous ((e', a', k') :: r)

/-- Puts the read-mostly writes under way in a page into its copy as well: each is older than the change that the copy is made
for, and only the live page is still to get it (R232, R281). -/
def State.copyPending (s : State) (pa size copy : Nat) : State :=
  s.modFlat (fun f => f.rmWrites.foldl (fun f w =>
    if pa ≤ 4096 * w.granule ∧ 4096 * w.granule < pa + size then
      { f with
        hbm := w.cells.foldl (fun m c => m.set (c.1 - pa + copy) c.2) f.hbm
        poison := setPoison (setPoison f.poison (w.clear.map (fun k => k - pa / 32 + copy / 32)) false)
          (w.poison.map (fun k => k - pa / 32 + copy / 32)) true }
    else f) f)

/-- Copies a page for the current kiln and stamps its leaf (R283); a fault or a want of room aborts the kiln. -/
def State.copyPage (s : State) (asid : Nat) (e : TlbEntry) : State :=
  match s.job asid with
  | none => s
  | some j =>
    match j.current with
    | none => s
    | some k =>
      if e.kst = k.num then s
      else
        let stamp (s : State) (copy off : Nat) : State :=
          let s := s.modKiln asid k.num (fun x => { x with pages := x.pages ++
            [{ va := e.va, size := e.size, pa := e.pa, copy := copy, leaf := e.leaf, oldKst := e.kst, off := off }] })
          let s := s.addRecord asid k.num 5 [e.va, e.size, e.pa, copy] [] 0
          (s.hbmPut (e.leaf + 6) (leBytes 2 k.num.toNat)).dropLeaf e.leaf
        match k.pages.find? (fun p => p.pa = e.pa && p.size = e.size) with
        | some p => stamp s p.copy p.off
        | none =>
          match j.poolPlace e.size 1 (j.msize / e.size + 1) with
          | none => s.abortKiln asid
          | some off =>
            match s.sysRuns asid true .write (j.mbase + off) e.size (e.size / 65536 + 2) with
            | .error _ => s.abortKiln asid
            | .ok runs =>
              match contiguous runs, runs with
              | true, (e', a, _) :: _ =>
                let copy := e'.phys a
                stamp ((s.modFlat (fun f => { f with
                  hbm := (f.hbm.clear copy e.size).over 0 (AMap.slice f.hbm e.pa e.size copy)
                  poison := (AMap.clear f.poison (copy / 32) (e.size / 32)).over false
                    (AMap.slice f.poison (e.pa / 32) (e.size / 32) (copy / 32)) })).copyPending e.pa e.size copy) copy off
              | _, _ => s.abortKiln asid

/-- The copy of the current kiln that holds a physical address, as the address in the copy: the home's redirect for old
writes (R283). -/
def State.redirect (s : State) (asid pa : Nat) : Option Nat :=
  match (s.job asid).bind Job.current with
  | none => none
  | some k =>
    (k.pages.find? (fun p => decide (p.pa ≤ pa ∧ pa < p.pa + p.size))).map (fun p => p.copy + (pa - p.pa))

/-- Whether unit u of the area holds a record of the run [a, b) of the ring. -/
def Job.runHolds (j : Job) (a b u : Nat) : Bool :=
  decide ((u + j.ringUnits - a % j.ringUnits) % j.ringUnits < b - a) &&
  !j.poolPages.any (fun p => decide (p.off / 64 ≤ u ∧ u < p.off / 64 + ceilDiv p.size 64))

/-- Marks each kiln of a list whose run of records one of the units meets. -/
def Job.spoil (j : Job) (us : List Nat) : List Kiln → List Kiln
  | [] => []
  | k :: r =>
    let stop := match r with | n :: _ => n.startUnit | [] => j.nextUnit
    { k with spoiled := k.spoiled || us.any (j.runHolds k.startUnit stop) } :: j.spoil us r

/-- A program writes n bytes at a virtual address: the manifests whose bytes they are, are defined no more (R285). -/
def State.noteManifest (s : State) (asid va n : Nat) : State :=
  match s.job asid with
  | none => s
  | some j =>
    if j.ringUnits ≠ 0 ∧ n ≠ 0 ∧ va < j.mbase + j.msize ∧ j.mbase < va + n then
      let lo := (max va j.mbase - j.mbase) / 64
      let hi := (min (va + n) (j.mbase + j.msize) - 1 - j.mbase) / 64
      s.modJob asid (fun x => { x with kilns := j.spoil (upFrom lo (hi - lo + 1)) x.kilns })
    else s

/-! Leaves that map a physical address, for writes that carry no virtual one (R281). -/

/-- Indices of the entries of a table that hold a byte that is not zero. -/
def usedEntries (m : Mem) (table n : Nat) : List Nat :=
  ((m.filter (fun e => decide (table ≤ e.1 ∧ e.1 < table + 8 * n))).map (fun e => (e.1 - table) / 8)).eraseDups

/-- The leaves below a table that map a physical address. -/
def leavesTo (s : State) (asid pa : Nat) : (table va : Nat) → Bool → List (Nat × Nat) → List TlbEntry
  | _, _, _, [] => []
  | table, va, top, (lo, width) :: rest =>
    (usedEntries s.flat.hbm table (2 ^ width)).flatMap (fun i =>
      match walkFrom s asid (va + i * 2 ^ lo) table top [(lo, width)] with
      | .ok e => if e.pa ≤ pa ∧ pa < e.pa + e.size then [e] else []
      | .error _ =>
        let e := s.hbmNum (table + 8 * i) 8
        if bitAt e 0 && !bitAt e 1 && !pointerBad e then leavesTo s asid pa (bits e 47 12 * 2 ^ 12) (va + i * 2 ^ lo) false rest
        else [])

/-- Copies, for every job with a kiln, the pages that a write without a virtual address is about to change: writes of the
host (R281). -/
def State.freezeFor (s : State) (pa : Nat) : State :=
  s.sys.jobs.foldl (fun s j =>
    if j.current.isSome then
      (leavesTo s j.asid pa (bits (s.space j.asid).ptbase.toNat 47 16 * 2 ^ 16) 0 true walkLevels).foldl
        (fun s e => s.copyPage j.asid e) s
    else s) s

end Sys2Proof.Machine
end

