-- ==== Sys2Proof/Machine/Home.lean ====
section
/-! DEFINITION. Accesses as the homes serve them: reads and writes of one unit of flat memory or of a node by a party with
a colour, read-mostly commits, atomics' waiters, and the accesses of the system die (R144, R156, R230 to R233, R244,
R281). -/

namespace Sys2Proof.Machine

open Sys2Proof

/-- A party whose access reaches a home: a core's command, with the colour and address space it took at issue. -/
structure Who where
  core : Nat
  cmd : Nat
  sup : Bool
  colour : Bool
  asid : Nat
  deriving DecidableEq, Repr

/-- Reads n bytes of HBM within one 8-byte unit for a core (R230 to R232). -/
def State.readHbm (s : State) (c pa n : Nat) : Served (List Byte × Bool) := s.hbmRead (dieOf c) pa n

/-- Lists the page whose copy a new write waits for, once (R283). -/
def State.askPage (s : State) (asid va : Nat) : State :=
  if s.sys.pageReqs.any (fun q => q.asid = asid && q.va = va) then s
  else s.modSys (fun y => { y with pageReqs := y.pageReqs ++ [{ asid := asid, va := va }] })

/-- Writes the bytes of an old write to the frozen copy of its page too (R281, R283). -/
def State.putFrozen (s : State) (asid pa : Nat) (bs : List Byte) (act : PoisonAct) : State :=
  match s.redirect asid pa with
  | some q => s.hbmWrite q bs act
  | none => s

/-- The same, counted (R280). -/
def State.writeFrozen (s : State) (asid pa : Nat) (bs : List Byte) (act : PoisonAct) : State :=
  (s.putFrozen asid pa bs act).countOld asid

/-- Puts a write into HBM, or opens the first step of a read-mostly write (R232). -/
def State.putHbm (s : State) (w : Who) (rm : Bool) (va pa : Nat) (bs : List Byte) (act : PoisonAct) : State :=
  let s := (s.recall pa).noteManifest w.asid va bs.length
  if rm then s.openRm w.core w.cmd act pa bs (bs.length + 1) else s.hbmWrite pa bs act

/-- Writes bytes of one unit of HBM for a core's command. False: the write waits, at a locked granule (R232) or for a
page copy (R283), and the state only records what it waits for. -/
def State.writeHbm (s : State) (w : Who) (e : TlbEntry) (va : Nat) (bs : List Byte) (act : PoisonAct) : Bool × State :=
  let pa := e.phys va
  if (s.rmLock pa).isSome then (false, s)
  else
    match s.newFor w.asid (some w.colour) with
    | some (k, true) => if e.kst ≠ k.num then (false, s.askPage w.asid e.va) else (true, s.putHbm w e.rm va pa bs act)
    | some (_, false) => (true, (s.putHbm w e.rm va pa bs act).writeFrozen w.asid pa bs act)
    | none => (true, s.putHbm w e.rm va pa bs act)

/-- The frozen version of n bytes after an old change that is computed from what it holds: R281 applies the change to each
version. None of f: nothing is written. `t` is `s` with the live version changed. -/
def State.changeFrozen (s t : State) (asid pa n : Nat) (f : Nat → Option Nat) : State :=
  match s.redirect asid pa with
  | some q => t.hbmPut q (leBytes n ((f (s.hbmNum q n)).getD (s.hbmNum q n)))
  | none => t

/-- Changes n bytes of HBM for a core's command by a function of what they hold; none of it: nothing is written (R342). An old
change is applied to the frozen version as well, from what that holds (R281). -/
def State.changeHbm (s : State) (w : Who) (e : TlbEntry) (va n : Nat) (f : Nat → Option Nat) : Bool × State :=
  let old := match s.newFor w.asid (some w.colour) with | some (_, new) => !new | none => false
  let frozen (t : State) : State := if old then s.changeFrozen t w.asid (e.phys va) n f else t
  match f (s.hbmNum (e.phys va) n) with
  | none => (true, frozen (if old then s.countOld w.asid else s))
  | some v =>
    match s.writeHbm w e va (leBytes n v) .keep with
    | (true, t) => (true, frozen t)
    | (false, t) => (false, t)

/-- A die updates its replica in a read-mostly write; the last update performs the write (R232). `bad`: that replica could
not be written and is poisoned, for the readers of its die. -/
def State.updateReplica (s : State) (i die : Nat) (bad : Bool) : State :=
  match s.flat.rmWrites[i]? with
  | none => s
  | some w =>
    let w := { w with dies := w.dies.filter (fun d => d ≠ die), lost := if bad then w.lost ++ [die] else w.lost }
    let s := s.modFlat (fun f => { f with rmWrites := f.rmWrites.set i w })
    if w.dies = [] then s.perform w else s

/-- Whether a command has a read-mostly write that is not performed (R232, R234). -/
def State.rmPending (s : State) (c cmd : Nat) : Bool := s.flat.rmWrites.any (fun w => w.core = c && w.cmd = cmd)

/-! Waiters (R244). -/

/-- The value of a waiter's word, sign-extended for .w, as memory holds it. -/
def State.wordAt (s : State) (wide : Bool) (pa : Nat) : Word64 :=
  if wide then BitVec.ofNat 64 (s.hbmNum pa 8) else BitVec.signExtend 64 (BitVec.ofNat 32 (s.hbmNum pa 4))

/-- Whether a waiter's word overlaps n bytes at a physical address. -/
def Waiter.overlaps (w : Waiter) (pa n : Nat) : Bool :=
  decide (w.pa < pa + n) && decide (pa < w.pa + (if w.wide then 8 else 4))

/-- An AADDW has written its word: every waiter on an overlapping word is tested, and woken when its own word is at or
above its threshold (R244). -/
def State.wake (s : State) (pa n : Nat) : State :=
  let woken := s.flat.waiters.filter (fun w => w.overlaps pa n && (w.threshold.sle (s.wordAt w.wide w.pa)))
  let rest := s.flat.waiters.filter (fun w => !(w.overlaps pa n && (w.threshold.sle (s.wordAt w.wide w.pa))))
  woken.foldl (fun s w => s.modCtx w.core w.ctx (fun x => { x with held := .awaitDone (s.wordAt w.wide w.pa) }))
    (s.modFlat (fun f => { f with waiters := rest }))

/-- An atomic change of a word asks for a new round of every BARRIER packet (R254; a round more is always allowed). -/
def State.poke (s : State) : State :=
  if s.sys.packets.isEmpty then s
  else s.modSys (fun y => { y with packets := y.packets.map (fun p => { p with poke := true }) })

/-! Nodes (R144, R156). -/

/-- Whether an LREBASE of the node is at work and has not switched, so that writes are held (R165). While it waits for its guard,
acquire or release they pass: they may be those that the release waits for (DEDUCED, log 125). -/
def State.rebasing (s : State) (asid i : Nat) : Bool :=
  s.sys.lin.any (fun l => l.asid = asid && l.node = i && decide (l.prog = .running) && l.after.isNone &&
    (match l.ins with | .lrebase .. => true | _ => false))

/-- Reads the aligned 8 bytes of a node at an offset, and whether they are poisoned (R144, R154). -/
def State.readNode (s : State) (asid : Nat) (h : Word32) (off : Nat) : Served (List Byte × Bool) :=
  let sp := s.space asid
  match sp.valid h with
  | none => .fault causeLinHandle
  | some i => if 8 * ceilDiv (sp.node i).size 8 < off + 8 then .fault causeLinShape else .ok (sp.readUnit i off)

/-- Makes a change of a block of a node: in the live node, and for an old change in its frozen version too (R156, R281,
R282). `f` makes it in one node; a live node below its frozen version that inherits the block has it from there. -/
def State.onVersions (s : State) (w : Who) (i blk : Nat) (f : State → Nat → Option State) : Option State :=
  match s.newFor w.asid (some w.colour) with
  | some (_, false) =>
    let s := s.countOld w.asid
    let n := (s.space w.asid).node i
    match s.frozenFor w.asid i w.colour with
    | none => f s i
    | some z => (f s z).bind (fun t => if n.entry blk = .inherit ∧ n.parentIdx = z then some t else f t i)
  | _ => (s.interpose w.asid i (some w.colour)).bind (fun s => f s i)

/-- Writes bytes of one block of one node by copy-on-write (R156). -/
def State.putNode (s : State) (asid off : Nat) (bs : List Byte) (set whole : Bool) (i : Nat) : Option State :=
  ((s.space asid).writeBlock i (off / 4096) (off % 4096) bs set whole).map (fun sp => s.modSpace asid (fun _ => sp))

/-- Writes a live node and, for an old write, its frozen version (R156, R281, R282). -/
def State.changeNode (s : State) (w : Who) (i off : Nat) (bs : List Byte) (set whole : Bool) : Option State :=
  s.onVersions w i (off / 4096) (fun s j => s.putNode w.asid off bs set whole j)

/-- Writes the aligned 8 bytes of a node at an offset; bytes beyond the node's size are discarded (R144). -/
def State.writeNode (s : State) (w : Who) (h : Word32) (off : Nat) (bs : List Byte) (set whole : Bool) : Served State :=
  let sp := s.space w.asid
  match sp.valid h with
  | none => .fault causeLinHandle
  | some i =>
    let n := sp.node i
    if 8 * ceilDiv n.size 8 < off + 8 then .fault causeLinShape
    else if n.state ≠ .live then .fault causeLinSealed
    else if s.rebasing w.asid i then .stall
    else
      match s.changeNode w i off (bs.take (n.size - off)) set whole with
      | none => .fault causeProt
      | some t => .ok t

/-! The system die (R252, R253, R281). -/

/-- A change that comes in from outside, or back through a window of its own module, names no virtual address (R281, R319):
every job's copies of what it changes are made first, its lines are recalled, and read-mostly writes under way there are
performed. It spans two pages at most. -/
def State.reached (s : State) (pa n : Nat) : State :=
  if n = 0 then s
  else
    ((upFrom (pa / 64) ((pa + n - 1) / 64 - pa / 64 + 1)).foldl (fun s l => s.recall (64 * l))
      ((s.freezeFor pa).freezeFor (pa + n - 1))).settle pa n

/-- The same for a change that may turn out to write nothing, as an atomic's: such a one is a read, and makes no frozen version
(R342). -/
def State.touched (s : State) (pa n : Nat) (writes : Bool) : State := if writes then s.reached pa n else s.settle pa n

/-- Writes HBM for a party outside the module, poisoned or not: new for every kiln (R281). -/
def State.outerWrite (s : State) (pa : Nat) (bs : List Byte) (poison : Bool) : State :=
  (s.reached pa bs.length).hbmWrite pa bs (if poison then .set else .keep)

/-- A write that carries a colour and names no virtual address (R281): an old one reaches the frozen version of its own job
too. -/
def State.physWrite (s : State) (asid : Nat) (old : Bool) (pa : Nat) (bs : List Byte) (act : PoisonAct) : State :=
  let t := (s.reached pa bs.length).hbmWrite pa bs act
  if old then t.writeFrozen asid pa bs act else t

/-- A translation for such a location: its pages have been copied for every kiln that needs them. -/
def State.loopEntry (s : State) (asid va pa : Nat) : TlbEntry :=
  { asid := asid, va := va, size := 8, pa := pa, r := true, w := true, x := false, rm := false, s := false
    kst := match (s.job asid).bind Job.current with | some k => k.num | none => 0
    leaf := 0 }

/-- The colour of a change by a unit of the system die (R270, R281). -/
def State.sysColourOf (s : State) (asid : Nat) (old : Bool) : Bool :=
  match (s.job asid).bind Job.current with
  | some k => kilnColour k.num != old
  | none => false

/-- Writes bytes at a virtual address for a unit of the system die, poisoned or not. `old`: its work began before the
system die's cut. A page that needs a frozen version is copied first. `cmd` is the packet that read-mostly and remote writes
are pending for. Poison does not leave for the host (R318). -/
def State.sysPut (s : State) (asid : Nat) (sup old : Bool) (cmd : Nat) (act : PoisonAct) (va : Nat) (bs : List Byte) :
    Except Nat State := do
  let runs ← s.sysRuns asid sup .write va bs.length (bs.length / 65536 + 3)
  runs.foldlM (fun s (r : TlbEntry × Nat × Nat) =>
    let (e, a, k) := r
    let part := (bs.drop (a - va)).take k
    let pa := e.phys a
    let s := if cmd = 0 then s else s.noteManifest asid a k
    match rangeOf pa with
    | .nothing => .error causeProt
    | .host h => if act = .set then .error causePoisonEgress else .ok (s.hostPut h part)
    | .peer w off =>
      match s.through w off { core := sysParty, cmd := cmd, isWrite := true, data := part, poison := act = .set
                              colour := s.sysColourOf asid old, asid := asid } with
      | .here q t => .ok (t.physWrite asid old q part act)
      | .host h t => if act = .set then .error causePoisonEgress else .ok (t.hostPut h part)
      | .prot _ => .error causeProt
      | .sent t => .ok t
      | .closed _ => .error causePeerRetired
      | .dead => .error causeLinkDead
    | .hbm =>
      let s := (s.recall pa).settle pa k
      let put (s : State) : State :=
        if e.rm then s.openRm sysParty cmd act pa part (part.length + 1) else s.hbmWrite pa part act
      match s.newFor asid none with
      | none => .ok (put s)
      | some _ => if old then .ok ((put s).writeFrozen asid pa part act) else .ok (put (s.copyPage asid e))) s

/-- Writes bytes from unpoisoned data for a unit of the system die. -/
def State.sysWrite (s : State) (asid : Nat) (sup old : Bool) (va : Nat) (bs : List Byte) : Except Nat State :=
  s.sysPut asid sup old 0 .keep va bs

/-- Reads an 8-byte word for a unit of the system die; a poisoned sector is a fault. -/
def State.sysWord (s : State) (asid : Nat) (sup : Bool) (va : Nat) : Except Nat Word64 := do
  let (bs, p) ← s.sysRead asid sup va 8 3
  if p then .error causePoison else .ok (BitVec.ofNat 64 (leNat bs))

/-- Changes an 8-byte word by an atomic of the system die at its home: an AADDW, which wakes and pokes (R244, R254), or a
swap. A read-mostly page, and an address outside this module's HBM, give PROT and change nothing (R232, R313). An old
change is applied to the frozen version from what that holds (R281). -/
def State.sysAtomicAt (s : State) (asid : Nat) (old : Bool) (e : TlbEntry) (va : Nat) (f : Word64 → Word64) (wakes : Bool) :
    Except Nat (Word64 × State) :=
  let pa := e.phys va
  if va % 8 ≠ 0 then .error causeAlign
  else if e.rm || rangeOf pa ≠ .hbm then .error causeProt
  else if s.hbmPoisoned pa 8 then .error causePoison
  else
    let v := w64 (s.hbmNum pa 8)
    let t := if (s.newFor asid none).isSome && !old then s.copyPage asid e else s
    let t := (t.recall pa).hbmWrite pa (leBytes 8 (f v).toNat) .keep
    let t := if old then s.changeFrozen (t.countOld asid) asid pa 8 (fun x => some (f (w64 x)).toNat) else t
    .ok (v, if wakes then t.poke.wake pa 8 else t.poke)

/-- The same at a virtual address, which may lie in a peer window (R313, R323, R325). A word of another module has been changed, or not,
when its answer comes, and nothing waits for that: the old value is free (DESIGN CHOICE, log 18). -/
def State.sysAtomic (s : State) (asid : Nat) (sup old : Bool) (va : Nat) (f : Word64 → Word64) (wakes : Bool) :
    Except Nat (Word64 × State) := do
  let e ← s.sysXlate asid sup .both va
  match rangeOf (e.phys va) with
  | .peer w off =>
    let win := s.fab.window w
    let was := w64 (leNat ((upFrom 0 8).map (fun i => Config.remoteByte s.cycle win.node.toNat (win.rbase.toNat + off + i))))
    if va % 8 ≠ 0 then .error causeAlign
    else
      match s.through w off { core := sysParty, cmd := 0, isAtomic := true, data := leBytes 8 (f was).toNat
                              colour := s.sysColourOf asid old, asid := asid } with
      | .here pa t => (t.reached pa 8).sysAtomicAt asid old (t.loopEntry asid va pa) va f wakes
      | .sent t => .ok (was, t)
      | .closed _ => .error causePeerRetired
      | .dead => .error causeLinkDead
      | .host .. | .prot _ => .error causeProt
  | _ => s.sysAtomicAt asid old e va f wakes

/-- Changes a completion signal at its home (R253, R254): the AADDW of −1, or the swap of −1 that wakes no one. -/
def State.signal (s : State) (asid : Nat) (old : Bool) (va : Nat) (f : Word64 → Word64) (wakes : Bool) : Except Nat State :=
  (s.sysAtomic asid true old va f wakes).map (·.2)

/-- A party outside the mesh has a read-mostly write, or a write to another module, that is not performed (R234). -/
def State.sysPending (s : State) (cmd : Nat) : Bool :=
  s.rmPending sysParty cmd ||
  s.fab.ports.any (fun e => (e.2.queue ++ e.2.retry ++ e.2.flight).any (fun k =>
    k.isWrite && decide (k.core = sysParty ∧ k.cmd = cmd)))

end Sys2Proof.Machine
end

