-- ==== Sys2Proof/Machine/Flags.lean ====
section
/-! DEFINITION. Every flag and condition that an instruction computes: integer and floating conditions (R59), the sticky
flags of FRM and ISTAT with the draw of stochastic rounding (R109 to R119), and a context's rounding operations. -/

namespace Sys2Proof.Machine

open Sys2Proof

/-- The integer meaning of a condition (R59). -/
def condInt (k : Cond) (a b : Word64) : Bool :=
  match k with
  | .eq => a == b
  | .ne => a != b
  | .lt => a.slt b
  | .le => a.sle b
  | .gt => b.slt a
  | .ge => b.sle a
  | .ltu => a.ult b
  | .leu => a.ule b
  | .gtu => b.ult a
  | .geu => b.ule a

/-- The floating meaning of a condition (R59): every one but .ne is ordered; the unsigned ones have none. -/
def condFloat (k : Cond) (a b : Num) : Bool :=
  match k, cmpNum a b with
  | .eq, some .eq => true
  | .ne, some .eq => false
  | .ne, _ => true
  | .lt, some .lt => true
  | .le, some .lt => true
  | .le, some .eq => true
  | .gt, some .gt => true
  | .ge, some .gt => true
  | .ge, some .eq => true
  | _, _ => false

/-- ISTAT.DZ and ISTAT.SAT (R119). -/
def istatDZ : BitVec 2 := 1
def istatSAT : BitVec 2 := 2

/-- FRM.FTZ (R112). -/
def Ctx.ftz (x : Ctx) : Bool := x.frm.getLsbD 8

/-- The next draw of generator l, bits [15:0], and the context after it (R111). -/
def Ctx.draw (x : Ctx) (l : Nat) : Nat × Ctx :=
  let g := x.gen genSeed l
  (g.toNat % 2 ^ 16, { x with gens := x.gens.put l (BitVec.ofNat 32 (genAdvance 16 g.toNat)) })

/-- The draw that a rounding in a mode uses: one from generator l under RS, none otherwise (R110). -/
def Ctx.drawFor (x : Ctx) (rm : RoundMode) (l : Nat) : Nat × Ctx := if rm = .rs then x.draw l else (0, x)

/-- The element bits of a scalar register in a type (R360). -/
def scalarElem (ty : ElemType) (v : Word64) : Nat := v.toNat % 2 ^ ty.bits

/-- An element as a scalar register receives it: sign-extended from a signed integer type, zero-extended otherwise
(R360). -/
def scalarResult (ty : ElemType) (v : Nat) : Word64 :=
  if isSignedInt ty then BitVec.ofInt 64 (toSigned ty.bits v) else BitVec.ofNat 64 (v % 2 ^ ty.bits)

/-- Rounds an exact result into a type for a context with generator l: the element, and the context with the flags set
and the draw taken (R101, R109 to R113). `f` are the flags of forming the result. -/
def Ctx.round (x : Ctx) (ty : ElemType) (rm : RoundMode) (l : Nat) (v : Num) (f : Flags) : Nat × Ctx :=
  let (r, y) := x.drawFor rm l
  let (e, g) := roundFloat ty rm r v
  (e, y.orFrm (f ||| g))

/-- The smaller or greater of two floating elements by R118: −0 below +0, one NaN ignored, two NaNs canonical; the element
returned is unchanged (R364). -/
def floatMin (ty : ElemType) (a b : Nat) : Nat :=
  let x := decodeFloat ty a
  let y := decodeFloat ty b
  if x.isNan && y.isNan then nanCode ty else if x.isNan then b else if y.isNan then a
  else if ltSigned y x then b else a

def floatMax (ty : ElemType) (a b : Nat) : Nat :=
  let x := decodeFloat ty a
  let y := decodeFloat ty b
  if x.isNan && y.isNan then nanCode ty else if x.isNan then b else if y.isNan then a
  else if ltSigned x y then b else a

/-- Signed division and remainder with their ISTAT flag (R119). -/
def divide (a b : Word64) : Word64 × BitVec 2 := if b = 0 then (0, istatDZ) else (a.sdiv b, 0)
def remainder (a b : Word64) : Word64 × BitVec 2 := if b = 0 then (a, istatDZ) else (a.srem b, 0)

end Sys2Proof.Machine
end

