-- ==== Sys2Proof/Machine/Operands.lean ====
section
/-! DEFINITION. Every operand form: immediates, local addresses, branch targets, element sizes, vector operands and lane
selection, and the scalar registers that an instruction names (R33, R57, R61, R74, R340, R420). -/

namespace Sys2Proof.Machine

open Sys2Proof

/-- A sign-extended 32-bit immediate (R57). -/
def immWord (imm : BitVec 32) : Word64 := imm.signExtend 64

/-- The target of a relative branch at an address (R57, R347): taken modulo 2^64. -/
def branchTarget (pc : Word64) (off : BitVec 32) : Word64 := pc + off.signExtend 64

/-- size(SZ) in bytes (R61). -/
def sizeOf' : Size → Nat
  | .b => 1
  | .h => 2
  | .w => 4
  | .d => 8

/-- The local address sv(BASE) + OFF16, a sum that does not wrap (R57, R182, R375; DEDUCED, log 19). -/
def Ctx.localAddr (x : Ctx) (m : MemArg) : Nat := (x.sv m.base).toNat + m.off.toNat

/-- ext(v, sx) of R74: the low 8n bits, sign- or zero-extended. -/
def extend (sx : Bool) (n v : Nat) : Word64 :=
  if sx then BitVec.ofInt 64 (toSigned (8 * n) v) else BitVec.ofNat 64 (v % 2 ^ (8 * n))

/-- Size of an element type in bytes, rounded up. -/
def elemBytes (ty : ElemType) : Nat := (ty.bits + 7) / 8

/-! Lanes (R74, R420). -/

/-- lane_on(l): the lane is in the claim and its predicate bit is 1. -/
def Ctx.laneOn (x : Ctx) (pm l : Nat) : Bool := decide (l < x.vcount.val) && (x.pv pm).getLsbD l

/-- Lane l of vector register v. -/
def Ctx.lane (x : Ctx) (v l : Nat) : Word32 := x.vregs.get 0 (64 * v + l)

/-- Writes lane l of vector register v. -/
def Ctx.setLane (x : Ctx) (v l : Nat) (w : Word32) : Ctx := { x with vregs := x.vregs.set 0 (64 * v + l) w }

/-- Lane l of the second operand: of a vector register, or a scalar's low 32 bits in every lane (R420). -/
def Ctx.operandLane (x : Ctx) (b : VOperand) (l : Nat) : Word32 :=
  match b with
  | .vec v => x.lane v.val l
  | .scalar s => (x.sv s.val).truncate 32

/-- The scalar registers that a vector operand names. -/
def vopRegs : VOperand → List Nat
  | .vec _ => []
  | .scalar s => [s.val]

/-- The scalar registers that an instruction names in any role, read or written (R340). -/
def regsOf : Instr → List Nat
  | .add d a b | .sub d a b | .mul d a b | .mulh d a b | .div d a b | .rem d a b | .and d a b | .or d a b
  | .xor d a b | .andn d a b | .shl d a b | .shr d a b | .sra d a b | .rol d a b | .min d a b | .max d a b
  | .fadd _ _ d a b | .fsub _ _ d a b | .fmul _ _ d a b | .fmin _ d a b | .fmax _ d a b | .fcmp _ _ d a b
  | .cmp _ d a b => [d.val, a.val, b.val]
  | .addImm d a _ | .subImm d a _ | .mulImm d a _ | .andImm d a _ | .orImm d a _ | .xorImm d a _ | .shlImm d a _
  | .shrImm d a _ | .sraImm d a _ | .rolImm d a _ | .minImm d a _ | .maxImm d a _ | .cmpImm _ d a _
  | .clz d a | .popc d a | .mov d a | .bfx _ d a _ _ | .bfi d a _ _ | .fcvt _ _ _ d a | .jmpr d a
  | .hjoin d a | .vote _ d a _ => [d.val, a.val]
  | .sel d a b c | .ffma _ _ d a b c | .hstart d a b c => [d.val, a.val, b.val, c.val]
  | .movi d _ => [d.val]
  | .brc _ a b _ | .chk a b _ => [a.val, b.val]
  | .call _ => [31]
  | .ret a => [a.val]
  | .exit a => [a.val]
  | .ld _ _ _ _ d m | .st _ _ _ d m | .lds _ _ _ _ d m | .tagTest _ d m => [d.val, m.base.val]
  | .tagEmpty _ m | .tagFull _ m | .tagSpent _ m => [m.base.val]
  | .evsig _ _ a _ _ => [a.val]
  | .sleept a => [a.val]
  | .time d => [d.val]
  | .nbrd d _ _ => [d.val]
  | .recv _ _ _ _ d base _ => [d.val, base.val]
  | .plog .reg _ a _ => [a.val]
  | .pcnt _ d _ => [d.val]
  | .gres _ a => [a.val]
  | .aadd x | .aaddw x | .aswap x | .amin x | .amax x | .aand x | .aor x => [x.d.val, x.a.val, x.b.val]
  | .acas x c => [x.d.val, x.a.val, x.b.val, c.val]
  | .await _ d a b _ _ _ => [d.val, a.val, b.val]
  | .evpost a b _ _ _ => [a.val, b.val]
  | .evwait d a b => [d.val, a.val, b.val]
  | .done a _ _ _ => [a.val]
  | .wdq b _ _ _ => [b.val]
  | .heatage a _ _ _ _ => [a.val]
  | .rowrank a b _ _ _ _ | .rowmig a b _ _ _ => [a.val, b.val]
  | .kiln _ d _ => [d.val]
  | .kilnst d a | .kilnrel d a _ | .kilnrb d a _ => [d.val, a.val]
  | .csrr d _ => [d.val]
  | .csrw a _ => [a.val]
  | .tlbinv _ _ _ a => [a.val]
  | .get x | .put x => if x.lin then [x.a.val, x.b.val, x.c.val] else [x.a.val, x.b.val]
  | .grist x | .gristScatter x => [x.a.val, x.b.val, x.c.val]
  | .cpy x | .sendD x | .sendP x => [x.a.val, x.b.val, x.c.val]
  | .sendI x => [x.a.val, x.b.val]
  | .nmc b c _ _ _ _ => [b.val, c.val]
  | .nmscan _ a b c _ _ _ _ _ _ => [a.val, b.val, c.val]
  | .tspawn d a b _ _ _ => [d.val, a.val, b.val]
  | .lfork d a c | .lforkAf d a c _ => [d.val, a.val, c.val]
  | .lflat d a _ _ _ | .lpack d a _ _ _ | .ldel d a _ | .linfo d a => [d.val, a.val]
  | .lrebase d a b _ _ _ => [d.val, a.val, b.val]
  | .vld _ _ _ _ _ base _ | .vst _ _ _ _ _ base _ => [base.val]
  | .vadd _ _ _ _ b _ | .vsub _ _ _ _ b _ | .vmul _ _ _ _ b _ => vopRegs b
  | .vfma _ _ _ _ b _ _ => vopRegs b
  | .vmax _ _ _ b _ | .vmin _ _ _ b _ => vopRegs b
  | .vcmp _ _ _ _ b _ => vopRegs b
  | .vbcast _ _ (.scalar s) _ => [s.val]
  | .vand _ _ b _ | .vor _ _ b _ | .vxor _ _ b _ | .vshl _ _ b _ => vopRegs b
  | .vshr _ _ _ b _ => vopRegs b
  | .mmul x => [x.a.val, x.b.val]
  | .mcorr x => [x.a.val, x.b.val, x.c.val]
  | .msplit x => [x.a.val, x.b.val, x.c.val]
  | _ => []

/-- Vector and matrix words, which wait behind a running repetition (R177). -/
def isArrayWord : Instr → Bool
  | .vclaim .. | .vrel | .vld .. | .vst .. | .vadd .. | .vsub .. | .vmul .. | .vfma .. | .vmax .. | .vmin ..
  | .vabs .. | .vcvt .. | .vqnt .. | .vdqn .. | .vred .. | .vscan .. | .vshuf .. | .vcmp .. | .vsel .. | .vfn ..
  | .vbcast .. | .vidx .. | .vand .. | .vor .. | .vxor .. | .vshl .. | .vshr .. | .mlds .. | .mswap .. | .mmul ..
  | .mcorr .. | .msplit .. | .mgangWide .. | .mgangDeep .. => true
  | _ => false

/-! Fields of the engine commands. -/

/-- CT of a command: the counter that its completion bumps. -/
def ctOf : Instr → Nat
  | .aadd x | .aaddw x | .aswap x | .acas x _ | .amin x | .amax x | .aand x | .aor x => x.ct.val
  | .await _ _ _ _ ct _ _ | .evpost _ _ ct _ _ | .trig ct _ | .done _ ct _ _ | .wdq _ ct _ _ | .heatage _ ct _ _ _
  | .rowrank _ _ ct _ _ _ | .rowmig _ _ ct _ _ | .kiln _ _ ct | .kilnrel _ _ ct | .kilnrb _ _ ct | .nmc _ _ ct _ _ _
  | .nmscan _ _ _ _ ct _ _ _ _ _ | .tspawn _ _ _ ct _ _ | .lforkAf _ _ _ ct | .lflat _ _ ct _ _
  | .lrebase _ _ _ ct _ _ | .ldel _ _ ct | .lpack _ _ ct _ _ | .mlds _ _ _ _ _ ct _ _ | .mswap _ _ ct _
  | .mgangWide ct _ | .mgangDeep ct _ => ct.val
  | .get x | .put x | .grist x | .gristScatter x => x.ct.val
  | .cpy x | .sendD x | .sendP x => x.ct.val
  | .sendI x => x.ct.val
  | .mmul x => x.ct.val
  | .mcorr x => x.ct.val
  | .msplit x => x.ct.val
  | _ => 0

/-- GD of a command. -/
def gdOf : Instr → Nat
  | .aadd x | .aaddw x | .aswap x | .acas x _ | .amin x | .amax x | .aand x | .aor x => x.gd.val
  | .evpost _ _ _ gd _ | .trig _ gd | .done _ _ gd _ | .wdq _ _ gd _ | .heatage _ _ gd _ _
  | .rowrank _ _ _ gd _ _ | .rowmig _ _ _ gd _ | .nmc _ _ _ gd _ _ | .nmscan _ _ _ _ _ gd _ _ _ _
  | .tspawn _ _ _ _ gd _ | .lflat _ _ _ gd _ | .lrebase _ _ _ _ gd _ | .lpack _ _ _ gd _
  | .mlds _ _ _ _ _ _ gd _ | .mswap _ _ _ gd | .mgangWide _ gd | .mgangDeep _ gd => gd.val
  | .get x | .put x | .grist x | .gristScatter x => x.gd.val
  | .cpy x | .sendD x | .sendP x => x.gd.val
  | .sendI x => x.gd.val
  | .mmul x => x.gd.val
  | .mcorr x => x.gd.val
  | .msplit x => x.gd.val
  | _ => 0

/-- AQ, RL and SC of a command; neither for a command that has no such fields. -/
def ordOf : Instr → MemOrder
  | .aadd x | .aaddw x | .aswap x | .acas x _ | .amin x | .amax x | .aand x | .aor x => x.ord
  | .evpost _ _ _ _ o | .done _ _ _ o | .heatage _ _ _ o _ | .rowrank _ _ _ _ o _ | .rowmig _ _ _ _ o
  | .nmc _ _ _ _ o _ | .nmscan _ _ _ _ _ _ o _ _ _ | .tspawn _ _ _ _ _ o | .lflat _ _ _ _ o
  | .lrebase _ _ _ _ _ o | .lpack _ _ _ _ o => o
  | .get x | .put x | .grist x | .gristScatter x => x.ord
  | .cpy x | .sendD x | .sendP x => x.ord
  | .sendI x => x.ord
  | _ => { acq := false, rel := false, sc := .core }

/-- The register that a command reserves and writes after it issues (R340). -/
def resultReg : Instr → Nat
  | .aadd x | .aaddw x | .aswap x | .acas x _ | .amin x | .amax x | .aand x | .aor x => x.d.val
  | .tspawn d .. => d.val
  | _ => 0

/-- Whether a command counts in ol from its issue to its completion (R80). -/
def countsOl : Instr → Bool
  | .aadd _ | .aaddw _ | .aswap _ | .acas .. | .amin _ | .amax _ | .aand _ | .aor _ | .get _ | .grist _ | .wdq ..
  | .nmscan .. | .mmul _ | .mcorr _ | .msplit _ => true
  | _ => false

/-- Whether a command counts in os. -/
def countsOs : Instr → Bool
  | .put _ | .gristScatter _ | .cpy _ | .sendD _ | .sendP _ | .sendI _ | .evpost .. | .trig .. | .done .. | .heatage ..
  | .rowrank .. | .rowmig .. | .nmc .. | .tspawn .. => true
  | _ => false

/-! Transfers (R135 to R140). -/

/-- The local source that a put-and-get command reads: space, address and length. -/
def localSource (i : Instr) (vb : Word64) : Option (Space × Nat × Nat) :=
  match i with
  | .put x | .gristScatter x => some (x.lsp, vb.toNat, x.len.toNat)
  | .cpy x | .sendD x | .sendP x => some (x.lsp, vb.toNat, x.len.toNat)
  | .sendI x => some (x.lsp, vb.toNat, x.len.toNat)
  | _ => none

/-! Matrix operands (R191, R195, R198). -/

/-- Whether a type is a narrow floating type, which carries scale bytes (R194). -/
def isNarrow : ElemType → Bool
  | .e4m3 | .e5m2 | .e2m1 => true
  | _ => false

/-- The group size in elements; 0 for none (R196). -/
def grpElems : GroupSize → Nat
  | .none => 0
  | .g32 => 32
  | .g64 => 64
  | .g128 => 128

/-- Length of an activation vector of k elements with its metadata, from its first byte (R198). -/
def vectorLen (ty : ElemType) (g : GroupSize) (k : Nat) : Nat :=
  let data := (k * ty.bits + 7) / 8
  let at8 := (data + 7) / 8 * 8
  if isNarrow ty then at8 + (k + 31) / 32
  else if grpElems g ≠ 0 then at8 + 4 * ((k + grpElems g - 1) / grpElems g)
  else data

/-- Bytes of a weight block (R195). -/
def blockLen (ty : ElemType) (g : GroupSize) : Nat :=
  256 * ty.bits / 8 + (if isNarrow ty || grpElems g ≠ 0 then 64 else 0)

/-- Inputs per k-step of a command (R191). -/
def depthOf (deep gang : Bool) : Nat := if deep && gang then 128 else 16

/-- Outputs of one vector of a command (R191). -/
def outputsOf (deep gang : Bool) : Nat := if gang && !deep then 128 else 16

end Sys2Proof.Machine
end

