-- ==== Sys2Proof/Machine/Ops.lean ====
section
/-! DEFINITION. The named operations that the meanings share: operand checks, waiting and STALL, taking a trap and
returning from one, fault records and bumps, the waiting-task table, named events, the failing of a team and the start of
a containment (R70, R75, R93, R257, R265, R295 to R307). -/

namespace Sys2Proof.Machine

open Sys2Proof

/-- How an instruction ends other than by completing. -/
inductive Stop where
  /-- A precise trap (R70, R295). -/
  | trap (cause : Nat) (faddr : Word64)
  /-- Poison consumed at an address: containment, and no handler (R134, R307). -/
  | poison (addr : Word64)
  /-- The instruction waits, in a state that records what it has registered. The object is what a STALL names; none for a
  wait that does not count against YSTALL. -/
  | wait (s : State) (obj : Option (Nat × Nat))
  /-- Delivery of a fault record, taken out of the queue (R299). -/
  | deliver (rec' : FaultRec) (s : State)

/-- What a meaning computes: the state after the instruction's own effect, or how it stops. -/
abbrev Act := Except Stop State

/-- The end of a step. -/
abbrev Out := Host.Outcome State Fault Refusal

/-! Checks (R75, R76). -/

/-- need(i): DEFERRED_USE with the register's number (R75). -/
def need (x : Ctx) (r : Nat) : Except Stop Unit :=
  if x.dbit r then .error (.trap causeDeferred (w64 r)) else .ok ()

/-- need() on several registers, in order. -/
def needAll (x : Ctx) : List Nat → Except Stop Unit
  | [] => .ok ()
  | r :: rs => match need x r with | .ok () => needAll x rs | .error e => .error e

/-- local_check(sp, a, n) with the alignment al (R75). -/
def localCheck (sp : Space) (a n al : Nat) : Except Stop Unit :=
  if limitOf sp < a + n then .error (.trap causeLocalRange (w64 a))
  else if a % al ≠ 0 then .error (.trap causeAlign (w64 a))
  else .ok ()

/-- An address that must be a multiple of n (R71, R137, R219). -/
def aligned (a : Word64) (n : Nat) : Except Stop Unit :=
  if a.toNat % n ≠ 0 then .error (.trap causeAlign a) else .ok ()

/-- The lines of a local extent must not hold poison that the read would consume (R134). -/
def noPoison (x : Core) (sp : Space) (a n : Nat) : Except Stop Unit :=
  match x.poisonAt sp a n with
  | some p => .error (.poison (w64 p))
  | none => .ok ()

/-- Waits while a line that the access writes is still to be drained for a kiln; the wait has no limit (R279). -/
def noDrain (s : State) (sp : Space) (a n : Nat) : Except Stop Unit :=
  if s.home.pendingDrain sp a n then .error (.wait s none) else .ok ()

/-! Named events (R257, R258). -/

/-- COUNT of a named event. -/
def SysDie.event (y : SysDie) (e : Nat) : Word32 := y.events.get 0 e

/-- The waiters of an event in registration order. -/
def SysDie.waitersOf (y : SysDie) (e : Nat) : List EventWaiter := y.evWaiters.get [] e

/-- Serves an event's waiters in registration order, each as far as COUNT allows (R257, R357). -/
def serveEvent (e : Nat) : (fuel : Nat) → State → State
  | 0, s => s
  | f + 1, s =>
    match s.sys.waitersOf e with
    | [] => s
    | w :: r =>
      let n := s.sys.event e
      if w.n.ule n then
        let s := s.modSys (fun y => { y with
          events := y.events.set 0 e (n - w.n), evWaiters := y.evWaiters.set [] e r })
        serveEvent e f (s.modCtx w.core w.ctx (fun x => { x with held := .eventDone (n.zeroExtend 64) }))
      else s

/-- Posts a count to an event, saturating, and serves its waiters (R257). -/
def State.postEvent (s : State) (e : Nat) (n : Word32) : State :=
  let c := s.sys.event e
  let t : Word32 := if c.toNat + n.toNat < 2 ^ 32 then c + n else BitVec.allOnes 32
  let s := s.modSys (fun y => { y with events := y.events.set 0 e t })
  serveEvent e ((s.sys.waitersOf e).length) s

/-- Drops the event waiters that a test selects, and serves the events whose queues changed. -/
def State.dropEventWaiters (s : State) (p : EventWaiter → Bool) : State :=
  let hit := (s.sys.evWaiters.filter (fun q => q.2.any p)).map (·.1)
  let s := s.modSys (fun y => { y with
    evWaiters := (y.evWaiters.map (fun q => (q.1, q.2.filter (fun w => !p w)))).filter (fun q => !q.2.isEmpty) })
  hit.foldl (fun s e => serveEvent e ((s.sys.waitersOf e).length) s) s

/-! Withdrawing (R244, R257, R302, R304, R374). -/

/-- Withdraws what a waiting context has registered: its waiter, its event waiter, its place in an event-unit queue, its
unaccepted kiln request. -/
def State.withdraw (s : State) (c h : Nat) : State :=
  match ((s.core c).ctx h).held with
  | .awaitReg => s.modFlat (fun f => { f with waiters := f.waiters.filter (fun w => !(w.core = c && w.ctx = h)) })
  | .eventReg => s.dropEventWaiters (fun w => w.core = c && w.ctx = h)
  | .mutexQueued l => s.modCluster (clusterOf c) (fun k =>
      { k with mutexes := k.mutexes.modify {} l (fun m => { m with queue := m.queue.filter (fun q => q ≠ (sliceOf c, h)) }) })
  | .eventLine l => s.modCluster (clusterOf c) (fun k =>
      { k with events := k.events.modify {} l (fun m => { m with queue := m.queue.filter (fun q => q ≠ (sliceOf c, h)) }) })
  | .kilnAsked | .kilnTurn => s.modSys (fun y => { y with kilnReqs := y.kilnReqs.filter (fun q => !(q.core = c && q.ctx = h)) })
  | _ => s

/-! Failing a team (R304, R305). -/

/-- Whether an engine's command that has begun still writes what leaves the core when its team fails. -/
def MxCmd.reaches (m : MxCmd) : Bool :=
  decide (m.phase = .running) && (match m.ins with | .msplit _ | .mcorr _ => true | _ => false)

/-- Step 1 of R304 for one member, and the commands of step 2 that have sent no request dropped. -/
def stopCore (x : Core) : Core :=
  { x with
    ctxs := x.ctxs.map (fun e => (e.1,
      { e.2 with live := false, held := .none, waitSince := none, waitObj := none, parked := none, reserved := [],
                 vcount := 0, vreq := 0, vregs := [], rep := { e.2.rep with active := false } }))
    sendq := [], wtt := [], starts := [], phase := {}, faultq := []
    pge := x.pge.filter (fun p => !decide (p.prog = .waiting)), mx := x.mx.filter MxCmd.reaches }

/-- Whether core c has an engine command that has not completed. -/
def State.busyCore (s : State) (c : Nat) : Bool :=
  let x := s.core c
  !x.pge.isEmpty || !x.mx.isEmpty || s.sys.lin.any (fun l => l.core = c)

/-- Whether a member's part is over: its h0 has executed EXIT, its commands have completed and its sends are delivered
(R249). -/
def State.partOver (s : State) (c : Nat) : Bool :=
  (s.core c).partEnded ||
    ((s.core c).exited && !s.busyCore c && (s.core c).sendq.isEmpty && !s.flat.rmWrites.any (fun w => w.core = c))

/-- A team that fails while a kiln of its job runs is restored only when it was RUNNING at its cut: when each of its members had
cut, or had ended its part (R275, R290; DEDUCED, log 114). -/
def State.dropUncut (s : State) (t : Team) : State :=
  match (s.job t.asid).bind Job.running with
  | some k =>
    if k.teams.any (fun x => x.id = t.id) && t.cores.any (fun c => !k.cut.contains c && !s.partOver c) then
      s.modKiln t.asid k.num (fun z => { z with
        teams := z.teams.filter (fun x => x.id ≠ t.id), failed := z.failed ++ z.teams.filter (fun x => x.id = t.id) })
    else s
  | none => s

/-- fail_team(cause), steps 1 and 2 of R304, for a team that is not failing yet. The core, PC and FADDR are those of the
failure record. -/
def State.failResident (s : State) (t : Team) (cause c : Nat) (pc faddr : Word64) : State :=
  match t.phase with
  | .failing .. => s
  | _ =>
    let cs := t.cores
    let s := s.dropUncut t
    let s := s.modFlat (fun f => { f with waiters := f.waiters.filter (fun w => !cs.contains w.core) })
    let s := s.dropEventWaiters (fun w => cs.contains w.core)
    let s := s.modSys (fun y => { y with
      kilnReqs := y.kilnReqs.filter (fun q => !cs.contains q.core)
      lin := y.lin.filter (fun l => !(cs.contains l.core && decide (l.prog = .waiting))) })
    let s := (cs.map clusterOf).eraseDups.foldl (fun s k => s.modCluster k (fun x => { x with
      mutexes := x.mutexes.map (fun e => (e.1, { e.2 with queue := [] }))
      events := x.events.map (fun e => (e.1, { e.2 with queue := [] })) })) s
    let s := cs.foldl (fun s c => s.modCore c stopCore) s
    s.modTeam t.id (fun t => { t with phase := .failing cause c pc faddr })

/-- fail_team(cause) for the team of a core's context (R304). A context without a team only stops. -/
def State.failTeam (s : State) (cause c : Nat) (pc faddr : Word64) : State :=
  match s.teamOf c with
  | some t => s.failResident t cause c pc faddr
  | none => s.modCore c stopCore

/-! Containment (R306, R307). -/

/-- Whether a rectangle contains a core. -/
def inRect (row0 col0 width height c : Nat) : Bool :=
  decide (row0 ≤ rowOf c ∧ rowOf c < row0 + height ∧ col0 ≤ colOf c ∧ colOf c < col0 + width)

/-- Whether a containment fence stands around a core (R307 step 1). -/
def State.fenced (s : State) (c : Nat) : Bool :=
  s.sys.containments.any (fun k => inRect k.row0 k.col0 k.width k.height c)

/-- The valid rectangle of lowest index that contains a core: its index and itself. -/
def Die.rectFor (d : Die) (c : Nat) : Option (Nat × FenceRect) :=
  d.fences.find? (fun e => e.2.v && inRect e.2.row0.toNat e.2.col0.toNat e.2.width.toNat e.2.height.toNat c)

/-- Starts the containment of a core that consumed poison at a local or flat address (R307 steps 1 and 2). -/
def State.contain (s : State) (c : Nat) (pc addr : Word64) : State :=
  let d := dieOf c
  let k : Containment :=
    match (s.die d).rectFor c with
    | some (i, r) => { die := d, rect := some i, row0 := r.row0.toNat, col0 := r.col0.toNat, width := r.width.toNat,
                       height := r.height.toNat, teams := [], recs := [] }
    | none => { die := d, rect := none, row0 := d / 2 * 60, col0 := d % 2 * 112, width := 112, height := 60, teams := [], recs := [] }
  let hit := s.sys.teams.filter (fun t => t.cores.any (inRect k.row0 k.col0 k.width k.height))
  let k := { k with teams := hit.map (·.id), recs := hit.map (·.rec'), asids := (hit.map (·.asid)).eraseDups }
  let s := s.modSys (fun y => { y with containments := y.containments ++ [k] })
  let s := hit.foldl (fun s t =>
    if t.cores.contains c then s.failResident t causePoison c pc addr
    else
      match t.cores.find? (inRect k.row0 k.col0 k.width k.height) with
      | some m => s.failResident t causePoison m (((s.core m).ctx 0).pc) 0
      | none => s) s
  if hit.any (fun t => t.cores.contains c) then s else s.modCore c stopCore

/-! Taking a trap (R295). -/

/-- Instructions left after the present one is counted: it is counted once, when it issues (R91). -/
def Ctx.counted (x : Ctx) : BitVec 16 := if x.waitSince.isNone then x.left - 1 else x.left

/-- The saved and changed registers of trap_enter (R295). The repetition buffer stops before its next reissue: a word that had
failed a check is issued anew after RFE (R178). -/
def Ctx.enter (x : Ctx) (word faddr tvec : Word64) : Ctx :=
  { x with
    epc := x.pc, cause := word, faddr := faddr, psup := x.sup, sup := true, nest := true, pc := tvec
    left := x.counted, waitSince := none, waitObj := none, held := .none
    rep := { x.rep with stopped := x.rep.active, waitSince := none, trap := none } }

/-- trap_enter for the context that runs: the handler at TVEC, or fail_team when there is none or a handler already runs
(R295). `word` is what CAUSE receives. -/
def State.trapEnter (s : State) (cause : Nat) (word faddr : Word64) : State :=
  if bits s.home.tvec.toNat 51 2 = 0 ∨ s.me.nest = true then s.failTeam cause s.curCore s.me.pc faddr
  else s.modMe (fun x => x.enter word faddr s.home.tvec)

/-- The CAUSE word of an ENGINE delivery (R293, R299). -/
def engineCause (r : FaultRec) (ovf : Bool) : Word64 :=
  w64 (causeEngine + r.status * 2 ^ 8 + r.ct * 2 ^ 16 + b2n ovf * 2 ^ 20 + b2n r.rep.isSome * 2 ^ 21 +
    (match r.rep with | some (_, w) => w.toNat * 2 ^ 22 | none => 0) + r.seq.toNat * 2 ^ 32 +
    (match r.rep with | some (i, _) => i.toNat * 2 ^ 48 | none => 0))

/-- Delivers a fault record as ENGINE (R299, R300). -/
def State.deliver (s : State) (r : FaultRec) : State :=
  let s' := s.trapEnter causeEngine (engineCause r s.me.ovf) r.addr
  if bits s.home.tvec.toNat 51 2 = 0 ∨ s.me.nest = true then s'
  else s'.modMe (fun x => { x with faultrec := r.pc, ovf := false })

/-- FADDR of a STALL: the awaited object (R302). -/
def stallWord (kind obj : Nat) : Word64 := w64 (kind * 2 ^ 60 + obj % 2 ^ 60)

/-- STALL for the context that runs: what it registered is withdrawn (R302). -/
def State.stall (s : State) (kind obj : Nat) : State :=
  (s.withdraw s.curCore s.curCtx).trapEnter causeStall (w64 causeStall) (stallWord kind obj)

/-- Whether a wait of the context that began at a cycle has reached YSTALL (R93). -/
def State.pastStall (s : State) (x : Ctx) (since : Nat) : Bool := decide (x.ystall.toNat ≤ s.cycle - since)

/-- Whether the present wait has reached YSTALL (R93). -/
def State.waitedOut (s : State) (x : Ctx) : Bool :=
  match x.waitSince with
  | some c => s.pastStall x c
  | none => false

/-- The context goes on waiting, or ends in STALL when its wait counts and has reached YSTALL (R93, R302). A wait that does
not count starts the count afresh when it ends (DEDUCED, log 22). -/
def State.waitOn (s : State) (obj : Option (Nat × Nat)) : State :=
  let s := s.modMe (fun x => { x with
    left := x.counted, waitObj := obj
    waitSince := some (if obj.isSome then x.waitSince.getD s.cycle else s.cycle) })
  match obj with
  | some (k, o) => if s.waitedOut s.me then s.stall k o else s
  | none => s

/-- The context's instruction has completed and its next one is at npc. -/
def Ctx.complete (x : Ctx) (npc : Word64) : Ctx :=
  { x with pc := npc, left := x.counted, waitSince := none, waitObj := none, held := .none }

/-- How every instruction ends (R69, R70): it completes with the context at npc, traps precisely in the state before it,
waits, delivers a record, or starts a containment. -/
def finish (s : State) (npc : Word64) (r : Act) : Out :=
  match r with
  | .ok t => .next (t.modMe (fun x => x.complete npc))
  | .error (.trap c f) => .next (s.trapEnter c (w64 c) f)
  | .error (.poison a) => .next (s.contain s.curCore s.me.pc a)
  | .error (.wait t o) => .next (t.waitOn o)
  | .error (.deliver r t) => .next (t.deliver r)

/-- RFE's effect on STATUS (R296). -/
def Ctx.leave (x : Ctx) : Ctx :=
  { x with sup := x.psup, nest := false, rep := { x.rep with stopped := false } }

/-! Fault records and bumps (R75, R298 to R301). -/

/-- Queues a fault record, or drops it and sets the context's overflow flag (R298, R300). -/
def Core.engineFault (x : Core) (r : FaultRec) : Core :=
  if 8 ≤ x.faultq.length then x.modCtx r.ctx (fun c => { c with ovf := true })
  else { x with faultq := x.faultq ++ [r] }

/-- The oldest record that a test selects, and the queue without it. -/
def takeRecord (p : FaultRec → Bool) : List FaultRec → Option (FaultRec × List FaultRec)
  | [] => none
  | r :: rs => if p r then some (r, rs) else (takeRecord p rs).map (fun q => (q.1, r :: q.2))

/-- Delivers the oldest eligible record before the instruction has any other effect (R299). -/
def deliverOldest (s : State) (p : FaultRec → Bool) : Except Stop Unit :=
  match takeRecord p s.home.faultq with
  | some (r, q) => .error (.deliver r (s.modHome (fun x => { x with faultq := q })))
  | none => .ok ()

/-! Helpers and the waiting-task table (R78, R79, R95, R265). -/

/-- The context that a start makes: the registers of R79 and every per-context CSR at its reset value, in the mode of its
task (R294). Its exit value, its sequence number and its overflow flag stay (R96, R298). -/
def freshCtx (old : Ctx) (pc arg : Word64) (sup : Bool) : Ctx :=
  ({ live := true, life := old.life + 1, pc := pc, sup := sup, seq := old.seq, exitVal := old.exitVal, ovf := old.ovf } :
    Ctx).setS 1 arg false

/-- Whether a core's team runs in supervisor mode (R294). -/
def State.teamSup (s : State) (c : Nat) : Bool :=
  match s.teamOf c with
  | some t => t.sup
  | none => false

/-- Starts the helpers of fired entries whose helper is not live, lower entries first (R265). -/
def startFired (sup : Bool) : (fuel : Nat) → Core → Core
  | 0, x => x
  | f + 1, x =>
    match x.starts.find? (fun p => !(x.ctx p.helper).live) with
    | none => x
    | some p =>
      startFired sup f (({ x with starts := x.starts.filter (fun q => q.entry ≠ p.entry) } : Core).modCtx p.helper
        (fun c => freshCtx c p.target p.arg sup))

/-- Lists a pending start in the order of its entry, in place of one that the entry held (R358). -/
def insertStart (p : PendStart) : List PendStart → List PendStart
  | [] => [p]
  | q :: r => if p.entry < q.entry then p :: q :: r else if p.entry = q.entry then p :: r else q :: insertStart p r

/-- The modular test of WAITC.ge and the waiting-task table (R240, R265): ((c − n) mod 2^32) < 2^31. -/
def reached (c n : Word32) : Bool := decide ((c - n).toNat < 2 ^ 31)

/-- Fires every armed entry on a counter whose threshold is reached, and starts the helpers that can start (R265). Once h0 has executed
EXIT the core's part of the task is over but for its commands, and no entry fires (R96, R249; DESIGN CHOICE, log 127). -/
def Core.fireEntries (x : Core) (ct : Nat) (sup : Bool) : Core :=
  let v := x.counter ct
  let hit := x.wtt.filter (fun e => e.2.ct = ct && reached v e.2.threshold)
  if hit.isEmpty || x.exited then x
  else
    let x := { x with
      wtt := x.wtt.filter (fun e => !(e.2.ct = ct && reached v e.2.threshold))
      starts := hit.foldl (fun l e => insertStart
        { entry := e.1, helper := e.2.helper, target := e.2.target, arg := v.zeroExtend 64 } l) x.starts }
    startFired sup (x.starts.length) x

/-- The address space that a core works for: its team's (R269). -/
def State.asidOf (s : State) (c : Nat) : Nat :=
  match s.teamOf c with
  | some t => t.asid
  | none => (s.core c).asid.toNat

/-- Whether a core has cut for its job's running kiln, so that old packets delivered to it are recorded (R278). -/
def State.cutFor (s : State) (c : Nat) : Option Kiln :=
  match (s.job (s.asidOf c)).bind Job.running with
  | some k => if k.num = (s.core c).knum ∧ k.cut.contains c then some k else none
  | none => none

/-- Records an old packet delivered to a core after its cut (R278, R286). -/
def State.infl (s : State) (c : Nat) (colour : Bool) (f : Infl) (words : List Nat) (data : List Byte) : State :=
  match s.cutFor c with
  | some k =>
    if colour = kilnColour k.num then s
    else
      (s.modKiln (s.asidOf c) k.num (fun x => { x with infl := x.infl ++ [f] })).addRecord (s.asidOf c) k.num 6 words
        (Mem.write [] 0 data) (ceilDiv data.length 64)
  | none => s

/-- The code of a local space (R61). -/
def spaceCode : Space → Nat
  | .w => 0
  | .a => 1
  | .c => 2
  | .e => 3

/-- V, U and P of a line in one byte, as R310 lays them out. -/
def tagByte (t : Tag) : Byte := BitVec.ofNat 8 (b2n t.v + 2 * b2n t.u + 4 * b2n t.p)

/-- Drains one pending line into a LINE record (R279, R286; DESIGN CHOICE, log 21 for the record's words). -/
def State.drainLine (s : State) (c l : Nat) : State :=
  let x := s.core c
  if x.drain.contains l then
    let s' := s.modCore c (fun x => { x with drain := x.drain.filter (fun k => k ≠ l) })
    match s.cutFor c with
    | none => s'
    | some k =>
      let bytes := (x.store (lineSpace l)).slice (lineAddr l) 256 0
      (s'.modKiln (s.asidOf c) k.num (fun z => { z with lines := z.lines ++ [{ core := c, line := l, bytes := bytes, tag := x.tag l }] })
        ).addRecord (s.asidOf c) k.num 3 [s.coreName c, spaceCode (lineSpace l), lineAddr l]
        (AMap.set 0 bytes 256 (tagByte (x.tag l))) 5
  else s

/-- c[ct] of core c counts one completion, and the waiting-task table tests its entries (R75, R265). -/
def State.countUp (s : State) (c ct : Nat) : State :=
  s.modCore c (fun x => (x.setCounter ct (x.counter ct + 1)).fireEntries ct (s.teamSup c))

/-- The same for a completion of a colour, which an INFL record shows when it is old (R278). -/
def State.bumpCounter (s : State) (c ct : Nat) (colour : Bool) : State :=
  (s.countUp c ct).infl c colour (.bump c ct) [s.coreName c, 3, 0, 0, 0, ct] []

/-- bump(ct, status) of R75 with its fault record. -/
def State.bumpWith (s : State) (c : Nat) (colour : Bool) (r : FaultRec) : State :=
  let s := if r.status ≠ stOk ∧ r.status ≠ stDiscarded then s.modCore c (fun x => x.engineFault r) else s
  s.bumpCounter c r.ct colour

/-- The state with the context's outstanding count lowered; it never falls below zero (DEDUCED, log 20). -/
def lower (n : BitVec 16) : BitVec 16 := if n = 0 then 0 else n - 1

/-! Guards (R179, R180). -/

/-- What a command's binding becomes when slot g resolves. -/
def resolveBinding (g : Nat) (v : Bool) (b : Binding) : Binding :=
  match b with
  | .slot k => if k = g then .val v else b
  | b => b

/-- A pending slot's resolution releases every command of the core bound to it (R179, R180). -/
def State.resolveGuard (s : State) (c g : Nat) (v : Bool) : State :=
  (s.modCore c (fun x => { x with
    pge := x.pge.map (fun p => { p with bind := resolveBinding g v p.bind })
    sendq := x.sendq.map (fun p => { p with bind := resolveBinding g v p.bind })
    mx := x.mx.map (fun p => { p with bind := resolveBinding g v p.bind }) })).modSys (fun y => { y with
    lin := y.lin.map (fun l => if l.core = c then { l with bind := resolveBinding g v l.bind } else l) })

/-- Sets a slot; a change of a pending slot resolves it (R179). -/
def State.setGuard (s : State) (c g : Nat) (v : GuardVal) : State :=
  let old := (s.core c).guard g
  let s' := s.modCore c (fun x => { x with guards := x.guards.set .tru g v })
  match old, v with
  | .pending, .tru => s'.resolveGuard c g true
  | .pending, .fls => s'.resolveGuard c g false
  | _, _ => s'

end Sys2Proof.Machine
end

