-- ==== Sys2Proof/Machine/EventUnit.lean ====
section
/-! DEFINITION. The cluster event unit: barrier, mutex and event lines of the E window (R184 to R188). -/

namespace Sys2Proof.Machine

open Sys2Proof

/-! Values of the lines. -/

/-- A barrier line as LD reads it (R185). -/
def BarrierLine.word (b : BarrierLine) : Word64 :=
  w64 (b.mask.toNat + b.arr.toNat * 2 ^ 8 + b.gen.toNat * 2 ^ 16 + b.link.toNat * 2 ^ 32)

/-- A mutex line as LD reads it (R186). -/
def MutexLine.word (m : MutexLine) : Word64 :=
  match m.owner with
  | none => 0
  | some (sl, h) => w64 (1 + sl * 2 + h * 2 ^ 4 + m.queue.length * 2 ^ 8)

/-- Lines of a cluster. -/
def Cluster.barrier (k : Cluster) (i : Nat) : BarrierLine := k.barriers.get {} i
def Cluster.mutex (k : Cluster) (i : Nat) : MutexLine := k.mutexes.get {} i
def Cluster.event (k : Cluster) (i : Nat) : EventLine := k.events.get {} i

/-- Writes of a line. -/
def Cluster.setBarrier (k : Cluster) (i : Nat) (b : BarrierLine) : Cluster := { k with barriers := k.barriers.set {} i b }
def Cluster.setMutex (k : Cluster) (i : Nat) (m : MutexLine) : Cluster := { k with mutexes := k.mutexes.set {} i m }
def Cluster.setEvent (k : Cluster) (i : Nat) (e : EventLine) : Cluster := { k with events := k.events.set {} i e }

/-! Chains (R185). -/

/-- The cluster one step in a direction (north, east, south, west) that belongs to the team, if any. -/
def Team.clusterAt (t : Team) (k dir : Nat) : Option Nat :=
  let r := k / 28
  let c := k % 28
  let inTeam (r c : Nat) : Bool :=
    decide (t.row0 ≤ r ∧ r < t.row0 + t.height ∧ t.col0 / 8 ≤ c ∧ c < t.col0 / 8 + t.width / 8)
  match dir with
  | 0 => if 1 ≤ r ∧ inTeam (r - 1) c = true then some (k - 28) else none
  | 1 => if inTeam r (c + 1) then some (k + 1) else none
  | 2 => if inTeam (r + 1) c then some (k + 28) else none
  | _ => if 1 ≤ c ∧ inTeam r (c - 1) = true then some (k - 1) else none

/-- The clusters joined to cluster k at line i by a link set on both sides. -/
def State.joinedTo (s : State) (t : Team) (i k : Nat) : List Nat :=
  (upFrom 0 4).filterMap (fun d =>
    match t.clusterAt k d with
    | some n =>
      if ((s.cluster k).barrier i).link.getLsbD d && ((s.cluster n).barrier i).link.getLsbD ((d + 2) % 4) then some n
      else none
    | none => none)

/-- The chain of line i from the clusters to visit, each visited once. -/
def State.chainFrom (s : State) (t : Team) (i : Nat) : (fuel : Nat) → (todo seen : List Nat) → List Nat
  | 0, _, seen => seen
  | _, [], seen => seen
  | f + 1, k :: todo, seen =>
    let new := (s.joinedTo t i k).filter (fun n => !seen.contains n)
    s.chainFrom t i f (todo ++ new) (seen ++ new)

/-- The clusters of the chain of line i at cluster k: k alone outside a team. -/
def State.chain (s : State) (t : Option Team) (i k : Nat) : List Nat :=
  match t with
  | some t => s.chainFrom t i (t.width / 8 * t.height + 1) [k] [k]
  | none => [k]

/-- Completes a chain in which ARR = MASK in every line and some slice has arrived (R185; DEDUCED, log 23: a chain of MASK 0 alone
completes nothing). -/
def State.testChain (s : State) (t : Option Team) (i k : Nat) : State :=
  let ch := s.chain t i k
  let line (k : Nat) : BarrierLine := (s.cluster k).barrier i
  if ch.all (fun k => (line k).arr == (line k).mask) && ch.any (fun k => (line k).arr ≠ 0) then
    ch.foldl (fun s k => s.modCluster k (fun x =>
      x.setBarrier i { x.barrier i with arr := 0, gen := (x.barrier i).gen + 1 })) s
  else s

/-- The clusters of the team one step away from a cluster. -/
def clustersBeside (t : Option Team) (k : Nat) : List Nat :=
  match t with
  | some t => (upFrom 0 4).filterMap (t.clusterAt k)
  | none => []

/-- Tests the chain of a line whose MASK or LINK has changed, and those of the lines beside it, which the change may have cut
off (R185). -/
def State.testChains (s : State) (t : Option Team) (i k : Nat) : State :=
  (k :: clustersBeside t k).foldl (fun s n => s.testChain t i n) s

/-! Accesses. -/

/-- Sets a held wait. -/
def State.hold (s : State) (h : Held) : State := s.modMe (fun x => { x with held := h })

/-- An ST to barrier line i (R185). -/
def State.barrierStore (s : State) (i : Nat) (v : Word64) : Act :=
  let k := clusterOf s.curCore
  let sl := sliceOf s.curCore
  let obj := some (8, 8 * i)
  match s.me.held with
  | .barrier _ g => if ((s.cluster k).barrier i).gen ≠ g then .ok s else .error (.wait s obj)
  | _ =>
    let b := (s.cluster k).barrier i
    if v.getLsbD 63 = false then
      if b.arr ≠ 0 then .ok s
      else .ok ((s.modCluster k (fun x => x.setBarrier i
        { b with mask := v.truncate 8, link := (v >>> 32).truncate 4 })).testChains (s.teamOf s.curCore) i k)
    else if b.mask.getLsbD sl = false then .ok s
    else
      let t := (s.modCluster k (fun x => x.setBarrier i { b with arr := b.arr ||| (1 <<< sl) })).testChain (s.teamOf s.curCore) i k
      if ((t.cluster k).barrier i).gen ≠ b.gen then .ok t else .error (.wait (t.hold (.barrier i b.gen)) obj)

/-- An ST to mutex line i (R186). -/
def State.mutexStore (s : State) (i : Nat) (v : Word64) : Act :=
  let k := clusterOf s.curCore
  let who := (sliceOf s.curCore, s.curCtx)
  let obj := some (8, 8 * i)
  let m := (s.cluster k).mutex i
  match s.me.held with
  | .mutexGranted _ => .ok s
  | .mutexQueued _ => .error (.wait s obj)
  | _ =>
    if v = 1 then
      match m.owner with
      | none => .ok (s.modCluster k (fun x => x.setMutex i { m with owner := some who }))
      | some _ =>
        .error (.wait ((s.modCluster k (fun x => x.setMutex i { m with queue := m.queue ++ [who] })).hold (.mutexQueued i)) obj)
    else if v = 0 ∧ m.owner = some who then
      match m.queue with
      | [] => .ok (s.modCluster k (fun x => x.setMutex i { m with owner := none }))
      | (sl, h) :: r =>
        .ok ((s.modCluster k (fun x => x.setMutex i { owner := some (sl, h), queue := r })).modCtx (coreOfSlice k sl) h
          (fun x => { x with held := .mutexGranted i }))
    else .ok s

/-- Serves the waiting LDs of event line i of cluster k in arrival order (R187). -/
def serveLine (k i : Nat) : (fuel : Nat) → State → State
  | 0, s => s
  | f + 1, s =>
    let e := (s.cluster k).event i
    match e.queue with
    | [] => s
    | (sl, h) :: r =>
      if e.count = 0 then s
      else
        serveLine k i f ((s.modCluster k (fun x => x.setEvent i { count := e.count - 1, queue := r })).modCtx
          (coreOfSlice k sl) h (fun x => { x with held := .eventLineDone i (e.count.zeroExtend 64) }))

/-- An ST to event line i (R187). -/
def State.eventStore (s : State) (i : Nat) (v : Word64) : Act :=
  let k := clusterOf s.curCore
  let e := (s.cluster k).event i
  let n : Word32 := v.truncate 32
  let c : Word32 := if v.getLsbD 63 then n else if e.count.toNat + n.toNat < 2 ^ 32 then e.count + n else BitVec.allOnes 32
  .ok (serveLine k i e.queue.length (s.modCluster k (fun x => x.setEvent i { e with count := c })))

/-- event_line_write(i, v) (R185 to R187). -/
def State.lineWrite (s : State) (i : Nat) (v : Word64) : Act :=
  if i < 8 then s.barrierStore i v else if i < 16 then s.mutexStore i v else s.eventStore i v

/-- event_line_read(i) into register d (R185 to R187). -/
def State.lineRead (s : State) (i : Nat) (d : Reg) : Act :=
  let k := clusterOf s.curCore
  let give (t : State) (v : Word64) : Act := .ok (t.modMe (fun x => x.setS d.val v false))
  if i < 8 then give s ((s.cluster k).barrier i).word
  else if i < 16 then
    let m := (s.cluster k).mutex i
    match m.owner with
    | none => give (s.modCluster k (fun x => x.setMutex i { m with owner := some (sliceOf s.curCore, s.curCtx) })) 0
    | some _ => give s m.word
  else
    match s.me.held with
    | .eventLineDone _ v => give s v
    | .eventLine _ => .error (.wait s (some (8, 8 * i)))
    | _ =>
      let e := (s.cluster k).event i
      if e.queue = [] ∧ e.count ≠ 0 then
        give (s.modCluster k (fun x => x.setEvent i { e with count := e.count - 1 })) (e.count.zeroExtend 64)
      else
        .error (.wait ((s.modCluster k (fun x => x.setEvent i
          { e with queue := e.queue ++ [(sliceOf s.curCore, s.curCtx)] })).hold (.eventLine i)) (some (8, 8 * i)))

end Sys2Proof.Machine
end

