-- ==== Sys2Proof/Machine/Holds.lean ====
section
/-! DEFINITION. Tagged accesses under way: the test of a line and the change of its tags are atomic against every other access
that observes or sets its tags, although a command moves the line's bytes one unit after another (R129, R130, R132). Which lines
are held follows from where each command stands. -/

namespace Sys2Proof.Machine

open Sys2Proof

/-- Whether a command's work has ended. -/
def Prog.over : Prog → Bool
  | .ended .. => true
  | _ => false

/-- The destination core of a copy or send, if the rank names one. -/
def State.destOf (s : State) (c : Nat) (p : PgeCmd) : Option Nat :=
  match s.teamOf c with
  | some t => if p.va.toNat < t.width * t.height then some (t.coreOf p.va.toNat) else none
  | none => none

/-- Whether a command is a copy or a send. -/
def isCopy : Instr → Bool
  | .cpy _ | .sendD _ | .sendP _ | .sendI _ => true
  | _ => false

/-- Whether a matrix command has begun and not ended. -/
def MxCmd.begun (m : MxCmd) : Bool :=
  match m.phase with
  | .running | .suspended => true
  | _ => false

/-- Whether a command observes tags, and whether it changes them. -/
def MxCmd.tags (m : MxCmd) : Bool × Bool :=
  match m.ins with
  | .mmul x => (x.tg, x.tg && !x.k)
  | .mcorr x => (x.tg, x.tg && !x.k)
  | .msplit x => (x.tg, x.tg && !x.k)
  | _ => (false, false)

/-- The local line of its own core that a put-and-get command is reading under tags: its test has been passed and U is not yet
changed. -/
def PgeCmd.lineRead (p : PgeCmd) : Option Nat :=
  if p.prog.over || !p.tagged then none
  else
    match p.ins with
    | .put x | .gristScatter x => if x.t && !x.k then some (lineOf x.lsp (p.vb.toNat + 8 * p.pos)) else none
    | .cpy x | .sendD x | .sendP x =>
      if x.t && !x.k then some (lineOf x.lsp (p.vb.toNat + 8 * (p.pos + p.buffer.length))) else none
    | .sendI x => if x.t && !x.k then some (lineOf x.lsp (p.vb.toNat + 8 * p.pos)) else none
    | _ => none

/-- The local line of its own core that it is writing under tags. -/
def PgeCmd.lineWritten (p : PgeCmd) : Option Nat :=
  if p.prog.over || !p.tagged then none
  else
    match p.ins with
    | .get x | .grist x => if x.t && !x.k then some (lineOf x.lsp (p.vb.toNat + 8 * p.pos)) else none
    | _ => none

/-- The line of its destination core that a copy or send is writing under tags. -/
def PgeCmd.lineSent (p : PgeCmd) : Option Nat :=
  if p.prog.over || !p.dtagged then none
  else
    match p.ins with
    | .cpy x | .sendD x | .sendP x => if x.dt && !x.dk then some (lineOf x.dsp (p.vc.toNat + 8 * p.pos)) else none
    | _ => none

/-- Whether a matrix command holds a line of its own core: it has met the line's tag condition and not yet changed the tags, those of
A as a reader and those of C as a writer (R200). -/
def MxCmd.holds (m : MxCmd) (l : Nat) (write : Bool) : Bool :=
  m.begun && m.tags.2 && m.seen.contains l && (write || decide (320 ≤ l))

/-- Whether a tagged access under way keeps line l of core d from another one, `me` by core and number (0 for an instruction's own
access): a writer keeps readers and writers out, a reader writers (R129). -/
def State.lineHeld (s : State) (d l : Nat) (write : Bool) (me : Nat × Nat) : Bool :=
  let x := s.core d
  x.pge.any (fun q => decide ((d, q.id) ≠ me) && (decide (q.lineWritten = some l) || write && decide (q.lineRead = some l))) ||
  x.mx.any (fun m => decide ((d, m.id) ≠ me) && m.holds l write) ||
  s.cores.any (fun e => e.2.pge.any (fun q =>
    decide ((e.1, q.id) ≠ me) && decide (q.lineSent = some l) && decide (s.destOf e.1 q = some d)))

/-- Whether a tagged read of a line may begin, and a tagged write (R129). -/
def State.mayRead (s : State) (d l : Nat) (me : Nat × Nat) : Bool := ((s.core d).tag l).readable && !s.lineHeld d l false me
def State.mayWrite (s : State) (d l : Nat) (me : Nat × Nat) : Bool := ((s.core d).tag l).writable && !s.lineHeld d l true me

/-- The access that is an instruction's own. -/
def State.self (s : State) : Nat × Nat := (s.curCore, 0)

/-- An access that does not wait for tags waits until no tagged access is under way at the line (DEDUCED, log 126). -/
def lineFree (s : State) (l : Nat) (write : Bool) : Except Stop Unit :=
  if s.lineHeld s.curCore l write s.self then .error (.wait s none) else .ok ()

end Sys2Proof.Machine
end

