-- ==== Sys2Proof/Machine/LocalStore.lean ====
section
/-! DEFINITION. Scalar accesses to the local store: LD, ST, LDS, TAG and RECV (R129 to R134, R182, R264, R375, R376, R397,
R398, R411, R412). -/

namespace Sys2Proof.Machine

open Sys2Proof

/-- The object of a wait at a local line (R302, kind 7): the space, and the address of the access in the line (DESIGN CHOICE,
log 88: R131 and R302 do not say whether the line's first address stands there). -/
def lineObj (sp : Space) (e : Nat) : Option (Nat × Nat) := some (7, spaceCode sp * 2 ^ 16 + e)

/-- Marks a line spent: U := 1 (R129). -/
def Core.markSpent (x : Core) (l : Nat) : Core := x.setTag l { x.tag l with u := true }

/-- Marks a line full: V := 1, U := 0 (R129). -/
def Core.markFull (x : Core) (l : Nat) : Core := x.setTag l { x.tag l with v := true, u := false }

/-- A load of n bytes at e from W, A or C (R375). -/
def State.loadLocal (s : State) (n : Nat) (sx tg k : Bool) (d : Reg) (sp : Space) (e : Nat) : Act := do
  if tg && !k then noDrain s sp e n
  if tg && !s.mayRead s.curCore (lineOf sp e) s.self then .error (.wait s (lineObj sp e))
  noPoison s.home sp e n
  let v := extend sx n (s.home.ld sp e n)
  let s := if tg && !k then s.modHome (fun x => x.markSpent (lineOf sp e)) else s
  .ok (s.modMe (fun x => x.setS d.val v false))

/-- LD (R375). -/
def execLd (sz : Size) (sx tg k : Bool) (d : Reg) (m : MemArg) (s : State) : Out :=
  finish s (s.me.pc + 8) (do
    need s.me m.base.val
    let e := s.me.localAddr m
    localCheck m.sp e (sizeOf' sz) (sizeOf' sz)
    if m.sp = .e then s.lineRead (e / 8) d else s.loadLocal (sizeOf' sz) sx tg k d m.sp e)

/-- A store of n bytes at e to W, A or C (R411). -/
def State.storeLocal (s : State) (n : Nat) (tg k : Bool) (v : Word64) (sp : Space) (e : Nat) : Act := do
  noDrain s sp e n
  if tg && !s.mayWrite s.curCore (lineOf sp e) s.self then .error (.wait s (lineObj sp e))
  .ok (s.modHome (fun x =>
    let y := x.st sp e n v.toNat
    if tg && !k then y.markFull (lineOf sp e) else y))

/-- ST (R411). -/
def execSt (sz : Size) (tg k : Bool) (d : Reg) (m : MemArg) (s : State) : Out :=
  finish s (s.me.pc + 8) (do
    needAll s.me [m.base.val, d.val]
    let e := s.me.localAddr m
    localCheck m.sp e (sizeOf' sz) (sizeOf' sz)
    if m.sp = .e then s.lineWrite (e / 8) (s.me.sv d.val) else s.storeLocal (sizeOf' sz) tg k (s.me.sv d.val) m.sp e)

/-- LDS: a deferred base, a bad address or an empty line sets D, without a wait (R131, R182, R376). A tagged one that would change U of
a line still to be drained waits for the drain (R279), and a tagged one for a tagged write of the line under way (R129). -/
def execLds (sz : Size) (sx tg k : Bool) (d : Reg) (m : MemArg) (s : State) : Out :=
  finish s (s.me.pc + 8) (
    let n := sizeOf' sz
    let e := s.me.localAddr m
    let l := lineOf m.sp e
    if s.me.dbit m.base.val = true ∨ limitOf m.sp < e + n ∨ e % n ≠ 0 ∨
        (tg = true ∧ (s.home.tag l).readable = false) then
      .ok (s.modMe (fun x => x.setS d.val 0 true))
    else
      do
        if tg && !k then noDrain s m.sp e n
        if tg then lineFree s l false
        noPoison s.home m.sp e n
        let v := extend sx n (s.home.ld m.sp e n)
        let s := if tg && !k then s.modHome (fun x => x.markSpent l) else s
        .ok (s.modMe (fun x => x.setS d.val v false)))

/-- The checks that the four TAG operations share (R412). -/
def tagCheck (sz : Size) (m : MemArg) (s : State) : Except Stop Unit := do
  need s.me m.base.val
  localCheck m.sp (s.me.localAddr m) (sizeOf' sz) (sizeOf' sz)

/-- TAG.test: V, U and P of the line (R412). -/
def execTagTest (sz : Size) (d : Reg) (m : MemArg) (s : State) : Out :=
  finish s (s.me.pc + 8) (do
    tagCheck sz m s
    let t := s.home.tag (lineOf m.sp (s.me.localAddr m))
    .ok (s.modMe (fun x => x.setS d.val ((tagByte t).zeroExtend 64) false)))

/-- The set operations of TAG: V and U of a line, P unchanged (R412). -/
def setsTag (v u : Bool) (sz : Size) (m : MemArg) (s : State) : Out :=
  finish s (s.me.pc + 8) (do
    tagCheck sz m s
    noDrain s m.sp (s.me.localAddr m) (sizeOf' sz)
    lineFree s (lineOf m.sp (s.me.localAddr m)) true
    .ok (s.modHome (fun x =>
      let l := lineOf m.sp (s.me.localAddr m)
      x.setTag l { x.tag l with v := v, u := u })))

/-- TAG.empty (R412). -/
def execTagEmpty (sz : Size) (m : MemArg) (s : State) : Out := setsTag false false sz m s
/-- TAG.full (R412). -/
def execTagFull (sz : Size) (m : MemArg) (s : State) : Out := setsTag true false sz m s
/-- TAG.spent (R412). -/
def execTagSpent (sz : Size) (m : MemArg) (s : State) : Out := setsTag true true sz m s

/-! The inbox (R263, R264). -/

/-- Size of the ring in bytes, and its first local address. -/
def Inbox.size (b : Inbox) : Nat := 256 * b.lines.toNat
def Inbox.start (b : Inbox) : Nat := 256 * b.base.toNat

/-- A record's header (R263, R409). -/
def inboxHeader (kind units rank : Nat) : Nat := kind + units * 2 ^ 8 + rank * 2 ^ 16

/-- Consumes the PADs at HEAD: HEAD := 0, and USED falls by the PAD's size (R398). -/
def skipPads : (fuel : Nat) → Core → Core
  | 0, x => x
  | f + 1, x =>
    let b := x.inbox
    if b.used = 0 then x
    else
      let h := x.ld .a (b.start + b.head.toNat) 8
      if bits h 7 0 ≠ 0 then x
      else skipPads f { x with inbox := { b with used := b.used - BitVec.ofNat 16 (8 + 8 * bits h 15 8), head := 0 } }

/-- The lines of a local extent. -/
def linesOf (sp : Space) (e n : Nat) : List Nat :=
  if n = 0 then [] else upFrom (lineOf sp e) (lineOf sp (e + n - 1) - lineOf sp e + 1)

/-- Clears P of the lines that a write of n bytes of clean data by one command covers whole (R134). -/
def Core.cleanLines (x : Core) (sp : Space) (a n : Nat) : Core :=
  (linesOf sp a n).foldl (fun y l =>
    if a ≤ lineAddr l ∧ lineAddr l + 256 ≤ a + n ∧ (y.tag l).p = true then y.setTag l { y.tag l with p := false } else y) x

/-- RECV (R264, R397, R398). The record is read whole before anything is written. -/
def execRecv (sz : Size) (sx tg k : Bool) (d base : Reg) (off : BitVec 16) (s : State) : Out :=
  finish s (s.me.pc + 8) (do
    need s.me base.val
    let e := s.me.localAddr { sp := .a, base := base, off := off }
    let t := s.modHome (skipPads 2)
    let x := t.home
    let b := x.inbox
    if b.used = 0 then .error (.wait t (some (11, 0)))
    let r := b.start + b.head.toNat
    let n := 8 * bits (x.ld .a r 8) 15 8
    localCheck .a e 8 8
    localCheck .a (e + 8) n 8
    noPoison x .a r (8 + n)
    noDrain t .a e (8 + n)
    if tg then noPoison x .a e (8 + n)
    match (linesOf .a e (8 + n)).find? (fun l => !t.mayWrite t.curCore l t.self) with
    | some l => if tg then .error (.wait t (lineObj .a (max e (lineAddr l))))
    | none => pure ()
    let v := extend sx (sizeOf' sz) (x.ld .a (r + 8) (sizeOf' sz))
    let t := t.modHome (fun x =>
      let y := (x.stBytes .a e (x.a.read r (8 + n))).cleanLines .a e (8 + n)
      let y := if tg && !k then (linesOf .a e (8 + n)).foldl (fun y l => y.markFull l) y else y
      { y with inbox := { b with head := BitVec.ofNat 15 ((b.head.toNat + 8 + n) % b.size),
                                 used := b.used - BitVec.ofNat 16 (8 + n) } })
    .ok (t.modMe (fun x => x.setS d.val v false)))

end Sys2Proof.Machine
end

