-- ==== Sys2Proof/Machine/MatrixReads.lean ====
section
/-! DEFINITION. The operands of matrix commands: the fields of their descriptors, where their vectors and outputs lie, and the
lines that a command under way has still to read (R198, R207 to R212, R276). -/

namespace Sys2Proof.Machine

open Sys2Proof

/-! Descriptors. -/

/-- Fields of MCORR's descriptor. -/
def corrD (img : List Byte) : Word32 := BitVec.ofNat 32 (leNat (img.take 4))
def corrA (img : List Byte) : Word32 := BitVec.ofNat 32 (leNat ((img.drop 4).take 4))
def corrFirst (img : List Byte) : Nat := leNat ((img.drop 8).take 3)
def corrRows (img : List Byte) : Nat := leNat ((img.drop 11).take 2)

/-- The fields that an MSPLIT works with: of its descriptor, of the header and of the map bound at issue. -/
def splitHeat (img : List Byte) : Nat := leNat (img.take 8)
def splitWaddr (img : List Byte) : Nat := leNat ((img.drop 8).take 8)
def splitTau (img : List Byte) : Nat := leNat ((img.drop 16).take 4)
def splitK (img : List Byte) : Nat := leNat ((img.drop 20).take 1)
def splitRows (img : List Byte) : Nat := leNat ((img.drop 32).take 4)
def splitMapAddr (img : List Byte) : Nat := leNat ((img.drop 48).take 8)

/-- Bytes of a row map's doublewords. -/
def mapBytes (rows : Nat) : Nat := 8 * ceilDiv rows 64

/-- Whether row r is hot in the bound map. -/
def splitHot (img : List Byte) (r : Nat) : Bool := ((img.getD (96 + r / 8) 0).toNat).testBit (r % 8)

/-- The hot rows in order; the placement of the i-th is byte i of the placement list. -/
def splitHots (img : List Byte) : List Nat := (upFrom 0 (splitRows img)).filter (splitHot img)
def splitPlace (img : List Byte) (i : Nat) : Nat := (img.getD (96 + mapBytes (splitRows img) + i) 0).toNat % 128

/-! Layouts (R195, R198). -/

/-- Offset of a vector's metadata from its first byte. -/
def metaOffset (ty : ElemType) (k : Nat) : Nat := (ceilDiv (k * ty.bits) 8 + 7) / 8 * 8

/-- N, K and L of an MMUL in a geometry (R191, R198). -/
def mmulOutputs (x : MmulArgs) (deep : Bool) : Nat := outputsOf deep x.gang
def mmulInputs (x : MmulArgs) (deep : Bool) : Nat := x.ksteps.toNat * depthOf deep x.gang
def mmulLen (x : MmulArgs) (deep : Bool) : Nat := vectorLen x.at' x.grp (mmulInputs x deep)

/-- The first C address and the byte count of a command's outputs. -/
def MxCmd.outputs (m : MxCmd) : Nat × Nat :=
  match m.ins with
  | .mmul x => (m.vb.toNat, 4 * mmulOutputs x m.deep * x.nvec.toNat)
  | .mcorr x => (m.vb.toNat, 4 * corrRows m.img * x.nvec.toNat)
  | .msplit x => (m.vb.toNat, 4 * splitRows m.img * x.nvec.toNat)
  | _ => (0, 0)

/-- Lines of A that a command's vectors take, of K inputs. -/
def vectorLines (m : MxCmd) (ty : ElemType) (nvec stride k : Nat) : List Nat :=
  unionNat [] ((upFrom 0 nvec).flatMap (fun v => linesOf .a (m.va.toNat + v * stride) (vectorLen ty .none k)))

/-- Units of outputs of an MSPLIT. -/
def splitUnits (m : MxCmd) (x : MsplitArgs) : Nat := ceilDiv (splitRows m.img * x.nvec.toNat) 2

/-! What is still to be read (R200, R276). -/

/-- Bytes of a vector that k-steps from j on still read: elements and metadata, as intervals from its first byte. -/
def restOf (x : MmulArgs) (deep : Bool) (j : Nat) : List (Nat × Nat) :=
  let k := mmulInputs x deep
  let p := j * depthOf deep x.gang
  let e := (k * x.at'.bits + 7) / 8
  let data := (p * x.at'.bits / 8, e)
  let m := metaOffset x.at' k
  if isNarrow x.at' then [data, (m + p / 32, m + ceilDiv k 32)]
  else if grpElems x.grp ≠ 0 then [data, (m + 4 * (p / grpElems x.grp), m + 4 * ceilDiv k (grpElems x.grp))]
  else [data]

/-- Lines of A that vector v still reads from k-step j on. -/
def restLines (m : MxCmd) (x : MmulArgs) (j v : Nat) : List Nat :=
  if x.ksteps.toNat ≤ j then []
  else (restOf x m.deep j).flatMap (fun r => linesOf .a (m.va.toNat + v * x.stride.toNat + r.1) (r.2 - r.1))

/-- Whether k-step j of an MMUL adds to outputs that are in C: with ACC, or after the first term (R199). -/
def readsBack (m : MxCmd) (x : MmulArgs) (j : Nat) : Bool :=
  let g := grpElems x.grp
  x.acc || (if g = 0 then decide (0 < j) else decide (g ≤ j * depthOf m.deep x.gang))

/-- Lines of A that a command has still to read. `k` is its inputs per vector. -/
def MxCmd.readsA (m : MxCmd) (k : Nat) : List Nat :=
  match m.ins with
  | .mmul x =>
    let nv := x.nvec.toNat
    (upFrom 0 nv).flatMap (fun v => restLines m x (if m.pos % nv ≤ v then m.pos / nv else m.pos / nv + 1) v)
  | .mcorr x =>
    (upFrom 0 x.nvec.toNat).flatMap (fun v => if 2 * m.pos < corrRows m.img * (v + 1)
      then linesOf .a (m.va.toNat + v * x.stride.toNat) (vectorLen x.ty .none k) else [])
  | .msplit x =>
    (upFrom 0 x.nvec.toNat).flatMap (fun v => if 2 * m.pos < splitRows m.img * (v + 1)
      then linesOf .a (m.va.toNat + v * x.stride.toNat) (vectorLen x.ty .none k) else [])
  | _ => []

/-- Lines of C that a command has still to read: the old values and partial sums that it adds to, and what the join of an MSPLIT
compares. -/
def MxCmd.readsC (m : MxCmd) : List Nat :=
  match m.ins with
  | .mmul x =>
    let nv := x.nvec.toNat
    let n := mmulOutputs x m.deep
    let last := x.ksteps.toNat - 1
    if readsBack m x last then
      (upFrom 0 nv).flatMap (fun v => if m.pos < last * nv + v + 1 then linesOf .c (m.vb.toNat + 4 * n * v) (4 * n) else [])
    else []
  | .mcorr _ => linesOf .c (m.vb.toNat + 8 * m.pos) (m.outputs.2 - 8 * m.pos)
  | .msplit x =>
    let rows := splitRows m.img
    let r := m.pos - splitUnits m x - 1
    (upFrom 0 x.nvec.toNat).flatMap (fun v => linesOf .c (m.vb.toNat + 4 * (rows * v + r)) (4 * (rows - r)))
  | _ => []

end Sys2Proof.Machine
end

