-- ==== Sys2Proof/Machine/Control.lean ====
section
/-! DEFINITION. Control flow and the ends of contexts: branches, calls, indirect jumps, CHK, TRAP, RFE, YIELD and EXIT
(R71, R91, R92, R96, R183, R296, R299, R347, R348, R359, R372, R402, R403, R415, R441). -/

namespace Sys2Proof.Machine

open Sys2Proof

/-- BR (R347). -/
def execBr (off : BitVec 32) (s : State) : Out := finish s (branchTarget s.me.pc off) (.ok s)

/-- BRC (R347). -/
def execBrc (k : Cond) (a b : Reg) (off : BitVec 32) (s : State) : Out :=
  finish s (if condInt k (s.me.sv a.val) (s.me.sv b.val) then branchTarget s.me.pc off else s.me.pc + 8) (do
    needAll s.me [a.val, b.val]
    .ok s)

/-- CALL (R347). -/
def execCall (off : BitVec 32) (s : State) : Out :=
  finish s (branchTarget s.me.pc off) (.ok (s.modMe (fun x => x.setS 31 (x.pc + 8) false)))

/-- A target held in a register must be a multiple of 4 (R71). -/
def targetOk (t : Word64) : Except Stop Unit := aligned t 4

/-- RET (R402). -/
def execRet (a : Reg) (s : State) : Out :=
  finish s (s.me.sv a.val) (do
    need s.me a.val
    targetOk (s.me.sv a.val)
    .ok s)

/-- JMPR: the target is read before d is written (R372). -/
def execJmpr (d a : Reg) (s : State) : Out :=
  finish s (s.me.sv a.val) (do
    need s.me a.val
    targetOk (s.me.sv a.val)
    .ok (s.modMe (fun x => x.setS d.val (x.pc + 8) false)))

/-- CHK: branches on a D bit and never applies need() (R183, R348). -/
def execChk (a b : Reg) (off : BitVec 32) (s : State) : Out :=
  finish s (if s.me.dbit a.val || s.me.dbit b.val then branchTarget s.me.pc off else s.me.pc + 8) (.ok s)

/-- TRAP n (R296, R415). -/
def execTrap (n : BitVec 16) (s : State) : Out :=
  finish s (s.me.pc + 8) (.error (.trap causeTrap (n.zeroExtend 64)))

/-- A privileged instruction's check (R69). -/
def needSup (x : Ctx) : Except Stop Unit := if x.sup then .ok () else .error (.trap causePriv x.pc)

/-- RFE (R71, R296, R403). -/
def execRfe (s : State) : Out :=
  finish s s.me.epc (do
    needSup s.me
    targetOk s.me.epc
    .ok (s.modMe Ctx.leave))

/-! YIELD (R91, R92, R99, R441). -/

/-- A new window, the YIELD counted in the old one (R91). -/
def Ctx.window (x : Ctx) (budget : BitVec 8) : Ctx :=
  { x with budget := budget, left := budget.zeroExtend 16 * 256, parked := none }

/-- The context continues past its YIELD. -/
def Ctx.passYield (x : Ctx) (budget : BitVec 8) : Ctx := (x.complete (x.pc + 8)).window budget

/-- The counter of the put-and-get command of a number, for a STALL that names it (R340). -/
def Core.counterOf (x : Core) (id : Nat) : Nat :=
  match x.pge.find? (fun p => p.id = id) with
  | some p => ctOf p.ins
  | none => 0

/-- Whether a core's team is failing: its commands that have sent requests complete (R304 step 2). -/
def State.failing (s : State) (c : Nat) : Bool :=
  match s.teamOf c with
  | some t => (match t.phase with | .failing .. => true | _ => false)
  | none => false

/-- Whether the scheduler is taking the team of the context that runs, and a YIELD may park (R309). -/
def State.taking (s : State) : Bool :=
  !s.me.nest && (match s.teamOf s.curCore with | some t => t.take | none => false)

/-- Whether a live context counts as parked: at a YIELD, or asleep outside a handler (R99, R309, R330). -/
def Ctx.rests (x : Ctx) : Bool :=
  !x.live || x.parked.isSome || (!x.nest && (match x.held with | .asleep _ => true | _ => false))

/-- Whether every live context of a member counts as parked, and some context is live (R99). -/
def Core.rests (x : Core) : Bool := x.ctxs.any (fun e => e.2.live) && x.ctxs.all (fun e => e.2.rests)

/-- A team that the scheduler is taking keeps the cycle at which its first member came to rest (R99). -/
def State.noteRest (s : State) : State :=
  match s.teamOf s.curCore with
  | some t =>
    if t.take && s.home.rests then s.modTeam t.id (fun x => { x with takeSince := some (x.takeSince.getD s.cycle) }) else s
  | none => s

/-- The context parks: its repetition stops (R178). -/
def State.park (s : State) (mask : Word32) (budget : BitVec 8) : State :=
  (s.modMe (fun x => { x with
    parked := some { mask := mask, budget := budget }
    rep := { x.rep with stopped := x.rep.active, waitSince := none } })).noteRest

/-- YIELD: waits for reserved registers, delivers records, parks when the team is being taken, or opens a window. -/
def execYield (mask : BitVec 32) (budget : BitVec 8) (s : State) : Out :=
  match s.me.reserved with
  | (_, id) :: _ => finish s (s.me.pc + 8) (.error (.wait s (some (1, s.home.counterOf id))))
  | [] =>
    match deliverOldest s (fun r => r.ctx = s.curCtx) with
    | .error e => finish s (s.me.pc + 8) (.error e)
    | .ok _ =>
      if s.taking then finish s (s.me.pc + 8) (.error (.wait (s.park mask budget) none))
      else .next (s.modMe (fun x => x.passYield budget))

/-! EXIT (R90, R96, R359). -/

/-- The context ends: it is not live, and its claim is released. -/
def Ctx.ends (x : Ctx) : Ctx :=
  { x with live := false, left := x.counted, waitSince := none, waitObj := none, held := .none, vcount := 0, vreq := 0,
           vregs := [], rep := { x.rep with active := false, cnt := 0 }, reserved := [] }

/-- A helper ends with an exit value, and entries that waited for it may start their helpers (R96, R265). -/
def State.endHelper (s : State) (v : Word64) : State :=
  (s.modHome (fun c => startFired (s.teamSup s.curCore) c.starts.length
    (c.modCtx s.curCtx (fun x => { x.ends with exitVal := v })))).noteRest

/-- h0 ends the core's part: held phased sends are released (R90), and the claim (R359). -/
def State.endControl (s : State) : State :=
  s.modHome (fun c => ({ c with pge := c.pge ++ c.sendq, sendq := [], exited := true } : Core).modCtx 0 Ctx.ends)

/-- The lowest live helper of a core. -/
def Core.liveHelper (x : Core) : Option Nat := (upFrom 1 10).find? (fun h => (x.ctx h).live)

/-- Number and counter of the oldest engine command of a core that has not completed; a phased send that the send queue
holds is released by EXIT itself and is not waited for (R90, R359). -/
def State.oldestCommand (s : State) (c : Nat) : Option (Nat × Nat) :=
  let x := s.core c
  let all := x.pge.map (fun p => (p.id, ctOf p.ins)) ++ x.mx.map (fun p => (p.id, ctOf p.ins)) ++
    (s.sys.lin.filter (fun l => l.core = c)).map (fun l => (l.id, ctOf l.ins))
  all.foldl (fun o e => match o with | some m => if e.1 < m.1 then some e else some m | none => some e) none

/-- EXIT (R359). -/
def execExit (a : Reg) (s : State) : Out :=
  match need s.me a.val with
  | .error e => finish s s.me.pc (.error e)
  | .ok _ =>
    if s.curCtx ≠ 0 then
      match deliverOldest s (fun r => r.ctx = s.curCtx) with
      | .error e => finish s s.me.pc (.error e)
      | .ok _ => .next (s.endHelper (s.me.sv a.val))
    else
      match s.home.liveHelper with
      | some h => finish s s.me.pc (.error (.wait s (some (5, h))))
      | none =>
        match s.oldestCommand s.curCore with
        | some (_, ct) => finish s s.me.pc (.error (.wait s (some (1, ct))))
        | none =>
          match deliverOldest s (fun r => r.ctx = 0 || !(s.home.ctx r.ctx).live) with
          | .error e => finish s s.me.pc (.error e)
          | .ok _ => .next s.endControl

end Sys2Proof.Machine
end

