-- ==== Sys2Proof/Machine/Contexts.lean ====
section
/-! DEFINITION. Helpers, phases and votes, counter waits, sleeping, neighbour reads, the waiting-task table, predicates,
guards and counters (R86 to R97, R174, R179, R215, R216, R240 to R243, R265, R330, R351, R358, R367, R370, R386, R392,
R393, R410, R413, R437, R438). -/

namespace Sys2Proof.Machine

open Sys2Proof

/-- A scalar result with its D bit clear. -/
def State.give (s : State) (d : Reg) (v : Word64) : State := s.modMe (fun x => x.setS d.val v false)

/-! Helpers (R95, R97, R370). -/

/-- The status of HSTART: the first of 3, 2, 4 and 1 that holds, otherwise 0 (R95). -/
def State.hstartStatus (s : State) (a b : Word64) : Nat :=
  if s.curCtx ≠ 0 then 3
  else if a.toNat < 1 ∨ 10 < a.toNat then 2
  else if b.toNat % 4 ≠ 0 then 4
  else if (s.home.ctx a.toNat).live then 1
  else 0

/-- HSTART (R95). -/
def execHstart (d a b c : Reg) (s : State) : Out :=
  finish s (s.me.pc + 8) (do
    needAll s.me [a.val, b.val, c.val]
    let x := s.me
    let st := s.hstartStatus (x.sv a.val) (x.sv b.val)
    let t := if st = 0 then
        s.modCtx s.curCore (x.sv a.val).toNat (fun y => freshCtx y (x.sv b.val) (x.sv c.val) (s.teamSup s.curCore))
      else s
    .ok (t.give d (w64 st)))

/-- HJOIN (R97). -/
def execHjoin (d a : Reg) (s : State) : Out :=
  finish s (s.me.pc + 8) (do
    need s.me a.val
    let i := (s.me.sv a.val).toNat
    if s.curCtx ≠ 0 ∨ i < 1 ∨ 10 < i then .ok (s.give d 0)
    else if (s.home.ctx i).live then .error (.wait s (some (5, i)))
    else .ok (s.give d (s.home.ctx i).exitVal))

/-! Phases and votes (R84 to R90, R393, R394, R437). -/

/-- The number of a level. -/
def levelNum : Level → Nat
  | .l1 => 1
  | .l2 => 2
  | .l3 => 3

/-- PHASE and VOTE belong to h0 (R86) and wait for a running repetition (R394). -/
def phaseCheck (s : State) : Except Stop Unit := do
  if s.curCtx ≠ 0 then .error (.trap causeProt 0)
  if s.me.rep.active then .error (.wait s (some (10, 0)))

/-- Opens the communication phase: held sends go into the mesh in issue order (R87). -/
def Core.openPhase (x : Core) : Core :=
  { x with pge := x.pge ++ x.sendq, sendq := [], phase := { x.phase with open' := true } }

/-- PHASE.c (R87, R393). The level has no further effect. -/
def execPhaseC (_n : Level) (s : State) : Out :=
  finish s (s.me.pc + 8) (do
    phaseCheck s
    deliverOldest s (fun r => r.ctx = 0)
    .ok (s.modHome Core.openPhase))

/-- Arrivals of a core at a level. -/
def Phase.count (p : Phase) : Level → BitVec 16
  | .l1 => p.n1
  | .l2 => p.n2
  | .l3 => p.n3

/-- One more arrival at a level. -/
def Phase.counted (p : Phase) : Level → Phase
  | .l1 => { p with n1 := p.n1 + 1 }
  | .l2 => { p with n2 := p.n2 + 1 }
  | .l3 => { p with n3 := p.n3 + 1 }

/-- Whether an arrival is that of PHASE.x or VOTE with an operation at a level and an address (R302). -/
def Arrival.of (a : Arrival) (n : Level) (op : Option VoteOp) (pc : Word64) : Bool :=
  decide (a.level = n ∧ a.op = op ∧ a.pc = pc)

/-- The arrival of an instruction: the phase opened first, the level counted (R88). -/
def Core.arrive (x : Core) (n : Level) (op : Option VoteOp) (v pc : Word64) : Core :=
  let y := x.openPhase
  let p := y.phase.counted n
  { y with phase := { p with arrivals := p.arrivals ++
      [{ level := n, op := op, val := v, k := p.count n, pc := pc, before := y.nextId }] } }

/-- The core without the arrival of an instruction. -/
def Core.returned (x : Core) (n : Level) (op : Option VoteOp) (pc : Word64) : Core :=
  { x with phase := { x.phase with arrivals := x.phase.arrivals.filter (fun a => !a.of n op pc) } }

/-- A claim's size in lanes: 64 at most (R171). -/
def lanesOf (n : Nat) : Fin 65 := if h : n < 65 then ⟨n, h⟩ else 64

/-- A claim keeps its lanes below n (R171, R172). -/
def Ctx.cutClaim (x : Ctx) (n : Nat) : Ctx :=
  if n < x.vcount.val then { x with vcount := lanesOf n, vregs := x.vregs.filter (fun e => e.1 % 64 < n) } else x

/-- The claims of a cluster: core, context, COUNT and REQ. -/
def State.claims (s : State) (k : Nat) : List (Nat × Nat × Nat × Nat) :=
  (upFrom 0 8).flatMap (fun i =>
    let c := coreOfSlice k i
    (upFrom 0 11).map (fun h => (c, h, ((s.core c).ctx h).vcount.val, ((s.core c).ctx h).vreq.toNat)))

/-- The claim cut at a return of PHASE.x or VOTE (R172). -/
def State.claimCut (s : State) (c : Nat) : State :=
  let all := s.claims (clusterOf c)
  (upFrom 0 11).foldl (fun t h =>
    if 16 < ((s.core c).ctx h).vcount.val ∧ all.any (fun q => (q.1 ≠ c || q.2.1 ≠ h) && decide (q.2.2.1 < q.2.2.2)) = true
    then t.modCtx c h (fun x => x.cutClaim 16)
    else t) s

/-- PHASE.x and VOTE: the arrival, made once, and the return with the combined value (R88, R89). An instruction that is
executed again, as after a STALL, waits for the arrival that it made; another one makes its own beside it (R302; DEDUCED,
log 55). -/
def State.arrival (s : State) (n : Level) (op : Option VoteOp) (v : Word64) : Except Stop (Word64 × State) := do
  phaseCheck s
  let pc := s.me.pc
  match s.home.phase.arrivals.find? (fun a => a.of n op pc) with
  | some a =>
    match a.result with
    | some r => .ok (r, (s.claimCut s.curCore).modHome (fun x => x.returned n op pc))
    | none => .error (.wait s (some (6, levelNum n)))
  | none =>
    deliverOldest s (fun r => r.ctx = 0)
    .error (.wait (s.modHome (fun x => x.arrive n op v pc)) (some (6, levelNum n)))

/-- PHASE.x (R88). -/
def execPhaseX (n : Level) (s : State) : Out :=
  finish s (s.me.pc + 8) (do
    let (_, t) ← s.arrival n none 0
    .ok t)

/-- VOTE (R89). -/
def execVote (op : VoteOp) (d a : Reg) (n : Level) (s : State) : Out :=
  finish s (s.me.pc + 8) (do
    phaseCheck s
    need s.me a.val
    let (v, t) ← s.arrival n (some op) (s.me.sv a.val)
    .ok (t.give d v))

/-- The membership register of a level (R84). -/
def Core.dom (x : Core) : Level → Word64
  | .l1 => x.dom1
  | .l2 => x.dom2
  | .l3 => x.dom3

/-- The cores of a domain, in order of rank. -/
def Team.domain (t : Team) (d : Word64) : List Nat :=
  let v := d.toNat
  (upFrom (bits v 14 8) (bits v 30 24)).flatMap (fun y =>
    (upFrom (bits v 7 0) (bits v 23 16)).map (fun x => coreAt (t.row0 + y) (t.col0 + x)))

/-- The combination of two votes, and its identity (R89). -/
def voteOp (op : VoteOp) (a b : Word64) : Word64 :=
  match op with
  | .and => a &&& b
  | .or => a ||| b
  | .sum => a + b
  | .max => if a.slt b then b else a

def voteId : VoteOp → Word64
  | .and => BitVec.allOnes 64
  | .or => 0
  | .sum => 0
  | .max => BitVec.intMin 64

/-- Whether two arrivals match: not completed, of one level and operation, and the same in count (R88, R89). -/
def Arrival.matches (a b : Arrival) : Bool :=
  decide (b.level = a.level ∧ b.op = a.op ∧ b.k = a.k ∧ b.result = none)

/-- A core's arrival that matches another's, in the same domain. -/
def Core.matching (x : Core) (a : Arrival) (dom : Word64) : Option Arrival :=
  if x.dom a.level = dom then x.phase.arrivals.find? a.matches else none

/-- Whether a member has made the arrival that matches `a`, or has exited (R90). -/
def State.matched (s : State) (a : Arrival) (dom : Word64) (m : Nat) : Bool :=
  (s.core m).exited || ((s.core m).matching a dom).isSome

/-- Whether a phased send that a member released before its arrival to a member of the domain is still under way. -/
def State.sendsOpen (s : State) (t : Team) (a : Arrival) (d : Word64) (dom : List Nat) (m : Nat) : Bool :=
  let x := s.core m
  let lim := match x.matching a d with | some b => b.before | none => x.nextId
  x.pge.any (fun p => decide (p.id < lim) &&
    (match p.ins with
    | .sendP _ => decide (p.va.toNat < t.width * t.height) && dom.contains (t.coreOf p.va.toNat)
    | _ => false))

/-- Whether every member of the domain of a core's arrival has arrived and its sends are delivered (R88). -/
def State.phaseDone (s : State) (t : Team) (c : Nat) (a : Arrival) : Bool :=
  let d := (s.core c).dom a.level
  let ms := t.domain d
  decide (a.result = none) && ms.all (s.matched a d) && !ms.any (s.sendsOpen t a d ms)

/-- The combined value of the arrivals that match `a` among members; an exited member's is the identity (R89, R90). -/
def State.combined (s : State) (a : Arrival) (d : Word64) (ms : List Nat) : Word64 :=
  match a.op with
  | none => 0
  | some op => ms.foldl (fun v m =>
      match (s.core m).exited, (s.core m).matching a d with
      | false, some b => voteOp op v b.val
      | _, _ => voteOp op v (voteId op)) (voteId op)

/-- A member's arrival that matches `a` completes with the combined value, and the core enters a compute phase. -/
def Core.completes (x : Core) (a : Arrival) (v : Word64) : Core :=
  if x.exited then x
  else
    { x with phase := { x.phase with
      open' := false
      arrivals := x.phase.arrivals.map (fun b => if a.matches b then { b with result := some v } else b) } }

/-! Counter waits (R240 to R242). -/

/-- WAITC.le ol (R240). -/
def execWaitcLeOl (n : BitVec 16) (s : State) : Out :=
  finish s (s.me.pc + 8) (if s.me.ol.ule n then .ok s else .error (.wait s (some (2, 0))))

/-- WAITC.le os (R240). -/
def execWaitcLeOs (n : BitVec 16) (s : State) : Out :=
  finish s (s.me.pc + 8) (if s.me.os.ule n then .ok s else .error (.wait s (some (2, 1))))

/-- CNTSET, after which the waiting-task table tests its entries (R242, R265, R351). -/
def execCntset (ct : Cnt) (v : BitVec 32) (s : State) : Out :=
  finish s (s.me.pc + 8) (.ok (s.modHome (fun x => (x.setCounter ct.val v).fireEntries ct.val (s.teamSup s.curCore))))

/-! The waiting-task table (R265, R358). -/

/-- Entry e holds nothing. -/
def Core.unarm (x : Core) (e : Nat) : Core :=
  { x with wtt := x.wtt.erase e, starts := x.starts.filter (fun p => p.entry ≠ e) }

/-- Entry e is armed. -/
def Core.arm (x : Core) (e : Nat) (w : WttEntry) : Core := { x with wtt := x.wtt.put e w }

/-- EVSIG: arms entry e, tested at once, or disarms it with h = 0. Either replaces what the entry held, a fired start that
waits for its helper included (R358; DEDUCED, log 107). -/
def execEvsig (e : Fin 8) (ct : Cnt) (a : Reg) (off : BitVec 32) (h : Fin 11) (s : State) : Out :=
  finish s (s.me.pc + 8) (
    if h.val = 0 then .ok (s.modHome (fun x => x.unarm e.val))
    else do
      need s.me a.val
      let entry : WttEntry := { ct := ct.val, threshold := (s.me.sv a.val).truncate 32,
                                target := branchTarget s.me.pc off, helper := h.val }
      .ok (s.modHome (fun x => ((x.unarm e.val).arm e.val entry).fireEntries ct.val (s.teamSup s.curCore))))

/-! Time (R328, R330, R410, R413). -/

/-- TIME. -/
def execTime (d : Reg) (s : State) : Out := finish s (s.me.pc + 8) (.ok (s.give d s.host.time))

/-- SLEEPT: returns once the counter is at or above sv(a), compared unsigned. -/
def execSleept (a : Reg) (s : State) : Out :=
  finish s (s.me.pc + 8) (do
    need s.me a.val
    let t := s.me.sv a.val
    if s.me.held = .awake ∨ t.ule s.host.time = true then .ok s
    else .error (.wait ((s.modMe (fun x => { x with held := .asleep t })).noteRest) none))

/-- SLEEP_WAKE: a sleeping context resumes when the counter has reached its instant (R330). -/
def execSleepWake (c h : Nat) (s : State) : Out :=
  match ((s.core c).ctx h).held with
  | .asleep t => if t.ule s.host.time then .next (s.modCtx c h (fun x => { x with held := .awake })) else .next s
  | _ => .next s

/-! Neighbour reads (R94, R386). -/

/-- The neighbour is ready: of the same team, its h0 live and not parked. -/
def State.neighbourReady (s : State) (c n : Nat) : Bool :=
  (s.core c).team.isSome && decide ((s.core n).team = (s.core c).team) &&
    ((s.core n).ctx 0).live && ((s.core n).ctx 0).parked.isNone

/-- NBRD's result. -/
def State.nbrdResult (s : State) (d : Reg) (p : Pred) (ready : Bool) (v : Word64) : State :=
  s.modMe (fun x => (x.setS d.val v false).setP p.val (if ready then BitVec.allOnes 64 else 0))

/-! Predicates (R174, R392). -/

/-- PLOG: the predicate, from two predicates or from a scalar register. -/
def execPlog (op : PlogOp) (d : Pred) (a : Fin 32) (b : Pred) (s : State) : Out :=
  finish s (s.me.pc + 8) (
    let p := s.me.pv a.val
    let q := s.me.pv b.val
    let set (v : Word64) : Act := .ok (s.modMe (fun x => x.setP d.val v))
    match op with
    | .and => set (p &&& q)
    | .or => set (p ||| q)
    | .xor => set (p ^^^ q)
    | .andn => set (p &&& ~~~q)
    | .not => set (~~~p)
    | .reg => do
      need s.me a.val
      set (s.me.sv a.val))

/-- The set bits of a predicate below COUNT, lowest first. -/
def Ctx.setBelow (x : Ctx) (p : Nat) : List Nat := (upFrom 0 x.vcount.val).filter (fun l => (x.pv p).getLsbD l)

/-- PCNT. -/
def execPcnt (mode : PcntMode) (d : Reg) (a : Pred) (s : State) : Out :=
  finish s (s.me.pc + 8) (.ok (s.give d (
    match mode with
    | .count => w64 (s.me.setBelow a.val).length
    | .lowest => w64 ((s.me.setBelow a.val).headD 64)
    | .bits => s.me.pv a.val)))

/-! Guards (R179, R367). -/

/-- GSET. -/
def execGset (g : Guard) (v : Fin 3) (s : State) : Out :=
  finish s (s.me.pc + 8) (.ok (s.setGuard s.curCore g.val (if v.val = 0 then .fls else if v.val = 1 then .tru else .pending)))

/-- GRES. -/
def execGres (g : Guard) (a : Reg) (s : State) : Out :=
  finish s (s.me.pc + 8) (do
    need s.me a.val
    .ok (s.setGuard s.curCore g.val (if s.me.sv a.val ≠ 0 then .tru else .fls)))

/-! Limits (R93, R302, R303). -/

/-- WATCHDOG: a context has issued the last instruction of its window without that instruction being a YIELD (R91). -/
def execWatchdog (c h : Nat) (s : State) : Out :=
  let x := (s.core c).ctx h
  if x.left = 0 then .next (s.failTeam causeWatchdog c x.pc 0) else .next s

/-- STALL: a wait that counts has reached YSTALL (R93, R302). -/
def execStall (c h : Nat) (s : State) : Out :=
  let x := (s.core c).ctx h
  let done := match x.held with
    | .awaitDone _ | .eventDone _ | .mutexGranted _ | .eventLineDone _ _ | .kilnDone _ => true
    | .barrier l g => decide (((s.cluster (clusterOf c)).barrier l).gen ≠ g)
    | _ => false
  match x.waitObj with
  | some (k, o) =>
    if x.live && !done && s.waitedOut x then .next (({ s with curCore := c, curCtx := h } : State).stall k o) else .next s
  | none => .next s

end Sys2Proof.Machine
end

