-- ==== Sys2Proof/Machine/Csr.lean ====
section
/-! DEFINITION. Control registers, TLBINV and ICINV (R20, R63, R82 to R85, R91 to R94, R111, R112, R119, R160, R173, R178,
R263, R270, R293, R294, R305, R306, R353, R371, R414). -/

namespace Sys2Proof.Machine

open Sys2Proof

/-! Reading (R353). -/

/-- MESHXY (R20). -/
def meshXy (c : Nat) : Word64 :=
  w64 (colOf c + rowOf c * 2 ^ 8 + dieOf c * 2 ^ 16 + clusterOf c * 2 ^ 18 + sliceOf c * 2 ^ 30)

/-- REPIDX (R178). -/
def Rep.word64 (r : Rep) : Word64 :=
  w64 (r.iter.toNat + r.word.toNat * 2 ^ 16 + r.len.toNat * 2 ^ 20 + r.stride.toNat * 2 ^ 25 + b2n r.active * 2 ^ 29 +
    r.cnt.toNat * 2 ^ 32)

/-- INBOX (R263). -/
def Inbox.word64 (b : Inbox) : Word64 :=
  w64 (b.base.toNat + b.lines.toNat * 2 ^ 8 + b.head.toNat * 2 ^ 16 + b.used.toNat * 2 ^ 32 + b.drop.toNat * 2 ^ 48)

/-- KSTAT (R270). -/
def Core.kstat (x : Core) : Word64 :=
  w64 (x.knum.toNat + x.knum.toNat % 2 * 2 ^ 16 + b2n x.rb * 2 ^ 17 + x.rbk.toNat * 2 ^ 32)

/-- STATUS (R293). -/
def Ctx.status (x : Ctx) : Word64 := w64 (b2n x.sup + b2n x.psup * 2 + b2n x.nest * 4)

/-- FENCERECT as a read of the entry `i` returns it (R306). -/
def FenceRect.word64 (r : FenceRect) (i : BitVec 6) : Word64 :=
  w64 (r.col0.toNat + r.row0.toNat * 2 ^ 8 + r.width.toNat * 2 ^ 16 + r.height.toNat * 2 ^ 24 + b2n r.v * 2 ^ 31 +
    i.toNat * 2 ^ 32)

/-- YBUDGET: LEFT counts the reading CSRR itself (R91), also when it has waited. -/
def Ctx.ybudget (x : Ctx) : Word64 := w64 (x.budget.toNat + (x.counted + 1).toNat * 2 ^ 8)

/-- VLANES (R173). -/
def Ctx.vlanes (x : Ctx) : Word64 := w64 (x.vcount.val + x.vreq.toNat * 2 ^ 8)

/-- The value of a CSR for the context that runs. -/
def State.csr (s : State) (n : Nat) : Word64 :=
  let x := s.me
  let c := s.home
  match n with
  | 0x000 => w64 s.curCore
  | 0x001 => meshXy s.curCore
  | 0x002 => s.sys.nodeid.zeroExtend 64
  | 0x003 => w64 s.curCtx
  | 0x010 => c.teamrank
  | 0x011 => c.teamsize
  | 0x012 => c.teamorg
  | 0x013 => c.teamshape
  | 0x018 => c.dom1
  | 0x019 => c.dom2
  | 0x01A => c.dom3
  | 0x020 => x.ybudget
  | 0x021 => x.lstat.zeroExtend 64
  | 0x022 => c.kstat
  | 0x023 => x.vlanes
  | 0x024 => x.nbtmo.zeroExtend 64
  | 0x025 => c.pub
  | 0x026 => c.inbox.word64
  | 0x027 => x.rep.word64
  | 0x028 => x.frm.zeroExtend 64
  | 0x029 => x.istat.zeroExtend 64
  | 0x02A => x.ystall.zeroExtend 64
  | 0x030 => x.seed.zeroExtend 64
  | 0x100 => x.status
  | 0x101 => x.cause
  | 0x102 => x.epc
  | 0x103 => x.faddr
  | 0x104 => c.tvec
  | 0x105 => x.faultrec
  | 0x106 => c.ptbase
  | 0x107 => c.asid.zeroExtend 64
  | 0x108 => w64 (s.sys.wttNext.toNat + s.sys.wttBase.toNat * 2 ^ 14)
  | 0x109 => ((s.die (dieOf s.curCore)).fences.get {} c.fenceIdx.toNat).word64 c.fenceIdx
  | 0x10A => w64 (s.sys.evovf.toNat * 2 ^ 12)
  | _ => 0

/-- A supervisor CSR is read and written in supervisor mode only (R63). -/
def csrPriv (x : Ctx) (n : Nat) : Except Stop Unit := if 0x100 ≤ n then needSup x else .ok ()

/-- CSRR (R353). -/
def execCsrr (d : Reg) (csr : BitVec 12) (s : State) : Out :=
  finish s (s.me.pc + 8) (do
    csrPriv s.me csr.toNat
    .ok (s.give d (s.csr csr.toNat)))

/-! Writing (R353). -/

/-- Whether a DOM2 value is valid for a core of a team (R85). -/
def Core.dom2Ok (x : Core) (v : Nat) : Bool :=
  let x0 := bits v 7 0
  let y0 := bits v 14 8
  let w := bits v 23 16
  let h := bits v 30 24
  let tw := bits x.teamshape.toNat 7 0
  let th := bits x.teamshape.toNat 14 8
  let r := x.teamrank.toNat
  decide (x0 % 8 = 0 ∧ w % 8 = 0 ∧ w ≠ 0 ∧ h ≠ 0 ∧ x0 + w ≤ tw ∧ y0 + h ≤ th ∧
    x0 ≤ r % tw ∧ r % tw < x0 + w ∧ y0 ≤ r / tw ∧ r / tw < y0 + h)

/-- INBOX's writable fields; a change empties the ring (R263). -/
def Inbox.write (b : Inbox) (v : Nat) : Inbox :=
  let base : BitVec 7 := BitVec.ofNat 7 (bits v 6 0)
  let lines : BitVec 8 := BitVec.ofNat 8 (bits v 15 8)
  if base = b.base ∧ lines = b.lines then b else { b with base := base, lines := lines, head := 0, used := 0 }

/-- The rectangle that a FENCERECT value names. -/
def rectOf (v : Nat) : FenceRect :=
  { col0 := BitVec.ofNat 8 (bits v 7 0), row0 := BitVec.ofNat 7 (bits v 14 8), width := BitVec.ofNat 8 (bits v 23 16),
    height := BitVec.ofNat 7 (bits v 30 24), v := bitAt v 31 }

/-- Whether a valid rectangle may be written for a die (R306). -/
def FenceRect.ok (r : FenceRect) (d : Nat) : Bool :=
  decide (r.col0.toNat % 8 = 0 ∧ r.width.toNat % 8 = 0 ∧ r.width ≠ 0 ∧ r.height ≠ 0 ∧
    d % 2 * 112 ≤ r.col0.toNat ∧ r.col0.toNat + r.width.toNat ≤ d % 2 * 112 + 112 ∧
    d / 2 * 60 ≤ r.row0.toNat ∧ r.row0.toNat + r.height.toNat ≤ d / 2 * 60 + 60)

/-- The bits of CAUSE that a write reaches (R293). -/
def causeMask : Word64 := 0xFFFFFFFF03FFFFFF

/-- The bits of FRM that a write reaches (R112). -/
def frmMask : BitVec 9 := 0x11F

/-- The effect of writing a CSR (R5, R85, R93, R94, R111, R263, R306). -/
def State.writeCsr (s : State) (n : Nat) (v : Word64) : Act :=
  let ctx (f : Ctx → Ctx) : Act := .ok (s.modMe f)
  let core (f : Core → Core) : Act := .ok (s.modHome f)
  match n with
  | 0x019 =>
    if s.home.phase.open' = true ∨ s.home.dom2Ok v.toNat = false then .error (.trap causeProt 0x019)
    else core (fun c => { c with dom2 := w64 (v.toNat % 2 ^ 31 - bits v.toNat 15 15 * 2 ^ 15) })
  | 0x021 => ctx (fun x => { x with lstat := v.truncate 2 })
  | 0x022 => core (fun c => { c with rb := c.rb && !v.getLsbD 17 })
  | 0x024 => ctx (fun x => { x with nbtmo := if (v.truncate 16 : BitVec 16).toNat < 16 then 16 else v.truncate 16 })
  | 0x025 => core (fun c => { c with pub := v })
  | 0x026 =>
    if 128 < bits v.toNat 6 0 + bits v.toNat 15 8 then .error (.trap causeProt 0x026)
    else core (fun c => { c with inbox := c.inbox.write v.toNat })
  | 0x028 => ctx (fun x => { x with frm := v.truncate 9 &&& frmMask })
  | 0x029 => ctx (fun x => { x with istat := v.truncate 2 })
  | 0x02A => ctx (fun x => { x with
      ystall := if (v.truncate 32 : Word32).toNat < 0x10000 then 0x10000 else v.truncate 32 })
  | 0x030 => ctx (fun x => { x with seed := v.truncate 32, gens := [] })
  | 0x100 => ctx (fun x => { x with psup := v.getLsbD 1, nest := v.getLsbD 2 })
  | 0x101 => ctx (fun x => { x with cause := v &&& causeMask })
  | 0x102 => ctx (fun x => { x with epc := v })
  | 0x103 => ctx (fun x => { x with faddr := v })
  | 0x104 => core (fun c => { c with tvec := w64 (bits v.toNat 51 2 * 2 ^ 2) })
  | 0x106 => core (fun c => { c with ptbase := w64 (bits v.toNat 47 16 * 2 ^ 16) })
  | 0x107 => core (fun c => { c with asid := v.truncate 16 })
  | 0x108 => .ok (s.modSys (fun y => { y with wttBase := BitVec.ofNat 38 (bits v.toNat 51 14) }))
  | 0x109 =>
    let r := rectOf v.toNat
    let d := dieOf s.curCore
    let i := bits v.toNat 37 32
    if r.v = true ∧ r.ok d = false then .error (.trap causeProt 0x109)
    else .ok ((s.modDie d (fun x => { x with fences := x.fences.set {} i r })).modHome
      (fun c => { c with fenceIdx := BitVec.ofNat 6 i }))
  | 0x10A => .ok (s.modSys (fun y => { y with evovf := BitVec.ofNat 40 (bits v.toNat 51 12) }))
  | _ => .ok s

/-- CSRW (R353). -/
def execCsrw (a : Reg) (csr : BitVec 12) (s : State) : Out :=
  finish s (s.me.pc + 8) (do
    csrPriv s.me csr.toNat
    need s.me a.val
    s.writeCsr csr.toNat (s.me.sv a.val))

/-! TLBINV and ICINV. -/

/-- Whether TLBINV removes an entry (R414): by address unless .all, of the core's ASID unless .anyasid. -/
def tlbHit (all anyasid : Bool) (asid va : Nat) (e : TlbEntry) : Bool :=
  (all || decide (e.va ≤ va ∧ va < e.va + e.size)) && (anyasid || decide (e.asid = asid))

/-- A covered core's first-level TLB loses the entries, and its writes of PTBASE and ASID now affect translations (R294). -/
def Core.tlbInv (x : Core) (hit : TlbEntry → Bool) : Core :=
  { x with tlb := x.tlb.filter (fun e => !hit e), curPtbase := x.ptbase, curAsid := x.asid }

/-- The TLBs that a reach covers, for the core that issues (R414). -/
def State.tlbInv (s : State) (r : Reach) (hit : TlbEntry → Bool) : State :=
  let c := s.curCore
  let die (d : Die) : Die := { d with tlb := d.tlb.filter (fun e => !hit e) }
  let coreIn (k : Nat) : Bool := match r with | .core => decide (k = c) | .die => decide (dieOf k = dieOf c) | .module => true
  let dieIn (d : Nat) : Bool := match r with | .module => true | _ => decide (d = dieOf c)
  { s with
    cores := s.cores.map (fun e => (e.1, if coreIn e.1 then e.2.tlbInv hit else e.2))
    dies := s.dies.map (fun e => (e.1, if dieIn e.1 then die e.2 else e.2)) }

/-- TLBINV (R414). -/
def execTlbinv (all anyasid : Bool) (r : Reach) (a : Reg) (s : State) : Out :=
  finish s (s.me.pc + 8) (do
    needSup s.me
    if !all then need s.me a.val
    .ok (s.tlbInv r (tlbHit all anyasid s.home.asid.toNat (s.me.sv a.val).toNat)))

/-- ICINV (R371). -/
def execIcinv (s : State) : Out :=
  finish s (s.me.pc + 8) (.ok (s.modHome (fun x => { x with icache := [] })))

end Sys2Proof.Machine
end

