-- ==== Sys2Proof/Machine/SaveArea.lean ====
section
/-! DEFINITION. The bytes of a member block of a save area and of a CORE record, written from a core and read back into
one (R100, R310, R311, R446). Where R310 gives a field's offset and no inner layout, the inner layout is the model's
(DESIGN CHOICE, log 25). -/

namespace Sys2Proof.Machine

open Sys2Proof

/-- A command in the list of queued commands (R276, R310). -/
structure Queued where
  ins : Instr
  va : Word64
  vb : Word64
  vc : Word64
  ctx : Nat
  seq : BitVec 16
  bind : Binding

/-- Writes numbers at offsets: (offset, bytes, value). -/
def place (m : Mem) (fs : List (Nat × Nat × Nat)) : Mem := fs.foldl (fun m f => m.setNum f.1 f.2.1 f.2.2) m

/-- The word of an instruction; 0 for an event. -/
def wordOf (i : Instr) : Nat := match encode i with | some (_, w) => w | none => 0

/-- Codes of a guard slot and of a binding. -/
def guardCode : GuardVal → Nat
  | .fls => 0
  | .tru => 1
  | .pending => 2

def bindCode : Binding → Nat
  | .val b => b2n b
  | .slot g => 2 + g * 4

/-- Offset of context h's record. -/
def ctxOff (h : Nat) : Nat := 0x19000 + 0x2000 * h

/-- The scalar register that a save keeps: zero outside the mask of the YIELD at which the context parked (R92). -/
def Ctx.kept (x : Ctx) (masked : Bool) (i : Nat) : Word64 × Bool :=
  match x.parked with
  | some p => if masked && !(p.mask.getLsbD i) then (0, false) else (x.sv i, x.dbit i)
  | none => (x.sv i, x.dbit i)

/-- A context record. -/
def Ctx.image (x : Ctx) (masked : Bool) (h : Nat) (m : Mem) : Mem :=
  let o := ctxOff h
  let m := place m ((upFrom 1 31).map (fun i => (o + 8 * i, 8, (x.kept masked i).1.toNat)))
  let m := place m [
    (o + 0x100, 8, ((upFrom 1 31).filter (fun i => (x.kept masked i).2)).foldl (fun n i => n + 2 ^ i) 0),
    (o + 0x108, 8, x.pc.toNat),
    (o + 0x110, 8, x.ol.toNat + x.os.toNat * 2 ^ 16 + b2n x.live * 2 ^ 32),
    (o + 0x118, 8, x.exitVal.toNat),
    (o + 0x180, 8, x.budget.toNat + x.left.toNat * 2 ^ 8),
    (o + 0x188, 8, x.lstat.toNat + x.nbtmo.toNat * 2 ^ 16 + x.frm.toNat * 2 ^ 32 + x.istat.toNat * 2 ^ 48),
    (o + 0x190, 8, x.vlanes.toNat),
    (o + 0x198, 8, x.rep.word64.toNat),
    (o + 0x1A0, 8, x.ystall.toNat + x.seed.toNat * 2 ^ 32),
    (o + 0x1A8, 8, x.status.toNat + x.seq.toNat * 2 ^ 16 + b2n x.ovf * 2 ^ 32 + b2n x.rep.stopped * 2 ^ 33 +
      b2n x.rep.charged * 2 ^ 34),
    (o + 0x1B0, 8, x.cause.toNat), (o + 0x1B8, 8, x.epc.toNat), (o + 0x1C0, 8, x.faddr.toNat),
    (o + 0x1C8, 8, x.faultrec.toNat), (o + 0x1D0, 8, x.rep.goPc.toNat),
    (o + 0x1D8, 8, match x.rep.trap with | some t => 2 ^ 8 + t.1 | none => 0),
    (o + 0x1E0, 8, match x.rep.trap with | some t => t.2.toNat | none => 0),
    (o + 0x1E8, 8, match x.parked with | some p => 2 ^ 8 + p.budget.toNat | none => 0)]
  let m := place m ((upFrom 0 8).map (fun i => (o + 0x140 + 8 * i, 8, (x.pv i).toNat)))
  let m := place m ((upFrom 0 65).map (fun l => (o + 0x200 + 4 * l, 4, (x.gen genSeed l).toNat)))
  let m := place m (x.rep.caps.zipIdx.map (fun e => (o + 0x400 + 16 * e.2, 16, wordOf e.1)))
  place m (x.vregs.map (fun e => (o + 0x1000 + 4 * e.1, 4, e.2.toNat)))

/-- A latch: type, group size, and the columns' records and sums. -/
def Latch.image (l : Latch) (o : Nat) (m : Mem) : Mem :=
  let m := place m [(o, 1, l.ty.code), (o + 1, 1, l.grp.code)]
  let m := place m (l.meta'.zipIdx.map (fun e => (o + 0x10 + 4 * e.2, 4, e.1)))
  place m (l.sums.zipIdx.map (fun e => (o + 0x50 + 4 * e.2, 4, ofSigned 32 e.1)))

/-- Phase arrival counts, whether the communication phase is open, and of the first arrival that h0 has not returned from the
level, the operation and whether it has completed (R302, R310). -/
def Phase.image (p : Phase) : Nat :=
  p.n1.toNat + p.n2.toNat * 2 ^ 16 + p.n3.toNat * 2 ^ 32 + b2n p.open' * 2 ^ 53 +
    match p.arrivals with
    | a :: _ => levelNum a.level * 2 ^ 48 + (match a.op with | some op => (1 + op.code) * 2 ^ 50 | none => 0) +
        b2n a.result.isSome * 2 ^ 54
    | [] => 0

/-- A member block from offset 0x1_8200 on, for a core at slice `sl` of a cluster. -/
def Core.image (x : Core) (k : Cluster) (sl : Nat) (masked : Bool) (q : List Queued) : Mem :=
  let m := place [] ((upFrom 0 16).map (fun i => (0x18200 + 4 * i, 4, (x.counter i).toNat)))
  let m := place m ((upFrom 1 7).map (fun g => (0x18240 + (g - 1), 1, guardCode (x.guard g))))
  let m := place m [
    (0x18248, 8, x.pub.toNat), (0x18250, 8, x.inbox.word64.toNat), (0x18258, 8, x.kstat.toNat),
    (0x18260, 8, x.phase.image), (0x18268, 8, x.dom2.toNat)]
  let m := x.wtt.foldl (fun m e => place m [
    (0x18280 + 16 * e.1, 8, e.2.target.toNat),
    (0x18288 + 16 * e.1, 8, e.2.threshold.toNat + e.2.ct * 2 ^ 32 + e.2.helper * 2 ^ 36 + 2 ^ 40)]) m
  let m := x.starts.foldl (fun m p => place m [
    (0x18280 + 16 * p.entry, 8, p.target.toNat),
    (0x18288 + 16 * p.entry, 8, p.arg.toNat % 2 ^ 32 + p.helper * 2 ^ 36 + 2 ^ 41)]) m
  let m := x.faultq.zipIdx.foldl (fun m e => place m [
    (0x18300 + 24 * e.2, 8, e.1.pc.toNat), (0x18308 + 24 * e.2, 8, e.1.addr.toNat),
    (0x18310 + 24 * e.2, 8, e.1.seq.toNat + (match e.1.rep with | some r => r.1.toNat * 2 ^ 16 + r.2.toNat * 2 ^ 32 + 2 ^ 36 | none => 0) +
      e.1.ctx * 2 ^ 40 + e.1.ct * 2 ^ 44 + e.1.status * 2 ^ 48)]) m
  let m := place m [(0x183C0, 2, (upFrom 0 11).foldl (fun n h => n + b2n (x.ctx h).ovf * 2 ^ h) 0), (0x183C2, 1, x.faultq.length)]
  let m := if sl = 0 then
      let m := place m ((upFrom 0 8).map (fun i => (0x18400 + 8 * i, 8, (k.barrier i).word.toNat)))
      let m := place m ((upFrom 8 8).map (fun i => (0x18400 + 8 * i, 8, ({ owner := (k.mutex i).owner } : MutexLine).word.toNat)))
      let m := place m ((upFrom 16 16).map (fun i => (0x18400 + 8 * i, 8, (k.event i).count.toNat)))
      place m [(0x18C00, 1, b2n k.deep)]
    else m
  let m := match x.armed with
    | some a => place m [(0x18500, 8, a.table.toNat), (0x18508, 8, a.map.toNat), (0x18510, 8, a.ct + a.asid * 2 ^ 16 + 2 ^ 32)]
    | none => m
  let a := k.active.get {} sl
  let b := k.shadow.get {} sl
  let m := place m (a.wts.map (fun e => (0x18600 + 2 * e.1, 2, e.2)))
  let m := place m (b.wts.map (fun e => (0x18800 + 2 * e.1, 2, e.2)))
  let m := b.latch.image 0x18B00 (a.latch.image 0x18A00 m)
  let m := (upFrom 0 11).foldl (fun m h => (x.ctx h).image masked h m) m
  q.zipIdx.foldl (fun m e => let o := 0x2F000 + 64 * e.2
    place m [(o, 16, wordOf e.1.ins), (o + 0x10, 8, e.1.va.toNat), (o + 0x18, 8, e.1.vb.toNat), (o + 0x20, 8, e.1.vc.toNat),
      (o + 0x28, 8, e.1.ctx + e.1.seq.toNat * 2 ^ 16 + bindCode e.1.bind * 2 ^ 32)]) m

/-- W, A and C and their tags, as the first part of a block holds them. -/
def Core.stores (x : Core) : Mem :=
  (AMap.slice x.w 0 0xC000 0 ++ AMap.slice x.a 0 0x8000 0xC000 ++ AMap.slice x.c 0 0x4000 0x14000).over 0
    (x.tags.map (fun e => (0x18000 + e.1, tagByte e.2)))

/-! Reading a block back (R100, R311). -/

/-- The entries of a list that are not the default, as a sparse map. -/
def sparse {α : Type} [DecidableEq α] (dflt : α) (ks : List Nat) (f : Nat → α) : AMap α :=
  ks.foldl (fun m k => m.set dflt k (f k)) []

/-- Reads a context record. A parked context continues past its YIELD with the window that it opens; a sleeping one
executes its SLEEPT again, which is not counted again (R91, R311, R330). -/
def ctxFrom (m : Mem) (h : Nat) : Ctx :=
  let o := ctxOff h
  let n (k : Nat) : Nat := m.num (o + k) 8
  let w (k : Nat) : Word64 := m.word (o + k)
  let rep := n 0x198
  let live := bitAt (n 0x110) 32
  let parked := bitAt (n 0x1E8) 8
  let budget := bits (n 0x1E8) 7 0
  { live := live
    pc := if parked then w 0x108 + 8 else w 0x108
    sregs := sparse {} (upFrom 1 31) (fun i => { val := m.word (o + 8 * i), d := bitAt (n 0x100) i })
    preds := sparse 0 (upFrom 1 7) (fun i => m.word (o + 0x140 + 8 * i))
    ol := BitVec.ofNat 16 (n 0x110)
    os := BitVec.ofNat 16 (n 0x110 / 2 ^ 16)
    budget := BitVec.ofNat 8 (if parked then budget else n 0x180)
    left := BitVec.ofNat 16 (if parked then 256 * budget else n 0x180 / 2 ^ 8)
    lstat := BitVec.ofNat 2 (n 0x188)
    nbtmo := BitVec.ofNat 16 (n 0x188 / 2 ^ 16)
    frm := BitVec.ofNat 9 (n 0x188 / 2 ^ 32)
    istat := BitVec.ofNat 2 (n 0x188 / 2 ^ 48)
    vcount := lanesOf (n 0x190 % 2 ^ 7)
    vreq := BitVec.ofNat 7 (n 0x190 / 2 ^ 8)
    ystall := BitVec.ofNat 32 (n 0x1A0)
    seed := BitVec.ofNat 32 (n 0x1A0 / 2 ^ 32)
    sup := bitAt (n 0x1A8) 0, psup := bitAt (n 0x1A8) 1, nest := bitAt (n 0x1A8) 2
    seq := BitVec.ofNat 16 (n 0x1A8 / 2 ^ 16)
    ovf := bitAt (n 0x1A8) 32
    cause := w 0x1B0, epc := w 0x1B8, faddr := w 0x1C0, faultrec := w 0x1C8
    gens := (upFrom 0 65).map (fun l => (l, BitVec.ofNat 32 (m.num (o + 0x200 + 4 * l) 4)))
    vregs := sparse 0 (upFrom 0 1024) (fun k => BitVec.ofNat 32 (m.num (o + 0x1000 + 4 * k) 4))
    exitVal := w 0x118
    waitSince := if live && !parked then some 0 else none
    rep := { iter := BitVec.ofNat 16 rep, word := BitVec.ofNat 4 (rep / 2 ^ 16), len := BitVec.ofNat 5 (rep / 2 ^ 20)
             stride := BitVec.ofNat 4 (rep / 2 ^ 25), active := bitAt rep 29, cnt := BitVec.ofNat 16 (rep / 2 ^ 32)
             caps := (upFrom 0 (bits rep 24 20)).filterMap (fun i =>
               match decodeWord (m.num (o + 0x400 + 16 * i) 16) with | .ok c => some c | .error _ => none)
             goPc := w 0x1D0
             trap := if bitAt (n 0x1D8) 8 then some (bits (n 0x1D8) 7 0, w 0x1E0) else none
             stopped := bitAt (n 0x1A8) 33 && !parked, charged := bitAt (n 0x1A8) 34 } }

/-- Reads a latch. -/
def latchFrom (m : Mem) (o : Nat) : Latch :=
  { ty := (ElemType.ofCode (m.num o 1)).getD .bf16
    grp := GroupSize.ofCode (m.num (o + 1) 1)
    meta' := (upFrom 0 16).map (fun j => m.num (o + 0x10 + 4 * j) 4)
    sums := (upFrom 0 16).map (fun j => toSigned 32 (m.num (o + 0x50 + 4 * j) 4)) }

/-- Reads a plane. -/
def planeFrom (m : Mem) (wts latch : Nat) : Plane :=
  { wts := sparse 0 (upFrom 0 256) (fun k => m.num (wts + 2 * k) 2), latch := latchFrom m latch }

/-- Reads the phase state. What an arrival holds beside its place in the block, its value first of all, has been sent and
stays with the team's entry (DESIGN CHOICE, log 25). -/
def phaseFrom (m : Mem) (arrivals : List Arrival) : Phase :=
  let n := m.num 0x18260 8
  { open' := bitAt n 53, n1 := BitVec.ofNat 16 n, n2 := BitVec.ofNat 16 (n / 2 ^ 16), n3 := BitVec.ofNat 16 (n / 2 ^ 32)
    arrivals := arrivals }

/-- Reads a block into a core that is otherwise as its wake leaves it: everything that R100 keeps. -/
def Core.fromImage (x : Core) (m : Mem) (arrivals : List Arrival) : Core :=
  let inbox := m.num 0x18250 8
  { x with
    ctxs := (upFrom 0 11).map (fun h => (h, ctxFrom m h))
    counters := sparse 0 (upFrom 0 16) (fun i => BitVec.ofNat 32 (m.num (0x18200 + 4 * i) 4))
    guards := sparse .tru (upFrom 1 7) (fun g => match m.num (0x18240 + (g - 1)) 1 with | 0 => .fls | 1 => .tru | _ => .pending)
    w := AMap.slice m 0 0xC000 0, a := AMap.slice m 0xC000 0x8000 0, c := AMap.slice m 0x14000 0x4000 0
    tags := sparse {} (upFrom 0 384) (fun l => let b := m.num (0x18000 + l) 1
      { v := bitAt b 0, u := bitAt b 1, p := bitAt b 2 })
    pub := m.word 0x18248
    inbox := { base := BitVec.ofNat 7 inbox, lines := BitVec.ofNat 8 (inbox / 2 ^ 8), head := BitVec.ofNat 15 (inbox / 2 ^ 16),
               used := BitVec.ofNat 16 (inbox / 2 ^ 32), drop := BitVec.ofNat 16 (inbox / 2 ^ 48) }
    phase := phaseFrom m arrivals
    dom2 := m.word 0x18268
    exited := !(ctxFrom m 0).live
    wtt := (upFrom 0 8).filterMap (fun e => let q := m.num (0x18288 + 16 * e) 8
      if bitAt q 40 then
        some (e, { ct := bits q 35 32, threshold := BitVec.ofNat 32 q, target := m.word (0x18280 + 16 * e), helper := bits q 39 36 })
      else none)
    starts := (upFrom 0 8).filterMap (fun e => let q := m.num (0x18288 + 16 * e) 8
      if bitAt q 41 then some { entry := e, helper := bits q 39 36, target := m.word (0x18280 + 16 * e), arg := w64 (bits q 31 0) }
      else none)
    faultq := (upFrom 0 (min 8 (m.num 0x183C2 1))).map (fun i => let q := m.num (0x18310 + 24 * i) 8
      { pc := m.word (0x18300 + 24 * i), addr := m.word (0x18308 + 24 * i), ctx := bits q 43 40, ct := bits q 47 44
        status := bits q 55 48, seq := BitVec.ofNat 16 q
        rep := if bitAt q 36 then some (BitVec.ofNat 16 (q / 2 ^ 16), BitVec.ofNat 4 (q / 2 ^ 32)) else none })
    armed := let q := m.num 0x18510 8
      if bitAt q 32 then
        some { table := m.word 0x18500, map := m.word 0x18508, ct := bits q 15 0, asid := bits q 31 16 }
      else none }

/-- Reads the event-unit lines and the geometry of a cluster from slice 0's block, and one slice's planes. -/
def Cluster.fromImage (k : Cluster) (m : Mem) (sl : Nat) : Cluster :=
  let k := { k with active := k.active.put sl (planeFrom m 0x18600 0x18A00), shadow := k.shadow.put sl (planeFrom m 0x18800 0x18B00) }
  if sl ≠ 0 then k
  else
    { k with
      deep := bitAt (m.num 0x18C00 1) 0
      barriers := sparse {} (upFrom 0 8) (fun i => let v := m.num (0x18400 + 8 * i) 8
        { mask := BitVec.ofNat 8 v, arr := BitVec.ofNat 8 (v / 2 ^ 8), gen := BitVec.ofNat 16 (v / 2 ^ 16), link := BitVec.ofNat 4 (v / 2 ^ 32) })
      mutexes := sparse {} (upFrom 8 8) (fun i => let v := m.num (0x18400 + 8 * i) 8
        { owner := if bitAt v 0 then some (bits v 3 1, bits v 7 4) else none, queue := [] })
      events := sparse {} (upFrom 16 16) (fun i => { count := BitVec.ofNat 32 (m.num (0x18400 + 8 * i) 8), queue := [] }) }

end Sys2Proof.Machine
end

