-- ==== Sys2Proof/Machine/Cut.lean ====
section
/-! DEFINITION. A core's cut for a kiln: what it records, which commands it recolours, and the lines that wait to be
drained (R275 to R279, R446). -/

namespace Sys2Proof.Machine

open Sys2Proof

/-- Lines of W, A and C that a core can drain. -/
def allLines : List Nat := upFrom 0 384

/-- Lines of a local extent of some length, of W, A or C. -/
def extentLines (sp : Space) (a n : Nat) : List Nat :=
  if n = 0 ∨ sp = .e then [] else upFrom (lineOf sp a) (lineOf sp (a + n - 1) - lineOf sp a + 1)

/-- Lines of its own core that a put-and-get command which has begun may still have to read (R276). -/
def PgeCmd.reads (p : PgeCmd) : List Nat :=
  if p.prog ≠ .running then []
  else
    match localSource p.ins p.vb with
    | some (sp, a, n) =>
      let r := p.pos + p.buffer.length
      extentLines sp (a + 8 * r) (min n (limitOf sp - a) - 8 * r)
    | none => []

/-- Lines of core c that a matrix command of core o in the same cluster, which has begun, may still have to read. -/
def State.mxReads (s : State) (m : MxCmd) (o c : Nat) : List Nat :=
  if !m.begun then []
  else
    (if o = c then
      m.readsA (match m.ins with
        | .mcorr _ => ((s.space m.asid).node (handleIdx (corrD m.img))).cols
        | _ => splitK m.img) ++ m.readsC
    else []) ++
    (match m.ins with
      | .mmul x =>
        let j := ceilDiv m.pos (max 1 x.nvec.toNat)
        if x.st || (!x.gang && decide (o ≠ c)) then []
        else extentLines .w (x.woff.toNat + j * blockLen x.ot x.grp) ((x.ksteps.toNat - j) * blockLen x.ot x.grp)
      | _ => [])

/-- Lines of core c that commands with the old colour have still to read (R276). -/
def State.oldReads (s : State) (c : Nat) (k : BitVec 16) : List Nat :=
  let own := (s.core c).pge.flatMap (fun p => if p.colour = kilnColour k then [] else p.reads)
  let cl := clusterOf c
  let mx := (upFrom 0 8).flatMap (fun i =>
    let o := coreOfSlice cl i
    (s.core o).mx.flatMap (fun m => if m.colour = kilnColour k then [] else s.mxReads m o c))
  unionNat [] (own ++ mx)

/-- What a waiting context keeps in its CORE record: nothing while it waits; a service that has come, which the instruction
takes when it is executed again. -/
def Held.served : Held → Held
  | .awaitDone v => .awaitDone v
  | .eventDone v => .eventDone v
  | .mutexGranted l => .mutexGranted l
  | .eventLineDone l v => .eventLineDone l v
  | .kilnDone v => .kilnDone v
  | _ => .none

/-- A context as a CORE record holds it: about to execute its instruction again, and with ol, os and reservations for the
queued commands alone (R275, R278). -/
def Ctx.atCut (x : Ctx) (queued : List (Nat × Instr)) : Ctx :=
  { x with
    held := x.held.served, waitSince := none, waitObj := none, parked := none
    rep := { x.rep with stopped := x.rep.stopped && x.parked.isNone }
    ol := BitVec.ofNat 16 (queued.filter (fun q => countsOl q.2)).length
    os := BitVec.ofNat 16 (queued.filter (fun q => countsOs q.2)).length
    reserved := x.reserved.filter (fun r => queued.any (fun q => q.1 = r.2)) }

/-- Commands of core c that have sent no request: number, context, instruction, and what R310 lists. -/
def State.queuedOf (s : State) (c : Nat) : List (Nat × Queued) :=
  let x := s.core c
  (x.pge.filter (fun p => decide (p.prog = .waiting)) ++ x.sendq).map (fun p =>
    (p.id, ({ ins := p.ins, va := p.va, vb := p.vb, vc := p.vc, ctx := p.ctx, seq := p.seq, bind := p.bind } : Queued))) ++
  (x.mx.filter (fun m => decide (m.phase = .queued))).map (fun m =>
    (m.id, ({ ins := m.ins, va := m.va, vb := m.vb, vc := m.vc, ctx := m.ctx, seq := m.seq, bind := m.bind } : Queued))) ++
  (s.sys.lin.filter (fun l => l.core = c && decide (l.prog = .waiting))).map (fun l =>
    (l.id, ({ ins := l.ins, va := l.va, vb := l.vb, vc := l.vc, ctx := l.ctx, seq := l.seq, bind := l.bind } : Queued)))

/-- The core as its CORE record holds it. -/
def Core.atCut (x : Core) (q : List (Nat × Queued)) : Core :=
  { x with
    ctxs := x.ctxs.map (fun e => (e.1, e.2.atCut ((q.filter (fun c => c.2.ctx = e.1)).map (fun c => (c.1, c.2.ins)))))
    pge := x.pge.filter (fun p => decide (p.prog = .waiting))
    mx := x.mx.filter (fun m => decide (m.phase = .queued)) }

/-- The mask of live contexts. -/
def Core.liveMask (x : Core) : Nat := (upFrom 0 11).foldl (fun n h => n + b2n (x.ctx h).live * 2 ^ h) 0

/-- A marker sets out on each mesh link of a router (R275, R277). -/
def State.sendMarkers (s : State) (c asid k : Nat) : State :=
  s.modSys (fun y => { y with
    markers := y.markers ++ ((upFrom 0 4).filterMap (neighbour c)).map (fun r => { router := r, asid := asid, k := k }) })

/-- Core c of a job cuts for its running kiln k (R275, R276, R279). -/
def State.cut (s : State) (asid c : Nat) (k : Kiln) : State :=
  match s.teamOf c with
  | none => s
  | some t =>
    let q := s.queuedOf c
    let col := kilnColour k.num
    let old := s.oldReads c k.num
    let s := (s.recolourCore c col).modCore c (fun x => { x with
      knum := k.num
      drain := unionNat (if k.base then allLines else x.dirty) old
      drainSince := some s.cycle, dirty := [], linebuf := [] })
    let body := (s.core c).atCut q
    let cl := s.cluster (clusterOf c)
    let r : CoreRec := { core := c, team := t.id, body := body, cluster := cl
                         lin := s.sys.lin.filter (fun l => l.core = c && decide (l.prog = .waiting)) }
    let data := (body.image cl (sliceOf c) false (q.map (·.2))).slice 0x18200 0x27E00 0
    ((s.modKiln asid k.num (fun z => { z with cut := insertNat c z.cut, cores := z.cores ++ [r] })).sendMarkers c asid
      k.num.toNat).addRecord asid k.num 2
      [s.coreName c, t.rec', t.rankOf c, ((s.core c).ctx 0).pc.toNat, (s.core c).liveMask] data 2552

/-- Core c cuts for kiln k of its job unless it has, or its part is over, or its team does not run (R275, R291). -/
def State.cutOnce (s : State) (t : Team) (c : Nat) (k : Kiln) : State :=
  if (s.core c).knum ≠ k.num ∧ t.phase = .running ∧ s.partOver c = false then s.cut t.asid c k else s

/-- A core cuts before it delivers a packet of the running kiln's colour (R275). -/
def State.cutBefore (s : State) (c : Nat) (colour : Bool) : State :=
  match s.teamOf c with
  | none => s
  | some t =>
    match (s.job t.asid).bind Job.running with
    | none => s
    | some k => if colour = kilnColour k.num then s.cutOnce t c k else s

end Sys2Proof.Machine
end

