-- ==== Sys2Proof/Machine/Pge.lean ====
section
/-! DEFINITION. The put-and-get engine's commands at issue: their precise checks and their place in the engine (R135 to
R143, R222, R228, R262, R266, R341, R355 to R357, R365, R368, R369, R387, R389, R396, R405, R407, R416, R417, R439,
R443); and the two blocking requests AWAIT and EVWAIT (R244, R257, R258, R345). -/

namespace Sys2Proof.Machine

open Sys2Proof

/-! The engine's place (R80, R340, R443). -/

/-- The command that an instruction issues, with the values of the registers a, b and c and a record read at issue. -/
def State.pgeCmd (s : State) (i : Instr) (a b c : Nat) (img : List Byte) : PgeCmd :=
  { id := s.home.nextId, ctx := s.curCtx, life := s.me.life, pc := s.me.pc, seq := s.me.seq, ins := i
    va := s.me.sv a, vb := s.me.sv b, vc := s.me.sv c, img := img, bind := s.home.bindGuard (gdOf i)
    colour := s.home.colour, asid := s.asidOf s.curCore, sup := s.me.sup }

/-- The issuing context after a command has issued: its sequence number, ol or os, and a reserved register. -/
def Ctx.issued (x : Ctx) (i : Instr) (id : Nat) : Ctx :=
  { x with
    seq := x.seq + 1
    ol := if countsOl i then x.ol + 1 else x.ol
    os := if countsOs i then x.os + 1 else x.os
    reserved := if resultReg i = 0 then x.reserved else x.reserved.put (resultReg i) id }

/-- A command waits at issue while its ol or os count is full (R80). -/
def State.countCheck (s : State) (i : Instr) : Except Stop Unit := do
  if countsOl i && s.me.ol = BitVec.ofNat 16 Config.outstandingMax then .error (.wait s (some (2, 0)))
  if countsOs i && s.me.os = BitVec.ofNat 16 Config.outstandingMax then .error (.wait s (some (2, 1)))

/-- Issues a command into the put-and-get engine, which holds 32 (R141, R443). -/
def State.enqueue (s : State) (i : Instr) (a b c : Nat) (img : List Byte) : Act := do
  if 32 ≤ s.home.pge.length then .error (.wait s (some (12, 0)))
  s.countCheck i
  let p := s.pgeCmd i a b c img
  .ok ((s.modHome (fun x => { x with pge := x.pge ++ [p], nextId := x.nextId + 1 })).modMe (fun x => x.issued i p.id))

/-- Holds a phased send in the send queue, which holds 64 (R87). -/
def State.holdSend (s : State) (i : Instr) (a b c : Nat) : Act := do
  if 64 ≤ s.home.sendq.length then .error (.wait s (some (9, 0)))
  s.countCheck i
  let p := s.pgeCmd i a b c []
  .ok ((s.modHome (fun x => { x with sendq := x.sendq ++ [p], nextId := x.nextId + 1 })).modMe (fun x => x.issued i p.id))

/-! Transfers (R137, R139). -/

/-- The checks of GET and PUT. -/
def xferChecks (x : XferArgs) (s : State) : Except Stop Unit := do
  needAll s.me (if x.lin then [x.a.val, x.b.val, x.c.val] else [x.a.val, x.b.val])
  localCheck x.lsp (s.me.sv x.b.val).toNat x.len.toNat 8
  aligned (s.me.sv (if x.lin then x.c.val else x.a.val)) 8

/-- GET (R365). -/
def execGet (x : XferArgs) (s : State) : Out :=
  finish s (s.me.pc + 12) (do
    xferChecks x s
    s.enqueue (.get x) x.a.val x.b.val x.c.val [])

/-- PUT (R396). -/
def execPut (x : XferArgs) (s : State) : Out :=
  finish s (s.me.pc + 12) (do
    xferChecks x s
    s.enqueue (.put x) x.a.val x.b.val x.c.val [])

/-- The fields of a GRIST descriptor: BS, NP, IX (R139). -/
structure Grist where
  bs : Nat
  np : Nat
  ix : Nat

def gristOf (v : Word64) : Grist := { bs := bits v.toNat 23 0, np := bits v.toNat 38 24, ix := bits v.toNat 53 39 }

/-- Whether a descriptor keeps R139. -/
def gristOk (v : Word64) : Bool :=
  let g := gristOf v
  decide (8 ≤ g.bs ∧ g.bs ≤ 0xC000 ∧ g.bs % 8 = 0 ∧ 1 ≤ g.np ∧ g.np ≤ Config.coreCount ∧ g.ix < g.np ∧ bits v.toNat 63 54 = 0)

/-- The local byte count: the sum over the participant's blocks, of which the array's last may be short (R139). -/
def Grist.count (g : Grist) (len : Nat) : Nat :=
  let nb := ceilDiv len g.bs
  let mine := if g.ix < nb then (nb - 1 - g.ix) / g.np + 1 else 0
  if mine ≠ 0 ∧ (nb - 1) % g.np = g.ix then mine * g.bs - (nb * g.bs - len) else mine * g.bs

/-- The place in the global array of local byte `lo` (R139). -/
def Grist.place (g : Grist) (lo : Nat) : Nat := (g.ix + lo / g.bs * g.np) * g.bs + lo % g.bs

/-- The checks of GRIST. A descriptor that breaks R139 gives no local count, so step 2 passes it to step 4 (DEDUCED, log 26). -/
def gristChecks (x : XferArgs) (s : State) : Except Stop Unit := do
  needAll s.me [x.a.val, x.b.val, x.c.val]
  let v := s.me.sv x.c.val
  let n := if gristOk v then (gristOf v).count x.len.toNat else 0
  if n ≠ 0 then localCheck x.lsp (s.me.sv x.b.val).toNat n 8
  aligned (s.me.sv x.a.val) 8
  if !gristOk v then .error (.trap causeProt v)

/-- GRIST gather (R368). -/
def execGrist (x : XferArgs) (s : State) : Out :=
  finish s (s.me.pc + 12) (do
    gristChecks x s
    s.enqueue (.grist x) x.a.val x.b.val x.c.val [])

/-- GRIST.u, scatter (R368). -/
def execGristScatter (x : XferArgs) (s : State) : Out :=
  finish s (s.me.pc + 12) (do
    gristChecks x s
    s.enqueue (.gristScatter x) x.a.val x.b.val x.c.val [])

/-! Copies and sends (R137, R140, R262). -/

/-- The checks of CPY, SEND.d and SEND.p: steps 1, 2 and 5 of R137. -/
def copyChecks (x : CopyArgs) (s : State) : Except Stop Unit := do
  needAll s.me [x.a.val, x.b.val, x.c.val]
  localCheck x.lsp (s.me.sv x.b.val).toNat x.len.toNat 8
  localCheck x.dsp (s.me.sv x.c.val).toNat x.len.toNat 8

/-- CPY (R352). -/
def execCpy (x : CopyArgs) (s : State) : Out :=
  finish s (s.me.pc + 12) (do
    copyChecks x s
    s.enqueue (.cpy x) x.a.val x.b.val x.c.val [])

/-- SEND.d (R262, R407). -/
def execSendD (x : CopyArgs) (s : State) : Out :=
  finish s (s.me.pc + 12) (do
    copyChecks x s
    s.enqueue (.sendD x) x.a.val x.b.val x.c.val [])

/-- SEND.p: held during a compute phase (R87, R408). -/
def execSendP (x : CopyArgs) (s : State) : Out :=
  finish s (s.me.pc + 12) (do
    copyChecks x s
    if s.home.phase.open' then s.enqueue (.sendP x) x.a.val x.b.val x.c.val []
    else s.holdSend (.sendP x) x.a.val x.b.val x.c.val)

/-- SEND.i (R262, R407). -/
def execSendI (x : InboxArgs) (s : State) : Out :=
  finish s (s.me.pc + 12) (do
    needAll s.me [x.a.val, x.b.val]
    localCheck x.lsp (s.me.sv x.b.val).toNat x.len.toNat 8
    s.enqueue (.sendI x) x.a.val x.b.val 0 [])

/-! Atomics (R341 to R343). -/

/-- The issue of a flat atomic with third operand c; it reserves d (R340). -/
def issueAtomic (i : Instr) (x : AtomicArgs) (c : Nat) (s : State) : Act := do
  needAll s.me [x.a.val, x.b.val, c]
  aligned (s.me.sv x.a.val) (if x.w then 4 else 8)
  s.enqueue i x.a.val x.b.val c []

/-- AADD. -/
def execAadd (x : AtomicArgs) (s : State) : Out := finish s (s.me.pc + 8) (issueAtomic (.aadd x) x 0 s)
/-- AADDW. -/
def execAaddw (x : AtomicArgs) (s : State) : Out := finish s (s.me.pc + 8) (issueAtomic (.aaddw x) x 0 s)
/-- ASWAP. -/
def execAswap (x : AtomicArgs) (s : State) : Out := finish s (s.me.pc + 8) (issueAtomic (.aswap x) x 0 s)
/-- ACAS. -/
def execAcas (x : AtomicArgs) (c : Reg) (s : State) : Out := finish s (s.me.pc + 8) (issueAtomic (.acas x c) x c.val s)
/-- AMIN. -/
def execAmin (x : AtomicArgs) (s : State) : Out := finish s (s.me.pc + 8) (issueAtomic (.amin x) x 0 s)
/-- AMAX. -/
def execAmax (x : AtomicArgs) (s : State) : Out := finish s (s.me.pc + 8) (issueAtomic (.amax x) x 0 s)
/-- AAND. -/
def execAand (x : AtomicArgs) (s : State) : Out := finish s (s.me.pc + 8) (issueAtomic (.aand x) x 0 s)
/-- AOR. -/
def execAor (x : AtomicArgs) (s : State) : Out := finish s (s.me.pc + 8) (issueAtomic (.aor x) x 0 s)

/-! Events and tasks (R257, R259 to R261, R266, R355, R356, R416, R417, R439). -/

/-- EVPOST. -/
def execEvpost (a b : Reg) (ct : Cnt) (gd : Guard) (o : MemOrder) (s : State) : Out :=
  finish s (s.me.pc + 8) (do
    needAll s.me [a.val, b.val]
    s.enqueue (.evpost a b ct gd o) a.val b.val 0 [])

/-- TRIG. -/
def execTrig (ct : Cnt) (gd : Guard) (s : State) : Out := finish s (s.me.pc + 8) (s.enqueue (.trig ct gd) 0 0 0 [])

/-- DONE. -/
def execDone (a : Reg) (ct : Cnt) (gd : Guard) (o : MemOrder) (s : State) : Out :=
  finish s (s.me.pc + 8) (do
    need s.me a.val
    s.enqueue (.done a ct gd o) a.val 0 0 [])

/-- WDQ. -/
def execWdq (b : Reg) (ct : Cnt) (gd : Guard) (r : Fin 4) (s : State) : Out :=
  finish s (s.me.pc + 8) (do
    need s.me b.val
    localCheck .a (s.me.sv b.val).toNat 8 8
    s.enqueue (.wdq b ct gd r) 0 b.val 0 [])

/-- TSPAWN: the packet image is read at issue, and d is reserved (R340, R417). -/
def execTspawn (d a b : Reg) (ct : Cnt) (gd : Guard) (o : MemOrder) (s : State) : Out :=
  finish s (s.me.pc + 12) (do
    needAll s.me [a.val, b.val]
    let e := (s.me.sv b.val).toNat
    localCheck .a e 64 64
    aligned (s.me.sv a.val) 256
    noPoison s.home .a e 64
    s.enqueue (.tspawn d a b ct gd o) a.val b.val 0 (s.home.a.read e 64))

/-! Heat tables (R213 to R215, R219, R369, R405). -/

/-- HEATAGE. -/
def execHeatage (a : Reg) (ct : Cnt) (gd : Guard) (o : MemOrder) (n : BitVec 14) (s : State) : Out :=
  finish s (s.me.pc + 8) (do
    need s.me a.val
    aligned (s.me.sv a.val) 64
    s.enqueue (.heatage a ct gd o n) a.val 0 0 [])

/-- The checks of ROWRANK and ROWMIG. -/
def rowChecks (a b : Reg) (s : State) : Except Stop Unit := do
  needAll s.me [a.val, b.val]
  aligned (s.me.sv a.val) 64
  aligned (s.me.sv b.val) 8

/-- ROWRANK. -/
def execRowrank (a b : Reg) (ct : Cnt) (gd : Guard) (o : MemOrder) (h : BitVec 14) (s : State) : Out :=
  finish s (s.me.pc + 8) (do
    rowChecks a b s
    s.enqueue (.rowrank a b ct gd o h) a.val b.val 0 [])

/-- ROWMIG. -/
def execRowmig (a b : Reg) (ct : Cnt) (gd : Guard) (o : MemOrder) (s : State) : Out :=
  finish s (s.me.pc + 8) (do
    rowChecks a b s
    s.enqueue (.rowmig a b ct gd o) a.val b.val 0 [])

/-! Cask commands (R220 to R222, R228, R387, R389). -/

/-- A command block of R220. -/
structure CaskBlock where
  op : Nat
  lin : Bool
  ty : ElemType
  eta : Nat
  lambda : Nat
  handle : Word32
  dst : Nat
  src : Nat

/-- Reads a command block; none where TY names no type. HEATINC ignores TY. -/
def caskBlock (bs : List Byte) : Option CaskBlock :=
  let m : Mem := Mem.write [] 0 bs
  let op := m.num 0 1
  let ty := if op = 5 then some .int16 else ElemType.ofCode (bits (m.num 0 2) 15 12)
  ty.map (fun ty => { op := op, lin := bitAt (m.num 1 1) 0, ty := ty, eta := m.num 4 4, lambda := m.num 8 4
                      handle := BitVec.ofNat 32 (m.num 12 4), dst := m.num 16 8, src := m.num 24 8 })

/-- Whether an operation reads SRC. -/
def CaskBlock.usesSrc (b : CaskBlock) : Bool := b.op = 1 || b.op = 3

/-- Step 3 of R222: the operation exists, accepts TY, and suits LIN. -/
def CaskBlock.ok (b : CaskBlock) : Bool :=
  (match b.op with
    | 1 => b.ty = .fp32
    | 2 | 3 => b.ty = .fp32 || b.ty = .bf16 || b.ty = .fp16
    | 4 => true
    | 5 => !b.lin
    | _ => false) && !(b.lin && b.usesSrc)

/-- NMC: the command block is read at issue (R222). -/
def execNmc (b c : Reg) (ct : Cnt) (gd : Guard) (o : MemOrder) (len : BitVec 32) (s : State) : Out :=
  finish s (s.me.pc + 12) (do
    needAll s.me [b.val, c.val]
    let e := (s.me.sv b.val).toNat
    localCheck .a e 32 32
    localCheck .a (s.me.sv c.val).toNat 16 16
    noPoison s.home .a e 32
    let img := s.home.a.read e 32
    match caskBlock img with
    | none => .error (.trap causeProt (s.me.sv b.val))
    | some k =>
      if !k.ok then .error (.trap causeProt (s.me.sv b.val))
      aligned (w64 k.dst) 8
      if k.usesSrc then aligned (w64 k.src) 8
      s.enqueue (.nmc b c ct gd o len) 0 b.val c.val img)

/-- NMSCAN. -/
def execNmscan (abs : Bool) (a b c : Reg) (ct : Cnt) (gd : Guard) (o : MemOrder) (ty : ElemType) (kmax : BitVec 10)
    (len : BitVec 32) (s : State) : Out :=
  finish s (s.me.pc + 12) (do
    needAll s.me [a.val, b.val, c.val]
    localCheck .a (s.me.sv b.val).toNat (8 + 8 * kmax.toNat) 8
    aligned (s.me.sv a.val) (elemBytes ty)
    s.enqueue (.nmscan abs a b c ct gd o ty kmax len) a.val b.val c.val [])

/-! AWAIT (R244, R345). -/

/-- A context waits for a value of its own request. -/
def State.setHeld (s : State) (c h : Nat) (v : Held) : State := s.modCtx c h (fun x => { x with held := v })

/-- The precise exceptions of AWAIT's translation and place. -/
def State.awaitPlace (s : State) (c : Nat) (sup : Bool) (va : Word64) : Except Stop (Nat × State) :=
  match s.xlate c sup .read va.toNat with
  | .error k => .error (.trap k va)
  | .ok (e, t) =>
    if e.rm || rangeOf (e.phys va.toNat) ≠ .hbm then .error (.trap causeProt va)
    else if t.hbmPoisoned (e.phys va.toNat) 1 then .error (.poison va)
    else .ok (e.phys va.toNat, t)

/-- AWAIT's request at the home: the value, a registration, or a refusal to be sent again after 512 cycles. -/
def State.tryAwait (s : State) (c h pa : Nat) (va : Word64) (wide : Bool) (t : Word64) : State :=
  let s := s.recall pa
  let v := s.wordAt wide pa
  if t.sle v then s.setHeld c h (.awaitDone v)
  else if (s.flat.waiters.filter (fun w => decide (channelOf w.pa = channelOf pa))).length < 128 then
    (s.modFlat (fun f => { f with waiters := f.waiters ++ [{ core := c, ctx := h, pa := pa, wide := wide, threshold := t }] })).setHeld
      c h .awaitReg
  else s.setHeld c h (.awaitRefused (s.cycle + 512) va wide t)

/-- AWAIT. -/
def execAwait (w : Bool) (d a b : Reg) (ct : Cnt) (_acq : Bool) (_sc : Scope) (s : State) : Out :=
  finish s (s.me.pc + 8) (do
    needAll s.me [a.val, b.val]
    let va := s.me.sv a.val
    aligned va (if w then 4 else 8)
    let obj := some (3, va.toNat)
    let done (s : State) (v : Word64) : State := (s.give d v).bumpCounter s.curCore ct.val s.home.colour
    match s.me.held with
    | .awaitDone v => .ok (done s v)
    | .awaitReg => .error (.wait s obj)
    | .awaitRefused .. => .error (.wait s obj)
    | _ =>
      let (pa, t) ← s.awaitPlace s.curCore s.me.sup va
      let th := if w then BitVec.signExtend 64 ((s.me.sv b.val).truncate 32 : Word32) else s.me.sv b.val
      let t := t.tryAwait s.curCore s.curCtx pa va (!w) th
      match t.me.held with
      | .awaitDone v => .ok (done t v)
      | _ => .error (.wait t obj))

/-- AWAIT_REGISTRATION_RETRY: a refused request is sent again after 512 cycles and repeats the test. A request that now
meets an exception leaves it to the instruction, which raises it when it next runs. -/
def execAwaitRegistrationRetry (c h : Nat) (s : State) : Out :=
  match ((s.core c).ctx h).held with
  | .awaitRefused again va wide t =>
    if again ≤ s.cycle then
      match s.awaitPlace c ((s.core c).ctx h).sup va with
      | .ok (pa, u) => .next (u.tryAwait c h pa va wide t)
      | .error _ => .next (s.setHeld c h .none)
    else .next s
  | _ => .next s

/-! EVWAIT (R257, R258, R356). -/

/-- Waiters of every event that hold a record of the overflow area. -/
def SysDie.overflowUsed (y : SysDie) : Nat := (y.evWaiters.flatMap (fun q => q.2.filter (·.overflow))).length

/-- EVWAIT's request at the event table: the count, a registration, or a refusal. -/
def State.tryEvent (s : State) (c h e : Nat) (n : Word32) : State :=
  let v := s.sys.event e
  let q := s.sys.waitersOf e
  let reg (ov : Bool) : State :=
    (s.modSys (fun y => { y with evWaiters := y.evWaiters.set [] e (q ++ [{ core := c, ctx := h, n := n, overflow := ov }]) })).setHeld
      c h .eventReg
  if n = 0 then s.setHeld c h (.eventDone (v.zeroExtend 64))
  else if q = [] ∧ n.ule v = true then
    (s.modSys (fun y => { y with events := y.events.set 0 e (v - n) })).setHeld c h (.eventDone (v.zeroExtend 64))
  else if (q.filter (fun w => !w.overflow)).length < 4 then reg false
  else if s.sys.evovf ≠ 0 ∧ s.sys.overflowUsed < 65536 then reg true
  else s.setHeld c h (.eventRefused (s.cycle + 512) e n)

/-- EVWAIT. -/
def execEvwait (d a b : Reg) (s : State) : Out :=
  finish s (s.me.pc + 8) (do
    needAll s.me [a.val, b.val]
    let e := (s.me.sv a.val).toNat
    if 0xFFFF < e then .error (.trap causeProt (s.me.sv a.val))
    let obj := some (4, e)
    match s.me.held with
    | .eventDone v => .ok (s.give d v)
    | .eventReg => .error (.wait s obj)
    | .eventRefused .. => .error (.wait s obj)
    | _ =>
      let t := s.tryEvent s.curCore s.curCtx e ((s.me.sv b.val).truncate 32)
      match t.me.held with
      | .eventDone v => .ok (t.give d v)
      | _ => .error (.wait t obj))

/-- EVWAIT_REGISTRATION_RETRY: a refused registration is sent again after 512 cycles (R258). -/
def execEvwaitRegistrationRetry (c h : Nat) (s : State) : Out :=
  match ((s.core c).ctx h).held with
  | .eventRefused again e n => if again ≤ s.cycle then .next (s.tryEvent c h e n) else .next s
  | _ => .next s

end Sys2Proof.Machine
end

