-- ==== Sys2Proof/Machine/TaskCore.lean ====
section
/-! DEFINITION. Below the scheduler's rows: task records in memory, dependence counters, and notices for queue 0 (R245,
R246, R256). -/

namespace Sys2Proof.Machine

open Sys2Proof

/-! Task records (R245). -/

/-- A doubleword of a task record; 0 where it cannot be read. -/
def State.taskWord (s : State) (asid rec' k : Nat) : Word64 :=
  match s.sysWord asid true (rec' + 8 * k) with
  | .ok v => v
  | .error _ => 0

/-- Codes of STATE. -/
abbrev tIdle : Nat := 0
abbrev tWaiting : Nat := 1
abbrev tReady : Nat := 2
abbrev tRunning : Nat := 3
abbrev tDone : Nat := 4
abbrev tFailed : Nat := 5

/-- The fields of doubleword 2. -/
def taskWidth (w2 : Word64) : Nat := bits w2.toNat 7 0
def taskHeight (w2 : Word64) : Nat := bits w2.toNat 14 8
def taskPri (w2 : Word64) : Nat := bits w2.toNat 18 16
def taskDeps (w2 : Word64) : Nat := bits w2.toNat 39 24
def taskState (w2 : Word64) : Nat := bits w2.toNat 42 40

/-- Writes STATE of a record; a fault leaves it (DEDUCED, log 27). -/
def State.setTaskState (s : State) (asid rec' st : Nat) (old : Bool) : State :=
  match s.sysAtomic asid true old (rec' + 16) (fun v => w64 (setBits v.toNat 42 40 st)) false with
  | .ok (_, t) => t
  | .error _ => s.countRefused asid (rec' + 16) .both

/-! Notices (R256). -/

/-- CONFIG of a queue as memory holds it; 0 where it cannot be read (R250). -/
def State.queueConfig (s : State) (q : Queue) : Nat := (s.taskWord q.asid q.header 1).toNat

/-- Whether a queue that the dispatcher knows is armed: software that clears ARMED in CONFIG disarms it (R250). -/
def State.queueArmed (s : State) (q : Queue) : Bool := bitAt (s.queueConfig q) 16

/-- A queue with the number and the size that its CONFIG holds now (R250). -/
def State.queueNow (s : State) (q : Queue) : Queue := { q with num := bits (s.queueConfig q) 47 32, n := bits (s.queueConfig q) 4 0 }

/-- The armed queue of a number. -/
def State.queueNum (s : State) (n : Nat) : Option Queue :=
  (s.sys.queues.find? (fun q => s.queueArmed q && decide ((s.queueNow q).num = n))).map s.queueNow

/-- The numbers that armed queues hold. -/
def State.armedNums (s : State) : List Nat := (s.sys.queues.filter s.queueArmed).map (fun q => (s.queueNow q).num)

/-- The dispatcher knows an armed queue, in place of what it knew of its header; a BARRIER of it that has been dispatched and not
completed still holds it (R250, R252). -/
def State.knowQueue (s : State) (q : Queue) : State :=
  s.modSys (fun y => { y with queues := y.queues.filter (fun x => !(x.asid = q.asid && x.header = q.header)) ++
    [{ q with barrier := (y.packets.find? (fun p =>
        p.asid = q.asid && p.header = q.header && decide (bits (p.words[0]?.getD 0).toNat 7 0 = 2))).map (·.id) }] })

/-- NDROP of queue 0 counts a dropped notice, saturating. -/
def State.dropNotice (s : State) : State :=
  match s.queueNum 0 with
  | none => s
  | some q =>
    match s.sysAtomic q.asid true false (q.header + 0x20) (fun v => if v = BitVec.allOnes 64 then v else v + 1) false with
    | .ok (_, t) => t
    | .error _ => s

/-- A notice for queue 0: it waits among 256, or is dropped for want of room or of a handler. -/
def State.notify (s : State) (code : Nat) (args : List Word64) : State :=
  let handler : Bool := match s.queueNum 0 with
    | some q => (match s.sysWord q.asid true (q.header + 0xC0 + 8 * (code - 1)) with | .ok h => decide (h ≠ 0) | .error _ => true)
    | none => true
  if handler && decide (s.sys.notices.length < 256) then
    s.modSys (fun y => { y with notices := y.notices ++ [{ code := code, args := args }] })
  else s.dropNotice

/-! Dependence counters (R246). -/

/-- The task that waits under a record becomes READY. -/
def State.readyTask (s : State) (asid rec' : Nat) (old : Bool) : State :=
  if s.sys.tasks.any (fun t => t.asid = asid && t.rec' = rec' && !t.ready) then
    (s.modSys (fun y => { y with tasks := y.tasks.map (fun t =>
      if t.asid = asid ∧ t.rec' = rec' ∧ t.ready = false then { t with ready := true, since := s.cycle } else t) })).setTaskState
      asid rec' tReady old
  else s

/-- One decrement of DEPS; a fault leaves the record (DEDUCED, log 27). -/
def State.decDep (s : State) (asid rec' : Nat) (old : Bool) : State :=
  let f (v : Word64) : Word64 :=
    if taskDeps v = 0 then w64 (setBits v.toNat 19 19 1) else w64 (setBits v.toNat 39 24 (taskDeps v - 1))
  match s.sysAtomic asid true old (rec' + 16) f false with
  | .error _ => s.countRefused asid (rec' + 16) .both
  | .ok (v, t) =>
    if taskDeps v = 0 then t.notify 4 [w64 rec']
    else if taskDeps v = 1 ∧ taskState v = tWaiting then t.readyTask asid rec' old
    else t

/-- Decrements each dependent named by DEP0 to DEP3 of a record. -/
def State.decDeps (s : State) (asid rec' : Nat) (old : Bool) : State :=
  (upFrom 6 4).foldl (fun t k =>
    let d := s.taskWord asid rec' k
    if d = 0 then t else t.decDep asid d.toNat old) s

/-- Whether a colour is old for the job of an address space (R270). -/
def State.isOld (s : State) (asid : Nat) (colour : Bool) : Bool :=
  match s.newFor asid (some colour) with
  | some (_, n) => !n
  | none => false

end Sys2Proof.Machine
end

