-- ==== Sys2Proof/Machine/PgeWork.lean ====
section
/-! DEFINITION. What the put-and-get engine does with its commands, one piece at a time: which command may act, the units
of transfers, copies and sends, and flat atomics (R138 to R144, R180, R230 to R238, R262, R263, R318, R323 to R325, R342,
R343, R365, R366, R396, R407 to R409). A piece that must wait changes nothing. -/

namespace Sys2Proof.Machine

open Sys2Proof

/-! Commands in the engine. -/

/-- The command of a number. -/
def Core.pgeOf (x : Core) (id : Nat) : Option PgeCmd := x.pge.find? (fun p => p.id = id)

/-- Changes the command of a number. -/
def State.modPge (s : State) (c id : Nat) (f : PgeCmd → PgeCmd) : State :=
  s.modCore c (fun x => { x with pge := x.pge.map (fun p => if p.id = id then f p else p) })

/-- A command's work has ended with a status and the record's address word (R297). -/
def State.endPge (s : State) (c id status addr : Nat) : State :=
  s.modPge c id (fun p => { p with prog := .ended status (w64 addr), outUnits := [] })

/-- The party that a command's accesses belong to. -/
def PgeCmd.who (p : PgeCmd) (c : Nat) : Who := { core := c, cmd := p.id, sup := p.sup, colour := p.colour, asid := p.asid }

/-- Commands ahead of one in the engine's queue. -/
def Core.ahead (x : Core) (id : Nat) : List PgeCmd := x.pge.takeWhile (fun q => q.id ≠ id)

/-! Scopes, acquire and release (R236 to R238). -/

/-- Whether core d belongs to scope sc of core c (R236). -/
def State.inScope (s : State) (c : Nat) (sc : Scope) (d : Nat) : Bool :=
  match sc with
  | .core => d = c
  | .cluster => clusterOf d = clusterOf c
  | .group => (match s.teamOf c with | some t => (t.domain (s.core c).dom2).contains d | none => d = c)
  | .team => (s.core c).team.isSome && decide ((s.core d).team = (s.core c).team) || decide (d = c)
  | .die => dieOf d = dieOf c
  | .module => true
  | .system => true

/-- Whether a release at SYSTEM scope has yet to see the zero-length read behind its host writes come back (R318). -/
def PgeCmd.awaitsHost (p : PgeCmd) : Bool :=
  p.hostWrote && (ordOf p.ins).rel && decide ((ordOf p.ins).sc = .system) && decide (p.fence ≠ some true)

/-! Addresses (R138, R139, R143, R144). -/

/-- Units of eight bytes that a transfer moves. -/
def PgeCmd.units (p : PgeCmd) : Nat :=
  match p.ins with
  | .get x | .put x => x.len.toNat / 8
  | .grist x | .gristScatter x => (gristOf p.vc).count x.len.toNat / 8
  | .cpy x | .sendD x | .sendP x => x.len.toNat / 8
  | .sendI x => x.len.toNat / 8
  | _ => 0

/-- The flat address of unit u of a transfer, which does not wrap (R143). -/
def PgeCmd.unitVa (p : PgeCmd) (u : Nat) : Nat :=
  match p.ins with
  | .grist _ | .gristScatter _ => p.va.toNat + (gristOf p.vc).place (8 * u)
  | _ => p.va.toNat + 8 * u

/-- Whether a transfer's global operand is a node. -/
def isLin : Instr → Bool
  | .get x | .put x => x.lin
  | _ => false

/-- Whether a core has a read-mostly write of a command that is not performed (R232, R234), and whether a command's work has
ended with all its writes performed. -/
def State.pgeDone (s : State) (c : Nat) (q : PgeCmd) : Bool := q.prog.over && !s.rmPending c q.id

/-- The flat address of a transfer's first unit. -/
def PgeCmd.firstVa (p : PgeCmd) : Nat :=
  match p.ins with
  | .grist _ | .gristScatter _ => p.va.toNat + (gristOf p.vc).ix * (gristOf p.vc).bs
  | _ => p.va.toNat

/-- Units of a transfer, copy or send whose source has been read: those written, those sent or buffered. -/
def PgeCmd.readUnits (p : PgeCmd) : Nat := p.pos + p.buffer.length + (if p.outUnits.contains p.pos then 1 else 0)

/-- Whether a transfer writes flat memory that is not this module's, which SYSTEM alone can read (R236). -/
def State.writesOutside (s : State) (c : Nat) (q : PgeCmd) : Bool :=
  (match q.ins with | .put x => !x.lin | .gristScatter _ => true | _ => false) &&
  (match s.lookup c q.firstVa with
    | .ok (e, _) => (match rangeOf (e.phys q.firstVa) with | .host _ | .peer .. => true | _ => false)
    | .error _ => false)

/-- Whether an earlier command that has not ended is ordered before a release at a scope (R236, R237): its reads always, and
its writes when the scope can read what they change: a core's local store when it holds that core, host memory and peer
windows when it is SYSTEM. -/
def State.ordersBefore (s : State) (c : Nat) (sc : Scope) (q : PgeCmd) (units : Nat) : Bool :=
  if isCopy q.ins then
    (match s.destOf c q with | some d => s.inScope c sc d || decide (q.readUnits < units) | none => false)
  else if s.writesOutside c q && decide (sc ≠ .system) then decide (q.readUnits < units)
  else true

/-- Whether a write of the context that left through a port is not acknowledged (R234, R237). -/
def State.unacked (s : State) (c ctx id : Nat) : Bool :=
  s.fab.ports.any (fun e => (e.2.queue ++ e.2.retry ++ e.2.flight).any (fun k =>
    k.isWrite && decide (k.core = c ∧ k.ctx = ctx ∧ k.cmd < id)))

/-- Whether a matrix command's work has ended with all its writes performed. -/
def State.mxDone (s : State) (c : Nat) (m : MxCmd) : Bool :=
  (match m.phase with | .ended .. => true | _ => false) && !s.rmPending c m.id

/-- Whether a release's conditions are met: the context's earlier commands have ended (R237). -/
def State.released (s : State) (c ctx id : Nat) (sc : Scope) : Bool :=
  let x := s.core c
  !(x.pge.any (fun q => q.ctx = ctx && decide (q.id < id) && !s.pgeDone c q && s.ordersBefore c sc q q.units)) &&
  !(x.sendq.any (fun q => q.ctx = ctx && decide (q.id < id) && s.ordersBefore c sc q q.units)) &&
  !(decide (sc = .system) && s.unacked c ctx id) &&
  !(x.mx.any (fun m => m.ctx = ctx && decide (m.id < id) && !s.mxDone c m)) &&
  !(s.sys.lin.any (fun l => l.core = c && l.ctx = ctx && decide (l.id < id) && !l.prog.over))

/-- Whether an earlier acquire of the context still holds back a command (R238). -/
def State.acquiring (s : State) (c ctx id : Nat) : Bool :=
  ((s.core c).pge ++ (s.core c).sendq).any (fun q => q.ctx = ctx && decide (q.id < id) && (ordOf q.ins).acq && !q.prog.over) ||
  s.sys.lin.any (fun l => l.core = c && l.ctx = ctx && decide (l.id < id) && (ordOf l.ins).acq && !l.prog.over)

/-- Whether a release of the context stands at the head of the engine's queue, its conditions not met, before a command: it waits
there, and delays the context's later commands (R237). -/
def State.behindRelease (s : State) (c : Nat) (p : PgeCmd) : Bool :=
  ((s.core c).ahead p.id).any (fun q => decide (q.ctx = p.ctx ∧ q.prog = .waiting ∧ q.bind = .val true) && (ordOf q.ins).rel &&
    !s.released c q.ctx q.id (ordOf q.ins).sc)

/-- Whether a command may act: the engine has taken it among its 32 (R443), it and those ahead of it are bound to values
(R180), no acquire and no waiting release holds it, and its own release is met. One that has begun stays so. -/
def State.pgeReady (s : State) (c : Nat) (p : PgeCmd) : Bool :=
  match p.prog with
  | .ended .. => false
  | .running => true
  | .waiting =>
    (match p.bind with | .val _ => true | .slot _ => false) && decide (((s.core c).ahead p.id).length < 32) &&
    ((s.core c).ahead p.id).all (fun q => match q.bind with | .val _ => true | .slot _ => false) &&
    (p.bind = .val false ||
      (!s.acquiring c p.ctx p.id && !s.behindRelease c p && (!(ordOf p.ins).rel || s.released c p.ctx p.id (ordOf p.ins).sc)))

/-! Addresses, further (R141, R143). -/

/-- The slot of an index in a queue (R250). -/
def slotOf (header n i : Nat) : Nat := header + 0x100 + 64 * (i % 2 ^ n)

/-- The doubleword of the completion bitmap that a DONE changes; none without a bitmap (R260). -/
def State.doneVa (s : State) (c : Nat) (p : PgeCmd) : Option Nat :=
  match s.teamOf c with
  | some t => if t.bitmap = 0 then none else some (t.bitmap.toNat + 8 * (p.va.toNat / 64))
  | none => none

/-- The slot that a TSPAWN writes: that of its index, or of the index which its header now holds. -/
def State.spawnSlot (s : State) (c : Nat) (p : PgeCmd) : List Nat :=
  match s.lookup c p.va.toNat with
  | .ok (e, _) =>
    let pa := e.phys p.va.toNat
    let i := match p.result with | some i => i.toNat | none => s.hbmNum pa 8
    [slotOf p.va.toNat (bits (s.hbmNum (pa + 8) 8) 4 0) i]
  | .error _ => []

/-- Virtual addresses of the requests that a command has still to send to homes of flat memory, for the order of R141.
NMC keeps no order against other commands (R224). -/
def State.pendingVas (s : State) (c : Nat) (p : PgeCmd) : List Nat :=
  match p.ins with
  | .get _ | .put _ | .grist _ | .gristScatter _ => (upFrom p.readUnits (p.units - p.readUnits)).map p.unitVa
  | .aadd _ | .aaddw _ | .aswap _ | .acas .. | .amin _ | .amax _ | .aand _ | .aor _ =>
    if p.outUnits.isEmpty then [p.va.toNat] else []
  | .done .. => if p.outUnits.isEmpty then (s.doneVa c p).toList else []
  | .tspawn .. => (if p.pos = 0 then [p.va.toNat] else []) ++ s.spawnSlot c p
  | .heatage .. =>
    (if p.first.isNone then [p.va.toNat] else []) ++
      (upFrom p.pos (p.first.getD 4096 - p.pos)).map (fun r => p.va.toNat + 64 + 2 * r)
  | .rowrank _ _ _ _ _ h =>
    let rows := p.first.getD 4096
    (if p.first.isNone then [p.va.toNat] else []) ++
      (upFrom p.pos (rows - p.pos)).map (fun r => p.va.toNat + 64 + 2 * r) ++
      (upFrom (p.pos - rows) (h.toNat - (p.pos - rows))).map (fun r => p.vb.toNat + 4 * r)
  | .nmscan _ _ _ _ _ _ _ ty _ n =>
    let g := p.va.toNat / 4096
    (upFrom p.pos (ceilDiv (p.va.toNat + n.toNat * elemBytes ty) 4096 - g - p.pos)).map (fun k => max p.va.toNat (4096 * (g + k)))
  | _ => []

/-- The home of a physical address, by number: a channel of this module, or a channel of another module, whose requests keep
the order of R141 too (R15, R320); none for host memory. -/
def State.homeKey (s : State) (pa : Nat) : Option Nat :=
  match rangeOf pa with
  | .hbm => some (channelOf pa)
  | .peer w off =>
    let win := s.fab.window w
    some (Config.channelCount * (1 + win.node.toNat) + channelOf (win.rbase.toNat + off))
  | _ => none

/-- Homes of those requests, node blocks included (R15, R157). -/
def State.pendingChannels (s : State) (c : Nat) (p : PgeCmd) : List Nat :=
  if isLin p.ins then (upFrom p.pos (p.units - p.pos)).map (fun u => (p.vc.toNat + 8 * u) / 4096 % Config.channelCount)
  else
    (s.pendingVas c p).filterMap (fun va =>
      match s.lookup c va with
      | .ok (e, _) => s.homeKey (e.phys va)
      | .error _ => none)

/-- The local line under way of a transfer, when a tag condition or a drain of it holds the command back. -/
def State.heldLocally (s : State) (c : Nat) (p : PgeCmd) : Bool :=
  let x := s.core c
  let a := p.vb.toNat + 8 * p.pos
  match p.ins with
  | .get y | .grist y =>
    (y.t && !p.tagged && !s.failing c && !s.mayWrite c (lineOf y.lsp a) (c, p.id)) || x.pendingDrain y.lsp a 8
  | .put y | .gristScatter y => y.t && !p.tagged && !s.failing c && !s.mayRead c (lineOf y.lsp a) (c, p.id)
  | _ => false

/-- Whether a request to a home keeps the order of R141: no command ahead that could act now still has a request to
send there. A command that waits at a local line holds nothing back (DEDUCED, log 28). -/
def State.channelFree (s : State) (c : Nat) (p : PgeCmd) (ch : Nat) : Bool :=
  ((s.core c).ahead p.id).all (fun q =>
    q.prog.over || q.bind = .val false || !s.pgeReady c q || s.heldLocally c q || !(s.pendingChannels c q).contains ch)

/-! The global operand of a unit. -/

/-- What comes of reaching for a global unit. -/
inductive Reach1 where
  /-- Eight bytes and whether they are poisoned. -/
  | got (bs : List Byte) (poison : Bool) (s : State)
  /-- The unit has been written. -/
  | put (s : State)
  | wait (s : State)
  | fault (cause addr : Nat)
  /-- A fault that leaves its mark on the state: a request that an export entry drops (R326). -/
  | refused (cause addr : Nat) (s : State)

/-- What a request through a window asks for. -/
inductive Ask where
  | read
  | write (bs : List Byte) (poison : Bool)
  | atomic (operands : List Byte)

/-- The packet of a unit's request through a window (R319, R325). -/
def PgeCmd.packet (p : PgeCmd) (c u : Nat) (a : Ask) : FabPacket :=
  let k : FabPacket := { core := c, ctx := p.ctx, cmd := p.id, unit' := u, colour := p.colour, asid := p.asid }
  match a with
  | .read => k
  | .write bs poison => { k with isWrite := true, data := bs, poison := poison }
  | .atomic bs => { k with isAtomic := true, data := bs }

/-- Sends a unit's request through a peer window, or takes its answer (R325). `own` serves a window that leads back. -/
def State.viaWindow (s : State) (c : Nat) (p : PgeCmd) (u va w off : Nat) (a : Ask) (own : State → Nat → Reach1) : Reach1 :=
  match p.result with
  | some v => .got (leBytes 8 v.toNat) (decide (p.poisoned ≠ 0)) (s.modPge c p.id (fun q => { q with result := none, poisoned := 0 }))
  | none =>
    let win := s.fab.window w
    if p.outUnits.contains u then .wait s
    else if win.admits off && win.node ≠ s.sys.nodeid &&
        !s.channelFree c p (Config.channelCount * (1 + win.node.toNat) + channelOf (win.rbase.toNat + off)) then .wait s
    else
      match s.through w off (p.packet c u a) with
      | .here pa t => own t pa
      | .host h t =>
        (match a with
          | .read =>
            if t.flat.hostAbsent.contains (h / 4096) then .fault causeProt va
            else let (bs, q) := t.hostRead h 8; .got bs q t
          | .write bs poison =>
            if poison then .fault causePoisonEgress h
            else .put ((t.hostPut h bs).modPge c p.id (fun q => { q with hostWrote := true }))
          | .atomic _ => .fault causeProt va)
      | .prot _ => .fault causeProt va
      | .sent t => .wait (t.modPge c p.id (fun q => { q with prog := .running, outUnits := q.outUnits ++ [u] }))
      | .closed t => .refused causePeerRetired va t
      | .dead => .fault causeLinkDead va

/-- g_read(u) of R138: eight bytes of flat memory, of a node, of the host or through a window. -/
def State.gRead (s : State) (c : Nat) (p : PgeCmd) (u : Nat) : Reach1 :=
  if isLin p.ins then
    let off := p.vc.toNat + 8 * u
    if p.va.toNat / 2 ^ 32 ≠ 0 then .fault causeLinHandle p.va.toNat
    else if !s.channelFree c p (off / 4096 % Config.channelCount) then .wait s
    else
      match s.readNode p.asid (p.va.truncate 32) off with
      | .ok (bs, poison) => .got bs poison s
      | .stall => .wait s
      | .fault k => .fault k p.va.toNat
  else
    let va := p.unitVa u
    match s.xlate c p.sup .read va with
    | .error k => .fault k va
    | .ok (e, t) =>
      match rangeOf (e.phys va) with
      | .nothing => .fault causeProt va
      | .host a =>
        if t.flat.hostAbsent.contains (a / 4096) then .fault causeProt va
        else let (bs, q) := t.hostRead a 8; .got bs q t
      | .peer w off => t.viaWindow c p u va w off .read (fun t pa =>
          match t.readHbm c pa 8 with
          | .ok (bs, q) => .got bs q t
          | .stall => .wait t
          | .fault k => .fault k va)
      | .hbm =>
        if !t.channelFree c p (channelOf (e.phys va)) then .wait s
        else
          let t := t.recall (e.phys va)
          match t.readHbm c (e.phys va) 8 with
          | .ok (bs, q) => .got bs q t
          | .stall => .wait s
          | .fault k => .fault k va

/-- g_write(u, v) of R138. `act` is what the write does to the poison of its sector. -/
def State.gWrite (s : State) (c : Nat) (p : PgeCmd) (u : Nat) (bs : List Byte) (act : PoisonAct) : Reach1 :=
  if isLin p.ins then
    let off := p.vc.toNat + 8 * u
    if p.va.toNat / 2 ^ 32 ≠ 0 then .fault causeLinHandle p.va.toNat
    else if !s.channelFree c p (off / 4096 % Config.channelCount) then .wait s
    else
      match s.writeNode (p.who c) (p.va.truncate 32) off bs (act = .set) (act = .clear) with
      | .ok t => .put t
      | .stall => .wait s
      | .fault k => .fault k p.va.toNat
  else
    let va := p.unitVa u
    match s.xlate c p.sup .write va with
    | .error k => .fault k va
    | .ok (e, t) =>
      match rangeOf (e.phys va) with
      | .nothing => .fault causeProt va
      | .host a =>
        if act = .set then .fault causePoisonEgress a
        else .put ((t.hostPut a bs).modPge c p.id (fun q => { q with hostWrote := true }))
      | .peer w off =>
        match t.viaWindow c p u va w off (.write bs (decide (act = .set))) (fun t pa =>
          .put (t.physWrite p.asid (t.isOld p.asid p.colour) pa bs act)) with
        | .got _ _ t => .put t
        | r => r
      | .hbm =>
        if !t.channelFree c p (channelOf (e.phys va)) then .wait s
        else
          match t.writeHbm (p.who c) e va bs act with
          | (true, t) => .put t
          | (false, t) => .wait t

/-! Local lines of a transfer (R129, R130, R133, R134). -/

/-- Whether a unit at address a ends its line within an extent that ends at `hi`. -/
def lineEnds (a hi : Nat) : Bool := (a + 8) % 256 = 0 || a + 8 = hi

/-- Writes a unit into a core's local store with the line's tag discipline, for the command `me`; none when it must wait. The
extent is [lo, hi); `bad` says that a poisoned unit of the line came before. In a failing team, whose contexts free no line any more, a
command's tag waits have ended (R304; DEDUCED, log 52). -/
def State.fillUnit (s : State) (me : Nat × Nat) (d : Nat) (sp : Space) (a : Nat) (bs : List Byte) (poison t k tagged : Bool) (lo hi : Nat)
    (bad : Bool) : Option State :=
  let x := s.core d
  let l := lineOf sp a
  if (t && !tagged && !s.failing d && !s.mayWrite d l me) || x.pendingDrain sp a 8 then none
  else
    some (s.modCore d (fun x =>
      let y := x.stBytes sp a bs
      let g := y.tag l
      let g := if poison then { g with p := true } else g
      let g := if lineEnds a hi then
          let g := if t && !k then { g with v := true, u := false } else g
          let whole : Bool := decide (lo ≤ lineAddr l) && decide (lineAddr l + 256 ≤ hi)
          if whole && !bad && !poison then { g with p := false } else g
        else g
      if g = y.tag l then y else y.setTag l g))

/-- Reads a unit of a core's local store with the line's tag discipline, for command `id` of the core: the bytes, P, and the
state; none when it must wait. A read that would set U of a line still to be drained waits for the drain, but one with the old colour does not: the
line counts as pending until it has been read (R276, R279; DEDUCED, log 24). -/
def State.drawUnit (s : State) (c id : Nat) (colour : Bool) (sp : Space) (a : Nat) (t k tagged : Bool) (hi : Nat) :
    Option (List Byte × Bool × State) :=
  let x := s.core c
  let l := lineOf sp a
  let spends : Bool := t && !k && lineEnds a hi
  if (t && !tagged && !s.failing c && !s.mayRead c l (c, id)) || (spends && x.drain.contains l && colour == x.colour) then none
  else some ((x.store sp).read a 8, (x.tag l).p, if spends then s.modCore c (fun x => x.markSpent l) else s)

/-! Steps. -/

/-- Moves to the next unit, or ends the work when it was the last. -/
def State.nextUnit (s : State) (c : Nat) (p : PgeCmd) (tagged dtagged bad : Bool) : State :=
  let s := s.modPge c p.id (fun q => { q with
    prog := .running, pos := q.pos + 1, tagged := tagged, dtagged := dtagged, badLine := bad, outUnits := [] })
  if p.units ≤ p.pos + 1 ∧ s.rmPending c p.id = false then s.endPge c p.id stOk 0 else s

/-- One unit of GET or a gather. -/
def State.getStep (s : State) (c : Nat) (p : PgeCmd) (x : XferArgs) : State :=
  let a := p.vb.toNat + 8 * p.pos
  let hi := p.vb.toNat + 8 * p.units
  if s.heldLocally c p then s
  else
    match s.gRead c p p.pos with
    | .fault k addr => s.endPge c p.id k addr
    | .got bs poison t =>
      (match t.fillUnit (c, p.id) c x.lsp a bs poison x.t x.k p.tagged p.vb.toNat hi p.badLine with
        | none => s
        | some t =>
          let e := lineEnds a hi
          let t := t.infl c p.colour (.store c x.lsp a bs (some ((t.core c).tag (lineOf x.lsp a))) none)
            [t.coreName c, 1, spaceCode x.lsp, a, 8, 0] bs
          let t := if p.result.isNone then t.countIfOld p.asid 2 2 p.colour else t
          t.nextUnit c p (!e) false (!e && (p.badLine || poison)))
    | .wait t => t
    | .put t => t
    | .refused k addr t => t.endPge c p.id k addr

/-- What a unit of PUT does to the poison of its destination sector: set from a line with P set; cleared when the command
has covered the whole sector with clean units (R133, R442). -/
def PgeCmd.poisonAct (p : PgeCmd) (start off : Nat) (poison : Bool) : PoisonAct :=
  if poison then .set
  else if off % 32 = 24 ∧ start ≤ off / 32 * 32 ∧ p.badLine = false then .clear
  else .keep

/-- Where the units that a transfer moves without a gap around unit u begin: the operand, or the block of a scatter. -/
def PgeCmd.runStart (p : PgeCmd) (u : Nat) : Nat :=
  match p.ins with
  | .gristScatter _ => let g := gristOf p.vc
    p.va.toNat + (if g.np = 1 then 0 else g.place (8 * u / g.bs * g.bs))
  | _ => if isLin p.ins then p.vc.toNat else p.va.toNat

/-- The offset or address of a unit of the global operand of a transfer. -/
def PgeCmd.unitOff (p : PgeCmd) (u : Nat) : Nat := if isLin p.ins then p.vc.toNat + 8 * u else p.unitVa u

/-- One unit of PUT or a scatter. A read-mostly write that is not performed holds the last unit's end. -/
def State.putStep (s : State) (c : Nat) (p : PgeCmd) (x : XferArgs) : State :=
  let a := p.vb.toNat + 8 * p.pos
  let hi := p.vb.toNat + 8 * p.units
  match s.drawUnit c p.id p.colour x.lsp a x.t x.k p.tagged hi with
  | none => s
  | some (bs, poison, t) =>
    let off := p.unitOff p.pos
    match t.gWrite c p p.pos bs (p.poisonAct (p.runStart p.pos) off poison) with
    | .fault k addr => s.endPge c p.id k addr
    | .put t =>
      let bad := (p.badLine || poison) && decide (p.unitOff (p.pos + 1) / 32 = off / 32)
      t.nextUnit c p (!(lineEnds a hi)) false bad
    | .wait _ =>
      (match s.gWrite c p p.pos bs (p.poisonAct (p.runStart p.pos) off poison) with
        | .wait t => t
        | _ => s)
    | .got _ _ t => t
    | .refused k addr t => t.endPge c p.id k addr

/-- Whether a destination receives nothing: outside the team, fenced, or stopped by its team's failure (R140). -/
def State.refuses (s : State) (c d : Nat) : Bool :=
  s.fenced d || (match s.teamOf c with
    | some t => (match t.phase with | .failing .. => true | _ => false)
    | none => true)

/-- Whether a copy or send to a core must wait for one issued before it to the same core: each is performed, and bumps at
the destination, in issue order (R235; within a phase, R87). -/
def State.copyHeld (s : State) (c : Nat) (p : PgeCmd) (d : Nat) : Bool :=
  ((s.core c).ahead p.id).any (fun q => isCopy q.ins && decide (s.destOf c q = some d) &&
    (!q.prog.over || (q.bind ≠ .val false && !q.bumpedDst && (match q.prog with | .ended st _ => decide (st = stOk) | _ => false) &&
      (match q.ins with
        | .cpy x | .sendD x | .sendP x => x.wh ≠ .issuer
        | .sendI x => x.wh ≠ .issuer
        | _ => false))))

/-- Reads the next unit of a copy's source into its buffer, while its destination makes it wait. -/
def State.copyAhead (s : State) (c : Nat) (p : PgeCmd) (x : CopyArgs) : State :=
  let r := p.pos + p.buffer.length
  let a := p.vb.toNat + 8 * r
  let hi := p.vb.toNat + 8 * p.units
  if p.units ≤ r then s
  else
    match s.drawUnit c p.id p.colour x.lsp a x.t x.k p.tagged hi with
    | none => s
    | some (bs, poison, t) => t.modPge c p.id (fun q => { q with
        prog := .running, buffer := q.buffer ++ [(bs, poison)], tagged := !(lineEnds a hi) })

/-- Which ends of a command bump their counter. -/
def whereOf : Instr → Where
  | .cpy x | .sendD x | .sendP x => x.wh
  | .sendI x => x.wh
  | _ => .issuer

/-- Records an old delivery of a copy or send at its destination (R278). The record of the last one names the counter that
the packet bumps there, and that bump has no record of its own. -/
def State.deliver1 (s : State) (c : Nat) (p : PgeCmd) (d : Nat) (last : Bool) (f : Option Nat → Infl × List Nat) (data : List Byte) :
    State :=
  let counts : Bool := last && decide (whereOf p.ins ≠ .issuer)
  let (r, words) := f (if counts then some (ctOf p.ins) else none)
  let late : Bool := match s.cutFor d with | some k => decide (p.colour ≠ kilnColour k.num) | none => false
  let t := s.infl d p.colour r ([s.coreName d] ++ words ++ [if counts then ctOf p.ins else 0]) data
  if counts && late then t.modPge c p.id (fun q => { q with inflBump := true }) else t

/-- Writes a unit of a copy at its destination; none when it must wait. -/
def State.copyWrite (s : State) (c : Nat) (p : PgeCmd) (x : CopyArgs) (d : Nat) (bs : List Byte) (poison tagged : Bool) :
    Option State :=
  let b := p.vc.toNat + 8 * p.pos
  let dhi := p.vc.toNat + 8 * p.units
  (s.fillUnit (c, p.id) d x.dsp b bs poison x.dt x.dk p.dtagged p.vc.toNat dhi p.badLine).map (fun t =>
    let e := lineEnds b dhi
    let t := (t.countIfOld p.asid 1 1 p.colour).deliver1 c p d (decide (p.units ≤ p.pos + 1)) (fun ct =>
      (.store d x.dsp b bs (some ((t.core d).tag (lineOf x.dsp b))) ct, [1, spaceCode x.dsp, b, 8])) bs
    t.nextUnit c p tagged (!e) (!e && (p.badLine || poison)))

/-- One unit of CPY, SEND.d or SEND.p. The destination cuts before the packet reaches it (R275). -/
def State.copyStep (s : State) (c : Nat) (p : PgeCmd) (x : CopyArgs) : State :=
  match s.destOf c p with
  | none => s.endPge c p.id causeSendReject p.va.toNat
  | some d =>
    if s.refuses c d then s.endPge c p.id causeSendReject p.va.toNat
    else if s.copyHeld c p d then s
    else
      let s := s.cutBefore d p.colour
      match p.buffer with
      | (bs, poison) :: rest =>
        (match (s.modPge c p.id (fun q => { q with buffer := rest })).copyWrite c p x d bs poison p.tagged with
          | some t => t
          | none => s.copyAhead c p x)
      | [] =>
        let a := p.vb.toNat + 8 * p.pos
        let hi := p.vb.toNat + 8 * p.units
        match s.drawUnit c p.id p.colour x.lsp a x.t x.k p.tagged hi with
        | none => s
        | some (bs, poison, t) => (t.copyWrite c p x d bs poison (!(lineEnds a hi))).getD (s.copyAhead c p x)

/-! SEND.i (R262, R263, R409). -/

/-- Places a record in a core's inbox: the ring manager's three cases; none when it is refused. -/
def Core.placeRecord (x : Core) (rank : Nat) (payload : List Byte) (poison : Bool) : Option Core :=
  let b := x.inbox
  let len := 8 + payload.length
  let free := b.size - b.used.toNat
  let tail := if b.size = 0 then 0 else (b.head.toNat + b.used.toNat) % b.size
  let put (x : Core) (off : Nat) : Core :=
    let y := x.stBytes .a (b.start + off) (leBytes 8 (inboxHeader 1 (payload.length / 8) rank) ++ payload)
    if poison then y.markPoison .a (b.start + off) len else y.cleanLines .a (b.start + off) len
  if tail + len ≤ b.size ∧ len ≤ free then
    some { put x tail with inbox := { b with used := b.used + BitVec.ofNat 16 len } }
  else
    let pad := b.size - tail
    if b.size ≠ 0 ∧ len ≤ b.size ∧ pad + len ≤ free then
      let x := x.stBytes .a (b.start + tail) (leBytes 8 (inboxHeader 0 ((pad - 8) / 8) rank))
      some { put x 0 with inbox := { b with used := b.used + BitVec.ofNat 16 (pad + len) } }
    else none

/-- Lines that a record's placement may write. -/
def Core.ringLines (x : Core) : List Nat := (upFrom 0 x.inbox.lines.toNat).map (fun i => 192 + x.inbox.base.toNat + i)

/-- One attempt to place a SEND.i's record. The k-th refusal is followed by another try 256 k cycles later, and the 16th
ends the command. -/
def State.placeTry (s : State) (c : Nat) (p : PgeCmd) (d : Nat) : State :=
  let s' := s.cutBefore d p.colour
  let x := s'.core d
  if x.ringLines.any (fun l => x.drain.contains l) then s'
  else
    let rank := match s.teamOf c with | some t => t.rankOf c | none => 0
    match x.placeRecord rank p.img (decide (p.poisoned ≠ 0)) with
    | some y =>
      let s' := s'.modCore d (fun _ => y)
      let header := leBytes 8 (inboxHeader 1 (p.img.length / 8) rank)
      ((s'.countIfOld p.asid 1 1 p.colour).deliver1 c p d true (fun ct =>
        (.inbox d rank p.img (decide (p.poisoned ≠ 0)) ct, [2, 1, 0, 8 + p.img.length])) (header ++ p.img)).endPge c p.id stOk 0
    | none =>
      let n := p.tries.refusals + 1
      let s' := s'.modCore d (fun x => { x with inbox := { x.inbox with
        drop := if x.inbox.drop = BitVec.allOnes 16 then x.inbox.drop else x.inbox.drop + 1 } })
      if 16 ≤ n then s'.endPge c p.id causeSendReject p.va.toNat
      else s'.modPge c p.id (fun q => { q with prog := .running, tries := { refusals := n, again := s.cycle + 256 * n } })

/-- One piece of SEND.i: a unit of its payload, then its first attempt. -/
def State.inboxStep (s : State) (c : Nat) (p : PgeCmd) (x : InboxArgs) : State :=
  match s.destOf c p with
  | none => s.endPge c p.id causeSendReject p.va.toNat
  | some d =>
    if s.refuses c d then s.endPge c p.id causeSendReject p.va.toNat
    else if s.copyHeld c p d then s
    else if p.pos < p.units then
      let a := p.vb.toNat + 8 * p.pos
      let hi := p.vb.toNat + 8 * p.units
      match s.drawUnit c p.id p.colour x.lsp a x.t x.k p.tagged hi with
      | none => s
      | some (bs, poison, t) =>
        t.modPge c p.id (fun q => { q with
          prog := .running, pos := q.pos + 1, tagged := !(lineEnds a hi), img := q.img ++ bs, poisoned := q.poisoned + b2n poison })
    else if p.tries.refusals = 0 then s.placeTry c p d
    else s

/-- SEND_I_RETRY: a refused record is sent again when its time has come (R262). -/
def execSendIRetry (c id : Nat) (s : State) : Out :=
  match (s.core c).pgeOf id with
  | some p =>
    (match p.ins, s.destOf c p with
      | .sendI _, some d =>
        if p.tries.refusals = 0 ∨ p.prog.over = true ∨ s.cycle < p.tries.again then .next s
        else if s.refuses c d then .next (s.endPge c p.id causeSendReject p.va.toNat)
        else .next (s.placeTry c p d)
      | _, _ => .next s)
  | none => .next s

/-! Atomics (R342, R343). -/

/-- op(old, x, e) on n bits; none when an ACAS writes nothing. -/
def applyAtomic (k : AtomicKind) (n old x e : Nat) : Option Nat :=
  match k with
  | .add | .addw => some ((old + x) % 2 ^ n)
  | .swap => some x
  | .cas => if old = e ∧ x ≠ old then some x else none
  | .min => some (if toSigned n x < toSigned n old then x else old)
  | .max => some (if toSigned n old < toSigned n x then x else old)
  | .and => some (old &&& x)
  | .or => some (old ||| x)

/-- The kind of an atomic. -/
def atomicKind : Instr → Option AtomicKind
  | .aadd _ => some .add
  | .aaddw _ => some .addw
  | .aswap _ => some .swap
  | .acas .. => some .cas
  | .amin _ => some .min
  | .amax _ => some .max
  | .aand _ => some .and
  | .aor _ => some .or
  | _ => none

/-- op of an instruction. -/
def atomicOp (i : Instr) (n old x e : Nat) : Option Nat := (atomicKind i).bind (fun k => applyAtomic k n old x e)

/-- The operands of an atomic. -/
def atomicArgs : Instr → Option AtomicArgs
  | .aadd x | .aaddw x | .aswap x | .acas x _ | .amin x | .amax x | .aand x | .aor x => some x
  | _ => none

/-- Ends an atomic with its old value in bits [8n − 1:0]. -/
def State.endAtomic (s : State) (c : Nat) (p : PgeCmd) (n old : Nat) : State :=
  (s.modPge c p.id (fun q => { q with result := some (BitVec.ofInt 64 (toSigned (8 * n) old)) })).endPge c p.id stOk 0

/-- Nanoseconds for which a home keeps the tuple of a tagged atomic (R324). -/
abbrev tupleLife : Nat := 4000000

/-- The tuples that a home holds now (R324). -/
def State.tuplesAt (s : State) (ch : Nat) : List TagTuple :=
  s.flat.tuples.filter (fun t => t.channel = ch && decide (s.host.clock < t.at' + tupleLife))

/-- The kept tuple of a requester and tag at a home (R324). -/
def State.tupleAt (s : State) (ch name ctx tag : Nat) : Option TagTuple :=
  (s.tuplesAt ch).find? (fun t => t.name = name && t.ctx = ctx && t.tag = tag)

/-- A flat atomic at its home (R342). -/
def State.atomicAt (s : State) (c : Nat) (p : PgeCmd) (x : AtomicArgs) (e : TlbEntry) (va : Nat) : State :=
  let pa := e.phys va
  let n := if x.w then 4 else 8
  let ch := channelOf pa
  match (if x.tg then s.tupleAt ch (s.coreName c) p.ctx x.tag.toNat else none) with
  | some t => (s.modPge c p.id (fun q => { q with result := some t.result })).endPge c p.id stOk 0
  | none =>
    if x.tg && decide (256 ≤ (s.tuplesAt ch).length) then s.modPge c p.id (fun q => { q with prog := .running })
    else if s.hbmPoisoned pa n then s.endPge c p.id causePoison va
    else
      let old := s.hbmNum pa n
      let xv := p.vb.toNat % 2 ^ (8 * n)
      let ev := p.vc.toNat % 2 ^ (8 * n)
      let keep (t : State) : State := if x.tg then t.modFlat (fun f => { f with tuples := f.tuples ++
          [{ channel := ch, name := s.coreName c, ctx := p.ctx, tag := x.tag.toNat
             result := BitVec.ofInt 64 (toSigned (8 * n) old), at' := s.host.clock }] }) else t
      let f (v : Nat) : Option Nat := atomicOp p.ins (8 * n) v xv ev
      match s.changeHbm (p.who c) e va n f with
      | (false, t) => t
      | (true, t) =>
        let t := keep (t.recall pa)
        let t := if (f old).isSome then t.poke else t
        let t := match p.ins with | .aaddw _ => t.wake pa n | _ => t
        t.endAtomic c p n old

/-- Whether an atomic would write at a physical address now: it is performed, and its operation gives a value (R324, R342). -/
def State.atomicWrites (s : State) (c : Nat) (p : PgeCmd) (x : AtomicArgs) (pa : Nat) : Bool :=
  let n := if x.w then 4 else 8
  let ch := channelOf pa
  !(x.tg && ((s.tupleAt ch (s.coreName c) p.ctx x.tag.toNat).isSome || decide (256 ≤ (s.tuplesAt ch).length))) &&
    !s.hbmPoisoned pa n &&
    (atomicOp p.ins (8 * n) (s.hbmNum pa n) (p.vb.toNat % 2 ^ (8 * n)) (p.vc.toNat % 2 ^ (8 * n))).isSome

/-- One piece of an atomic. -/
def State.atomicStep (s : State) (c : Nat) (p : PgeCmd) (x : AtomicArgs) : State :=
  let va := p.va.toNat
  match s.xlate c p.sup .both va with
  | .error k => s.endPge c p.id k va
  | .ok (e, t) =>
    if e.rm then t.endPge c p.id causeProt va
    else
      match rangeOf (e.phys va) with
      | .nothing => t.endPge c p.id causeProt va
      | .host _ => t.endPge c p.id causeProt va
      | .peer w off =>
        (match t.viaWindow c p 0 va w off (.atomic (leBytes 8 p.vb.toNat ++ leBytes 8 p.vc.toNat)) (fun t pa =>
            let u := t.settle pa 8
            .put ((u.touched pa 8 (u.atomicWrites c p x pa)).atomicAt c p x (t.loopEntry p.asid va pa) va)) with
          | .got bs _ t => t.endAtomic c p (if x.w then 4 else 8) (leNat bs)
          | .put t => t
          | .wait t => t
          | .fault k a => t.endPge c p.id k a
          | .refused k a t => t.endPge c p.id k a)
      | .hbm => if t.channelFree c p (channelOf (e.phys va)) then t.atomicAt c p x e va else s

end Sys2Proof.Machine
end

