-- ==== Sys2Proof/Machine/PgeTasks.lean ====
section
/-! DEFINITION. The other commands of the put-and-get engine: events, tasks and queues, heat tables, Cask commands and
scans, and the step that all of them share (R209 to R228, R257, R259 to R261, R266, R355, R356, R369, R387 to R389, R405,
R416, R417, R439). -/

namespace Sys2Proof.Machine

open Sys2Proof

/-- Whether a command of the same kind ahead in the queue could act now: requests to one place keep issue order (R141). -/
def State.aheadOfKind (s : State) (c : Nat) (p : PgeCmd) (kind : PgeCmd → Bool) : Bool :=
  ((s.core c).ahead p.id).any (fun q => kind q && !q.prog.over && decide (q.bind ≠ .val false) && s.pgeReady c q)

/-! Events and tasks. -/

/-- EVPOST (R257, R357). -/
def State.evpostStep (s : State) (c : Nat) (p : PgeCmd) : State :=
  if s.aheadOfKind c p (fun q => match q.ins with | .evpost .. => true | _ => false) then s
  else if 0xFFFF < p.va.toNat then s.endPge c p.id causeProt p.va.toNat
  else ((s.countIfOld p.asid 2 2 p.colour).postEvent p.va.toNat (p.vb.truncate 32)).endPge c p.id stOk 0

/-- Changes what a launch of a team keeps; an old command's change is part of the running kiln's snapshot as well. -/
def State.modLaunch (s : State) (t : Team) (colour : Bool) (f : Team → Team) : State :=
  let s' := s.modTeam t.id f
  match (s.job t.asid).bind Job.running with
  | some k => if colour = kilnColour k.num then s'
    else s'.modKiln t.asid k.num (fun z => { z with teams := z.teams.map (fun x => if x.id = t.id then f x else x) })
  | none => s'

/-- TRIG (R261, R416): the first of the launch decrements the task's dependents. -/
def State.trigStep (s : State) (c : Nat) (p : PgeCmd) : State :=
  match s.teamOf c with
  | none => s.endPge c p.id stOk 0
  | some t =>
    if t.trigDone then s.endPge c p.id stOk 0
    else
      let u := (s.countIfOld p.asid 2 2 p.colour).modLaunch t p.colour (fun t => { t with trigDone := true })
      (u.decDeps t.asid t.rec' (s.isOld t.asid p.colour)).endPge c p.id stOk 0

/-- DONE (R260, R355): an atomic OR at the home of the bitmap doubleword, which may lie in a peer window (R323). A doubleword
in a poisoned sector ends it with POISON, as R342 has it (DEDUCED, log 29). -/
def State.doneStep (s : State) (c : Nat) (p : PgeCmd) : State :=
  match s.doneVa c p with
  | none => s.endPge c p.id causeProt 0
  | some va =>
    let bit := 2 ^ (p.va.toNat % 64)
    let set (t : State) (e : TlbEntry) : State :=
      if t.hbmPoisoned (e.phys va) 8 then t.endPge c p.id causePoison va
      else
        match t.changeHbm (p.who c) e va 8 (fun v => some (v ||| bit)) with
        | (true, u) => u.poke.endPge c p.id stOk 0
        | (false, u) => u
    match s.xlate c p.sup .write va with
    | .error k => s.endPge c p.id k va
    | .ok (e, t) =>
      if e.rm then t.endPge c p.id causeProt va
      else
        match rangeOf (e.phys va) with
        | .hbm => if t.channelFree c p (channelOf (e.phys va)) then set t e else s
        | .peer w off =>
          (match t.viaWindow c p 0 va w off (.atomic (leBytes 8 bit)) (fun t pa =>
              .put (set (t.touched pa 8 (!(t.settle pa 8).hbmPoisoned pa 8)) (t.loopEntry p.asid va pa))) with
            | .got _ _ t => t.endPge c p.id stOk 0
            | .put t => t
            | .wait t => t
            | .fault k a => t.endPge c p.id k a
            | .refused k a t => t.endPge c p.id k a)
        | _ => t.endPge c p.id causeProt va

/-- The next item of a range of a team's distributor, and the team after it (R259). -/
def Team.nextItem (t : Team) (r : Nat) : Word64 × Team :=
  let (nx, ny) := t.ranges[r]?.getD (0, 0)
  let i := t.next.get 0 r
  if i < nx * ny then (w64 (i / nx * 2 ^ 32 + i % nx), { t with next := t.next.set 0 r (i + 1) })
  else (BitVec.allOnes 64, t)

/-- WDQ (R259, R439): takes the item, then makes the tagged write. The WDQs of one core take their items, and receive them, in
issue order, whatever holds one of them back (R268). -/
def State.wdqStep (s : State) (c : Nat) (p : PgeCmd) (r : Nat) : State :=
  let behind (kind : PgeCmd → Bool) : Bool := ((s.core c).ahead p.id).any (fun q =>
    (match q.ins with | .wdq .. => kind q | _ => false) && !q.prog.over && decide (q.bind ≠ .val false))
  match p.result with
  | none =>
    if behind (fun q => q.result.isNone) then s
    else
      match s.teamOf c with
      | none => (s.modPge c p.id (fun q => { q with prog := .running, result := some (BitVec.allOnes 64) }))
      | some t =>
        let (v, t') := t.nextItem r
        (s.modLaunch t p.colour (fun x => { x with next := x.next.set 0 r (t'.next.get 0 r) })).modPge c p.id
          (fun q => { q with prog := .running, result := some v })
  | some v =>
    let a := p.vb.toNat
    let bs := leBytes 8 v.toNat
    if behind (fun _ => true) then s
    else
      match s.fillUnit (c, p.id) c .a a bs false true false false a (a + 8) false with
      | none => s
      | some t => ((t.countIfOld p.asid 2 2 p.colour).infl c p.colour (.store c .a a bs (some ((t.core c).tag (lineOf .a a))) none)
        [t.coreName c, 1, 1, a, 8, 0] bs).endPge c p.id stOk 0

/-- TSPAWN (R266, R417): the reservation, the slot's body, its header word. -/
def State.tspawnStep (s : State) (c : Nat) (p : PgeCmd) : State :=
  let h := p.va.toNat
  let change (s : State) (va n : Nat) (f : Nat → Nat) (k : State → State) : State :=
    match s.xlate c p.sup .write va with
    | .error f => s.endPge c p.id f va
    | .ok (e, t) =>
      if !t.channelFree c p (channelOf (e.phys va)) then s
      else match t.changeHbm (p.who c) e va n (fun v => some (f v)) with | (true, u) => k u | (false, u) => u
  let put (s : State) (va : Nat) (bs : List Byte) (k : State → State) : State := change s va bs.length (fun _ => leNat bs) k
  match s.xlate c p.sup .both h with
  | .error f => s.endPge c p.id f h
  | .ok (e, t) =>
    let pa := e.phys h
    if e.rm || rangeOf pa ≠ .hbm then t.endPge c p.id causeProt h
    else
      let n := bits (t.hbmNum (pa + 8) 8) 4 0
      match p.pos, p.result with
      | 0, _ =>
        if n < 3 ∨ 16 < n then t.endPge c p.id causeProt h
        else if !t.channelFree c p (channelOf pa) then s
        else if t.hbmPoisoned pa 256 then t.endPge c p.id causePoison h
        else
          let i := t.hbmNum pa 8
          if 2 ^ n ≤ (w64 i - w64 (t.hbmNum (pa + 0x40) 8)).toNat then
            ((t.countIfOld p.asid 2 2 p.colour).modPge c p.id (fun q => { q with result := some (BitVec.allOnes 64) })).endPge c p.id stOk 0
          else
            let slot := slotOf h n i
            match t.xlate c p.sup .both slot with
            | .error f => t.endPge c p.id f slot
            | .ok (es, t) =>
              let sp := es.phys slot
              if es.rm || rangeOf sp ≠ .hbm then t.endPge c p.id causeProt slot
              else if t.hbmPoisoned sp 64 then t.endPge c p.id causePoison slot
              else
                change t h 8 (· + 1) (fun u => ((u.poke).wake pa 8).modPge c p.id (fun q =>
                  { q with prog := .running, pos := 1, result := some (w64 i) }))
      | 1, some i =>
        put t (slotOf h n i.toNat + 8) (p.img.drop 8) (fun u => u.modPge c p.id (fun q => { q with pos := 2 }))
      | _, some i =>
        put t (slotOf h n i.toNat) (leBytes 8 (setBits (leNat (p.img.take 8)) 8 8 (b2n (bitAt i.toNat n))))
          (fun u => u.endPge c p.id stOk 0)
      | _, none => s.endPge c p.id stOk 0

/-! Heat tables (R209, R213 to R215, R369, R405). -/

/-- ROWS of a heat table as a core reads it; the status that ends the command, or a wait at a locked replica (R232). A header
in a poisoned sector gives POISON (DEDUCED, log 59). -/
def State.heatRows (s : State) (c : Nat) (p : PgeCmd) : Served (Nat × State) :=
  match s.xlate c p.sup .read p.va.toNat with
  | .error k => .fault k
  | .ok (e, t) =>
    let pa := e.phys p.va.toNat
    if rangeOf pa ≠ .hbm then .fault causeProt
    else if !t.channelFree c p (channelOf pa) then .stall
    else
      match t.readHbm c pa 4 with
      | .stall => .stall
      | .fault k => .fault k
      | .ok (bs, poison) =>
        if poison then .fault causePoison
        else if leNat bs < 1 ∨ 4096 < leNat bs then .fault causeProt
        else .ok (leNat bs, t.countIfOld p.asid 2 2 p.colour)

/-- Shifts one counter at its home (R213), once no read-mostly write holds its granule (R232). Counters that are poisoned for the
core's die are left, and end the command with POISON (R369). -/
def State.heatageStep (s : State) (c : Nat) (p : PgeCmd) (n : Nat) : State :=
  match p.first with
  | none =>
    (match s.heatRows c p with
      | .stall => s
      | .fault k => s.endPge c p.id k p.va.toNat
      | .ok (rows, t) => t.modPge c p.id (fun q => { q with prog := .running, first := some rows }))
  | some rows =>
    if rows ≤ p.pos then
      if s.rmPending c p.id then s else s.endPge c p.id p.partStatus (p.result.getD 0).toNat
    else
      let va := p.va.toNat + 64 + 2 * p.pos
      match s.xlate c p.sup .both va with
      | .error k => s.endPge c p.id k va
      | .ok (e, t) =>
        let pa := e.phys va
        if rangeOf pa ≠ .hbm then t.endPge c p.id causeProt va
        else if !t.channelFree c p (channelOf pa) then s
        else if (t.rmLock pa).isSome then s
        else if t.hbmPoisoned pa 2 || t.lostAt (dieOf c) pa 2 then
          (t.countIfOld p.asid 2 2 p.colour).modPge c p.id (fun q => { q with
            pos := q.pos + 1, partStatus := causePoison, result := some (q.result.getD (w64 va)) })
        else
          match t.changeHbm (p.who c) e va 2 (fun v => some (v >>> n)) with
          | (true, u) => u.modPge c p.id (fun q => { q with pos := q.pos + 1 })
          | (false, u) => u

/-- Indices of the h greatest of a list of counters: descending, ties to the lower index (R214). -/
def rankRows (heat : List Nat) (h : Nat) : List Nat :=
  ((heat.zipIdx.mergeSort (fun a b => decide (b.1 < a.1 ∨ (a.1 = b.1 ∧ a.2 ≤ b.2)))).map (·.2)).take h

/-- What a 4-byte word of a list that begins at `lo` does to the poison of its sector: cleared where the list has now covered all of
it (R442). -/
def wordAct (lo va : Nat) : PoisonAct := if va % 32 = 28 ∧ lo ≤ va / 32 * 32 then .clear else .keep

/-- ROWRANK: reads every counter at its home, then writes the list (R214, R405). -/
def State.rowrankStep (s : State) (c : Nat) (p : PgeCmd) (h : Nat) : State :=
  match p.first with
  | none =>
    (match s.heatRows c p with
      | .stall => s
      | .fault k => s.endPge c p.id k p.va.toNat
      | .ok (rows, t) =>
        if rows < h then t.endPge c p.id causeProt p.va.toNat
        else t.modPge c p.id (fun q => { q with prog := .running, first := some rows }))
  | some rows =>
    if p.pos < rows then
      let va := p.va.toNat + 64 + 2 * p.pos
      match s.xlate c p.sup .read va with
      | .error k => s.endPge c p.id k va
      | .ok (e, t) =>
        let pa := e.phys va
        if rangeOf pa ≠ .hbm then t.endPge c p.id causeProt va
        else if !t.channelFree c p (channelOf pa) then s
        else
          match t.readHbm c pa 2 with
          | .stall => s
          | .fault k => t.endPge c p.id k va
          | .ok (bs, poison) =>
            if poison then t.endPge c p.id causePoison va
            else (t.countIfOld p.asid 2 2 p.colour).modPge c p.id (fun q => { q with pos := q.pos + 1, parts := q.parts ++ [leNat bs] })
    else
      let w := p.pos - rows
      if h ≤ w then (if s.rmPending c p.id then s else s.endPge c p.id stOk 0)
      else
        let va := p.vb.toNat + 4 * w
        let r := (rankRows p.parts h)[w]?.getD 0
        match s.xlate c p.sup .write va with
        | .error k => s.endPge c p.id k va
        | .ok (e, t) =>
          if rangeOf (e.phys va) ≠ .hbm then t.endPge c p.id causeProt va
          else if !t.channelFree c p (channelOf (e.phys va)) then s
          else
            match t.writeHbm (p.who c) e va (leBytes 4 r) (wordAct p.vb.toNat va) with
            | (true, u) => u.modPge c p.id (fun q => { q with pos := q.pos + 1 })
            | (false, u) => u

/-- ROWMIG: translates the table, and arms the migration at its bump (R215, R405). -/
def State.rowmigStep (s : State) (c : Nat) (p : PgeCmd) : State :=
  match s.xlate c p.sup .write p.va.toNat with
  | .error k => s.endPge c p.id k p.va.toNat
  | .ok (_, t) => t.endPge c p.id stOk 0

/-! Cask commands (R220 to R227, R387, R388). -/

/-- The new value of a target element, with the flags of its roundings (R221). -/
def CaskBlock.newElem (b : CaskBlock) (w g : Nat) : Nat × Flags :=
  match b.op with
  | 1 =>
    let (p, f1) := mulNum (val32 b.lambda) (val32 w)
    let (t1, f2) := rne32 p
    let (t2, f3) := add32 t1 (val32 g)
    let (q, f4) := mulNum (val32 b.eta) (val32 t2)
    let (t3, f5) := rne32 q
    let (r, f6) := add32 w (val32 t3).neg
    (r, f1 ||| f2 ||| f3 ||| f4 ||| f5 ||| f6)
  | 2 =>
    let (p, f) := mulNum (val32 b.eta) (decodeFloat b.ty w)
    let (r, f') := roundFloat b.ty .rne 0 p
    (r, f ||| f')
  | 3 =>
    let (t, f) := sumNum .rne [decodeFloat b.ty w, decodeFloat b.ty g]
    let (r, f') := roundFloat b.ty .rne 0 t
    (r, f ||| f')
  | 4 => (0, noFlags)
  | _ => (min (w + 1) 0xFFFF, noFlags)

/-- Bytes of the target extent of n elements (R388). -/
def CaskBlock.extent (b : CaskBlock) (n : Nat) : Nat := (n * b.ty.bits + 7) / 8

/-- What a part does to its granule or block: runs of bytes written, sectors written poisoned by first address, flags, and the
lowest affected element and the number of the elements in those sectors (R226, R227). -/
structure PartOut where
  good : List (Nat × List Byte) := []
  bad : List Nat := []
  flags : Flags := 0
  first : Option Nat := none
  count : Nat := 0

/-- Indices of the elements of n that have bytes in [lo, hi) of the target. -/
def CaskBlock.elems (b : CaskBlock) (n lo hi : Nat) : List Nat :=
  let i := (lo - b.dst) * 8 / b.ty.bits
  upFrom i (min n (ceilDiv ((hi - b.dst) * 8) b.ty.bits) - i)

/-- One sector's run [lo, hi) of a part over n elements. `w` and `bad` give the target's element and its sector's poison at an
address, `g` an element of SRC and its poison. A ZERO reads no element, but one that covers only a part of a poisoned sector
meets it and leaves it poisoned (R226; DEDUCED, log 111). -/
def CaskBlock.sector (b : CaskBlock) (n : Nat) (w : Nat → Nat) (bad : Nat → Bool) (g : Nat → Nat × Bool) (o : PartOut)
    (lo hi : Nat) : PartOut :=
  let sz := elemBytes b.ty
  let is := b.elems n lo hi
  let hit :=
    if bad lo then (if b.op = 4 ∧ hi - lo = 32 then [] else is) else is.filter (fun i => b.usesSrc && (g i).2)
  match hit with
  | i :: _ => { o with bad := o.bad ++ [lo / 32 * 32], first := some (min (o.first.getD i) i), count := o.count + is.length }
  | [] =>
    if b.op = 4 then { o with good := o.good ++ [(lo, List.replicate (hi - lo) 0)] }
    else
      let es := is.map (fun i => b.newElem (w (b.dst + i * sz)) (g i).1)
      { o with good := o.good ++ [(lo, (es.flatMap (fun e => leBytes sz e.1)).take (hi - lo))],
               flags := es.foldl (fun f e => f ||| e.2) o.flags }

/-- A part that covers target bytes [a, e). -/
def CaskBlock.part (b : CaskBlock) (n : Nat) (w : Nat → Nat) (bad : Nat → Bool) (g : Nat → Nat × Bool) (a e : Nat) : PartOut :=
  (upFrom (a / 32) (ceilDiv e 32 - a / 32)).foldl
    (fun o k => b.sector n w bad g o (max a (32 * k)) (min e (32 * k + 32))) {}

/-- The physical granules of a virtual extent, or the fault of its first page that fails. `plain`: RM pages and pages
outside HBM fail with PROT (R388). -/
def State.granules (s : State) (c : Nat) (sup : Bool) (k : Kind) (va n : Nat) : Except (Nat × Nat) (List Nat × State) :=
  (upFrom (va / 4096) (ceilDiv (va + n) 4096 - va / 4096)).foldlM (fun (acc : List Nat × State) g =>
    match acc.2.xlate c sup k (4096 * g) with
    | .error f => .error (f, max va (4096 * g))
    | .ok (e, t) =>
      if e.rm || rangeOf (e.phys (4096 * g)) ≠ .hbm then .error (causeProt, max va (4096 * g))
      else .ok (acc.1 ++ [e.phys (4096 * g)], t)) ([], s)

/-- Element i of a flat operand whose granules lie at the physical addresses given. -/
def State.flatElem (s : State) (pas : List Nat) (base sz i : Nat) : Nat × Bool :=
  let va := base + i * sz
  let pa := pas[va / 4096 - base / 4096]?.getD 0 + va % 4096
  (s.hbmNum pa sz, s.hbmPoisoned pa sz)

/-- n free bytes (DESIGN CHOICE, log 4). -/
def freeBytes : (n : Nat) → State → List Byte × State
  | 0, s => ([], s)
  | n + 1, s =>
    let (b, s) := s.freeByte
    let (bs, s) := freeBytes n s
    (b :: bs, s)

/-- Preparation of NMC (R223, R388). -/
def State.nmcPrepare (s : State) (c : Nat) (p : PgeCmd) (b : CaskBlock) (n : Nat) : State :=
  let len := b.extent n
  let go (s : State) (parts pas : List Nat) : State :=
    s.modPge c p.id (fun q => { q with prog := .running, pos := 1, parts := parts, outUnits := pas })
  if b.lin then
    match (s.space p.asid).valid b.handle with
    | none => s.endPge c p.id causeLinHandle b.handle.toNat
    | some i =>
      let nd := (s.space p.asid).node i
      if 8 * ceilDiv nd.size 8 < b.dst + len then s.endPge c p.id causeLinShape b.handle.toNat
      else if nd.state ≠ .live then s.endPge c p.id causeLinSealed b.handle.toNat
      else go s (upFrom (b.dst / 4096) (ceilDiv (b.dst + len) 4096 - b.dst / 4096)) []
  else
    match s.granules c p.sup .write b.dst len with
    | .error (k, va) => s.endPge c p.id k va
    | .ok (dst, t) =>
      match (if b.usesSrc then t.granules c p.sup .read b.src len else .ok ([], t)) with
      | .error (k, va) => t.endPge c p.id k va
      | .ok (src, t) => go t (upFrom (b.dst / 4096) dst.length) (dst ++ src)

/-- What a part found, gathered into its command. -/
def PgeCmd.gather (p : PgeCmd) (part : Nat) (o : PartOut) : PgeCmd :=
  { p with
    parts := p.parts.filter (fun k => k ≠ part), flags := p.flags ||| o.flags, poisoned := p.poisoned + o.count
    first := match p.first, o.first with
      | some a, some b => some (min a b)
      | none, f => f
      | f, none => f }

/-- A translation entry for a write to a granule prepared earlier. -/
def State.entryAt (s : State) (c asid va pa : Nat) : TlbEntry :=
  let own : TlbEntry := { asid := asid, va := va, size := 4096, pa := pa, r := true, w := true, x := false, rm := false, s := false
                          kst := match (s.job asid).bind Job.current with | some k => k.num | none => 0
                          leaf := 0 }
  match s.lookup c va with
  | .ok (e, _) => if e.phys va = pa then e else own
  | .error _ => own

/-- Makes a part's writes: its runs, and free bytes over every sector that it poisons, all 32 of them (R312; DESIGN CHOICE,
log 4). `len` is how much of a sector exists. -/
def PartOut.write (o : PartOut) (put : State → Nat → List Byte → PoisonAct → Option State) (len : Nat → Nat) (s : State) :
    Option State := do
  let s ← o.good.foldlM (fun s r => put s r.1 r.2 .keep) s
  o.bad.foldlM (fun s a => let (bs, s) := freeBytes (len a) s; put s a bs .set) s

/-- What a part finds in a granule of HBM that begins at `pa` and holds the virtual granule `base`. -/
def CaskBlock.flatOut (b : CaskBlock) (s : State) (n base pa : Nat) (g : Nat → Nat × Bool) (a e : Nat) : PartOut :=
  b.part n (fun va => s.hbmNum (pa + (va - base)) (elemBytes b.ty)) (fun va => s.hbmPoisoned (pa + (va - base)) 1) g a e

/-- What a part finds in block `blk` of a node. -/
def CaskBlock.nodeOut (b : CaskBlock) (s : State) (asid n blk : Nat) (a e i : Nat) : PartOut :=
  let (d, ps) := (s.space asid).block i blk
  b.part n (fun off => d.num (off - 4096 * blk) (min (elemBytes b.ty) (4096 - (off - 4096 * blk))))
    (fun off => ps.contains ((off - 4096 * blk) / 32)) (fun _ => (0, false)) a e

/-- Makes a part's writes in a flat granule of HBM and, for an old part, in its frozen version, from what that holds (R281). `s` is
the state that the part reads, and `t` the one that it changes. -/
def State.flatVersions (t s : State) (w : Who) (old : Bool) (b : CaskBlock) (n base pa : Nat) (g : Nat → Nat × Bool) (a e : Nat) :
    State :=
  let t := ((b.flatOut s n base pa g a e).write (fun t va bs act => some (t.putHbm w false va (pa + (va - base)) bs act))
    (fun _ => 32) t).getD t
  match (if old then s.redirect w.asid pa else none) with
  | none => t
  | some q =>
    ((b.flatOut s n base q g a e).write (fun t va bs act => some (t.hbmWrite (q + (va - base)) bs act)) (fun _ => 32) t).getD t

/-- Applies a part to its flat granule at one point; an old part is applied to the frozen version as well, from what that holds
(R224, R281). False: it waits for a page copy. An operand g in another channel is read in the same step (DESIGN CHOICE, log 112:
R224 says only that it is read before). -/
def State.flatPart (s : State) (c : Nat) (p : PgeCmd) (b : CaskBlock) (n base pa : Nat) (g : Nat → Nat × Bool) (a e : Nat) :
    Bool × State :=
  match s.writeHbm (p.who c) (s.entryAt c p.asid base pa) base [] .keep with
  | (false, t) => (false, t)
  | (true, t) => (true, t.flatVersions s (p.who c) (s.isOld p.asid p.colour) b n base pa g a e)

/-- Applies a part to a block of a node, live and frozen as R281 has it; none when the heap has no room. -/
def State.nodePart (s : State) (w : Who) (b : CaskBlock) (n blk i size a e : Nat) : Option State :=
  s.onVersions w i blk (fun s j =>
    (b.nodeOut s w.asid n blk a e j).write (fun t off bs act => t.putNode w.asid off bs (act = .set) false j)
      (fun off => min 32 (size - off)) s)

/-- NMC_PART: the home of a granule or block applies one part of a prepared NMC (R224, R225). Parts of one core keep issue
order at a channel. -/
def execNmcPart (c id part : Nat) (s : State) : Out :=
  match (s.core c).pgeOf id with
  | none => .next s
  | some p =>
    match p.ins, caskBlock p.img with
    | .nmc _ _ _ _ _ len, some b =>
      if p.pos ≠ 1 ∨ p.prog.over = true ∨ p.parts.contains part = false then .next s
      else
        let sz := elemBytes b.ty
        let n := len.toNat
        let stop := b.dst + b.extent n
        let a := max b.dst (4096 * part)
        let nd := ceilDiv stop 4096 - b.dst / 4096
        let pas := p.outUnits
        let chan (q : PgeCmd) (bq : CaskBlock) (k : Nat) : Nat :=
          if bq.lin then k % Config.channelCount else channelOf (q.outUnits[k - bq.dst / 4096]?.getD 0)
        let held := ((s.core c).ahead id).any (fun q => match q.ins, caskBlock q.img with
          | .nmc .., some bq => !q.prog.over && q.parts.any (fun k => decide (chan q bq k = chan p b part))
          | _, _ => false)
        if held then .next s
        else if b.lin then
          match (s.space p.asid).valid b.handle with
          | none => .next (s.modPge c id (fun q => { q with
              parts := q.parts.filter (fun k => k ≠ part), partStatus := causeLinHandle }))
          | some i =>
            let node := (s.space p.asid).node i
            if node.state ≠ .live then
              .next (s.modPge c id (fun q => { q with
                parts := q.parts.filter (fun k => k ≠ part)
                partStatus := if q.partStatus = causeLinHandle then causeLinHandle else causeLinSealed }))
            else if s.rebasing p.asid i then .next s
            else
              let e := min (min stop (4096 * part + 4096)) node.size
              (match (if a < e then s.nodePart (p.who c) b n part i node.size a e else some s) with
                | some t => .next (t.modPge c id (fun q => q.gather part (if a < e then b.nodeOut s p.asid n part a e i else {})))
                | none => .next (s.modPge c id (fun q => { q with parts := q.parts.filter (fun k => k ≠ part), heapFull := true })))
        else
          let e := min stop (4096 * part + 4096)
          let g (i : Nat) : Nat × Bool := s.flatElem (pas.drop nd) b.src sz i
          let pa := pas[part - b.dst / 4096]?.getD 0
          .next (match s.flatPart c p b n (4096 * part) pa g a e with
            | (true, t) => t.modPge c id (fun q => q.gather part (b.flatOut s n (4096 * part) pa g a e))
            | (false, t) => t)
    | _, _ => .next s

/-- The completion record and status of an NMC (R227). -/
def PgeCmd.caskRecord (p : PgeCmd) : List Byte :=
  leBytes 8 (if p.heapFull then 2 else if p.poisoned ≠ 0 then 1 else 0) ++ leBytes 4 (p.first.getD 0) ++ leBytes 4 p.poisoned

/-- Status with which an NMC ends (R227). -/
def PgeCmd.caskStatus (p : PgeCmd) : Nat :=
  if p.partStatus ≠ 0 then p.partStatus else if p.heapFull then causeProt else stOk

/-- Writes bytes untagged into the issuing core's A space for a command; a line covered whole with clean data loses P
(R134). None while a line is still to be drained. -/
def State.resultBytes (s : State) (c : Nat) (p : PgeCmd) (a : Nat) (bs : List Byte) : Option State :=
  if (s.core c).pendingDrain .a a bs.length then none
  else
    some ((s.modCore c (fun x => (x.stBytes .a a bs).cleanLines .a a bs.length)).infl c p.colour (.store c .a a bs none none)
      [s.coreName c, 1, 1, a, bs.length, 0] bs)

/-- One piece of NMC by its engine: the preparation, then the record once every part has been applied. -/
def State.nmcStep (s : State) (c : Nat) (p : PgeCmd) (n : Nat) : State :=
  match caskBlock p.img with
  | none => s.endPge c p.id causeProt p.vb.toNat
  | some b =>
    if p.pos = 0 then
      if s.aheadOfKind c p (fun q => match q.ins with | .nmc .. => decide (q.pos = 0) | _ => false) then s
      else s.nmcPrepare c p b n
    else if p.parts ≠ [] then s
    else
      match s.resultBytes c p p.vc.toNat p.caskRecord with
      | none => s
      | some t => t.endPge c p.id p.caskStatus (if b.lin then b.handle.toNat else b.dst)

/-! Scans (R228, R389). -/

/-- The compared value of an element: its own, or its magnitude. -/
def scanValue (abs : Bool) (ty : ElemType) (v : Nat) : Num :=
  let x := decodeElem ty v
  if abs then x.abs else x

/-- The threshold (R228). -/
def scanThreshold (ty : ElemType) (v : Word64) : Num :=
  if ty.isFloat then val32 (v.toNat % 2 ^ 32) else Num.ofInt v.toInt

/-- An element's value as an entry holds it: FP32, or INT32 (R228). -/
def scanWord (ty : ElemType) (v : Nat) : Nat :=
  if ty.isFloat then (rne32 (decodeFloat ty v)).1 else ofSigned 32 (decodeInt ty v)

/-- Whether entry a comes before entry b: greater compared value first, ties to the lower index. An entry is index and
element. -/
def scanBefore (abs : Bool) (ty : ElemType) (a b : Nat × Nat) : Bool :=
  match cmpNum (scanValue abs ty a.2) (scanValue abs ty b.2) with
  | some .gt => true
  | some .eq => decide (a.1 ≤ b.1)
  | _ => false

/-- The result of a scan: header and entries. -/
def scanResult (abs : Bool) (ty : ElemType) (kmax : Nat) (hits : List (Nat × Nat)) : List Byte :=
  leBytes 8 (hits.length % 2 ^ 32) ++
    ((hits.mergeSort (scanBefore abs ty)).take kmax).flatMap (fun e => leBytes 4 e.1 ++ leBytes 4 (scanWord ty e.2))

/-- One piece of NMSCAN: preparation, one granule, whose read keeps the order of R141, or the result. Passing elements are gathered as index × 2^32 +
element. -/
def State.nmscanStep (s : State) (c : Nat) (p : PgeCmd) (abs : Bool) (ty : ElemType) (kmax n : Nat) : State :=
  let sz := elemBytes ty
  let base := p.va.toNat
  if p.first.isNone then
    match s.granules c p.sup .read base (n * sz) with
    | .error (k, va) => s.endPge c p.id k va
    | .ok (pas, t) => t.modPge c p.id (fun q => { q with prog := .running, first := some 0, outUnits := pas })
  else if p.pos < p.outUnits.length then
    let g := base / 4096 + p.pos
    let lo := (max base (4096 * g) - base) / sz
    let hi := ceilDiv (min (base + n * sz) (4096 * g + 4096) - base) sz
    let is := upFrom lo (hi - lo)
    let th := scanThreshold ty p.vc
    let el (i : Nat) : Nat × Bool := s.flatElem p.outUnits base sz i
    let pass := is.filter (fun i => !(el i).2 && decide (cmpNum (scanValue abs ty (el i).1) th = some .gt))
    let bad := is.find? (fun i => (el i).2)
    if !s.channelFree c p (channelOf (p.outUnits[p.pos]?.getD 0)) then s
    else (s.countIfOld p.asid 2 2 p.colour).modPge c p.id (fun q => { q with
      pos := q.pos + 1, parts := q.parts ++ pass.map (fun i => i * 2 ^ 32 + (el i).1)
      result := match q.result, bad with
        | none, some i => some (w64 ((base + i * sz) / 32 * 32))
        | r, _ => r })
  else
    let hits := p.parts.map (fun e => (e / 2 ^ 32, e % 2 ^ 32))
    match s.resultBytes c p p.vb.toNat (scanResult abs ty kmax hits) with
    | none => s
    | some t =>
      match p.result with
      | some a => t.endPge c p.id causePoison a.toNat
      | none => t.endPge c p.id stOk 0

/-! The engine's step. -/

/-- The next piece of a command's own work (R138). A discarded command moves nothing. -/
def State.pgeStep (s : State) (c id : Nat) : State :=
  match (s.core c).pgeOf id with
  | none => s
  | some p =>
    if p.prog.over && p.awaitsHost && p.fence.isNone then
      (s.modPge c id (fun q => { q with fence := some false })).emit .zeroLengthRead
    else if !s.pgeReady c p then s
    else if p.bind = .val false then s.endPge c id stDiscarded 0
    else
      let moved : Bool := decide (p.units ≤ p.pos)
      let last (s : State) : State := if s.rmPending c id then s else s.endPge c id stOk 0
      match p.ins with
      | .get x => s.getStep c p x
      | .grist x => if moved then last s else s.getStep c p x
      | .put x => if moved then last s else s.putStep c p x
      | .gristScatter x => if moved then last s else s.putStep c p x
      | .cpy x => s.copyStep c p x
      | .sendD x => s.copyStep c p x
      | .sendP x => s.copyStep c p x
      | .sendI x => s.inboxStep c p x
      | .evpost .. => s.evpostStep c p
      | .trig .. => s.trigStep c p
      | .done .. => s.doneStep c p
      | .wdq _ _ _ r => s.wdqStep c p r.val
      | .tspawn .. => s.tspawnStep c p
      | .heatage _ _ _ _ n => s.heatageStep c p n.toNat
      | .rowrank _ _ _ _ _ h => s.rowrankStep c p h.toNat
      | .rowmig .. => s.rowmigStep c p
      | .nmc _ _ _ _ _ n => s.nmcStep c p n.toNat
      | .nmscan abs _ _ _ _ _ _ ty kmax n => s.nmscanStep c p abs ty kmax.toNat n.toNat
      | i =>
        match atomicArgs i with
        | some x => s.atomicStep c p x
        | none => s

end Sys2Proof.Machine
end

