-- ==== Sys2Proof/Machine/Bump.lean ====
section
/-! DEFINITION. BUMP: the completion of a command whose work has ended, in any of the core's three engines (R75, R80, R113,
R140, R180, R215, R235, R298, R340). -/

namespace Sys2Proof.Machine

open Sys2Proof

/-- The context's registers at a completion: d written or released, ol or os lowered, flags gathered. A command of an
earlier life of the context changes nothing of the present one (R79, R80). -/
def Ctx.completed (x : Ctx) (i : Instr) (id life : Nat) (ok : Bool) (result : Option Word64) (flags : BitVec 9) (sat : BitVec 2) : Ctx :=
  let r := resultReg i
  let mine : Bool := decide (x.reserved.find r = some id)
  let x := match result with
    | some v => if ok && mine then x.setS r v false else x
    | none => x
  if x.life ≠ life then x else
  { x with
    reserved := if mine then x.reserved.erase r else x.reserved
    ol := if countsOl i then lower x.ol else x.ol
    os := if countsOs i then lower x.os else x.os
    frm := x.frm ||| flags
    istat := x.istat ||| sat }

/-- The completion of a put-and-get command: the destination's bump first where both are named, then the issuer's end
(R140). A command that did not end well bumps its issuer (R138, R180). -/
def State.bumpPge (s : State) (c : Nat) (p : PgeCmd) (st : Nat) (addr : Word64) : State :=
  let wh := whereOf p.ins
  if st = stOk ∧ wh ≠ .issuer ∧ p.bumpedDst = false then
    let s := s.modPge c p.id (fun q => { q with bumpedDst := true })
    match s.destOf c p with
    | some d =>
      if s.fenced d then s
      else if p.inflBump then s.countUp d (ctOf p.ins)
      else ((s.cutBefore d p.colour).countIfOld p.asid 1 1 p.colour).bumpCounter d (ctOf p.ins) p.colour
    | none => s
  else
    let ok : Bool := decide (st = stOk)
    let asid := p.asid
    let s := s.modCore c (fun x => { x with
      pge := x.pge.filter (fun q => q.id ≠ p.id)
      armed := match p.ins with
        | .rowmig .. => if ok then some { table := p.va, map := p.vb, ct := ctOf p.ins, asid := asid } else x.armed
        | _ => x.armed })
    let s := s.modCtx c p.ctx (fun x => x.completed p.ins p.id p.life ok p.result p.flags 0)
    if st = stOk ∧ wh = .destination then s
    else s.bumpWith c p.colour { pc := p.pc, addr := addr, ctx := p.ctx, ct := ctOf p.ins, status := st, seq := p.seq, rep := none }

/-- The completion of a matrix command. -/
def State.bumpMx (s : State) (c : Nat) (m : MxCmd) (st : Nat) (addr : Word64) : State :=
  let s := s.modCore c (fun x => { x with mx := x.mx.filter (fun q => q.id ≠ m.id) })
  let s := s.modCtx c m.ctx (fun x => x.completed m.ins m.id m.life (decide (st = stOk)) none m.flags (if m.sat then istatSAT else 0))
  s.bumpWith c m.colour { pc := m.pc, addr := addr, ctx := m.ctx, ct := ctOf m.ins, status := st, seq := m.seq, rep := m.rep }

/-- The completion of a lineage command. -/
def State.bumpLin (s : State) (c : Nat) (l : LinCmd) (st : Nat) (addr : Word64) : State :=
  let s := s.modSys (fun y => { y with lin := y.lin.filter (fun q => !(q.core = c && q.id = l.id)) })
  s.bumpWith c l.colour { pc := l.pc, addr := addr, ctx := l.ctx, ct := ctOf l.ins, status := st, seq := l.seq, rep := none }

/-- BUMP: the command of a number completes, if its work has ended, its read-mostly writes are performed (R234), and the read
behind the host writes of a release at SYSTEM scope has come back (R318). -/
def execBump (c id : Nat) (s : State) : Out :=
  if s.rmPending c id then .next s
  else
  match (s.core c).pgeOf id with
  | some p => (match p.prog with | .ended st a => .next (if p.awaitsHost then s else s.bumpPge c p st a) | _ => .next s)
  | none =>
    match (s.core c).mx.find? (fun m => m.id = id) with
    | some m => (match m.phase with | .ended st a => .next (s.bumpMx c m st a) | _ => .next s)
    | none =>
      match s.sys.lin.find? (fun l => l.core = c && l.id = id) with
      | some l => (match l.prog with | .ended st a => .next (s.bumpLin c l st a) | _ => .next s)
      | none => .next s

end Sys2Proof.Machine
end

