-- ==== Sys2Proof/Machine/LineageCmds.lean ====
section
/-! DEFINITION. The lineage instructions, and what the lineage engine does with them: forks, flattening, rebasing, packing,
deletion, node switches and splices (R157 to R170, R282, R377, R378, R443). -/

namespace Sys2Proof.Machine

open Sys2Proof

/-! Handles and states. -/

/-- The node that a register's handle names; bits above 32 make it invalid (R148). -/
def AddrSpace.named (sp : AddrSpace) (v : Word64) : Option Nat :=
  if v.toNat / 2 ^ 32 ≠ 0 then none else sp.valid (v.truncate 32)

/-- The first check of R159: a handle that must name a node. -/
def lineageHandle (sp : AddrSpace) (v : Word64) : Except Stop Nat :=
  match sp.named v with
  | some i => .ok i
  | none => .error (.trap causeLinHandle v)

/-- The second check of R159: a node that may not be FROZEN. -/
def notFrozen (n : Node) (v : Word64) : Except Stop Unit :=
  if n.state = .frozen then .error (.trap causeLinSealed v) else .ok ()

/-- Whether a command works on its node asynchronously. -/
def isAsync : Instr → Bool
  | .lflat .. | .lrebase .. | .lpack .. | .lforkAf .. => true
  | _ => false

/-- Whether a node is BUSY: a lineage command, a splice into it or an MCORR of it is under way (R160, R208). -/
def State.nodeBusy (s : State) (asid i : Nat) : Bool :=
  let sp := s.space asid
  sp.splices.any (fun x => x.started && decide (x.child = i)) ||
  s.sys.lin.any (fun l => l.asid = asid && l.node = i && isAsync l.ins && !l.prog.over) ||
  s.cores.any (fun e => e.2.mx.any (fun m => decide (m.asid = asid) && (match m.ins with
    | .mcorr _ => sp.valid (BitVec.ofNat 32 (leNat (m.img.take 4))) = some i
    | _ => false)))

/-- The statuses of LSTAT (R160). -/
def lsOk : Nat := 0
def lsDepth : Nat := 1
def lsNoSpace : Nat := 2
def lsBusy : Nat := 3

/-- Writes LSTAT.STATUS. -/
def State.setLstat (s : State) (n : Nat) : State := s.modMe (fun x => { x with lstat := BitVec.ofNat 2 n })

/-- Writes a status to LSTAT and to d. -/
def State.giveStatus (s : State) (d : Reg) (n : Nat) : State := (s.setLstat n).give d (w64 n)

/-! The engine's place (R443). -/

/-- The registers that a command of the lineage engine names in A, B and C. -/
def linRegs : Instr → Nat × Nat × Nat
  | .lforkAf _ a c _ => (a.val, 0, c.val)
  | .lflat _ a _ _ _ | .lpack _ a _ _ _ | .ldel _ a _ => (a.val, 0, 0)
  | .lrebase _ a b _ _ _ => (a.val, b.val, 0)
  | _ => (0, 0, 0)

/-- A command of the lineage engine as it issues. -/
def State.linCmd (s : State) (i : Instr) (node base : Nat) : LinCmd :=
  let (a, b, c) := linRegs i
  { id := s.home.nextId, core := s.curCore, ctx := s.curCtx, pc := s.me.pc, seq := s.me.seq, ins := i, node := node
    va := s.me.sv a, vb := s.me.sv b, vc := s.me.sv c
    base := base, bind := s.home.bindGuard (gdOf i), colour := s.home.colour, asid := s.asidOf s.curCore }

/-- Puts a command into the lineage engine, which holds 8 of a core. -/
def State.enqueueLin (s : State) (l : LinCmd) : State :=
  ((s.modSys (fun y => { y with lin := y.lin ++ [l] })).modHome (fun x => { x with nextId := x.nextId + 1 })).modMe
    (fun x => x.issued l.ins l.id)

/-- A command waits at issue while the lineage engine holds 8 of its core's. -/
def lineageRoom (s : State) : Except Stop Unit :=
  if 8 ≤ (s.sys.lin.filter (fun l => l.core = s.curCore)).length then .error (.wait s (some (12, 2))) else .ok ()

/-! LFORK (R161 to R163). -/

/-- A node record (R161). -/
structure NodeRec where
  fmt : Nat
  kind : Nat
  dfmt : Nat
  ndim : Nat
  rank : Nat
  u : Word32
  v : Word32
  dims : List Nat

/-- Cuts the 32 bytes of a record into its fields. -/
def nodeRec (bs : List Byte) : NodeRec :=
  let w := leNat bs
  { fmt := bits w 3 0, kind := bits w 5 4, dfmt := bits w 9 6, ndim := bits w 11 10, rank := bits w 19 12
    u := BitVec.ofNat 32 (bits w 63 32), v := BitVec.ofNat 32 (bits w 95 64)
    dims := [bits w 119 96, bits w 143 120, bits w 167 144, bits w 191 168] }

/-- The record that LFORK reads from A, unless C names s0 (R134, R161). -/
def forkRecord (s : State) (c : Reg) : Except Stop (Option NodeRec) :=
  if c.val = 0 then .ok none
  else do
    let e := (s.me.sv c.val).toNat
    localCheck .a e 32 32
    noPoison s.home .a e 32
    .ok (some (nodeRec (s.home.a.read e 32)))

/-- A new root, or LINEAGE_SHAPE (R162). -/
def forkRoot (r : Option NodeRec) : Except Stop Node :=
  match r with
  | none => .error (.trap causeLinShape 0)
  | some r =>
    let ds := r.dims.take (r.ndim + 1)
    match ElemType.ofCode r.fmt with
    | none => .error (.trap causeLinShape 0)
    | some ty =>
      let n : Node := { state := .live, fmt := ty, dfmt := ty, dims := ds }
      if r.kind ≠ 0 ∨ ds.any (· = 0) ∨ (r.dims.drop (r.ndim + 1)).any (· ≠ 0) ∨ 2 ^ 40 < n.size
      then .error (.trap causeLinShape 0) else .ok n

/-- Whether an ADD node may have a delta type (R153). -/
def addOk (fmt dfmt : ElemType) : Bool :=
  let fl : ElemType → Bool := fun t => match t with | .fp32 | .bf16 | .fp16 => true | _ => false
  let it : ElemType → Bool := fun t => match t with | .int32 | .int16 | .int8 => true | _ => false
  ((fl fmt && fl dfmt) || ((it fmt || decide (fmt = .uint8)) && it dfmt)) && decide (dfmt.bits ≤ fmt.bits)

/-- Whether a LOWRANK node and its factors may have an element type (R153, R162). -/
def lowrankFmt (t : ElemType) : Bool := match t with | .fp32 | .bf16 | .fp16 => true | _ => false

/-- A factor of a LOWRANK child: a valid LIVE or SEALED node of an element type that R162 allows. -/
def factorCheck (sp : AddrSpace) (h : Word32) : Except Stop Nat :=
  match sp.valid h with
  | some i =>
    if (sp.node i).state = .frozen ∨ lowrankFmt (sp.node i).fmt = false then .error (.trap causeLinKind (h.zeroExtend 64)) else .ok i
  | none => .error (.trap causeLinKind (h.zeroExtend 64))

/-- Its shape (R153, R162). -/
def factorShape (n : Node) (h : Word32) (rows cols : Nat) : Except Stop Unit :=
  if n.dims = [rows, cols] then .ok () else .error (.trap causeLinShape (h.zeroExtend 64))

/-- A new child of node p, named by a register's value, or the trap (R162). -/
def forkChild (sp : AddrSpace) (p : Nat) (a : Word64) (r : Option NodeRec) : Except Stop Node :=
  let n := sp.node p
  let child : Node := { parent := a.truncate 32, depth := n.depth + 1, klev := n.klev, state := .live, kind := .xor
                        fmt := n.fmt, dfmt := n.fmt, dims := n.dims, dflt := .inherit }
  match r with
  | none => .ok child
  | some r =>
    match r.kind with
    | 1 => .ok child
    | 2 =>
      (match ElemType.ofCode r.dfmt with
        | some d => if addOk n.fmt d then .ok { child with kind := .add, dfmt := d } else .error (.trap causeLinKind a)
        | none => .error (.trap causeLinKind a))
    | 3 => do
      if r.rank < 1 ∨ 128 < r.rank ∨ lowrankFmt n.fmt = false then .error (.trap causeLinKind a)
      let u ← factorCheck sp r.u
      let v ← factorCheck sp r.v
      factorShape (sp.node u) r.u n.rows r.rank
      factorShape (sp.node v) r.v r.rank n.cols
      .ok { child with kind := .lowrank, rank := r.rank, u := r.u, v := r.v }
    | _ => .error (.trap causeLinKind a)

/-- Whether a fork's counts would pass their fields: CHILDREN of the parent, REFS of the factors (R149, R163). -/
def countsFull (sp : AddrSpace) (n : Node) : Bool :=
  (n.parentIdx ≠ 0 && decide (2 ^ 24 - 1 ≤ (sp.node n.parentIdx).children)) ||
  (n.kind = .lowrank &&
    (decide (255 ≤ (sp.node (handleIdx n.u)).refs) || decide (255 ≤ (sp.node (handleIdx n.v)).refs)))

/-- The address space with the new node in it: its parent sealed and counted, its factors sealed and counted. None without
a free index or room for the map. -/
def AddrSpace.fork (sp : AddrSpace) (n : Node) : Option (AddrSpace × Nat) :=
  match sp.freeIdx with
  | none => none
  | some i =>
    (sp.addNode i n).map (fun sp =>
      let sp := if n.parentIdx = 0 then sp
        else sp.modNode n.parentIdx (fun m => { sealNode m with children := m.children + 1 })
      (n.factors.foldl (fun sp u => sp.modNode u (fun m => { sealNode m with refs := m.refs + 1 })) sp, i))

/-- LREBASE commands of an address space that have not made their switch. -/
def State.rebases (s : State) (asid : Nat) : List LinCmd :=
  s.sys.lin.filter (fun l => l.asid = asid && (match l.ins with | .lrebase .. => true | _ => false) && l.after.isNone && !l.prog.over)

/-- A node's depth, or the one that an LREBASE under way of it or of an ancestor will give it where that is greater: its DEPTH may be
read as old or as new until the bump, and no node is ever deeper than 7 (R170; DEDUCED, log 74). -/
def State.depthSeen (s : State) (asid i : Nat) : Nat :=
  let sp := s.space asid
  (s.rebases asid).foldl (fun d l =>
    if l.node = i || sp.isAncestor l.node i then
      max d ((sp.node i).fullDepth + ((sp.node l.base).fullDepth + 1) - (sp.node l.node).fullDepth)
    else d) (sp.node i).fullDepth

/-- HEIGHT of a node, with the subtrees that LREBASEs under way will put beneath it (R165, R170; DEDUCED, log 74). -/
def State.heightSeen (s : State) (asid i : Nat) : Nat :=
  let sp := s.space asid
  (s.rebases asid).foldl (fun h l =>
    if l.base = i || sp.isAncestor i l.base then
      max h ((sp.node l.base).fullDepth + 1 + sp.height l.node - (sp.node i).fullDepth)
    else h) (sp.height i)

/-- What LFORK comes to: a status other than OK, or the state with the new node and its index (R160, R163, R282). At the bound, which
an LREBASE under way may bring about (log 74), LFORK.af makes a child with AF. An old fork seals the frozen version too (R281). -/
def State.forkNode (s : State) (n : Node) (af : Bool) : Nat ⊕ (State × Nat) :=
  let asid := s.asidOf s.curCore
  let sp := s.space asid
  let p := sp.node n.parentIdx
  let child : Bool := decide (n.parentIdx ≠ 0)
  let deep : Bool := decide (7 ≤ s.depthSeen asid n.parentIdx)
  if child && p.af then .inl lsBusy
  else if child && deep && !af then .inl lsDepth
  else if countsFull sp n then .inl lsNoSpace
  else
    match (if child then s.interpose asid n.parentIdx (some s.home.colour) else some s) with
    | none => .inl lsNoSpace
    | some t =>
      let sp := t.space asid
      let n := if child && deep then { n with depth := p.depth, af := true } else n
      let n := if child then { n with klev := (sp.node n.parentIdx).klev } else n
      match sp.fork n with
      | none => .inl lsNoSpace
      | some (sp, i) =>
        let t := (t.modSpace asid (fun _ => sp)).noteNewNode asid (sp.handleOf i) (some s.home.colour)
        .inr (if child then t.markFrozen asid p.handle s.home.colour false else t, i)

/-- The checks and the new node of an LFORK, in the order of R159. -/
def forkChecks (s : State) (a c : Reg) : Except Stop Node := do
  needAll s.me [a.val, c.val]
  let sp := s.space (s.asidOf s.curCore)
  let v := s.me.sv a.val
  if v = 0 then
    let r ← forkRecord s c
    forkRoot r
  else
    let p ← lineageHandle sp v
    notFrozen (sp.node p) v
    let r ← forkRecord s c
    forkChild sp p v r

/-- LFORK (R161 to R163). -/
def execLfork (d a c : Reg) (s : State) : Out :=
  finish s (s.me.pc + 12) (do
    let n ← forkChecks s a c
    match s.forkNode n false with
    | .inl st => .ok ((s.setLstat st).give d 0)
    | .inr (t, i) => .ok ((t.setLstat lsOk).give d (((t.space (s.asidOf s.curCore)).handleOf i).zeroExtend 64)))

/-- LFORK.af: at the bound it starts the child's flatten; below it its bump is due at once (R163). -/
def execLforkAf (d a c : Reg) (ct : Cnt) (s : State) : Out :=
  finish s (s.me.pc + 12) (do
    let n ← forkChecks s a c
    match s.forkNode n true with
    | .inl st => .ok ((s.setLstat st).give d 0)
    | .inr (t, i) =>
      lineageRoom s
      let sp := t.space (s.asidOf s.curCore)
      let l := t.linCmd (.lforkAf d a c ct) i 0
      let l := if (sp.node i).af then l else { l with prog := .ended stOk 0 }
      .ok (((t.enqueueLin l).setLstat lsOk).give d ((sp.handleOf i).zeroExtend 64)))

/-! LFLAT, LREBASE, LPACK, LDEL, LINFO at issue (R159, R160, R164 to R169). -/

/-- The handle checks of a command on one node: its index. -/
def nodeChecks (s : State) (a : Reg) : Except Stop Nat := do
  need s.me a.val
  let sp := s.space (s.asidOf s.curCore)
  let i ← lineageHandle sp (s.me.sv a.val)
  notFrozen (sp.node i) (s.me.sv a.val)
  .ok i

/-- Issues an asynchronous command on a node, unless the node is BUSY. -/
def State.issueLin (s : State) (i : Instr) (d : Reg) (node base st : Nat) : Act :=
  if st ≠ lsOk then .ok (s.giveStatus d st)
  else do
    lineageRoom s
    .ok ((s.enqueueLin (s.linCmd i node base)).giveStatus d lsOk)

/-- LFLAT (R164). -/
def execLflat (d a : Reg) (ct : Cnt) (gd : Guard) (o : MemOrder) (s : State) : Out :=
  finish s (s.me.pc + 12) (do
    let i ← nodeChecks s a
    s.issueLin (.lflat d a ct gd o) d i 0 (if s.nodeBusy (s.asidOf s.curCore) i then lsBusy else lsOk))

/-- LPACK (R166). -/
def execLpack (d a : Reg) (ct : Cnt) (gd : Guard) (o : MemOrder) (s : State) : Out :=
  finish s (s.me.pc + 12) (do
    let i ← nodeChecks s a
    s.issueLin (.lpack d a ct gd o) d i 0 (if s.nodeBusy (s.asidOf s.curCore) i then lsBusy else lsOk))

/-- LREBASE (R165). BUSY comes before DEPTH where both apply, as R163 orders them for LFORK (DEDUCED, log 74: R165 gives no
order). -/
def execLrebase (d a b : Reg) (ct : Cnt) (gd : Guard) (o : MemOrder) (s : State) : Out :=
  finish s (s.me.pc + 12) (do
    needAll s.me [a.val, b.val]
    let asid := s.asidOf s.curCore
    let sp := s.space asid
    let va := s.me.sv a.val
    let vb := s.me.sv b.val
    let i ← lineageHandle sp va
    let j ← lineageHandle sp vb
    notFrozen (sp.node i) va
    notFrozen (sp.node j) vb
    if j = i ∨ sp.isAncestor i j then .error (.trap causeLinKind vb)
    if !sp.isAncestor j i && (decide ((sp.node j).fmt ≠ (sp.node i).fmt) || decide ((sp.node j).dims ≠ (sp.node i).dims))
    then .error (.trap causeLinShape vb)
    let below := sp.descendants i
    let st := if s.nodeBusy asid i || below.any (fun k => (sp.node k).af) then lsBusy
      else if 7 < s.depthSeen asid j + 1 + s.heightSeen asid i then lsDepth else lsOk
    s.issueLin (.lrebase d a b ct gd o) d i j st)

/-- LDEL: the handle dies at once, and the bump follows the splices that this starts (R167, R378). An old one deletes the frozen version
too (R281). -/
def execLdel (d a : Reg) (ct : Cnt) (s : State) : Out :=
  finish s (s.me.pc + 12) (do
    let i ← nodeChecks s a
    let asid := s.asidOf s.curCore
    if s.nodeBusy asid i then .ok (s.giveStatus d lsBusy)
    else
      lineageRoom s
      match s.interpose asid i (some s.home.colour) with
      | none => .ok (s.giveStatus d lsNoSpace)
      | some t =>
        let before := (t.space asid).splices.map (·.husk)
        let t := (t.markFrozen asid ((s.space asid).node i).handle s.home.colour true).modSpace asid (fun sp => sp.kill i)
        let new := ((t.space asid).splices.map (·.husk)).filter (fun h => !before.contains h)
        let l : LinCmd := { t.linCmd (.ldel d a ct) i 0 with prog := .running, after := some new }
        .ok ((t.enqueueLin l).giveStatus d lsOk))

/-- Codes of STATE and KIND (R149). -/
def NodeState.code : NodeState → Nat
  | .free => 0
  | .live => 1
  | .sealed => 2
  | .frozen => 3
  | .husk => 4
def DeltaKind.code : DeltaKind → Nat
  | .none => 0
  | .xor => 1
  | .add => 2
  | .lowrank => 3

/-- LINFO's word (R169). -/
def State.nodeInfo (s : State) (asid i : Nat) : Word64 :=
  let sp := s.space asid
  let n := sp.node i
  w64 (n.depthField + n.klevField * 2 ^ 3 + NodeState.code n.state * 2 ^ 5 + DeltaKind.code n.kind * 2 ^ 8 + n.fmt.code * 2 ^ 10 +
    n.children * 2 ^ 14 + b2n (s.nodeBusy asid i) * 2 ^ 38 + min 7 (sp.heightField i) * 2 ^ 39 + b2n n.af * 2 ^ 42)

/-- LINFO (R169): no fault for a handle that is not valid, and no status. -/
def execLinfo (d a : Reg) (s : State) : Out :=
  finish s (s.me.pc + 12) (do
    need s.me a.val
    let asid := s.asidOf s.curCore
    match (s.space asid).named (s.me.sv a.val) with
    | some i => .ok (s.give d (s.nodeInfo asid i))
    | none => .ok (s.give d 0))

/-! The engine's work. -/

/-- Changes a lineage command. -/
def State.modLin (s : State) (c id : Nat) (f : LinCmd → LinCmd) : State :=
  s.modSys (fun y => { y with lin := y.lin.map (fun l => if l.core = c && l.id = id then f l else l) })

/-- The lineage command of a core with a number. -/
def State.linOf (s : State) (c id : Nat) : Option LinCmd := s.sys.lin.find? (fun l => l.core = c && l.id = id)

/-- A command's work has ended. -/
def State.endLin (s : State) (c id status : Nat) : State := s.modLin c id (fun l => { l with prog := .ended status 0 })

/-- Whether a release of the context that waits at the engine's queue head delays a command (R237). -/
def State.linBehind (s : State) (l : LinCmd) : Bool :=
  s.sys.lin.any (fun q => decide (q.core = l.core ∧ q.ctx = l.ctx ∧ q.id < l.id ∧ q.prog = .waiting ∧ q.bind = .val true) &&
    (ordOf q.ins).rel && !s.released q.core q.ctx q.id (ordOf q.ins).sc)

/-- Whether a command may act: it and those ahead of it in its core's queue are bound to values (R180), no acquire and no waiting
release holds it, and its own release is met (R158, R237, R238). -/
def State.linReady (s : State) (l : LinCmd) : Bool :=
  match l.prog with
  | .ended .. => false
  | .running => true
  | .waiting =>
    (match l.bind with | .val _ => true | .slot _ => false) &&
    s.sys.lin.all (fun q => !(q.core = l.core && decide (q.id < l.id)) || (match q.bind with | .val _ => true | .slot _ => false)) &&
    (l.bind = .val false ||
      (!s.acquiring l.core l.ctx l.id && !s.linBehind l && (!(ordOf l.ins).rel || s.released l.core l.ctx l.id (ordOf l.ins).sc)))

/-- The nodes that a command changes: its node, and for an old one its frozen version (R281). -/
def State.linNodes (s : State) (l : LinCmd) : List Nat := l.node :: (s.frozenFor l.asid l.node l.colour).toList

/-- Changes one block of each of the command's nodes at the block's home; heap exhausted ends the command with PROT. -/
def State.linBlock (s : State) (c : Nat) (l : LinCmd) (f : AddrSpace → Nat → Option AddrSpace) : State :=
  match (s.linNodes l).foldlM f (s.space l.asid) with
  | some sp => (s.modSpace l.asid (fun _ => sp)).modLin c l.id (fun l => { l with blk := l.blk + 1 })
  | none => s.endLin c l.id causeProt

/-- Writes one block of a node as F (R164). -/
def State.flattenBlock (s : State) (c : Nat) (l : LinCmd) : State :=
  s.linBlock c l (fun sp i => sp.storeBlock i l.blk (sp.block i l.blk))

/-- The heap's room for one new map of an LREBASE is given back (R165). -/
def AddrSpace.dropNewMap (sp : AddrSpace) (nb : Nat) (m : AMap Entry) : AddrSpace :=
  (m.foldl (fun sp e => sp.useHeap (e.1 % Config.channelCount) 0 8) sp).giveMap nb

/-- All of them are. -/
def AddrSpace.dropNewMaps (sp : AddrSpace) (l : LinCmd) : AddrSpace :=
  let nb := (sp.node l.node).blocks
  if l.rooms = 0 then sp
  else
    let sp := sp.dropNewMap nb l.newMap
    if l.rooms = 1 then sp else sp.dropNewMap nb l.frozMap

/-- What a new map is expressed against: the base, and for the map of a frozen version the base's own too, which stands in its
place after a rollback (R165, R281). -/
def State.linBases (s : State) (l : LinCmd) : List Nat := l.base :: (s.frozenFor l.asid l.base l.colour).toList

/-- Whether a block resolves alike in a node and in each of some bases. -/
def AddrSpace.alike (sp : AddrSpace) (i k : Nat) (bases : List Nat) : Bool :=
  bases.all (fun b => decide ((sp.block b k).1 = (sp.block i k).1) && (sp.block b k).2.isEmpty) && (sp.block i k).2.isEmpty

/-- One block of a new map: I where both resolve alike, F otherwise (R165). A block that already has its F keeps it. -/
def AddrSpace.newEntry (sp : AddrSpace) (i k : Nat) (bases : List Nat) (m : AMap Entry) : Option (AddrSpace × AMap Entry) :=
  let ch := k % Config.channelCount
  if (m.find k).isSome || sp.alike i k bases then some (sp, m)
  else if sp.room ch 8 then some (sp.useHeap ch 8 0, m.put k (.full (sp.block i k).1 (sp.block i k).2))
  else none

/-- Takes room for n new maps of nb blocks. -/
def AddrSpace.takeMaps (sp : AddrSpace) (nb : Nat) : (n : Nat) → Option AddrSpace
  | 0 => some sp
  | n + 1 => (sp.takeMaps nb n).bind (fun sp => sp.takeMap nb)

/-- The next block of an LREBASE's new map, and for an old one of the frozen version's too (R165, R281). The first block of each takes
room for the map. A failure gives all the room back. -/
def State.rebaseBlock (s : State) (c : Nat) (l : LinCmd) : State :=
  let sp := s.space l.asid
  let z := s.frozenFor l.asid l.node l.colour
  let need := max l.rooms (1 + b2n z.isSome)
  let made : Option (AddrSpace × AMap Entry × AMap Entry) := do
    let sp ← sp.takeMaps (sp.node l.node).blocks (need - l.rooms)
    let (sp, m) ← sp.newEntry l.node l.blk [l.base] l.newMap
    match z with
    | none => some (sp, m, l.frozMap)
    | some z => (sp.newEntry z l.blk (s.linBases l) l.frozMap).map (fun q => (q.1, m, q.2))
  match made with
  | some (sp, m, mz) =>
    (s.modSpace l.asid (fun _ => sp)).modLin c l.id (fun l => { l with blk := l.blk + 1, newMap := m, frozMap := mz, rooms := need })
  | none => (s.modSpace l.asid (fun sp => sp.dropNewMaps l)).endLin c l.id causeProt

/-- An X entry that turns a base block into a block, with its sector mask (R152). -/
def xorEntry (d b : Mem) : Entry :=
  let diff := xorData d b
  let secs := (upFrom 0 32).filter (fun s => diff.any (fun e => decide (128 * s ≤ e.1 ∧ e.1 < 128 * s + 128) && decide (e.2 ≠ 0)))
  .xor (BitVec.ofNat 32 (secs.foldl (fun n s => n + 2 ^ s) 0)) (diff.filter (fun e => !decide (e.2 = 0))) []

/-- The difference that turns p into v in a delta type, when it reconstructs v bit for bit (R154, R166). -/
def packDiff (fmt dfmt : ElemType) (v p : Nat) : Option Nat :=
  if fmt.isFloat then
    let x := decodeElem fmt v
    let y := decodeElem fmt p
    if x.isNan || y.isNan then none
    else
      let (d, _) := roundFloat dfmt .rne 0 (sumNum .rne [x, y.neg]).1
      let (t, _) := sumNum .rne [y, decodeElem dfmt d]
      if (roundFloat fmt .rne 0 t).1 = v then some d else none
  else
    let i := decodeInt fmt v - decodeInt fmt p
    if intMin dfmt ≤ i ∧ i ≤ intMax dfmt then some (encodeInt dfmt i) else none

/-- An A entry that turns a base block into a block; none when a sector that differs cannot be stored (R166). -/
def addEntry (fmt dfmt : ElemType) (d b : Mem) : Option Entry :=
  let e := 1024 / fmt.bits
  let sz := dfmt.bits / 8
  let secs := (upFrom 0 32).filter (fun s => decide (d.read (128 * s) 128 ≠ b.read (128 * s) 128))
  let cells : Option (List (Nat × Nat)) := secs.foldl (fun o s => (upFrom 0 e).foldl (fun o i => o.bind (fun l =>
    (packDiff fmt dfmt (elemAt fmt d (s * e + i)) (elemAt fmt b (s * e + i))).map (fun v => l ++ [(128 * s + i * sz, v)]))) o) (some [])
  cells.map (fun l => .add dfmt (BitVec.ofNat 32 (secs.foldl (fun n s => n + 2 ^ s) 0)) (l.foldl (fun m c => m.setNum c.1 sz c.2) []) [])

/-- The entry that LPACK gives an F block, if it changes it (R166). -/
def AddrSpace.packed (sp : AddrSpace) (i k : Nat) : Option Entry :=
  let n := sp.node i
  match n.entry k with
  | .full d [] =>
    let below : Option Block := if n.parentIdx = 0 then none else some (sp.block n.parentIdx k)
    let asI : Option Block := if n.parentIdx = 0 then none
      else some ((sp.modNode i (fun n => { n with map := n.map.set n.dflt k .inherit })).block i k)
    if asI = some (d, []) then some .inherit
    else if d = [] then some .zero
    else if n.depth = 0 ∨ n.kind = .lowrank then none
    else
      match below, n.kind with
      | some (b, []), .xor => let e := xorEntry d b; if e.units n < 8 then some e else none
      | some (b, []), .add =>
        (match addEntry n.fmt n.dfmt d b with
          | some e => if e.units n < 8 then some e else none
          | none => none)
      | _, _ => none
  | _ => none

/-- One block of an LPACK (R166). -/
def State.packBlock (s : State) (c : Nat) (l : LinCmd) : State :=
  s.linBlock c l (fun sp i => match sp.packed i l.blk with
    | none => some sp
    | some e => sp.setEntry i l.blk e)

/-- The next piece of a lineage command's own work. -/
def State.linStep (s : State) (c id : Nat) : State :=
  match s.linOf c id with
  | none => s
  | some l =>
    if !s.linReady l then s
    else if l.bind = .val false then s.endLin c id stDiscarded
    else
      match l.after with
      | some hs =>
        if hs.any (fun h => (s.space l.asid).splices.any (fun x => x.husk = h)) then s else s.endLin c id stOk
      | none =>
        if l.prog = .waiting then
          match s.interpose l.asid l.node (some l.colour) with
          | none => s.endLin c id causeProt
          | some s => s.modLin c id (fun l => { l with prog := .running })
        else if ((s.space l.asid).node l.node).blocks ≤ l.blk then
          (match l.ins with | .lpack .. => s.endLin c id stOk | _ => s)
        else
          let s := s.countIfOld l.asid 2 2 l.colour
          match l.ins with
          | .lflat .. | .lforkAf .. => s.flattenBlock c l
          | .lrebase .. => s.rebaseBlock c l
          | .lpack .. => s.packBlock c l
          | _ => s

/-! Node switches (R164, R165). -/

/-- The switch that ends a flatten (R163, R164): a root at depth 0, every descendant higher by the node's old depth and below
no FROZEN node that it was below before. -/
def AddrSpace.flatSwitch (sp : AddrSpace) (i : Nat) : AddrSpace :=
  let n := sp.node i
  let sp := (sp.descendants i).foldl (fun sp d => sp.modNode d (fun m => { m.lower n.fullDepth with klev := m.klev - n.klev })) sp
  let sp := sp.modNode i (fun m => { m with
    parent := 0, depth := 0, klev := 0, kind := .none, dfmt := m.fmt, rank := 0, u := 0, v := 0, af := false })
  (sp.dropFactors n).dropChild n.parentIdx

/-- Whether an LREBASE can still make its switch: its base is as it was named, is not beneath the node, and leaves no node
deeper than 7. R165 does not say what becomes of a command whose base is deleted, deepened or moved meanwhile: it ends as one
that finds no heap, with PROT and the node unchanged (DESIGN CHOICE, log 116). -/
def AddrSpace.baseStands (sp : AddrSpace) (i b : Nat) (vb : Word64) : Bool :=
  decide (sp.named vb = some b) && decide (b ≠ i) && !sp.isAncestor i b && decide ((sp.node b).fullDepth + 1 + sp.height i ≤ 7)

/-- The first block of a flattened node that is not F: a kiln has interposed the node since, and the blocks that were F went to its
frozen version (R164, R282). -/
def AddrSpace.unflat (sp : AddrSpace) (i : Nat) : Option Nat :=
  (upFrom 0 (sp.node i).blocks).find? (fun k => match (sp.node i).entry k with | .full _ _ => false | _ => true)

/-- The first block that a new map gives as I and that no longer resolves alike: a base has been written since (DESIGN CHOICE, log
116). -/
def AddrSpace.staleBlock (sp : AddrSpace) (i : Nat) (bases : List Nat) (map : AMap Entry) : Option Nat :=
  (upFrom 0 (sp.node i).blocks).find? (fun k => (map.find k).isNone && !sp.alike i k bases)

/-- The switch that ends an LREBASE (R165). It installs the base as it then stands. A descendant with AF, forked meanwhile, is
lowered as R149 has it. -/
def AddrSpace.rebaseSwitch (sp : AddrSpace) (i b : Nat) (map : AMap Entry) : AddrSpace :=
  let n := sp.node i
  let base := sp.node b
  let move (m : Node) : Node :=
    let m := { m with klev := m.klev + base.klev - n.klev }
    if base.fullDepth + 1 ≤ n.fullDepth then m.lower (n.fullDepth - (base.fullDepth + 1))
    else { m with depth := m.depth + (base.fullDepth + 1 - n.fullDepth) }
  let sp := (sp.descendants i).foldl (fun sp d => sp.modNode d move) sp
  let sp := sp.giveBlocks n
  let sp := sp.modNode i (fun m => { m with
    parent := base.handle, depth := base.fullDepth + 1, klev := base.klev, kind := .xor, dfmt := m.fmt, rank := 0
    u := 0, v := 0, af := false, dflt := .inherit, map := map })
  let sp := sp.modNode b (fun m => { sealNode m with children := m.children + 1 })
  (sp.dropFactors n).dropChild n.parentIdx

/-- The block at which a command has to go on although it had come to the end of the node. -/
def State.undone (s : State) (l : LinCmd) : Option Nat :=
  let sp := s.space l.asid
  match l.ins with
  | .lflat .. | .lforkAf .. => (s.linNodes l).findSome? sp.unflat
  | .lrebase .. =>
    ((sp.staleBlock l.node [l.base] l.newMap).or
      ((s.frozenFor l.asid l.node l.colour).bind (fun z =>
        if l.rooms < 2 then some 0 else sp.staleBlock z (s.linBases l) l.frozMap)))
  | _ => none

/-- NODE_SWITCH: every block of a flatten or rebase is done, and one switch installs the result, for an old command in the frozen
version too (R281); its bump then waits for the splices that it starts (R157, R160, R164, R165). The number is 2^32 times the core
plus the command's. -/
def execNodeSwitch (id : Nat) (s : State) : Out :=
  let c := id / 2 ^ 32
  match s.linOf c (id % 2 ^ 32) with
  | none => .next s
  | some l =>
    let sp := s.space l.asid
    if l.prog ≠ .running ∨ l.after.isSome ∨ l.blk < (sp.node l.node).blocks then .next s
    else
      let z := s.frozenFor l.asid l.node l.colour
      let done (sp' : AddrSpace) : Out :=
        let before := sp.splices.map (·.husk)
        let new := (sp'.splices.map (·.husk)).filter (fun h => !before.contains h)
        .next (((s.modSpace l.asid (fun _ => sp')).modLin c l.id (fun l => { l with after := some new })).countIfOld l.asid 2 2 l.colour)
      let fails : Bool := match l.ins with | .lrebase .. => !sp.baseStands l.node l.base l.vb | _ => false
      if fails then .next ((s.modSpace l.asid (fun sp => sp.dropNewMaps l)).endLin c l.id causeProt)
      else
        match s.undone l with
        | some k => .next (s.modLin c l.id (fun l => { l with blk := k }))
        | none =>
          match l.ins with
          | .lflat .. | .lforkAf .. => done (z.toList.foldl AddrSpace.flatSwitch (sp.flatSwitch l.node))
          | .lrebase .. =>
            let sp' := sp.rebaseSwitch l.node l.base l.newMap
            done (match z with
              | some z => (sp'.rebaseSwitch z l.base l.frozMap)
              | none => if l.rooms = 2 then sp'.dropNewMap (sp.node l.node).blocks l.frozMap else sp')
          | _ => .next s

/-- SPLICE: the next step of the splice of a husk, which begins when its child is not BUSY, its child is not itself being
spliced away, and no splice into the husk is under way; a block that finds no heap room waits (R168). The number is 2^24 times the
address space plus the husk's index. -/
def execSplice (id : Nat) (s : State) : Out :=
  let asid := id / 2 ^ 24
  let h := id % 2 ^ 24
  let sp := s.space asid
  match sp.splices.find? (fun x => x.husk = h) with
  | none => .next s
  | some x =>
    let put (sp : AddrSpace) (y : Splice) : AddrSpace :=
      { sp with splices := sp.splices.map (fun z => if z.husk = h then y else z) }
    if !x.started then
      .next (if s.nodeBusy asid x.child || sp.splices.any (fun z => z.started && decide (z.husk = x.child ∨ z.child = h)) then s
        else s.modSpace asid (fun sp => put (sp.spliceStart h x.child) { x with started := true, todo := spliceTodo (sp.node h) (sp.node x.child) }))
    else
      match x.todo with
      | k :: r =>
        (match sp.spliceEntry h x.child k with
          | some sp => .next (s.modSpace asid (fun _ => put sp { x with todo := r }))
          | none => .next s)
      | [] =>
        let sp := { sp with splices := sp.splices.filter (fun z => z.husk ≠ h) }
        .next (s.modSpace asid (fun _ => sp.spliceSwitch h x.child))

end Sys2Proof.Machine
end

