-- ==== Sys2Proof/Machine/Scalar.lean ====
section
/-! DEFINITION. The scalar integer instructions (R344, R346, R349, R350, R354, R379, R384, R385, R390, R391, R395, R399,
R404, R406, R440). Each writes one scalar register, or nothing, and goes on to the next word. -/

namespace Sys2Proof.Machine

open Sys2Proof

/-- An instruction of `len` bytes whose only effect is a scalar register's new value and D bit (R69, R76). -/
def writesS (len : Word64) (d : Reg) (v : Word64) (dbit : Bool) (s : State) : Out :=
  finish s (s.me.pc + len) (.ok (s.modMe (fun x => x.setS d.val v dbit)))

/-- The R form of R344: d := f(sv(a), sv(b)), with the D bit of R76. -/
def binary (f : Word64 → Word64 → Word64) (d a b : Reg) (s : State) : Out :=
  writesS 8 d (f (s.me.sv a.val) (s.me.sv b.val)) (s.me.dbit a.val || s.me.dbit b.val) s

/-- The I form of R344: d := f(sv(a), sext(IMM, 32)). -/
def binaryImm (f : Word64 → Word64 → Word64) (d a : Reg) (imm : BitVec 32) (s : State) : Out :=
  writesS 8 d (f (s.me.sv a.val) (immWord imm)) (s.me.dbit a.val) s

/-- The form with one source register. -/
def unary (f : Word64 → Word64) (d a : Reg) (s : State) : Out := writesS 8 d (f (s.me.sv a.val)) (s.me.dbit a.val) s

/-! The functions of two words. -/

/-- The shift amount: bits [5:0] of the second operand (R404). -/
def shamt (b : Word64) : Nat := b.toNat % 64

/-- Shifts and the rotate (R404). -/
def shlWord (a b : Word64) : Word64 := a <<< shamt b
def shrWord (a b : Word64) : Word64 := a >>> shamt b
def sraWord (a b : Word64) : Word64 := a.sshiftRight (shamt b)
def rolWord (a b : Word64) : Word64 := (a <<< shamt b) ||| (a >>> (64 - shamt b))

/-- Signed minimum and maximum (R379). -/
def minWord (a b : Word64) : Word64 := if b.slt a then b else a
def maxWord (a b : Word64) : Word64 := if a.slt b then b else a

/-- The high 64 bits of the signed product (R385). -/
def mulhWord (a b : Word64) : Word64 := BitVec.ofInt 64 (a.toInt * b.toInt / 2 ^ 64)

/-- Leading zeros, 64 for zero (R349). -/
def clzWord (a : Word64) : Word64 := if a = 0 then 64 else w64 (63 - Nat.log2 a.toNat)

/-- Set bits (R395). -/
def popcWord (a : Word64) : Word64 := w64 (((List.range 64).filter (fun i => a.getLsbD i)).length)

/-- The field of BFX: width = wm1 + 1 bits from lsb, sign-extended with .s (R346). -/
def bfxWord (sx : Bool) (lsb wm1 : Nat) (a : Word64) : Word64 :=
  let v := (a.toNat >>> lsb) % 2 ^ (wm1 + 1)
  if sx then BitVec.ofInt 64 (toSigned (wm1 + 1) v) else w64 v

/-- BFI's result: bits [lsb + wm1 : lsb] of the old value replaced by the low bits of a (R346). -/
def bfiWord (lsb wm1 : Nat) (old a : Word64) : Word64 :=
  let m : Word64 := w64 ((2 ^ (wm1 + 1) - 1) * 2 ^ lsb)
  (old &&& ~~~m) ||| ((a <<< lsb) &&& m)

/-- 1 for a condition that holds, 0 otherwise (R350). -/
def boolWord (b : Bool) : Word64 := if b then 1 else 0

/-! The meanings. -/

/-- NOP (R68, R390). -/
def execNop (s : State) : Out := finish s (s.me.pc + 8) (.ok s)

/-- ADD (R344). -/
def execAdd (d a b : Reg) (s : State) : Out := binary (· + ·) d a b s
/-- ADD with an immediate (R344). -/
def execAddImm (d a : Reg) (imm : BitVec 32) (s : State) : Out := binaryImm (· + ·) d a imm s
/-- SUB (R391). -/
def execSub (d a b : Reg) (s : State) : Out := binary (· - ·) d a b s
/-- SUB with an immediate (R391). -/
def execSubImm (d a : Reg) (imm : BitVec 32) (s : State) : Out := binaryImm (· - ·) d a imm s
/-- MUL (R385). -/
def execMul (d a b : Reg) (s : State) : Out := binary (· * ·) d a b s
/-- MUL with an immediate (R385). -/
def execMulImm (d a : Reg) (imm : BitVec 32) (s : State) : Out := binaryImm (· * ·) d a imm s
/-- MULH (R385). -/
def execMulh (d a b : Reg) (s : State) : Out := binary mulhWord d a b s
/-- AND (R344). -/
def execAnd (d a b : Reg) (s : State) : Out := binary (· &&& ·) d a b s
/-- AND with an immediate (R344). -/
def execAndImm (d a : Reg) (imm : BitVec 32) (s : State) : Out := binaryImm (· &&& ·) d a imm s
/-- OR (R391). -/
def execOr (d a b : Reg) (s : State) : Out := binary (· ||| ·) d a b s
/-- OR with an immediate (R391). -/
def execOrImm (d a : Reg) (imm : BitVec 32) (s : State) : Out := binaryImm (· ||| ·) d a imm s
/-- XOR (R440). -/
def execXor (d a b : Reg) (s : State) : Out := binary (· ^^^ ·) d a b s
/-- XOR with an immediate (R440). -/
def execXorImm (d a : Reg) (imm : BitVec 32) (s : State) : Out := binaryImm (· ^^^ ·) d a imm s
/-- ANDN (R344). -/
def execAndn (d a b : Reg) (s : State) : Out := binary (fun x y => x &&& ~~~y) d a b s
/-- SHL (R404). -/
def execShl (d a b : Reg) (s : State) : Out := binary shlWord d a b s
/-- SHL by an immediate (R404). -/
def execShlImm (d a : Reg) (imm : BitVec 32) (s : State) : Out := binaryImm shlWord d a imm s
/-- SHR (R404). -/
def execShr (d a b : Reg) (s : State) : Out := binary shrWord d a b s
/-- SHR by an immediate (R404). -/
def execShrImm (d a : Reg) (imm : BitVec 32) (s : State) : Out := binaryImm shrWord d a imm s
/-- SRA (R404). -/
def execSra (d a b : Reg) (s : State) : Out := binary sraWord d a b s
/-- SRA by an immediate (R404). -/
def execSraImm (d a : Reg) (imm : BitVec 32) (s : State) : Out := binaryImm sraWord d a imm s
/-- ROL (R404). -/
def execRol (d a b : Reg) (s : State) : Out := binary rolWord d a b s
/-- ROL by an immediate (R404). -/
def execRolImm (d a : Reg) (imm : BitVec 32) (s : State) : Out := binaryImm rolWord d a imm s
/-- MIN (R379). -/
def execMin (d a b : Reg) (s : State) : Out := binary minWord d a b s
/-- MIN with an immediate (R379). -/
def execMinImm (d a : Reg) (imm : BitVec 32) (s : State) : Out := binaryImm minWord d a imm s
/-- MAX (R379). -/
def execMax (d a b : Reg) (s : State) : Out := binary maxWord d a b s
/-- MAX with an immediate (R379). -/
def execMaxImm (d a : Reg) (imm : BitVec 32) (s : State) : Out := binaryImm maxWord d a imm s
/-- CMP (R350). -/
def execCmp (k : Cond) (d a b : Reg) (s : State) : Out := binary (fun x y => boolWord (condInt k x y)) d a b s
/-- CMP with an immediate (R350). -/
def execCmpImm (k : Cond) (d a : Reg) (imm : BitVec 32) (s : State) : Out :=
  binaryImm (fun x y => boolWord (condInt k x y)) d a imm s
/-- CLZ (R349). -/
def execClz (d a : Reg) (s : State) : Out := unary clzWord d a s
/-- POPC (R395). -/
def execPopc (d a : Reg) (s : State) : Out := unary popcWord d a s
/-- MOV, which copies the D bit and never applies need() (R384). -/
def execMov (d a : Reg) (s : State) : Out := unary (fun x => x) d a s
/-- BFX (R346). -/
def execBfx (sx : Bool) (d a : Reg) (lsb wm1 : BitVec 6) (s : State) : Out :=
  unary (bfxWord sx lsb.toNat wm1.toNat) d a s
/-- BFI, which reads d (R346). -/
def execBfi (d a : Reg) (lsb wm1 : BitVec 6) (s : State) : Out := binary (bfiWord lsb.toNat wm1.toNat) d d a s
/-- MOVI, of 16 bytes (R384). -/
def execMovi (d : Reg) (imm : BitVec 64) (s : State) : Out := writesS 16 d imm false s
/-- SEL, whose D bit is that of all three sources (R406). -/
def execSel (d a b c : Reg) (s : State) : Out :=
  writesS 8 d (if s.me.sv a.val ≠ 0 then s.me.sv b.val else s.me.sv c.val)
    (s.me.dbit a.val || s.me.dbit b.val || s.me.dbit c.val) s

/-- Division with the flag of R119 and the D bit of R76 (R354, R399). -/
def dividing (f : Word64 → Word64 → Word64 × BitVec 2) (d a b : Reg) (s : State) : Out :=
  finish s (s.me.pc + 8) (.ok (s.modMe (fun x =>
    (x.orIstat (f (x.sv a.val) (x.sv b.val)).2).setS d.val (f (x.sv a.val) (x.sv b.val)).1 (x.dbit a.val || x.dbit b.val))))

/-- DIV (R354). -/
def execDiv (d a b : Reg) (s : State) : Out := dividing divide d a b s
/-- REM (R399). -/
def execRem (d a b : Reg) (s : State) : Out := dividing remainder d a b s

end Sys2Proof.Machine
end

