-- ==== Sys2Proof/Machine/Floating.lean ====
section
/-! DEFINITION. The scalar floating instructions (R360 to R364). They honour subnormals always, set their flags in FRM and
draw from generator 64 under RS. -/

namespace Sys2Proof.Machine

open Sys2Proof

/-- The value of a scalar register read as an element (R360). -/
def Ctx.numOf (x : Ctx) (ty : ElemType) (r : Reg) : Num := decodeElem ty (scalarElem ty (x.sv r.val))

/-- An arithmetic result rounded once into d, with the D bit of the sources named (R76, R361). -/
def roundsS (ty : ElemType) (rm : RoundMode) (d : Reg) (srcs : List Reg) (f : Ctx → Num × Flags) (s : State) : Out :=
  finish s (s.me.pc + 8) (.ok (s.modMe (fun x =>
    let (v, fl) := f x
    let (e, y) := x.round ty rm 64 v fl
    y.setS d.val (scalarResult ty e) (srcs.any (fun r => x.dbit r.val)))))

/-- FADD (R361). -/
def execFadd (ty : ElemType) (rm : RoundMode) (d a b : Reg) (s : State) : Out :=
  roundsS ty rm d [a, b] (fun x => sumNum rm [x.numOf ty a, x.numOf ty b]) s

/-- FSUB (R361). -/
def execFsub (ty : ElemType) (rm : RoundMode) (d a b : Reg) (s : State) : Out :=
  roundsS ty rm d [a, b] (fun x => sumNum rm [x.numOf ty a, (x.numOf ty b).neg]) s

/-- FMUL (R361). -/
def execFmul (ty : ElemType) (rm : RoundMode) (d a b : Reg) (s : State) : Out :=
  roundsS ty rm d [a, b] (fun x => mulNum (x.numOf ty a) (x.numOf ty b)) s

/-- The exact a × b + c, the product one addend (R101, R118). -/
def fmaNum (rm : RoundMode) (a b c : Num) : Num × Flags :=
  let (p, f) := mulNum a b
  let (t, g) := sumNum rm [p, c]
  (t, f ||| g)

/-- FFMA (R361). -/
def execFfma (ty : ElemType) (rm : RoundMode) (d a b c : Reg) (s : State) : Out :=
  roundsS ty rm d [a, b, c] (fun x => fmaNum rm (x.numOf ty a) (x.numOf ty b) (x.numOf ty c)) s

/-- FMIN and FMAX return an operand unchanged and set no flag (R118, R364). -/
def picksS (ty : ElemType) (f : Nat → Nat → Nat) (d a b : Reg) (s : State) : Out :=
  binary (fun x y => scalarResult ty (f (scalarElem ty x) (scalarElem ty y))) d a b s

/-- FMIN (R364). -/
def execFmin (ty : ElemType) (d a b : Reg) (s : State) : Out := picksS ty (floatMin ty) d a b s

/-- FMAX (R364). -/
def execFmax (ty : ElemType) (d a b : Reg) (s : State) : Out := picksS ty (floatMax ty) d a b s

/-- FCMP (R59, R362). -/
def execFcmp (k : Cond) (ty : ElemType) (d a b : Reg) (s : State) : Out :=
  binary (fun x y => boolWord (condFloat k (decodeElem ty (scalarElem ty x)) (decodeElem ty (scalarElem ty y)))) d a b s

/-- FCVT (R363): flags by R116 and R117; a conversion between integer types draws nothing. -/
def execFcvt (dst src : ElemType) (rm : RoundMode) (d a : Reg) (s : State) : Out :=
  finish s (s.me.pc + 8) (.ok (s.modMe (fun x =>
    let (r, y) := x.drawFor rm 64
    let (e, f, sat) := roundTo dst rm r (!src.isFloat) (x.numOf src a)
    ((y.orFrm f).orIstat (if sat then istatSAT else 0)).setS d.val (scalarResult dst e) (x.dbit a.val))))

end Sys2Proof.Machine
end

