-- ==== Sys2Proof/Machine/VecMath.lean ====
section
/-! DEFINITION. The functions of VFN (R430) as exact values with a sticky bit: fixed-point integers of `fracs` fractional
bits, whose error is far below the distance of any result from a point at which a rounding turns (DEDUCED, log 9). -/

namespace Sys2Proof.Machine

open Sys2Proof

/-- Fractional bits of the fixed-point numbers. -/
def fracs : Nat := 704

/-- Arguments beyond these magnitudes give the same rounded result as the bound itself in every type of R430. -/
def expBound : Nat := 256

/-- The fixed-point number of m × 2^e, truncated. -/
def toFixed (m : Nat) (e : Int) : Nat :=
  let k := e + fracs
  if 0 ≤ k then m * 2 ^ k.toNat else m / 2 ^ (-k).toNat

/-- Product of two fixed-point numbers, truncated. -/
def mulFix (a b : Nat) : Nat := a * b / 2 ^ fracs

/-- Adds n more terms of z + z^3/3 + z^5/5 + …; `p` is the present power of z, `z2` the square, `k` the odd divisor. -/
def atanhTerms (z2 : Nat) : (n : Nat) → (p k acc : Nat) → Nat
  | 0, _, _, acc => acc
  | n + 1, p, k, acc => atanhTerms z2 n (mulFix p z2) (k + 2) (acc + p / k)

/-- 2 atanh(z) for z at most 1/3, which is ln((1 + z)/(1 − z)). -/
def lnOf (z : Nat) : Nat := 2 * atanhTerms (mulFix z z) 230 z 1 0

/-- ln 2. -/
def ln2 : Nat := lnOf (2 ^ fracs / 3)

/-- Adds n more terms of 1 + r + r^2/2 + …; `t` is the present term and `k` its number. -/
def expTerms (r : Nat) : (n : Nat) → (t k acc : Nat) → Nat
  | 0, _, _, acc => acc
  | n + 1, t, k, acc => expTerms r n (mulFix t r / (k + 1)) (k + 1) (acc + t)

/-- e^r for 0 ≤ r < 1. -/
def expUnit (r : Nat) : Nat := expTerms r 150 (2 ^ fracs) 0 0

/-- e^X of a fixed-point integer: a fixed-point number and a power of two by which it is multiplied. -/
def expFixed (x : Int) : Nat × Int :=
  let k := x / (ln2 : Int)
  (expUnit (x % (ln2 : Int)).toNat, k)

/-- An irrational value near v × 2^e: a sticky bit below its last bit. -/
def sticky (neg : Bool) (v : Nat) (e : Int) : Num := .fin neg (2 * v + 1) (e - 1)

/-- v × 2^e where the truncation that gave v is exact or not. -/
def maybeSticky (exact : Bool) (v : Nat) (e : Int) : Num := if exact then .fin false v e else sticky false v e

/-- The magnitude m × 2^e as a fixed-point number, at most `b`. -/
def clampFixed (b m : Nat) (e : Int) : Nat :=
  if topExp m e ≥ (Nat.log2 b : Int) then b * 2 ^ fracs else toFixed m e

/-- The root of n, bit by bit: `r` holds the bits found so far. -/
def isqrtBits (n : Nat) : (k r : Nat) → Nat
  | 0, r => r
  | k + 1, r => let t := r + 2 ^ k; isqrtBits n k (if t * t ≤ n then t else r)

/-- The greatest number whose square is at most n. -/
def isqrt (n : Nat) : Nat := isqrtBits n (Nat.log2 n / 2 + 1) 0

/-- 1/x of a nonzero magnitude. -/
def recipNum (m : Nat) (e : Int) : Num :=
  let n := Nat.log2 m + 80
  maybeSticky (decide (2 ^ n % m = 0)) (2 ^ n / m) (-e - n)

/-- √x of a nonzero magnitude. -/
def sqrtNum (m : Nat) (e : Int) : Num :=
  let m' := if e % 2 = 0 then m else 2 * m
  let e' := if e % 2 = 0 then e else e - 1
  let y := m' * 2 ^ 160
  let r := isqrt y
  maybeSticky (decide (r * r = y)) r (e' / 2 - 80)

/-- 1/√x of a nonzero magnitude. -/
def rsqrtNum (m : Nat) (e : Int) : Num :=
  let m' := if e % 2 = 0 then m else 2 * m
  let e' := if e % 2 = 0 then e else e - 1
  let n := Nat.log2 m' + 80
  let r := isqrt (2 ^ (2 * n) / m')
  maybeSticky (decide (r * r * m' = 2 ^ (2 * n))) r (-(e' / 2) - n)

/-- 2^x of a nonzero finite x (R430). -/
def exp2Num (neg : Bool) (m : Nat) (e : Int) : Num :=
  let a : Int := (clampFixed (2 * expBound) m e : Nat)
  let x : Int := if neg then -a else a
  let one : Int := (2 ^ fracs : Nat)
  let f := (x % one).toNat
  if f = 0 then .fin false 1 (x / one) else sticky false (expUnit (mulFix f ln2)) (x / one - fracs)

/-- e^x of a nonzero finite x. -/
def expNum (neg : Bool) (m : Nat) (e : Int) : Num :=
  let a : Int := (clampFixed expBound m e : Nat)
  let (v, k) := expFixed (if neg then -a else a)
  sticky false v (k - fracs)

/-- log2 of a nonzero magnitude. -/
def log2Num (m : Nat) (e : Int) : Num :=
  let t := topExp m e
  if m = 2 ^ Nat.log2 m then Num.ofInt t
  else
    let y := toFixed m (e - t)
    let one := 2 ^ fracs
    let l := lnOf ((y - one) * one / (y + one)) * one / ln2
    let v : Int := t * (one : Int) + (l : Int)
    sticky (decide (v < 0)) v.natAbs (-(fracs : Int))

/-- tanh of a nonzero magnitude. -/
def tanhNum (neg : Bool) (m : Nat) (e : Int) : Num :=
  let (v, k) := expFixed (2 * clampFixed (expBound / 2) m e : Nat)
  let one := 2 ^ fracs
  let w := v * 2 ^ k.toNat
  sticky neg ((w - one) * one / (w + one)) (-(fracs : Int))

/-- 1/(1 + e^−x) of a nonzero finite x. -/
def sigmNum (neg : Bool) (m : Nat) (e : Int) : Num :=
  let (v, k) := expFixed (-(clampFixed expBound m e : Nat) : Int)
  let one := 2 ^ fracs
  let q := v / 2 ^ (-k).toNat
  sticky false ((if neg then q else one) * one / (one + q)) (-(fracs : Int))

/-- The value of a function of VFN and its flags of forming (R430). A NaN operand gives NaN without a flag. -/
def fnNum (fn : FnOp) (x : Num) : Num × Flags :=
  match fn, x with
  | _, .nan => (.nan, noFlags)
  | .recip, .inf n => (.fin n 0 0, noFlags)
  | .recip, .fin n 0 _ => (.inf n, fDZ)
  | .recip, .fin n m e => (if n then (recipNum m e).neg else recipNum m e, noFlags)
  | .sqrt, .inf n => if n then (.nan, fNV) else (.inf false, noFlags)
  | .sqrt, .fin n 0 _ => (.fin n 0 0, noFlags)
  | .sqrt, .fin n m e => if n then (.nan, fNV) else (sqrtNum m e, noFlags)
  | .rsqrt, .inf n => if n then (.nan, fNV) else (.fin false 0 0, noFlags)
  | .rsqrt, .fin n 0 _ => (.inf n, fDZ)
  | .rsqrt, .fin n m e => if n then (.nan, fNV) else (rsqrtNum m e, noFlags)
  | .exp2, .inf n => (if n then .fin false 0 0 else .inf false, noFlags)
  | .exp2, .fin _ 0 _ => (.fin false 1 0, noFlags)
  | .exp2, .fin n m e => (exp2Num n m e, noFlags)
  | .log2, .inf n => if n then (.nan, fNV) else (.inf false, noFlags)
  | .log2, .fin _ 0 _ => (.inf true, fDZ)
  | .log2, .fin n m e => if n then (.nan, fNV) else (log2Num m e, noFlags)
  | .exp, .inf n => (if n then .fin false 0 0 else .inf false, noFlags)
  | .exp, .fin _ 0 _ => (.fin false 1 0, noFlags)
  | .exp, .fin n m e => (expNum n m e, noFlags)
  | .tanh, .inf n => (.fin n 1 0, noFlags)
  | .tanh, .fin n 0 _ => (.fin n 0 0, noFlags)
  | .tanh, .fin n m e => (tanhNum n m e, noFlags)
  | .sigm, .inf n => (if n then .fin false 0 0 else .fin false 1 0, noFlags)
  | .sigm, .fin _ 0 _ => (.fin false 1 (-1), noFlags)
  | .sigm, .fin n m e => (sigmNum n m e, noFlags)

end Sys2Proof.Machine
end

