-- ==== Sys2Proof/Machine/Vector.lean ====
section
/-! DEFINITION. The vector instructions (R171 to R173, R418 to R436). Each executes when it issues, so that every
instruction that R418 makes wait finds its results (DEDUCED, log 8). An instruction has an issue function, its effect without the
PC, which a repetition's reissue calls too (R177). -/

namespace Sys2Proof.Machine

open Sys2Proof

/-! Lanes, elements and rounding (R115, R419 to R422). -/

/-- The issue checks of R420 before those of the instruction's own entry. -/
def vecCheck (s : State) (regs : List Nat) : Except Stop Unit := do
  if s.me.vcount = 0 then .error (.trap causeVlane 0)
  needAll s.me regs

/-- A vector instruction whose only effect is on its context. -/
def vecAct (s : State) (regs : List Nat) (f : Ctx → Ctx) : Act := do
  vecCheck s regs
  .ok (s.modMe f)

/-- Whether FRM.FTZ flushes values of a type (R115). -/
def flushes (x : Ctx) (ty : ElemType) : Bool := x.ftz && (match ty with | .fp32 | .bf16 | .fp16 => true | _ => false)

/-- The element bits of a lane as an instruction of type TY reads them, a subnormal flushed to zero under FTZ (R115, R419). -/
def Ctx.elem (x : Ctx) (ty : ElemType) (w : Word32) : Nat :=
  let v := w.toNat % 2 ^ ty.bits
  if flushes x ty = true ∧ (v >>> fracBits ty) % 2 ^ (ty.bits - 1 - fracBits ty) = 0
  then withSign ty (v.testBit (ty.bits - 1)) 0 else v

/-- An element as it fills a lane (R419). -/
def laneFill (ty : ElemType) (v : Nat) : Word32 := (scalarResult ty v).truncate 32

/-- One rounding of a vector instruction into a floating type with draw r: a tiny result is flushed under FTZ (R115). -/
def roundVec (x : Ctx) (ty : ElemType) (rm : RoundMode) (r : Nat) (v : Num) : Nat × Flags :=
  match v with
  | .fin n m e => if flushes x ty && isTiny ty rm r n m e then (withSign ty n 0, fUF ||| fNX) else roundFloat ty rm r v
  | _ => roundFloat ty rm r v

/-- Rounds an exact value with its flags of forming, drawing from generator l under RS: the element, and the context with
the draw taken and the flags set (R422). -/
def Ctx.roundLane (y : Ctx) (ty : ElemType) (rm : RoundMode) (l : Nat) (p : Num × Flags) : Nat × Ctx :=
  let (r, z) := y.drawFor rm l
  let (e, g) := roundVec z ty rm r p.1
  (e, z.orFrm (p.2 ||| g))

/-- Writes a vector register by R421. `f y l` gives lane l's result and the context after its draw and flags; it reads
its operands from the context before the instruction. -/
def Ctx.writeVec (x : Ctx) (vd : VReg) (m : VMask) (f : Ctx → Nat → Word32 × Ctx) : Ctx :=
  (upFrom 0 x.vcount.val).foldl (fun y l =>
    if x.laneOn m.pm.val l then (f y l).2.setLane vd.val l (f y l).1
    else if m.zm then y.setLane vd.val l 0 else y) x

/-- The same where a lane's result neither draws nor sets a flag. -/
def Ctx.writeVecPure (x : Ctx) (vd : VReg) (m : VMask) (f : Nat → Word32) : Ctx := x.writeVec vd m (fun y l => (f l, y))

/-- The integer that a lane's element holds. -/
def Ctx.laneInt (x : Ctx) (ty : ElemType) (w : Word32) : Int := decodeInt ty (x.elem ty w)

/-- The exact value of a lane's element. -/
def Ctx.laneNum (x : Ctx) (ty : ElemType) (w : Word32) : Num := decodeElem ty (x.elem ty w)

/-! Element-wise arithmetic (R423). -/

/-- One lane's arithmetic: a floating result rounded once, or an integer result modulo 2^w. -/
def Ctx.arith (y : Ctx) (ty : ElemType) (rm : RoundMode) (l : Nat) (num : Num × Flags) (int : Int) : Word32 × Ctx :=
  if ty.isFloat then
    let (e, z) := y.roundLane ty rm l num
    (laneFill ty e, z)
  else (laneFill ty (encodeInt ty int), y)

/-- VADD, VSUB and VMUL: a two-operand arithmetic. -/
def Ctx.vec2 (x : Ctx) (ty : ElemType) (rm : RoundMode) (vd va : VReg) (b : VOperand) (m : VMask)
    (num : Num → Num → Num × Flags) (int : Int → Int → Int) : Ctx :=
  x.writeVec vd m (fun y l =>
    let a := x.lane va.val l
    let c := x.operandLane b l
    y.arith ty rm l (num (x.laneNum ty a) (x.laneNum ty c)) (int (x.laneInt ty a) (x.laneInt ty c)))

/-- VADD's effect (R423). -/
def issueVadd (ty : ElemType) (rm : RoundMode) (vd va : VReg) (b : VOperand) (m : VMask) (s : State) : Act :=
  vecAct s (vopRegs b) (fun x => x.vec2 ty rm vd va b m (fun p q => sumNum rm [p, q]) (· + ·))

/-- VSUB's effect (R423). -/
def issueVsub (ty : ElemType) (rm : RoundMode) (vd va : VReg) (b : VOperand) (m : VMask) (s : State) : Act :=
  vecAct s (vopRegs b) (fun x => x.vec2 ty rm vd va b m (fun p q => sumNum rm [p, q.neg]) (· - ·))

/-- VMUL's effect (R423). -/
def issueVmul (ty : ElemType) (rm : RoundMode) (vd va : VReg) (b : VOperand) (m : VMask) (s : State) : Act :=
  vecAct s (vopRegs b) (fun x => x.vec2 ty rm vd va b m mulNum (· * ·))

/-- VFMA's effect: one rounding (R423). -/
def issueVfma (ty : ElemType) (rm : RoundMode) (vd va : VReg) (b : VOperand) (vc : VReg) (m : VMask) (s : State) : Act :=
  vecAct s (vopRegs b) (fun x => x.writeVec vd m (fun y l =>
    let a := x.lane va.val l
    let q := x.operandLane b l
    let c := x.lane vc.val l
    y.arith ty rm l (fmaNum rm (x.laneNum ty a) (x.laneNum ty q) (x.laneNum ty c))
      (x.laneInt ty a * x.laneInt ty q + x.laneInt ty c)))

/-- The greater or smaller of two elements (R118, R423). -/
def pickElem (greater : Bool) (ty : ElemType) (a b : Nat) : Nat :=
  if ty.isFloat then (if greater then floatMax ty a b else floatMin ty a b)
  else if greater then (if decodeInt ty a < decodeInt ty b then b else a)
  else (if decodeInt ty b < decodeInt ty a then b else a)

/-- VMAX and VMIN: an operand unchanged, no flag. -/
def Ctx.vecPick (x : Ctx) (greater : Bool) (ty : ElemType) (vd va : VReg) (b : VOperand) (m : VMask) : Ctx :=
  x.writeVecPure vd m (fun l =>
    laneFill ty (pickElem greater ty (x.elem ty (x.lane va.val l)) (x.elem ty (x.operandLane b l))))

/-- VMAX's effect (R423). -/
def issueVmax (ty : ElemType) (vd va : VReg) (b : VOperand) (m : VMask) (s : State) : Act :=
  vecAct s (vopRegs b) (fun x => x.vecPick true ty vd va b m)

/-- VMIN's effect (R423). -/
def issueVmin (ty : ElemType) (vd va : VReg) (b : VOperand) (m : VMask) (s : State) : Act :=
  vecAct s (vopRegs b) (fun x => x.vecPick false ty vd va b m)

/-- VABS of one element (R423). -/
def absElem (ty : ElemType) (v : Nat) : Nat :=
  if ty.isFloat then (if (decodeFloat ty v).isNan then nanCode ty else v % 2 ^ (ty.bits - 1))
  else if isSignedInt ty then encodeInt ty (decodeInt ty v).natAbs else v

/-- VABS's effect (R423). -/
def issueVabs (ty : ElemType) (vd va : VReg) (m : VMask) (s : State) : Act :=
  vecAct s [] (fun x => x.writeVecPure vd m (fun l => laneFill ty (absElem ty (x.elem ty (x.lane va.val l)))))

/-! Bitwise operations and shifts, on whole lanes (R424). -/

/-- A two-operand operation on whole lanes. -/
def Ctx.vecBits (x : Ctx) (vd va : VReg) (b : VOperand) (m : VMask) (f : Word32 → Word32 → Word32) : Ctx :=
  x.writeVecPure vd m (fun l => f (x.lane va.val l) (x.operandLane b l))

/-- VAND's effect (R424). -/
def issueVand (vd va : VReg) (b : VOperand) (m : VMask) (s : State) : Act :=
  vecAct s (vopRegs b) (fun x => x.vecBits vd va b m (· &&& ·))

/-- VOR's effect (R424). -/
def issueVor (vd va : VReg) (b : VOperand) (m : VMask) (s : State) : Act :=
  vecAct s (vopRegs b) (fun x => x.vecBits vd va b m (· ||| ·))

/-- VXOR's effect (R424). -/
def issueVxor (vd va : VReg) (b : VOperand) (m : VMask) (s : State) : Act :=
  vecAct s (vopRegs b) (fun x => x.vecBits vd va b m (· ^^^ ·))

/-- VSHL's effect (R424). -/
def issueVshl (vd va : VReg) (b : VOperand) (m : VMask) (s : State) : Act :=
  vecAct s (vopRegs b) (fun x => x.vecBits vd va b m (fun a k => a <<< (k.toNat % 32)))

/-- VSHR's effect (R424). -/
def issueVshr (arith : Bool) (vd va : VReg) (b : VOperand) (m : VMask) (s : State) : Act :=
  vecAct s (vopRegs b) (fun x => x.vecBits vd va b m (fun a k =>
    if arith then a.sshiftRight (k.toNat % 32) else a >>> (k.toNat % 32)))

/-! Compare, select, broadcast, index, shuffle (R425 to R427). -/

/-- A condition on two elements (R425). -/
def condElem (k : Cond) (ty : ElemType) (a b : Nat) : Bool :=
  if ty.isFloat then condFloat k (decodeFloat ty a) (decodeFloat ty b)
  else
    let i := decodeInt ty a
    let j := decodeInt ty b
    match k with
    | .eq => decide (a = b)
    | .ne => decide (a ≠ b)
    | .lt => decide (i < j)
    | .le => decide (i ≤ j)
    | .gt => decide (j < i)
    | .ge => decide (j ≤ i)
    | .ltu => decide (a < b)
    | .leu => decide (a ≤ b)
    | .gtu => decide (b < a)
    | .geu => decide (b ≤ a)

/-- A word with bit l set to b. -/
def withBit (w : Word64) (l : Nat) (b : Bool) : Word64 :=
  if b then w ||| ((1 : Word64) <<< l) else w &&& ~~~((1 : Word64) <<< l)

/-- VCMP's new predicate (R425). -/
def Ctx.vcmpBits (x : Ctx) (k : Cond) (ty : ElemType) (pd : Pred) (va : VReg) (b : VOperand) (m : VMask) : Word64 :=
  (upFrom 0 x.vcount.val).foldl (fun w l =>
    if x.laneOn m.pm.val l then
      withBit w l (condElem k ty (x.elem ty (x.lane va.val l)) (x.elem ty (x.operandLane b l)))
    else if m.zm then withBit w l false else w) (x.pv pd.val)

/-- VCMP's effect (R425). -/
def issueVcmp (k : Cond) (ty : ElemType) (pd : Pred) (va : VReg) (b : VOperand) (m : VMask) (s : State) : Act :=
  vecAct s (vopRegs b) (fun x => x.setP pd.val (x.vcmpBits k ty pd va b m))

/-- VSEL's effect (R425). -/
def issueVsel (vd va vb : VReg) (pk : Pred) (m : VMask) (s : State) : Act :=
  vecAct s [] (fun x => x.writeVecPure vd m (fun l => if (x.pv pk.val).getLsbD l then x.lane va.val l else x.lane vb.val l))

/-- The low 32 bits of VBCAST's source. -/
def bcastWord (x : Ctx) : BcastSrc → Word32
  | .imm v => v
  | .scalar r => (x.sv r.val).truncate 32

/-- The scalar registers of VBCAST's source. -/
def bcastRegs : BcastSrc → List Nat
  | .imm _ => []
  | .scalar r => [r.val]

/-- VBCAST's effect (R426): the element is moved, not computed with, so FTZ leaves it. -/
def issueVbcast (ty : ElemType) (vd : VReg) (src : BcastSrc) (m : VMask) (s : State) : Act :=
  vecAct s (bcastRegs src) (fun x => x.writeVecPure vd m (fun _ => laneFill ty ((bcastWord x src).toNat % 2 ^ ty.bits)))

/-- VIDX's effect (R426). -/
def issueVidx (vd : VReg) (imm : BitVec 32) (m : VMask) (s : State) : Act :=
  vecAct s [] (fun x => x.writeVecPure vd m (fun l => BitVec.ofNat 32 l + imm))

/-- VSHUF's effect (R427). -/
def issueVshuf (vd va vb : VReg) (ps : Pred) (m : VMask) (s : State) : Act :=
  vecAct s [] (fun x => x.writeVecPure vd m (fun l =>
    let j := (x.lane vb.val l).toNat % 64
    if x.laneOn ps.val j then x.lane va.val j else 0))

/-! Reductions and scans (R123, R124, R428). -/

/-- The identity of a reduction, as element bits (R123). -/
def redId (op : RedOp) (ty : ElemType) : Nat :=
  match op with
  | .sum => if ty.isFloat then withSign ty true 0 else 0
  | .max => if ty.isFloat then withSign ty true (infCode ty) else encodeInt ty (intMin ty)
  | .min => if ty.isFloat then infCode ty else encodeInt ty (intMax ty)

/-- op(a, b) of a reduction, rounded with generator l. -/
def Ctx.redOp (y : Ctx) (op : RedOp) (ty : ElemType) (rm : RoundMode) (l a b : Nat) : Nat × Ctx :=
  match op with
  | .sum =>
    if ty.isFloat then y.roundLane ty rm l (sumNum rm [decodeFloat ty a, decodeFloat ty b])
    else (encodeInt ty (decodeInt ty a + decodeInt ty b), y)
  | .max => (pickElem true ty a b, y)
  | .min => (pickElem false ty a b, y)

/-- x'[l] of a reduction: the lane's element where the lane is on, the identity elsewhere. -/
def Ctx.redInput (x : Ctx) (op : RedOp) (ty : ElemType) (va : VReg) (pm : Pred) (l : Nat) : Nat :=
  if x.laneOn pm.val l then x.elem ty (x.lane va.val l) else redId op ty

/-- One level of the tree: pair i is combined with generator i. -/
def redLevel (op : RedOp) (ty : ElemType) (rm : RoundMode) : (i : Nat) → List Nat → Ctx → List Nat × Ctx
  | i, a :: b :: r, y =>
    let (v, z) := y.redOp op ty rm i a b
    let (vs, z) := redLevel op ty rm (i + 1) r z
    (v :: vs, z)
  | _, r, y => (r, y)

/-- All levels of the tree. -/
def redTree (op : RedOp) (ty : ElemType) (rm : RoundMode) : (fuel : Nat) → List Nat → Ctx → Nat × Ctx
  | 0, v, y => (v.headD 0, y)
  | f + 1, v, y =>
    if v.length ≤ 1 then (v.headD 0, y)
    else
      let (w, z) := redLevel op ty rm 0 v y
      redTree op ty rm f w z

/-- The smallest power of two not below n, for n at most 64. -/
def pow2Up (n : Nat) : Nat := ([1, 2, 4, 8, 16, 32, 64].find? (fun p => decide (n ≤ p))).getD 64

/-- VRED's effect on its context (R123, R428). -/
def Ctx.vred (x : Ctx) (op : RedOp) (ty : ElemType) (rm : RoundMode) (vd va : VReg) (m : VMask) : Ctx :=
  let (v, y) := redTree op ty rm 7 ((upFrom 0 (pow2Up x.vcount.val)).map (x.redInput op ty va m.pm)) x
  let y := y.setLane vd.val 0 (laneFill ty v)
  if m.zm then (upFrom 1 (x.vcount.val - 1)).foldl (fun y l => y.setLane vd.val l 0) y else y

/-- VRED's effect (R428). -/
def issueVred (op : RedOp) (ty : ElemType) (rm : RoundMode) (vd va : VReg) (m : VMask) (s : State) : Act :=
  vecAct s [] (fun x => x.vred op ty rm vd va m)

/-- The scan's outputs from lane l on, `prev` being out[l − 1] (R124). -/
def scanFrom (op : RedOp) (ty : ElemType) (rm : RoundMode) : (l : Nat) → (prev : Nat) → List Nat → Ctx → List Nat × Ctx
  | _, _, [], y => ([], y)
  | l, prev, v :: r, y =>
    let (o, z) := y.redOp op ty rm l prev v
    let (os, z) := scanFrom op ty rm (l + 1) o r z
    (o :: os, z)

/-- out[0] := round_to(x'[0]): a floating sum's first lane draws too (R124, R428). -/
def Ctx.scanFirst (y : Ctx) (op : RedOp) (ty : ElemType) (rm : RoundMode) (v : Nat) : Nat × Ctx :=
  if ty.isFloat && decide (op = .sum) then y.roundLane ty rm 0 (decodeFloat ty v, noFlags)
  else if ty.isFloat && (decodeFloat ty v).isNan then (nanCode ty, y)
  else (v, y)

/-- VSCAN's outputs and the context after its draws and flags. -/
def Ctx.scan (x : Ctx) (op : RedOp) (ty : ElemType) (rm : RoundMode) (va : VReg) (pm : Pred) : List Nat × Ctx :=
  match (upFrom 0 x.vcount.val).map (x.redInput op ty va pm) with
  | [] => ([], x)
  | v :: r =>
    let (o, y) := x.scanFirst op ty rm v
    let (os, y) := scanFrom op ty rm 1 o r y
    (o :: os, y)

/-- VSCAN's effect (R428). -/
def issueVscan (op : RedOp) (ty : ElemType) (rm : RoundMode) (vd va : VReg) (m : VMask) (s : State) : Act :=
  vecAct s [] (fun x =>
    let (out, y) := x.scan op ty rm va m.pm
    y.writeVecPure vd m (fun l => laneFill ty (out.getD l 0)))

/-! Conversion, functions, block quantisation (R429 to R432). -/

/-- One lane's conversion (R429): element, flags of FRM, ISTAT.SAT. -/
def Ctx.cvtLane (y : Ctx) (dst src : ElemType) (rm : RoundMode) (l v : Nat) : Nat × Ctx :=
  let (r, z) := y.drawFor rm l
  let num := decodeElem src v
  if dst.isFloat then
    let (e, g) := roundVec z dst rm r num
    (e, z.orFrm g)
  else
    let (e, g, sat) := roundTo dst rm r (!src.isFloat) num
    (e, (z.orFrm g).orIstat (if sat then istatSAT else 0))

/-- VCVT's effect (R429). -/
def issueVcvt (dst src : ElemType) (rm : RoundMode) (vd va : VReg) (m : VMask) (s : State) : Act :=
  vecAct s [] (fun x => x.writeVec vd m (fun y l =>
    let (e, z) := y.cvtLane dst src rm l (x.elem src (x.lane va.val l))
    (laneFill dst e, z)))

/-- VFN's effect (R430). -/
def issueVfn (fn : FnOp) (ty : ElemType) (rm : RoundMode) (vd va : VReg) (m : VMask) (s : State) : Act :=
  vecAct s [] (fun x => x.writeVec vd m (fun y l =>
    let (e, z) := y.roundLane ty rm l (fnNum fn (x.laneNum ty (x.lane va.val l)))
    (laneFill ty e, z)))

/-- emax of VQNT (R431). -/
def qntMax : ElemType → Int
  | .e4m3 => 8
  | .e5m2 => 15
  | _ => 2

/-- The greatest magnitude among the lanes of block b that are on; +0 where none is (R431). -/
def Ctx.blockMax (x : Ctx) (va : VReg) (pm : Pred) (b : Nat) : Num :=
  ((upFrom (32 * b) 32).filter (x.laneOn pm.val)).foldl (fun m l =>
    let a := (x.laneNum .fp32 (x.lane va.val l)).abs
    match cmpNum m a with
    | some .lt => a
    | none => .nan
    | _ => m) (.fin false 0 0)

/-- The scale byte of a block (R431). -/
def scaleOf (ty : ElemType) (m : Num) : Nat :=
  match m with
  | .fin _ k e =>
    if k = 0 then 127 else (min (254 : Int) (max 0 (topExp k e - qntMax ty + 127))).toNat
  | _ => 0xFF

/-- A rounding of VQNT: an element that overflows saturates to the largest finite value, E5M2 included (R431). -/
def roundSat (ty : ElemType) (rm : RoundMode) (r : Nat) (v : Num) : Nat × Flags :=
  let (e, g) := roundFloat ty rm r v
  (if g &&& fOF ≠ 0 then withSign ty v.sign (maxCode ty) else e, g)

/-- One lane of VQNT with scale byte e: a block whose scale is 0xFF is not rounded and draws nothing (DEDUCED, log 30). -/
def Ctx.qntLane (y : Ctx) (ty : ElemType) (rm : RoundMode) (l e : Nat) (v : Num) : Nat × Ctx :=
  if e = 0xFF then (nanCode ty, y)
  else
    let (r, z) := y.drawFor rm l
    let (q, g) := roundSat ty rm r (v.scale (127 - (e : Int)))
    (q, z.orFrm g)

/-- VQNT's effect (R431). -/
def issueVqnt (ty : ElemType) (rm : RoundMode) (vd va vc : VReg) (m : VMask) (s : State) : Act :=
  vecAct s [] (fun x =>
    let scales := (upFrom 0 (ceilDiv x.vcount.val 32)).map (fun b => scaleOf ty (x.blockMax va m.pm b))
    let y := x.writeVec vd m (fun y l =>
      let (e, z) := y.qntLane ty rm l (scales.getD (l / 32) 0) (x.laneNum .fp32 (x.lane va.val l))
      (laneFill ty e, z))
    (upFrom 0 scales.length).foldl (fun y b => y.setLane vc.val b (BitVec.ofNat 32 (scales.getD b 0))) y)

/-- VDQN's effect (R432). -/
def issueVdqn (ty : ElemType) (rm : RoundMode) (vd va vc : VReg) (m : VMask) (s : State) : Act :=
  vecAct s [] (fun x => x.writeVec vd m (fun y l =>
    let e := (x.lane vc.val (l / 32)).toNat % 256
    if e = 0xFF then (laneFill .fp32 (nanCode .fp32), y)
    else
      let (v, z) := y.roundLane .fp32 rm l ((x.laneNum ty (x.lane va.val l)).scale ((e : Int) - 127), noFlags)
      (laneFill .fp32 v, z)))

/-! Loads and stores (R433, R434). -/

/-- Bytes of the extent of VLD and VST. -/
def Ctx.extent (x : Ctx) (ty : ElemType) : Nat := ceilDiv (x.vcount.val * ty.bits) 8

/-- The checks of VLD and VST: the address e of the extent. -/
def vecExtent (s : State) (ty : ElemType) (sp : Space) (base : Reg) : Except Stop Nat := do
  vecCheck s [base.val]
  let e := (s.me.sv base.val).toNat
  localCheck sp e (s.me.extent ty) (elemBytes ty)
  .ok e

/-- A tagged access waits until every line of its extent is ready at one instant; a STALL names the first that is not. -/
def allReady (s : State) (sp : Space) (e n : Nat) (ok : Nat → Bool) : Except Stop Unit :=
  match (linesOf sp e n).find? (fun l => !ok l) with
  | some l => .error (.wait s (lineObj sp (max e (lineAddr l))))
  | none => .ok ()

/-- Element l of a local array at e (R105, R433). -/
def Core.elemAt (x : Core) (sp : Space) (ty : ElemType) (e l : Nat) : Nat :=
  if ty.bits = 4 then bits (x.ld sp (e + l / 2) 1) (4 * (l % 2) + 3) (4 * (l % 2))
  else x.ld sp (e + l * elemBytes ty) (elemBytes ty)

/-- Writes element l of a local array at e; a 4-bit element leaves its neighbour (R434). -/
def Core.setElem (x : Core) (sp : Space) (ty : ElemType) (e l v : Nat) : Core :=
  if ty.bits = 4 then x.st sp (e + l / 2) 1 (setBits (x.ld sp (e + l / 2) 1) (4 * (l % 2) + 3) (4 * (l % 2)) v)
  else x.st sp (e + l * elemBytes ty) (elemBytes ty) v

/-- VLD's effect (R433). -/
def issueVld (ty : ElemType) (sp : Space) (t k : Bool) (vd : VReg) (base : Reg) (m : VMask) (s : State) : Act := do
  let e ← vecExtent s ty sp base
  let n := s.me.extent ty
  if t && !k then noDrain s sp e n
  if t then allReady s sp e n (fun l => s.mayRead s.curCore l s.self)
  noPoison s.home sp e n
  let core := s.home
  let u := s.modMe (fun x => x.writeVecPure vd m (fun l => laneFill ty (core.elemAt sp ty e l)))
  .ok (if t && !k then u.modHome (fun x => (linesOf sp e n).foldl (fun y l => y.markSpent l) x) else u)

/-- Whether a VST writes all 256 bytes of a line: 64 lanes of 32 bits, all on, from the line's first byte (R134, R434). -/
def Ctx.fillsLine (x : Ctx) (ty : ElemType) (pm : Pred) (e : Nat) : Bool :=
  decide (x.extent ty = 256 ∧ e % 256 = 0) && (upFrom 0 x.vcount.val).all (fun l => x.laneOn pm.val l)

/-- VST's effect (R434). -/
def issueVst (ty : ElemType) (sp : Space) (t k : Bool) (vd : VReg) (base : Reg) (pm : Pred) (s : State) : Act := do
  let e ← vecExtent s ty sp base
  let x := s.me
  let n := x.extent ty
  noDrain s sp e n
  if t then allReady s sp e n (fun l => s.mayWrite s.curCore l s.self)
  .ok (s.modHome (fun c =>
    let y := ((upFrom 0 x.vcount.val).filter (x.laneOn pm.val)).foldl (fun y l =>
      y.setElem sp ty e l (x.lane vd.val l).toNat) c
    let y := if t && !k then (linesOf sp e n).foldl (fun y l => y.markFull l) y else y
    if x.fillsLine ty pm e then y.setTag (lineOf sp e) { y.tag (lineOf sp e) with p := false } else y))

/-! Claims (R171, R435). -/

/-- Lanes of a cluster's pool that no claim holds. -/
def State.freeLanes (s : State) (k : Nat) : Nat := 128 - ((s.claims k).map (fun q => q.2.2.1)).foldl (· + ·) 0

/-- VCLAIM (R171). -/
def execVclaim (n : BitVec 7) (s : State) : Out :=
  let c := min n.toNat (s.me.vcount.val + s.freeLanes (clusterOf s.curCore))
  finish s (s.me.pc + 12) (.ok (s.modMe (fun x =>
    let y := x.cutClaim c
    { y with vcount := lanesOf c, vreq := n })))

/-- VREL (R171). -/
def execVrel (s : State) : Out :=
  finish s (s.me.pc + 12) (.ok (s.modMe (fun x => { x with vcount := 0, vreq := 0, vregs := [] })))

/-! The meanings. -/

/-- VADD (R423). -/
def execVadd (ty : ElemType) (rm : RoundMode) (vd va : VReg) (b : VOperand) (m : VMask) (s : State) : Out :=
  finish s (s.me.pc + 12) (issueVadd ty rm vd va b m s)

/-- VSUB (R423). -/
def execVsub (ty : ElemType) (rm : RoundMode) (vd va : VReg) (b : VOperand) (m : VMask) (s : State) : Out :=
  finish s (s.me.pc + 12) (issueVsub ty rm vd va b m s)

/-- VMUL (R423). -/
def execVmul (ty : ElemType) (rm : RoundMode) (vd va : VReg) (b : VOperand) (m : VMask) (s : State) : Out :=
  finish s (s.me.pc + 12) (issueVmul ty rm vd va b m s)

/-- VFMA (R423). -/
def execVfma (ty : ElemType) (rm : RoundMode) (vd va : VReg) (b : VOperand) (vc : VReg) (m : VMask) (s : State) : Out :=
  finish s (s.me.pc + 12) (issueVfma ty rm vd va b vc m s)

/-- VMAX (R423). -/
def execVmax (ty : ElemType) (vd va : VReg) (b : VOperand) (m : VMask) (s : State) : Out :=
  finish s (s.me.pc + 12) (issueVmax ty vd va b m s)

/-- VMIN (R423). -/
def execVmin (ty : ElemType) (vd va : VReg) (b : VOperand) (m : VMask) (s : State) : Out :=
  finish s (s.me.pc + 12) (issueVmin ty vd va b m s)

/-- VABS (R423). -/
def execVabs (ty : ElemType) (vd va : VReg) (m : VMask) (s : State) : Out :=
  finish s (s.me.pc + 12) (issueVabs ty vd va m s)

/-- VAND (R424). -/
def execVand (vd va : VReg) (b : VOperand) (m : VMask) (s : State) : Out :=
  finish s (s.me.pc + 12) (issueVand vd va b m s)

/-- VOR (R424). -/
def execVor (vd va : VReg) (b : VOperand) (m : VMask) (s : State) : Out :=
  finish s (s.me.pc + 12) (issueVor vd va b m s)

/-- VXOR (R424). -/
def execVxor (vd va : VReg) (b : VOperand) (m : VMask) (s : State) : Out :=
  finish s (s.me.pc + 12) (issueVxor vd va b m s)

/-- VSHL (R424). -/
def execVshl (vd va : VReg) (b : VOperand) (m : VMask) (s : State) : Out :=
  finish s (s.me.pc + 12) (issueVshl vd va b m s)

/-- VSHR (R424). -/
def execVshr (arith : Bool) (vd va : VReg) (b : VOperand) (m : VMask) (s : State) : Out :=
  finish s (s.me.pc + 12) (issueVshr arith vd va b m s)

/-- VCMP (R425). -/
def execVcmp (k : Cond) (ty : ElemType) (pd : Pred) (va : VReg) (b : VOperand) (m : VMask) (s : State) : Out :=
  finish s (s.me.pc + 12) (issueVcmp k ty pd va b m s)

/-- VSEL (R425). -/
def execVsel (vd va vb : VReg) (pk : Pred) (m : VMask) (s : State) : Out :=
  finish s (s.me.pc + 12) (issueVsel vd va vb pk m s)

/-- VBCAST (R426). -/
def execVbcast (ty : ElemType) (vd : VReg) (src : BcastSrc) (m : VMask) (s : State) : Out :=
  finish s (s.me.pc + 12) (issueVbcast ty vd src m s)

/-- VIDX (R426). -/
def execVidx (vd : VReg) (imm : BitVec 32) (m : VMask) (s : State) : Out :=
  finish s (s.me.pc + 12) (issueVidx vd imm m s)

/-- VSHUF (R427). -/
def execVshuf (vd va vb : VReg) (ps : Pred) (m : VMask) (s : State) : Out :=
  finish s (s.me.pc + 12) (issueVshuf vd va vb ps m s)

/-- VRED (R428). -/
def execVred (op : RedOp) (ty : ElemType) (rm : RoundMode) (vd va : VReg) (m : VMask) (s : State) : Out :=
  finish s (s.me.pc + 12) (issueVred op ty rm vd va m s)

/-- VSCAN (R428). -/
def execVscan (op : RedOp) (ty : ElemType) (rm : RoundMode) (vd va : VReg) (m : VMask) (s : State) : Out :=
  finish s (s.me.pc + 12) (issueVscan op ty rm vd va m s)

/-- VCVT (R429). -/
def execVcvt (dst src : ElemType) (rm : RoundMode) (vd va : VReg) (m : VMask) (s : State) : Out :=
  finish s (s.me.pc + 12) (issueVcvt dst src rm vd va m s)

/-- VFN (R430). -/
def execVfn (fn : FnOp) (ty : ElemType) (rm : RoundMode) (vd va : VReg) (m : VMask) (s : State) : Out :=
  finish s (s.me.pc + 12) (issueVfn fn ty rm vd va m s)

/-- VQNT (R431). -/
def execVqnt (ty : ElemType) (rm : RoundMode) (vd va vc : VReg) (m : VMask) (s : State) : Out :=
  finish s (s.me.pc + 12) (issueVqnt ty rm vd va vc m s)

/-- VDQN (R432). -/
def execVdqn (ty : ElemType) (rm : RoundMode) (vd va vc : VReg) (m : VMask) (s : State) : Out :=
  finish s (s.me.pc + 12) (issueVdqn ty rm vd va vc m s)

/-- VLD (R433). -/
def execVld (ty : ElemType) (sp : Space) (t k : Bool) (vd : VReg) (base : Reg) (m : VMask) (s : State) : Out :=
  finish s (s.me.pc + 12) (issueVld ty sp t k vd base m s)

/-- VST (R434). -/
def execVst (ty : ElemType) (sp : Space) (t k : Bool) (vd : VReg) (base : Reg) (pm : Pred) (s : State) : Out :=
  finish s (s.me.pc + 12) (issueVst ty sp t k vd base pm s)

end Sys2Proof.Machine
end

