-- ==== Sys2Proof/Machine/Matrix.lean ====
section
/-! DEFINITION. The matrix instructions at issue, their geometry, their layouts in the local store, and the counter wait
that commits a row migration (R190 to R218, R240, R380 to R383, R443). An instruction has an issue function, its effect
without the PC, which a repetition's reissue calls too (R176). -/

namespace Sys2Proof.Machine

open Sys2Proof

/-- Where a command was issued: the address that a fault record names, and the iteration and word of a reissue (R181). -/
structure Origin where
  pc : Word64
  rep : Option (BitVec 16 × BitVec 4)

/-- The origin of an instruction that a context issues itself. -/
def State.here (s : State) : Origin := { pc := s.me.pc, rep := none }

/-! Fields and places (R191, R192, R203). -/

/-- Whether a command is a gang command. -/
def gangOf : Instr → Bool
  | .mlds _ _ _ g _ _ _ _ => g
  | .mswap g _ _ _ => g
  | .mmul x => x.gang
  | .msplit _ => true
  | .mgangWide .. | .mgangDeep .. => true
  | _ => false

/-- PRI of a command; MCORR names none. -/
def priOf : Instr → Nat
  | .mlds _ _ _ _ p _ _ _ => p.val
  | .mswap _ p _ _ => p.val
  | .mmul x => x.pri.val
  | .msplit x => x.pri.val
  | _ => 0

/-- Whether a command is an MGANG. -/
def isMgang : Instr → Bool
  | .mgangWide .. | .mgangDeep .. => true
  | _ => false

/-- The slices that a command occupies while it runs: none for a shadow MLDS, MCORR and MGANG (R196, R203). So a shadow MLDS may
load a plane that a streaming MMUL works from, between two of its vectors; R196 does not say what that command then computes
from: it is what the plane holds (DESIGN CHOICE, log 117). -/
def slicesOf (i : Instr) (own : Nat) : List Nat :=
  match i with
  | .mlds act _ _ gang _ _ _ _ => if !act then [] else if gang then upFrom 0 8 else [own]
  | .mcorr _ | .mgangWide .. | .mgangDeep .. => []
  | i => if gangOf i then upFrom 0 8 else [own]

/-- The array commands of a cluster that have issued and not completed, with their cores. -/
def State.arrayCmds (s : State) (k : Nat) : List (Nat × MxCmd) :=
  (upFrom 0 8).flatMap (fun i => (s.core (coreOfSlice k i)).mx.map (fun m => (coreOfSlice k i, m)))

/-- The geometry for which a command is checked at issue: that of the last MGANG still to take effect, or the array's
(R381). -/
def State.nextGeometry (s : State) (k : Nat) : Bool :=
  let gangs := (s.arrayCmds k).filter (fun q => isMgang q.2.ins && decide (q.2.phase = .queued))
  (gangs.foldl (fun (o : Nat × Bool) q =>
    if o.1 ≤ q.2.arrival then (q.2.arrival, (match q.2.ins with | .mgangDeep .. => true | _ => false)) else o)
    (0, (s.cluster k).deep)).2

/-! Layouts (R195, R198). -/

/-- Bytes of A that a command's vectors take. -/
def actBytes (nvec stride len : Nat) : Nat := (nvec - 1) * stride + len

/-- The checks of an MMUL's vectors and outputs for a geometry (R198, R382). -/
def mmulExtents (x : MmulArgs) (deep : Bool) (va vb : Word64) : Except Stop Unit := do
  localCheck .a va.toNat (actBytes x.nvec.toNat x.stride.toNat (mmulLen x deep)) 8
  localCheck .c vb.toNat (4 * mmulOutputs x deep * x.nvec.toNat) 64

/-- Whether an MMUL's STRIDE holds its vectors in a geometry. -/
def mmulStrideOk (x : MmulArgs) (deep : Bool) : Bool := decide (x.nvec.toNat ≤ 1 ∨ mmulLen x deep ≤ x.stride.toNat)

/-! Issue (R201, R380, R443). -/

/-- Puts a command into the matrix queue, which holds 16; it has then reached the array (R193). -/
def State.enqueueMx (s : State) (o : Origin) (i : Instr) (a b c : Nat) (img : List Byte) (fail : Option (Nat × Word64)) : Act := do
  if 16 ≤ s.home.mx.length then .error (.wait s (some (12, 1)))
  s.countCheck i
  let k := clusterOf s.curCore
  let m : MxCmd :=
    { id := s.home.nextId, ctx := s.curCtx, life := s.me.life, pc := o.pc, seq := s.me.seq, rep := o.rep, ins := i
      va := s.me.sv a, vb := s.me.sv b, vc := s.me.sv c, img := img, bind := s.home.bindGuard (gdOf i)
      colour := s.home.colour, asid := s.asidOf s.curCore, sup := s.me.sup
      arrival := (s.cluster k).nextArrival, since := s.cycle, fail := fail }
  let s := s.modCluster k (fun x => { x with nextArrival := x.nextArrival + 1 })
  .ok ((s.modHome (fun x => { x with mx := x.mx ++ [m], nextId := x.nextId + 1 })).modMe (fun x => x.issued i m.id))

/-- MLDS's effect at issue (R196, R382). -/
def issueMlds (o : Origin) (act : Bool) (grp : GroupSize) (ot : ElemType) (gang : Bool) (pri : Fin 4) (ct : Cnt) (gd : Guard)
    (woff : BitVec 16) (s : State) : Act :=
  s.enqueueMx o (.mlds act grp ot gang pri ct gd woff) 0 0 0 [] none

/-- MSWAP's effect at issue (R197). -/
def issueMswap (o : Origin) (gang : Bool) (pri : Fin 4) (ct : Cnt) (gd : Guard) (s : State) : Act :=
  s.enqueueMx o (.mswap gang pri ct gd) 0 0 0 [] none

/-- MMUL's effect at issue: a STRIDE below L is an encoding fault for the geometry of R381 (R198, R382). -/
def issueMmul (o : Origin) (x : MmulArgs) (s : State) : Act := do
  let deep := s.nextGeometry (clusterOf s.curCore)
  if !mmulStrideOk x deep then .error (.trap causeIllegalEnc s.me.pc)
  needAll s.me [x.a.val, x.b.val]
  mmulExtents x deep (s.me.sv x.a.val) (s.me.sv x.b.val)
  s.enqueueMx o (.mmul x) x.a.val x.b.val 0 [] none

/-! MCORR (R207). -/

/-- The checks of R207 on the descriptor, in order: K, or the trap. -/
def corrChecks (sp : AddrSpace) (ty : ElemType) (img : List Byte) : Except Stop Nat :=
  match sp.valid (corrD img), sp.valid (corrA img) with
  | none, _ => .error (.trap causeLinHandle ((corrD img).zeroExtend 64))
  | _, none => .error (.trap causeLinHandle ((corrA img).zeroExtend 64))
  | some d, some a =>
    let n := sp.node d
    if !sp.isAncestor a d then .error (.trap causeLinKind ((corrA img).zeroExtend 64))
    else if !(n.fmt = .fp32 || n.fmt = .bf16 || n.fmt = .fp16) || n.fmt ≠ ty || decide (n.rows < corrFirst img + corrRows img) ||
        decide (corrRows img < 1 ∨ 4096 < corrRows img)
    then .error (.trap causeLinShape ((corrD img).zeroExtend 64))
    else .ok n.cols

/-- A 32-byte descriptor read untagged from A at issue (R134, R207, R211). -/
def descriptor (s : State) (c : Nat) : Except Stop (List Byte) := do
  localCheck .a c 32 32
  noPoison s.home .a c 32
  .ok (s.home.a.read c 32)

/-- MCORR's effect at issue (R207, R382). STRIDE is checked once K is known (DEDUCED, log 91). -/
def issueMcorr (o : Origin) (x : McorrArgs) (s : State) : Act := do
  needAll s.me [x.a.val, x.b.val, x.c.val]
  let img ← descriptor s (s.me.sv x.c.val).toNat
  let k ← corrChecks (s.space (s.asidOf s.curCore)) x.ty img
  let len := vectorLen x.ty .none k
  if 1 < x.nvec.toNat ∧ x.stride.toNat < len then .error (.trap causeIllegalEnc s.me.pc)
  localCheck .a (s.me.sv x.a.val).toNat (actBytes x.nvec.toNat x.stride.toNat len) 8
  localCheck .c (s.me.sv x.b.val).toNat (4 * corrRows img * x.nvec.toNat) 64
  s.enqueueMx o (.mcorr x) x.a.val x.b.val x.c.val img none

/-! MSPLIT (R209 to R211, R217). -/

/-- What reading a run of flat memory for a core gives. -/
inductive RunRead where
  | ok (bs : List Byte) (bad : Option Nat) (s : State)
  | stall
  | fault (cause addr : Nat)

/-- Reads pieces of HBM one after the other; `bad` is the address of the first poisoned one. PROT outside HBM. -/
def readPieces (c : Nat) (sup : Bool) (k : Kind) : List (Nat × Nat) → State → RunRead
  | [], s => .ok [] none s
  | (va, n) :: r, s =>
    match s.xlate c sup k va with
    | .error e => .fault e va
    | .ok (e, t) =>
      if rangeOf (e.phys va) ≠ .hbm then .fault causeProt va
      else
        match t.readHbm c (e.phys va) n with
        | .ok (bs, p) =>
          (match readPieces c sup k r t with
            | .ok cs bad u => .ok (bs ++ cs) (if p then some va else bad) u
            | x => x)
        | .stall => .stall
        | .fault e => .fault e va

/-- Reads n bytes of flat memory for a core. -/
def State.readRun (s : State) (c : Nat) (sup : Bool) (k : Kind) (va n : Nat) : RunRead :=
  readPieces c sup k (pieces va n (n / 8 + 2)) s

/-- What an MSPLIT binds at issue (R217). -/
inductive MapBind where
  /-- Header, map doublewords and placement list. -/
  | bound (img : List Byte) (s : State)
  /-- A granule of them is locked by a read-mostly write (R232). -/
  | waits
  /-- The status and address with which the command will end, and the header where it has been read. -/
  | fails (f : Nat × Word64) (header : List Byte)

/-- What a bound read comes to. -/
def RunRead.then (r : RunRead) (h : List Byte) (k : List Byte → State → MapBind) : MapBind :=
  match r with
  | .ok bs none s => k bs s
  | .ok _ (some va) _ => .fails (causePoison, w64 va) h
  | .stall => .waits
  | .fault e va => .fails (e, w64 va) h

/-- Reads header, map and placement list for an MSPLIT (R209 to R211, R217). A MAP that is no multiple of 8 gives PROT, as what
breaks R209 does in ROWS, K and HEAT (DESIGN CHOICE, log 129). -/
def State.bindMap (s : State) (c : Nat) (sup : Bool) (heat : Nat) : MapBind :=
  if heat % 64 ≠ 0 then .fails (causeProt, w64 heat) []
  else
    (s.readRun c sup .both heat 64).then [] (fun h s =>
      let rows := leNat (h.take 4)
      let map := leNat ((h.drop 16).take 8)
      if rows < 1 ∨ 4096 < rows ∨ map % 8 ≠ 0 then .fails (causeProt, w64 heat) h
      else
        (s.readRun c sup .read map (mapBytes rows)).then h (fun bits s =>
          let hot := ((upFrom 0 rows).filter (fun r => ((bits.getD (r / 8) 0).toNat).testBit (r % 8))).length
          (s.readRun c sup .read (map + mapBytes rows) hot).then h (fun pl s => .bound (h ++ bits ++ pl) s)))

/-- ROWS of a header for the C extent, whatever it is (R211, R382); 0 where no header has been read. -/
def boundRows (h : List Byte) : Nat := if h.length < 4 then 0 else leNat (h.take 4)

/-- Whether no put-and-get command of a core that could act now has still a request to send to a channel (R141). -/
def State.channelClear (s : State) (c ch : Nat) : Bool :=
  (s.core c).pge.all (fun q =>
    q.prog.over || q.bind = .val false || !s.pgeReady c q || s.heldLocally c q || !(s.pendingChannels c q).contains ch)

/-- Whether a request of a core to the home of a flat address may leave now: earlier ones have, and no read-mostly write
holds the granule (R141, R232). -/
def State.homeClear (s : State) (c : Nat) (sup : Bool) (va : Nat) : Bool :=
  match s.xlate c sup .read va with
  | .error _ => true
  | .ok (e, t) => decide (rangeOf (e.phys va) ≠ .hbm) ||
      (t.channelClear c (channelOf (e.phys va)) && (match t.readHbm c (e.phys va) 8 with | .stall => false | _ => true))

/-- MSPLIT's effect at issue: the descriptor, the header and the map are read, and the C extent is checked against the ROWS
of that header (R211, R217, R382). STRIDE is checked once K is known (DEDUCED, log 91). Its reads wait behind an acquire of the
context (R238), behind the core's earlier requests to the header's home (R141), and for a locked granule (R232). -/
def issueMsplit (o : Origin) (x : MsplitArgs) (s : State) : Act := do
  needAll s.me [x.a.val, x.b.val, x.c.val]
  let d ← descriptor s (s.me.sv x.c.val).toNat
  let len := vectorLen x.ty .none (splitK d)
  if 1 < x.nvec.toNat ∧ x.stride.toNat < len then .error (.trap causeIllegalEnc s.me.pc)
  localCheck .a (s.me.sv x.a.val).toNat (actBytes x.nvec.toNat x.stride.toNat len) 8
  if s.acquiring s.curCore s.curCtx s.home.nextId || !s.homeClear s.curCore s.me.sup (splitHeat d) then .error (.wait s none)
  match s.bindMap s.curCore s.me.sup (splitHeat d) with
  | .waits => .error (.wait s none)
  | .fails f h =>
    localCheck .c (s.me.sv x.b.val).toNat (4 * boundRows h * x.nvec.toNat) 64
    s.enqueueMx o (.msplit x) x.a.val x.b.val x.c.val d (some f)
  | .bound h t =>
    localCheck .c (s.me.sv x.b.val).toNat (4 * boundRows h * x.nvec.toNat) 64
    (t.countIfOld s.home.curAsid.toNat 2 2 s.home.colour).enqueueMx o (.msplit x) x.a.val x.b.val x.c.val (d ++ h) none

/-- MGANG's effect at issue (R193). -/
def issueMgang (o : Origin) (deep : Bool) (ct : Cnt) (gd : Guard) (s : State) : Act :=
  s.enqueueMx o (if deep then .mgangDeep ct gd else .mgangWide ct gd) 0 0 0 [] none

/-! The meanings. -/

/-- MLDS (R196). -/
def execMlds (act : Bool) (grp : GroupSize) (ot : ElemType) (gang : Bool) (pri : Fin 4) (ct : Cnt) (gd : Guard)
    (woff : BitVec 16) (s : State) : Out :=
  finish s (s.me.pc + 16) (issueMlds s.here act grp ot gang pri ct gd woff s)

/-- MSWAP (R197). -/
def execMswap (gang : Bool) (pri : Fin 4) (ct : Cnt) (gd : Guard) (s : State) : Out :=
  finish s (s.me.pc + 16) (issueMswap s.here gang pri ct gd s)

/-- MMUL (R198). -/
def execMmul (x : MmulArgs) (s : State) : Out := finish s (s.me.pc + 16) (issueMmul s.here x s)

/-- MCORR (R207). -/
def execMcorr (x : McorrArgs) (s : State) : Out := finish s (s.me.pc + 16) (issueMcorr s.here x s)

/-- MSPLIT (R211). -/
def execMsplit (x : MsplitArgs) (s : State) : Out := finish s (s.me.pc + 16) (issueMsplit s.here x s)

/-- MGANG.wide (R193). -/
def execMgangWide (ct : Cnt) (gd : Guard) (s : State) : Out := finish s (s.me.pc + 16) (issueMgang s.here false ct gd s)

/-- MGANG.deep (R193). -/
def execMgangDeep (ct : Cnt) (gd : Guard) (s : State) : Out := finish s (s.me.pc + 16) (issueMgang s.here true ct gd s)

/-! Committing a row migration (R216). -/

/-- Commits an armed migration at its header's home: MAP and EPOCH in one write (R216). False: the write waits, for the
core's earlier requests to that home (R141), a granule's lock or a page copy. The write is made with supervisor rights; where its
translation fails by then, or leads outside HBM, the migration is dropped: R216 names no outcome (DESIGN CHOICE, log 118). -/
def State.commit (s : State) (c : Nat) (m : Migration) : Bool × State :=
  let done (t : State) : State := t.modCore c (fun x => { x with armed := none })
  let va := m.table.toNat + 16
  match s.xlate c true .write va with
  | .error _ => (true, done s)
  | .ok (e, t) =>
    if rangeOf (e.phys va) ≠ .hbm then (true, done s)
    else if !t.channelClear c (channelOf (e.phys va)) then (false, s)
    else
      let epoch := t.hbmNum (e.phys va + 8) 4
      let w : Who := { core := c, cmd := 0, sup := true, colour := (t.core c).colour, asid := m.asid }
      let (ok, t) := t.writeHbm w e va (leBytes 8 m.map.toNat ++ leBytes 4 (epoch + 1)) .keep
      (ok, if ok then done t else t)

/-- WAITC.ge (R216, R240, R299, R438). -/
def execWaitcGe (ct : Cnt) (n : BitVec 32) (s : State) : Out :=
  finish s (s.me.pc + 8) (do
    if !reached (s.home.counter ct.val) n then .error (.wait s (some (1, ct.val)))
    deliverOldest s (fun r => r.ctx = s.curCtx && r.ct = ct.val)
    match s.home.armed with
    | some m =>
      if m.ct = ct.val then
        let (ok, t) := s.commit s.curCore m
        if ok then .ok t else .error (.wait t none)
      else .ok s
    | none => .ok s)

end Sys2Proof.Machine
end

