-- ==== Sys2Proof/Machine/Queues.lean ====
section
/-! DEFINITION. Queues, their dispatchers and their packets (R250 to R256). A system-die unit reads and writes with the
supervisor's rights in the address space of its queue. -/

namespace Sys2Proof.Machine

open Sys2Proof

/-! Parts of a queue and of a packet. -/

/-- The colour that work of the system die for a job takes when it begins (R270, R281). -/
def State.sysColour (s : State) (asid : Nat) : Bool :=
  match s.job asid with
  | some j => kilnColour j.last
  | none => false

/-- The packet of a number. -/
def State.packet (s : State) (pid : Nat) : Option Packet := s.sys.packets.find? (fun p => p.id = pid)

/-- Changes a packet. -/
def State.modPacket (s : State) (pid : Nat) (f : Packet → Packet) : State :=
  s.modSys (fun y => { y with packets := y.packets.map (fun p => if p.id = pid then f p else p) })

/-- A word of a packet's slot. -/
def Packet.word (p : Packet) (k : Nat) : Word64 := p.words[k]?.getD 0

/-- KIND, BAR, ACQ and REL of a header (R251). -/
def Packet.kind (p : Packet) : Nat := bits (p.word 0).toNat 7 0
def Packet.bar (p : Packet) : Bool := bitAt (p.word 0).toNat 9
def Packet.acq (p : Packet) : Nat := bits (p.word 0).toNat 12 10
def Packet.rel (p : Packet) : Nat := bits (p.word 0).toNat 15 13

/-- A packet whose work began before the system die's cut for the job's current kiln (R281). -/
def State.oldPacket (s : State) (p : Packet) : Bool := s.isOld p.asid p.colour

/-- Begins a packet's work, in the colour of that moment. -/
def State.begin' (s : State) (p : Packet) : State :=
  s.modPacket p.id (fun q => { q with begun := true, colour := s.sysColour p.asid })

/-- PRI of a queue, read from its CONFIG (R247). -/
def State.queuePri (s : State) (asid header : Nat) : Nat := bits (s.taskWord asid header 1).toNat 10 8

/-! Queue errors (R255). -/

/-- Writes a word of a queue's header; a fault leaves it (DEDUCED, log 27). -/
def State.putHeader (s : State) (asid header off : Nat) (old : Bool) (v : Word64) : State :=
  match s.sysWrite asid true old (header + off) (leBytes 8 v.toNat) with
  | .ok t => t
  | .error _ => s.countRefused asid (header + off) .write

/-- A queue error: ERR, ARMED, the notice, and no further dispatch. -/
def State.queueError (s : State) (asid header index code : Nat) (old : Bool) : State :=
  let err : Word64 := w64 (code + index * 2 ^ 8)
  let s := s.putHeader asid header 0x10 old err
  let s := s.putHeader asid header 0x08 old (w64 (setBits (s.taskWord asid header 1).toNat 16 16 0))
  let s := s.modSys (fun y => { y with queues := y.queues.filter (fun q => !(q.asid = asid && q.header = header)) })
  s.notify 5 [w64 header, err]

/-! The end of a packet (R254). -/

/-- Removes a packet: the packets that it held back go on. -/
def State.dropPacket (s : State) (pid : Nat) : State :=
  s.modSys (fun y => { y with
    packets := y.packets.filter (fun p => p.id ≠ pid)
    queues := y.queues.map (fun q => if q.barrier = some pid then { q with barrier := none } else q) })

/-- A packet completes: its signal falls by 1, by an AADDW. A signal that cannot be written is left (code 10). -/
def State.completePacket (s : State) (p : Packet) : State :=
  let old := s.oldPacket p
  let sig := (p.word 7).toNat
  let s := s.dropPacket p.id
  if sig = 0 then s
  else
    match s.signal p.asid old sig (fun v => v - 1) true with
    | .ok t => t
    | .error _ => (s.countRefused p.asid sig .both).queueError p.asid p.header p.index 10 old

/-- A packet is aborted: −1 swapped into its signal, and ABORT set. -/
def State.abortPacket (s : State) (p : Packet) : State :=
  let old := s.oldPacket p
  let sig := (p.word 7).toNat
  let (bad, s) :=
    if sig = 0 then (false, s)
    else
      match s.signal p.asid old sig (fun _ => BitVec.allOnes 64) false with
      | .ok t => (false, t)
      | .error _ => (true, s.countRefused p.asid sig .both)
  let s := (s.putHeader p.asid p.header 0x18 old (w64 (p.index + 1))).dropPacket p.id
  if bad then s.queueError p.asid p.header p.index 10 old else s

/-- PACKET_COMPLETION: a packet whose work has ended completes, or is aborted. -/
def execPacketCompletion (pid : Nat) (s : State) : Out :=
  match s.packet pid with
  | some p =>
    (match p.ended with
      | some true => .next (s.completePacket p)
      | some false => .next (s.abortPacket p)
      | none => .next s)
  | none => .next s

/-- A packet's work has ended. -/
def State.endPacket (s : State) (pid : Nat) (ok : Bool) : State := s.modPacket pid (fun p => { p with ended := some ok })

/-- A fault in a packet's work: a queue error, and the packet is aborted (R255). -/
def State.faultPacket (s : State) (p : Packet) (code : Nat) : State :=
  (s.queueError p.asid p.header p.index code (s.oldPacket p)).endPacket p.id false

/-! Dispatch (R252, R254, R255). -/

/-- The code of the first kind-specific check that a packet fails, 0 for none. -/
def State.packetCheck (s : State) (p : Packet) : Nat :=
  match p.kind with
  | 1 =>
    let r := (p.word 1).toNat
    if r % 128 ≠ 0 then 4
    else
      match s.sysRead p.asid true r 128 4 with
      | .error _ => 5
      | .ok (bs, poison) =>
        let w2 : Word64 := w64 (leNat ((bs.drop 16).take 8))
        if poison then 5
        else if taskWidth w2 % 8 ≠ 0 ∨ taskWidth w2 < 8 ∨ 224 < taskWidth w2 ∨ taskHeight w2 < 1 ∨ 120 < taskHeight w2 then 6
        else if taskState w2 = tWaiting ∨ taskState w2 = tReady ∨ taskState w2 = tRunning then 7
        else 0
  | 3 | 4 => if (p.word 1).toNat % 8 ≠ 0 ∨ (p.word 2).toNat % 8 ≠ 0 && p.kind = 3 ∨ (p.word 3).toNat % 8 ≠ 0 then 8 else 0
  | _ => 0

/-- Whether a LAUNCH that is dispatched and not yet enqueued names a record, so that a second check of it waits. -/
def State.launching (s : State) (asid rec' : Nat) : Bool :=
  s.sys.packets.any (fun p => p.kind = 1 && !p.begun && p.ended.isNone && p.asid = asid && decide ((p.word 1).toNat = rec'))

/-- A LAUNCH's base priority (R247): the greater of the task's PRI and the queue's, as they read at dispatch. -/
def State.basePriority (s : State) (p : Packet) : Nat :=
  max (taskPri (s.taskWord p.asid (p.word 1).toNat 2)) (s.queuePri p.asid p.header)

/-- Dispatches a packet that has been taken from its slot: codes 2 and 3, the abort of a BAR packet, codes 4 to 8. -/
def State.dispatch (s : State) (q : Queue) (p : Packet) : State :=
  let err (code : Nat) : State := s.queueError q.asid q.header p.index code false
  if p.kind = 0 ∨ 6 < p.kind then err 2
  else if p.acq = 7 ∨ p.rel = 7 then err 3
  else
    match (if p.bar then s.sysWord q.asid true (q.header + 0x18) else .ok 0) with
    | .error _ => err 1
    | .ok ab =>
      let add (p : Packet) : State := s.modSys (fun y => { y with
        packets := y.packets ++ [p], nextId := y.nextId + 1
        queues := if p.kind = 2 then
            y.queues.map (fun x => if x.asid = q.asid ∧ x.header = q.header then { x with barrier := some p.id } else x) else y.queues })
      if ab ≠ 0 then add { p with ended := some false }
      else
        match s.packetCheck p with
        | 0 => add (if p.kind = 1 then { p with base := s.basePriority p } else p)
        | code => (if code = 5 then s.countRefused p.asid (p.word 1).toNat .read else s).queueError q.asid q.header p.index code false

/-- QUEUE_DISPATCH: the dispatcher takes the packet at RIDX, if there is one that may be taken. A header that cannot be
read shows nothing to dispatch (DEDUCED, log 32). A slot is read whole, and its poison met, once its PHASE has matched (R252). -/
def execQueueDispatch (n : Nat) (s : State) : Out :=
  match s.queueNum n with
  | none => .next s
  | some q =>
    match q.barrier, s.sysWord q.asid true q.header, s.sysWord q.asid true (q.header + 0x40) with
    | none, .ok widx, .ok ridx =>
      if widx.toNat ≤ ridx.toNat then .next s
      else
        let i := ridx.toNat
        let slot := slotOf q.header q.n i
        match s.sysRead q.asid true slot 64 3 with
        | .error _ => .next ((s.countRefused q.asid slot .read).queueError q.asid q.header i 1 false)
        | .ok (bs, poison) =>
          let p : Packet := { id := s.sys.nextId, queue := q.num, header := q.header, asid := q.asid, index := i
                              colour := s.sysColour q.asid
                              words := (upFrom 0 8).map (fun k => w64 (leNat ((bs.drop (8 * k)).take 8))) }
          if bitAt (p.word 0).toNat 8 ≠ bitAt i q.n then .next s
          else if poison then .next (s.queueError q.asid q.header i 1 false)
          else if p.bar && s.sys.packets.any (fun x => x.asid = q.asid && x.header = q.header) then .next s
          else if p.kind = 1 && s.launching q.asid (p.word 1).toNat then .next s
          else
            match s.sysWrite q.asid true false (q.header + 0x40) (leBytes 8 (ridx + 1).toNat) with
            | .error _ => .next (s.queueError q.asid q.header i 1 false)
            | .ok t => .next (t.dispatch q p)
    | _, _, _ => .next s

/-! The kinds (R253). -/

/-- Runs a packet of a kind whose work has not ended. -/
def State.withPacket (s : State) (pid kind : Nat) (f : Packet → State) : Out :=
  match s.packet pid with
  | some p => .next (if p.kind = kind ∧ p.ended = none then f p else s)
  | none => .next s

/-- NOP. -/
def execNopPacket (pid : Nat) (s : State) : Out := s.withPacket pid 6 (fun p => (s.begin' p).endPacket pid true)

/-- EVENT. -/
def execEventPacket (pid : Nat) (s : State) : Out :=
  s.withPacket pid 5 (fun p =>
    let v := (p.word 1).toNat
    ((s.begin' p).postEvent (bits v 15 0) (BitVec.ofNat 32 (bits v 63 32))).endPacket pid true)

/-- LAUNCH: SIG of the record, and the task enqueued, READY when DEPS reads zero (R246, R247). -/
def execLaunch (pid : Nat) (s : State) : Out :=
  s.withPacket pid 1 (fun p =>
    if p.begun then s
    else
      let r := (p.word 1).toNat
      let s := s.begin' p
      let s := match s.sysWrite p.asid true false (r + 96) (leBytes 8 (p.word 7).toNat) with
        | .ok t => t
        | .error _ => s.countRefused p.asid (r + 96) .write
      let w2 := s.taskWord p.asid r 2
      let ready : Bool := taskDeps w2 = 0
      let t : TaskEntry := { rec' := r, asid := p.asid, pkt := pid, queue := p.queue, ready := ready, since := s.cycle
                             base := p.base, width := taskWidth w2
                             height := taskHeight w2 }
      (s.setTaskState p.asid r (if ready then tReady else tWaiting) false).modSys (fun y => { y with tasks := y.tasks ++ [t] }))

/-! BARRIER (R254). -/

/-- The named signals of a BARRIER. -/
def Packet.signals (p : Packet) : List Nat := (((upFrom 1 5).map p.word).filter (fun v => v ≠ 0)).map BitVec.toNat

/-- The values of signals, or none when one cannot be read: a signal lies at a multiple of 8 (DEDUCED, log 33). -/
def State.readSignals (s : State) (asid : Nat) : List Nat → Option (List Word64)
  | [] => some []
  | a :: r =>
    match s.sysWord asid true a, s.readSignals asid r with
    | .ok v, some vs => if a % 8 = 0 then some (v :: vs) else none
    | _, _ => none

/-- One round. -/
def State.round (s : State) (p : Packet) : State :=
  let s := s.modPacket p.id (fun q => { q with lastRound := s.host.clock, poke := false })
  match s.readSignals p.asid p.signals with
  | none => (p.signals.foldl (fun s a => s.countRefused p.asid a .read) s).faultPacket p 11
  | some vs =>
    if vs.any (fun v => v.slt 0) then s.endPacket p.id false
    else if vs.all (fun v => v = 0) then s.endPacket p.id true
    else s

/-- BARRIER: the first round. -/
def execBarrier (pid : Nat) (s : State) : Out :=
  s.withPacket pid 2 (fun p => if p.begun then s else (s.modPacket pid (fun q => { q with begun := true })).round p)

/-- BARRIER_ROUND: a later round. One may follow at any time: R254 bounds only how late it may be (DEDUCED, log 34). -/
def execBarrierRound (pid : Nat) (s : State) : Out :=
  s.withPacket pid 2 (fun p => if p.begun then s.round p else s)

/-! COPY (R133, R253). -/

/-- The window that a virtual address lies in, with its offset; `none` for every other address. -/
def State.windowAt (s : State) (asid : Nat) (k : Kind) (va : Nat) : Option (Nat × Nat) :=
  match s.sysXlate asid true k va with
  | .ok e => (match rangeOf (e.phys va) with | .peer w off => some (w, off) | _ => none)
  | .error _ => none

/-- A COPY's request through a window. -/
def Packet.request (p : Packet) (data : List Byte) (isWrite : Bool) : FabPacket :=
  { core := sysParty, cmd := p.id, unit' := p.pos / 8 + p.buf.length / 8, isWrite := isWrite, data := data
    poison := isWrite && p.bufBad, colour := p.colour, asid := p.asid }

/-- Reads on from a COPY's source: up to k bytes within a page, or eight through a window, whose answer may have to be waited
for. A fault leaves its status. -/
def State.copyRead (s : State) (p : Packet) (k : Nat) : State :=
  let src := (p.word 2).toNat + p.pos + p.buf.length
  let take (s : State) (bs : List Byte) (bad : Bool) : State :=
    s.modPacket p.id (fun q => { q with buf := q.buf ++ bs, bufBad := q.bufBad || bad, out := false, answer := none })
  match s.windowAt p.asid .read src, p.answer with
  | some _, some (v, bad) => take s (leBytes 8 v.toNat) bad
  | some (w, off), none =>
    if p.out then s
    else
      match s.through w off (p.request [] false) with
      | .here pa t => take (t.recall pa) (t.hbmSeen pa 8).1 (t.hbmSeen pa 8).2
      | .host a t => (match t.sysHost a 8 with | .ok (bs, bad) => take t bs bad | .error _ => t.faultPacket p 9)
      | .prot t => t.faultPacket p 9
      | .sent t => t.modPacket p.id (fun q => { q with out := true })
      | .closed t => t.faultPacket p 9
      | .dead => s.faultPacket p 9
  | none, _ =>
    match s.sysRead p.asid true src (min k (65536 - src % 65536)) 3 with
    | .error _ => s.faultPacket p 9
    | .ok (bs, bad) => take s bs bad

/-- What eight bytes of a COPY through a window of this module do to the poison of their sector: cleared where the COPY has now
written all of it with clean data (R442). -/
def Packet.pieceAct (p : Packet) (pa : Nat) : PoisonAct :=
  if p.bufBad then .set else if pa % 32 = 24 ∧ 24 ≤ p.pos ∧ p.secBad = false then .clear else .keep

/-- Writes k bytes that a COPY has read. -/
def State.copyPut (s : State) (p : Packet) (k : Nat) : State :=
  let dst := (p.word 1).toNat + p.pos
  let bs := p.buf.take k
  let move (s : State) : State := s.modPacket p.id (fun q => { q with
    pos := q.pos + k, buf := q.buf.drop k, bufBad := q.bufBad && decide (k < q.buf.length) })
  let moveIn (s : State) (pa : Nat) : State :=
    (move s).modPacket p.id (fun q => { q with secBad := (p.secBad || p.bufBad) && decide ((pa + k) % 32 ≠ 0) })
  match s.windowAt p.asid .write dst with
  | some (w, off) =>
    (match s.through w off (p.request bs true) with
      | .here pa t => moveIn (t.physWrite p.asid (s.oldPacket p) pa bs (p.pieceAct pa)) pa
      | .host a t => if p.bufBad then t.faultPacket p 9 else move (t.hostPut a bs)
      | .prot t => t.faultPacket p 9
      | .sent t => move t
      | .closed t => t.faultPacket p 9
      | .dead => s.faultPacket p 9)
  | none =>
    match s.sysPut p.asid true (s.oldPacket p) p.id (if p.bufBad then .set else .keep) dst bs with
    | .error _ => s.faultPacket p 9
    | .ok t => move t

/-- COPY: the engine's next piece: what is missing of a sector of the destination is read, and the sector is written once it is
whole; eight bytes at a time where the destination is a window. A sector that receives poisoned bytes is poisoned (R133). The
packet ends when every write is performed. -/
def execCopy (pid : Nat) (s : State) : Out :=
  s.withPacket pid 3 (fun p =>
    let dst := (p.word 1).toNat + p.pos
    let left := (p.word 3).toNat - p.pos
    let s := if p.begun then s else s.begin' p
    let p := { p with begun := true, colour := if p.begun then p.colour else s.sysColour p.asid }
    if left = 0 then (if s.sysPending pid then s else s.endPacket pid true)
    else
      let k := min (if (s.windowAt p.asid .write dst).isSome then 8 else 32 - dst % 32) left
      let t := if p.buf.length < k then s.copyRead p (k - p.buf.length) else s
      match t.packet pid with
      | some q => if q.ended.isNone && decide (k ≤ q.buf.length) then t.copyPut q k else t
      | none => t)

/-! NMEM (R220 to R227, R253). -/

/-- The granules of an extent of HBM for the system die; none on a fault, an RM page or an address outside HBM (R388). -/
def State.sysGranules (s : State) (asid : Nat) (k : Kind) (va n : Nat) : Option (List Nat) :=
  (upFrom (va / 4096) (ceilDiv (va + n) 4096 - va / 4096)).foldl (fun acc g =>
    match acc, s.sysXlate asid true k (4096 * g) with
    | some l, .ok e => if e.rm || rangeOf (e.phys (4096 * g)) ≠ .hbm then none else some (l ++ [e.phys (4096 * g)])
    | _, _ => none) (some [])

/-- A block's checks and preparation (R222, R223); none on a fault. -/
def State.caskPrepare (s : State) (asid : Nat) (img : List Byte) (n : Nat) : Option CaskRun :=
  match caskBlock img with
  | none => none
  | some b =>
    let len := b.extent n
    if !b.ok || b.dst % 8 ≠ 0 || (b.usesSrc && b.src % 8 ≠ 0) then none
    else if b.lin then
      match (s.space asid).valid b.handle with
      | none => none
      | some i =>
        let nd := (s.space asid).node i
        if 8 * ceilDiv nd.size 8 < b.dst + len || nd.state ≠ .live then none
        else some { img := img, n := n, parts := upFrom (b.dst / 4096) (ceilDiv (b.dst + len) 4096 - b.dst / 4096) }
    else
      match s.sysGranules asid .write b.dst len, (if b.usesSrc then s.sysGranules asid .read b.src len else some []) with
      | some dst, some src => some { img := img, n := n, pas := dst ++ src, parts := upFrom (b.dst / 4096) dst.length }
      | _, _ => none

/-- What a part found, gathered into its run. -/
def CaskRun.gather (r : CaskRun) (o : PartOut) : CaskRun :=
  { r with
    poisoned := r.poisoned + o.count
    first := match r.first, o.first with
      | some a, some b => some (min a b)
      | none, f => f
      | f, none => f }

/-- The system die as the party of an NMEM packet's writes to nodes. -/
def Packet.who (p : Packet) : Who := { core := sysParty, cmd := p.id, sup := true, colour := p.colour, asid := p.asid }

/-- Applies one part of a block (R224 to R226). None: it must wait. -/
def State.caskPart (s : State) (p : Packet) (r : CaskRun) (b : CaskBlock) (part : Nat) : Option (CaskRun × State) :=
  let sz := elemBytes b.ty
  let stop := b.dst + b.extent r.n
  let a := max b.dst (4096 * part)
  if b.lin then
    match (s.space p.asid).valid b.handle with
    | none => some ({ r with status := causeLinHandle }, s)
    | some i =>
      let node := (s.space p.asid).node i
      if node.state ≠ .live then
        some ({ r with status := if r.status = causeLinHandle then causeLinHandle else causeLinSealed }, s)
      else if s.rebasing p.asid i then none
      else
        let e := min (min stop (4096 * part + 4096)) node.size
        if e ≤ a then some (r, s)
        else
          match s.nodePart p.who b r.n part i node.size a e with
          | some t => some (r.gather (b.nodeOut s p.asid r.n part a e i), t)
          | none => some ({ r with heapFull := true }, s)
  else
    let nd := ceilDiv stop 4096 - b.dst / 4096
    let base := 4096 * part
    let pa := r.pas[part - b.dst / 4096]?.getD 0
    let g (i : Nat) : Nat × Bool := s.flatElem (r.pas.drop nd) b.src sz i
    let e := min stop (base + 4096)
    let old := s.oldPacket p
    let t := match (s.newFor p.asid none).isSome, s.sysXlate p.asid true .write base with
      | true, .ok x => if old then s.countOld p.asid else if x.phys base = pa then s.copyPage p.asid x else s
      | _, _ => s
    some (r.gather (b.flatOut s r.n base pa g a e), t.flatVersions s p.who old b r.n base pa g a e)

/-- The completion record of a block (R227). -/
def CaskRun.record (r : CaskRun) : List Byte :=
  leBytes 8 (if r.heapFull then 2 else if r.poisoned ≠ 0 then 1 else 0) ++ leBytes 4 (r.first.getD 0) ++ leBytes 4 r.poisoned

/-- NMEM: the next piece of its work: a block read and prepared, a part, or a block's record. The manual gives no element
count for a block of an NMEM packet, so it is a free value of LEN32's range (DESIGN CHOICE, log 35). -/
def execNmem (pid : Nat) (s : State) : Out :=
  s.withPacket pid 4 (fun p =>
    let s := if p.begun then s else s.begin' p
    let p := { p with colour := if p.begun then p.colour else s.sysColour p.asid }
    match p.cask with
    | none =>
      if (p.word 2).toNat ≤ p.pos then s.endPacket pid true
      else
        let (v, t) := s.free
        let n := max 1 (v.toNat % 2 ^ 32)
        (match t.sysRead p.asid true ((p.word 1).toNat + 32 * p.pos) 32 3 with
          | .ok (img, false) =>
            (match t.caskPrepare p.asid img n with
              | some r => t.modPacket pid (fun q => { q with cask := some r })
              | none => t.faultPacket p 9)
          | _ => (t.countRefused p.asid ((p.word 1).toNat + 32 * p.pos) .read).faultPacket p 9)
    | some r =>
      match r.parts, caskBlock r.img with
      | part :: rest, some b =>
        (match s.caskPart p { r with parts := rest } b part with
          | none => s
          | some (r', t) => t.modPacket pid (fun q => { q with cask := some r' }))
      | _, _ =>
        match s.sysWrite p.asid true (s.oldPacket p) ((p.word 3).toNat + 16 * p.pos) r.record with
        | .error _ => (s.countRefused p.asid ((p.word 3).toNat + 16 * p.pos) .write).faultPacket p 9
        | .ok t =>
          if r.status ≠ 0 ∨ r.heapFull = true then t.faultPacket p 9
          else t.modPacket pid (fun q => { q with pos := q.pos + 1, cask := none }))

/-! Notices (R256). -/

/-- Appends the oldest waiting notice to queue 0 as a LAUNCH packet, when the queue has room; one whose HANDLER entry is 0 is
dropped. A fault leaves it waiting. -/
def State.noticeStep (s : State) : State :=
  match s.sys.notices, s.queueNum 0 with
  | n :: rest, some q =>
    let rd (off : Nat) : Except Nat Word64 := s.sysWord q.asid true (q.header + off)
    (match rd 0, rd 0x40, rd 0x80, rd (0xC0 + 8 * (n.code - 1)) with
      | .ok widx, .ok ridx, .ok base, .ok handler =>
        if handler = 0 then (s.modSys (fun y => { y with notices := rest })).dropNotice
        else if 2 ^ q.n ≤ (widx - ridx).toNat then s
        else
          let i := widx.toNat
          let at' := base.toNat + 64 * (i % 2 ^ q.n)
          let notice := (leBytes 8 n.code ++ n.args.flatMap (fun (v : Word64) => leBytes 8 v.toNat) ++ List.replicate 64 0).take 64
          let slot := slotOf q.header q.n i
          let body := leBytes 8 handler.toNat ++ leBytes 8 at' ++ List.replicate 40 0
          let head := leBytes 8 (1 + b2n (bitAt i q.n) * 2 ^ 8)
          let go : Except Nat State := do
            let t ← s.sysWrite q.asid true false at' notice
            let (_, t) ← t.sysAtomic q.asid true false q.header (fun v => v + 1) true
            let t ← t.sysWrite q.asid true false (slot + 8) body
            t.sysWrite q.asid true false slot head
          (match go with
            | .ok t => t.modSys (fun y => { y with notices := rest })
            | .error _ => s)
      | _, _, _, _ => s)
  | _, _ => s

end Sys2Proof.Machine
end

