-- ==== Sys2Proof/Machine/Tasks.lean ====
section
/-! DEFINITION. The scheduler: placing, waking and starting teams, their ends, taking and resuming them, and the ends of a
team's failure and of a containment (R47, R49, R83, R84, R99, R100, R245 to R249, R294, R304 to R311). -/

namespace Sys2Proof.Machine

open Sys2Proof

/-! Placing (R247). -/

/-- Cycles after which effective priority rises by one, and after which a task holds lower ones back. -/
abbrev agingCycles : Nat := 2 ^ 20
abbrev starveCycles : Nat := 2 ^ 22

/-- Cycles for which a task has been READY. -/
def State.readyFor (s : State) (t : TaskEntry) : Nat := s.cycle - t.since

/-- Effective priority. -/
def State.effective (s : State) (t : TaskEntry) : Nat := min 7 (t.base + s.readyFor t / agingCycles)

/-- Whether two rectangles share no core. -/
def apart (row col w h row' col' w' h' : Nat) : Bool :=
  decide (row + h ≤ row' ∨ row' + h' ≤ row ∨ col + w ≤ col' ∨ col' + w' ≤ col)

/-- Whether a rectangle lies in the mesh at a column that is a multiple of 8, and is free: no team and no containment
fence stands on it. -/
def State.rectFree (s : State) (row col w h : Nat) : Bool :=
  decide (col % 8 = 0 ∧ row + h ≤ Config.meshRows ∧ col + w ≤ Config.meshCols) &&
  s.sys.teams.all (fun t => apart row col w h t.row0 t.col0 t.width t.height) &&
  s.sys.containments.all (fun k => apart row col w h k.row0 k.col0 k.width k.height)

/-- Whether some free rectangle of a shape exists. -/
def State.fits (s : State) (w h : Nat) : Bool :=
  (upFrom 0 (Config.meshRows + 1 - h)).any (fun r => (upFrom 0 28).any (fun k => s.rectFree r (8 * k) w h))

/-- Whether the scheduler may place a READY task now: it fits no task that comes before, and no task of higher effective
priority has waited too long. `n` is its place in the scheduler's list. -/
def State.mayPlace (s : State) (n : Nat) (t : TaskEntry) : Bool :=
  (s.sys.tasks.zipIdx).all (fun (u, k) =>
    let before : Bool := decide (s.effective t < s.effective u) ||
      (decide (s.effective t = s.effective u) && decide (u.since < t.since ∨ (u.since = t.since ∧ k < n)))
    !u.ready || !before ||
      (!s.fits u.width u.height && !(decide (s.effective t < s.effective u) && decide (starveCycles ≤ s.readyFor u))))

/-- TASK_PLACE: the scheduler places task `n` of its list on a free rectangle that it chooses. -/
def execTaskPlace (n row col : Nat) (s : State) : Out :=
  match s.sys.tasks[n]? with
  | none => .next s
  | some t =>
    if t.ready && s.mayPlace n t && s.rectFree row col t.width t.height then
      let id := s.sys.nextId
      let team : Team :=
        match t.was with
        | some w => { w with id := id, row0 := row, col0 := col, phase := .placed, resumes := true, take := false, takeSince := none }
        | none => { id := id, rec' := t.rec', asid := t.asid, pkt := t.pkt, queue := t.queue, base := t.base
                    sup := decide (t.queue = 0), row0 := row, col0 := col, width := t.width, height := t.height }
      .next (s.modSys (fun y => { y with tasks := y.tasks.eraseIdx n, teams := y.teams ++ [team], nextId := id + 1 }))
    else .next s

/-! Wake and start (R248, R294). -/

/-- TEAMORG, TEAMSHAPE and the membership registers (R83, R84). -/
def Team.org (t : Team) : Word64 := w64 (t.col0 + t.row0 * 2 ^ 8)
def Team.shape (t : Team) : Word64 := w64 (t.width + t.height * 2 ^ 8)
def domWord (x0 y0 w h : Nat) : Word64 := w64 (x0 + y0 * 2 ^ 8 + w * 2 ^ 16 + h * 2 ^ 24)
def Team.dom1Of (t : Team) (c : Nat) : Word64 := domWord (8 * ((colOf c - t.col0) / 8)) (rowOf c - t.row0) 8 1
def Team.dom3Of (t : Team) : Word64 := domWord 0 0 t.width t.height

/-- A core as its wake leaves it, but for h0 and local images. Every line counts as written since the last cut, because
the woken core has made none. -/
def Core.woken (x : Core) (t : Team) (c : Nat) (sp : AddrSpace) (last : BitVec 16) : Core :=
  { x with
    ctxs := [], team := some t.id, partEnded := false, exited := false
    teamrank := w64 (t.rankOf c), teamsize := w64 (t.width * t.height), teamorg := t.org, teamshape := t.shape
    dom1 := t.dom1Of c, dom2 := t.dom3Of, dom3 := t.dom3Of
    counters := [], guards := [], pub := 0, inbox := {}, knum := last
    rb := t.rolled.isSome, rbk := match t.rolled with | some r => r.1 | none => 0
    tvec := sp.tvec, ptbase := sp.ptbase, asid := BitVec.ofNat 16 t.asid
    curPtbase := sp.ptbase, curAsid := BitVec.ofNat 16 t.asid
    wtt := [], starts := [], faultq := [], phase := {}, sendq := [], pge := [], mx := [], armed := none
    linebuf := [], dirty := upFrom 0 384, drain := [], drainSince := none }

/-- Writes a local image into a core (R49, R134). -/
def Core.loadImage (x : Core) (im : Image) : Core :=
  let n := im.bytes.length
  let y := x.stBytes im.sp im.addr im.bytes
  if n = 0 then y
  else
    (upFrom (lineOf im.sp im.addr) (lineOf im.sp (im.addr + n - 1) - lineOf im.sp im.addr + 1)).foldl (fun z l =>
      let g := z.tag l
      let g := if im.sp = .a ∨ im.sp = .c then { g with v := true, u := false } else g
      let g := if im.addr ≤ lineAddr l ∧ lineAddr l + 256 ≤ im.addr + n then { g with p := false } else g
      z.setTag l g) y

/-- NX and NY of the four ranges of a task record (R245, R267). -/
def State.rangesOf (s : State) (asid rec' : Nat) : List (Nat × Nat) :=
  (upFrom 0 4).map (fun i =>
    let v := bits (s.taskWord asid rec' (10 + i / 2)).toNat (32 * (i % 2) + 31) (32 * (i % 2))
    (v % 2 ^ 16, v / 2 ^ 16))

/-- The queue's PRI as it stands, for a team that wakes; 0 for a launch without a packet. -/
def State.priNow (s : State) (t : Team) : Nat :=
  match s.packet t.pkt with
  | some p => s.queuePri p.asid p.header
  | none => 0

/-- What a wake reads from the task record and its queue. -/
def State.readRecord (s : State) (t : Team) : Team :=
  let w (k : Nat) : Word64 := s.taskWord t.asid t.rec' k
  let t := { t with base := max (taskPri (w 2)) (s.priNow t) }
  if t.resumes then t
  else { t with save := w 3, bitmap := w 4, ranges := s.rangesOf t.asid t.rec', next := [], trigDone := false, noTake := false }

/-- Argument of h0: the packet's ARG where it is not zero, else the record's (R253). -/
def State.argOf (s : State) (t : Team) : Word64 :=
  match s.packet t.pkt with
  | some p => if p.word 2 ≠ 0 then p.word 2 else s.taskWord t.asid t.rec' 1
  | none => s.taskWord t.asid t.rec' 1

/-- WAKE: every core of the rectangle is reserved and initialised (R248, R294). A team that resumes receives no image, and
its event unit lines and array state come from its save area (R49, R311). An image is known by the ASID and the address of its task's
record (DESIGN CHOICE, log 133). -/
def execWake (id : Nat) (s : State) : Out :=
  match s.team id with
  | none => .next s
  | some t =>
    if t.phase ≠ .placed then .next s
    else
      let sp := s.space t.asid
      let last : BitVec 16 := match s.job t.asid with | some j => j.last | none => 0
      let t' := { s.readRecord t with phase := .waking }
      let pc := s.taskWord t.asid t.rec' 0
      let arg := s.argOf t
      let ims := if t.resumes then [] else s.sys.images.filter (fun im => im.asid = t.asid && im.task = t.rec')
      let s := if t.resumes then s
        else (t.cores.map clusterOf).eraseDups.foldl (fun s k => s.modCluster k (fun _ => {})) s
      .next ((t.cores.foldl (fun s c => s.modCore c (fun x =>
        let x := ims.foldl Core.loadImage (x.woken t c sp last)
        if t.resumes then x else x.modCtx 0 (fun _ => freshCtx {} pc arg t.sup))) s).modTeam id (fun _ => t'))

/-- TEAM_START: every member is initialised; STATE becomes RUNNING, and every h0 may issue. -/
def execTeamStart (id : Nat) (s : State) : Out :=
  match s.team id with
  | some t =>
    if t.phase = .waking ∧ t.resumes = false then
      .next ((s.modTeam id (fun t => { t with phase := .running })).setTaskState t.asid t.rec' tRunning false)
    else .next s
  | none => .next s

/-! The end of a task (R249, R304, R305). -/

/-- A core that a team gives back: nothing of the team runs in it. Its local store keeps its contents. -/
def Core.freed (x : Core) : Core :=
  { x with
    ctxs := [], team := none, partEnded := false, exited := false, wtt := [], starts := [], faultq := [], phase := {}
    sendq := [], pge := [], mx := [], armed := none, linebuf := [], drain := [], drainSince := none }

/-- Frees a team's cores and forgets the team. -/
def State.freeTeam (s : State) (t : Team) : State :=
  (t.cores.foldl (fun s c => s.modCore c Core.freed) s).modSys (fun y => { y with teams := y.teams.filter (fun x => x.id ≠ t.id) })

/-- A member's part ends. -/
def State.partStep (s : State) (c : Nat) : State :=
  if s.partOver c then s.modCore c (fun x => { x with partEnded := true }) else s

/-- The named events EV0 to EV3 of a record. -/
def State.taskEvents (s : State) (t : Team) : List Nat :=
  (upFrom 0 4).map (fun i => bits (s.taskWord t.asid t.rec' 5).toNat (16 * i + 15) (16 * i))

/-- TASK_COMPLETE: every member's part has ended; the five steps of R249. A drain for a kiln ends first, since its lines are
the snapshot's (R279; DEDUCED, log 36). -/
def execTaskComplete (id : Nat) (s : State) : Out :=
  match s.team id with
  | none => .next s
  | some t =>
    if t.phase = .running ∧ t.cores.all (fun c => (s.core c).partEnded && (s.core c).drain.isEmpty) = true then
      let s := (s.taskEvents t).foldl (fun s e => if e = 0 then s else s.postEvent e 1) s
      let s := if t.trigDone then s else s.decDeps t.asid t.rec' false
      let s := s.setTaskState t.asid t.rec' tDone false
      let s := match s.packet t.pkt with | some p => s.completePacket { p with colour := s.sysColour p.asid } | none => s
      .next (s.freeTeam t)
    else .next s

/-- The failure record (R305). -/
def State.failureRecord (s : State) (t : Team) (cause c : Nat) (pc faddr : Word64) : State :=
  let base := s.sys.wttBase.toNat * 2 ^ 14
  if base = 0 then s
  else
    let pa := base + 64 * s.sys.wttNext.toNat
    let bytes := [w64 cause, w64 t.rec', w64 (t.rankOf c), pc, faddr, s.host.time, w64 (s.coreName c), 0].flatMap
      (fun (v : Word64) => leBytes 8 v.toNat)
    let s := if base + 64 * 256 ≤ Config.hbmSize then s.hbmWrite pa bytes .keep else s
    s.modSys (fun y => { y with wttNext := y.wttNext + 1 })

/-- Steps 3 to 5 of R304: the commands that had sent requests have completed, and drains for a kiln have ended (R279). -/
def State.failDoneStep (s : State) (id : Nat) : State :=
  match s.team id with
  | none => s
  | some t =>
    match t.phase with
    | .failing cause c pc faddr =>
      if t.cores.any (fun c => s.busyCore c || !(s.core c).drain.isEmpty) || s.flat.rmWrites.any (fun w => t.cores.contains w.core)
      then s
      else
        let s := (s.freeTeam t).failureRecord t cause c pc faddr
        let s := s.setTaskState t.asid t.rec' tFailed false
        match s.packet t.pkt with
        | some p => s.abortPacket { p with colour := s.sysColour p.asid }
        | none => s
    | _ => s

/-- Steps 3 to 5 of R307 for the first containment whose teams have failed: the cores are reset, the fence is lifted, and
the notice goes to queue 0. Die and rectangle share its first argument, so that five task records fit (DESIGN CHOICE, log 132). A running
kiln of an affected job aborts (R289). -/
def State.containStep (s : State) : State :=
  match s.sys.containments.find? (fun k => k.teams.all (fun t => (s.team t).isNone)) with
  | none => s
  | some k =>
    let inside (c : Nat) : Bool := inRect k.row0 k.col0 k.width k.height c
    let s := k.asids.foldl State.abortKiln s
    let s := { s with
      cores := s.cores.map (fun (e : Nat × Core) => (e.1, if inside e.1 then { nextId := e.2.nextId } else e.2))
      clusters := s.clusters.filter (fun e => !inside (coreOfSlice e.1 0)) }
    let s := s.modSys (fun y => { y with containments := y.containments.erase k })
    match k.rect with
    | some i => s.notify 7 ([w64 (k.die + i * 2 ^ 32), w64 k.recs.length] ++ (k.recs.take 5).map w64)
    | none => s.notify 3 [w64 k.die]

/-! Taking a team (R92, R99, R308, R309). -/

/-- TAKE_REQUEST: a task that cannot be placed has a higher base priority than the team. A task without a save area is
never taken. -/
def execTakeRequest (id : Nat) (s : State) : Out :=
  match s.team id with
  | some t =>
    if t.phase = .running ∧ t.take = false ∧ t.noTake = false ∧ t.save ≠ 0 ∧
        s.sys.tasks.any (fun u => u.ready && decide (t.base < u.base) && !s.fits u.width u.height) = true then
      .next (s.modTeam id (fun t => { t with
        take := true, takeSince := if t.cores.any (fun c => (s.core c).rests) then some s.cycle else none }))
    else .next s
  | none => .next s

/-- A parked context continues past its YIELD as if the team had not been taken. -/
def Ctx.unpark (x : Ctx) : Ctx :=
  match x.parked with
  | some p => { x.passYield p.budget with rep := { x.rep with stopped := false } }
  | none => x

/-- The take is withdrawn. -/
def State.withdrawTake (s : State) (t : Team) (never : Bool) : State :=
  (t.cores.foldl (fun s c => s.modCore c (fun x => { x with ctxs := x.ctxs.map (fun e => (e.1, e.2.unpark)) })) s).modTeam t.id
    (fun t => { t with take := false, takeSince := none, noTake := t.noTake || never })

/-- TAKE_WITHDRAW: 2^20 cycles have passed since the first member came to rest (R99). -/
def execTakeWithdraw (id : Nat) (s : State) : Out :=
  match s.team id with
  | some t =>
    (match t.take, t.takeSince with
      | true, some c => .next (if 2 ^ 20 ≤ s.cycle - c then s.withdrawTake t false else s)
      | _, _ => .next s)
  | none => .next s

/-- The conditions of R99 for a member, with every command completed (R142, R205). -/
def State.memberRests (s : State) (c : Nat) : Bool :=
  let x := s.core c
  x.ctxs.all (fun e => e.2.rests) && x.sendq.isEmpty && !s.busyCore c

/-- Writes a sparse content over n bytes of an address space for the system die: every byte it does not list is zero. -/
def State.sysStore (s : State) (asid va n : Nat) (m : Mem) : Except Nat State := do
  let runs ← s.sysRuns asid true .write va n (n / 65536 + 3)
  runs.foldlM (fun s (r : TlbEntry × Nat × Nat) =>
    let (e, a, k) := r
    let pa := e.phys a
    if rangeOf pa = .hbm ∧ rangeOf (pa + k - 1) = .hbm then
      let s := (if (s.newFor asid none).isSome then s.copyPage asid e else s).settle pa k
      .ok (s.modFlat (fun f => { f with
        hbm := (f.hbm.clear pa k).over 0 (AMap.slice m (a - va) k pa), poison := unpoisonOver f.poison pa k
        lost := setPoison f.lost (replicas (sectorsWhole pa k) [0, 1, 2, 3]) false }))
    else .error causeProt) s

/-- Reads n bytes of an address space as a sparse content, in a state in which the read-mostly writes to them are
performed. What lies in a poisoned sector is used as it stands: a resumption sets no P bit for it and meets no fault, which R308
and R311 leave open (DESIGN CHOICE, log 137). -/
def State.sysImage (s : State) (asid va n : Nat) : Except Nat Mem := do
  let runs ← s.sysRuns asid true .read va n (n / 65536 + 3)
  runs.foldlM (fun m (r : TlbEntry × Nat × Nat) =>
    let (e, a, k) := r
    let pa := e.phys a
    if rangeOf pa = .hbm ∧ rangeOf (pa + k - 1) = .hbm then .ok (m ++ AMap.slice (s.settle pa k).flat.hbm pa k (a - va))
    else .error causeProt) []

/-- Bytes of a member block. -/
abbrev blockBytes : Nat := 0x40000

/-- The header of a save area (R310). -/
def State.saveHeader (s : State) (t : Team) : Mem :=
  place [] ([(0, 8, 1), (8, 8, t.shape.toNat), (0x10, 8, t.asid), (0x38, 8, s.host.time.toNat)] ++
    (upFrom 0 4).map (fun r => (0x18 + 8 * r, 8, t.next.get 0 r)))

/-- Writes the blocks of a team's members, then the header. -/
def State.writeSave (s : State) (t : Team) : Except Nat State := do
  let base := t.save.toNat
  let s' ← t.cores.foldlM (fun (u : State) c =>
    let x := u.core c
    let m := x.stores ++ x.image (u.cluster (clusterOf c)) (sliceOf c) true []
    u.sysStore t.asid (base + 0x1000 + t.rankOf c * blockBytes) blockBytes m) s
  s'.sysStore t.asid base 0x1000 (s'.saveHeader t)

/-- The team as its entry keeps it while it is taken: its members' arrivals, whose sends have all been delivered. -/
def State.takenTeam (s : State) (t : Team) : Team :=
  { t with arrivals := t.cores.foldl (fun m c =>
      m.set [] (t.rankOf c) ((s.core c).phase.arrivals.map (fun a => { a with before := 0 }))) [] }

/-- TEAM_SAVE: R99's conditions hold and every command has completed. A team is not taken while a kiln of its job runs, so
that each of its cores cuts as a resident one (DEDUCED, log 36). -/
def execTeamSave (id : Nat) (s : State) : Out :=
  match s.team id with
  | none => .next s
  | some t =>
    if t.phase = .running ∧ t.take = true ∧ t.cores.all s.memberRests = true ∧
        (s.job t.asid).bind Job.running = none ∧ t.cores.any (fun c => (s.core c).ctxs.any (fun e => e.2.live)) = true then
      match s.writeSave t with
      | .error _ => .next (s.withdrawTake t true)
      | .ok u =>
        let e : TaskEntry := { rec' := t.rec', asid := t.asid, pkt := t.pkt, queue := t.queue, ready := true
                               since := s.cycle, base := t.base, width := t.width, height := t.height, was := some (s.takenTeam t) }
        .next (((u.setTaskState t.asid t.rec' tReady false).freeTeam t).modSys (fun y => { y with tasks := y.tasks ++ [e] }))
    else .next s

/-! Resuming (R100, R311). -/

/-- A redirected member: h0 at RBPC, and no helper (R288 step 8). -/
def Core.redirectTo (x : Core) (pc : Word64) : Core :=
  { x with ctxs := x.ctxs.map (fun e => (e.1,
      if e.1 = 0 then { e.2 with pc := pc, held := .none }
      else { e.2 with live := false, held := .none, vcount := 0, vreq := 0, vregs := [], reserved := [] })) }

/-- A member that resumes after a rollback has redirected its taken team. -/
def Core.rolledTo (x : Core) (t : Team) : Core :=
  match t.rolled with
  | some (_, some pc) => if x.exited then x else x.redirectTo pc
  | _ => x

/-- A context of a resumed team: its mode is that of its task (R294), and a sleeping one executes its SLEEPT again, in a wait
that began at the resumption. -/
def Ctx.resumedAt (x : Ctx) (cycle : Nat) (sup : Bool) : Ctx :=
  { x with waitSince := x.waitSince.map (fun _ => cycle), sup := sup }

/-- TEAM_RESUME: the blocks are read into the cores of the new rectangle, and VALID is cleared. Exit values of helpers that
were not live are free values (R100). A block that cannot be read leaves the team waiting (DEDUCED, log 37). -/
def execTeamResume (id : Nat) (s : State) : Out :=
  match s.team id with
  | none => .next s
  | some t =>
    if t.phase = .waking ∧ t.resumes = true then
      let base := t.save.toNat
      let go : Except Nat State := do
        let s' ← t.cores.foldlM (fun (u : State) c => do
          let m ← u.sysImage t.asid (base + 0x1000 + t.rankOf c * blockBytes) blockBytes
          let u := u.modCluster (clusterOf c) (fun k => k.fromImage m (sliceOf c))
          let u := u.modCore c (fun x =>
            let y := x.fromImage m (t.arrivals.get [] (t.rankOf c))
            ({ y with ctxs := y.ctxs.map (fun e => (e.1, e.2.resumedAt s.cycle t.sup)) } : Core).rolledTo t)
          .ok ((upFrom 1 10).foldl (fun u h =>
            if ((u.core c).ctx h).live then u
            else
              let (v, u) := u.free
              u.modCtx c h (fun x => { x with exitVal := v })) u)) s
        let m ← s'.sysImage t.asid base 0x1000
        let s' := s'.modTeam id (fun t => { t with
          resumes := false, rolled := none, next := sparse 0 (upFrom 0 4) (fun r => m.num (0x18 + 8 * r) 8) })
        s'.sysWrite t.asid true false base (leBytes 8 0)
      match go with
      | .ok u => .next u
      | .error _ => .next s
    else .next s

end Sys2Proof.Machine
end

