-- ==== Sys2Proof/Machine/Kiln.lean ====
section
/-! DEFINITION. Kilns: registering a job, starting a kiln, markers, drains, page copies and completion, and KILN, KILNST and
KILNREL (R269 to R286, R373, R374). -/

namespace Sys2Proof.Machine

open Sys2Proof

/-! Jobs (R269). -/

/-- What a job descriptor holds: MBASE, MSIZE, ASID, LAST and the redirect table. -/
structure JobDesc where
  mbase : Nat
  msize : Nat
  asid : BitVec 16
  last : BitVec 16
  redirect : List (Nat × Word64)

/-- Reads a job descriptor; none when it cannot be read. -/
def State.readDesc (s : State) (asid desc : Nat) : Option JobDesc :=
  match s.sysRead asid true desc 256 4 with
  | .ok (bs, false) =>
    let m : Mem := Mem.write [] 0 bs
    some { mbase := m.num 0 8, msize := m.num 8 8, asid := BitVec.ofNat 16 (m.num 0x10 2), last := BitVec.ofNat 16 (m.num 0x18 2)
           redirect := ((upFrom 0 12).map (fun i => (m.num (0x40 + 16 * i) 8, m.word (0x48 + 16 * i)))).filter (fun e => e.1 ≠ 0) }
  | _ => none

/-- Whether a descriptor keeps R269; its must-be-zero bits are not looked at (R6; DEDUCED, log 39). -/
def JobDesc.ok (d : JobDesc) (asid : Nat) : Bool :=
  decide (d.mbase % 0x10000 = 0 ∧ d.msize % 0x10000 = 0 ∧ 0x100000 ≤ d.msize ∧ d.asid.toNat = asid)

/-- The supervisor registers a job; one that is registered already, or whose descriptor cannot be read, changes nothing. -/
def State.registerJob (s : State) (asid desc : Nat) (remotes : List Nat) : State :=
  match s.job asid, s.readDesc asid desc with
  | none, some d =>
    s.modSys (fun y => { y with jobs := y.jobs ++ [{ asid := asid, desc := desc, mbase := d.mbase, msize := d.msize
                                                     last := d.last, redirect := d.redirect, remotes := remotes }] })
  | _, _ => s

/-! Starting a kiln (R272, R281, R286). -/

/-- Units that refusal 4 asks for: the HEAD record and one core image (R446). -/
abbrev kilnRoom : Nat := 2554

/-- Whether a team is on its way to its cores. -/
def Team.arriving (t : Team) : Bool := decide (t.phase = .waking)

/-- A placed team that no wake has reached yet, as the scheduler's entry that it still is. -/
def Team.entry (t : Team) (cycle : Nat) : TaskEntry :=
  { rec' := t.rec', asid := t.asid, pkt := t.pkt, queue := t.queue, ready := true, since := cycle, base := t.base
    width := t.width, height := t.height, was := if t.resumes then some t else none }

/-- Whether a packet's work has begun and goes on in the colour that it has (R281): a COPY or an NMEM, and a completion that
is due. -/
def Packet.underWay (p : Packet) : Bool := p.ended.isSome || (p.begun && (p.kind = 3 || p.kind = 4))

/-- The system die cuts, and the kiln stands in the job: HEAD and SCHED are written. -/
def State.startKiln (s : State) (asid : Nat) (num : BitVec 16) (base : Bool) : State :=
  match s.job asid with
  | none => s
  | some j =>
    let col := kilnColour num
    let mine (p : Packet) : Bool := p.asid = asid && !p.underWay
    let s := s.modSys (fun y => { y with
      packets := y.packets.map (fun p => if mine p then { p with colour := col } else p) })
    let teams := s.sys.teams.filter (fun t => t.asid = asid)
    let run := teams.filter (fun t => decide (t.phase = .running))
    let failing := teams.filter (fun t => match t.phase with | .failing .. => true | _ => false)
    let tasks := s.sys.tasks.filter (fun t => t.asid = asid) ++
      (teams.filter (fun t => decide (t.phase = .placed))).map (fun t => t.entry s.cycle)
    let recs := tasks.map (·.rec') ++ (run ++ failing).map (·.rec')
    let k : Kiln := { num := num, base := base, state := .running, sched := recs, tasks := tasks
                      packets := s.sys.packets.filter mine, queues := s.sys.queues.filter (fun q => q.asid = asid)
                      teams := run, failed := failing, remotesLeft := j.remotes, startUnit := j.nextUnit }
    let s := s.modJob asid (fun j => { j with
      last := num, kilns := (j.kilns.filter (fun x => decide (x.state ≠ .aborted))) ++ [k] })
    let newest := if base then num.toNat
      else (((j.kilns.filter (fun x => x.base && decide (x.state = .complete))).getLast?).map (fun x => x.num.toNat)).getD 0
    let s := s.addRecord asid num 1 [j.desc, s.host.time.toNat, newest] [] 0
    let data := place [] ((recs.zipIdx).map (fun e => (8 * e.2, 8, e.1)))
    s.addRecord asid num 8 [] data (ceilDiv (8 * recs.length) 64)

/-- KILN's answer: a refusal code, or the new kiln's number and the state after its start (R272). The first kiln of a job,
and any that finds no complete base kiln to build on, is a base kiln (DEDUCED, log 40). -/
def State.beginKiln (s : State) (asid : Nat) (full : Bool) : Except Nat (BitVec 16 × State) := do
  let some j := s.job asid | .error 1
  if j.running.isSome then .error 2
  if Config.kilnMaxLive ≤ (j.kilns.filter (fun k => k.unreleased)).length then .error 3
  let some d := s.readDesc asid j.desc | .error 5
  if !d.ok asid then .error 5
  let s := s.modJob asid (fun j => { j with mbase := d.mbase, msize := d.msize, last := d.last, redirect := d.redirect })
  let s := s.trimJob asid
  let some j := s.job asid | .error 1
  if j.freeUnits < kilnRoom then .error 4
  let num := nextKiln j.last
  match s.sysWrite asid true false (j.desc + 0x18) (leBytes 8 num.toNat) with
  | .error _ => .error 5
  | .ok s =>
    let base := full || !(j.kilns.any (fun x => x.base && decide (x.state = .complete)))
    .ok (num, (s.tellModules asid (.kilnStart asid num.toNat base)).startKiln asid num base)

/-! KILN and its answer. -/

/-- KILN: asks once, and ends with the answer in d (R272, R374). -/
def execKiln (full : Bool) (d : Reg) (ct : Cnt) (s : State) : Out :=
  finish s (s.me.pc + 8) (
    let obj := some (1, 0)
    match s.me.held with
    | .kilnDone v => .ok (s.give d v)
    | .kilnAsked => .error (.wait s obj)
    | _ =>
      .error (.wait ((s.modSys (fun y => { y with
        kilnReqs := y.kilnReqs ++ [{ core := s.curCore, ctx := s.curCtx, full := full, d := d.val, ct := ct.val }] })).modMe
          (fun x => { x with held := .kilnAsked })) obj))

/-- KILN_ANSWER: the controller answers a request once every earlier one of the job has been answered and no team of the job
is on its way to its cores. The issuing core cuts, its CORE record shows KILN complete with d = K, and c[CT] is bumped
when the record is written; a record that cannot be written aborts the kiln, and bumps nothing (R272, R275, R289). -/
def execKilnAnswer (c h : Nat) (s : State) : Out :=
  match s.sys.kilnReqs.find? (fun q => q.core = c && q.ctx = h && q.answers) with
  | none => .next s
  | some q =>
    let asid := s.asidOf c
    let earlier := (s.sys.kilnReqs.takeWhile (fun x => !(x.core = c && x.ctx = h))).any (fun x => s.asidOf x.core = asid)
    if earlier || s.sys.teams.any (fun t => t.asid = asid && t.arriving) then .next s
    else
      let s := s.modSys (fun y => { y with kilnReqs := y.kilnReqs.filter (fun x => !(x.core = c && x.ctx = h)) })
      match s.beginKiln asid q.full with
      | .error r => .next (s.modCtx c h (fun x => { x with held := .kilnDone (w64 (0xFFFFFFFF00000000 + r)) }))
      | .ok (num, t) =>
        let live := ((t.core c).ctx h)
        let v := num.zeroExtend 64
        let t := t.modCtx c h (fun x => (x.setS q.d v false).complete (x.pc + 8))
        let t := match (t.job asid).bind Job.running with | some k => t.cut asid c k | none => t
        let t := t.modCtx c h (fun _ => { live with held := .kilnDone v })
        .next (if ((t.job asid).bind Job.running).isSome then t.bumpCounter c q.ct (kilnColour num) else t)

/-- The turn of KILNST, KILNREL or KILNRB: the state in which the controller serves it, once no request of its job stands before
its own; until then it stands in line (R373). -/
def kilnTurn (s : State) : Except Stop State :=
  let mine (q : KilnReq) : Bool := q.core = s.curCore && q.ctx = s.curCtx
  if (s.sys.kilnReqs.takeWhile (fun q => !mine q)).any (fun q => s.asidOf q.core = s.asidOf s.curCore) then
    .error (.wait (if s.sys.kilnReqs.any mine then s else
      (s.modSys (fun y => { y with
        kilnReqs := y.kilnReqs ++ [{ core := s.curCore, ctx := s.curCtx, answers := false, full := false, d := 0, ct := 0 }] })).modMe
          (fun x => { x with held := .kilnTurn })) (some (1, 0)))
  else .ok (s.modSys (fun y => { y with kilnReqs := y.kilnReqs.filter (fun q => !mine q) }))

/-- Codes of KILNST (R273). -/
def KilnState.code : KilnState → Nat
  | .running => 1
  | .complete => 2
  | .aborted => 3

/-- The state of kiln number k of a job; 0 NONE (R271, R273). -/
def State.kilnState (s : State) (asid : Nat) (k : Word64) : Nat :=
  if 0xFFFF < k.toNat then 0
  else
    match s.job asid with
    | none => 0
    | some j =>
      match j.kilns.find? (fun x => decide (x.num.toNat = k.toNat) && (x.unreleased || decide (x.state = .aborted))) with
      | some x => x.state.code
      | none => 0

/-- KILNST (R273). -/
def execKilnst (d a : Reg) (s : State) : Out :=
  finish s (s.me.pc + 8) (do
    need s.me a.val
    let s ← kilnTurn s
    let k := s.me.sv a.val
    .ok (s.give d (w64 (s.kilnState (s.asidOf s.curCore) k + k.toNat % 2 ^ 16 * 2 ^ 16))))

/-- Status of KILNREL and KILNRB for a state (R274, R287). -/
def kilnStatus (st : Nat) : Nat := if st = 2 then 0 else if st = 1 then 1 else if st = 0 then 2 else 3

/-- Kilns of a list up to and with number k. -/
def upTo (k : Nat) : List Kiln → List Kiln
  | [] => []
  | x :: r => if x.num.toNat = k ∧ x.unreleased = true then [x] else x :: upTo k r

/-- Releases kiln k of a job and every older unreleased one, in this module (R274). -/
def State.releaseKiln (s : State) (asid k : Nat) : State :=
  match s.job asid with
  | none => s
  | some j =>
    let old := (upTo k j.kilns).filter (fun x => x.unreleased)
    let s := old.foldl (fun s x => s.modSpace asid (fun sp => releaseFrozen sp x)) s
    (s.modJob asid (fun j => { j with kilns := j.kilns.map (fun x =>
      if old.any (fun y => y.num = x.num) && x.unreleased then
        { x with unreleased := false, frozen := [], sealed := [], killed := [], pages := [], newNodes := [] } else x) })).trimJob asid

/-- KILNREL (R274): the job's other modules are told, and nothing waits for them (DEDUCED, log 131). -/
def execKilnrel (d a : Reg) (ct : Cnt) (s : State) : Out :=
  finish s (s.me.pc + 8) (do
    need s.me a.val
    let s ← kilnTurn s
    let asid := s.asidOf s.curCore
    let k := s.me.sv a.val
    let st := kilnStatus (s.kilnState asid k)
    let released (_ : Unit) : State := (s.tellModules asid (.kilnRelease asid k.toNat)).releaseKiln asid k.toNat
    let t := if st = 0 then (released ()).bumpCounter s.curCore ct.val s.home.colour else s
    .ok (t.give d (w64 st)))

/-! Markers, drains, page copies, completion (R275 to R283). -/

/-- Each fabric port that is up passes a marker on, once (R277; DESIGN CHOICE, log 115: when the first entry router forwards it). -/
def State.portMarkers (s : State) (asid k : Nat) : State :=
  (upFrom 0 16).foldl (fun s p =>
    if (s.fab.port p).up && decide ((s.fab.port p).marked ≠ some (asid, k)) then
      s.modFab (fun f => { f.modPort p (fun q => { q with marked := some (asid, k) }) with out := f.out ++ [(p, .marker asid k)] })
    else s) s

/-- MARKER: a marker of kiln k that is on its way to a router arrives. The router forwards the first one on every link, those of the
system die's entry routers lead on to the fabric ports (R12), the core
cuts when its job runs that kiln, and later ones and those of other jobs are dropped (R275, R277). -/
def execMarker (c k : Nat) (s : State) : Out :=
  match s.sys.markers.find? (fun m => m.router = c && m.k = k) with
  | none => .next s
  | some m =>
    let s := s.modSys (fun y => { y with markers := y.markers.erase m })
    if s.sys.forwarded.find (c * 2 ^ 16 + m.asid) = some k then .next s
    else
      let s := s.modSys (fun y => { y with forwarded := y.forwarded.put (c * 2 ^ 16 + m.asid) k })
      let s := s.sendMarkers c m.asid k
      let s := if entryCores.contains c then s.portMarkers m.asid k else s
      match s.teamOf c, (s.job m.asid).bind Job.running with
      | some t, some x => .next (if t.asid = m.asid ∧ x.num.toNat = k then s.cutOnce t c x else s)
      | _, _ => .next s

/-- LINE_DRAIN: the engine of a core drains its lowest pending line that no old command has still to read (R276, R279). -/
def execLineDrain (c : Nat) (s : State) : Out :=
  let x := s.core c
  let held := s.oldReads c x.knum
  match x.drain.find? (fun l => !held.contains l) with
  | some l => .next (s.drainLine c l)
  | none => .next s

/-- KILN_DRAIN_TIMEOUT: a drain has lasted YSTALL of the core's h0 and has not ended (R279, R289). -/
def execKilnDrainTimeout (c : Nat) (s : State) : Out :=
  let x := s.core c
  match x.drainSince with
  | some t =>
    if x.drain ≠ [] ∧ (x.ctx 0).ystall.toNat ≤ s.cycle - t then .next (s.abortKiln (s.asidOf c)) else .next s
  | none => .next s

/-- KILN_PAGE_COPY: the controller copies the page of a waiting write and stamps its leaf (R283). -/
def execKilnPageCopy (asid va : Nat) (s : State) : Out :=
  if s.sys.pageReqs.any (fun q => q.asid = asid && q.va = va) then
    let t := s.modSys (fun y => { y with pageReqs := y.pageReqs.filter (fun q => !(q.asid = asid && q.va = va)) })
    match walk s asid (s.space asid).ptbase.toNat va with
    | .ok e => .next (t.copyPage asid e)
    | .error _ => .next t
  else .next s

/-- Whether a core's part of a running kiln is whole: it has cut or ended, its drains are done, and no old command of it is
under way (R275, R280). -/
def State.coreWhole (s : State) (k : Kiln) (c : Nat) : Bool :=
  let x := s.core c
  let col := kilnColour k.num
  (s.partOver c || decide (x.knum = k.num)) && x.drain.isEmpty &&
    x.pge.all (fun p => p.colour = col) && x.mx.all (fun m => m.colour = col) &&
    s.sys.lin.all (fun l => l.core ≠ c || l.colour = col)

/-- Whether every core of a job in this module has cut for its running kiln, every drain has ended, and no old command or old
packet of the system die is under way (R280). -/
def State.moduleWhole (s : State) (asid : Nat) (k : Kiln) : Bool :=
  (s.sys.teams.filter (fun t => t.asid = asid)).all (fun t =>
    match t.phase with
    | .running => t.cores.all (s.coreWhole k)
    | .failing .. => t.cores.all (fun c => !s.busyCore c && (s.core c).drain.isEmpty)
    | _ => true) &&
  s.sys.packets.all (fun p => p.asid ≠ asid || p.colour = kilnColour k.num)

/-- Old packets sent, and received, by all modules of the job as far as they have been reported (R280). -/
def Kiln.totalSent (k : Kiln) : Nat := k.remote.foldl (fun n r => n + r.2.1) k.oldSent
def Kiln.totalReceived (k : Kiln) : Nat := k.remote.foldl (fun n r => n + r.2.2) k.received

/-- Every core of the job that has not cut when kiln k completes cuts then (R277): only cores whose part is over or whose team
fails are left, and they have nothing to record. -/
def State.cutRest (s : State) (asid : Nat) (k : Kiln) : State :=
  (s.jobCores asid).foldl (fun s c =>
    if (s.core c).knum = k.num then s
    else (s.recolourCore c (kilnColour k.num)).modCore c (fun x => { x with knum := k.num })) s

/-- KILN_COMPLETE: at one instant every core of the job has cut, every drain has ended, and the old packets sent are those
received (R280). END is written, and the notice goes to queue 0. A module whose own part is whole tells the others its
counts (DEDUCED, log 113). -/
def execKilnComplete (asid : Nat) (s : State) : Out :=
  match (s.job asid), (s.job asid).bind Job.running with
  | some j, some k =>
    if !s.moduleWhole asid k then .next s
    else if j.remotes ≠ [] ∧ k.reported ≠ some (k.oldSent, k.received) then
      .next ((s.modKiln asid k.num (fun x => { x with reported := some (k.oldSent, k.received) })).tellModules asid
        (.kilnCounts asid k.oldSent k.received))
    else if k.remotesLeft.isEmpty && decide (k.totalSent = k.totalReceived) then
      let s := s.addRecord asid k.num 9 [k.records + 1, k.totalSent] [] 0
      if ((s.job asid).bind Job.running).isSome then
        .next ((((s.modKiln asid k.num (fun x => { x with state := .complete })).cutRest asid k).trimJob asid).notify 6
          [w64 j.desc, k.num.zeroExtend 64])
      else .next s
    else .next s
  | _, _ => .next s

/-- A module of a job reports that its part of the running kiln is whole, and its counts (R280). -/
def State.remoteCounts (s : State) (asid node sent received : Nat) : State :=
  match (s.job asid).bind Job.running with
  | some k => s.modKiln asid k.num (fun x => { x with
      remotesLeft := x.remotesLeft.filter (fun n => n ≠ node)
      remote := x.remote.filter (fun r => r.1 ≠ node) ++ [(node, sent, received)] })
  | none => s

/-- The controller reads its own descriptor of a job again, as another module's kiln k starts, and writes LAST there. A descriptor that
cannot be read, or breaks R269, leaves what was read before: the kiln has started (DEDUCED, log 130). -/
def State.rereadJob (s : State) (asid desc : Nat) (k : BitVec 16) : State :=
  match s.readDesc asid desc with
  | none => s
  | some d =>
    if d.ok asid then
      let t := s.modJob asid (fun j => { j with mbase := d.mbase, msize := d.msize, redirect := d.redirect })
      match t.sysWrite asid true false (desc + 0x18) (leBytes 8 k.toNat) with
      | .ok u => u
      | .error _ => t
    else s

/-- REMOTE_KILN_START: the controller's message that kiln k of a job has started on another module. This module's homes,
engines and ports take the new kiln, and its cores cut by markers and packets (R269, R272, R277). -/
def execRemoteKilnStart (asid k : Nat) (base : Bool) (s : State) : Out :=
  match s.job asid with
  | some j =>
    if j.running.isSome || s.sys.teams.any (fun t => t.asid = asid && t.arriving) || decide (0xFFFF < k) then .next s
    else .next (((s.rereadJob asid j.desc (BitVec.ofNat 16 k)).trimJob asid).startKiln asid (BitVec.ofNat 16 k) base)
  | none => .next s

end Sys2Proof.Machine
end

