-- ==== Sys2Proof/Machine/Rollback.lean ====
section
/-! DEFINITION. Rolling a job back to a kiln (R287, R288, R290, R291): KILNRB and REMOTE_ROLLBACK. The records of a kiln are
plain data beside the bytes that the manifest area holds. A manifest whose bytes a program has written "is not defined"
(R285): a rollback that reads it restores a free value. -/

namespace Sys2Proof.Config

/-- Free content number `n` of a manifest whose bytes a program has written (R285; DESIGN CHOICE, log 80). -/
opaque freeManifest : (n : Nat) → Machine.Kiln

end Sys2Proof.Config

namespace Sys2Proof.Machine

open Sys2Proof

/-! Step 1: the job stops. -/

/-- Drops the packets of some cores from a port; the requests that had been sent no longer count in their windows. -/
def State.dropPackets (s : State) (cs : List Nat) : State :=
  let gone := s.fab.ports.flatMap (fun e => (e.2.retry ++ e.2.flight).filter (fun k => cs.contains k.core))
  s.modFab (fun f =>
    let f := { f with ports := f.ports.map (fun e => (e.1, { e.2 with
      retry := e.2.retry.filter (fun k => !cs.contains k.core), flight := e.2.flight.filter (fun k => !cs.contains k.core)
      queue := e.2.queue.filter (fun k => !cs.contains k.core) })) }
    gone.foldl (fun f k => f.answered k) f)

/-- Every core of the job stops, its commands end unbumped, and its teams leave the mesh. -/
def State.stopJob (s : State) (asid : Nat) : State :=
  let ts := s.sys.teams.filter (fun t => t.asid = asid)
  let cs := ts.flatMap Team.cores
  let s := s.dropEventWaiters (fun w => cs.contains w.core)
  let s := s.modFlat (fun f => { f with
    waiters := f.waiters.filter (fun w => !cs.contains w.core), rmWrites := f.rmWrites.filter (fun w => !cs.contains w.core) })
  let s := (s.modSys (fun y => { y with
    kilnReqs := y.kilnReqs.filter (fun q => !cs.contains q.core), lin := y.lin.filter (fun l => !cs.contains l.core)
    pageReqs := y.pageReqs.filter (fun q => q.asid ≠ asid), packets := y.packets.filter (fun p => p.asid ≠ asid)
    tasks := y.tasks.filter (fun t => t.asid ≠ asid) })).dropPackets cs
  ts.foldl State.freeTeam s

/-! Step 2: nodes. -/

/-- CHILDREN, REFS, DEPTH, KLEV and the heap's use, by their definitions (R149, R155). -/
def AddrSpace.recount (sp : AddrSpace) : AddrSpace :=
  let used := sp.nodes.filter (fun e => decide (e.2.state ≠ .free))
  let nodes := used.map (fun e =>
    let up := sp.ancestors e.1 sp.fuel
    let d := (up.filter (fun i => !(sp.node i).iced)).length
    let af : Bool := e.2.af && decide (7 < d)
    (e.1, { e.2 with
      children := (used.filter (fun q => q.2.parentIdx = e.1)).length
      refs := (used.filter (fun q => q.2.factors.contains e.1)).length
      depth := if af then d - 1 else d
      af := af
      klev := (up.filter (fun i => (sp.node i).iced)).length }))
  let units (ch : Nat) : Nat := nodes.foldl (fun n e =>
    (e.2.map.filter (fun b => b.1 % Config.channelCount = ch)).foldl (fun n b => n + b.2.units e.2) n +
      (if ch < min e.2.blocks Config.channelCount then mapUnits e.2.blocks ch else 0)) 0
  { sp with nodes := nodes, heapUsed := (upFrom 0 Config.channelCount).foldl (fun m ch => m.set 0 ch (units ch)) [] }

/-- The node table as it stood at a kiln: `ks` is that kiln and the newer ones, oldest first. Each frozen node goes back to
its original handle, the first that was made winning, or to a husk where an old LDEL has deleted it, and new nodes are freed. -/
def AddrSpace.restore (sp : AddrSpace) (ks : List Kiln) : AddrSpace :=
  let as (k : Kiln) (h : Word32) : NodeState :=
    if k.killed.contains h then .husk else if k.sealed.contains h then .sealed else .live
  let all := ks.flatMap (fun k => k.frozen.map (fun z => (handleIdx z.1, z.2, as k z.2)))
  let first := all.foldl (fun l z => if l.any (fun y => y.2.1 = z.2.1) then l else l ++ [z]) []
  let back := first.map (fun z => (handleIdx z.2.1, { sp.node z.1 with
    handle := z.2.1, state := z.2.2, knum := 0, iced := false, busy := false }))
  let gone := all.map (·.1) ++ (ks.flatMap (fun k => k.newNodes.map handleIdx))
  let nodes : AMap Node := back.foldl (fun (m : AMap Node) e => m.put e.1 e.2) (sp.nodes.filter (fun e => !gone.contains e.1))
  let gens := (first.filter (fun z => z.2.2 ≠ .husk)).foldl
    (fun g z => g.set 1 (handleIdx z.2.1) (BitVec.ofNat 8 (handleGen z.2.1))) sp.gens
  let home (i : Nat) : Nat := match first.find? (fun z => z.1 = i) with | some z => handleIdx z.2.1 | none => i
  let splices := (sp.splices.map (fun x => { x with child := home x.child })).filter (fun x =>
    decide ((nodes.get {} x.husk).state = .husk) && decide ((nodes.get {} x.child).state ≠ .free))
  let sp := ({ sp with nodes := nodes, gens := gens, splices := splices } : AddrSpace).recount
  ((sp.nodes.filter (fun e => decide (e.2.state = .husk))).map (·.1)).foldl (fun sp i => sp.settle sp.fuel i) sp

/-! Step 3: pages. -/

/-- Writes a page copy back and restores KST of its leaf. -/
def State.putBack (s : State) (p : PageCopy) : State :=
  let s := s.modFlat (fun f => { f with
    hbm := (f.hbm.clear p.pa p.size).over 0 (AMap.slice f.hbm p.copy p.size p.pa)
    poison := (AMap.clear f.poison (p.pa / 32) (p.size / 32)).over false
      (AMap.slice f.poison (p.copy / 32) (p.size / 32) (p.pa / 32)) })
  (s.hbmPut (p.leaf + 6) (leBytes 2 p.oldKst.toNat)).dropLeaf p.leaf

/-! Steps 5 to 8: teams. -/

/-- The first free rectangle of a shape, rows first. -/
def State.firstFree (s : State) (w h : Nat) : Option (Nat × Nat) :=
  ((upFrom 0 (Config.meshRows + 1 - h)).flatMap (fun r => (upFrom 0 28).map (fun k => (r, 8 * k)))).find?
    (fun p => s.rectFree p.1 p.2 w h)

/-- Seats a team again: on its own rectangle where that is free, else on the first that is (DESIGN CHOICE, log 41). -/
def State.seat (s : State) (t : Team) : Option (Team × State) :=
  let at' := if s.rectFree t.row0 t.col0 t.width t.height then some (t.row0, t.col0) else s.firstFree t.width t.height
  at'.map (fun p =>
    let t := { t with row0 := p.1, col0 := p.2, phase := .running, take := false, takeSince := none, resumes := false }
    (t, s.modSys (fun y => { y with teams := y.teams ++ [t] })))

/-- Seats teams in order: each as it was and as it is. -/
def State.seatAll : State → List Team → Option (List (Team × Team) × State)
  | s, [] => some ([], s)
  | s, t :: r =>
    match s.seat t with
    | none => none
    | some (t', s) => (s.seatAll r).map (fun q => ((t, t') :: q.1, q.2))

/-- The event unit lines, geometry and planes that a core's record holds, put into its cluster. -/
def Cluster.fromRecord (k r : Cluster) (sl : Nat) : Cluster :=
  let k := { k with active := k.active.put sl (r.active.get {} sl), shadow := k.shadow.put sl (r.shadow.get {} sl) }
  if sl ≠ 0 then k
  else
    { k with
      deep := r.deep, barriers := r.barriers, nextArrival := r.nextArrival
      mutexes := r.mutexes.map (fun e => (e.1, { e.2 with queue := [] }))
      events := r.events.map (fun e => (e.1, { e.2 with queue := [] })) }

/-- A member as its CORE record has it, on its new core. -/
def Core.fromRecord (x : Core) (b : Core) (t : Team) (sp : AddrSpace) (num : BitVec 16) : Core :=
  { b with
    team := some t.id, teamorg := t.org, knum := num, rb := true, rbk := num
    tvec := sp.tvec, ptbase := sp.ptbase, asid := BitVec.ofNat 16 t.asid, curPtbase := sp.ptbase
    curAsid := BitVec.ofNat 16 t.asid, fenceIdx := x.fenceIdx, linebuf := [], dirty := [], drain := [], drainSince := none
    icache := [], tlb := [] }

/-- A member whose part had ended at the cut (R291). -/
def Core.endedMember (x : Core) (t : Team) (c : Nat) (sp : AddrSpace) (num : BitVec 16) : Core :=
  { x.woken t c sp num with exited := true, partEnded := true, rb := true, rbk := num }

/-- A line as its LINE record has it: its bytes, and its tags with what an old command's last read has made of them since the cut
(R276, R279, R288 step 5). -/
def Core.restoreLine (x : Core) (r : LineRec) : Core :=
  let sp := lineSpace r.line
  let a := lineAddr r.line
  { x.setStore sp ((AMap.clear (x.store sp) a 256).over 0 (AMap.slice r.bytes 0 256 a)) with tags := x.tags.set {} r.line r.tag }

/-- Restores the members of a team. -/
def State.restoreTeam (s : State) (k : Kiln) (old new : Team) : State :=
  let sp := s.space new.asid
  old.cores.foldl (fun s c0 =>
    let c := new.coreOf (old.rankOf c0)
    match k.cores.find? (fun r => decide (r.core = c0 ∧ r.team = old.id)) with
    | some r =>
      let s := s.modCore c (fun x =>
        (k.lines.filter (fun l => l.core = c0)).foldl Core.restoreLine (x.fromRecord r.body new sp k.num))
      let s := s.modCluster (clusterOf c) (fun q => q.fromRecord r.cluster (sliceOf c))
      s.modSys (fun y => { y with lin := y.lin ++ r.lin.map (fun l => { l with core := c }) })
    | none => s.modCore c (fun x => x.endedMember new c sp k.num)) s

/-- The receiver of an INFL record. -/
def Infl.core : Infl → Nat
  | .store c .. => c
  | .inbox c .. => c
  | .bump c _ => c

/-- Delivers an INFL record to core c, which now stands for its receiver (R288 step 6). -/
def State.deliverInfl (s : State) (c : Nat) (f : Infl) : State :=
  let count (s : State) (ct : Option Nat) : State := match ct with | some t => s.countUp c t | none => s
  match f with
  | .store _ sp a bs tag ct =>
    count (s.modCore c (fun x =>
      let y := x.stBytes sp a bs
      match tag with | some t => y.setTag (lineOf sp a) t | none => y)) ct
  | .inbox _ rank payload poison ct => count (s.modCore c (fun x => (x.placeRecord rank payload poison).getD x)) ct
  | .bump _ ct => count s (some ct)

/-- A task that was not resident at K's start (R288 steps 4 and 8): a taken team meets the rollback when it resumes. -/
def TaskEntry.rolledBack (e : TaskEntry) (j : Job) (k : Kiln) : TaskEntry :=
  { e with was := e.was.map (fun t => { t with
      rolled := some (k.num, (j.redirect.find? (fun r => r.1 = t.rec')).map (·.2)) }) }

/-- A team of the snapshot that is not restored fails again as R249 has it (R290; DEDUCED, log 114). -/
def State.failAgain (s : State) (t : Team) : State :=
  let s := s.setTaskState t.asid t.rec' tFailed false
  match s.packet t.pkt with
  | some p => s.abortPacket p
  | none => s

/-- The kilns whose manifests a rollback to kiln k reads: from the newest base kiln at or before k up to k (R285). -/
def Job.manifestsOf (j : Job) (k : Kiln) : List Kiln :=
  let upTo := (j.kilns.takeWhile (fun x => decide (x.num ≠ k.num))).filter (fun x => decide (x.state ≠ .aborted)) ++ [k]
  ((upTo.reverse).takeWhile (fun x => !x.base)) ++ ((upTo.reverse).find? (fun x => x.base)).toList

/-- Whether a program has written bytes of a manifest that a rollback to kiln k reads. -/
def Job.spoils (j : Job) (k : Kiln) : Bool := (j.manifestsOf k).any (fun m => m.spoiled)

/-- Kiln k as its records are read: what they hold is a free value where a program has written bytes of them (R285; DESIGN
CHOICE, log 80). -/
def Job.asRead (j : Job) (k : Kiln) (n : Nat) : Kiln :=
  if j.spoils k then
    let f := Config.freeManifest n
    { k with cores := f.cores, lines := f.lines, infl := f.infl, pages := f.pages, frozen := f.frozen, sealed := f.sealed
             killed := f.killed, newNodes := f.newNodes, tasks := f.tasks, teams := f.teams, failed := f.failed }
  else k

/-- The rollback of a job to its kiln, steps 1 to 8; none while some team of the snapshot finds no free rectangle. -/
def State.rollback (s : State) (j : Job) (saved : Kiln) : Option State :=
  let asid := j.asid
  let k := j.asRead saved s.freeCtr
  let s := { s.stopJob asid with freeCtr := s.freeCtr + 1 }
  let newer := (j.kilns.dropWhile (fun x => !decide (x.num = k.num ∧ x.unreleased = true))).drop 1
  let ks := k :: newer
  let s := s.modSpace asid (fun sp => sp.restore ks)
  let s := (ks.reverse).foldl (fun s x => (x.pages.reverse).foldl State.putBack s) s
  let s := s.modSys (fun y => { y with
    tasks := y.tasks ++ k.tasks.map (fun e => e.rolledBack j k), packets := y.packets ++ k.packets
    markers := y.markers.filter (fun m => m.asid ≠ asid), forwarded := y.forwarded.filter (fun e => e.1 % 2 ^ 16 ≠ asid)
    queues := y.queues.filter (fun q => q.asid ≠ asid) ++ k.queues })
  match s.seatAll k.teams with
  | none => none
  | some (pairs, s) =>
    let s := pairs.foldl (fun s p => s.restoreTeam k p.1 p.2) s
    let s := k.infl.foldl (fun s f =>
      match pairs.find? (fun p => p.1.cores.contains f.core) with
      | some p => s.deliverInfl (p.2.coreOf (p.1.rankOf f.core)) f
      | none => s) s
    let s := pairs.foldl (fun s p =>
      match j.redirect.find? (fun e => e.1 = p.2.rec') with
      | some e => p.2.cores.foldl (fun s c => s.modCore c (fun x => if x.partEnded then x else x.redirectTo e.2)) s
      | none => s) s
    let s := k.failed.foldl State.failAgain s
    some (s.modJob asid (fun j => { j with
      last := k.num
      nextUnit := match newer with | n :: _ => n.startUnit | [] => j.nextUnit
      kilns := (j.kilns.takeWhile (fun x => !decide (x.num = k.num ∧ x.unreleased = true))) ++
        [{ saved with frozen := [], sealed := [], killed := [], pages := [], newNodes := [] }] }))

/-- KILNRB (R287, R373). A nonzero status changes nothing. A rollback for whose teams no rectangle is free yet waits. -/
def execKilnrb (d a : Reg) (_ct : Cnt) (s : State) : Out :=
  match (do need s.me a.val; kilnTurn s) with
  | .error e => finish s (s.me.pc + 8) (.error e)
  | .ok s =>
    let asid := s.asidOf s.curCore
    let k := s.me.sv a.val
    let st := kilnStatus (s.kilnState asid k)
    if st ≠ 0 then finish s (s.me.pc + 8) (.ok (s.give d (w64 st)))
    else
      let t := s.abortKiln asid
      match t.job asid, (t.job asid).bind (fun j => j.kiln (k.truncate 16)) with
      | some j, some x =>
        match (t.tellModules asid (.kilnRollback asid x.num.toNat)).rollback j x with
        | some u => .next u
        | none => finish s (s.me.pc + 8) (.error (.wait s none))
      | _, _ => finish s (s.me.pc + 8) (.ok (s.give d (w64 2)))

/-- REMOTE_ROLLBACK: a rollback begun on another module runs the same steps here (R288). -/
def execRemoteRollback (asid k : Nat) (s : State) : Out :=
  if s.kilnState asid (w64 k) ≠ 2 then .next s
  else
    let t := s.abortKiln asid
    match t.job asid, (t.job asid).bind (fun j => j.kiln (BitVec.ofNat 16 k)) with
    | some j, some x =>
      match t.rollback j x with | some u => .next u | none => .next s
    | _, _ => .next s

end Sys2Proof.Machine
end

