-- ==== Sys2Proof/Machine/HostPort.lean ====
section
/-! DEFINITION. The host port: BAR 2, CXL.mem, the windows of BAR 4, and the management registers that a program of the
host reaches (R314 to R318, R325, R326, R328, R329, R333 to R335). -/

namespace Sys2Proof.Machine

open Sys2Proof

/-! Errors and answers. -/

/-- Logs an error in MGMT_ERR: the first one's address and kind stay; each counts and is signalled (R314, R316). -/
def State.logError (s : State) (kind addr : Nat) : State :=
  let e := s.host.err.toNat
  let v := if bitAt e 63 then setBits e 62 56 (min 127 (bits e 62 56 + 1))
    else addr % 2 ^ 48 + kind * 2 ^ 48 + 2 ^ 56 + 2 ^ 63
  let s := s.modHost (fun h => { h with err := w64 v })
  if s.host.errirq then s.emit .msix else s

/-- The 64-byte aligned pieces of an extent: first address and length (R317). -/
def piecesOf (pa n : Nat) : List (Nat × Nat) :=
  if n = 0 then []
  else (upFrom (pa / 64) ((pa + n - 1) / 64 - pa / 64 + 1)).map (fun k =>
    (max pa (64 * k), min (pa + n) (64 * k + 64) - max pa (64 * k)))

/-- Answers a PCIe read with its pieces' poison flags, or ends the whole request (R317). -/
def State.answerRead (s : State) (bs : List Byte) (pieces : List (Nat × Bool)) : State :=
  match (if s.host.hpe then none else pieces.find? (fun p => p.2)) with
  | some p => (((s.logError 1 p.1).emit .aer).emit .completerAbort)
  | none => s.emit (.data bs (pieces.map (·.2)))

/-- Whether an extent lies in HBM. -/
def inHbm (pa n : Nat) : Bool := decide (pa + n ≤ Config.hbmSize) && decide (pa < Config.hbmSize)

/-- The physical address of an offset of BAR 2 (R315). -/
def State.bar2 (s : State) (off : Nat) : Nat := s.host.bar2base.toNat + off

/-- The 64-byte pieces of an extent of HBM, each with its poison, as a host read finds them (R230, R317). -/
def State.seenPieces (s : State) (pa n : Nat) : List (Nat × Bool) :=
  (piecesOf pa n).map (fun q => (q.1, (s.hbmSeen q.1 q.2).2))

/-! BAR 2 (R314, R315, R317). A request beyond the size of the BAR is one that the port does not claim (PRESUMED, log 122). -/

/-- HOST_READ. A request of more than 4,096 bytes is not supported. -/
def execHostRead (off len : Nat) (s : State) : Out :=
  let pa := s.bar2 off
  if 4096 < len ∨ s.host.bar2size < off + len then .next (s.emit .unsupported)
  else if !s.host.ready || !inHbm pa len then .next (s.emit .completerAbort)
  else .next (s.answerRead (s.hbmSeen pa len).1 (s.seenPieces pa len))

/-- HOST_WRITE. A payload of more than 512 bytes is not supported. -/
def execHostWrite (off : Nat) (bs : List Byte) (ep : Bool) (s : State) : Out :=
  let pa := s.bar2 off
  if 512 < bs.length ∨ s.host.bar2size < off + bs.length then .next (s.emit .unsupported)
  else if !s.host.ready then .next s
  else if !inHbm pa bs.length then .next (s.logError 2 pa)
  else .next (s.outerWrite pa bs ep)

/-- The new value of a PCIe AtomicOp on n bits; none when CAS writes nothing. -/
def hostAtomicOp (op : HostAtomicOp) (n old v cmp : Nat) : Option Nat :=
  match op with
  | .fetchAdd => some ((old + v) % 2 ^ n)
  | .swap => some (v % 2 ^ n)
  | .cas => if old = cmp % 2 ^ n then some (v % 2 ^ n) else none

/-- HOST_ATOMIC: performed at the home; a poisoned sector ends it as it ends a read with HPE = 0. -/
def execHostAtomic (op : HostAtomicOp) (wide : Bool) (off : Nat) (v cmp : Word64) (s : State) : Out :=
  let pa := s.bar2 off
  let n := if wide then 8 else 4
  if pa % n ≠ 0 ∨ s.host.bar2size < off + n then .next (s.emit .unsupported)
  else if !s.host.ready || !inHbm pa n then .next (s.emit .completerAbort)
  else
    let u := s.settle pa n
    if u.hbmPoisoned pa n then .next (((u.logError 1 pa).emit .aer).emit .completerAbort)
    else
      let old := u.hbmNum pa n
      let t := match hostAtomicOp op (8 * n) old v.toNat cmp.toNat with
        | some w => (u.outerWrite pa (leBytes n w) false).poke
        | none => u.recall pa
      .next (t.emit (.old (w64 old)))

/-! CXL.mem (R314, R317). -/

/-- CXL_MEM_READ of the 64-byte line of an address; only HBM is exposed as HDM-DB. -/
def execCxlMemRead (a : Nat) (s : State) : Out :=
  let pa := a / 64 * 64
  if !s.host.ready then .next s
  else if !inHbm pa 64 then .next (s.emit .unsupported)
  else
    let (bs, bad) := s.hbmSeen pa 64
    if !bad then .next (s.emit (.cxlLine bs false))
    else if s.host.hpe then .next (s.emit (.cxlLine bs true))
    else .next ((s.emit (.cxlLine (List.replicate 64 0xFF) false)).emit .cxlEvent)

/-- CXL_MEM_WRITE of a 64-byte line. -/
def execCxlMemWrite (a : Nat) (bs : List Byte) (poison : Bool) (s : State) : Out :=
  let pa := a / 64 * 64
  if !s.host.ready then .next s
  else if !inHbm pa 64 then .next (s.logError 2 pa)
  else .next (s.outerWrite pa (bs.take 64) poison)

/-! BAR 4 (R315, R316). -/

/-- The physical address of a byte of an armed queue's header. -/
def State.headerPa (s : State) (q : Queue) (off : Nat) : Option Nat :=
  match s.sysXlate q.asid true .read (q.header + off) with
  | .ok e => some (e.phys (q.header + off))
  | .error _ => none

/-- QUEUE_WINDOW_FETCHADD: as AADDW. -/
def execQueueWindowFetchadd (q : Nat) (v : Word64) (s : State) : Out :=
  match (if s.host.ready then s.queueNum q else none) with
  | none => .next (s.emit .completerAbort)
  | some x =>
    match s.sysAtomic x.asid true false x.header (fun w => w + v) true with
    | .ok (w, t) => .next (t.emit (.old w))
    | .error k =>
      let t := if k = causePoison then (s.logError 1 ((s.headerPa x 0).getD 0)).emit .aer else s
      .next (t.emit .completerAbort)

/-- QUEUE_WINDOW_READ: header bytes, their pieces' poison as for BAR 2. -/
def execQueueWindowRead (q off len : Nat) (s : State) : Out :=
  match (if s.host.ready then s.queueNum q else none) with
  | none => .next (s.emit .completerAbort)
  | some x =>
    if 256 < off + len then .next (s.emit .unsupported)
    else
      match s.headerPa x off, s.sysRead x.asid true (x.header + off) len 3 with
      | some pa, .ok (bs, _) =>
        .next (s.answerRead bs ((piecesOf off len).map (fun p => (pa + (p.1 - off),
          match s.sysRead x.asid true (x.header + p.1) p.2 3 with | .ok r => r.2 | .error _ => false))))
      | _, _ => .next (s.emit .completerAbort)

/-- DROPPED_WINDOW_WRITE: any other write or AtomicOp to a queue window. Before READY an AtomicOp receives Completer Abort
(R333). -/
def execDroppedWindowWrite (w : WindowAccess) (s : State) : Out :=
  if !s.host.ready then .next (if w.atomic then s.emit .completerAbort else s)
  else
    match s.queueNum (w.off / 256) with
    | none => .next (s.emit .completerAbort)
    | some x => .next (s.logError 3 ((s.headerPa x (w.off % 256)).getD 0))

/-- EVENT_WINDOW_WRITE: posts data[31:0]. -/
def execEventWindowWrite (e : Nat) (v : Word64) (s : State) : Out :=
  if s.host.ready && decide (e < 65536) then .next (s.postEvent e (v.truncate 32)) else .next s

/-- EVENT_WINDOW_READ: COUNT in [31:0]. -/
def execEventWindowRead (e : Nat) (s : State) : Out :=
  if s.host.ready && decide (e < 65536) then
    .next (s.emit (.data (leBytes 4 (s.sys.event e).toNat ++ List.replicate 4 0) [false]))
  else .next (s.emit .completerAbort)

/-! BAR 0. -/

/-- MGMT_ERR_CLEAR: V is W1C, and writing 1 clears the whole register (R316). -/
def execMgmtErrClear (v : Word64) (s : State) : Out :=
  if bitAt v.toNat 63 then .next (s.modHost (fun h => { h with err := 0 })) else .next s

/-- TIMESET (R328). The next dialogue stays as far away as it was. -/
def execTimeset (v : Word64) (s : State) : Out := .next (s.modHost (fun h => { h with time := v }))

/-- PTMINT (R329): at least 1,000,000; it takes effect at the next dialogue. -/
def execPtmintWrite (v : Word64) (s : State) : Out :=
  .next (s.modHost (fun h => { h with ptmint := if v.toNat < 1000000 then w64 1000000 else v }))

/-- PTM_DIALOGUE (R329): TIMEERR takes the measured offset, host time less the counter (DESIGN CHOICE, log 119), and the counter's rate
is slewed until it is made up. -/
def execPtmDialogue (offset : Word64) (s : State) : Out :=
  if s.host.fail = 0 ∧ s.host.nextPtm ≤ s.host.clock then
    .next (s.modHost (fun h => { h with timeerr := offset, slew := offset.toInt, nextPtm := h.clock + h.ptmint.toNat }))
  else .next s

/-- Word j of a descriptor of a peer window takes a value (R325). Clearing V starts the count of R327 for the requests that stand, and a
window that is opened again counts no more for later ones. -/
def PeerWindow.write (w : PeerWindow) (clock j : Nat) (v : Word64) : PeerWindow :=
  match j with
  | 0 =>
    let open' := bitAt v.toNat 31
    { w with
      node := BitVec.ofNat 20 v.toNat, v := open', epoch := BitVec.ofNat 16 (bits v.toNat 47 32)
      closedAt := if open' then none else if w.v then some clock else w.closedAt }
  | 1 => { w with rbase := BitVec.ofNat 48 v.toNat }
  | 2 => { w with size := BitVec.ofNat 40 v.toNat }
  | _ => w

/-- The requests of a window that stand at a port when V is cleared (R327). -/
def Port.close (p : Port) (w clock : Nat) : Port :=
  let mark (k : FabPacket) : FabPacket := if k.window = w ∧ k.closed = none then { k with closed := some clock } else k
  { p with queue := p.queue.map mark, retry := p.retry.map mark, flight := p.flight.map mark }

/-- Word j of window w's descriptor is written (R325, R327). -/
def Fabric.windowWrite (f : Fabric) (w clock j : Nat) (v : Word64) : Fabric :=
  let g := f.modWindow w (fun x => x.write clock j v)
  if (f.window w).v && !(g.window w).v then { g with ports := g.ports.map (fun e => (e.1, e.2.close w clock)) } else g

/-- Word j of an export entry takes a value (R326). DROPS is the module's count. -/
def Export.write (e : Export) (j : Nat) (v : Word64) : Export :=
  match j with
  | 0 => { e with node := BitVec.ofNat 20 v.toNat, v := bitAt v.toNat 31, epoch := BitVec.ofNat 16 (bits v.toNat 47 32) }
  | 1 => { e with base := BitVec.ofNat 48 v.toNat }
  | 2 => { e with size := BitVec.ofNat 40 v.toNat }
  | _ => e

/-- REGISTER_WRITE: an aligned 8-byte write to a register whose writing has no other row; read-only ones ignore it (R5). -/
def execRegisterWrite (off : Nat) (v : Word64) (s : State) : Out :=
  if off % 8 ≠ 0 then .next s
  else if off = 0x8 then .next (s.modHost (fun h => { h with hpe := bitAt v.toNat 0, errirq := bitAt v.toNat 1 }))
  else if off = 0x20 then .next (s.modHost (fun h => { h with bar2base := v }))
  else if 0x4000 ≤ off ∧ off < 0x4020 then
    .next (s.modHost (fun h => { h with trust := { h.trust with nonce := h.trust.nonce.write (off - 0x4000) (leBytes 8 v.toNat) } }))
  else if 0x10000 ≤ off ∧ off < 0x11000 then
    let w := (off - 0x10000) / 32
    .next (s.modFab (fun f => f.windowWrite w s.host.clock (off % 32 / 8) v))
  else if 0x20000 ≤ off ∧ off < 0x22000 then
    let e := (off - 0x20000) / 32
    .next (s.modFab (fun f => { f with exports := f.exports.put e ((f.exports.get {} e).write (off % 32 / 8) v) }))
  else .next s

/-- The sum of the grants that stand, in milliwatts: dies, stacks and system die (R338). -/
def State.granted (s : State) : Nat :=
  (upFrom 0 4).foldl (fun n d => n + (s.die d).grant.toNat) 0 +
    (upFrom 0 13).foldl (fun n k => n + (s.host.arbiter.others.get 0 k).toNat) 0

/-- Grants that have summed to more than 3,000 W for 10 ms stand no longer: each is cut in proportion until the next grants come, and
the rest begins (R338; DESIGN CHOICE, log 135). -/
def State.lapse (s : State) : State :=
  match s.host.arbiter.overSince with
  | none => s
  | some t =>
    if s.host.clock ≤ t + 10000000 then s
    else
      let n := s.granted
      let cut (g : BitVec 22) : BitVec 22 := BitVec.ofNat 22 (g.toNat * 3000000 / n)
      ({ s with dies := s.dies.map (fun (e : Nat × Die) => (e.1, { e.2 with grant := cut e.2.grant })) } : State).modHost (fun h =>
        { h with arbiter := { h.arbiter with
          others := (h.arbiter.others.map (fun e => (e.1, cut e.2))).filter (fun e => decide (e.2 ≠ 0))
          overSince := none, restUntil := t + 20000000 } })

/-! Reads of BAR 0 (R5, R316, R325, R326, R328, R329, R333, R336, R338). -/

/-- MGMT_STATUS. -/
def HostPort.status (h : HostPort) : Nat :=
  b2n h.ready + h.stage.toNat * 2 ^ 1 + h.fail.toNat * 2 ^ 4 + h.lastrst.toNat * 2 ^ 12

/-- MGMT_PWR of a die. -/
def Die.powerWord (d : Die) : Nat :=
  d.grant.toNat + d.level.toNat * 2 ^ 22 + d.tmax.toNat * 2 ^ 27 + d.vmin.toNat * 2 ^ 35 + d.roFreq.toNat * 2 ^ 43

/-- Word j of a peer window's descriptor, and of an export entry. -/
def PeerWindow.word (w : PeerWindow) (j : Nat) : Nat :=
  match j with
  | 0 => w.node.toNat + b2n w.v * 2 ^ 31 + w.epoch.toNat * 2 ^ 32
  | 1 => w.rbase.toNat
  | 2 => w.size.toNat + w.out.toNat * 2 ^ 40
  | _ => 0
def Export.word (e : Export) (j : Nat) : Nat :=
  match j with
  | 0 => e.node.toNat + b2n e.v * 2 ^ 31 + e.epoch.toNat * 2 ^ 32
  | 1 => e.base.toNat
  | 2 => e.size.toNat
  | _ => e.drops.toNat

/-- The value of the aligned 8-byte register at an offset; none where the manual names none to read (DESIGN CHOICE, log 121:
a free value). -/
def State.register (s : State) (off : Nat) : Option Nat :=
  let h := s.host
  if off = 0x0 then some h.status
  else if off = 0x8 then some (b2n h.hpe + 2 * b2n h.errirq)
  else if off = 0x10 then some h.err.toNat
  else if off = 0x20 then some h.bar2base.toNat
  else if off = 0x30 then some 0
  else if off = 0x108 then some h.timeerr.toNat
  else if off = 0x110 then some h.ptmint.toNat
  else if 0x200 ≤ off ∧ off < 0x220 then some (s.lapse.die ((off - 0x200) / 8)).powerWord
  else if off = 0x4020 then some 0
  else if 0x4100 ≤ off ∧ off < 0x4100 + h.trust.report.length then some (leNat ((h.trust.report.drop (off - 0x4100)).take 8))
  else if 0x10000 ≤ off ∧ off < 0x11000 then some ((s.fab.window ((off - 0x10000) / 32)).word (off % 32 / 8))
  else if 0x20000 ≤ off ∧ off < 0x22000 then some ((s.fab.exports.get {} ((off - 0x20000) / 32)).word (off % 32 / 8))
  else none

/-- The host reads a register of BAR 0, before READY too (R333). -/
def State.registerRead (s : State) (off : Nat) : State :=
  match s.register (off / 8 * 8) with
  | some v => s.emit (.data (leBytes 8 v) [false])
  | none => let (v, t) := s.free; t.emit (.data (leBytes 8 v.toNat) [false])

/-! Attestation (R334, R335). A module whose start-up has failed does no work (R332). -/

/-- The public session key: generated at the first report request since the last reset. Its bits are free. -/
def State.sessionKey (s : State) : List Byte × State :=
  match s.host.trust.session with
  | some k => (k, s)
  | none =>
    let (k, t) := freeBytes 32 s
    (k, t.modHost (fun h => { h with trust := { h.trust with session := some k } }))

/-- The measurement count, as eight bytes, and the public identity key. -/
def countBytes : List Byte := leBytes 8 Config.imageCount
def identityBytes : List Byte := (upFrom 0 32).map Config.identityKey

/-- Appends the signature of a message under a key. -/
def signed (key msg : List Byte) : List Byte := msg ++ (upFrom 0 64).map (Config.signature key msg)

/-- The nonce. -/
def Trust.nonceBytes (t : Trust) : List Byte := t.nonce.read 0 32

/-- The report at BAR 0 + 0x4100. -/
def State.report (s : State) (bs : List Byte) : State := s.modHost (fun h => { h with trust := { h.trust with report := bs } })

/-- FULL_REPORT. -/
def execFullReport (s : State) : Out :=
  let (k, t) := s.sessionKey
  if s.host.fail ≠ 0 then .next s
  else .next (t.report (signed identityBytes
    (countBytes ++ (upFrom 0 Config.imageCount).flatMap (fun j => (upFrom 0 64).map (Config.measurement j)) ++
      t.host.trust.nonceBytes ++ identityBytes ++ k)))

/-- SHORT_REPORT. -/
def execShortReport (s : State) : Out :=
  let (k, t) := s.sessionKey
  if s.host.fail ≠ 0 then .next s
  else .next (t.report (signed k (t.host.trust.nonceBytes ++ countBytes ++ k)))

end Sys2Proof.Machine
end

