-- ==== Sys2Proof/Machine/Resets.lean ====
section
/-! DEFINITION. Start-up, warm reset and power (R332, R333, R336 to R339). -/

namespace Sys2Proof.Machine

open Sys2Proof

/-! Warm reset (R336, R337). -/

/-- A node on which no command works any more. -/
def Node.idle (n : Node) : Node := { n with busy := false }

/-- What a warm reset leaves of the system die: address spaces and images, which lie in HBM, and NODEID. -/
def SysDie.warm (y : SysDie) : SysDie :=
  { spaces := y.spaces.map (fun e => (e.1, { e.2 with nodes := e.2.nodes.map (fun n => (n.1, n.2.idle)) }))
    images := y.images, nodeid := y.nodeid, nextId := y.nextId }

/-- What a warm reset leaves of the host port: the counter, FAIL, the nonce and the report, and what the arbiter holds beside the grants
of the dies; every other register takes its Reset column (DEDUCED, log 42). -/
def HostPort.warm (h : HostPort) (last : BitVec 2) : HostPort :=
  { ready := false, stage := 1, fail := h.fail, lastrst := last, time := h.time, clock := h.clock, trueNs := h.trueNs
    bar2size := h.bar2size, arbiter := h.arbiter, nextPtm := h.clock + 10000000, trust := { h.trust with session := none }, out := h.out }

/-- Every link is down, or has been trained. -/
def Fabric.train (f : Fabric) (up : Bool) : Fabric :=
  (upFrom 0 16).foldl (fun f p => f.modPort p (fun q => { q with up := up })) f

/-- A warm reset starts, unless the start-up has failed. A die's heat goes on being timed, from the trip on after a trip (R339; DEDUCED,
log 100). -/
def State.warmReset (s : State) (last : BitVec 2) : State :=
  if s.host.fail ≠ 0 then s
  else
    let s := s.sys.jobs.foldl (fun s j => s.abortKiln j.asid) s
    { s with
      cores := [], clusters := []
      dies := s.dies.map (fun (e : Nat × Die) => (e.1, { e.2 with
        tlb := [], fences := [], hotSince := if last = 3 then e.2.hotSince.map (fun _ => s.host.clock) else e.2.hotSince }))
      flat := { s.flat with rmWrites := [], waiters := [], tuples := [] }
      sys := s.sys.warm
      host := s.host.warm last
      fab := ({ s.fab with
        ports := [], down := [], waiting := []
        windows := s.fab.windows.map (fun (e : Nat × PeerWindow) => (e.1, { e.2 with out := 0, closedAt := none })) } :
          Fabric).train false }

/-- MGMT_RESET (R336): the key starts a warm reset; other values are ignored. -/
def execMgmtReset (key : BitVec 32) (s : State) : Out := .next (if key = 0x5741524D then s.warmReset 1 else s)

/-- HOT_RESET: a PCIe hot reset or a Function Level Reset (R336). -/
def execHotReset (s : State) : Out := .next (s.warmReset 2)

/-- WARM_RESET_COMPLETE: the PHYs are retrained and every fabric link is trained in full (R337). -/
def execWarmResetComplete (s : State) : Out :=
  if s.host.ready = false ∧ s.host.fail = 0 ∧ s.host.lastrst ≠ 0 then
    .next { s with
      host := { s.host with ready := true, stage := 3 }
      fab := s.fab.train true }
  else .next s

/-! Cold start (R332, R333). -/

/-- The stage at which a cold start with a FAIL code stops (R332). -/
def failStage (fail : BitVec 8) : BitVec 3 :=
  match fail.toNat with
  | 1 => 0
  | 2 | 3 | 4 => 1
  | _ => 2

/-- COLD_START: stages 0 to 2. `bad` names the locations that cannot be written cleanly, which are left poisoned. A stage
that fails ends the module's work; HBM then stays as it was (DEDUCED, log 43). Only codes 1 to 5 name a stage. -/
def execColdStart (fail : BitVec 8) (bad : List Nat) (s : State) : Out :=
  if 5 < fail.toNat then .next s else
  let r : State := State.reset
  let keep : Flat := { host := s.flat.host, hostPoison := s.flat.hostPoison, hostAbsent := s.flat.hostAbsent }
  let h : HostPort :=
    { ready := false, stage := if fail = 0 then 2 else failStage fail, fail := fail, clock := s.host.clock, trueNs := s.host.trueNs
      nextPtm := s.host.clock + 10000000, out := s.host.out }
  .next { r with
    agenda := s.agenda, freeCtr := s.freeCtr, cycle := s.cycle, host := h
    fab := { out := s.fab.out }
    flat :=
      if fail = 0 then
        { keep with poison := (bad.filter (fun a => decide (a < Config.hbmSize))).foldl (fun p a => p.set false (a / 32) true) [] }
      else { keep with hbm := s.flat.hbm, poison := s.flat.poison, lost := s.flat.lost } }

/-- START_UP_COMPLETE: stage 3 of a cold start. -/
def execStartUpComplete (s : State) : Out :=
  if s.host.ready = false ∧ s.host.fail = 0 ∧ s.host.lastrst = 0 then
    .next (s.modHost (fun h => { h with ready := true, stage := 3 }))
  else .next s

/-! Power (R338, R339). -/

/-- A grant and its readings reach a die. From 105 °C on the die stays at LEVEL 1 until it reads below 100 °C. -/
def Die.power (d : Die) (r : PowerReading) (clock : Nat) : Die :=
  let t := r.tmax.toNat
  let hold : Bool := decide (105 ≤ t) || d.hold && decide (100 ≤ t)
  { d with
    grant := r.grant
    level := if hold then 1 else r.level
    tmax := r.tmax, vmin := r.vmin, roFreq := r.roFreq, hold := hold
    hotSince := if 110 ≤ t then some (d.hotSince.getD clock) else none }

/-- Whether the arbiter can give a grant: a die that reads 100 °C or more gets less than before, as long as it has any. -/
def Die.mayGrant (d : Die) (r : PowerReading) : Bool :=
  decide (r.tmax.toNat < 100 ∨ r.grant.toNat < d.grant.toNat ∨ (d.grant = 0 ∧ r.grant = 0))

/-- What the arbiter keeps once the grants sum to n: more than 3,000 W for at most 10 ms at a time, and after that no more than
3,000 W for as long as it lasted. None: they may not (R338; DEDUCED, log 100: a grant counts as drawn). -/
def Arbiter.after (a : Arbiter) (n clock : Nat) : Option Arbiter :=
  if 3600000 < n then none
  else if n ≤ 3000000 then
    some (match a.overSince with
      | some t => { a with overSince := none, restUntil := clock + (clock - t) }
      | none => a)
  else
    match a.overSince with
    | some t => if clock ≤ t + 10000000 then some a else none
    | none => if a.restUntil ≤ clock then some { a with overSince := some clock } else none

/-- The dies that read 100 °C or more, each of which a period's grants must lower (R339). -/
def State.hotDies (s : State) : List Nat := (upFrom 0 4).filter (fun d => decide (100 ≤ (s.die d).tmax.toNat))

/-- POWER_GRANT: the grants of a period, and the levels, from 1 to 16. Grants that R338 and R339 do not allow do not arrive
(DEDUCED, log 100). -/
def execPowerGrant (g : PowerGrants) (s : State) : Out :=
  let s := s.lapse
  let t := (g.dies.foldl (fun s r => s.modDie r.die.val (fun d => d.power r s.host.clock)) s).modHost (fun h =>
    { h with arbiter := { h.arbiter with others := g.others.foldl (fun m o => m.set 0 o.1.val o.2) h.arbiter.others } })
  if s.host.fail ≠ 0 ∨ g.dies.all (fun r => decide (1 ≤ r.level.toNat) && decide (r.level.toNat ≤ 16) &&
      (s.die r.die.val).mayGrant r) = false ∨ s.hotDies.all (fun d => g.dies.any (fun r => r.die.val = d)) = false then .next s
  else
    match t.host.arbiter.after t.granted s.host.clock with
    | some a => .next (t.modHost (fun h => { h with arbiter := a }))
    | none => .next s

/-- THERMAL_TRIP: a sensor of the die has read 110 °C or more for 1 ms. -/
def execThermalTrip (die : Fin 4) (s : State) : Out :=
  match (s.die die.val).hotSince with
  | some t => .next (if t + 1000000 ≤ s.host.clock then s.warmReset 3 else s)
  | none => .next s

end Sys2Proof.Machine
end

