-- ==== Sys2Proof/Machine/Loader.lean ====
section
/-! DEFINITION. The loader: what becomes of a program image (R40, R41, R45, R47 to R49), and the arming of a queue (R250). -/

namespace Sys2Proof.Machine

open Sys2Proof

/-- Bytes placed at a virtual address, whatever the leaf's permissions; none where no leaf reaches HBM. -/
def State.place (s : State) (asid : Nat) : (va : Nat) → (bs : List Byte) → (fuel : Nat) → Option State
  | _, [], _ => some s
  | _, _, 0 => none
  | va, bs, fuel + 1 =>
    match walk s asid (s.space asid).ptbase.toNat va with
    | .error _ => none
    | .ok e =>
      let k := min bs.length (e.va + e.size - va)
      if rangeOf (e.phys va) = .hbm ∧ k ≠ 0 then (s.outerWrite (e.phys va) (bs.take k) false).place asid (va + k) (bs.drop k) fuel
      else none

/-- Steps 1 and 2: sections and records. -/
def State.placeAll (s : State) (asid : Nat) : List Segment → Option State
  | [] => some s
  | g :: r => (s.place asid g.va g.bytes (g.bytes.length / 65536 + 2)).bind (fun t => t.placeAll asid r)

/-- One lineage root (R45): a block of zeros is Z, every other block F. -/
def AddrSpace.createRoot (sp : AddrSpace) (r : NodeInit) : Option (AddrSpace × Word32) :=
  match sp.freeIdx with
  | none => none
  | some i =>
    let sp? := (sp.addNode i { state := .live, fmt := r.ty, dfmt := r.ty, dims := r.dims }).bind (fun sp =>
      (upFrom 0 (ceilDiv r.init.length 4096)).foldl (fun o k =>
        o.bind (fun (sp : AddrSpace) =>
          let m := Mem.write [] 0 ((r.init.drop (4096 * k)).take 4096)
          if m.isEmpty then some sp else sp.setEntry i k (.full m []))) (some sp))
    sp?.map (fun sp => (sp, sp.handleOf i))

/-- Step 3: the roots, in source order. -/
def State.createRoots (s : State) (asid : Nat) : List NodeInit → Option State
  | [] => some s
  | r :: rest =>
    match (s.space asid).createRoot r with
    | none => none
    | some (sp, h) => ((s.modSpace asid (fun _ => sp)).noteNewNode asid h none).createRoots asid rest

/-- The lowest number from n on that is not in a list. -/
def lowestNot (l : List Nat) : (n fuel : Nat) → Nat
  | n, 0 => n
  | n, f + 1 => if l.contains n then lowestNot l (n + 1) f else n

/-- The numbers of a program's queues, in source order (R41): given ones, and the lowest that no queue holds. -/
def numberQueues (held : List Nat) : List QueueInit → List (Nat × Nat)
  | [] => []
  | q :: r =>
    match q.num with
    | some n => (q.header, n) :: numberQueues held r
    | none =>
      let n := lowestNot held 1 (held.length + 1)
      (q.header, n) :: numberQueues (n :: held) r

/-- Arms a queue under a number (R250): CONFIG takes the number and ARMED. A header that cannot be written arms nothing. -/
def State.armQueue (s : State) (asid header num : Nat) : State :=
  let config := (s.taskWord asid header 1).toNat
  match s.sysWrite asid true false (header + 8) (leBytes 8 (setBits (setBits config 47 32 num) 16 16 1)) with
  | .error _ => s
  | .ok t => t.knowQueue { num := num, header := header, asid := asid, n := bits config 4 0 }

/-- Step 5: the entry task is enqueued as a LAUNCH enqueues it (R246, R253), without a packet. Queue number 65,536 is no
queue, so the task does not run in supervisor mode. -/
def State.launchEntry (s : State) (asid r : Nat) : State :=
  let s := match s.sysWrite asid true false (r + 96) (leBytes 8 0) with | .ok t => t | .error _ => s
  let w2 := s.taskWord asid r 2
  let ready : Bool := taskDeps w2 = 0
  (s.setTaskState asid r (if ready then tReady else tWaiting) false).modSys (fun y => { y with tasks := y.tasks ++
    [{ rec' := r, asid := asid, pkt := 0, queue := 65536, ready := ready, since := s.cycle, base := taskPri w2
       width := taskWidth w2, height := taskHeight w2 }] })

/-- The images that a load leaves belonging to tasks: a record that the load writes is a new task's, which owns the load's
images alone (R49). A record that a program or the host writes keeps the images of its address (DESIGN CHOICE, log 133). -/
def keptImages (p : ProgImage) (old : List Image) : List Image :=
  let new : List Image := p.images.map (fun i => { asid := p.asid, task := i.task, sp := i.sp, addr := i.addr, bytes := i.bytes })
  let fresh (r : Nat) : Bool :=
    p.images.any (fun j => j.task = r) || p.segs.any (fun g => decide (g.va ≤ r ∧ r < g.va + g.bytes.length))
  old.filter (fun i => !(i.asid = p.asid && fresh i.task)) ++ new

/-- PROGRAM_LOAD (R47). A section that no page takes, or a root without room, ends the load with nothing done (DEDUCED, log 44); a
number that an armed queue holds ends it after step 3. A queue whose header step 2 has just overwritten holds no number any more, since
its CONFIG has no ARMED (DEDUCED, log 32). The images of a load belong to its tasks from step 2 on, so that a load which ends in step 4
leaves them to the records that it has written (DESIGN CHOICE, log 133). -/
def execProgramLoad (p : ProgImage) (s : State) : Out :=
  if !s.host.ready then .next s
  else
    match (s.placeAll p.asid p.segs).bind (fun t => t.createRoots p.asid p.nodes) with
    | none => .next s
    | some t =>
      let t := t.modSys (fun y => { y with images := keptImages p y.images })
      let armed := t.armedNums
      let given := p.queues.filterMap (·.num)
      if given.any (fun n => armed.contains n) then .next t
      else
        let t := (numberQueues (armed ++ given) p.queues).foldl (fun t q => t.armQueue p.asid q.1 q.2) t
        .next (t.launchEntry p.asid p.entry)

end Sys2Proof.Machine
end

