-- ==== Sys2Proof/Machine/FabricRows.lean ====
section
/-! DEFINITION. The fabric's rows: links, drain rounds, time limits of requests that left, requests that arrive, and the
time limit of a replica (R232, R320 to R327). -/

namespace Sys2Proof.Machine

open Sys2Proof

/-! Old packets that cross the fabric (R280). -/

/-- Whether a request between this module and another counts in the running kiln of its job: it is old, and the other module is
one that the job spans. -/
def State.counts (s : State) (asid node : Nat) (colour : Bool) : Bool :=
  s.isOld asid colour && (match s.job asid with | some j => j.remotes.contains node | none => false)

/-- Counts what this module has sent to, and received from, another one. -/
def State.countAcross (s : State) (asid node : Nat) (colour : Bool) (sent received : Nat) : State :=
  if s.counts asid node colour then s.countOldBy asid sent received else s

/-! Requests that end at their source. -/

/-- The address word of the fault record of a command whose request for a unit has failed (R297). -/
def State.requestVa (s : State) (c : Nat) (p : PgeCmd) (u : Nat) : Nat :=
  match p.ins with
  | .done .. => (s.doneVa c p).getD 0
  | _ => match atomicArgs p.ins with | some _ => p.va.toNat | none => p.unitVa u

/-- The command or the COPY packet of a request ends with a status, unless it has ended. A completion signal of the system
die waits for nothing. -/
def State.endRequest (s : State) (k : FabPacket) (st : Nat) : State :=
  if k.core = sysParty then
    match s.packet k.cmd with
    | some p => if p.ended.isNone then s.faultPacket p 9 else s
    | none => s
  else
    match (s.core k.core).pgeOf k.cmd with
    | some p => if p.prog.over then s else s.endPge k.core k.cmd st (s.requestVa k.core p k.unit')
    | none => s

/-- A packet ends at its source with a status (R322, R327). `sent`: it counts in OUT, and as an exchange of which the answer is
no longer waited for. -/
def State.endPacketAt (s : State) (sent : Bool) (st : Nat) (k : FabPacket) : State :=
  (if sent then (s.modFab (fun f => f.answered k)).countAcross k.asid k.node k.colour 0 1 else s).endRequest k st

/-- The status of a packet that a dead link ends (R322). -/
def deadStatus (k : FabPacket) : Nat := if k.isAtomic then causeAtomicUnknown else causeLinkDead

/-! Links (R321, R322). -/

/-- LINK_DEAD: a port declares its link dead. Every job of the module is one that spans it. -/
def execLinkDead (port : Fin 16) (s : State) : Out :=
  let p := s.fab.port port.val
  if p.up = false ∨ s.host.ready = false then .next s
  else
    let others := (upFrom 0 16).filter (fun q => q ≠ port.val && (s.fab.port q).up)
    let s := s.modFab (fun f =>
      let f := f.modPort port.val (fun q => { q with up := false, round := some 0, deadAt := s.host.clock, retry := [] })
      { f with out := f.out ++ others.map (fun q => (q, .linkNotice port.val)) })
    let s := p.retry.foldl (fun s k => s.endPacketAt true (deadStatus k) k) s
    let s := s.sys.jobs.foldl (fun s j => s.abortKiln j.asid) s
    .next (s.notify 8 [w64 port.val])

/-- LINK_RETRAINED: notice 2, and the link carries traffic again. -/
def execLinkRetrained (port : Fin 16) (s : State) : Out :=
  if (s.fab.port port.val).up = true ∨ s.host.ready = false then .next s
  else
    .next ((s.modFab (fun f => f.modPort port.val (fun q => { q with up := true, round := none }))).notify 2 [w64 port.val])

/-- LINK_STATE_NOTICE: a notice received says whether a node is reached (DEDUCED, log 45). Word of a dead link of a module that a
job spans aborts the job's running kiln (R289). None is accepted before READY (R337). -/
def execLinkStateNotice (node : Nat) (up : Bool) (s : State) : Out :=
  if s.host.ready = false then .next s
  else
    let hit (j : Job) : Bool := !up && j.remotes.contains node
    .next (((s.sys.jobs.filter hit).foldl (fun s j => s.abortKiln j.asid) s).modFab (fun f => { f with
      down := if up then f.down.filter (fun n => n ≠ node) else if f.down.contains node then f.down else f.down ++ [node] }))

/-- The port that is up and carries ordered traffic to a node, other than a dead one. -/
def Fabric.alternative (f : Fabric) (dead node : Nat) : Option Nat :=
  if f.down.contains node then none
  else (routePorts (f.routes.get 0 node) true).find? (fun q => q ≠ dead && (f.port q).up)

/-- One round: the queued packets, in queue order, each move to an alternative that is up, as far as the first that has none;
no packet overtakes it. -/
def drainQueue (dead : Nat) (f : Fabric) : Fabric :=
  let q := (f.port dead).queue
  let go := q.takeWhile (fun k => (f.alternative dead k.node).isSome)
  go.foldl (fun f k =>
    match f.alternative dead k.node with
    | some a => f.modPort a (fun p => { p with queue := p.queue ++ [k] })
    | none => f)
    (f.modPort dead (fun p => { p with queue := q.drop go.length }))

/-- DRAIN_ROUND: round k ends 100 µs × k after the declaration; after round 4 the packets that remain end with
LINK_DEAD. -/
def execDrainRound (port : Fin 16) (s : State) : Out :=
  let p := s.fab.port port.val
  match p.round with
  | none => .next s
  | some k =>
    if s.host.clock < p.deadAt + 100000 * (k + 1) then .next s
    else
      let s := s.modFab (drainQueue port.val)
      if k + 1 < 4 then .next (s.modFab (fun f => f.modPort port.val (fun q => { q with round := some (k + 1) })))
      else
        let left := (s.fab.port port.val).queue
        let s := s.modFab (fun f => f.modPort port.val (fun q => { q with round := none, queue := [] }))
        .next (left.foldl (fun s k => s.endPacketAt false causeLinkDead k) s)

/-! Requests that arrive (R324, R326). -/

/-- Answers a request of another module. -/
def State.answer (s : State) (r : PeerWait) (o : FabOut) : State :=
  (s.reply r.src o).countAcross r.asid r.src r.colour 1 1

/-- An atomic of another module at its home (R342): an old one is applied to the frozen version too (R281), and one that writes
nothing makes none. None while a tagged one finds no tuple free. -/
def State.peerAtomic (s : State) (r : PeerWait) (k : AtomicKind) (wide : Bool) (v cmp : Word64) (tag : Option (Nat × Nat × Nat)) :
    Option State :=
  let n := if wide then 8 else 4
  let pa := r.addr
  let ch := channelOf pa
  match tag.bind (fun g => s.tupleAt ch g.1 g.2.1 g.2.2) with
  | some t => some (s.answer r (.old t.result))
  | none =>
    let u := s.settle pa n
    if tag.isSome && decide (256 ≤ (s.tuplesAt ch).length) then none
    else if u.hbmPoisoned pa n then some (u.answer r (.status causePoison))
    else
      let old := u.hbmNum pa n
      let res : Word64 := BitVec.ofInt 64 (toSigned (8 * n) old)
      let f (x : Nat) : Option Nat := applyAtomic k (8 * n) x (v.toNat % 2 ^ (8 * n)) (cmp.toNat % 2 ^ (8 * n))
      let u := u.touched pa n (f old).isSome
      let t := match f old with
        | some w => (u.hbmWrite pa (leBytes n w) .keep).poke
        | none => u.recall pa
      let t := if s.isOld r.asid r.colour then u.changeFrozen t r.asid pa n f else t
      let t := if k = .addw then t.wake pa n else t
      let t := match tag with
        | some g =>
          let x : TagTuple := { channel := ch, name := g.1, ctx := g.2.1, tag := g.2.2, result := res, at' := t.host.clock }
          t.modFlat (fun f => { f with tuples := f.tuples ++ [x] })
        | none => t
      some (t.answer r (.old res))

/-- A request that an export entry admits, and that reaches host memory: a read or a write; PROT for an atomic (R313, R318). -/
def State.serveHost (s : State) (r : PeerWait) (a : Nat) : State :=
  match r.op with
  | .read n => (match s.sysHost a n with
      | .ok (bs, poison) => s.answer r (.data bs poison)
      | .error k => s.answer r (.status k))
  | .write bs poison => if poison then s.answer r (.status causePoisonEgress) else (s.hostPut a bs).answer r .ack
  | .atomic .. => s.answer r (.status causeProt)

/-- A request that an export entry admits is served at its home, or in host memory, and elsewhere gets PROT (R313; DEDUCED, log 134,
for a peer window); none while it waits there. -/
def State.serve (s : State) (r : PeerWait) : Option State :=
  match rangeOf r.addr with
  | .host a => some (s.serveHost r a)
  | _ =>
  match r.op with
  | .read n =>
    if inHbm r.addr n then
      let t := s.recall r.addr
      some (t.answer r (.data (t.hbmSeen r.addr n).1 (t.hbmSeen r.addr n).2))
    else some (s.answer r (.status causeProt))
  | .write bs poison =>
    if inHbm r.addr bs.length then
      let act : PoisonAct := if poison then .set else .keep
      let t := (s.reached r.addr bs.length).hbmWrite r.addr bs act
      some ((if s.isOld r.asid r.colour then t.putFrozen r.asid r.addr bs act else t).answer r .ack)
    else some (s.answer r (.status causeProt))
  | .atomic k wide v cmp tag =>
    if inHbm r.addr (if wide then 8 else 4) then s.peerAtomic r k wide v cmp tag else some (s.answer r (.status causeProt))

/-- PEER_REQUEST: served when an export entry covers the address, names the source node and holds its epoch; otherwise
dropped and counted, and the sender receives PEER_RETIRED. It carries the colour of its command (R270). -/
def execPeerRequest (src epoch addr : Nat) (ask : PeerAsk) (s : State) : Out :=
  let r : PeerWait := { src := src, addr := addr, asid := ask.asid, colour := ask.colour, op := ask.op }
  if s.host.ready = false then .next s
  else if !s.fab.serves src epoch addr then .next ((s.modFab (fun f => f.dropped addr)).answer r (.status causePeerRetired))
  else
    match s.serve r with
    | some t => .next t
    | none => .next (s.modFab (fun f => { f with waiting := f.waiting ++ [r] }))

/-- The tagged atomics that wait are served, oldest first, each as far as it finds a tuple free (R324). -/
def State.serveWaiting (s : State) : State :=
  s.fab.waiting.foldl (fun s r =>
    match s.serve r with
    | some t => t
    | none => s.modFab (fun f => { f with waiting := f.waiting ++ [r] }))
    (s.modFab (fun f => { f with waiting := [] }))

/-! Time limits (R232, R323, R324, R327). -/

/-- Whether an instruction is an atomic when its address lies in a peer window: a flat atomic, or the OR of DONE (R260,
R323). -/
def remoteAtomic (i : Instr) : Bool :=
  (atomicArgs i).isSome || (match i with | .done .. => true | _ => false)

/-- REMOTE_ATOMIC_TIMEOUT: no response within 2 ms of sending. -/
def execRemoteAtomicTimeout (c id : Nat) (s : State) : Out :=
  match (s.core c).pgeOf id with
  | some p =>
    (match p.sentAt with
      | some t =>
        if remoteAtomic p.ins = false ∨ p.prog.over = true ∨ p.result.isSome = true ∨ s.host.clock < t + 2000000 then .next s
        else .next (s.endPge c id causeAtomicUnknown (s.requestVa c p 0))
      | none => .next s)
  | none => .next s

/-- TAG_TUPLE_EXPIRY: a tuple is kept for 4 ms, and what waits for its place is served. -/
def execTagTupleExpiry (i : Nat) (s : State) : Out :=
  match s.flat.tuples[i]? with
  | some t =>
    if t.at' + tupleLife ≤ s.host.clock then
      .next (s.modFlat (fun f => { f with tuples := f.tuples.eraseIdx i })).serveWaiting
    else .next s
  | none => .next s

/-- Whether round 4 has ended, counted from the clearing of V (R327). -/
def retired (closed : Option Nat) (clock : Nat) : Bool :=
  match closed with
  | some t => decide (t + 400000 ≤ clock)
  | none => false

/-- PEER_RETIRE_TIMEOUT: requests still unanswered at the end of round 4, counted from the clearing of V: those that stood then. A
window that stays closed has no others. -/
def execPeerRetireTimeout (w : Fin 128) (s : State) : Out :=
  let all := retired (s.fab.window w.val).closedAt s.host.clock
  let mine (k : FabPacket) : Bool := decide (k.window = w.val) && (all || retired k.closed s.host.clock)
  if !all && !s.fab.ports.any (fun e => (e.2.queue ++ e.2.retry ++ e.2.flight).any mine) then .next s
  else
      let sent := s.fab.ports.flatMap (fun (e : Nat × Port) => (e.2.flight ++ e.2.retry).filter mine)
      let queued := s.fab.ports.flatMap (fun (e : Nat × Port) => e.2.queue.filter mine)
      let s := s.modFab (fun f => { f with ports := f.ports.map (fun (e : Nat × Port) => (e.1, { e.2 with
        queue := e.2.queue.filter (fun k => !mine k)
        retry := e.2.retry.filter (fun k => !mine k), flight := e.2.flight.filter (fun k => !mine k) })) })
      let s := sent.foldl (fun s k => s.endPacketAt true causePeerRetired k) s
      let s := queued.foldl (fun s k => s.endPacketAt false causePeerRetired k) s
      .next (if all then s.modFab (fun f => f.modWindow w.val (fun x => { x with out := 0, closedAt := none })) else s)

/-- REPLICA_WRITE_TIMEOUT: a replica that cannot be written within 2 µs of the lock is written poisoned and unlocked. -/
def execReplicaWriteTimeout (i die : Nat) (s : State) : Out :=
  match s.flat.rmWrites[i]? with
  | some w =>
    if w.dies.contains die && decide (w.since + 2000 ≤ s.host.clock) then .next (s.updateReplica i die true) else .next s
  | none => .next s

end Sys2Proof.Machine
end

