-- ==== Sys2Proof/Machine/MatrixWork.lean ====
section
/-! DEFINITION. What the joint matrix array and the Cask units do with matrix commands: which command starts, suspends or
takes effect, the k-steps of MMUL, the outputs of MCORR and MSPLIT, and the join (R107, R108, R120 to R122, R190 to R212,
R380 to R383, R445). -/

namespace Sys2Proof.Machine

open Sys2Proof

/-! Commands and planes. -/

/-- Changes a matrix command. -/
def State.modMx (s : State) (c id : Nat) (f : MxCmd → MxCmd) : State :=
  s.modCore c (fun x => { x with mx := x.mx.map (fun m => if m.id = id then f m else m) })

/-- The matrix command of a number. -/
def Core.mxOf (x : Core) (id : Nat) : Option MxCmd := x.mx.find? (fun m => m.id = id)

/-- A command's work has ended. -/
def State.endMx (s : State) (c id status : Nat) (addr : Word64) : State :=
  s.modMx c id (fun m => { m with phase := .ended status addr })

/-- The party that a command's flat accesses belong to. -/
def MxCmd.who (m : MxCmd) (c : Nat) : Who := { core := c, cmd := m.id, sup := m.sup, colour := m.colour, asid := m.asid }

/-- A slice's plane. -/
def Cluster.plane (k : Cluster) (act : Bool) (i : Nat) : Plane := (if act then k.active else k.shadow).get {} i

/-- Replaces a slice's plane. -/
def Cluster.setPlane (k : Cluster) (act : Bool) (i : Nat) (p : Plane) : Cluster :=
  if act then { k with active := k.active.set {} i p } else { k with shadow := k.shadow.set {} i p }

/-- A weight block in W as a plane with its latch (R195): metadata of narrow types and of groups, column sums of integers. -/
def Core.loadPlane (x : Core) (ot : ElemType) (grp : GroupSize) (off : Nat) : Plane :=
  let raw (i : Nat) : Nat := x.elemAt .w ot off i
  let at' := off + 256 * ot.bits / 8
  { wts := (upFrom 0 256).foldl (fun m i => m.set 0 i (raw i)) []
    latch :=
      { ty := ot, grp := grp
        meta' :=
          if isNarrow ot then (upFrom 0 16).map (fun j => x.ld .w (at' + j) 1)
          else if grp = .none then []
          else (upFrom 0 16).map (fun j => x.ld .w (at' + 4 * j) 4)
        sums :=
          if ot.isFloat then []
          else (upFrom 0 16).map (fun j => ((upFrom 0 16).map (fun k => decodeInt ot (raw (16 * j + k)))).foldl (· + ·) 0) } }

/-- Loads a command's block at an offset into the planes of the slices, each from its own core's W; the core and address of
the first poisoned line otherwise (R134, R192). -/
def State.loadPlanes (s : State) (k : Nat) (act : Bool) (slices : List Nat) (ot : ElemType) (grp : GroupSize) (off : Nat) :
    Except (Nat × Nat) State :=
  match slices.find? (fun i => ((s.core (coreOfSlice k i)).poisonAt .w off (blockLen ot grp)).isSome) with
  | some i => .error (coreOfSlice k i, ((s.core (coreOfSlice k i)).poisonAt .w off (blockLen ot grp)).getD 0)
  | none => .ok (slices.foldl (fun s i =>
      s.modCluster k (fun x => x.setPlane act i ((s.core (coreOfSlice k i)).loadPlane ot grp off))) s)

/-! Which command starts (R193, R202, R203). -/

/-- Whether a command waits at the array. -/
def MxCmd.waits (m : MxCmd) : Bool :=
  match m.phase with
  | .queued | .suspended => true
  | _ => false

/-- Whether a command's guard is resolved. -/
def MxCmd.resolved (m : MxCmd) : Bool :=
  match m.bind with
  | .val _ => true
  | .slot _ => false

/-- The effective priority of a waiting command. -/
def MxCmd.effective (m : MxCmd) (cycle : Nat) : Nat := min 3 (priOf m.ins + (cycle - m.since) / 4096)

/-- Whether a command is at the head of its context's sequence: no earlier one of the context waits. -/
def State.heads (s : State) (c : Nat) (m : MxCmd) : Bool :=
  !(s.core c).mx.any (fun q => q.ctx = m.ctx && decide (q.id < m.id) && q.waits)

/-- Whether an MGANG that reached the array before a command has still to take effect (R193). -/
def State.behindGang (s : State) (k : Nat) (m : MxCmd) : Bool :=
  (s.arrayCmds k).any (fun q => isMgang q.2.ins && decide (q.2.arrival < m.arrival) && decide (q.2.phase = .queued))

/-- Whether a command competes for the slices: it waits at the head of its sequence, resolved, behind no MGANG, and no acquire of
its context holds it (R203, R238). -/
def State.competes (s : State) (k c : Nat) (m : MxCmd) : Bool :=
  m.waits && m.resolved && s.heads c m && !s.behindGang k m && !isMgang m.ins && !s.acquiring c m.ctx m.id

/-- Slices that a command of core c needs. -/
def MxCmd.needs (m : MxCmd) (c : Nat) : List Nat := slicesOf m.ins (sliceOf c)

/-- Whether two commands need a common slice. -/
def shares (a b : List Nat) : Bool := a.any (fun i => b.contains i)

/-- Whether a command may start now, or be discarded (R180, R193, R202, R203). An acquire of its context holds it back (R238). -/
def State.mayStart (s : State) (c : Nat) (m : MxCmd) : Bool :=
  let k := clusterOf c
  let all := s.arrayCmds k
  m.waits && m.resolved && s.heads c m &&
    (decide (m.bind = .val false) || !s.acquiring c m.ctx m.id &&
      (if isMgang m.ins then !all.any (fun q => decide (q.2.arrival < m.arrival))
      else
        !s.behindGang k m &&
        !all.any (fun q => decide (q.2.phase = .running) && shares (q.2.needs q.1) (m.needs c)) &&
        !all.any (fun q => decide (q.2.arrival ≠ m.arrival) && s.competes k q.1 q.2 && shares (q.2.needs q.1) (m.needs c) &&
          decide (m.effective s.cycle < q.2.effective s.cycle ∨
            (m.effective s.cycle = q.2.effective s.cycle ∧ q.2.arrival < m.arrival)))))

/-! Starting. -/

/-- Status and address of a failed check made again at the start (R381). -/
def startFault (r : Except Stop Unit) : Option (Nat × Word64) :=
  match r with
  | .error (.trap k a) => some (k, a)
  | _ => none

/-- What an MMUL that begins fails with: an extent, its STRIDE, or a latch that does not match (R199, R381). -/
def State.mmulFault (s : State) (c : Nat) (m : MxCmd) (x : MmulArgs) : Option (Nat × Word64) :=
  let k := s.cluster (clusterOf c)
  let deep := k.deep
  if !mmulStrideOk x deep then some (causeGang, 0)
  else
    match startFault (mmulExtents x deep m.va m.vb) with
    | some f => some f
    | none =>
      if x.st && (m.needs c).any (fun i => (k.plane true i).latch.ty ≠ x.ot || (k.plane true i).latch.grp ≠ x.grp)
      then some (causeGang, 0) else none

/-- Nodes of a chain from D up to A, A excluded (R208). -/
def AddrSpace.chain (sp : AddrSpace) (d a : Nat) : List Nat := d :: ((sp.ancestors d sp.fuel).takeWhile (fun i => i ≠ a))

/-- Blocks that rows FIRST to FIRST + ROWS − 1 of a node touch. -/
def corrBlocks (n : Node) (img : List Byte) : List Nat :=
  let row := n.cols * (n.fmt.bits / 8)
  let lo := corrFirst img * row / 4096
  upFrom lo ((((corrFirst img + corrRows img) * row) - 1) / 4096 - lo + 1)

/-- What an MCORR fails with when its chain is gone. -/
def State.chainFault (s : State) (m : MxCmd) : Option (Nat × Word64) :=
  let sp := s.space m.asid
  if sp.valid (corrD m.img) = none then some (causeLinHandle, (corrD m.img).zeroExtend 64)
  else if !sp.isAncestor (handleIdx (corrA m.img)) (handleIdx (corrD m.img))
  then some (causeLinHandle, (corrA m.img).zeroExtend 64)
  else none

/-- What an MCORR that begins fails with: a chain that is gone, or an X entry on it (R208). -/
def State.mcorrFault (s : State) (m : MxCmd) : Option (Nat × Word64) :=
  let sp := s.space m.asid
  let d := handleIdx (corrD m.img)
  match s.chainFault m with
  | some f => some f
  | none =>
    match (sp.chain d (handleIdx (corrA m.img))).find? (fun i => (corrBlocks (sp.node d) m.img).any (fun b =>
      match (sp.node i).entry b with | .xor .. => true | _ => false)) with
    | some i => some (causeLinKind, (sp.node i).handle.zeroExtend 64)
    | none => none

/-- Slice and column of the i-th hot row of a map, as one number 16 × slice + column. -/
def placeOf (b : Nat) : Nat := b / 16 % 8 * 16 + b % 16

/-- Whether a bound map is consistent in a geometry (R210). -/
def mapConsistent (img : List Byte) (deep : Bool) : Bool :=
  let h := (splitHots img).length
  let ps := (upFrom 0 h).map (fun i => placeOf (splitPlace img i))
  decide (h ≤ outputsOf deep true) && decide (ps.eraseDups.length = h) && (!deep || ps.all (fun p => decide (p < 16)))

/-- What an MSPLIT that begins fails with (R212). -/
def State.msplitFault (s : State) (c : Nat) (m : MxCmd) (x : MsplitArgs) : Option (Nat × Word64) :=
  let k := s.cluster (clusterOf c)
  if splitK m.img < 1 ∨ depthOf k.deep true < splitK m.img then some (causeProt, w64 (splitHeat m.img))
  else
    let named := if k.deep then (if splitHots m.img = [] then [] else upFrom 0 8)
      else (upFrom 0 (splitHots m.img).length).map (fun i => placeOf (splitPlace m.img i) / 16)
    if !mapConsistent m.img k.deep ||
        named.any (fun i => (k.plane true i).latch.ty ≠ x.ty || decide ((k.plane true i).latch.grp ≠ .none))
    then some (causeGang, 0) else none

/-- A command's checks as it begins. -/
def State.startFails (s : State) (c : Nat) (m : MxCmd) : Option (Nat × Word64) :=
  match m.fail with
  | some f => some f
  | none =>
    match m.ins with
    | .mmul x => s.mmulFault c m x
    | .mcorr _ => s.mcorrFault m
    | .msplit x => s.msplitFault c m x
    | _ => none

/-- Starts or resumes a command whose turn it is: MLDS, MSWAP and MGANG take their whole effect (R193, R196, R197). -/
def State.startMx (s : State) (c : Nat) (m : MxCmd) : State :=
  let k := clusterOf c
  let run := s.modMx c m.id (fun q => { q with phase := .running, prio := m.effective s.cycle })
  if m.bind = .val false then s.endMx c m.id stDiscarded 0
  else if m.phase = .suspended then run
  else
    match s.startFails c m with
    | some (f, a) => s.endMx c m.id f a
    | none =>
      match m.ins with
      | .mlds act grp ot gang _ _ _ woff =>
        (match s.loadPlanes k act (if gang then upFrom 0 8 else [sliceOf c]) ot grp woff.toNat with
          | .ok t => t.endMx c m.id stOk 0
          | .error (d, a) => s.contain d m.pc (w64 a))
      | .mswap .. =>
        ((m.needs c).foldl (fun s i => s.modCluster k (fun x =>
          (x.setPlane true i (x.plane false i)).setPlane false i (x.plane true i))) s).endMx c m.id stOk 0
      | .mgangWide .. => (s.modCluster k (fun x => { x with deep := false })).endMx c m.id stOk 0
      | .mgangDeep .. => (s.modCluster k (fun x => { x with deep := true })).endMx c m.id stOk 0
      | i => run.modMx c m.id (fun q => { q with deep := gangOf i && (s.cluster k).deep })

/-- MATRIX_COMMAND_START: the command of a number starts, if it may (R202, R203). -/
def execMatrixCommandStart (c id : Nat) (s : State) : Out :=
  match (s.core c).mxOf id with
  | some m => .next (if s.mayStart c m then s.startMx c m else s)
  | none => .next s

/-- Whether a running MMUL stands at a boundary between k-steps, and between groups (R203). -/
def MxCmd.atBoundary (m : MxCmd) (x : MmulArgs) : Bool :=
  let nv := x.nvec.toNat
  let done := m.pos / nv * depthOf m.deep x.gang
  !x.st && decide (0 < m.pos ∧ m.pos % nv = 0) && decide (grpElems x.grp = 0 ∨ done % grpElems x.grp = 0)

/-- Whether a running command stands at a boundary and a waiting command of strictly higher effective priority needs a slice that it
holds (R203). -/
def State.suspendDue (s : State) (c : Nat) (m : MxCmd) : Bool :=
  decide (m.phase = .running) && (match m.ins with | .mmul x => m.atBoundary x | _ => false) &&
  (s.arrayCmds (clusterOf c)).any (fun q =>
    s.competes (clusterOf c) q.1 q.2 && shares (q.2.needs q.1) (m.needs c) && decide (m.prio < q.2.effective s.cycle) &&
      decide (q.2.bind = .val true))

/-- MATRIX_SUSPEND: a waiting command of strictly higher effective priority suspends a running one at its boundary, beyond which
that one does not go (R203). -/
def execMatrixSuspend (c id : Nat) (s : State) : Out :=
  match (s.core c).mxOf id with
  | some m =>
    .next (if s.suspendDue c m then s.modMx c id (fun q => { q with phase := .suspended, since := s.cycle }) else s)
  | none => .next s

/-! Lines (R200, R204, R279). -/

/-- Whether an earlier command of the context has still to finish writing C lines that a write touches (R204). -/
def State.earlierWrites (s : State) (c : Nat) (m : MxCmd) (a n : Nat) : Bool :=
  (s.core c).mx.any (fun q => q.ctx = m.ctx && decide (q.id < m.id) && (match q.phase with | .ended .. => false | _ => true) &&
    shares (linesOf .c q.outputs.1 q.outputs.2) (linesOf .c a n))

/-- What must come before a piece of work that reads A lines, writes C bytes and ends the reading of lines: the state after
observing one line's tags, the same state when it must wait, or nothing when the piece may go on (R200, R204). A write, and a
change of U, of a line that is still to be drained wait; for an old command's last read the line counts as pending until then,
and it does not wait, nor does an old command's write of C lines that old commands have still to read (R276, R279; DEDUCED, log 24).
In a failing team tag waits have ended (R304; DEDUCED, log 52). -/
def State.observe (s : State) (c : Nat) (m : MxCmd) (ins : List Nat) (a n : Nat) (ends : List Nat) : Option State :=
  let x := s.core c
  let any (ok : Bool) : Bool := ok || s.failing c
  let sees (l : Nat) : State := s.modMx c m.id (fun q => { q with seen := insertNat l q.seen })
  let next : Option (Nat × Bool) :=
    if !m.tags.1 then none
    else
      match ins.find? (fun l => !m.seen.contains l) with
      | some l => some (l, any (s.mayRead c l (c, m.id)))
      | none =>
        match (linesOf .c a n).find? (fun l => !m.seen.contains l) with
        | some l => some (l, any (s.mayWrite c l (c, m.id)))
        | none => none
  match next with
  | some (l, ok) => some (if ok then sees l else s)
  | none =>
    let mine (l : Nat) : Bool := x.mx.any (fun q => q.colour != x.colour && q.begun && q.readsC.contains l)
    if (linesOf .c a n).any (fun l => x.drain.contains l && !(m.colour != x.colour && mine l)) || s.earlierWrites c m a n ||
        (m.tags.2 && m.colour == x.colour && ends.any (fun l => x.drain.contains l)) then some s
    else none

/-- Writes bytes of C for a command; an old command's write after the cut is recorded (R278). -/
def State.putOutputs (s : State) (c : Nat) (m : MxCmd) (a : Nat) (bs : List Byte) (bad : Bool) : State :=
  (s.modCore c (fun x =>
    let y := x.stBytes .c a bs
    if bad then y.markPoison .c a bs.length else y)).infl c m.colour (.store c .c a bs none none)
    [s.coreName c, 1, spaceCode .c, a, bs.length, 0] bs

/-- Marks A lines spent after their last read, and lets them go (R129, R200). -/
def State.spendLines (s : State) (c : Nat) (m : MxCmd) (ls : List Nat) : State :=
  if m.tags.2 then
    (ls.foldl (fun s l => s.modCore c (fun x => x.markSpent l)) s).modMx c m.id (fun q => { q with
      seen := q.seen.filter (fun l => !ls.contains l) })
  else s

/-- A command has written n bytes of its outputs at C address a for the first time, and those before them: P is cleared on the lines
there that it has now covered whole with clean data (R134). -/
def State.cleanOutputs (s : State) (c : Nat) (m : MxCmd) (a n : Nat) : State :=
  (linesOf .c a n).foldl (fun s l =>
    let t := (s.core c).tag l
    if t.p ∧ m.outputs.1 ≤ lineAddr l ∧ lineAddr l + 256 ≤ a + n ∧ ¬ m.badLines.contains l then
      s.modCore c (fun x => x.setTag l { t with p := false })
    else s) s

/-- The output lines when a command has written its last: full (R200). An old command's record after the cut carries their tags
(R278). -/
def State.closeOutputs (s : State) (c : Nat) (m : MxCmd) : State :=
  (linesOf .c m.outputs.1 m.outputs.2).foldl (fun s l =>
    let x := s.core c
    let t := x.tag l
    let t := if m.tags.2 then { t with v := true, u := false } else t
    let s := if t = x.tag l then s else s.modCore c (fun x => x.setTag l t)
    s.infl c m.colour (.store c .c (lineAddr l) [] (some t) none) [s.coreName c, 1, spaceCode .c, lineAddr l, 0, 0] []) s

/-! The products of a k-step (R107, R108, R120, R121). -/

/-- A weight of a plane as an exact value, under its column's scale (R106). -/
def Plane.num (p : Plane) (j k : Nat) : Num :=
  let v := decodeElem p.latch.ty (p.wts.get 0 (16 * j + k))
  if isNarrow p.latch.ty then scaled v (p.latch.meta'.getD j 0) else v

/-- The element and value at an input position of an activation vector at local address `base` with K inputs. -/
def Core.actElem (x : Core) (ty : ElemType) (base p : Nat) : Nat := x.elemAt .a ty base p

def Core.actNum (x : Core) (ty : ElemType) (base k p : Nat) : Num :=
  let v := decodeElem ty (x.actElem ty base p)
  if isNarrow ty then scaled v (x.ld .a (base + metaOffset ty k + p / 32) 1) else v

/-- Scale and zero point of a group record (R107); s = 1 and z = 0 without one. -/
def recordOf (ty : ElemType) (r : Option Nat) : Num × Int :=
  match r with
  | none => (.fin false 1 0, 0)
  | some v => (decodeFloat .fp16 (v % 2 ^ 16), decodeInt ty (v / 2 ^ 16 % 2 ^ ty.bits))

/-- rne32(rne32(sw·sa) × rne32(S)) with its flags, and whether S was saturated (R108). -/
def groupTerm (sw sa : Num) (sum : Int) : Nat × Flags × Bool :=
  let lim : Int := 2 ^ 31 - 1
  let t := max (-lim) (min lim sum)
  let (p, f1) := mulNum sw sa
  let (a, f2) := rne32 p
  let (b, f3) := rne32 (Num.ofInt t)
  let (q, f4) := mulNum (val32 a) (val32 b)
  let (v, f5) := rne32 q
  (v, f1 ||| f2 ||| f3 ||| f4 ||| f5, decide (t ≠ sum))

/-- An output under way: its FP32 value, if a first term has been written, the four sums of a group under way (Σ qw·qa,
Σ qa, Σ qw, count), the flags and SAT so far, and whether it has changed. -/
structure OutAcc where
  cur : Option Nat
  part : List Int
  flags : Flags := noFlags
  sat : Bool := false
  changed : Bool := false

/-- Adds a term to an output; the first is written. -/
def OutAcc.add (o : OutAcc) (t : Nat) (f : Flags) : OutAcc :=
  match o.cur with
  | none => { o with cur := some t, flags := o.flags ||| f, changed := true }
  | some v =>
    let (w, g) := add32 v (val32 t)
    { o with cur := some w, flags := o.flags ||| f ||| g, changed := true }

/-- One run of positions of an integer output: `ws` and `xs` are the elements, `ends` tells that the group ends here. -/
def OutAcc.run (o : OutAcc) (ws xs : List Int) (qw : Int) (ends : Bool) (wrec arec : Num × Int) : OutAcc :=
  let a := (ws.zip xs).foldl (fun t p => t + p.1 * p.2) (o.part.getD 0 0)
  let b := xs.foldl (· + ·) (o.part.getD 1 0)
  let w := o.part.getD 2 0 + qw
  let n := o.part.getD 3 0 + xs.length
  if ends then
    let (t, f, sat) := groupTerm wrec.1 arec.1 (a - wrec.2 * b - arec.2 * w + n * wrec.2 * arec.2)
    { (o.add t f) with part := [], sat := o.sat || sat }
  else { o with part := [a, b, w, n] }

/-- The slices that feed output o of a command, and its column (R191). -/
def outSlices (gang deep : Bool) (own o : Nat) : List Nat × Nat :=
  if !gang then ([own], o) else if deep then (upFrom 0 8, o) else ([o / 16], o % 16)

/-- One k-step of one output. `plane` gives a slice's plane; `base` is the vector's address. -/
def mmulOutput (core : Core) (x : MmulArgs) (deep : Bool) (own : Nat) (plane : Nat → Plane) (base j o : Nat) (acc : OutAcc) : OutAcc :=
  let (sl, col) := outSlices x.gang deep own o
  let depth := depthOf deep x.gang
  let k := mmulInputs x deep
  let p0 := j * depth
  if x.ot.isFloat then
    let xs := (upFrom p0 depth).map (core.actNum x.at' base k)
    let ws := sl.flatMap (fun i => (upFrom 0 16).map ((plane i).num col))
    let (t, f) := blockSum (ws.zip xs)
    acc.add t f
  else
    let g := grpElems x.grp
    let per := if g = 0 then sl.length else min sl.length (g / 16)
    (upFrom 0 (sl.length / per)).foldl (fun acc r =>
      let mine := (sl.drop (r * per)).take per
      let start := p0 + 16 * r * per
      let stop := start + 16 * per
      let ws := mine.flatMap (fun i => (upFrom 0 16).map (fun q => decodeInt (plane i).latch.ty ((plane i).wts.get 0 (16 * col + q))))
      let xs := (upFrom start (16 * per)).map (fun p => decodeInt x.at' (core.actElem x.at' base p))
      let qw := (mine.map (fun i => (plane i).latch.sums.getD col 0)).foldl (· + ·) 0
      let last := plane (mine.getLastD 0)
      let wrec := recordOf x.ot (if g = 0 then none else some (last.latch.meta'.getD col 0))
      let arec := recordOf x.at' (if g = 0 then none
        else some (core.ld .a (base + metaOffset x.at' k + 4 * (start / g)) 4))
      acc.run ws xs qw (decide (g = 0 ∨ stop % g = 0 ∨ stop = k)) wrec arec) acc

/-- Lines of A that k-step j reads of vector v. -/
def stepLines (m : MxCmd) (x : MmulArgs) (j v : Nat) : List Nat :=
  let base := m.va.toNat + v * x.stride.toNat
  let k := mmulInputs x m.deep
  let d := depthOf m.deep x.gang
  let p := j * d
  let lo := p * x.at'.bits / 8
  let hi := ((p + d) * x.at'.bits + 7) / 8
  let mo := metaOffset x.at' k
  let g := grpElems x.grp
  unionNat [] (linesOf .a (base + lo) (hi - lo) ++
    (if isNarrow x.at' then linesOf .a (base + mo + p / 32) ((p + d - 1) / 32 - p / 32 + 1)
    else if g ≠ 0 then linesOf .a (base + mo + 4 * (p / g)) (4 * ((p + d - 1) / g - p / g + 1))
    else []))

/-- Lines whose last read by the command is that of k-step j and vector v. -/
def lastReads (m : MxCmd) (x : MmulArgs) (j v : Nat) : List Nat :=
  let nv := x.nvec.toNat
  let later := (upFrom 0 nv).flatMap (fun w => if v < w then restLines m x j w else restLines m x (j + 1) w)
  (stepLines m x j v).filter (fun l => !later.contains l)

/-- The first address in a list of A lines with P set. -/
def Core.badLine (x : Core) (ls : List Nat) : Option Nat := (ls.find? (fun l => (x.tag l).p)).map lineAddr

/-- One vector through one k-step of a running MMUL (R199). Every read of C, for ACC or for the partial sums of a later k-step, meets
its poison (R134; DEDUCED, log 64). -/
def State.mmulStep (s : State) (c : Nat) (m : MxCmd) (x : MmulArgs) : State :=
  let nv := x.nvec.toNat
  let j := m.pos / nv
  let v := m.pos % nv
  let k := clusterOf c
  let n := mmulOutputs x m.deep
  let a := m.vb.toNat + 4 * n * v
  let base := m.va.toNat + v * x.stride.toNat
  let reads := stepLines m x j v
  match s.observe c m reads a (4 * n) (lastReads m x j v) with
  | some t => t
  | none =>
    match (s.core c).badLine reads with
    | some p => s.contain c m.pc (w64 p)
    | none =>
      let written := readsBack m x j
      match (if written then (s.core c).poisonAt .c a (4 * n) else none) with
      | some p => s.contain c m.pc (w64 p)
      | none =>
        match (if !x.st && decide (v = 0) then
            s.loadPlanes k false (m.needs c) x.ot x.grp (x.woff.toNat + j * blockLen x.ot x.grp)
          else .ok s) with
        | .error (d, p) => s.contain d m.pc (w64 p)
        | .ok s =>
          let core := s.core c
          let outs := (upFrom 0 n).map (fun o =>
            mmulOutput core x m.deep (sliceOf c) ((s.cluster k).plane x.st) base j o
              { cur := if written then some (core.ld .c (a + 4 * o) 4) else none, part := m.acc.get [] (v * n + o) })
          let fl := outs.foldl (fun f o => f ||| o.flags) m.flags
          let sat := m.sat || outs.any (·.sat)
          let s := if outs.any (·.changed) then
              let t := s.putOutputs c m a (outs.flatMap (fun o => leBytes 4 (o.cur.getD 0))) false
              if written then t else t.cleanOutputs c m a (4 * n)
            else s
          let s := s.spendLines c m (lastReads m x j v)
          let s := s.modMx c m.id (fun q => { q with
            pos := q.pos + 1, flags := fl, sat := sat
            acc := (outs.zipIdx).foldl (fun acc o => acc.set [] (v * n + o.2) o.1.part) q.acc })
          if nv * x.ksteps.toNat ≤ m.pos + 1 then (s.closeOutputs c m).endMx c m.id stOk 0 else s

/-! Outputs of MCORR and MSPLIT, two at a time: one aligned 8-byte unit of C (R204, R208, R212). -/

/-- A newly formed output: its term, the flags of forming it, and the address of the first affected sector (R445). -/
structure Term where
  val : Nat
  flags : Flags
  bad : Option Word64

/-- Adds a formed term to the output's old value, or writes it. -/
def Term.into (t : Term) (acc : Bool) (old : Nat) : Nat × Flags :=
  if acc then
    let (v, f) := add32 old (val32 t.val)
    (v, t.flags ||| f)
  else (t.val, t.flags)

/-- Puts a unit of formed outputs into C at address a, and counts the unit done. -/
def State.putTerms (s : State) (c : Nat) (m : MxCmd) (acc : Bool) (rows a : Nat) (ts : List Term) : State :=
  let core := s.core c
  let vals := (ts.zipIdx).map (fun t => t.1.into acc (core.ld .c (a + 4 * t.2) 4))
  let bad := (ts.find? (fun t => t.bad.isSome)).bind (·.bad)
  let s := s.putOutputs c m a (vals.flatMap (fun v => leBytes 4 v.1)) false
  let s := if bad.isSome then s.modCore c (fun x => x.markPoison .c a (4 * ts.length)) else s
  s.modMx c m.id (fun q => { q with
    pos := q.pos + 1, flags := vals.foldl (fun f v => f ||| v.2) q.flags
    badAddr := match q.badAddr with | some b => some b | none => bad
    badRows := (ts.zipIdx).foldl (fun l t =>
      if t.1.bad.isSome then insertNat ((2 * m.pos + t.2) % rows) l else l) q.badRows
    badLines := if bad.isSome then unionNat q.badLines (linesOf .c a (4 * ts.length)) else q.badLines })

/-- Resolved blocks of D and A that row r covers, and whether an entry between them adds anything. -/
structure RowBlocks where
  blk : Nat
  own : Bool
  d : Block
  a : Block

/-- The blocks of row r for an MCORR. -/
def AddrSpace.rowBlocks (sp : AddrSpace) (d a r : Nat) : List RowBlocks :=
  let n := sp.node d
  let row := n.cols * (n.fmt.bits / 8)
  let lo := r * row / 4096
  (upFrom lo (((r + 1) * row - 1) / 4096 - lo + 1)).map (fun b =>
    { blk := b
      own := (sp.chain d a).any (fun i => decide ((sp.node i).entry b ≠ .inherit) || decide ((sp.node i).kind = .lowrank))
      d := sp.block d b, a := sp.block a b })

/-- d[k] of R208 for row r: exact differences with the flags of forming them (R118), and whether a poisoned sector was met. -/
def AddrSpace.rowDiff (sp : AddrSpace) (d a r : Nat) : List (Num × Flags) × Bool :=
  let n := sp.node d
  let per := 4096 / (n.fmt.bits / 8)
  let bs := sp.rowBlocks d a r
  let elems := upFrom (r * n.cols) n.cols
  let at' (e : Nat) : Option RowBlocks := bs.find? (fun b => b.blk = e / per)
  (elems.map (fun e =>
    match at' e with
    | some b =>
      if b.own then
        sumNum .rne [decodeElem n.fmt (elemAt n.fmt b.d.1 (e % per)), (decodeElem n.fmt (elemAt n.fmt b.a.1 (e % per))).neg]
      else (.fin false 0 0, noFlags)
    | none => (.fin false 0 0, noFlags)),
    elems.any (fun e =>
      match at' e with
      | some b => b.d.2.contains (elemSector n.fmt (e % per)) || b.a.2.contains (elemSector n.fmt (e % per))
      | none => false))

/-- The value that an affected output takes, and an address that the manual does not give: free values (R445; DESIGN CHOICE, log 4). -/
def State.affected (s : State) (addr : Option Word64) : Term × State :=
  let (v, s) := s.free
  let (a, s) := match addr with | some a => (a, s) | none => s.free
  ({ val := v.toNat % 2 ^ 32, flags := noFlags, bad := some a }, s)

/-- The term of output n of an MCORR: vector n div ROWS, row FIRST + n mod ROWS. -/
def State.corrTerm (s : State) (c : Nat) (m : MxCmd) (x : McorrArgs) (n : Nat) : Term × State :=
  let sp := s.space m.asid
  let rows := corrRows m.img
  let d := handleIdx (corrD m.img)
  let base := m.va.toNat + n / rows * x.stride.toNat
  let k := (sp.node d).cols
  let (diff, bad) := sp.rowDiff d (handleIdx (corrA m.img)) (corrFirst m.img + n % rows)
  if bad then s.affected none
  else
    let xs := (upFrom 0 k).map ((s.core c).actNum x.ty base k)
    let (v, f) := caskDot ((diff.map (·.1)).zip xs)
    ({ val := v, flags := diff.foldl (fun g d => g ||| d.2) f, bad := none }, s)

/-- The term of output n of an MSPLIT; none when a cold row must wait at its home. -/
def State.splitTerm (s : State) (c : Nat) (m : MxCmd) (x : MsplitArgs) (n : Nat) : Except (Nat × Nat) (Option (Term × State)) :=
  let rows := splitRows m.img
  let r := n % rows
  let k := splitK m.img
  let base := m.va.toNat + n / rows * x.stride.toNat
  let xs := (upFrom 0 k).map ((s.core c).actNum x.ty base k)
  if splitHot m.img r then
    let p := placeOf (splitPlace m.img ((splitHots m.img).takeWhile (fun q => q ≠ r)).length)
    let sl := if m.deep then upFrom 0 8 else [p / 16]
    let ws := sl.flatMap (fun i => (upFrom 0 16).map (((s.cluster (clusterOf c)).plane true i).num (p % 16)))
    let (v, f) := blockSum (ws.zip (xs ++ List.replicate (ws.length - k) (.fin false 0 0)))
    .ok (some ({ val := v, flags := f, bad := none }, s))
  else
    let va := splitWaddr m.img + 256 * r
    match s.readRun c m.sup .read va (2 * k) with
    | .fault e a => .error (e, a)
    | .stall => .ok none
    | .ok bs none t =>
      let t := t.countIfOld m.asid 2 2 m.colour
      let ws := (upFrom 0 k).map (fun i => decodeElem x.ty (leNat ((bs.drop (2 * i)).take 2)))
      let (v, f) := caskDot (ws.zip xs)
      .ok (some ({ val := v, flags := f, bad := none }, t))
    | .ok _ (some b) t => .ok (some ((t.countIfOld m.asid 2 2 m.colour).affected (some (w64 (b / 32 * 32)))))

/-- The first address of a C run in a line with P set that the command itself has not marked (R134, R445). -/
def State.accPoison (s : State) (c : Nat) (m : MxCmd) (a n : Nat) : Option Nat :=
  ((linesOf .c a n).find? (fun l => ((s.core c).tag l).p && !m.badLines.contains l)).map (fun l => max a (lineAddr l))

/-- Forms the outputs of one unit and puts them into C; none when a term must wait. -/
def unitTerms (term : State → Nat → Except (Nat × Nat) (Option (Term × State))) :
    List Nat → State → Except (Nat × Nat) (Option (List Term × State))
  | [], s => .ok (some ([], s))
  | n :: r, s =>
    match term s n with
    | .error e => .error e
    | .ok none => .ok none
    | .ok (some (t, s)) =>
      match unitTerms term r s with
      | .ok (some (ts, s)) => .ok (some (t :: ts, s))
      | e => e

/-- The last unit of an MCORR: tags and the end (R200, R445). -/
def State.mcorrEnd (s : State) (c id : Nat) (lines : List Nat) : State :=
  match (s.core c).mxOf id with
  | some m => ((s.spendLines c m lines).closeOutputs c m).endMx c id (if m.badAddr.isSome then causePoison else stOk) (m.badAddr.getD 0)
  | none => s

/-- One unit of outputs of MCORR (R208). -/
def State.mcorrStep (s : State) (c : Nat) (m : MxCmd) (x : McorrArgs) : State :=
  let total := corrRows m.img * x.nvec.toNat
  let a := m.vb.toNat + 8 * m.pos
  let w := min 2 (total - 2 * m.pos)
  let lines := vectorLines m x.ty x.nvec.toNat x.stride.toNat ((s.space m.asid).node (handleIdx (corrD m.img))).cols
  match s.observe c m lines a (4 * w) (if total ≤ 2 * m.pos + 2 then lines else []) with
  | some t => t
  | none =>
    match (s.core c).badLine lines, s.accPoison c m a (4 * w), s.chainFault m with
    | some p, _, _ => s.contain c m.pc (w64 p)
    | _, some p, _ => s.contain c m.pc (w64 p)
    | _, _, some (f, h) => s.endMx c m.id f h
    | _, _, none =>
      match unitTerms (fun s n => .ok (some (s.corrTerm c m x n))) (upFrom (2 * m.pos) w) s with
      | .ok (some (ts, t)) =>
        let t := t.putTerms c m true (corrRows m.img) a ts
        if total ≤ 2 * m.pos + 2 then t.mcorrEnd c m.id lines else t
      | _ => s

/-- One unit of outputs of MSPLIT, hot or cold (R212). -/
def State.msplitStep (s : State) (c : Nat) (m : MxCmd) (x : MsplitArgs) : State :=
  let total := splitRows m.img * x.nvec.toNat
  let a := m.vb.toNat + 8 * m.pos
  let w := min 2 (total - 2 * m.pos)
  let lines := vectorLines m x.ty x.nvec.toNat x.stride.toNat (splitK m.img)
  if splitUnits m x ≤ m.pos then s
  else
    match s.observe c m lines a (4 * w) (if splitUnits m x ≤ m.pos + 1 then lines else []) with
    | some t => t
    | none =>
      match (s.core c).badLine lines, (if x.acc then s.accPoison c m a (4 * w) else none) with
      | some p, _ => s.contain c m.pc (w64 p)
      | _, some p => s.contain c m.pc (w64 p)
      | _, none =>
        match unitTerms (fun s n => s.splitTerm c m x n) (upFrom (2 * m.pos) w) s with
        | .error (f, va) => s.endMx c m.id f (w64 va)
        | .ok none => s
        | .ok (some (ts, t)) =>
          let t := t.putTerms c m x.acc (splitRows m.img) a ts
          let t := if x.acc then t else
            (match (t.core c).mxOf m.id with | some m => t.cleanOutputs c m a (4 * w) | none => t)
          if splitUnits m x ≤ m.pos + 1 then
            (match (t.core c).mxOf m.id with | some m => t.spendLines c m lines | none => t)
          else t

/-- The next piece of a running command's work. -/
def State.mxStep (s : State) (c id : Nat) : State :=
  match (s.core c).mxOf id with
  | some m =>
    if m.phase ≠ .running then s
    else
      match m.ins with
      | .mmul x => if s.suspendDue c m then s else s.mmulStep c m x
      | .mcorr x => s.mcorrStep c m x
      | .msplit x => s.msplitStep c m x
      | _ => s
  | none => s

/-! The join of MSPLIT (R212, R445). -/

/-- How often row r fired: vectors whose output exceeds τ in magnitude. A row with an affected output never fires. -/
def fired (core : Core) (m : MxCmd) (x : MsplitArgs) (r : Nat) : Nat :=
  let rows := splitRows m.img
  let tau := val32 (splitTau m.img)
  ((upFrom 0 x.nvec.toNat).filter (fun v =>
    match cmpNum (val32 (core.ld .c (m.vb.toNat + 4 * (rows * v + r)) 4)).abs tau with
    | some .gt => true
    | _ => false)).length

/-- A read-modify-write of n bytes of the heat table for a join: the new state and whether it was done; or a fault. It waits at
a locked granule (R232). A poisoned sector is left (R342). What stays as it is, is not written. -/
def State.heatWrite (s : State) (c : Nat) (m : MxCmd) (va n : Nat) (f : Nat → Nat) : Except (Nat × Word64) (Bool × State) :=
  match s.xlate c m.sup .both va with
  | .error k => .error (k, w64 va)
  | .ok (e, t) =>
    let pa := e.phys va
    if rangeOf pa ≠ .hbm then .error (causeProt, w64 va)
    else if (t.rmLock pa).isSome then .ok (false, t)
    else if t.hbmPoisoned pa n || t.lostAt (dieOf c) pa n then .error (causePoison, w64 va)
    else .ok (t.changeHbm (m.who c) e va n (fun v => if f v = v then none else some (f v)))

/-- The first poisoned C line that the join reads for row r, beside those that the command has itself marked (R134; DEDUCED,
log 64). -/
def State.rowPoison (s : State) (c : Nat) (m : MxCmd) (x : MsplitArgs) (r : Nat) : Option Nat :=
  (upFrom 0 x.nvec.toNat).findSome? (fun v => s.accPoison c m (m.vb.toNat + 4 * (splitRows m.img * v + r)) 4)

/-- One piece of the join, piece q: tags, then the counter of each row, then COUNT, then the shifts of an automatic ageing.
The counters are updated one by one at their homes (R209). SHIFT is that of the header at the update of COUNT. -/
def State.joinStep (s : State) (c : Nat) (m : MxCmd) (x : MsplitArgs) (q : Nat) : State :=
  let rows := splitRows m.img
  let heat := splitHeat m.img
  let next (t : State) : State := t.modMx c m.id (fun z => { z with pos := z.pos + 1 })
  let done (t : State) : State :=
    if t.rmPending c m.id then s else t.endMx c m.id (if m.badAddr.isSome then causePoison else stOk) (m.badAddr.getD 0)
  let put (va n : Nat) (f : Nat → Nat) : State :=
    match s.heatWrite c m va n f with
    | .error (k, a) => s.endMx c m.id k a
    | .ok (true, t) => next t
    | .ok (false, t) => t
  if q = 0 then next (s.closeOutputs c m)
  else if q ≤ rows then
    let r := q - 1
    if m.badRows.contains r then next s
    else
      match s.rowPoison c m x r with
      | some p => s.contain c m.pc (w64 p)
      | none => put (heat + 64 + 2 * r) 2 (fun v => min (v + fired (s.core c) m x r) 0xFFFF)
  else if q = rows + 1 then
    match s.xlate c m.sup .both (heat + 8) with
    | .error k => s.endMx c m.id k (w64 (heat + 8))
    | .ok (e, t) =>
      let h := t.hbmNum (e.phys heat) 16
      let next' (v : Nat) : Nat := (v + 1) % 2 ^ 24
      let full (v : Nat) : Bool := decide (bits h 63 40 ≠ 0 ∧ bits h 39 32 ≠ 0 ∧ next' v = bits h 63 40)
      let ages : Bool := full (bits h 87 64)
      match s.heatWrite c m (heat + 8) 3 (fun v => if full v then 0 else next' v) with
      | .error (k, a) => s.endMx c m.id k a
      | .ok (true, t) =>
        if ages then next (t.modMx c m.id (fun z => { z with shift := bits h 39 32 }))
        else t.modMx c m.id (fun z => { z with pos := z.pos + 1 + rows })
      | .ok (false, t) => t
  else if q ≤ 2 * rows + 1 then
    put (heat + 64 + 2 * (q - rows - 2)) 2 (fun v => v >>> min m.shift 8)
  else done s

/-- MSPLIT_JOIN: both sides of a split product are done, and the next piece of its join is made (R212). -/
def execMsplitJoin (c id : Nat) (s : State) : Out :=
  match (s.core c).mxOf id with
  | some m =>
    (match m.ins with
      | .msplit x =>
        .next (if m.phase = .running ∧ splitUnits m x ≤ m.pos then s.joinStep c m x (m.pos - splitUnits m x) else s)
      | _ => .next s)
  | none => .next s

end Sys2Proof.Machine
end

