-- ==== Sys2Proof/Machine/Meetings.lean ====
section
/-! DEFINITION. What passes between cores without an engine: the completion of phases and votes, and neighbour reads, with the colours
that these packets carry (R88 to R90, R94, R270, R275, R280, R386). -/

namespace Sys2Proof.Machine

open Sys2Proof

/-- Whether a core has cut for a kiln. -/
def State.hasCut (s : State) (k : Kiln) (c : Nat) : Bool := decide ((s.core c).knum = k.num)

/-- The cores of a domain before their phase completes: where one has cut for the running kiln, its packets are new, and the others cut
before they take the completion (R275). What was sent before is old: the arrivals of those that had not cut and, where none had, the
completions too (R280; DEDUCED, log 128). -/
def State.meet (s : State) (asid : Nat) (ms : List Nat) : State :=
  match (s.job asid).bind Job.running with
  | none => s
  | some k =>
    let late := (ms.filter (fun m => !s.hasCut k m)).length
    if ms.any (s.hasCut k) then (ms.foldl (fun u m => u.cutBefore m (kilnColour k.num)) s).countOldBy asid late late
    else s.countOldBy asid (2 * late) (2 * late)

/-- PHASE_COMPLETION: when every member of an arrival's domain has arrived and its sends are delivered, all of them complete
in one step (R88 to R90, R275). -/
def execPhaseCompletion (c : Nat) (s : State) : Out :=
  match s.teamOf c with
  | some t =>
    match (s.core c).phase.arrivals.find? (s.phaseDone t c) with
    | some a =>
      let d := (s.core c).dom a.level
      let ms := t.domain d
      .next (ms.foldl (fun u m => u.modCore m (fun x => x.completes a (s.combined a d ms))) (s.meet t.asid ms))
    | none => .next s
  | none => .next s

/-! Neighbour reads (R94, R386). -/

/-- The request of a neighbour read reaches a core of the reader's address space, which cuts first where the reader has cut for the
running kiln (R275). -/
def State.askNeighbour (s : State) (c n : Nat) : State :=
  if (s.core n).team.isSome && decide (s.asidOf n = s.asidOf c) then s.cutBefore n (s.core c).colour else s

/-- The whole exchange: the answer cuts the reader where the neighbour has cut (R275), and an old exchange is counted (R280; DEDUCED,
log 128). -/
def State.exchange (s : State) (c n : Nat) : State :=
  if (s.core n).team.isSome && decide (s.asidOf n = s.asidOf c) then
    let t := s.askNeighbour c n
    (t.countIfOld (s.asidOf c) 2 2 (s.core c).colour).cutBefore c (t.core n).colour
  else s

/-- NBRD. A core inside a containment fence answers not ready at once (R307). Each end cuts before it takes what a core that has cut
sends it (R275). -/
def execNbrd (d : Reg) (p : Pred) (dir : Fin 4) (s : State) : Out :=
  finish s (s.me.pc + 8) (
    match neighbour s.curCore dir.val with
    | none => .ok (s.nbrdResult d p false 0)
    | some n =>
      match s.me.held with
      | .neighbourDone r v => .ok ((s.exchange s.curCore n).nbrdResult d p r v)
      | h =>
        let since := match h with | .neighbour c => c | _ => s.cycle
        if s.fenced n then .ok (s.nbrdResult d p false 0)
        else
          let t := s.exchange s.curCore n
          if s.neighbourReady s.curCore n then .ok (t.nbrdResult d p true (s.core n).pub)
          else if s.me.nbtmo.toNat ≤ s.cycle - since then .ok (t.nbrdResult d p false 0)
          else .error (.wait ((s.askNeighbour s.curCore n).modMe (fun x => { x with held := .neighbour since })) none))

/-- NBRD_TIMEOUT: the neighbour has stayed not ready for NBTMO cycles (R94). -/
def execNbrdTimeout (c h : Nat) (s : State) : Out :=
  match ((s.core c).ctx h).held with
  | .neighbour since =>
    if ((s.core c).ctx h).nbtmo.toNat ≤ s.cycle - since then
      .next (s.modCtx c h (fun x => { x with held := .neighbourDone false 0 }))
    else .next s
  | _ => .next s

end Sys2Proof.Machine
end

