-- ==== Sys2Proof/Machine/Fetch.lean ====
section
/-! DEFINITION. Fetching an instruction: the 32-byte block through the instruction cache, the checks of length and span,
and decoding (R51, R52, R69, R71, R73, R146, R147). -/

namespace Sys2Proof.Machine

open Sys2Proof

/-- Blocks that a core's instruction cache of 16 KiB holds (R21). -/
def icacheBlocks : Nat := 512

/-- A block more in a core's instruction cache, which when full gives up the oldest (DESIGN CHOICE, log 12: R21 and R73 do
not say which). -/
def Core.keepBlock (x : Core) (b : IBlock) : Core :=
  let l := x.icache.filter (fun a => !(a.asid = b.asid && a.va = b.va)) ++ [b]
  { x with icache := l.drop (l.length - icacheBlocks) }

/-- The 32-byte block at an address for the context that runs: kept, or read at its home and kept. A locked read-mostly
granule makes the fetch wait; poisoned code is consumed by the core that fetches it (R133, R134, R232). -/
def State.fetchBlock (s : State) (pc va : Nat) : Except Stop (List Byte × State) :=
  match s.xlate s.curCore s.me.sup .fetch va with
  | .error k => .error (.trap k (w64 pc))
  | .ok (e, t) =>
    let asid := s.home.curAsid.toNat
    match s.home.icache.find? (fun b => b.asid = asid && b.va = va) with
    | some b => .ok (b.bytes, t)
    | none =>
      match t.readHbm s.curCore (e.phys va) 32 with
      | .stall => .error (.wait t none)
      | .fault k => .error (.trap k (w64 pc))
      | .ok (bs, poison) =>
        if poison then .error (.poison (w64 pc))
        else
          .ok (bs, t.modHome (fun x => x.keepBlock { asid := asid, va := va, bytes := bs }))

/-- The cause of a word that is no instruction (R51, R53, R56). -/
def decodeCause : DecodeError → Nat
  | .illegalLen => causeIllegalLen
  | .illegalOp => causeIllegalOp
  | .illegalEnc => causeIllegalEnc
  | .truncated => causeFetchSpan

/-- The privileged instructions: RFE, TLBINV, and CSRR and CSRW of supervisor CSRs (R69). -/
def privileged : Instr → Bool
  | .rfe | .tlbinv .. => true
  | .csrr _ n | .csrw _ n => decide (0x100 ≤ n.toNat)
  | _ => false

/-- The instruction at an address of the context that runs, or the first check of R69 that fails, privilege included, with
FADDR holding the address. -/
def State.fetch (s : State) (pc : Nat) : Except Stop (Instr × State) := do
  let (bs, t) ← s.fetchBlock pc (pc / 32 * 32)
  let o := pc % 32
  match lengthOf (leNat ((bs.drop o).take 4)) with
  | none => .error (.trap causeIllegalLen (w64 pc))
  | some n =>
    if 32 < o + n then .error (.trap causeFetchSpan (w64 pc))
    else
      match decodeWord (leNat ((bs.drop o).take n)) with
      | .ok i => if privileged i && !s.me.sup then .error (.trap causePriv (w64 pc)) else .ok (i, t)
      | .error e => .error (.trap (decodeCause e) (w64 pc))

end Sys2Proof.Machine
end

