-- ==== Sys2Proof/Machine/Rep.lean ====
section
/-! DEFINITION. The repetition buffer: REPSEQ, REPGO and the reissue of a captured word (R72, R91, R175 to R178, R181,
R400, R401). -/

namespace Sys2Proof.Machine

open Sys2Proof

/-! Capture (R72, R175, R401). -/

/-- The words that a REPSEQ captures: vector opcodes 0x22 to 0x3A and matrix opcodes 0x02 to 0x06. -/
def capturable : Instr → Bool
  | .vclaim _ | .vrel | .mgangWide .. | .mgangDeep .. => false
  | i => isArrayWord i

/-- Where a capture ends: complete at an address, or stopped at one. -/
inductive Captured where
  | done (caps : List Instr) (pc : Word64) (s : State)
  | stopped (caps : List Instr) (pc : Word64) (why : Stop) (s : State)
  /-- NOP and BR words for ever. -/
  | lost

/-- Captures n more words from an address on. The fuel exceeds the number of words that an address space can hold, so a path
that uses it up comes back to where it was. -/
def captureFrom : (fuel n : Nat) → List Instr → Word64 → State → Captured
  | _, 0, caps, pc, s => .done caps pc s
  | 0, _, _, _, _ => .lost
  | f + 1, n + 1, caps, pc, s =>
    match s.fetch pc.toNat with
    | .error e => .stopped caps pc e s
    | .ok (.nop, t) => captureFrom f (n + 1) caps (pc + 8) t
    | .ok (.br off, t) => captureFrom f (n + 1) caps (branchTarget pc off) t
    | .ok (i, t) =>
      if capturable i then captureFrom f n (caps ++ [i]) (pc + BitVec.ofNat 64 i.len) t
      else .stopped caps pc (.trap causeIllegalEnc pc) t

/-- Words of four bytes that 52-bit addresses can tell apart. -/
def captureFuel : Nat := 2 ^ 50

/-- The repeat state after a capture. -/
def Rep.captured (r : Rep) (caps : List Instr) : Rep :=
  { r with iter := 0, word := 0, len := BitVec.ofNat 5 caps.length, active := false, cnt := 0, caps := caps, trap := none,
           stopped := false, charged := false, waitSince := none }

/-- REPSEQ (R175, R400). A captured word that fails a check traps at its own address, and the words before it stay
captured (R72). A path of NOP and BR words alone never ends (DEDUCED, log 31). -/
def execRepseq (n : BitVec 5) (s : State) : Out :=
  if s.me.rep.active then finish s (s.me.pc + 8) (.error (.wait s (some (10, 0))))
  else
    match captureFrom captureFuel n.toNat [] (s.me.pc + 8) s with
    | .done caps pc t => finish s pc (.ok (t.modMe (fun x => { x with rep := x.rep.captured caps })))
    | .stopped caps pc (.trap k f) t =>
      .next ((t.modMe (fun x => { x with rep := x.rep.captured caps, pc := pc })).trapEnter k (w64 k) f)
    | .stopped _ _ e _ => finish s s.me.pc (.error e)
    | .lost => finish s s.me.pc (.error (.wait s none))

/-! REPGO (R176, R400). -/

/-- The repeat state after REPGO. -/
def Rep.go (r : Rep) (n : BitVec 16) (stride : BitVec 4) (pc : Word64) : Rep :=
  if n = 0 then { r with active := false, cnt := 0, trap := none, stopped := false, charged := false, waitSince := none }
  else if r.len = 0 then r
  else { r with iter := 0, word := 0, cnt := n, stride := stride, active := true, goPc := pc, trap := none, stopped := false,
                charged := false, waitSince := none }

/-- The context with the count that its present instruction will take given back: a REPGO with n of 1 or more counts through
its iterations alone (R91, R176). -/
def Ctx.uncounted (x : Ctx) : Ctx := { x with left := if x.waitSince.isSome then x.left else x.left + 1 }

/-- REPGO: only the cancelling form counts as an issued instruction itself; another waits while a repetition runs (R91,
R175, R176). -/
def execRepgo (n : BitVec 16) (stride : BitVec 4) (s : State) : Out :=
  if n = 0 then finish s (s.me.pc + 8) (.ok (s.modMe (fun x => { x with rep := x.rep.go n stride x.pc })))
  else if s.me.rep.active then finish s (s.me.pc + 8) (.error (.wait (s.modMe Ctx.uncounted) (some (10, 0))))
  else finish s (s.me.pc + 8) (.ok (s.modMe (fun x => { x.uncounted with rep := x.rep.go n stride x.pc })))

/-! Reissue (R176 to R178, R181). -/

/-- A vector register moved by ITER × STRIDE. -/
def VReg.move (k : Nat) (v : VReg) : VReg := ⟨(v.val + k) % 16, Nat.mod_lt _ (by decide)⟩

/-- A second operand so moved. -/
def VOperand.move (k : Nat) : VOperand → VOperand
  | .vec v => .vec (VReg.move k v)
  | .scalar r => .scalar r

/-- A captured word with every vector register field that it names moved. -/
def moveRegs (k : Nat) : Instr → Instr
  | .vld ty sp t q vd base m => .vld ty sp t q (VReg.move k vd) base m
  | .vst ty sp t q vd base pm => .vst ty sp t q (VReg.move k vd) base pm
  | .vadd ty rm vd va b m => .vadd ty rm (VReg.move k vd) (VReg.move k va) (VOperand.move k b) m
  | .vsub ty rm vd va b m => .vsub ty rm (VReg.move k vd) (VReg.move k va) (VOperand.move k b) m
  | .vmul ty rm vd va b m => .vmul ty rm (VReg.move k vd) (VReg.move k va) (VOperand.move k b) m
  | .vfma ty rm vd va b vc m => .vfma ty rm (VReg.move k vd) (VReg.move k va) (VOperand.move k b) (VReg.move k vc) m
  | .vmax ty vd va b m => .vmax ty (VReg.move k vd) (VReg.move k va) (VOperand.move k b) m
  | .vmin ty vd va b m => .vmin ty (VReg.move k vd) (VReg.move k va) (VOperand.move k b) m
  | .vabs ty vd va m => .vabs ty (VReg.move k vd) (VReg.move k va) m
  | .vcvt dst src rm vd va m => .vcvt dst src rm (VReg.move k vd) (VReg.move k va) m
  | .vqnt ty rm vd va vc m => .vqnt ty rm (VReg.move k vd) (VReg.move k va) (VReg.move k vc) m
  | .vdqn ty rm vd va vc m => .vdqn ty rm (VReg.move k vd) (VReg.move k va) (VReg.move k vc) m
  | .vred op ty rm vd va m => .vred op ty rm (VReg.move k vd) (VReg.move k va) m
  | .vscan op ty rm vd va m => .vscan op ty rm (VReg.move k vd) (VReg.move k va) m
  | .vshuf vd va vb ps m => .vshuf (VReg.move k vd) (VReg.move k va) (VReg.move k vb) ps m
  | .vcmp c ty pd va b m => .vcmp c ty pd (VReg.move k va) (VOperand.move k b) m
  | .vsel vd va vb pk m => .vsel (VReg.move k vd) (VReg.move k va) (VReg.move k vb) pk m
  | .vfn fn ty rm vd va m => .vfn fn ty rm (VReg.move k vd) (VReg.move k va) m
  | .vbcast ty vd src m => .vbcast ty (VReg.move k vd) src m
  | .vidx vd imm m => .vidx (VReg.move k vd) imm m
  | .vand vd va b m => .vand (VReg.move k vd) (VReg.move k va) (VOperand.move k b) m
  | .vor vd va b m => .vor (VReg.move k vd) (VReg.move k va) (VOperand.move k b) m
  | .vxor vd va b m => .vxor (VReg.move k vd) (VReg.move k va) (VOperand.move k b) m
  | .vshl vd va b m => .vshl (VReg.move k vd) (VReg.move k va) (VOperand.move k b) m
  | .vshr ar vd va b m => .vshr ar (VReg.move k vd) (VReg.move k va) (VOperand.move k b) m
  | i => i

/-- issue(w) of R176 for the context that runs: the word's effect, without the PC. -/
def issueWord (o : Origin) (i : Instr) (s : State) : Act :=
  match i with
  | .vld ty sp t k vd base m => issueVld ty sp t k vd base m s
  | .vst ty sp t k vd base pm => issueVst ty sp t k vd base pm s
  | .vadd ty rm vd va b m => issueVadd ty rm vd va b m s
  | .vsub ty rm vd va b m => issueVsub ty rm vd va b m s
  | .vmul ty rm vd va b m => issueVmul ty rm vd va b m s
  | .vfma ty rm vd va b vc m => issueVfma ty rm vd va b vc m s
  | .vmax ty vd va b m => issueVmax ty vd va b m s
  | .vmin ty vd va b m => issueVmin ty vd va b m s
  | .vabs ty vd va m => issueVabs ty vd va m s
  | .vcvt dst src rm vd va m => issueVcvt dst src rm vd va m s
  | .vqnt ty rm vd va vc m => issueVqnt ty rm vd va vc m s
  | .vdqn ty rm vd va vc m => issueVdqn ty rm vd va vc m s
  | .vred op ty rm vd va m => issueVred op ty rm vd va m s
  | .vscan op ty rm vd va m => issueVscan op ty rm vd va m s
  | .vshuf vd va vb ps m => issueVshuf vd va vb ps m s
  | .vcmp c ty pd va b m => issueVcmp c ty pd va b m s
  | .vsel vd va vb pk m => issueVsel vd va vb pk m s
  | .vfn fn ty rm vd va m => issueVfn fn ty rm vd va m s
  | .vbcast ty vd src m => issueVbcast ty vd src m s
  | .vidx vd imm m => issueVidx vd imm m s
  | .vand vd va b m => issueVand vd va b m s
  | .vor vd va b m => issueVor vd va b m s
  | .vxor vd va b m => issueVxor vd va b m s
  | .vshl vd va b m => issueVshl vd va b m s
  | .vshr ar vd va b m => issueVshr ar vd va b m s
  | .mlds act grp ot gang pri ct gd woff => issueMlds o act grp ot gang pri ct gd woff s
  | .mswap gang pri ct gd => issueMswap o gang pri ct gd s
  | .mmul x => issueMmul o x s
  | .mcorr x => issueMcorr o x s
  | .msplit x => issueMsplit o x s
  | _ => .error (.trap causeIllegalEnc s.me.pc)

/-- The repeat state after the reissue of a word. -/
def Rep.advance (r : Rep) : Rep :=
  if r.word.toNat + 1 = r.len.toNat then
    let cnt := r.cnt - 1
    { r with word := 0, iter := r.iter + 1, cnt := cnt, active := decide (cnt ≠ 0), charged := false, waitSince := none }
  else { r with word := r.word + 1, waitSince := none }

/-- The buffer stops before a reissue that fails a check, until the context traps (R178). -/
def Rep.stop (r : Rep) (cause : Nat) (faddr : Word64) : Rep := { r with trap := some (cause, faddr), waitSince := none }

/-- A reissue waits at its issue. A wait that counts ends in STALL when it has reached YSTALL, as the word's own issue-time
fault (R178, R302, R400). -/
def State.reissueWait (s : State) (obj : Option (Nat × Nat)) : State :=
  match obj with
  | none => s.modMe (fun x => { x with rep := { x.rep with waitSince := none } })
  | some (k, o) =>
    let since := s.me.rep.waitSince.getD s.cycle
    if s.pastStall s.me since then s.modMe (fun x => { x with rep := x.rep.stop causeStall (stallWord k o) })
    else s.modMe (fun x => { x with rep := { x.rep with waitSince := some since } })

/-- A reserved register that an instruction names, and the command that reserves it (R340). -/
def Ctx.reserves (x : Ctx) (i : Instr) : Option (Nat × Nat) := x.reserved.find? (fun e => (regsOf i).contains e.1)

/-- Runs a piece of work as a context's, and gives the issue slot's marker back. -/
def State.asContext (s : State) (c h : Nat) (f : State → State) : State :=
  { f { s with curCore := c, curCtx := h } with curCore := s.curCore, curCtx := s.curCtx }

/-- One reissue for the context that runs: it counts an iteration once (R91), moves the registers, waits behind a reserved
register that its word names (R340), and issues. A reissue that fails a check stops the buffer until the context traps
(R178). -/
def State.reissue (s : State) : State :=
  let r := s.me.rep
  let s := if r.charged then s else s.modMe (fun x => { x with left := x.left - 1, rep := { x.rep with charged := true } })
  if s.me.left = 0 then s.failTeam causeWatchdog s.curCore s.me.pc 0
  else
    match r.caps[r.word.toNat]? with
    | none => s.modMe (fun x => { x with rep := x.rep.advance })
    | some w =>
      let o : Origin := { pc := r.goPc, rep := some (r.iter, r.word) }
      match s.me.reserves w with
      | some (_, id) => s.reissueWait (some (1, s.home.counterOf id))
      | none =>
        match issueWord o (moveRegs (r.iter.toNat * r.stride.toNat) w) s with
        | .ok t => t.modMe (fun x => { x with rep := x.rep.advance })
        | .error (.trap k f) => s.modMe (fun x => { x with rep := x.rep.stop k f })
        | .error (.poison a) => s.contain s.curCore r.goPc a
        | .error (.wait _ obj) => s.reissueWait obj
        | .error (.deliver ..) => s

/-- REPETITION_REISSUE: the buffer of a context reissues its next word, unless it is stopped (R176, R178). -/
def execRepetitionReissue (c h : Nat) (s : State) : Out :=
  let x := (s.core c).ctx h
  .next (if x.live ∧ x.rep.active ∧ x.rep.trap = none ∧ x.rep.stopped = false then s.asContext c h State.reissue else s)

end Sys2Proof.Machine
end

