-- ==== Sys2Proof/Machine/Dispatch.lean ====
section
/-! DEFINITION. The dispatch: one arm per constructor of `Instr`, each one direct call of its meaning. -/

namespace Sys2Proof.Machine

open Sys2Proof

/-- What an instruction does to the state, run by the context that the state names, or by its unit for an event. -/
def exec (i : Instr) (s : State) : Host.Outcome State Fault Refusal :=
  match i with
  | .nop => Sys2Proof.Machine.execNop s
  | .add d a b => Sys2Proof.Machine.execAdd d a b s
  | .addImm d a imm => Sys2Proof.Machine.execAddImm d a imm s
  | .sub d a b => Sys2Proof.Machine.execSub d a b s
  | .subImm d a imm => Sys2Proof.Machine.execSubImm d a imm s
  | .mul d a b => Sys2Proof.Machine.execMul d a b s
  | .mulImm d a imm => Sys2Proof.Machine.execMulImm d a imm s
  | .mulh d a b => Sys2Proof.Machine.execMulh d a b s
  | .div d a b => Sys2Proof.Machine.execDiv d a b s
  | .rem d a b => Sys2Proof.Machine.execRem d a b s
  | .and d a b => Sys2Proof.Machine.execAnd d a b s
  | .andImm d a imm => Sys2Proof.Machine.execAndImm d a imm s
  | .or d a b => Sys2Proof.Machine.execOr d a b s
  | .orImm d a imm => Sys2Proof.Machine.execOrImm d a imm s
  | .xor d a b => Sys2Proof.Machine.execXor d a b s
  | .xorImm d a imm => Sys2Proof.Machine.execXorImm d a imm s
  | .andn d a b => Sys2Proof.Machine.execAndn d a b s
  | .shl d a b => Sys2Proof.Machine.execShl d a b s
  | .shlImm d a imm => Sys2Proof.Machine.execShlImm d a imm s
  | .shr d a b => Sys2Proof.Machine.execShr d a b s
  | .shrImm d a imm => Sys2Proof.Machine.execShrImm d a imm s
  | .sra d a b => Sys2Proof.Machine.execSra d a b s
  | .sraImm d a imm => Sys2Proof.Machine.execSraImm d a imm s
  | .rol d a b => Sys2Proof.Machine.execRol d a b s
  | .rolImm d a imm => Sys2Proof.Machine.execRolImm d a imm s
  | .min d a b => Sys2Proof.Machine.execMin d a b s
  | .minImm d a imm => Sys2Proof.Machine.execMinImm d a imm s
  | .max d a b => Sys2Proof.Machine.execMax d a b s
  | .maxImm d a imm => Sys2Proof.Machine.execMaxImm d a imm s
  | .cmp cond d a b => Sys2Proof.Machine.execCmp cond d a b s
  | .cmpImm cond d a imm => Sys2Proof.Machine.execCmpImm cond d a imm s
  | .sel d a b c => Sys2Proof.Machine.execSel d a b c s
  | .clz d a => Sys2Proof.Machine.execClz d a s
  | .popc d a => Sys2Proof.Machine.execPopc d a s
  | .mov d a => Sys2Proof.Machine.execMov d a s
  | .movi d imm => Sys2Proof.Machine.execMovi d imm s
  | .bfx i0 d a lsb wm1 => Sys2Proof.Machine.execBfx i0 d a lsb wm1 s
  | .bfi d a lsb wm1 => Sys2Proof.Machine.execBfi d a lsb wm1 s
  | .fadd ty rm d a b => Sys2Proof.Machine.execFadd ty rm d a b s
  | .fsub ty rm d a b => Sys2Proof.Machine.execFsub ty rm d a b s
  | .fmul ty rm d a b => Sys2Proof.Machine.execFmul ty rm d a b s
  | .ffma ty rm d a b c => Sys2Proof.Machine.execFfma ty rm d a b c s
  | .fmin ty d a b => Sys2Proof.Machine.execFmin ty d a b s
  | .fmax ty d a b => Sys2Proof.Machine.execFmax ty d a b s
  | .fcmp cond ty d a b => Sys2Proof.Machine.execFcmp cond ty d a b s
  | .fcvt dst src rm d a => Sys2Proof.Machine.execFcvt dst src rm d a s
  | .br off => Sys2Proof.Machine.execBr off s
  | .brc cond a b off => Sys2Proof.Machine.execBrc cond a b off s
  | .call off => Sys2Proof.Machine.execCall off s
  | .ret a => Sys2Proof.Machine.execRet a s
  | .jmpr d a => Sys2Proof.Machine.execJmpr d a s
  | .chk a b off => Sys2Proof.Machine.execChk a b off s
  | .yield mask budget => Sys2Proof.Machine.execYield mask budget s
  | .exit a => Sys2Proof.Machine.execExit a s
  | .trap n => Sys2Proof.Machine.execTrap n s
  | .ld sz sx tg k d m => Sys2Proof.Machine.execLd sz sx tg k d m s
  | .st sz tg k d m => Sys2Proof.Machine.execSt sz tg k d m s
  | .lds sz sx tg k d m => Sys2Proof.Machine.execLds sz sx tg k d m s
  | .tagTest sz d m => Sys2Proof.Machine.execTagTest sz d m s
  | .tagEmpty sz m => Sys2Proof.Machine.execTagEmpty sz m s
  | .tagFull sz m => Sys2Proof.Machine.execTagFull sz m s
  | .tagSpent sz m => Sys2Proof.Machine.execTagSpent sz m s
  | .hstart d a b c => Sys2Proof.Machine.execHstart d a b c s
  | .hjoin d a => Sys2Proof.Machine.execHjoin d a s
  | .phaseC n => Sys2Proof.Machine.execPhaseC n s
  | .phaseX n => Sys2Proof.Machine.execPhaseX n s
  | .vote op d a n => Sys2Proof.Machine.execVote op d a n s
  | .evsig e ct a off h => Sys2Proof.Machine.execEvsig e ct a off h s
  | .sleept a => Sys2Proof.Machine.execSleept a s
  | .time d => Sys2Proof.Machine.execTime d s
  | .waitcGe ct n => Sys2Proof.Machine.execWaitcGe ct n s
  | .waitcLeOl n => Sys2Proof.Machine.execWaitcLeOl n s
  | .waitcLeOs n => Sys2Proof.Machine.execWaitcLeOs n s
  | .nbrd d p dir => Sys2Proof.Machine.execNbrd d p dir s
  | .recv sz sx tg k d base off => Sys2Proof.Machine.execRecv sz sx tg k d base off s
  | .plog op d a b => Sys2Proof.Machine.execPlog op d a b s
  | .pcnt mode d a => Sys2Proof.Machine.execPcnt mode d a s
  | .gset g v => Sys2Proof.Machine.execGset g v s
  | .gres g a => Sys2Proof.Machine.execGres g a s
  | .repseq n => Sys2Proof.Machine.execRepseq n s
  | .repgo n stride => Sys2Proof.Machine.execRepgo n stride s
  | .repetitionReissue core ctx => Sys2Proof.Machine.execRepetitionReissue core ctx s
  | .cntset ct v => Sys2Proof.Machine.execCntset ct v s
  | .aadd x => Sys2Proof.Machine.execAadd x s
  | .aaddw x => Sys2Proof.Machine.execAaddw x s
  | .aswap x => Sys2Proof.Machine.execAswap x s
  | .acas x c => Sys2Proof.Machine.execAcas x c s
  | .amin x => Sys2Proof.Machine.execAmin x s
  | .amax x => Sys2Proof.Machine.execAmax x s
  | .aand x => Sys2Proof.Machine.execAand x s
  | .aor x => Sys2Proof.Machine.execAor x s
  | .await w d a b ct acq sc => Sys2Proof.Machine.execAwait w d a b ct acq sc s
  | .awaitRegistrationRetry core ctx => Sys2Proof.Machine.execAwaitRegistrationRetry core ctx s
  | .evpost a b ct gd ord => Sys2Proof.Machine.execEvpost a b ct gd ord s
  | .evwait d a b => Sys2Proof.Machine.execEvwait d a b s
  | .evwaitRegistrationRetry core ctx => Sys2Proof.Machine.execEvwaitRegistrationRetry core ctx s
  | .trig ct gd => Sys2Proof.Machine.execTrig ct gd s
  | .done a ct gd ord => Sys2Proof.Machine.execDone a ct gd ord s
  | .wdq b ct gd r => Sys2Proof.Machine.execWdq b ct gd r s
  | .heatage a ct gd ord n => Sys2Proof.Machine.execHeatage a ct gd ord n s
  | .rowrank a b ct gd ord h => Sys2Proof.Machine.execRowrank a b ct gd ord h s
  | .rowmig a b ct gd ord => Sys2Proof.Machine.execRowmig a b ct gd ord s
  | .kiln full d ct => Sys2Proof.Machine.execKiln full d ct s
  | .kilnAnswer core ctx => Sys2Proof.Machine.execKilnAnswer core ctx s
  | .kilnst d a => Sys2Proof.Machine.execKilnst d a s
  | .kilnrel d a ct => Sys2Proof.Machine.execKilnrel d a ct s
  | .kilnrb d a ct => Sys2Proof.Machine.execKilnrb d a ct s
  | .csrr d csr => Sys2Proof.Machine.execCsrr d csr s
  | .csrw a csr => Sys2Proof.Machine.execCsrw a csr s
  | .rfe => Sys2Proof.Machine.execRfe s
  | .tlbinv all anyasid reach a => Sys2Proof.Machine.execTlbinv all anyasid reach a s
  | .icinv => Sys2Proof.Machine.execIcinv s
  | .get x => Sys2Proof.Machine.execGet x s
  | .put x => Sys2Proof.Machine.execPut x s
  | .grist x => Sys2Proof.Machine.execGrist x s
  | .gristScatter x => Sys2Proof.Machine.execGristScatter x s
  | .cpy x => Sys2Proof.Machine.execCpy x s
  | .sendD x => Sys2Proof.Machine.execSendD x s
  | .sendP x => Sys2Proof.Machine.execSendP x s
  | .sendI x => Sys2Proof.Machine.execSendI x s
  | .sendIRetry core id => Sys2Proof.Machine.execSendIRetry core id s
  | .nmc b c ct gd ord len => Sys2Proof.Machine.execNmc b c ct gd ord len s
  | .nmcPart core id part => Sys2Proof.Machine.execNmcPart core id part s
  | .nmscan abs a b c ct gd ord ty kmax len => Sys2Proof.Machine.execNmscan abs a b c ct gd ord ty kmax len s
  | .tspawn d a b ct gd ord => Sys2Proof.Machine.execTspawn d a b ct gd ord s
  | .lfork d a c => Sys2Proof.Machine.execLfork d a c s
  | .lforkAf d a c ct => Sys2Proof.Machine.execLforkAf d a c ct s
  | .lflat d a ct gd ord => Sys2Proof.Machine.execLflat d a ct gd ord s
  | .lrebase d a b ct gd ord => Sys2Proof.Machine.execLrebase d a b ct gd ord s
  | .ldel d a ct => Sys2Proof.Machine.execLdel d a ct s
  | .lpack d a ct gd ord => Sys2Proof.Machine.execLpack d a ct gd ord s
  | .linfo d a => Sys2Proof.Machine.execLinfo d a s
  | .nodeSwitch id => Sys2Proof.Machine.execNodeSwitch id s
  | .splice id => Sys2Proof.Machine.execSplice id s
  | .vclaim n => Sys2Proof.Machine.execVclaim n s
  | .vrel => Sys2Proof.Machine.execVrel s
  | .vld ty sp t k vd base m => Sys2Proof.Machine.execVld ty sp t k vd base m s
  | .vst ty sp t k vd base pm => Sys2Proof.Machine.execVst ty sp t k vd base pm s
  | .vadd ty rm vd va b m => Sys2Proof.Machine.execVadd ty rm vd va b m s
  | .vsub ty rm vd va b m => Sys2Proof.Machine.execVsub ty rm vd va b m s
  | .vmul ty rm vd va b m => Sys2Proof.Machine.execVmul ty rm vd va b m s
  | .vfma ty rm vd va b vc m => Sys2Proof.Machine.execVfma ty rm vd va b vc m s
  | .vmax ty vd va b m => Sys2Proof.Machine.execVmax ty vd va b m s
  | .vmin ty vd va b m => Sys2Proof.Machine.execVmin ty vd va b m s
  | .vabs ty vd va m => Sys2Proof.Machine.execVabs ty vd va m s
  | .vcvt dst src rm vd va m => Sys2Proof.Machine.execVcvt dst src rm vd va m s
  | .vqnt ty rm vd va vc m => Sys2Proof.Machine.execVqnt ty rm vd va vc m s
  | .vdqn ty rm vd va vc m => Sys2Proof.Machine.execVdqn ty rm vd va vc m s
  | .vred op ty rm vd va m => Sys2Proof.Machine.execVred op ty rm vd va m s
  | .vscan op ty rm vd va m => Sys2Proof.Machine.execVscan op ty rm vd va m s
  | .vshuf vd va vb ps m => Sys2Proof.Machine.execVshuf vd va vb ps m s
  | .vcmp cond ty pd va b m => Sys2Proof.Machine.execVcmp cond ty pd va b m s
  | .vsel vd va vb pk m => Sys2Proof.Machine.execVsel vd va vb pk m s
  | .vfn fn ty rm vd va m => Sys2Proof.Machine.execVfn fn ty rm vd va m s
  | .vbcast ty vd src m => Sys2Proof.Machine.execVbcast ty vd src m s
  | .vidx vd imm m => Sys2Proof.Machine.execVidx vd imm m s
  | .vand vd va b m => Sys2Proof.Machine.execVand vd va b m s
  | .vor vd va b m => Sys2Proof.Machine.execVor vd va b m s
  | .vxor vd va b m => Sys2Proof.Machine.execVxor vd va b m s
  | .vshl vd va b m => Sys2Proof.Machine.execVshl vd va b m s
  | .vshr arith vd va b m => Sys2Proof.Machine.execVshr arith vd va b m s
  | .mlds act grp ot gang pri ct gd woff => Sys2Proof.Machine.execMlds act grp ot gang pri ct gd woff s
  | .mswap gang pri ct gd => Sys2Proof.Machine.execMswap gang pri ct gd s
  | .mmul x => Sys2Proof.Machine.execMmul x s
  | .mcorr x => Sys2Proof.Machine.execMcorr x s
  | .msplit x => Sys2Proof.Machine.execMsplit x s
  | .msplitJoin core id => Sys2Proof.Machine.execMsplitJoin core id s
  | .mgangWide ct gd => Sys2Proof.Machine.execMgangWide ct gd s
  | .mgangDeep ct gd => Sys2Proof.Machine.execMgangDeep ct gd s
  | .matrixCommandStart core id => Sys2Proof.Machine.execMatrixCommandStart core id s
  | .matrixSuspend core id => Sys2Proof.Machine.execMatrixSuspend core id s
  | .bump core id => Sys2Proof.Machine.execBump core id s
  | .stall core ctx => Sys2Proof.Machine.execStall core ctx s
  | .watchdog core ctx => Sys2Proof.Machine.execWatchdog core ctx s
  | .nbrdTimeout core ctx => Sys2Proof.Machine.execNbrdTimeout core ctx s
  | .sleepWake core ctx => Sys2Proof.Machine.execSleepWake core ctx s
  | .phaseCompletion core => Sys2Proof.Machine.execPhaseCompletion core s
  | .programLoad p => Sys2Proof.Machine.execProgramLoad p s
  | .queueDispatch q => Sys2Proof.Machine.execQueueDispatch q s
  | .launch pid => Sys2Proof.Machine.execLaunch pid s
  | .barrier pid => Sys2Proof.Machine.execBarrier pid s
  | .copy pid => Sys2Proof.Machine.execCopy pid s
  | .nmem pid => Sys2Proof.Machine.execNmem pid s
  | .eventPacket pid => Sys2Proof.Machine.execEventPacket pid s
  | .nopPacket pid => Sys2Proof.Machine.execNopPacket pid s
  | .barrierRound pid => Sys2Proof.Machine.execBarrierRound pid s
  | .packetCompletion pid => Sys2Proof.Machine.execPacketCompletion pid s
  | .taskPlace task row col => Sys2Proof.Machine.execTaskPlace task row col s
  | .wake team => Sys2Proof.Machine.execWake team s
  | .teamStart team => Sys2Proof.Machine.execTeamStart team s
  | .taskComplete team => Sys2Proof.Machine.execTaskComplete team s
  | .takeRequest team => Sys2Proof.Machine.execTakeRequest team s
  | .takeWithdraw team => Sys2Proof.Machine.execTakeWithdraw team s
  | .teamSave team => Sys2Proof.Machine.execTeamSave team s
  | .teamResume team => Sys2Proof.Machine.execTeamResume team s
  | .marker core k => Sys2Proof.Machine.execMarker core k s
  | .lineDrain core => Sys2Proof.Machine.execLineDrain core s
  | .kilnDrainTimeout core => Sys2Proof.Machine.execKilnDrainTimeout core s
  | .kilnPageCopy asid va => Sys2Proof.Machine.execKilnPageCopy asid va s
  | .kilnComplete asid => Sys2Proof.Machine.execKilnComplete asid s
  | .hostRead off len => Sys2Proof.Machine.execHostRead off len s
  | .hostWrite off bytes ep => Sys2Proof.Machine.execHostWrite off bytes ep s
  | .hostAtomic op wide off v cmp => Sys2Proof.Machine.execHostAtomic op wide off v cmp s
  | .cxlMemRead pa => Sys2Proof.Machine.execCxlMemRead pa s
  | .cxlMemWrite pa bytes poison => Sys2Proof.Machine.execCxlMemWrite pa bytes poison s
  | .queueWindowFetchadd q v => Sys2Proof.Machine.execQueueWindowFetchadd q v s
  | .queueWindowRead q off len => Sys2Proof.Machine.execQueueWindowRead q off len s
  | .eventWindowWrite e v => Sys2Proof.Machine.execEventWindowWrite e v s
  | .eventWindowRead e => Sys2Proof.Machine.execEventWindowRead e s
  | .mgmtErrClear v => Sys2Proof.Machine.execMgmtErrClear v s
  | .mgmtReset key => Sys2Proof.Machine.execMgmtReset key s
  | .hotReset => Sys2Proof.Machine.execHotReset s
  | .warmResetComplete => Sys2Proof.Machine.execWarmResetComplete s
  | .coldStart fail bad => Sys2Proof.Machine.execColdStart fail bad s
  | .startUpComplete => Sys2Proof.Machine.execStartUpComplete s
  | .timeset v => Sys2Proof.Machine.execTimeset v s
  | .ptmintWrite v => Sys2Proof.Machine.execPtmintWrite v s
  | .ptmDialogue offset => Sys2Proof.Machine.execPtmDialogue offset s
  | .fullReport => Sys2Proof.Machine.execFullReport s
  | .shortReport => Sys2Proof.Machine.execShortReport s
  | .registerWrite off v => Sys2Proof.Machine.execRegisterWrite off v s
  | .powerGrant g => Sys2Proof.Machine.execPowerGrant g s
  | .thermalTrip die => Sys2Proof.Machine.execThermalTrip die s
  | .linkDead port => Sys2Proof.Machine.execLinkDead port s
  | .linkRetrained port => Sys2Proof.Machine.execLinkRetrained port s
  | .linkStateNotice node up => Sys2Proof.Machine.execLinkStateNotice node up s
  | .drainRound port => Sys2Proof.Machine.execDrainRound port s
  | .remoteAtomicTimeout core id => Sys2Proof.Machine.execRemoteAtomicTimeout core id s
  | .tagTupleExpiry i0 => Sys2Proof.Machine.execTagTupleExpiry i0 s
  | .peerRequest src epoch addr ask => Sys2Proof.Machine.execPeerRequest src epoch addr ask s
  | .peerRetireTimeout w => Sys2Proof.Machine.execPeerRetireTimeout w s
  | .replicaWriteTimeout i0 die => Sys2Proof.Machine.execReplicaWriteTimeout i0 die s
  | .droppedWindowWrite w => Sys2Proof.Machine.execDroppedWindowWrite w s
  | .remoteKilnStart asid k base => Sys2Proof.Machine.execRemoteKilnStart asid k base s
  | .remoteRollback asid k => Sys2Proof.Machine.execRemoteRollback asid k s

end Sys2Proof.Machine
end

