-- ==== Sys2Proof/Machine/Issue.lean ====
section
/-! DEFINITION. The issue slot of a core: which context takes it, and what becomes of its next instruction (R69, R81, R91,
R177, R178, R340). -/

namespace Sys2Proof.Machine

open Sys2Proof

/-- Whether the contexts of a core may issue: its team runs and its own part has not ended (R248, R249). -/
def State.mayIssue (s : State) (c : Nat) : Bool :=
  !(s.core c).partEnded &&
  match s.teamOf c with
  | some t => decide (t.phase = .running)
  | none => false

/-- A context is ready when it is live and not waiting in an instruction (R81). -/
def Ctx.ready (x : Ctx) : Bool := x.live && x.parked.isNone && x.waitSince.isNone

/-- A context that waits in an instruction, which it tries again (DESIGN CHOICE, log 1). -/
def Ctx.retries (x : Ctx) : Bool := x.live && x.parked.isNone && x.waitSince.isSome

/-- The context that takes the slot: the first ready one after the one that issued last, in a circle (R81). -/
def Core.nextCtx (x : Core) : Option Nat :=
  ((upFrom 1 11).map (fun k => (x.rr + k) % 11)).find? (fun h => (x.ctx h).ready)

/-! The order of one cycle (R171, R193, R370, R373, R378). -/

/-- What the counter gains, or loses, beside n nanoseconds: one in 2,000, which is 500 parts per million, until the offset
last measured is made up (R329; DESIGN CHOICE, log 119). -/
def HostPort.slewed (h : HostPort) (n : Nat) : Int :=
  let most : Int := Int.ofNat ((h.trueNs + n) / 2000 - h.trueNs / 2000)
  if h.slew < 0 then -(min most (-h.slew)) else min most h.slew

/-- Nanoseconds pass: the counter runs at its slewed rate, and the limits of time are measured by it (R4). -/
def HostPort.elapse (h : HostPort) (ns : Nat) : HostPort :=
  let by' := (Int.ofNat ns + h.slewed ns).toNat
  { h with
    time := h.time + BitVec.ofNat 64 by', slew := h.slew - h.slewed ns, clock := h.clock + by', trueNs := h.trueNs + ns }

/-- Time passes. -/
def State.elapse (s : State) (cycles ns : Nat) : State :=
  ({ s with cycle := s.cycle + cycles } : State).modHost (fun h => h.elapse ns)

/-- One cycle passes: 13 cycles are 10 ns (R21). -/
def State.tick (s : State) : State := s.elapse 1 ((s.cycle + 1) * 10 / 13 - s.cycle * 10 / 13)

/-- An action takes place `n` of the present cycle, or of the next where a later place has been taken: contexts act in
rising order of core and context, and every other action after them. -/
def State.atTurn (s : State) (n next : Nat) : State :=
  let t := if s.slotCycle = s.cycle ∧ n < s.slotNext then s.tick else s
  { t with slotCycle := t.cycle, slotNext := next }

/-- The place of a context in a cycle. -/
def turnNo (c h : Nat) : Nat := 11 * c + h

/-- The place of everything else, after every context. -/
def lastTurn : Nat := 11 * Config.coreCount

/-- A context acts in its place. -/
def State.ctxTurn (s : State) (c h : Nat) : State := s.atTurn (turnNo c h) (turnNo c h + 1)

/-- The context that acts. -/
def State.select (s : State) (c h : Nat) : State := { s with curCore := c, curCtx := h }

/-- The slot is the context's: one a cycle for each core (R81). -/
def State.take (s : State) (c h : Nat) : State :=
  let t := if (s.core c).issuedAt = some s.cycle then s.tick else s
  let u := t.ctxTurn c h
  (u.select c h).modCore c (fun x => { x with rr := h, issuedAt := some u.cycle })

/-- Whether an instruction may be the last of its window: YIELD opens a new one, and a REPGO that starts a repetition is
counted by its iterations (R91). -/
def endsWindow : Instr → Bool
  | .yield .. => false
  | .repgo n _ => decide (n = 0)
  | _ => true

/-- Whether the instruction under way is the last of its window, counted when it issues (R91). -/
def Ctx.lastOfWindow (x : Ctx) : Bool := x.waitSince.isNone && decide (x.left.toNat ≤ 1)

/-- The context issues the last instruction of its window: WATCHDOG (R91, R303). The team ends before the instruction has
an effect (DEDUCED, log 46). -/
def State.expire (s : State) : Out :=
  execWatchdog s.curCore s.curCtx (s.modMe (fun x => { x with left := 0 }))

/-- The context takes the trap of a reissued word that failed a check, before its next instruction issues (R178). FADDR of an
ILLEGAL_ENC is EPC's address, R297's PC: its other value, a captured word's address, belongs to the capture (R72; DEDUCED, log
136). -/
def State.takeRepTrap (s : State) (k : Nat) (f : Word64) : State :=
  let s := s.modMe (fun x => { x.uncounted with rep := { x.rep with trap := none } })
  s.trapEnter k (w64 k) (if k = causeIllegalEnc then s.me.pc else f)

/-- Vector words, claims, and matrix words wait at issue behind a running repetition (R177). Neither R93 nor kind 10 of R302
names that wait, and for VLD, VST, VCLAIM and VREL R418 says that it never ends in STALL: it does not count (DEDUCED,
log 108). -/
def State.behindRep (s : State) (i : Instr) : Bool := isArrayWord i && s.me.rep.active

/-- The forks of one cycle take place in rising order of context number, and then of core (R378; DESIGN CHOICE, log 1, for cores): one
whose place in the cycle is past takes place in the next cycle. -/
def State.forkPlace (s : State) (i : Instr) : State :=
  match i with
  | .lfork .. | .lforkAf .. =>
    let n := Config.coreCount * s.curCtx + s.curCore
    let t := if s.sys.forkCycle = s.cycle ∧ n < s.sys.forkNext then s.tick else s
    t.modSys (fun y => { y with forkCycle := t.cycle, forkNext := n + 1 })
  | _ => s

/-- The instruction of the context that runs: it waits at issue behind a reserved register or a running repetition, or
runs. -/
def State.run (s : State) (i : Instr) : Out :=
  match s.me.reserves i with
  | some (_, id) => finish s s.me.pc (.error (.wait s (some (1, s.home.counterOf id))))
  | none =>
    if s.behindRep i then finish s s.me.pc (.error (.wait s none))
    else exec i (s.forkPlace i)

/-- The trap of a reissued word that the context takes now: before its next instruction issues, so an instruction that waits with
something registered, or served, has issued and completes first (R178; DEDUCED, log 86). -/
def Ctx.repTrap (x : Ctx) : Option (Nat × Word64) := if x.held = .none then x.rep.trap else none

/-- The turn of the context that runs. An instruction that traps, at its fetch too, counts in its window as one that
issues (DESIGN CHOICE, log 109: R91 does not say). -/
def State.turn (s : State) : Out :=
  match s.me.repTrap with
  | some (k, f) => .next (s.takeRepTrap k f)
  | none =>
    match s.fetch s.me.pc.toNat with
    | .error e => if s.me.lastOfWindow then s.expire else finish s s.me.pc (.error e)
    | .ok (i, t) => if t.me.lastOfWindow && endsWindow i then t.expire else t.run i

/-- One turn of a core's issue slot. -/
def State.issue (s : State) (c : Nat) : Out :=
  if s.mayIssue c then
    match (s.core c).nextCtx with
    | some h => (s.take c h).turn
    | none => .next s
  else .next s

/-- A waiting context tries its instruction again, without the issue slot. -/
def State.retry (s : State) (c h : Nat) : Out :=
  if s.mayIssue c && ((s.core c).ctx h).retries then ((s.ctxTurn c h).select c h).turn else .next s

end Sys2Proof.Machine
end

