-- ==== Sys2Proof/Machine/Policy.lean ====
section
/-! DEFINITION. Actions: what each does, and the one that moves when the agenda names none (DESIGN CHOICE, log 1). -/

namespace Sys2Proof.Machine

open Sys2Proof

/-! Work. -/

/-- One piece of an engine's own work. -/
def State.work (s : State) : Work → State
  | .pge c id => s.pgeStep c id
  | .mx c id => s.mxStep c id
  | .lin c id => s.linStep c id
  | .replica i d => s.updateReplica i d false
  | .notice => s.noticeStep
  | .part c => s.partStep c
  | .failDone t => s.failDoneStep t
  | .contain => s.containStep

/-! Inputs. -/

/-- An uncorrectable error in a DRAM word of 8 bytes: its sector is marked (R442). -/
def State.dramError (s : State) (pa : Nat) : State :=
  if pa < Config.hbmSize then s.modFlat (fun f => { f with poison := poisonOver f.poison (pa / 8 * 8) 8 }) else s

/-- The same in the word of a node's block: a sector of the resolved block that has stored bytes (R442). -/
def Entry.mark (e : Entry) (sector : Nat) : Entry :=
  if 128 ≤ sector then e
  else
    match e with
    | .full m p => .full m (insertNat sector p)
    | .xor k m p => if k.toNat.testBit (sector / 4) then .xor k m (insertNat sector p) else e
    | .add f k m p => if k.toNat.testBit (sector / 4) then .add f k m (insertNat sector p) else e
    | e => e

/-- An uncorrectable error in a stored block of a node. -/
def State.nodeError (s : State) (asid i blk sector : Nat) : State :=
  let n := (s.space asid).node i
  match n.map.find blk with
  | some e => s.modSpace asid (fun sp => sp.modNode i (fun n => { n with map := n.map.put blk (e.mark sector) }))
  | none => s

/-- A core and its die drop the translations of an address. -/
def State.tlbDrop (s : State) (c va : Nat) : State :=
  let keep (e : TlbEntry) : Bool := !(decide (e.va ≤ va) && decide (va < e.va + e.size))
  (s.modCore c (fun x => { x with tlb := x.tlb.filter keep })).modDie (dieOf c) (fun d => { d with tlb := d.tlb.filter keep })

/-- A core fetches a block ahead of its use (R73), if its translation allows it; nothing is trapped for it. -/
def State.blockFetch (s : State) (c va : Nat) : State :=
  match s.lookup c (va / 32 * 32) with
  | .error _ => s
  | .ok (e, t) =>
    let pa := e.phys (va / 32 * 32)
    match e.x && decide (rangeOf pa = .hbm), t.readHbm c pa 32 with
    | true, .ok (bs, false) =>
      let asid := (s.core c).curAsid.toNat
      t.modCore c (fun x =>
        x.keepBlock { asid := asid, va := va / 32 * 32, bytes := bs })
    | _, _ => s

/-- A core drops a block. -/
def State.blockDrop (s : State) (c va : Nat) : State :=
  s.modCore c (fun x => { x with icache := x.icache.filter (fun b => b.va ≠ va / 32 * 32) })

/-- A line more in an atomic line buffer, which holds 8 and when full gives up the oldest (R21; DESIGN CHOICE, log 12 for
which). -/
def Core.ownLine (x : Core) (l : Nat) : Core :=
  let q := x.linebuf ++ [l]
  { x with linebuf := q.drop (q.length - 8) }

/-- The atomic line buffer of a core takes a 64-byte line of HBM, which every other buffer gives up (R233). -/
def State.lineOwn (s : State) (c pa : Nat) : State :=
  if pa < Config.hbmSize then (s.recall pa).modCore c (fun x => x.ownLine (pa / 64)) else s

/-- The answer to a request that left through a peer window (R325, R326): data, an old value, or a retired window. A request
that is no longer waited for is dropped. -/
def State.peerReply (s : State) (c cmd unit : Nat) (data : Word64) (retired poisoned : Bool) : State :=
  match s.fab.takeSent (fun k => k.core = c && k.cmd = cmd && k.unit' = unit) with
  | none => s
  | some (k, f) =>
    let s := (s.modFab (fun _ => f.answered k)).countAcross k.asid k.node k.colour 0 1
    if retired then s.endRequest k causePeerRetired
    else if c = sysParty then
      if k.isWrite || k.isAtomic then s
      else s.modPacket cmd (fun q => if q.out then { q with answer := some (data, poisoned) } else q)
    else
      match (s.core c).pgeOf cmd with
      | none => s
      | some p =>
        if !p.prog.over && p.outUnits.contains unit && p.result.isNone then
          s.modPge c cmd (fun q => { q with result := some data, poisoned := b2n poisoned, outUnits := [] })
        else s

/-- Whether a command's writes are done when they leave the module: a transfer that writes, without .rel.system (R234). -/
def PgeCmd.posts (p : PgeCmd) : Bool :=
  (match p.ins with | .put _ | .gristScatter _ => true | _ => false) &&
  !((ordOf p.ins).rel && decide ((ordOf p.ins).sc = .system))

/-- The oldest queued packet of a port that is up is sent: it counts in OUT, and a posted write's unit is done (R234, R319,
R325). -/
def State.portSend (s : State) (port : Nat) : State :=
  let p := s.fab.port port
  match p.up, p.queue with
  | true, k :: rest =>
    let s := (s.modFab (fun f => (f.modPort port (fun q => { q with queue := rest, retry := q.retry ++ [k] })).asked k)).countAcross
      k.asid k.node k.colour 1 0
    if k.core = sysParty then s
    else s.modPge k.core k.cmd (fun q => { q with
      sentAt := some s.host.clock
      result := if q.posts && q.outUnits.contains k.unit' then some 0 else q.result })
  | _, _ => s

/-- The oldest packet of a port's retry buffer has been received by the other end. -/
def State.portReceived (s : State) (port : Nat) : State :=
  match (s.fab.port port).retry with
  | k :: rest => s.modFab (fun f => f.modPort port (fun q => { q with retry := rest, flight := q.flight ++ [k] }))
  | [] => s

/-- The host's zero-length read behind a release's writes has completed (R318). -/
def State.hostReadDone (s : State) (c id : Nat) : State :=
  s.modCore c (fun x => { x with pge := x.pge.map (fun p =>
    if p.id = id ∧ p.fence = some false then { p with fence := some true } else p) })

/-- The dispatcher finds ARMED in the CONFIG of a header that it does not know (R250). A number that another armed queue holds
arms nothing (DEDUCED, log 32). -/
def State.findQueue (s : State) (asid header : Nat) : State :=
  let q := s.queueNow { num := 0, header := header, asid := asid, n := 0 }
  if s.queueArmed q && !s.armedNums.contains q.num && !s.sys.queues.any (fun x => x.asid = asid && x.header = header) then
    s.knowQueue q
  else s

/-- What a module that is not READY takes no part in (R332, R337). -/
def State.whenReady (s : State) (f : State → State) : State := if s.host.ready then f s else s

/-- The supervisor creates an address space (R48, R149, R294). No image of what bore its ASID before is left (DESIGN CHOICE, log 133). -/
def State.createSpace (s : State) (asid : Nat) (tvec ptbase : Word64) (tableSize heapUnits : Nat) : State :=
  (s.modSys (fun y => { y with images := y.images.filter (fun i => i.asid ≠ asid) })).modSpace asid (fun _ =>
    { tvec := tvec, ptbase := ptbase, tableSize := tableSize, heapUnits := heapUnits })

/-- What comes in from outside. -/
def State.input (s : State) : Input → State
  | .elapse n ns => s.elapse n ns
  | .dramError pa => s.dramError pa
  | .nodeError a n b k => s.nodeError a n b k
  | .tlbDrop c va => s.tlbDrop c va
  | .blockDrop c va => s.blockDrop c va
  | .blockFetch c va => s.blockFetch c va
  | .lineOwn c pa => s.lineOwn c pa
  | .lineRecall _ pa => s.recall pa
  | .peerReply c cmd u d r p => s.peerReply c cmd u d r p
  | .hostMemory a bs p => (s.hostPut a bs).modFlat (fun f =>
      { f with hostPoison := if p then poisonOver f.hostPoison a bs.length else f.hostPoison })
  | .hostPage k absent => s.modFlat (fun f => { f with
      hostAbsent := if absent then insertNat k f.hostAbsent else f.hostAbsent.filter (fun n => n ≠ k) })
  | .hostReadDone c id => s.hostReadDone c id
  | .portSend p => s.portSend p
  | .portReceived p => s.portReceived p
  | .setNode n => s.modSys (fun y => { y with nodeid := n })
  | .setRoute n e => s.modFab (fun f => { f with routes := f.routes.set 0 n e })
  | .kilnCounts a n i o => s.whenReady (fun s => s.remoteCounts a n i o)
  | .kilnRelease a k => s.whenReady (fun s => s.releaseKiln a k)
  | .kilnAbort a k => s.whenReady (fun s => s.abortedBy a k)
  | .markerIn r a k => s.whenReady (fun s =>
    if !entryCores.contains r then s
    else s.modSys (fun y => { y with markers := y.markers ++ [{ router := r, asid := a, k := k }] }))
  | .createSpace a t p n h => s.whenReady (fun s => s.createSpace a t p n h)
  | .registerJob a d r => s.whenReady (fun s => s.registerJob a d r)
  | .armQueue a h => s.whenReady (fun s => s.findQueue a h)
  | .registerRead off => s.registerRead off
  | .hostOther => s.emit .unsupported
  | .resizeBar2 n => if 30 ≤ n ∧ n ≤ 36 then s.modHost (fun h => { h with bar2size := 2 ^ n }) else s

/-! One action. -/

/-- An event row: a reissue takes its context's place in the cycle, and every other one comes after the contexts. -/
def State.event (s : State) (i : Instr) : Out :=
  match i with
  | .repetitionReissue c h => exec i (s.ctxTurn c h)
  | _ => exec i (s.atTurn lastTurn lastTurn)

/-- What an action does. -/
def State.act (s : State) : Action → Out
  | .event i => s.event i
  | .issue c => s.issue c
  | .retry c h => s.retry c h
  | .work w => .next ((s.atTurn lastTurn lastTurn).work w)
  | .input i => .next ((s.atTurn lastTurn lastTurn).input i)

/-! The policy: every action that may have something to do, in one list, and each in its turn. -/

/-- Actions of one context. -/
def Ctx.actions (x : Ctx) (c h : Nat) : List Action :=
  (if x.retries then [.retry c h] else []) ++
  (if x.rep.active then [.event (.repetitionReissue c h)] else []) ++
  (match x.held with
    | .awaitRefused .. => [.event (.awaitRegistrationRetry c h)]
    | .eventRefused .. => [.event (.evwaitRegistrationRetry c h)]
    | .asleep _ => [.event (.sleepWake c h)]
    | .neighbour _ => [.event (.nbrdTimeout c h)]
    | .kilnAsked => [.event (.kilnAnswer c h)]
    | _ => []) ++
  (if x.waitObj.isSome then [.event (.stall c h)] else [])

/-- Actions of one core. -/
def Core.actions (x : Core) (c : Nat) : List Action :=
  (if x.team.isSome then [.issue c] else []) ++
  x.ctxs.flatMap (fun (e : Nat × Ctx) => e.2.actions c e.1) ++
  x.pge.flatMap (fun p =>
    if p.prog.over then (if p.awaitsHost then [.work (.pge c p.id)] else [.event (.bump c p.id)])
    else if p.tries.refusals ≠ 0 then [.event (.sendIRetry c p.id)]
    else (.work (.pge c p.id) :: p.parts.map (fun k => .event (.nmcPart c p.id k))) ++
      (if p.sentAt.isSome then [.event (.remoteAtomicTimeout c p.id)] else [])) ++
  x.mx.flatMap (fun m =>
    match m.phase with
    | .ended .. => [.event (.bump c m.id)]
    | .running => [.work (.mx c m.id), .event (.matrixSuspend c m.id), .event (.msplitJoin c m.id)]
    | _ => [.event (.matrixCommandStart c m.id)]) ++
  (if x.phase.arrivals.isEmpty then [] else [.event (.phaseCompletion c)]) ++
  (if x.exited && !x.partEnded then [.work (.part c)] else []) ++
  (if x.drain.isEmpty then [] else [.event (.lineDrain c), .event (.kilnDrainTimeout c)])

/-- The first free place of a shape. -/
def State.somePlace (s : State) (w h : Nat) : Option (Nat × Nat) :=
  ((upFrom 0 Config.meshRows).flatMap (fun r => (upFrom 0 28).map (fun k => (r, 8 * k)))).find? (fun q => s.rectFree q.1 q.2 w h)

/-- Actions of the system die. -/
def State.sysActions (s : State) : List Action :=
  s.sys.lin.flatMap (fun l =>
    match l.prog with
    | .ended .. => [.event (.bump l.core l.id)]
    | _ => [.work (.lin l.core l.id), .event (.nodeSwitch (l.core * 2 ^ 32 + l.id))]) ++
  s.sys.spaces.flatMap (fun (e : Nat × AddrSpace) => e.2.splices.map (fun x => .event (.splice (e.1 * 2 ^ 24 + x.husk)))) ++
  s.armedNums.map (fun n => .event (.queueDispatch n)) ++
  s.sys.packets.map (fun p => .event (
    if p.ended.isSome then .packetCompletion p.id
    else
      match p.kind with
      | 1 => .launch p.id
      | 2 => if p.begun then .barrierRound p.id else .barrier p.id
      | 3 => .copy p.id
      | 4 => .nmem p.id
      | 5 => .eventPacket p.id
      | _ => .nopPacket p.id)) ++
  (s.sys.tasks.zipIdx).flatMap (fun (q : TaskEntry × Nat) =>
    if q.1.ready then
      match s.somePlace q.1.width q.1.height with
      | some p => [.event (.taskPlace q.2 p.1 p.2)]
      | none => []
    else []) ++
  s.sys.teams.flatMap (fun t =>
    match t.phase with
    | .placed => [.event (.wake t.id)]
    | .waking => [.event (if t.resumes then .teamResume t.id else .teamStart t.id)]
    | .running => [.event (.taskComplete t.id), .event (.takeRequest t.id)] ++
        (if t.take then [.event (.teamSave t.id), .event (.takeWithdraw t.id)] else [])
    | .failing .. => [.work (.failDone t.id)]) ++
  (if s.sys.containments.isEmpty then [] else [.work .contain]) ++
  (if s.sys.notices.isEmpty then [] else [.work .notice]) ++
  s.sys.pageReqs.map (fun q => .event (.kilnPageCopy q.asid q.va)) ++
  s.sys.jobs.flatMap (fun j =>
    match j.running with
    | some _ => [.event (.kilnComplete j.asid)]
    | none => []) ++
  s.sys.markers.map (fun m => .event (.marker m.router m.k)) ++
  (s.flat.rmWrites.zipIdx).flatMap (fun (w : RmWrite × Nat) => w.1.dies.map (fun d => .work (.replica w.2 d))) ++
  (upFrom 0 s.flat.tuples.length).map (fun i => .event (.tagTupleExpiry i))

/-- Actions of the host port and the fabric that need nothing from outside. -/
def State.portActions (s : State) : List Action :=
  [.event (.ptmDialogue s.host.timeerr)] ++
  s.fab.ports.flatMap (fun (e : Nat × Port) =>
    if h : e.1 < 16 then
      (if e.2.queue.isEmpty then [] else [.input (.portSend e.1)]) ++
      (if e.2.round.isSome then [.event (.drainRound ⟨e.1, h⟩)] else [])
    else []) ++
  s.fab.windows.flatMap (fun (e : Nat × PeerWindow) =>
    if h : e.1 < 128 then
      (if e.2.closedAt.isSome || s.fab.ports.any (fun q => (q.2.queue ++ q.2.retry ++ q.2.flight).any (fun k =>
        decide (k.window = e.1) && k.closed.isSome)) then [.event (.peerRetireTimeout ⟨e.1, h⟩)] else [])
    else [])

/-- Every action that may have something to do. -/
def State.actions (s : State) : List Action :=
  s.cores.flatMap (fun (e : Nat × Core) => e.2.actions e.1) ++ s.sysActions ++ s.portActions

/-- The action of the policy: each of the list in its turn, by the cycle. -/
def State.choose (s : State) : Action :=
  let l := s.actions
  l[s.cycle % l.length]?.getD (.input (.elapse 0 0))

end Sys2Proof.Machine
end

