-- ==== Sys2Proof/Machine/Place.lean ====
section
/-! DEFINITION. A small running machine around one instruction: page tables, a team of 8 × 1 cores and context h0 of
core 0 at the instruction, which `State.withFetchWord` and the model's own tests use (DESIGN CHOICE, log 3). -/

namespace Sys2Proof.Machine

open Sys2Proof

/-- Where the code of `State.running` lies: virtual, and physical. -/
abbrev codeVa : Nat := 0x1000
abbrev codePa : Nat := 0x401000

/-- The bytes of memory that the first 2 MiB of addresses take to be translated: a pointer in the level-3 table at 0x100000
and in the level-2 table at 0x200000, and a leaf of 2 MiB in the level-1 table at 0x201000, with R, W and X. -/
def tableCells : List (Nat × List Byte) :=
  [(0x100000, leBytes 8 0x200001), (0x200000, leBytes 8 0x201001), (0x201000, leBytes 8 0x40001F)]

/-- A byte store with bytes written at places. -/
def writeCells (m : Mem) (l : List (Nat × List Byte)) : Mem := l.foldl (fun m e => m.write e.1 e.2) m

/-- Flat memory with those tables and bytes at `codePa`, none of them poisoned or locked. -/
def Flat.withCode (f : Flat) (bs : List Byte) : Flat :=
  { f with
    hbm := writeCells f.hbm (tableCells ++ [(codePa, bs)])
    poison := f.poison.filter (fun e => !([0x8000, 0x10000, 0x10080, 0x20080].contains e.1))
    lost := f.lost.filter (fun e => !([0x8000, 0x10000, 0x10080, 0x20080].contains (e.1 / 4)))
    rmWrites := f.rmWrites.filter (fun w => !([0x100, 0x200, 0x201, codePa / 4096].contains w.granule)) }

/-- A team of eight cores that runs on row 0, columns 0 to 7. -/
def smallTeam : Team :=
  { id := 1, rec' := 0, asid := 0, pkt := 0, queue := 0, base := 0, sup := true, row0 := 0, col0 := 0, width := 8, height := 1
    phase := .running }

/-- Context h0 about to issue at `codeVa`, in supervisor mode. -/
def Ctx.atCode (x : Ctx) : Ctx :=
  { x with live := true, pc := w64 codeVa, sup := true, left := 65280, waitSince := none, waitObj := none, held := .none
           parked := none, reserved := [], rep := { x.rep with active := false, trap := none, stopped := false } }

/-- Core 0 of that team, whose h0 takes the issue slot next. -/
def Core.atCode (x : Core) : Core :=
  ({ x with team := some 1, partEnded := false, rr := 10, curPtbase := 0x100000, icache := [], tlb := [] } : Core).modCtx 0 Ctx.atCode

/-- The state in which core 0 runs the bytes as its next instruction. -/
def State.running (s : State) (bs : List Byte) : State :=
  { s with
    agenda := [.issue 0]
    cores := s.cores.put 0 (s.core 0).atCode
    dies := s.dies.put 0 { s.die 0 with tlb := [] }
    flat := s.flat.withCode bs
    sys := { s.sys with teams := smallTeam :: s.sys.teams.filter (fun t => t.id ≠ 1) } }

end Sys2Proof.Machine
end

