-- ==== Sys2Proof/Machine/Step.lean ====
section
/-! DEFINITION. One step of the machine: the agenda's first action, or the policy's (DESIGN CHOICE, log 1). -/

namespace Sys2Proof.Machine

open Sys2Proof

/-- One step. -/
def step (s : State) : Host.Outcome State Fault Refusal :=
  match s.agenda with
  | a :: rest => ({ s with agenda := rest } : State).act a
  | [] => s.tick.act s.choose

/-- The state with an instruction's bits where the next step fetches: the bytes of the parcels, lowest first (R50). A team
runs on cores 0 to 7, pages translate its code, and its core 0 has the next turn: what a loaded and launched program has
(DESIGN CHOICE, log 3). -/
def State.withFetchWord (s : State) (nbits w : Nat) : State := s.running (leBytes 16 (w % 2 ^ nbits))

end Sys2Proof.Machine
end

