-- ==== Sys2Proof/Safety.lean ====
section
/-! DEFINITION. What counts as a safe run, and the words that claims use: a step that goes on, what an instruction leaves
alone, and the effects that many instructions share. -/

namespace Sys2Proof

open Sys2Proof.Machine

/-- A state from which the next step is a state again: the machine neither stops with a fault nor refuses. -/
def Goes (s : State) : Prop := ∃ t, step s = .next t

/-- States that steps lead to. -/
inductive Reaches (s : State) : State → Prop where
  | here : Reaches s s
  | step {t u : State} : Reaches s t → step t = .next u → Reaches s u

/-- A run is safe when it goes on from every state that it reaches. -/
def SafeFrom (s : State) : Prop := ∀ t, Reaches s t → Goes t

/-- The byte stores of flat memory have their canonical form: addresses rise, and no byte equals what an unlisted address
reads as. -/
def MemOk (s : State) : Prop := s.flat.hbm.wf = true ∧ s.flat.host.wf = true

/-! What an instruction leaves alone. -/

/-- A context without what every completion changes, and without its scalar registers. -/
def ctxRest (x : Ctx) : Ctx :=
  { x with sregs := [], pc := 0, left := 0, waitSince := none, waitObj := none, held := .none }

/-- A core without its contexts. -/
def coreRest (x : Core) : Core := { x with ctxs := [] }

/-- Two states differ in core c at most. -/
structure OnlyCore (c : Nat) (s t : State) : Prop where
  whole : t = { s with cores := t.cores }
  others : ∀ k, k ≠ c → t.core k = s.core k

/-- Two states differ in the running context at most, and in what `k` says of the rest of its core. -/
structure OnlyMe (s t : State) (k : Core → Core) : Prop where
  core : OnlyCore s.curCore s t
  home : coreRest t.home = k (coreRest s.home)
  ctxs : ∀ h, h ≠ s.curCtx → t.home.ctx h = s.home.ctx h

/-- The running context has completed its instruction: its next one is at npc, one more instruction of its window is
counted, and it waits for nothing (R69, R91). -/
structure Completed (s t : State) (npc : Word64) : Prop where
  pc : t.me.pc = npc
  left : t.me.left = s.me.counted
  idle : t.me.waitSince = none ∧ t.me.waitObj = none ∧ t.me.held = .none

/-- Register d holds v with the D bit db, s0 reads as zero, and every other scalar register is as before (R74, R76). -/
structure SetsReg (x y : Ctx) (d : Nat) (v : Word64) (db : Bool) : Prop where
  vals : ∀ r, y.sv r = if r = 0 then 0 else if r = d then v else x.sv r
  dbits : ∀ r, y.dbit r = if r = 0 then false else if r = d then db else x.dbit r

/-- The step answers a next state in which the running context has completed, register d holds v with the D bit db (no
register when d is 0), `g` says what else of the context has changed, `k` what else of its core, and nothing else has. -/
def Gives (s : State) (o : Host.Outcome State Fault Refusal) (npc : Word64) (d : Nat) (v : Word64) (db : Bool)
    (g : Ctx → Ctx) (k : Core → Core) : Prop :=
  ∃ t, o = .next t ∧ OnlyMe s t k ∧ Completed s t npc ∧ SetsReg s.me t.me d v db ∧ ctxRest t.me = g (ctxRest s.me)

/-- As `Gives`, with nothing changed but the register. -/
def Writes (s : State) (o : Host.Outcome State Fault Refusal) (npc : Word64) (d : Nat) (v : Word64) (db : Bool) : Prop :=
  Gives s o npc d v db id id

/-- The instruction completes, writes no register and changes of its context and core what `g` and `k` say. -/
def Leaves (s : State) (o : Host.Outcome State Fault Refusal) (npc : Word64) (g : Ctx → Ctx) (k : Core → Core) : Prop :=
  Gives s o npc 0 0 false g k

/-- The step answers a next state in which the running context is x and nothing else has changed. -/
def Becomes (s : State) (o : Host.Outcome State Fault Refusal) (x : Ctx) : Prop :=
  ∃ t, o = .next t ∧ OnlyMe s t id ∧ t.me = x

/-- A trap finds a handler: TVEC is not zero and no handler runs (R295). -/
def HasHandler (s : State) : Prop := bits s.home.tvec.toNat 51 2 ≠ 0 ∧ s.me.nest = false

/-- The step takes a trap: what trap_enter of R295 saves and changes, and nothing else. -/
def Traps (s : State) (o : Host.Outcome State Fault Refusal) (cause : Nat) (faddr : Word64) : Prop :=
  Becomes s o { s.me with
    epc := s.me.pc, cause := BitVec.ofNat 64 cause, faddr := faddr, psup := s.me.sup, sup := true, nest := true
    pc := s.home.tvec, left := s.me.counted, waitSince := none, waitObj := none, held := .none
    rep := { s.me.rep with stopped := s.me.rep.active, waitSince := none, trap := none } }

/-- No record of the running context waits for delivery (R299). -/
def NoRecords (s : State) : Prop := ∀ r ∈ s.home.faultq, r.ctx ≠ s.curCtx

/-- The step leaves the context at its instruction, waiting for an object of R302 that it names, since now or since the
wait began; nothing else has changed. -/
def WaitsFor (s : State) (o : Host.Outcome State Fault Refusal) (kind obj : Nat) : Prop :=
  Becomes s o { s.me with
    left := s.me.counted, waitObj := some (kind, obj), waitSince := some (s.me.waitSince.getD s.cycle) }

/-- The running context has not yet waited as long as YSTALL allows (R93). -/
def MayWait (s : State) : Prop := s.cycle - s.me.waitSince.getD s.cycle < s.me.ystall.toNat

/-- The instruction completes and sets predicate p to v; p0 stays all ones (R74, R174). -/
def WritesPred (s : State) (o : Host.Outcome State Fault Refusal) (npc : Word64) (p : Nat) (v : Word64) : Prop :=
  ∃ t, o = .next t ∧ OnlyMe s t id ∧ Completed s t npc ∧ SetsReg s.me t.me 0 0 false ∧
    (∀ r, t.me.pv r = if r = 0 then BitVec.allOnes 64 else if r = p then v else s.me.pv r) ∧
    { ctxRest t.me with preds := [] } = { ctxRest s.me with preds := [] }

/-- The instruction completes having written the bytes bs at address e of local space sp and having changed the tags of the
lines that `hit` names by `tag`; every other byte and tag of the core, its registers and everything outside it are as
before. -/
def StoresLocal (s : State) (o : Host.Outcome State Fault Refusal) (npc : Word64) (sp : Space) (e : Nat) (bs : List Byte)
    (hit : Nat → Bool) (tag : Tag → Tag) : Prop :=
  ∃ t, o = .next t ∧
    OnlyMe s t (fun x => { x with w := t.home.w, a := t.home.a, c := t.home.c, tags := t.home.tags, dirty := t.home.dirty }) ∧
    Completed s t npc ∧ SetsReg s.me t.me 0 0 false ∧ ctxRest t.me = ctxRest s.me ∧
    (∀ sp' a, (t.home.store sp').get a =
      if sp' = sp ∧ e ≤ a ∧ a < e + bs.length then bs.getD (a - e) 0 else (s.home.store sp').get a) ∧
    ∀ l, t.home.tag l = if hit l then tag (s.home.tag l) else s.home.tag l

/-! Engine commands. -/

/-- The put-and-get engine has room for a command of the running context, and so have the context's outstanding counters
(R80, R443). -/
def MayIssue (s : State) (i : Instr) : Prop :=
  s.home.pge.length < 32 ∧ (countsOl i = true → s.me.ol ≠ 0xFFFF) ∧ (countsOs i = true → s.me.os ≠ 0xFFFF)

/-- What issuing a command changes of its context: the sequence number, ol or os, and a register that it reserves (R80,
R298, R340). -/
def issuedCtx (i : Instr) (id : Nat) (x : Ctx) : Ctx :=
  { x with
    seq := x.seq + 1
    ol := if countsOl i then x.ol + 1 else x.ol
    os := if countsOs i then x.os + 1 else x.os
    reserved := if resultReg i = 0 then x.reserved else x.reserved.put (resultReg i) id }

/-- A command as it stands when it has issued: it has done nothing yet, and it holds the values of its registers, its
binding, its colour, its address space and its mode (R135, R180, R270, R298). -/
def newCommand (s : State) (i : Instr) (va vb vc : Word64) (img : List Byte) : PgeCmd :=
  { id := s.home.nextId, ctx := s.curCtx, life := s.me.life, pc := s.me.pc, seq := s.me.seq, ins := i, va := va, vb := vb, vc := vc
    img := img
    bind := match s.home.guard (Machine.gdOf i) with | .tru => .val true | .fls => .val false | .pending => .slot (Machine.gdOf i)
    colour := decide (s.home.knum.toNat % 2 = 1), asid := s.asidOf s.curCore, sup := s.me.sup }

/-- The instruction completes having put one command into the put-and-get engine, and nothing else has changed. -/
def Issues (s : State) (o : Host.Outcome State Fault Refusal) (npc : Word64) (i : Instr) (va vb vc : Word64)
    (img : List Byte) : Prop :=
  Leaves s o npc (issuedCtx i s.home.nextId)
    (fun x => { x with pge := x.pge ++ [newCommand s i va vb vc img], nextId := x.nextId + 1 })

/-- The instruction completes having put one command into the matrix queue, which the array counts as its next arrival;
nothing else has changed (R193, R201, R443). -/
def QueuesMatrix (s : State) (o : Host.Outcome State Fault Refusal) (i : Instr) (va vb vc : Word64) (img : List Byte)
    (fail : Option (Nat × Word64)) : Prop :=
  let k := clusterOf s.curCore
  let m : MxCmd :=
    { id := s.home.nextId, ctx := s.curCtx, life := s.me.life, pc := s.me.pc, seq := s.me.seq, rep := none, ins := i
      va := va, vb := vb, vc := vc
      img := img
      bind := match s.home.guard (Machine.gdOf i) with | .tru => .val true | .fls => .val false | .pending => .slot (Machine.gdOf i)
      colour := decide (s.home.knum.toNat % 2 = 1), asid := s.asidOf s.curCore, sup := s.me.sup
      arrival := (s.cluster k).nextArrival, since := s.cycle, fail := fail }
  Leaves (s.modCluster k (fun x => { x with nextArrival := x.nextArrival + 1 })) o (s.me.pc + 16) (issuedCtx i s.home.nextId)
    (fun x => { x with mx := x.mx ++ [m], nextId := x.nextId + 1 })

/-- A core's first-level TLB holds a translation that allows an access to a flat address (R146, R147). -/
def Hits (s : State) (c : Nat) (sup : Bool) (k : Kind) (va : Nat) (e : TlbEntry) : Prop :=
  va < 2 ^ 52 ∧ tlbFind (s.core c).tlb (s.core c).curAsid.toNat va = some e ∧ e.permits k sup va = true

/-- Nothing watches counter ct of a core: no entry of its waiting-task table names it, and no kiln of its job runs, so that
a bump changes the counter alone (R265, R278). -/
def QuietCounter (s : State) (c ct : Nat) : Prop :=
  (∀ e ∈ (s.core c).wtt, e.2.ct ≠ ct) ∧ (s.job (s.asidOf c)).bind Job.running = none

/-! Repetitions. -/

/-- The path of a capture (R175, R401): NOP words passed over, BR words followed, other words captured; `Captures k n pc s
caps pc' t` says that n words from pc on are caps, that the capture fetches k words, and where it ends. -/
inductive Captures : (k n : Nat) → Word64 → State → List Instr → Word64 → State → Prop where
  | done (pc : Word64) (s : State) : Captures 0 0 pc s [] pc s
  | nop {k n : Nat} {pc pc' : Word64} {s t u : State} {caps : List Instr} (h : s.fetch pc.toNat = .ok (.nop, t))
      (r : Captures k (n + 1) (pc + 8) t caps pc' u) : Captures (k + 1) (n + 1) pc s caps pc' u
  | br {k n : Nat} {pc pc' : Word64} {s t u : State} {caps : List Instr} (off : BitVec 32)
      (h : s.fetch pc.toNat = .ok (.br off, t))
      (r : Captures k (n + 1) (pc + BitVec.ofInt 64 off.toInt) t caps pc' u) : Captures (k + 1) (n + 1) pc s caps pc' u
  | word {k n : Nat} {pc pc' : Word64} {s t u : State} {caps : List Instr} (i : Instr) (hc : capturable i = true)
      (h : s.fetch pc.toNat = .ok (i, t)) (r : Captures k n (pc + BitVec.ofNat 64 i.len) t caps pc' u) :
      Captures (k + 1) (n + 1) pc s (i :: caps) pc' u

/-! Vector instructions. -/

/-- One lane's result: its 32 bits, the flags of FRM that it raises, and whether it raises ISTAT.SAT. -/
structure LaneOut where
  val : Word32
  flags : Flags := 0
  sat : Bool := false

/-- The vector instruction completes having written register vd lane by lane: a lane that is on receives its result, one
that is off receives zero under .z and otherwise keeps its value, and lanes outside the claim keep theirs; the flags of the
lanes that are on are made sticky, and each of them for which `drawn` holds has taken one draw of its generator (R421,
R422). -/
def WritesLanes (s : State) (o : Host.Outcome State Fault Refusal) (vd : VReg) (m : VMask) (drawn : Nat → Bool)
    (f : Nat → LaneOut) : Prop :=
  let on := (List.range s.me.vcount.val).filter (fun l => (s.me.pv m.pm.val).getLsbD l)
  ∃ t, o = .next t ∧ OnlyMe s t id ∧ Completed s t (s.me.pc + 12) ∧ SetsReg s.me t.me 0 0 false ∧
    (∀ v l, v < 16 → l < 64 → t.me.lane v l =
      if v = vd.val ∧ l < s.me.vcount.val then
        (if (s.me.pv m.pm.val).getLsbD l then (f l).val else if m.zm then 0 else s.me.lane v l)
      else s.me.lane v l) ∧
    t.me.frm = on.foldl (fun a l => a ||| (f l).flags) s.me.frm ∧
    t.me.istat = s.me.istat ||| (if on.any (fun l => (f l).sat) then 2#2 else 0#2) ∧
    (∀ l, t.me.gen genSeed l =
      if drawn l && on.contains l then BitVec.ofNat 32 (genAdvance 16 (s.me.gen genSeed l).toNat) else s.me.gen genSeed l) ∧
    { ctxRest t.me with vregs := [], frm := 0, istat := 0, gens := [] } =
      { ctxRest s.me with vregs := [], frm := 0, istat := 0, gens := [] }

/-- Lane l of the second operand of a vector instruction (R420). -/
def secondLane (x : Ctx) (b : VOperand) (l : Nat) : Word32 :=
  match b with
  | .vec v => x.lane v.val l
  | .scalar r => (x.sv r.val).setWidth 32

/-- The context holds a claim, and no scalar register that a vector instruction names is deferred (R420). -/
def VecReady (s : State) (b : VOperand) : Prop :=
  s.me.vcount ≠ 0 ∧ ∀ r, b = .scalar r → s.me.dbit r.val = false

/-- An integer element as it fills a lane: sign-extended from a signed type, zero-extended otherwise, taken modulo its
width (R119, R419). -/
def laneOfInt (ty : ElemType) (i : Int) : Word32 :=
  if isSignedInt ty then (BitVec.ofInt ty.bits i).signExtend 32 else (BitVec.ofInt ty.bits i).setWidth 32

/-- The draw of generator l that a rounding in a mode uses (R110, R422). -/
def laneDraw (x : Ctx) (rm : RoundMode) (l : Nat) : Nat := if rm = .rs then (x.gen genSeed l).toNat % 2 ^ 16 else 0

/-- An exact value with flags f rounded into lane l in a floating type (R101, R115, R422). -/
def laneRound (x : Ctx) (ty : ElemType) (rm : RoundMode) (l : Nat) (v : Machine.Num × Flags) : LaneOut :=
  { val := BitVec.ofNat 32 ((roundVec x ty rm (laneDraw x rm l) v.1).1 % 2 ^ ty.bits)
    flags := v.2 ||| (roundVec x ty rm (laneDraw x rm l) v.1).2 }

/-! Forms of scalar instructions. -/

/-- The form OP d, a, b: d := f(sv(a), sv(b)), deferred when a source is (R76, R344). -/
def RForm (mk : Reg → Reg → Reg → Instr) (f : Word64 → Word64 → Word64) : Prop :=
  ∀ d a b s, Writes s (exec (mk d a b) s) (s.me.pc + 8) d.val (f (s.me.sv a.val) (s.me.sv b.val))
    (s.me.dbit a.val || s.me.dbit b.val)

/-- The form OP d, a, imm: the immediate is sign-extended (R57, R344). -/
def IForm (mk : Reg → Reg → BitVec 32 → Instr) (f : Word64 → Word64 → Word64) : Prop :=
  ∀ d a imm s, Writes s (exec (mk d a imm) s) (s.me.pc + 8) d.val (f (s.me.sv a.val) (BitVec.ofInt 64 imm.toInt))
    (s.me.dbit a.val)

/-- The form OP d, a. -/
def UForm (mk : Reg → Reg → Instr) (f : Word64 → Word64) : Prop :=
  ∀ d a s, Writes s (exec (mk d a) s) (s.me.pc + 8) d.val (f (s.me.sv a.val)) (s.me.dbit a.val)

/-- The integer condition of R59, in numbers. -/
def holdsInt (k : Cond) (a b : Word64) : Bool :=
  match k with
  | .eq => decide (a = b)
  | .ne => decide (a ≠ b)
  | .lt => decide (a.toInt < b.toInt)
  | .le => decide (a.toInt ≤ b.toInt)
  | .gt => decide (b.toInt < a.toInt)
  | .ge => decide (b.toInt ≤ a.toInt)
  | .ltu => decide (a.toNat < b.toNat)
  | .leu => decide (a.toNat ≤ b.toNat)
  | .gtu => decide (b.toNat < a.toNat)
  | .geu => decide (b.toNat ≤ a.toNat)

/-- A floating result rounded once into d: the element that `roundFloat` gives for an exact value v with flags f, its
flags made sticky in FRM, and under RS one draw of generator 64 taken (R101, R110, R113, R361). -/
def RoundsTo (s : State) (o : Host.Outcome State Fault Refusal) (ty : ElemType) (rm : RoundMode) (d : Nat)
    (v : Machine.Num × Flags) (db : Bool) : Prop :=
  let g := (s.me.gen genSeed 64).toNat
  let e := roundFloat ty rm (if rm = .rs then g % 2 ^ 16 else 0) v.1
  Gives s o (s.me.pc + 8) d (BitVec.ofNat 64 (e.1 % 2 ^ ty.bits)) db
    (fun x => { x with
      frm := x.frm ||| (v.2 ||| e.2)
      gens := if rm = .rs then x.gens.put 64 (BitVec.ofNat 32 (genAdvance 16 g)) else x.gens }) id

/-- The element of a wide floating type in the low bits of a word (R360). -/
def floatIn (ty : ElemType) (w : Word64) : Machine.Num := decodeFloat ty (w.toNat % 2 ^ ty.bits)

/-! Flat memory and the units of the system die. -/

/-- A write to flat memory changes memory and its poison alone: no job has kilns, no line buffer holds a line, no granule is
locked and no AWAIT waits (R232, R233, R244, R281). -/
structure Calm (s : State) : Prop where
  jobs : s.sys.jobs = []
  lines : ∀ q ∈ s.cores, q.2.linebuf = []
  locks : s.flat.rmWrites = []
  waiters : s.flat.waiters = []

/-- A unit of the system die reads and writes n bytes at a virtual address of a space at pa of HBM, in one page that is not
read-mostly. -/
structure SysPage (s : State) (asid va n pa : Nat) : Prop where
  page : ∃ e, s.sysXlate asid true .both va = .ok e ∧ va + n ≤ e.va + e.size ∧ e.phys va = pa ∧ e.rm = false
  hbm : pa + n ≤ Config.hbmSize

/-- The same, and the bytes hold no poison. -/
structure SysAt (s : State) (asid va n pa : Nat) : Prop where
  page : ∃ e, s.sysXlate asid true .both va = .ok e ∧ va + n ≤ e.va + e.size ∧ e.phys va = pa ∧ e.rm = false
  hbm : pa + n ≤ Config.hbmSize
  clean : s.hbmPoisoned pa n = false

/-- The two states differ in flat memory at most: bytes bs stand at pa, every other byte is as before; with `bad` every
sector touched is poisoned, without it every sector covered whole is clean, in each die's replica too, and the others are as
before (R133, R134, R232). -/
structure WritesHbm (s t : State) (pa : Nat) (bs : List Byte) (bad : Bool) : Prop where
  whole : t = { s with flat := { s.flat with hbm := t.flat.hbm, poison := t.flat.poison, lost := t.flat.lost } }
  bytes : ∀ a, t.flat.hbm.get a = if pa ≤ a ∧ a < pa + bs.length then bs.getD (a - pa) 0 else s.flat.hbm.get a
  poison : ∀ k, t.flat.poison.get false k =
    if bad then s.flat.poison.get false k || decide (bs ≠ [] ∧ pa / 32 ≤ k ∧ k ≤ (pa + bs.length - 1) / 32)
    else s.flat.poison.get false k && !decide (pa ≤ 32 * k ∧ 32 * k + 32 ≤ pa + bs.length)
  lost : ∀ k die, die < 4 → t.flat.lost.get false (4 * k + die) =
    (s.flat.lost.get false (4 * k + die) && (bad || !decide (pa ≤ 32 * k ∧ 32 * k + 32 ≤ pa + bs.length)))

/-- Every BARRIER packet is asked for a new round (R254). -/
def pokedSys (y : SysDie) : SysDie := { y with packets := y.packets.map (fun p => { p with poke := true }) }

/-- What waits for a packet of the system die, and its state otherwise. -/
def withPacketAs (s : State) (pid : Nat) (f : Packet → Packet) : State :=
  { s with sys := { s.sys with packets := s.sys.packets.map (fun p => if p.id = pid then f p else p) } }

/-- MGMT_ERR after an error of a kind at an address: the first one is kept, each counts up to 127 (R316). -/
def loggedErr (e : Word64) (kind addr : Nat) : Word64 :=
  if e.getLsbD 63 then (if e.toNat / 2 ^ 56 % 2 ^ 7 < 127 then e + 2 ^ 56 else e)
  else BitVec.ofNat 64 (addr % 2 ^ 48 + kind * 2 ^ 48 + 2 ^ 56 + 2 ^ 63)

/-- The state after an error has been logged, and signalled where MGMT_CTL.ERRIRQ is set (R316). -/
def logged (s : State) (kind addr : Nat) : State :=
  { s with host := { s.host with
      err := loggedErr s.host.err kind addr, out := if s.host.errirq then s.host.out ++ [.msix] else s.host.out } }

/-- The state after answers have left the host port. -/
def answers (s : State) (os : List HostOut) : State := { s with host := { s.host with out := s.host.out ++ os } }

/-- The state after an answer has left for a node, by the first of its routes that is up; without one it is lost (R320). -/
def repliedTo (s : State) (node : Nat) (o : FabOut) : State :=
  match s.fab.choose node false with
  | some p => { s with fab := { s.fab with out := s.fab.out ++ [(p, o)] } }
  | none => s

/-- The two states differ in one 8-byte unit of flat memory at most: bytes bs stand at pa; the unit's sector becomes poisoned, or
clean in each die's replica too, or keeps what it had, and the others are as before (R133, R232, R442). -/
structure WritesUnit (s t : State) (pa : Nat) (bs : List Byte) (sets clears : Bool) : Prop where
  whole : t = { s with flat := { s.flat with hbm := t.flat.hbm, poison := t.flat.poison, lost := t.flat.lost } }
  bytes : ∀ a, t.flat.hbm.get a = if pa ≤ a ∧ a < pa + bs.length then bs.getD (a - pa) 0 else s.flat.hbm.get a
  poison : ∀ k, t.flat.poison.get false k =
    if k = pa / 32 then sets || s.flat.poison.get false k && !clears else s.flat.poison.get false k
  lost : ∀ k die, die < 4 → t.flat.lost.get false (4 * k + die) =
    (s.flat.lost.get false (4 * k + die) && !(decide (k = pa / 32) && clears))

/-! The put-and-get engine's own steps. -/

/-- A command stands first in its core's put-and-get engine and may act, its guard holds, no line waits to be drained, and flat
memory is calm. -/
structure EngineTurn (s : State) (c : Nat) (p : PgeCmd) : Prop where
  first : (s.core c).pge.head? = some p
  one : ∀ q ∈ (s.core c).pge, q.id = p.id → q = p
  ready : s.pgeReady c p = true
  bound : p.bind = .val true
  calm : Calm s
  drained : ∀ d, (s.core d).drain = []

/-- A core with a command q in place of its command p. -/
def withCommand (p q : PgeCmd) (x : Core) : Core := { x with pge := x.pge.map (fun z => if z.id = p.id then q else z) }

/-- The step has left of state u all but command p of core c, which has become q. -/
structure Advances (u t : State) (c : Nat) (p q : PgeCmd) : Prop where
  whole : OnlyCore c u t
  core : t.core c = withCommand p q (u.core c)

/-- A command whose work has ended with a status and the address word of its record (R297). -/
def endedAs (p : PgeCmd) (st : Nat) (addr : Word64) : PgeCmd := { p with prog := .ended st addr, outUnits := [] }

/-- The state with line l of core c spent, where a tagged read has ended at it (R129). -/
def spentAt (s : State) (c l : Nat) (hit : Bool) : State :=
  if hit then s.modCore c (fun x => x.setTag l { x.tag l with u := true }) else s

/-- The two states differ in the local store of core d at most: bytes bs stand at e of space sp, line l has the tag g, and every
other byte and tag is as before. -/
structure Fills (s t : State) (d : Nat) (sp : Space) (e : Nat) (bs : List Byte) (l : Nat) (g : Tag) : Prop where
  core : OnlyCore d s t
  rest : t.core d = { s.core d with
    w := (t.core d).w, a := (t.core d).a, c := (t.core d).c, tags := (t.core d).tags, dirty := (t.core d).dirty }
  bytes : ∀ sp' a, ((t.core d).store sp').get a =
    if sp' = sp ∧ e ≤ a ∧ a < e + bs.length then bs.getD (a - e) 0 else ((s.core d).store sp').get a
  tags : ∀ j, (t.core d).tag j = if j = l then g else (s.core d).tag j

/-- A line's tag after a command has written the unit at address a of its local extent [lo, hi): P is set by a poisoned unit; at the
line's end a tagged write makes the line full, and one that covered the line whole with clean units clears P. `bad` says that
the unit is poisoned, `before` that an earlier one of the line was (R129, R133, R134). -/
def filledTag (a lo hi : Nat) (sets bad before : Bool) (g : Tag) : Tag :=
  let ends := decide ((a + 8) % 256 = 0 ∨ a + 8 = hi)
  { v := g.v || sets && ends
    u := g.u && !(sets && ends)
    p := (g.p || bad) && !(ends && decide (lo ≤ a / 256 * 256 ∧ a / 256 * 256 + 256 ≤ hi) && !bad && !before) }

/-! The matrix array. -/

/-- An output of the array with a term added to it; the first term is written (R108, R120). -/
def withTerm (o : OutAcc) (t : Nat) (f : Flags) : OutAcc :=
  match o.cur with
  | none => { o with cur := some t, flags := o.flags ||| f, changed := true }
  | some v => { o with cur := some (add32 v (val32 t)).1, flags := o.flags ||| f ||| (add32 v (val32 t)).2, changed := true }

/-- An integer output after a run of positions with weights ws and activations xs, whose weights sum to qw: the four sums of its group
so far, or, where the group ends, the term that they make, bounded before it is rounded (R108, R121). -/
def withRun (o : OutAcc) (ws xs : List Int) (qw : Int) (ends : Bool) (wrec arec : Machine.Num × Int) : OutAcc :=
  let a := o.part.getD 0 0 + ((ws.zip xs).map (fun p => p.1 * p.2)).sum
  let b := o.part.getD 1 0 + xs.sum
  let w := o.part.getD 2 0 + qw
  let n := o.part.getD 3 0 + xs.length
  let sum := a - wrec.2 * b - arec.2 * w + n * wrec.2 * arec.2
  let most : Int := 2 ^ 31 - 1
  let held := if sum < -most then -most else if most < sum then most else sum
  let scale := rne32 (mulNum wrec.1 arec.1).1
  let count := rne32 (Num.ofInt held)
  let product := mulNum (val32 scale.1) (val32 count.1)
  let term := rne32 product.1
  if ends then
    { withTerm o term.1 ((mulNum wrec.1 arec.1).2 ||| scale.2 ||| count.2 ||| product.2 ||| term.2) with
      part := [], sat := o.sat || decide (held ≠ sum) }
  else { o with part := [a, b, w, n] }

/-- A Cask unit's dot product: the exact sum of each block of 32 rounded once, the first written and the others added in order
(R122). -/
def dotOf (ps : List (Machine.Num × Machine.Num)) : Nat × Flags :=
  (List.range ((ps.length + 31) / 32 - 1)).foldl (fun t j =>
    let b := blockSum ((ps.drop (32 * (j + 1))).take 32)
    ((add32 t.1 (val32 b.1)).1, t.2 ||| b.2 ||| (add32 t.1 (val32 b.1)).2)) (blockSum (ps.take 32))

/-- The two states differ in the local store and the matrix queue of core c at most, and in the free values taken: bytes stand at a of C,
one 32-bit word for each entry of vals, and no other byte of the store changes; P is set on the lines that `bad` names. -/
structure WritesOutputs (s t : State) (c a : Nat) (vals : List (Option Nat)) (bad : Nat → Bool) : Prop where
  whole : t = { s with cores := t.cores, freeCtr := t.freeCtr }
  others : ∀ d, d ≠ c → t.core d = s.core d
  core : t.core c = { s.core c with
    c := (t.core c).c, tags := (t.core c).tags, dirty := (t.core c).dirty, mx := (t.core c).mx }
  bytes : ∀ b, b < a ∨ a + 4 * vals.length ≤ b → (t.core c).c.get b = (s.core c).c.get b
  words : ∀ i v, vals[i]? = some (some v) → leNat ((t.core c).c.read (a + 4 * i) 4) = v % 2 ^ 32
  poison : ∀ l, ((t.core c).tag l).p = (((s.core c).tag l).p || bad l)

/-- A rectangle of the mesh holds a core (R83, R306). -/
def Inside (row0 col0 width height c : Nat) : Prop :=
  row0 ≤ c / 224 ∧ c / 224 < row0 + height ∧ col0 ≤ c % 224 ∧ c % 224 < col0 + width

/-- A rectangle of the mesh is free for a team: at a column that is a multiple of 8, inside the mesh, and apart from every
resident team and containment (R247). -/
def FreeAt (s : State) (row col w h : Nat) : Prop :=
  col % 8 = 0 ∧ row + h ≤ 120 ∧ col + w ≤ 224 ∧
  (∀ t ∈ s.sys.teams, row + h ≤ t.row0 ∨ t.row0 + t.height ≤ row ∨ col + w ≤ t.col0 ∨ t.col0 + t.width ≤ col) ∧
  ∀ k ∈ s.sys.containments, row + h ≤ k.row0 ∨ k.row0 + k.height ≤ row ∨ col + w ≤ k.col0 ∨ k.col0 + k.width ≤ col

/-- The step contains the running core, which has consumed poison at an address (R134, R307, steps 1 and 2): the containment stands in
the valid rectangle of the lowest index that holds the core, or else in the whole die; every team with a member inside that was
not failing fails with cause 11, by the poisoned core, its pc and the address where that core is a member, and otherwise by its
lowest-ranked member inside, the pc of its h0 and 0 (R305); its contexts stop; and nothing else of the cores and of memory has
changed. -/
def Contains (s : State) (o : Host.Outcome State Fault Refusal) (addr : Word64) : Prop :=
  let c := s.curCore
  let d := c / 224 / 60 * 2 + c % 224 / 112
  let fences := (s.die d).fences
  let holds (e : Nat × FenceRect) : Prop :=
    e.2.v = true ∧ Inside e.2.row0.toNat e.2.col0.toNat e.2.width.toNat e.2.height.toNat c
  ∃ (u : State) (k : Containment), o = .next u ∧ u.sys.containments = s.sys.containments ++ [k] ∧ k.die = d ∧
    (∀ e ∈ fences, holds e → (∀ f ∈ fences, holds f → e.1 ≤ f.1) → k.rect = some e.1 ∧ k.row0 = e.2.row0.toNat ∧
      k.col0 = e.2.col0.toNat ∧ k.width = e.2.width.toNat ∧ k.height = e.2.height.toNat) ∧
    ((∀ e ∈ fences, ¬ holds e) → k.rect = none ∧ k.row0 = d / 2 * 60 ∧ k.col0 = d % 2 * 112 ∧ k.width = 112 ∧ k.height = 60) ∧
    let inside (m : Nat) : Prop := Inside k.row0 k.col0 k.width k.height m
    let falls (t : Team) : Prop := (∃ m ∈ t.cores, inside m) ∧ ∀ a b p f, t.phase ≠ .failing a b p f
    let failed (t : Team) (m : Nat) (pc f : Word64) : Prop := u.team t.id = some { t with phase := .failing 11 m pc f }
    (∀ t ∈ s.sys.teams, (¬ falls t → u.team t.id = some t) ∧
      (falls t → c ∈ t.cores → failed t c s.me.pc addr) ∧
      (falls t → c ∉ t.cores → ∃ before m after, t.cores = before ++ m :: after ∧ inside m ∧ (∀ b ∈ before, ¬ inside b) ∧
        failed t m ((s.core m).ctx 0).pc 0) ∧
      (falls t → ∀ m ∈ t.cores, ∀ j, ((u.core m).ctx j).live = false)) ∧
    (∀ m, m ≠ c → (∀ t ∈ s.sys.teams, falls t → m ∉ t.cores) → u.core m = s.core m) ∧
    u.flat.hbm = s.flat.hbm ∧ u.flat.poison = s.flat.poison

/-- Effective priority of a task that is READY (R247). -/
def priorityNow (s : State) (t : TaskEntry) : Nat := min 7 (t.base + (s.cycle - t.since) / 2 ^ 20)

end Sys2Proof
end

