-- ==== Sys2Proof/Certificates/Slice0/Obligations.lean ====
section
/-! DEFINITION. The statements for the provers: what the numbered rules say the instructions and the machine do. -/

open Sys2Proof Sys2Proof.Machine

/-! ## Scalar integer instructions -/

/-- R344, R385, R391: ADD, SUB and MUL modulo 2^64 in both forms, and MULH the high half of the signed product; the D bit
of R76, and nothing else changed.
R404: the shifts and the rotate; the amount is the second operand's bits [5:0]. -/
def Obligations.ArithmeticAndShiftResults : Prop :=
  RForm .add (fun a b => BitVec.ofNat 64 (a.toNat + b.toNat)) ∧
  IForm .addImm (fun a b => BitVec.ofNat 64 (a.toNat + b.toNat)) ∧
  RForm .sub (fun a b => BitVec.ofInt 64 (a.toNat - b.toNat)) ∧
  IForm .subImm (fun a b => BitVec.ofInt 64 (a.toNat - b.toNat)) ∧
  RForm .mul (fun a b => BitVec.ofNat 64 (a.toNat * b.toNat)) ∧
  IForm .mulImm (fun a b => BitVec.ofNat 64 (a.toNat * b.toNat)) ∧
  RForm .mulh (fun a b => BitVec.ofInt 64 (a.toInt * b.toInt / 2 ^ 64)) ∧
  RForm .shl (fun a b => BitVec.ofNat 64 (a.toNat * 2 ^ (b.toNat % 64))) ∧
  IForm .shlImm (fun a b => BitVec.ofNat 64 (a.toNat * 2 ^ (b.toNat % 64))) ∧
  RForm .shr (fun a b => BitVec.ofNat 64 (a.toNat / 2 ^ (b.toNat % 64))) ∧
  IForm .shrImm (fun a b => BitVec.ofNat 64 (a.toNat / 2 ^ (b.toNat % 64))) ∧
  RForm .sra (fun a b => BitVec.ofInt 64 (a.toInt / 2 ^ (b.toNat % 64))) ∧
  IForm .sraImm (fun a b => BitVec.ofInt 64 (a.toInt / 2 ^ (b.toNat % 64))) ∧
  RForm .rol (fun a b => a.rotateLeft (b.toNat % 64)) ∧
  IForm .rolImm (fun a b => a.rotateLeft (b.toNat % 64))

/-- R344, R391, R440, R346, R68: the bitwise instructions in both forms, BFX, BFI bit by bit, and NOP.
R350, R379, R59: CMP writes 1 when the integer condition holds and 0 otherwise; MIN and MAX choose as signed. -/
def Obligations.LogicFieldsAndCompares : Prop :=
  RForm .and (fun a b => a &&& b) ∧ IForm .andImm (fun a b => a &&& b) ∧
  RForm .or (fun a b => a ||| b) ∧ IForm .orImm (fun a b => a ||| b) ∧
  RForm .xor (fun a b => a ^^^ b) ∧ IForm .xorImm (fun a b => a ^^^ b) ∧
  RForm .andn (fun a b => a &&& ~~~b) ∧
  (∀ lsb wm1 : BitVec 6, UForm (fun d a => .bfx false d a lsb wm1)
    (fun a => (a.extractLsb' lsb.toNat (wm1.toNat + 1)).setWidth 64)) ∧
  (∀ lsb wm1 : BitVec 6, UForm (fun d a => .bfx true d a lsb wm1)
    (fun a => (a.extractLsb' lsb.toNat (wm1.toNat + 1)).signExtend 64)) ∧
  (∀ (d a : Reg) (lsb wm1 : BitVec 6) (s : State), lsb.toNat + wm1.toNat + 1 ≤ 64 → ∃ v : Word64,
    Writes s (exec (.bfi d a lsb wm1) s) (s.me.pc + 8) d.val v (s.me.dbit d.val || s.me.dbit a.val) ∧
    ∀ i, i < 64 → v.getLsbD i = if lsb.toNat ≤ i ∧ i ≤ lsb.toNat + wm1.toNat then (s.me.sv a.val).getLsbD (i - lsb.toNat)
      else (s.me.sv d.val).getLsbD i) ∧
  (∀ s : State, Leaves s (exec .nop s) (s.me.pc + 8) id id) ∧
  (∀ k, RForm (.cmp k) (fun a b => if holdsInt k a b then 1 else 0)) ∧
  (∀ k, IForm (.cmpImm k) (fun a b => if holdsInt k a b then 1 else 0)) ∧
  RForm .min (fun a b => if a.toInt ≤ b.toInt then a else b) ∧
  IForm .minImm (fun a b => if a.toInt ≤ b.toInt then a else b) ∧
  RForm .max (fun a b => if a.toInt ≤ b.toInt then b else a) ∧
  IForm .maxImm (fun a b => if a.toInt ≤ b.toInt then b else a)

/-- R349, R395: the words of CLZ and POPC and what they write. -/
def Obligations.CountingInstructions : Prop :=
  (∀ d a : Reg, decodeWord (0x13 * 2 ^ 2 + d.val * 2 ^ 10 + a.val * 2 ^ 15) = .ok (.clz d a)) ∧
  (∀ d a : Reg, decodeWord (0x14 * 2 ^ 2 + d.val * 2 ^ 10 + a.val * 2 ^ 15) = .ok (.popc d a)) ∧
  (∀ (d a : Reg) (s : State), ∃ n, n ≤ 64 ∧ (s.me.sv a.val).toNat < 2 ^ (64 - n) ∧
    (n < 64 → 2 ^ (63 - n) ≤ (s.me.sv a.val).toNat) ∧
    Writes s (exec (.clz d a) s) (s.me.pc + 8) d.val (BitVec.ofNat 64 n) (s.me.dbit a.val)) ∧
  (∀ (d a : Reg) (s : State), Writes s (exec (.popc d a) s) (s.me.pc + 8) d.val
    (BitVec.ofNat 64 ((List.range 64).countP (fun i => (s.me.sv a.val).getLsbD i))) (s.me.dbit a.val))

/-- R384, R406: MOV copies value and D bit, MOVI writes its 64 bits and clears D, SEL writes sv(b) or sv(c), its D bit that
of all three registers; the word of SEL, ill-formed with M or FN not zero.
R119, R354, R399: the words of DIV and REM; signed division truncating toward zero and its remainder with the sign of the dividend; −2^63
divided by −1 wraps; division by zero gives 0 and the remainder the dividend, and sets ISTAT.DZ. -/
def Obligations.MovesSelectAndDivide : Prop :=
  (∀ (d a b c : Reg) (m fn : Nat), m < 16 → fn < 256 →
    let w := 0x12 * 2 ^ 2 + d.val * 2 ^ 10 + a.val * 2 ^ 15 + b.val * 2 ^ 20 + c.val * 2 ^ 25 + m * 2 ^ 30 + fn * 2 ^ 34
    decodeWord w = if m = 0 ∧ fn = 0 then .ok (.sel d a b c) else .error .illegalEnc) ∧
  (∀ d a b : Reg,
    decodeWord (0x05 * 2 ^ 2 + d.val * 2 ^ 10 + a.val * 2 ^ 15 + b.val * 2 ^ 20) = .ok (.div d a b) ∧
    decodeWord (0x06 * 2 ^ 2 + d.val * 2 ^ 10 + a.val * 2 ^ 15 + b.val * 2 ^ 20) = .ok (.rem d a b)) ∧
  UForm .mov (fun a => a) ∧
  (∀ (d : Reg) (imm : BitVec 64) (s : State), Writes s (exec (.movi d imm) s) (s.me.pc + 16) d.val imm false) ∧
  (∀ (d a b c : Reg) (s : State), Writes s (exec (.sel d a b c) s) (s.me.pc + 8) d.val
    (if s.me.sv a.val = 0 then s.me.sv c.val else s.me.sv b.val)
    (s.me.dbit a.val || s.me.dbit b.val || s.me.dbit c.val)) ∧
  (∀ (d a b : Reg) (s : State),
    let x := s.me.sv a.val
    let y := s.me.sv b.val
    let flag : Ctx → Ctx := fun c => { c with istat := c.istat ||| (if y = 0 then 1#2 else 0#2) }
    Gives s (exec (.div d a b) s) (s.me.pc + 8) d.val (BitVec.ofInt 64 (if y = 0 then 0 else x.toInt.tdiv y.toInt))
      (s.me.dbit a.val || s.me.dbit b.val) flag id ∧
    Gives s (exec (.rem d a b) s) (s.me.pc + 8) d.val (BitVec.ofInt 64 (if y = 0 then x.toInt else x.toInt.tmod y.toInt))
      (s.me.dbit a.val || s.me.dbit b.val) flag id)

/-! ## Numbers and scalar floating instructions -/

/-- R109, R110: what each mode rounds a magnitude m ÷ 2^k to. RZ is the floor; RNE is nearest, on a tie even; RDN and RUP
go by the sign; RS is the floor of m ÷ 2^k + r ÷ 2^16; inexact is whether anything was lost. -/
def Obligations.RoundingModes : Prop :=
  ∀ (neg : Bool) (m k r : Nat), 0 < k →
    let q (rm : RoundMode) := (roundShift rm neg m (-(k : Int)) r).1
    (∀ rm, (roundShift rm neg m (-(k : Int)) r).2 = decide (m % 2 ^ k ≠ 0)) ∧
    q .rz = m / 2 ^ k ∧
    (2 * m ≤ 2 * q .rne * 2 ^ k + 2 ^ k ∧ 2 * q .rne * 2 ^ k ≤ 2 * m + 2 ^ k) ∧
    ((2 * m = 2 * q .rne * 2 ^ k + 2 ^ k ∨ 2 * q .rne * 2 ^ k = 2 * m + 2 ^ k) → q .rne % 2 = 0) ∧
    q .rdn = (if neg then (m + 2 ^ k - 1) / 2 ^ k else m / 2 ^ k) ∧
    q .rup = (if neg then m / 2 ^ k else (m + 2 ^ k - 1) / 2 ^ k) ∧
    (r < 2 ^ 16 → q .rs = (m * 2 ^ 16 + r * 2 ^ k) / (2 ^ k * 2 ^ 16))

/-- R101, R103: an element that is finite rounds into its own type to itself, in every mode, and sets no flag. -/
def Obligations.ExactValuesRoundToThemselves : Prop :=
  ∀ (ty : ElemType) (rm : RoundMode) (r v : Nat), ty.isFloat = true → v < 2 ^ ty.bits → r < 2 ^ 16 →
    ∀ neg m e, decodeFloat ty v = .fin neg m e → roundFloat ty rm r (.fin neg m e) = (v, noFlags)

/-- R360 to R362, R364: FADD, FSUB, FMUL and FFMA round their exact result once into d; FCMP writes the floating condition;
FMIN and FMAX write an operand's bits or the canonical NaN and set no flag. -/
def Obligations.FloatingResults : Prop :=
  ∀ (ty : ElemType) (rm : RoundMode) (d a b c : Reg) (s : State), ty.isWide = true →
    let x := floatIn ty (s.me.sv a.val)
    let y := floatIn ty (s.me.sv b.val)
    let z := floatIn ty (s.me.sv c.val)
    let dd := s.me.dbit a.val || s.me.dbit b.val
    RoundsTo s (exec (.fadd ty rm d a b) s) ty rm d.val (sumNum rm [x, y]) dd ∧
    RoundsTo s (exec (.fsub ty rm d a b) s) ty rm d.val (sumNum rm [x, y.neg]) dd ∧
    RoundsTo s (exec (.fmul ty rm d a b) s) ty rm d.val (mulNum x y) dd ∧
    RoundsTo s (exec (.ffma ty rm d a b c) s) ty rm d.val
      ((sumNum rm [(mulNum x y).1, z]).1, (mulNum x y).2 ||| (sumNum rm [(mulNum x y).1, z]).2) (dd || s.me.dbit c.val) ∧
    (∀ k, Writes s (exec (.fcmp k ty d a b) s) (s.me.pc + 8) d.val (if condFloat k x y then 1 else 0) dd) ∧
    Writes s (exec (.fmin ty d a b) s) (s.me.pc + 8) d.val
      (BitVec.ofNat 64 (floatMin ty ((s.me.sv a.val).toNat % 2 ^ ty.bits) ((s.me.sv b.val).toNat % 2 ^ ty.bits) % 2 ^ ty.bits)) dd ∧
    Writes s (exec (.fmax ty d a b) s) (s.me.pc + 8) d.val
      (BitVec.ofNat 64 (floatMax ty ((s.me.sv a.val).toNat % 2 ^ ty.bits) ((s.me.sv b.val).toNat % 2 ^ ty.bits) % 2 ^ ty.bits)) dd

/-- R116, R117, R119, R363: FCVT to a floating type rounds once with its flags; a floating value goes to an integer type
by R117; an integer value goes to an integer type by saturation, which sets ISTAT.SAT and draws nothing. -/
def Obligations.ConversionResults : Prop :=
  ∀ (dst src : ElemType) (rm : RoundMode) (d a : Reg) (s : State),
    let v := (s.me.sv a.val).toNat % 2 ^ src.bits
    let g := (s.me.gen genSeed 64).toNat
    let r := if rm = .rs then g % 2 ^ 16 else 0
    let drawn : Ctx → Ctx := fun x => { x with
      gens := if rm = .rs then x.gens.put 64 (BitVec.ofNat 32 (genAdvance 16 g)) else x.gens }
    (dst.isFloat = true →
      RoundsTo s (exec (.fcvt dst src rm d a) s) dst rm d.val (decodeElem src v, noFlags) (s.me.dbit a.val)) ∧
    (dst.isFloat = false → src.isFloat = true →
      Gives s (exec (.fcvt dst src rm d a) s) (s.me.pc + 8) d.val
        (BitVec.ofInt 64 (decodeInt dst (roundInt dst rm r (decodeFloat src v)).1)) (s.me.dbit a.val)
        (fun x => { drawn x with frm := x.frm ||| (roundInt dst rm r (decodeFloat src v)).2 }) id) ∧
    (dst.isFloat = false → src.isFloat = false → rm = .rne →
      let i := decodeInt src v
      let j := if i < intMin dst then intMin dst else if i > intMax dst then intMax dst else i
      Gives s (exec (.fcvt dst src rm d a) s) (s.me.pc + 8) d.val (BitVec.ofInt 64 j) (s.me.dbit a.val)
        (fun x => { x with istat := x.istat ||| (if i = j then 0#2 else 2#2) }) id)

/-! ## Control flow, traps and privilege -/

/-- R347, R348, R183, R402, R372: where control goes and what the transfers write. A condition, a target or a return
address with its D bit set, and a target that is no multiple of 4, trap and transfer nothing. -/
def Obligations.ControlTransfers : Prop :=
  ∀ (k : Cond) (d a b : Reg) (off : BitVec 32) (s : State),
    let x := s.me.sv a.val
    let target := s.me.pc + BitVec.ofInt 64 off.toInt
    Leaves s (exec (.br off) s) target id id ∧
    Writes s (exec (.call off) s) target 31 (s.me.pc + 8) false ∧
    (s.me.dbit a.val = false → s.me.dbit b.val = false →
      Leaves s (exec (.brc k a b off) s) (if holdsInt k x (s.me.sv b.val) then target else s.me.pc + 8) id id) ∧
    Leaves s (exec (.chk a b off) s) (if s.me.dbit a.val || s.me.dbit b.val then target else s.me.pc + 8) id id ∧
    (s.me.dbit a.val = false → x.toNat % 4 = 0 →
      Leaves s (exec (.ret a) s) x id id ∧ Writes s (exec (.jmpr d a) s) x d.val (s.me.pc + 8) false) ∧
    (HasHandler s → s.me.dbit a.val = true →
      Traps s (exec (.ret a) s) 8 (BitVec.ofNat 64 a.val) ∧ Traps s (exec (.jmpr d a) s) 8 (BitVec.ofNat 64 a.val) ∧
      Traps s (exec (.brc k a b off) s) 8 (BitVec.ofNat 64 a.val)) ∧
    (HasHandler s → s.me.dbit a.val = false → x.toNat % 4 ≠ 0 →
      Traps s (exec (.ret a) s) 7 x ∧ Traps s (exec (.jmpr d a) s) 7 x)

/-- R295, R296, R415: the words of TRAP n, of which one with IMM above 0xFFFF is ill-formed. TRAP n enters the handler at TVEC
with cause 32 and FADDR n; EPC holds the TRAP, PSUP the mode before, the mode is supervisor, NEST is 1, and nothing else has
changed. With TVEC zero or NEST 1 the team fails: every member stops, and the team is failing with cause 32, the core, its pc
and FADDR n. -/
def Obligations.TrapEntersHandler : Prop :=
  (∀ n, n < 2 ^ 16 → decodeWord (0x28 * 2 ^ 2 + n * 2 ^ 32) = .ok (.trap (BitVec.ofNat 16 n))) ∧
  (∀ n, 2 ^ 16 ≤ n → n < 2 ^ 32 → decodeWord (0x28 * 2 ^ 2 + n * 2 ^ 32) = .error .illegalEnc) ∧
  (∀ (n : BitVec 16) (s : State), HasHandler s → Traps s (exec (.trap n) s) 32 (n.setWidth 64)) ∧
  ∀ (n : BitVec 16) (t : Team) (s : State), ¬ HasHandler s → s.teamOf s.curCore = some t → t.phase = .running →
    s.sys.evWaiters = [] →
    ∃ u, exec (.trap n) s = .next u ∧
      u.team t.id = some { t with phase := .failing 32 s.curCore s.me.pc (n.setWidth 64) } ∧
      (∀ m ∈ t.cores, ∀ j, ((u.core m).ctx j).live = false ∧ ((u.core m).ctx j).sregs = ((s.core m).ctx j).sregs) ∧
      (∀ m, m ∉ t.cores → u.core m = s.core m) ∧ u.flat.hbm = s.flat.hbm ∧ u.sys.tasks = s.sys.tasks

/-- R296, R403, R69, R71: in supervisor mode RFE goes to EPC, restores SUP from PSUP and clears NEST; in user mode it traps
with PRIV; an EPC that is no multiple of 4 raises ALIGN. -/
def Obligations.ReturnFromTrap : Prop :=
  ∀ s : State,
    (s.me.sup = true → s.me.epc.toNat % 4 = 0 →
      Leaves s (exec .rfe s) s.me.epc
        (fun x => { x with sup := x.psup, nest := false, rep := { x.rep with stopped := false } }) id) ∧
    (HasHandler s → s.me.sup = false → Traps s (exec .rfe s) 5 s.me.pc) ∧
    (HasHandler s → s.me.sup = true → s.me.epc.toNat % 4 ≠ 0 → Traps s (exec .rfe s) 7 s.me.epc)

/-- R91, R92, R441: when no register of the context is reserved, no record of it is pending and its team is not being
taken, YIELD opens a window of budget × 256 instructions, and every register keeps its value.
R90, R96, R359: a helper's EXIT keeps sv(a) as its exit value and ends the context; h0's EXIT, with no helper live, no
engine command of the core incomplete and no record pending, ends the core's part and releases its held phased sends.
That EXIT ends a running repetition is the model's reading (DEDUCED, log 47). -/
def Obligations.YieldAndExit : Prop :=
  (∀ (mask : BitVec 32) (budget : BitVec 8) (s : State), s.me.reserved = [] → NoRecords s →
    (∀ t, s.teamOf s.curCore = some t → t.take = false) →
    Becomes s (exec (.yield mask budget) s) { s.me with
      pc := s.me.pc + 8, budget := budget, left := BitVec.ofNat 16 (budget.toNat * 256), waitSince := none, waitObj := none
      held := .none, parked := none }) ∧
  (∀ (a : Reg) (s : State), s.me.dbit a.val = false → NoRecords s →
    let gone : Ctx → Ctx := fun x => { x with
      live := false, left := x.counted, waitSince := none, waitObj := none, held := .none, vcount := 0, vreq := 0, vregs := []
      rep := { x.rep with active := false, cnt := 0 }, reserved := [] }
    (s.curCtx ≠ 0 → s.home.starts = [] → (∀ t, s.teamOf s.curCore = some t → t.take = false) →
      Becomes s (exec (.exit a) s) { gone s.me with exitVal := s.me.sv a.val }) ∧
    (s.curCtx = 0 → (∀ h, 1 ≤ h → h ≤ 10 → (s.home.ctx h).live = false) → s.home.pge = [] → s.home.mx = [] →
      (∀ l ∈ s.sys.lin, l.core ≠ s.curCore) → (∀ r ∈ s.home.faultq, (s.home.ctx r.ctx).live = true) →
      ∃ t, exec (.exit a) s = .next t ∧ t.me = gone s.me ∧
        OnlyMe s t (fun x => { x with pge := s.home.sendq, sendq := [], exited := true })))

/-! ## Local store -/

/-- R182, R375, R376, R412: what LD, LDS and TAG.test write. A load gives the n bytes at its address, lowest first, sign- or
zero-extended; a tagged one without .k marks its line spent. LDS sets D for a deferred base, a bad address or an empty line
under .t. R134, R307: one that reads a line with P set completes nothing and starts a containment, which no event waiter sees here.
That base + offset is a sum that does not wrap, and that a line which a tagged command is writing is not read under .t, are the
model's readings (DEDUCED, logs 19 and 126). -/
def Obligations.LocalLoads : Prop :=
  ∀ (sz : Size) (sx tg k : Bool) (d : Reg) (m : MemArg) (s : State), m.sp ≠ .e →
    let n := sizeOf' sz
    let e := (s.me.sv m.base.val).toNat + m.off.toNat
    let l := lineOf m.sp e
    let bytes := leNat ((s.home.store m.sp).read e n)
    let v : Word64 := if sx then BitVec.ofInt 64 (toSigned (8 * n) bytes) else BitVec.ofNat 64 bytes
    let spends : Core → Core := fun x => if tg && !k then x.setTag l { x.tag l with u := true } else x
    let fine := e + n ≤ limitOf m.sp ∧ e % n = 0
    (s.me.dbit m.base.val = false → fine → (s.home.tag l).p = false →
      (tg = true → (s.home.tag l).v = true ∧ s.lineHeld s.curCore l false (s.curCore, 0) = false) →
      (tg = true → k = false → l ∉ s.home.drain) →
      Gives s (exec (.ld sz sx tg k d m) s) (s.me.pc + 8) d.val v false id spends ∧
      Gives s (exec (.lds sz sx tg k d m) s) (s.me.pc + 8) d.val v false id spends) ∧
    (s.me.dbit m.base.val = false → fine → (s.home.tag l).p = true →
      (tg = true → (s.home.tag l).v = true ∧ s.lineHeld s.curCore l false (s.curCore, 0) = false) →
      (tg = true → k = false → l ∉ s.home.drain) → s.sys.evWaiters = [] →
      (∀ t ∈ s.sys.teams, ∀ x ∈ s.sys.teams, t.id = x.id → t = x) →
      AMap.sorted (s.die (s.curCore / 224 / 60 * 2 + s.curCore % 224 / 112)).fences = true →
      Contains s (exec (.ld sz sx tg k d m) s) (BitVec.ofNat 64 e) ∧ Contains s (exec (.lds sz sx tg k d m) s) (BitVec.ofNat 64 e)) ∧
    ((s.me.dbit m.base.val = true ∨ ¬ fine ∨ (tg = true ∧ (s.home.tag l).v = false)) →
      Writes s (exec (.lds sz sx tg k d m) s) (s.me.pc + 8) d.val 0 true) ∧
    (s.me.dbit m.base.val = false → fine →
      Writes s (exec (.tagTest sz d m) s) (s.me.pc + 8) d.val
        (BitVec.ofNat 64 (b2n (s.home.tag l).v + 2 * b2n (s.home.tag l).u + 4 * b2n (s.home.tag l).p)) false)

/-- R129, R411, R412: what ST and the set operations of TAG change. ST writes the low n bytes of its register, lowest first,
at its address and nowhere else, and a tagged one without .k marks the line full; TAG.empty, TAG.full and TAG.spent set V
and U of one line and leave P. That no tagged command is under way at the line is the model's condition (DEDUCED, log 126). -/
def Obligations.LocalStores : Prop :=
  ∀ (sz : Size) (tg k : Bool) (d : Reg) (m : MemArg) (s : State), m.sp ≠ .e →
    let n := sizeOf' sz
    let e := (s.me.sv m.base.val).toNat + m.off.toNat
    let l := lineOf m.sp e
    let free := s.lineHeld s.curCore l true (s.curCore, 0) = false
    s.me.dbit m.base.val = false → e + n ≤ limitOf m.sp → e % n = 0 → l ∉ s.home.drain →
    (s.me.dbit d.val = false → (tg = true → free ∧ ((s.home.tag l).v = false ∨ (s.home.tag l).u = true)) →
      StoresLocal s (exec (.st sz tg k d m) s) (s.me.pc + 8) m.sp e (leBytes n (s.me.sv d.val).toNat)
        (fun j => tg && !k && decide (j = l)) (fun t => { t with v := true, u := false })) ∧
    (free →
      StoresLocal s (exec (.tagEmpty sz m) s) (s.me.pc + 8) m.sp e [] (fun j => decide (j = l))
        (fun t => { t with v := false, u := false }) ∧
      StoresLocal s (exec (.tagFull sz m) s) (s.me.pc + 8) m.sp e [] (fun j => decide (j = l))
        (fun t => { t with v := true, u := false }) ∧
      StoresLocal s (exec (.tagSpent sz m) s) (s.me.pc + 8) m.sp e [] (fun j => decide (j = l))
        (fun t => { t with v := true, u := true }))

/-- R75, R131, R375, R411: a deferred base, an access past the space's limit and a misaligned one trap with the causes of
R297; a tagged load of an empty line and a tagged store to a full one wait, as kind 7 of R302. That base + offset is a sum that does
not wrap, that the access's own address names the line, and that a line which a tagged command is moving is waited for as well, are
the model's (DEDUCED, log 19; DESIGN CHOICE, log 88; DEDUCED, log 126). -/
def Obligations.LocalAccessChecks : Prop :=
  ∀ (sz : Size) (sx tg k : Bool) (d : Reg) (m : MemArg) (s : State),
    let n := sizeOf' sz
    let e := (s.me.sv m.base.val).toNat + m.off.toNat
    let l := lineOf m.sp e
    (HasHandler s → s.me.dbit m.base.val = true →
      Traps s (exec (.ld sz sx tg k d m) s) 8 (BitVec.ofNat 64 m.base.val) ∧
      Traps s (exec (.st sz tg k d m) s) 8 (BitVec.ofNat 64 m.base.val)) ∧
    (HasHandler s → s.me.dbit m.base.val = false → limitOf m.sp < e + n →
      Traps s (exec (.ld sz sx tg k d m) s) 6 (BitVec.ofNat 64 e) ∧
      (s.me.dbit d.val = false → Traps s (exec (.st sz tg k d m) s) 6 (BitVec.ofNat 64 e))) ∧
    (HasHandler s → s.me.dbit m.base.val = false → e + n ≤ limitOf m.sp → e % n ≠ 0 →
      Traps s (exec (.ld sz sx tg k d m) s) 7 (BitVec.ofNat 64 e) ∧
      (s.me.dbit d.val = false → Traps s (exec (.st sz tg k d m) s) 7 (BitVec.ofNat 64 e))) ∧
    (m.sp ≠ .e → s.me.dbit m.base.val = false → e + n ≤ limitOf m.sp → e % n = 0 → l ∉ s.home.drain → MayWait s →
      ((s.home.tag l).v = false ∨ s.lineHeld s.curCore l false (s.curCore, 0) = true →
        WaitsFor s (exec (.ld sz sx true k d m) s) 7 (spaceCode m.sp * 2 ^ 16 + e)) ∧
      (s.me.dbit d.val = false →
        ((s.home.tag l).v = true ∧ (s.home.tag l).u = false) ∨ s.lineHeld s.curCore l true (s.curCore, 0) = true →
        WaitsFor s (exec (.st sz true k d m) s) 7 (spaceCode m.sp * 2 ^ 16 + e)))

/-- R184 to R188: an LD or ST of an event-unit line of the core's cluster. A mutex line is taken by a try and by an ST of 1
when free, and freed by its owner's ST of 0; an event line adds and gives its count; a barrier line is configured while ARR
is 0, in a team too, where no chain that the change touches is thereby complete; it reads as it stands, and an arrival of a slice
outside MASK returns at once. An arrival of a slice in MASK sets its bit of ARR; where that completes the line, alone in its
chain, ARR is 0, GEN is one more and the ST returns; otherwise it waits, as kind 8, until GEN has changed. A chain of lines that
nobody has arrived at completes nothing in the model (DEDUCED, log 23). -/
def Obligations.EventUnitLines : Prop :=
  ∀ (d base : Reg) (off : BitVec 16) (i : Nat) (s : State),
    (s.me.sv base.val).toNat + off.toNat = 8 * i → s.me.dbit base.val = false → s.me.dbit d.val = false →
    let ld := exec (.ld .d false false false d { sp := .e, base := base, off := off }) s
    let st := exec (.st .d false false d { sp := .e, base := base, off := off }) s
    let cl := clusterOf s.curCore
    let k := s.cluster cl
    let who := (sliceOf s.curCore, s.curCtx)
    let v := s.me.sv d.val
    let tm := s.teamOf s.curCore
    let line (u : State) (n : Nat) : BarrierLine := (u.cluster n).barrier i
    let configured := s.modCluster cl (fun x => x.setBarrier i
      { k.barrier i with mask := v.setWidth 8, link := BitVec.ofNat 4 (v.toNat / 2 ^ 32) })
    let arrived := s.modCluster cl (fun x => x.setBarrier i { k.barrier i with arr := (k.barrier i).arr ||| (1#8 <<< who.1) })
    (∀ j g, s.me.held = .barrier j g → i < 8 → v.getLsbD 63 = true →
      ((k.barrier i).gen ≠ g → Leaves s st (s.me.pc + 8) id id) ∧
      ((k.barrier i).gen = g → MayWait s → WaitsFor s st 8 (8 * i))) ∧
    (i < 8 → Writes s ld (s.me.pc + 8) d.val (BitVec.ofNat 64 ((k.barrier i).mask.toNat + (k.barrier i).arr.toNat * 2 ^ 8 +
      (k.barrier i).gen.toNat * 2 ^ 16 + (k.barrier i).link.toNat * 2 ^ 32)) false) ∧
    (s.me.held = .none →
    (i < 8 → v.getLsbD 63 = true → (k.barrier i).mask.getLsbD who.1 = false → Leaves s st (s.me.pc + 8) id id) ∧
    (i < 8 → v.getLsbD 63 = true → (k.barrier i).mask.getLsbD who.1 = true →
      ((∃ n ∈ arrived.chain tm i cl, (line arrived n).arr ≠ (line arrived n).mask) → MayWait s →
        Becomes arrived st { s.me with
          left := s.me.counted, waitObj := some (8, 8 * i), waitSince := some (s.me.waitSince.getD s.cycle)
          held := .barrier i (k.barrier i).gen }) ∧
      (arrived.chain tm i cl = [cl] → (line arrived cl).arr = (line arrived cl).mask →
        Leaves (arrived.modCluster cl (fun x => x.setBarrier i
          { x.barrier i with arr := 0, gen := (x.barrier i).gen + 1 })) st (s.me.pc + 8) id id)) ∧
    (i < 8 → v.getLsbD 63 = false → (k.barrier i).arr ≠ 0 → Leaves s st (s.me.pc + 8) id id) ∧
    (i < 8 → v.getLsbD 63 = false → (k.barrier i).arr = 0 →
      (∀ m ∈ cl :: clustersBeside tm cl,
        (∃ n ∈ configured.chain tm i m, (line configured n).arr ≠ (line configured n).mask) ∨
        ∀ n ∈ configured.chain tm i m, (line configured n).arr = 0) →
      Leaves configured st (s.me.pc + 8) id id) ∧
    (8 ≤ i → i < 16 → (k.mutex i).owner = none →
      Writes (s.modCluster cl (fun x => x.setMutex i { k.mutex i with owner := some who })) ld (s.me.pc + 8) d.val 0 false ∧
      (v = 1 → Leaves (s.modCluster cl (fun x => x.setMutex i { k.mutex i with owner := some who })) st
        (s.me.pc + 8) id id)) ∧
    (8 ≤ i → i < 16 → ∀ sl h, (k.mutex i).owner = some (sl, h) →
      Writes s ld (s.me.pc + 8) d.val (BitVec.ofNat 64 (1 + sl * 2 + h * 16 + (k.mutex i).queue.length * 256)) false ∧
      (v = 0 → (sl, h) = who → (k.mutex i).queue = [] →
        Leaves (s.modCluster cl (fun x => x.setMutex i { owner := none, queue := [] })) st (s.me.pc + 8) id id) ∧
      (v = 0 → (sl, h) ≠ who → Leaves s st (s.me.pc + 8) id id)) ∧
    (16 ≤ i → i < 32 → (k.event i).queue = [] →
      (0 < (k.event i).count.toNat →
        Writes (s.modCluster cl (fun x => x.setEvent i { k.event i with count := (k.event i).count - 1 })) ld
          (s.me.pc + 8) d.val (BitVec.ofNat 64 (k.event i).count.toNat) false) ∧
      (v.getLsbD 63 = false →
        Leaves (s.modCluster cl (fun x => x.setEvent i { k.event i with
          count := BitVec.ofNat 32 (min ((k.event i).count.toNat + v.toNat % 2 ^ 32) 0xFFFFFFFF) })) st (s.me.pc + 8) id id) ∧
      (v.getLsbD 63 = true →
        Leaves (s.modCluster cl (fun x => x.setEvent i { k.event i with count := v.setWidth 32 })) st (s.me.pc + 8) id id)))

/-- R264, R397, R398: with a DATA record at HEAD, RECV writes it, header and payload, at its address, gives the first bytes
of the payload in d, and takes the record out of the ring; under .t without .k every line that it writes becomes full.
That no tagged command is under way at those lines is the model's condition (DEDUCED, log 126). -/
def Obligations.ReceiveInboxRecord : Prop :=
  ∀ (sz : Size) (sx tg k : Bool) (d base : Reg) (off : BitVec 16) (s : State),
    let e := (s.me.sv base.val).toNat + off.toNat
    let b := s.home.inbox
    let r := 256 * b.base.toNat + b.head.toNat
    let header := leNat (s.home.a.read r 8)
    let n := 8 * (header / 256 % 256)
    let rec' := s.home.a.read r (8 + n)
    let first := leNat ((rec'.drop 8).take (sizeOf' sz))
    s.me.dbit base.val = false → b.used ≠ 0 → header % 256 = 1 → 8 ≤ n → e % 8 = 0 → e + 8 + n ≤ 0x8000 →
    (∀ l, (s.home.tag l).p = false) → s.home.drain = [] →
    (tg = true → ∀ l, lineOf .a e ≤ l → l ≤ lineOf .a (e + 8 + n - 1) →
      s.lineHeld s.curCore l true (s.curCore, 0) = false ∧ ((s.home.tag l).v = false ∨ (s.home.tag l).u = true)) →
    ∃ t, exec (.recv sz sx tg k d base off) s = .next t ∧
      OnlyMe s t (fun x => { x with
        a := t.home.a, tags := t.home.tags, dirty := t.home.dirty
        inbox := { b with head := BitVec.ofNat 15 ((b.head.toNat + 8 + n) % (256 * b.lines.toNat))
                          used := b.used - BitVec.ofNat 16 (8 + n) } }) ∧
      Completed s t (s.me.pc + 8) ∧ ctxRest t.me = ctxRest s.me ∧
      SetsReg s.me t.me d.val
        (if sx then BitVec.ofInt 64 (toSigned (8 * sizeOf' sz) first) else BitVec.ofNat 64 first) false ∧
      (∀ a, t.home.a.get a = if e ≤ a ∧ a < e + 8 + n then rec'.getD (a - e) 0 else s.home.a.get a) ∧
      ∀ l, t.home.tag l =
        if tg && !k && decide (lineOf .a e ≤ l ∧ l ≤ lineOf .a (e + 8 + n - 1)) then { s.home.tag l with v := true, u := false }
        else s.home.tag l

/-! ## Contexts, phases, counters and waits -/

/-- R79, R95, R97, R370: HSTART writes its status, the first that holds of 3, 2, 4 and 1; with none of them it starts the
helper in the state of R79 with s1 the argument, and writes 0. HJOIN gives the exit value of a helper that is not live, and
zero for a bad index or in a helper.
What a started helper keeps of its last life is the model's reading (DEDUCED, log 54). -/
def Obligations.HelpersStartAndJoin : Prop :=
  ∀ (d a b c : Reg) (s : State), s.me.dbit a.val = false → s.me.dbit b.val = false → s.me.dbit c.val = false →
    let h := (s.me.sv a.val).toNat
    let old := s.home.ctx h
    let status := if s.curCtx ≠ 0 then 3 else if h < 1 ∨ 10 < h then 2 else if (s.me.sv b.val).toNat % 4 ≠ 0 then 4
      else if old.live then 1 else 0
    (status ≠ 0 → Writes s (exec (.hstart d a b c) s) (s.me.pc + 8) d.val (BitVec.ofNat 64 status) false) ∧
    (status = 0 → ∃ x : Ctx,
      x.live = true ∧ x.pc = s.me.sv b.val ∧ (∀ r, x.sv r = if r = 1 then s.me.sv c.val else 0) ∧
      (∀ r, x.dbit r = false) ∧ x.sup = s.teamSup s.curCore ∧
      { x with live := false, pc := 0, sregs := [], sup := false } =
        ({ life := old.life + 1, seq := old.seq, exitVal := old.exitVal, ovf := old.ovf } : Ctx) ∧
      Writes (s.modCtx s.curCore h (fun _ => x)) (exec (.hstart d a b c) s) (s.me.pc + 8) d.val 0 false) ∧
    ((s.curCtx ≠ 0 ∨ h < 1 ∨ 10 < h) → Writes s (exec (.hjoin d a) s) (s.me.pc + 8) d.val 0 false) ∧
    (s.curCtx = 0 → 1 ≤ h → h ≤ 10 → old.live = false →
      Writes s (exec (.hjoin d a) s) (s.me.pc + 8) d.val old.exitVal false) ∧
    (s.curCtx = 0 → 1 ≤ h → h ≤ 10 → old.live = true → MayWait s → WaitsFor s (exec (.hjoin d a) s) 5 h)

/-- R86 to R89, R172, R302, R393, R394, R437: in h0, with no repetition running and no record pending, PHASE.c opens the
communication phase and releases the held sends. PHASE.x and VOTE open it too and arrive: the level's count is one more, and the
arrival holds the level, the operation and the value; they wait, as kind 6, and wait on when they are executed again before the
arrival has completed; when it has, they return, VOTE with the combined value. VOTE needs its register; in a helper the three
raise PROT with FADDR zero. No claim has more than 16 lanes here, so that the cut of R172 takes none.
Which arrival an instruction that is executed again waits for is the model's reading (DEDUCED, log 55).
R88 to R90: when every member of the domain of a core's oldest arrival has exited or has made its matching arrival, and
no phased send among them is under way, all of them complete in one step with the combined value, an exited member counting
as the identity; nothing else changes. No kiln of the team's job runs here (R275). -/
def Obligations.PhasesVotesAndCompletion : Prop :=
  (∀ (n : Level) (op : VoteOp) (d a : Reg) (s : State), s.me.rep.active = false →
    let num : Nat := match n with | .l1 => 1 | .l2 => 2 | .l3 => 3
    let opens : Core → Core := fun x =>
      { x with pge := x.pge ++ x.sendq, sendq := [], phase := { x.phase with open' := true } }
    let mine (o : Option VoteOp) (b : Arrival) : Bool := decide (b.level = n ∧ b.op = o ∧ b.pc = s.me.pc)
    let arrives (o : Option VoteOp) (v : Word64) (out : Host.Outcome State Fault Refusal) : Prop :=
      ∃ t, out = .next t ∧
        OnlyMe s t (fun x =>
          let y := opens x
          let q : Phase := { y.phase with
              n1 := if n = .l1 then y.phase.n1 + 1 else y.phase.n1
              n2 := if n = .l2 then y.phase.n2 + 1 else y.phase.n2
              n3 := if n = .l3 then y.phase.n3 + 1 else y.phase.n3 }
          { y with phase := { q with arrivals := q.arrivals ++ [{
              level := n, op := o, val := v, k := match n with | .l1 => q.n1 | .l2 => q.n2 | .l3 => q.n3
              pc := s.me.pc, before := x.nextId, result := none }] } }) ∧
        t.me = { s.me with
          left := s.me.counted, waitObj := some (6, num), waitSince := some (s.me.waitSince.getD s.cycle) }
    let returns (o : Option VoteOp) : Core → Core := fun x =>
      { x with phase := { x.phase with arrivals := x.phase.arrivals.filter (fun b => !mine o b) } }
    (s.curCtx = 0 → NoRecords s → Leaves s (exec (.phaseC n) s) (s.me.pc + 8) id opens) ∧
    (s.curCtx = 0 → NoRecords s → MayWait s →
      (s.home.phase.arrivals.find? (mine none) = none → arrives none 0 (exec (.phaseX n) s)) ∧
      (s.home.phase.arrivals.find? (mine (some op)) = none → s.me.dbit a.val = false →
        arrives (some op) (s.me.sv a.val) (exec (.vote op d a n) s))) ∧
    (s.curCtx = 0 → ∀ b : Arrival, b.result = none → MayWait s →
      (s.home.phase.arrivals.find? (mine none) = some b → WaitsFor s (exec (.phaseX n) s) 6 num) ∧
      (s.home.phase.arrivals.find? (mine (some op)) = some b → s.me.dbit a.val = false →
        WaitsFor s (exec (.vote op d a n) s) 6 num)) ∧
    (s.curCtx = 0 → (∀ h, h ≤ 10 → (s.home.ctx h).vcount.val ≤ 16) → ∀ (b : Arrival) (v : Word64), b.result = some v →
      (s.home.phase.arrivals.find? (mine none) = some b →
        Leaves s (exec (.phaseX n) s) (s.me.pc + 8) id (returns none)) ∧
      (s.home.phase.arrivals.find? (mine (some op)) = some b → s.me.dbit a.val = false →
        Gives s (exec (.vote op d a n) s) (s.me.pc + 8) d.val v false id (returns (some op)))) ∧
    (s.curCtx = 0 → HasHandler s → s.me.dbit a.val = true →
      Traps s (exec (.vote op d a n) s) 8 (BitVec.ofNat 64 a.val)) ∧
    (s.curCtx ≠ 0 → HasHandler s →
      Traps s (exec (.phaseC n) s) 10 0 ∧ Traps s (exec (.phaseX n) s) 10 0 ∧ Traps s (exec (.vote op d a n) s) 10 0)) ∧
  (∀ (c : Nat) (s : State) (t : Team) (a : Arrival), s.teamOf c = some t → (s.core c).phase.arrivals.head? = some a →
    a.result = none →
    let ms := t.domain ((s.core c).dom a.level)
    let same (b : Arrival) : Bool := decide (b.level = a.level ∧ b.op = a.op ∧ b.k = a.k ∧ b.result = none)
    (∀ m ∈ ms, (s.core m).exited = true ∨
      ((s.core m).dom a.level = (s.core c).dom a.level ∧ ((s.core m).phase.arrivals.find? same).isSome = true)) →
    (∀ m ∈ ms, ∀ p ∈ (s.core m).pge, ∀ x, p.ins = .sendP x → ms.contains (t.coreOf p.va.toNat) = false) →
    (s.job t.asid).bind Job.running = none →
    ∃ u, exec (.phaseCompletion c) s = .next u ∧ u = { s with cores := u.cores } ∧
      (∀ m, m ∉ ms → u.core m = s.core m) ∧
      (∀ m ∈ ms, (s.core m).exited = true → u.core m = s.core m) ∧
      let v : Word64 := match a.op with
        | none => 0
        | some o => ms.foldl (fun v k => voteOp o v (match (s.core k).exited, (s.core k).phase.arrivals.find? same with
            | false, some b => b.val
            | _, _ => voteId o)) (voteId o)
      ∀ m ∈ ms, (s.core m).exited = false → u.core m = { s.core m with phase := { (s.core m).phase with
        open' := false
        arrivals := (s.core m).phase.arrivals.map (fun b => if same b then { b with result := some v } else b) } })

/-- R240, R299, R216: WAITC.ge returns when its counter is less than 2^31 behind, WAITC.le when ol or os is low enough;
otherwise they wait as kinds 1 and 2. No record of the context on the counter is pending here, and no migration is armed on
it.
R242, R265, R351, R358: CNTSET sets its counter, and EVSIG arms or disarms its entry, in place of what the entry held; an entry
whose threshold is not reached stays armed, and one that is reached disarms itself and starts its helper at its target in the
whole state of R79 with s1 the counter.
What a started helper keeps of its last life, and that a fired start of the entry that waits for its helper is replaced too, are
the model's readings (DEDUCED, logs 54 and 107); that no entry fires after h0's EXIT is its choice (DESIGN CHOICE, log 127). -/
def Obligations.CountersAndTheirWaits : Prop :=
  (∀ (ct : Cnt) (n : BitVec 32) (k : BitVec 16) (s : State),
    ((s.home.counter ct.val - n).toNat < 2 ^ 31 → (∀ r ∈ s.home.faultq, r.ctx ≠ s.curCtx ∨ r.ct ≠ ct.val) →
      (∀ m, s.home.armed = some m → m.ct ≠ ct.val) → Leaves s (exec (.waitcGe ct n) s) (s.me.pc + 8) id id) ∧
    (2 ^ 31 ≤ (s.home.counter ct.val - n).toNat → MayWait s → WaitsFor s (exec (.waitcGe ct n) s) 1 ct.val) ∧
    (s.me.ol.toNat ≤ k.toNat → Leaves s (exec (.waitcLeOl k) s) (s.me.pc + 8) id id) ∧
    (s.me.os.toNat ≤ k.toNat → Leaves s (exec (.waitcLeOs k) s) (s.me.pc + 8) id id) ∧
    (k.toNat < s.me.ol.toNat → MayWait s → WaitsFor s (exec (.waitcLeOl k) s) 2 0) ∧
    (k.toNat < s.me.os.toNat → MayWait s → WaitsFor s (exec (.waitcLeOs k) s) 2 1)) ∧
  (∀ (ct : Cnt) (v : BitVec 32) (s : State),
    (∀ e ∈ s.home.wtt, e.2.ct = ct.val → 2 ^ 31 ≤ (v - e.2.threshold).toNat) →
    Leaves s (exec (.cntset ct v) s) (s.me.pc + 8) id (fun x => { x with counters := x.counters.set 0 ct.val v })) ∧
  (∀ (e : Fin 8) (ct : Cnt) (a : Reg) (off : BitVec 32) (h : Fin 11) (s : State), h.val = 0 →
    Leaves s (exec (.evsig e ct a off h) s) (s.me.pc + 8) id (fun x => { x with
      wtt := x.wtt.erase e.val, starts := x.starts.filter (fun p => p.entry ≠ e.val) })) ∧
  ∀ (e : Fin 8) (ct : Cnt) (a : Reg) (off : BitVec 32) (h : Fin 11) (s : State), h.val ≠ 0 → s.me.dbit a.val = false →
    let threshold : Word32 := (s.me.sv a.val).setWidth 32
    let target := s.me.pc + BitVec.ofInt 64 off.toInt
    let entry : WttEntry := { ct := ct.val, threshold := threshold, target := target, helper := h.val }
    (∀ q ∈ s.home.wtt, q.2.ct = ct.val → 2 ^ 31 ≤ (s.home.counter ct.val - q.2.threshold).toNat) →
    (2 ^ 31 ≤ (s.home.counter ct.val - threshold).toNat ∨ s.home.exited = true →
      Leaves s (exec (.evsig e ct a off h) s) (s.me.pc + 8) id (fun x => { x with
        wtt := (x.wtt.erase e.val).put e.val entry, starts := x.starts.filter (fun p => p.entry ≠ e.val) })) ∧
    ((s.home.counter ct.val - threshold).toNat < 2 ^ 31 → (∀ q ∈ s.home.wtt, q.1 ≠ e.val) → s.home.starts = [] →
      (s.home.ctx h.val).live = false → h.val ≠ s.curCtx → s.home.exited = false →
      ∃ t, exec (.evsig e ct a off h) s = .next t ∧ OnlyCore s.curCore s t ∧ Completed s t (s.me.pc + 8) ∧
        coreRest t.home = coreRest s.home ∧
        (∀ j, j ≠ s.curCtx → j ≠ h.val → t.home.ctx j = s.home.ctx j) ∧ SetsReg s.me t.me 0 0 false ∧
        ctxRest t.me = ctxRest s.me ∧
        let old := s.home.ctx h.val
        let x := t.home.ctx h.val
        x.live = true ∧ x.pc = target ∧ x.sup = s.teamSup s.curCore ∧
        (∀ r, x.sv r = if r = 1 then (s.home.counter ct.val).setWidth 64 else 0) ∧ (∀ r, x.dbit r = false) ∧
        { x with live := false, pc := 0, sregs := [], sup := false } =
          ({ life := old.life + 1, seq := old.seq, exitVal := old.exitVal, ovf := old.ovf } : Ctx))

/-- R94, R328, R330, R386, R410, R413: TIME gives the counter; SLEEPT goes on once the counter has reached sv(a), and
sleeps until then; NBRD gives a ready neighbour's PUB with the predicate all ones, and zero with the predicate all zeros off
the mesh, where no kiln of the job runs; the sleep and the neighbour's limit end as they are due. -/
def Obligations.TimeAndNeighbours : Prop :=
  (∀ (d : Reg) (s : State), Writes s (exec (.time d) s) (s.me.pc + 8) d.val s.host.time false) ∧
  (∀ (a : Reg) (s : State), s.me.dbit a.val = false →
    ((s.me.sv a.val).toNat ≤ s.host.time.toNat → Leaves s (exec (.sleept a) s) (s.me.pc + 8) id id) ∧
    (s.host.time.toNat < (s.me.sv a.val).toNat → s.me.held ≠ .awake →
      (∀ t, s.teamOf s.curCore = some t → t.take = false) →
      Becomes s (exec (.sleept a) s) { s.me with
        left := s.me.counted, waitObj := none, waitSince := some s.cycle, held := .asleep (s.me.sv a.val) })) ∧
  (∀ (c h : Nat) (t : Word64) (s : State), ((s.core c).ctx h).held = .asleep t → t.toNat ≤ s.host.time.toNat →
    exec (.sleepWake c h) s = .next (s.modCtx c h (fun x => { x with held := .awake }))) ∧
  (∀ (c h since : Nat) (s : State), ((s.core c).ctx h).held = .neighbour since →
    ((s.core c).ctx h).nbtmo.toNat ≤ s.cycle - since →
    exec (.nbrdTimeout c h) s = .next (s.modCtx c h (fun x => { x with held := .neighbourDone false 0 }))) ∧
  ∀ (d : Reg) (p : Pred) (dir : Fin 4) (s : State), s.me.held = .none →
    let row := s.curCore / 224
    let col := s.curCore % 224
    let off := (dir.val = 0 ∧ row = 0) ∨ (dir.val = 1 ∧ col = 223) ∨ (dir.val = 2 ∧ 119 ≤ row) ∨ (dir.val = 3 ∧ col = 0)
    let n := if dir.val = 0 then s.curCore - 224 else if dir.val = 1 then s.curCore + 1 else if dir.val = 2 then s.curCore + 224
      else s.curCore - 1
    let ready := (s.home.team.isSome = true ∧ (s.core n).team = s.home.team ∧ ((s.core n).ctx 0).live = true ∧
      ((s.core n).ctx 0).parked = none ∧ s.fenced n = false)
    (s.job (s.asidOf s.curCore)).bind Job.running = none →
    ∀ v all, (off ∧ v = 0 ∧ all = 0) ∨ (¬ off ∧ ready ∧ v = (s.core n).pub ∧ all = BitVec.allOnes 64) →
      ∃ t, exec (.nbrd d p dir) s = .next t ∧ OnlyMe s t id ∧ Completed s t (s.me.pc + 8) ∧
        SetsReg s.me t.me d.val v false ∧
        (∀ r, t.me.pv r = if r = 0 then BitVec.allOnes 64 else if r = p.val then all else s.me.pv r) ∧
        { ctxRest t.me with preds := [] } = { ctxRest s.me with preds := [] }

/-- R174, R392: what PLOG writes to its predicate, p0 staying all ones, and what PCNT counts below COUNT.
R179, R180, R367: GSET and GRES set their slot. On a slot that is not pending nothing else changes, and so where GSET
makes a slot pending; a pending slot's new value is carried to every command of the core that is bound to it, and to no
other. -/
def Obligations.PredicatesAndGuards : Prop :=
  (∀ (d b : Pred) (a : Fin 32) (s : State),
    let p := s.me.pv a.val
    let q := s.me.pv b.val
    WritesPred s (exec (.plog .and d a b) s) (s.me.pc + 8) d.val (p &&& q) ∧
    WritesPred s (exec (.plog .or d a b) s) (s.me.pc + 8) d.val (p ||| q) ∧
    WritesPred s (exec (.plog .xor d a b) s) (s.me.pc + 8) d.val (p ^^^ q) ∧
    WritesPred s (exec (.plog .andn d a b) s) (s.me.pc + 8) d.val (p &&& ~~~q) ∧
    WritesPred s (exec (.plog .not d a b) s) (s.me.pc + 8) d.val (~~~p) ∧
    (s.me.dbit a.val = false → WritesPred s (exec (.plog .reg d a b) s) (s.me.pc + 8) d.val (s.me.sv a.val))) ∧
  (∀ (d : Reg) (a : Pred) (s : State),
    let set := (List.range s.me.vcount.val).filter (fun l => (s.me.pv a.val).getLsbD l)
    Writes s (exec (.pcnt .count d a) s) (s.me.pc + 8) d.val (BitVec.ofNat 64 set.length) false ∧
    Writes s (exec (.pcnt .lowest d a) s) (s.me.pc + 8) d.val (BitVec.ofNat 64 (set.headD 64)) false ∧
    Writes s (exec (.pcnt .bits d a) s) (s.me.pc + 8) d.val (s.me.pv a.val) false) ∧
  (∀ (g : Guard) (v : Fin 3) (a : Reg) (s : State), g ≠ 0 →
    let val : GuardVal := if v.val = 0 then .fls else if v.val = 1 then .tru else .pending
    let res : GuardVal := if s.me.sv a.val = 0 then .fls else .tru
    let sets (u : State) (o : Host.Outcome State Fault Refusal) (w : GuardVal) : Prop :=
      Leaves u o (s.me.pc + 8) id (fun x => { x with guards := x.guards.set .tru g.val w })
    let freed (b : Bool) : State :=
      let turn : Binding → Binding := fun x => if x = .slot g.val then .val b else x
      { s.modCore s.curCore (fun x => { x with
          pge := x.pge.map (fun p => { p with bind := turn p.bind }), sendq := x.sendq.map (fun p => { p with bind := turn p.bind })
          mx := x.mx.map (fun p => { p with bind := turn p.bind }) }) with
        sys := { s.sys with
          lin := s.sys.lin.map (fun l => if l.core = s.curCore then { l with bind := turn l.bind } else l) } }
    (s.home.guard g.val ≠ .pending ∨ val = .pending → sets s (exec (.gset g v) s) val) ∧
    (s.home.guard g.val = .pending → val ≠ .pending → sets (freed (decide (val = .tru))) (exec (.gset g v) s) val) ∧
    (s.me.dbit a.val = false →
      (s.home.guard g.val ≠ .pending → sets s (exec (.gres g a) s) res) ∧
      (s.home.guard g.val = .pending → sets (freed (decide (res = .tru))) (exec (.gres g a) s) res)))

/-! ## Repetition -/

/-- R72, R175, R400, R401: REPSEQ captures its n words along their path, continues after the last of them, and leaves the
repetition inactive at iteration 0.
R91, R176, R400: REPGO 0 cancels and counts as one instruction; REPGO n with words captured starts the repetition and
is not counted itself, nor is one with nothing captured; one that meets a running repetition waits, as kind 10, and so does a
REPSEQ. -/
def Obligations.RepetitionStarts : Prop :=
  (∀ (n : BitVec 5) (s u : State) (k : Nat) (caps : List Instr) (pc : Word64), s.me.rep.active = false → n ≠ 0 → k ≤ 2 ^ 50 →
    Captures k n.toNat (s.me.pc + 8) s caps pc u →
    caps.length = n.toNat ∧
    Leaves u (exec (.repseq n) s) pc
      (fun x => { x with rep := { x.rep with
        iter := 0, word := 0, len := n, active := false, cnt := 0, caps := caps, trap := none, stopped := false
        charged := false, waitSince := none } }) id) ∧
  (∀ (n : BitVec 5) (s : State), s.me.rep.active = true → MayWait s → WaitsFor s (exec (.repseq n) s) 10 0) ∧
  (∀ (n : BitVec 16) (stride : BitVec 4) (s : State),
    let uncounted (r : Rep) : Ctx := { s.me with
      pc := s.me.pc + 8, waitSince := none, waitObj := none, held := .none, rep := r }
    Leaves s (exec (.repgo 0 stride) s) (s.me.pc + 8) (fun x => { x with rep := { x.rep with
      active := false, cnt := 0, trap := none, stopped := false, charged := false, waitSince := none } }) id ∧
    (n ≠ 0 → s.me.rep.active = false → s.me.rep.len ≠ 0 →
      Becomes s (exec (.repgo n stride) s) (uncounted { s.me.rep with
        iter := 0, word := 0, cnt := n, stride := stride, active := true, goPc := s.me.pc, trap := none, stopped := false
        charged := false, waitSince := none })) ∧
    (n ≠ 0 → s.me.rep.active = false → s.me.rep.len = 0 → Becomes s (exec (.repgo n stride) s) (uncounted s.me.rep)) ∧
    (n ≠ 0 → s.me.rep.active = true → MayWait s →
      Becomes s (exec (.repgo n stride) s) { s.me with
        waitObj := some (10, 0), waitSince := some (s.me.waitSince.getD s.cycle) }))

/-- R91, R176, R177: the buffer reissues a captured VIDX with its register moved by ITER × STRIDE: the lanes that are on of
the moved register receive their index plus the immediate, the iteration's first word counts one instruction of the
window, and WORD, ITER and REPCNT go on. -/
def Obligations.RepetitionReissues : Prop :=
  ∀ (c h : Nat) (vd : VReg) (imm : BitVec 32) (pm : Pred) (s : State),
    let x := (s.core c).ctx h
    let r := x.rep
    let left := if r.charged then x.left else x.left - 1
    let moved := (vd.val + r.iter.toNat * r.stride.toNat) % 16
    x.live = true → r.active = true → r.trap = none → r.stopped = false → left ≠ 0 → x.vcount ≠ 0 →
    r.caps[r.word.toNat]? = some (.vidx vd imm { zm := false, pm := pm }) →
    ∃ y : Ctx, exec (.repetitionReissue c h) s = .next (s.modCtx c h (fun _ => y)) ∧
      (∀ v l, v < 16 → l < 64 → y.lane v l =
        if v = moved ∧ l < x.vcount.val ∧ (x.pv pm.val).getLsbD l = true then BitVec.ofNat 32 (l + imm.toNat) else x.lane v l) ∧
      y.left = left ∧
      y.rep =
        (if r.word.toNat + 1 = r.len.toNat then
          { r with word := 0, iter := r.iter + 1, cnt := r.cnt - 1, active := decide (r.cnt - 1 ≠ 0), charged := false
                   waitSince := none }
        else { r with word := r.word + 1, charged := true, waitSince := none }) ∧
      { y with vregs := [], left := 0, rep := {} } = { x with vregs := [], left := 0, rep := {} }

/-! ## Control registers and translation caches -/

/-- R20, R63, R82, R91, R173, R178, R263, R270, R293, R306, R353: CSRR gives the value of every control register, a supervisor
one in supervisor mode and a PRIV trap in user mode; where each register's fields stand and what they hold, YBUDGET counting the
CSRR itself. -/
def Obligations.ReadControlRegisters : Prop :=
  ∀ (d : Reg) (csr : BitVec 12) (s : State),
    (csr.toNat < 0x100 ∨ s.me.sup = true → Writes s (exec (.csrr d csr) s) (s.me.pc + 8) d.val (s.csr csr.toNat) false) ∧
    (0x100 ≤ csr.toNat → s.me.sup = false → HasHandler s → Traps s (exec (.csrr d csr) s) 5 s.me.pc) ∧
    (s.curCore < 26880 →
      let v := (s.csr 0x001).toNat
      bits v 7 0 = s.curCore % 224 ∧ bits v 14 8 = s.curCore / 224 ∧
      bits v 17 16 = s.curCore / 224 / 60 * 2 + s.curCore % 224 / 112 ∧
      bits v 29 18 = s.curCore / 224 * 28 + s.curCore % 224 / 8 ∧ bits v 32 30 = s.curCore % 8) ∧
    (s.csr 0x000 = BitVec.ofNat 64 s.curCore ∧ (s.csr 0x002).toNat = s.sys.nodeid.toNat ∧
      s.csr 0x003 = BitVec.ofNat 64 s.curCtx ∧
      s.csr 0x010 = s.home.teamrank ∧ s.csr 0x011 = s.home.teamsize ∧ s.csr 0x012 = s.home.teamorg ∧
      s.csr 0x013 = s.home.teamshape ∧ s.csr 0x018 = s.home.dom1 ∧ s.csr 0x019 = s.home.dom2 ∧ s.csr 0x01A = s.home.dom3 ∧
      (s.csr 0x021).toNat = s.me.lstat.toNat ∧ (s.csr 0x024).toNat = s.me.nbtmo.toNat ∧ s.csr 0x025 = s.home.pub ∧
      (s.csr 0x028).toNat = s.me.frm.toNat ∧ (s.csr 0x029).toNat = s.me.istat.toNat ∧
      (s.csr 0x02A).toNat = s.me.ystall.toNat ∧ (s.csr 0x030).toNat = s.me.seed.toNat ∧
      s.csr 0x101 = s.me.cause ∧ s.csr 0x102 = s.me.epc ∧ s.csr 0x103 = s.me.faddr ∧ s.csr 0x104 = s.home.tvec ∧
      s.csr 0x105 = s.me.faultrec ∧ s.csr 0x106 = s.home.ptbase ∧ (s.csr 0x107).toNat = s.home.asid.toNat) ∧
    (let v := (s.csr 0x023).toNat;
      bits v 6 0 = s.me.vcount.val ∧ bitAt v 7 = false ∧ bits v 14 8 = s.me.vreq.toNat ∧ bits v 63 15 = 0) ∧
    (let v := (s.csr 0x026).toNat
      let b := s.home.inbox
      bits v 6 0 = b.base.toNat ∧ bitAt v 7 = false ∧ bits v 15 8 = b.lines.toNat ∧ bits v 30 16 = b.head.toNat ∧
      bitAt v 31 = false ∧ bits v 47 32 = b.used.toNat ∧ bits v 63 48 = b.drop.toNat) ∧
    (let v := (s.csr 0x027).toNat
      let r := s.me.rep
      bits v 15 0 = r.iter.toNat ∧ bits v 19 16 = r.word.toNat ∧ bits v 24 20 = r.len.toNat ∧
      bits v 28 25 = r.stride.toNat ∧ bitAt v 29 = r.active ∧ bits v 31 30 = 0 ∧ bits v 47 32 = r.cnt.toNat ∧
      bits v 63 48 = 0) ∧
    (let v := (s.csr 0x108).toNat;
      bits v 13 0 = s.sys.wttNext.toNat ∧ bits v 51 14 = s.sys.wttBase.toNat ∧ bits v 63 52 = 0) ∧
    (let v := (s.csr 0x109).toNat
      let r := (s.die (s.curCore / 224 / 60 * 2 + s.curCore % 224 / 112)).fences.get {} s.home.fenceIdx.toNat
      bits v 7 0 = r.col0.toNat ∧ bits v 14 8 = r.row0.toNat ∧ bitAt v 15 = false ∧ bits v 23 16 = r.width.toNat ∧
      bits v 30 24 = r.height.toNat ∧ bitAt v 31 = r.v ∧ bits v 37 32 = s.home.fenceIdx.toNat ∧ bits v 63 38 = 0) ∧
    (let v := (s.csr 0x10A).toNat;
      bits v 11 0 = 0 ∧ bits v 51 12 = s.sys.evovf.toNat ∧ bits v 63 52 = 0) ∧
    (let v := (s.csr 0x100).toNat;
      bitAt v 0 = s.me.sup ∧ bitAt v 1 = s.me.psup ∧ bitAt v 2 = s.me.nest ∧ bits v 63 3 = 0) ∧
    (s.me.waitSince = none → s.me.left ≠ 0 →
      let v := (s.csr 0x020).toNat
      bits v 7 0 = s.me.budget.toNat ∧ bits v 23 8 = s.me.left.toNat ∧ bits v 63 24 = 0) ∧
    (let v := (s.csr 0x022).toNat;
      bits v 15 0 = s.home.knum.toNat ∧ bits v 16 16 = s.home.knum.toNat % 2 ∧ bitAt v 17 = s.home.rb ∧
      bits v 47 32 = s.home.rbk.toNat)

/-- R5, R85, R93, R94, R111, R112, R160, R263, R270, R293, R353: what CSRW changes, register by register: RW fields take the
bits of sv(a), a W1C field clears, RO fields stay, and the values that the registers' own rules adjust are adjusted. A DOM2
or INBOX value that its rule refuses traps with PROT and changes nothing; a supervisor register in user mode raises PRIV.
R306: in supervisor mode a write of FENCERECT with V clear, or with V set and a rectangle of whole clusters inside the
core's die, sets that die's entry; V set with any other rectangle raises PROT and changes nothing. -/
def Obligations.ControlRegisterWrites : Prop :=
  (∀ (a : Reg) (s : State), s.me.dbit a.val = false →
    let v := s.me.sv a.val
    let w (csr : BitVec 12) := exec (.csrw a csr) s
    let ctx (csr : BitVec 12) (g : Ctx → Ctx) : Prop := Leaves s (w csr) (s.me.pc + 8) g id
    let core (csr : BitVec 12) (k : Core → Core) : Prop := Leaves s (w csr) (s.me.pc + 8) id k
    ctx 0x021 (fun x => { x with lstat := v.setWidth 2 }) ∧
    core 0x022 (fun c => { c with rb := if v.getLsbD 17 then false else c.rb }) ∧
    ctx 0x024 (fun x => { x with nbtmo := BitVec.ofNat 16 (max 16 (v.toNat % 2 ^ 16)) }) ∧
    core 0x025 (fun c => { c with pub := v }) ∧
    ctx 0x028 (fun x => { x with frm := v.setWidth 9 &&& 0x11F#9 }) ∧
    ctx 0x029 (fun x => { x with istat := v.setWidth 2 }) ∧
    ctx 0x02A (fun x => { x with ystall := BitVec.ofNat 32 (max 0x10000 (v.toNat % 2 ^ 32)) }) ∧
    ctx 0x030 (fun x => { x with seed := v.setWidth 32, gens := [] }) ∧
    (v.toNat % 2 ^ 7 + v.toNat / 2 ^ 8 % 2 ^ 8 ≤ 128 →
      core 0x026 (fun c => { c with inbox :=
        if v.toNat % 2 ^ 7 = c.inbox.base.toNat ∧ v.toNat / 2 ^ 8 % 2 ^ 8 = c.inbox.lines.toNat then c.inbox
        else { c.inbox with base := v.setWidth 7, lines := (v >>> 8).setWidth 8, head := 0, used := 0 } })) ∧
    (HasHandler s → 128 < v.toNat % 2 ^ 7 + v.toNat / 2 ^ 8 % 2 ^ 8 → Traps s (w 0x026) 10 0x026) ∧
    (s.home.phase.open' = false → s.home.dom2Ok v.toNat = true →
      core 0x019 (fun c => { c with dom2 := v &&& 0x7FFF7FFF })) ∧
    (HasHandler s → s.home.phase.open' = true ∨ s.home.dom2Ok v.toNat = false → Traps s (w 0x019) 10 0x019) ∧
    (s.me.sup = true →
      ctx 0x100 (fun x => { x with psup := v.getLsbD 1, nest := v.getLsbD 2 }) ∧
      ctx 0x101 (fun x => { x with cause := v &&& 0xFFFFFFFF03FFFFFF }) ∧
      ctx 0x102 (fun x => { x with epc := v }) ∧
      ctx 0x103 (fun x => { x with faddr := v }) ∧
      core 0x104 (fun c => { c with tvec := v &&& 0x000FFFFFFFFFFFFC }) ∧
      core 0x106 (fun c => { c with ptbase := v &&& 0x0000FFFFFFFF0000 }) ∧
      core 0x107 (fun c => { c with asid := v.setWidth 16 }) ∧
      Leaves { s with sys := { s.sys with wttBase := (v >>> 14).setWidth 38 } } (w 0x108) (s.me.pc + 8) id id ∧
      Leaves { s with sys := { s.sys with evovf := (v >>> 12).setWidth 40 } } (w 0x10A) (s.me.pc + 8) id id) ∧
    (s.me.sup = false → HasHandler s → ∀ csr : BitVec 12, 0x100 ≤ csr.toNat → Traps s (w csr) 5 s.me.pc)) ∧
  (∀ (a : Reg) (s : State), s.me.dbit a.val = false → s.me.sup = true →
    let v := (s.me.sv a.val).toNat
    let r : FenceRect := { col0 := BitVec.ofNat 8 v, row0 := BitVec.ofNat 7 (v / 2 ^ 8), width := BitVec.ofNat 8 (v / 2 ^ 16)
                           height := BitVec.ofNat 7 (v / 2 ^ 24), v := bitAt v 31 }
    let d := s.curCore / 224 / 60 * 2 + s.curCore % 224 / 112
    let i := v / 2 ^ 32 % 64
    let whole := r.col0.toNat % 8 = 0 ∧ r.width.toNat % 8 = 0 ∧ 1 ≤ r.width.toNat ∧ 1 ≤ r.height.toNat ∧
      d % 2 * 112 ≤ r.col0.toNat ∧ r.col0.toNat + r.width.toNat ≤ d % 2 * 112 + 112 ∧
      d / 2 * 60 ≤ r.row0.toNat ∧ r.row0.toNat + r.height.toNat ≤ d / 2 * 60 + 60
    ((r.v = false ∨ whole) →
      Leaves (s.modDie d (fun x => { x with fences := x.fences.set {} i r })) (exec (.csrw a 0x109) s) (s.me.pc + 8) id
        (fun c => { c with fenceIdx := BitVec.ofNat 6 i })) ∧
    (HasHandler s → r.v = true → ¬ whole → Traps s (exec (.csrw a 0x109) s) 10 0x109))

/-- R147, R294, R371, R414: TLBINV in supervisor mode removes the selected translations from the TLBs that its reach covers
and makes the covered cores' PTBASE and ASID the ones in use; in user mode it raises PRIV; ICINV empties the core's
instruction cache in either mode.
The ASID compared, and when PTBASE and ASID come into use, are the model's readings (DEDUCED, log 49). -/
def Obligations.InvalidateCaches : Prop :=
  (∀ s : State, Leaves s (exec .icinv s) (s.me.pc + 8) id (fun x => { x with icache := [] })) ∧
  (∀ (all anyasid : Bool) (r : Reach) (a : Reg) (s : State), HasHandler s → s.me.sup = false →
    Traps s (exec (.tlbinv all anyasid r a) s) 5 s.me.pc) ∧
  ∀ (all anyasid : Bool) (r : Reach) (a : Reg) (s : State), s.me.sup = true → (all = true ∨ s.me.dbit a.val = false) →
    let die (c : Nat) := c / 224 / 60 * 2 + c % 224 / 112
    let coreIn (c : Nat) : Prop := r = .module ∨ (r = .die ∧ die c = die s.curCore) ∨ (r = .core ∧ c = s.curCore)
    let dieIn (d : Nat) : Prop := r = .module ∨ d = die s.curCore
    let kept (t : List TlbEntry) : List TlbEntry := t.filter (fun e =>
      !((all || decide (e.va ≤ (s.me.sv a.val).toNat ∧ (s.me.sv a.val).toNat < e.va + e.size)) &&
        (anyasid || decide (e.asid = s.home.asid.toNat))))
    ∃ t, exec (.tlbinv all anyasid r a) s = .next t ∧ t = { s with cores := t.cores, dies := t.dies } ∧
      Completed s t (s.me.pc + 8) ∧ SetsReg s.me t.me 0 0 false ∧ ctxRest t.me = ctxRest s.me ∧
      (∀ h, h ≠ s.curCtx → t.home.ctx h = s.home.ctx h) ∧
      (∀ c, coreIn c → coreRest (t.core c) =
        { coreRest (s.core c) with tlb := kept (s.core c).tlb, curPtbase := (s.core c).ptbase, curAsid := (s.core c).asid }) ∧
      (∀ c, ¬ coreIn c → t.core c = s.core c) ∧
      (∀ c, c ≠ s.curCore → (t.core c).ctxs = (s.core c).ctxs) ∧
      (∀ d, dieIn d → t.die d = { s.die d with tlb := kept (s.die d).tlb }) ∧
      ∀ d, ¬ dieIn d → t.die d = s.die d

/-! ## Engine commands at issue -/

/-- R340, R341, R80, R298, R443: each of the eight atomics, with its registers not deferred and its address a multiple of 4
with .w and of 8 without, issues one command that reserves d; a misaligned address raises ALIGN.
R222, R229, R257 to R261, R266, R213 to R216, R387, R389, R417: the commands of events, tasks, heat tables and memory
engines issue one command when their operands pass the checks of their entries; NMC and TSPAWN read their local record at
issue. The alignment of NMSCAN's result block is the model's reading (DEDUCED, log 60).
R213 to R216, R228, R229, R232, R233, R254, R257 to R261, R266, R324, R341 to R343, R357, R405, R416, R417, R439: the engine's step
with such a command. An atomic changes its word at its home, gives the old one, sign-extended, to d, and is performed once
for a kept tag; EVPOST adds to COUNT and serves the first waiter; TRIG lowers the DEPS of the dependents once in a launch; DONE sets
its bit of the completion bitmap; WDQ takes the next item and makes the tagged write of it; TSPAWN reserves an index, writes the
slot's body and then its header word with the phase; HEATAGE shifts each counter; ROWRANK reads the counters and writes the
indices of the greatest; ROWMIG ends, and NMSCAN gathers what passes granule by granule and writes the header and the first KMAX entries.
Poison, a full queue and a value out of range end them as their rules say.
POISON for a DONE's doubleword and for a table's header are the model's readings (DEDUCED, logs 29 and 59). -/
def Obligations.ScalarCommandsIssue : Prop :=
  (∀ (x : AtomicArgs) (c : Reg) (s : State),
    let n := if x.w then 4 else 8
    let va := s.me.sv x.a.val
    let plain := [Instr.aadd x, .aaddw x, .aswap x, .amin x, .amax x, .aand x, .aor x]
    (s.me.dbit x.a.val = false → s.me.dbit x.b.val = false → va.toNat % n = 0 →
      (∀ i ∈ plain, MayIssue s i → Issues s (exec i s) (s.me.pc + 8) i va (s.me.sv x.b.val) 0 []) ∧
      (s.me.dbit c.val = false → MayIssue s (.acas x c) →
        Issues s (exec (.acas x c) s) (s.me.pc + 8) (.acas x c) va (s.me.sv x.b.val) (s.me.sv c.val) [])) ∧
    (HasHandler s → s.me.dbit x.a.val = false → s.me.dbit x.b.val = false → va.toNat % n ≠ 0 →
      (∀ i ∈ plain, Traps s (exec i s) 7 va) ∧
      (s.me.dbit c.val = false → Traps s (exec (.acas x c) s) 7 va))) ∧
  (∀ (d a b c : Reg) (ct : Cnt) (gd : Guard) (o : MemOrder) (s : State), s.me.dbit a.val = false → s.me.dbit b.val = false →
    let va := s.me.sv a.val
    let vb := s.me.sv b.val
    let vc := s.me.sv c.val
    let cmd (len : Word64) (i : Instr) (x y z : Word64) (img : List Byte) : Prop :=
      MayIssue s i → Issues s (exec i s) (s.me.pc + len) i x y z img
    cmd 8 (.evpost a b ct gd o) va vb 0 [] ∧ cmd 8 (.trig ct gd) 0 0 0 [] ∧ cmd 8 (.done a ct gd o) va 0 0 [] ∧
    (∀ r, vb.toNat + 8 ≤ 0x8000 → vb.toNat % 8 = 0 → cmd 8 (.wdq b ct gd r) 0 vb 0 []) ∧
    (∀ n h, va.toNat % 64 = 0 → cmd 8 (.heatage a ct gd o n) va 0 0 [] ∧
      (vb.toNat % 8 = 0 → cmd 8 (.rowrank a b ct gd o h) va vb 0 [] ∧ cmd 8 (.rowmig a b ct gd o) va vb 0 [])) ∧
    (vb.toNat + 64 ≤ 0x8000 → vb.toNat % 64 = 0 → va.toNat % 256 = 0 → (s.home.tag (192 + vb.toNat / 256)).p = false →
      cmd 12 (.tspawn d a b ct gd o) va vb 0 (s.home.a.read vb.toNat 64)) ∧
    (∀ abs ty kmax len, s.me.dbit c.val = false → vb.toNat + 8 + 8 * kmax.toNat ≤ 0x8000 → vb.toNat % 8 = 0 →
      va.toNat % ((ElemType.bits ty + 7) / 8) = 0 → cmd 12 (.nmscan abs a b c ct gd o ty kmax len) va vb vc []) ∧
    (∀ len, s.me.dbit c.val = false → vb.toNat + 32 ≤ 0x8000 → vb.toNat % 32 = 0 → vc.toNat + 16 ≤ 0x8000 →
      vc.toNat % 16 = 0 → (s.home.tag (192 + vb.toNat / 256)).p = false →
      let img := s.home.a.read vb.toNat 32
      ∀ k, caskBlock img = some k → k.ok = true → k.dst % 8 = 0 → (k.usesSrc = true → k.src % 8 = 0) →
        cmd 12 (.nmc b c ct gd o len) 0 vb vc img)) ∧
  ∀ (c : Nat) (p : PgeCmd) (e f : TlbEntry) (s : State), EngineTurn s c p →
    let go := s.work (.pge c p.id)
    let va := p.va.toNat
    let vb := p.vb.toNat
    let pa := e.phys va
    let lost (pa n : Nat) : Bool := s.hbmPoisoned pa n || s.lostAt (c / 224 / 60 * 2 + c % 224 / 112) pa n
    (∀ (x : AtomicArgs) (r : Reg) (k : AtomicKind),
      p.ins = (match k with
        | .add => .aadd x | .addw => .aaddw x | .swap => .aswap x | .cas => .acas x r
        | .min => .amin x | .max => .amax x | .and => .aand x | .or => .aor x) →
      let n := if x.w then 4 else 8
      let old := s.flat.hbm.num pa n
      let y := vb % 2 ^ (8 * n)
      let z := p.vc.toNat % 2 ^ (8 * n)
      let new := match k with
        | .add => (old + y) % 2 ^ (8 * n) | .addw => (old + y) % 2 ^ (8 * n) | .swap => y
        | .cas => if old = z then y else old
        | .min => if toSigned (8 * n) y < toSigned (8 * n) old then y else old
        | .max => if toSigned (8 * n) old < toSigned (8 * n) y then y else old
        | .and => old &&& y | .or => old ||| y
      let result : Word64 := BitVec.ofInt 64 (toSigned (8 * n) old)
      let here (t : TagTuple) : Bool := t.channel = channelOf pa && decide (s.host.clock < t.at' + 4000000)
      let mine (t : TagTuple) : Bool :=
        here t && t.name = s.coreName c && t.ctx = p.ctx && t.tag = x.tag.toNat
      Hits s c p.sup .both va e → pa < Config.hbmSize →
      (e.rm = true → Advances s go c p (endedAs p 10 p.va)) ∧
      (e.rm = false →
        (∀ t, x.tg = true → s.flat.tuples.find? mine = some t →
          Advances s go c p (endedAs { p with result := some t.result } 0 0)) ∧
        (x.tg = true → s.flat.tuples.find? mine = none → 256 ≤ (s.flat.tuples.filter here).length →
          Advances s go c p { p with prog := .running }) ∧
        ((x.tg = true → s.flat.tuples.find? mine = none ∧ (s.flat.tuples.filter here).length < 256) →
          (s.hbmPoisoned pa n = true → Advances s go c p (endedAs p 11 p.va)) ∧
          (s.hbmPoisoned pa n = false → ∃ u, WritesHbm s u pa (leBytes n new) false ∧
            Advances { u with
              sys := if k = .cas ∧ (old ≠ z ∨ y = old) then s.sys else pokedSys s.sys
              flat := { u.flat with tuples := if x.tg then s.flat.tuples ++ [{ channel := channelOf pa, name := s.coreName c
                                                                               ctx := p.ctx, tag := x.tag.toNat, result := result
                                                                               at' := s.host.clock }] else s.flat.tuples } }
              go c p (endedAs { p with result := some result } 0 0))))) ∧
    (∀ (a b d : Reg) (ct : Cnt) (gd : Guard) (o : MemOrder),
      (p.ins = .evpost a b ct gd o →
        (0xFFFF < va → Advances s go c p (endedAs p 10 p.va)) ∧
        (va ≤ 0xFFFF →
          let n := min ((s.sys.event va).toNat + vb % 2 ^ 32) 0xFFFFFFFF
          let posted (m : Nat) : State := { s with sys := { s.sys with events := s.sys.events.set 0 va (BitVec.ofNat 32 m) } }
          (s.sys.waitersOf va = [] → Advances (posted n) go c p (endedAs p 0 0)) ∧
          ∀ w, s.sys.waitersOf va = [w] →
            (n < w.n.toNat → Advances (posted n) go c p (endedAs p 0 0)) ∧
            (w.n.toNat ≤ n → ∃ u, OnlyCore w.core s u ∧
              u.core w.core = (s.core w.core).modCtx w.ctx (fun x => { x with held := .eventDone (BitVec.ofNat 64 n) }) ∧
              ∃ y : SysDie, y = { s.sys with events := y.events, evWaiters := y.evWaiters } ∧
                (∀ i, y.event i = if i = va then BitVec.ofNat 32 (n - w.n.toNat) else s.sys.event i) ∧
                (∀ i, y.waitersOf i = if i = va then [] else s.sys.waitersOf i) ∧
                Advances { u with sys := y } go c p (endedAs p 0 0)))) ∧
      (p.ins = .trig ct gd → ∀ t, s.teamOf c = some t →
        (t.trigDone = true → Advances s go c p (endedAs p 0 0)) ∧
        (t.trigDone = false →
          let y : SysDie := { s.sys with
            teams := s.sys.teams.map (fun x => if x.id = t.id then { x with trigDone := true } else x) }
          (∀ k, 7 ≤ k → k ≤ 9 → s.sysWord t.asid true (t.rec' + 8 * k) = .ok 0) →
          (s.sysWord t.asid true (t.rec' + 48) = .ok 0 → Advances { s with sys := y } go c p (endedAs p 0 0)) ∧
          ∀ (r : Word64) (pr : Nat), s.sysWord t.asid true (t.rec' + 48) = .ok r → r ≠ 0 → r.toNat % 8 = 0 →
            SysAt s t.asid (r.toNat + 16) 8 pr →
            let w2 := s.flat.hbm.num pr 8
            let deps := w2 / 2 ^ 24 % 2 ^ 16
            2 ≤ deps → ∃ u, WritesHbm s u pr (leBytes 8 (setBits w2 39 24 (deps - 1))) false ∧
              Advances { u with sys := pokedSys y } go c p (endedAs p 0 0))) ∧
      (p.ins = .done a ct gd o → ∀ t, s.teamOf c = some t →
        (t.bitmap = 0 → Advances s go c p (endedAs p 10 0)) ∧
        (t.bitmap ≠ 0 →
          let dw := t.bitmap.toNat + 8 * (va / 64)
          let pd := e.phys dw
          Hits s c p.sup .write dw e → e.rm = false → pd < Config.hbmSize →
          (s.hbmPoisoned pd 8 = true → Advances s go c p (endedAs p 11 (BitVec.ofNat 64 dw))) ∧
          (s.hbmPoisoned pd 8 = false →
            ∃ u, WritesHbm s u pd (leBytes 8 (s.flat.hbm.num pd 8 ||| 2 ^ (va % 64))) false ∧
              Advances { u with sys := pokedSys s.sys } go c p (endedAs p 0 0)))) ∧
      (∀ r, p.ins = .wdq b ct gd r →
        (∀ (t : Team) (nx ny : Nat), p.result = none → s.teamOf c = some t → t.ranges[r.val]? = some (nx, ny) →
          let i := t.next.get 0 r.val
          let more := decide (i < nx * ny)
          Advances { s with sys := { s.sys with teams := s.sys.teams.map (fun x => if x.id = t.id then
              { x with next := x.next.set 0 r.val (if more then i + 1 else i) } else x) } } go c p { p with
            prog := .running
            result := some (if more then BitVec.ofNat 64 (i / nx * 2 ^ 32 + i % nx) else BitVec.allOnes 64) }) ∧
        ∀ v, p.result = some v → vb + 8 ≤ 0x8000 → s.mayWrite c (192 + vb / 256) (c, p.id) = true →
          ∃ u, Fills s u c .a vb (leBytes 8 v.toNat) (192 + vb / 256)
              { (s.core c).tag (192 + vb / 256) with v := true, u := false } ∧
            Advances u go c p (endedAs p 0 0)) ∧
      (p.ins = .tspawn d a b ct gd o → Hits s c p.sup .both va e → e.rm = false → pa < Config.hbmSize →
        let n := s.flat.hbm.num (pa + 8) 8 % 2 ^ 5
        let widx := s.flat.hbm.num pa 8
        let ridx := s.flat.hbm.num (pa + 0x40) 8
        let slot (i : Nat) : Nat := va + 0x100 + 64 * (i % 2 ^ n)
        (p.pos = 0 → 3 ≤ n → n ≤ 16 → s.hbmPoisoned pa 256 = false →
          (2 ^ n ≤ (BitVec.ofNat 64 widx - BitVec.ofNat 64 ridx).toNat →
            Advances s go c p (endedAs { p with result := some (BitVec.allOnes 64) } 0 0)) ∧
          ((BitVec.ofNat 64 widx - BitVec.ofNat 64 ridx).toNat < 2 ^ n → Hits s c p.sup .both (slot widx) f → f.rm = false →
            f.phys (slot widx) < Config.hbmSize → s.hbmPoisoned (f.phys (slot widx)) 64 = false →
            ∃ u, WritesHbm s u pa (leBytes 8 (widx + 1)) false ∧ Advances { u with sys := pokedSys s.sys } go c p
              { p with prog := .running, pos := 1, result := some (BitVec.ofNat 64 widx) })) ∧
        ∀ i, p.result = some i →
          (p.pos = 1 → p.img.length = 64 → Hits s c p.sup .write (slot i.toNat + 8) f → f.rm = false →
            f.phys (slot i.toNat + 8) < Config.hbmSize →
            ∃ u, WritesHbm s u (f.phys (slot i.toNat + 8)) (p.img.drop 8) false ∧ Advances u go c p { p with pos := 2 }) ∧
          (p.pos = 2 → Hits s c p.sup .write (slot i.toNat) f → f.rm = false → f.phys (slot i.toNat) < Config.hbmSize →
            ∃ u, WritesHbm s u (f.phys (slot i.toNat))
                (leBytes 8 (setBits (leNat (p.img.take 8)) 8 8 (i.toNat / 2 ^ n % 2))) false ∧
              Advances u go c p (endedAs p 0 0))) ∧
      (∀ n h, (p.ins = .heatage a ct gd o n ∨ p.ins = .rowrank a b ct gd o h) → p.first = none →
        Hits s c p.sup .read va e → pa < Config.hbmSize →
        let rows := s.flat.hbm.num pa 4
        let fits := 1 ≤ rows ∧ rows ≤ 4096 ∧ (p.ins = .rowrank a b ct gd o h → h.toNat ≤ rows)
        (lost pa 4 = true → Advances s go c p (endedAs p 11 p.va)) ∧
        (lost pa 4 = false → ¬ fits → Advances s go c p (endedAs p 10 p.va)) ∧
        (lost pa 4 = false → fits → Advances s go c p { p with prog := .running, first := some rows })) ∧
      (∀ n rows, p.ins = .heatage a ct gd o n → p.first = some rows →
        let at' := va + 64 + 2 * p.pos
        let pc := e.phys at'
        (p.pos < rows → Hits s c p.sup .both at' e → e.rm = false → pc < Config.hbmSize →
          (lost pc 2 = false → ∃ u, WritesHbm s u pc (leBytes 2 (s.flat.hbm.num pc 2 / 2 ^ n.toNat)) false ∧
            Advances u go c p { p with pos := p.pos + 1 }) ∧
          (lost pc 2 = true → Advances s go c p { p with
            pos := p.pos + 1, partStatus := 11, result := some (p.result.getD (BitVec.ofNat 64 at')) })) ∧
        (rows ≤ p.pos → Advances s go c p (endedAs p p.partStatus (p.result.getD 0)))) ∧
      (∀ h rows, p.ins = .rowrank a b ct gd o h → p.first = some rows →
        let at' := va + 64 + 2 * p.pos
        let w := p.pos - rows
        let ranked := (p.parts.zipIdx.mergeSort (fun a b => decide (b.1 < a.1 ∨ (a.1 = b.1 ∧ a.2 ≤ b.2)))).map (·.2)
        let to' := vb + 4 * w
        let pw := e.phys to'
        (p.pos < rows → Hits s c p.sup .read at' e → e.phys at' < Config.hbmSize →
          (lost (e.phys at') 2 = true → Advances s go c p (endedAs p 11 (BitVec.ofNat 64 at'))) ∧
          (lost (e.phys at') 2 = false → Advances s go c p { p with
            pos := p.pos + 1, parts := p.parts ++ [s.flat.hbm.num (e.phys at') 2] })) ∧
        (rows ≤ p.pos → w < h.toNat → Hits s c p.sup .write to' e → e.rm = false → pw < Config.hbmSize →
          ∃ u, WritesUnit s u pw (leBytes 4 ((ranked.take h.toNat).getD w 0)) false
              (decide (to' % 32 = 28 ∧ vb ≤ to' / 32 * 32)) ∧
            Advances u go c p { p with pos := p.pos + 1 }) ∧
        (rows ≤ p.pos → h.toNat ≤ w → Advances s go c p (endedAs p 0 0))) ∧
      (p.ins = .rowmig a b ct gd o → Hits s c p.sup .write va e → Advances s go c p (endedAs p 0 0))) ∧
    ∀ (abs : Bool) (a b d : Reg) (ct : Cnt) (gd : Guard) (o : MemOrder) (ty : ElemType) (kmax : BitVec 10) (len : BitVec 32),
      p.ins = .nmscan abs a b d ct gd o ty kmax len →
      let sz := (ElemType.bits ty + 7) / 8
      let n := len.toNat
      let where' (i : Nat) : Nat := p.outUnits.getD ((va + i * sz) / 4096 - va / 4096) 0 + (va + i * sz) % 4096
      let elem (i : Nat) : Nat := s.flat.hbm.num (where' i) sz
      let bad (i : Nat) : Bool := s.hbmPoisoned (where' i) sz
      let value (v : Nat) : Machine.Num := if abs then (decodeElem ty v).abs else decodeElem ty v
      let threshold := if ty.isFloat then decodeFloat .fp32 (p.vc.toNat % 2 ^ 32) else Num.ofInt p.vc.toInt
      let inPart (i : Nat) : Bool := decide ((va + i * sz) / 4096 = va / 4096 + p.pos)
      (p.first = none → 1 ≤ n → (va + n * sz - 1) / 4096 = va / 4096 → Hits s c p.sup .read (va / 4096 * 4096) e → e.rm = false →
        e.phys (va / 4096 * 4096) < Config.hbmSize →
        Advances s go c p { p with prog := .running, first := some 0, outUnits := [e.phys (va / 4096 * 4096)] }) ∧
      (∀ k, p.first = some k → p.pos < p.outUnits.length → va % sz = 0 → Advances s go c p { p with
        pos := p.pos + 1
        parts := p.parts ++ ((List.range n).filter (fun i =>
          inPart i && !bad i && decide (cmpNum (value (elem i)) threshold = some .gt))).map (fun i => i * 2 ^ 32 + elem i)
        result := match p.result with
          | some v => some v
          | none => ((List.range n).find? (fun i => inPart i && bad i)).map
              (fun i => BitVec.ofNat 64 ((va + i * sz) / 32 * 32)) }) ∧
      ∀ k, p.first = some k → p.outUnits.length ≤ p.pos →
        let hits := p.parts.map (fun q => (q / 2 ^ 32, q % 2 ^ 32))
        let order := hits.mergeSort (fun x y => match cmpNum (value x.2) (value y.2) with
          | some .gt => true | some .eq => decide (x.1 ≤ y.1) | _ => false)
        let word (v : Nat) : Nat :=
          if ty.isFloat then (roundFloat .fp32 .rne 0 (decodeFloat ty v)).1 else ofSigned 32 (decodeInt ty v)
        let bytes := leBytes 8 (hits.length % 2 ^ 32) ++
          (order.take kmax.toNat).flatMap (fun q => leBytes 4 q.1 ++ leBytes 4 (word q.2))
        vb + bytes.length ≤ 0x8000 →
        ∃ u, OnlyCore c s u ∧
          u.core c = { s.core c with a := (u.core c).a, tags := (u.core c).tags, dirty := (u.core c).dirty } ∧
          (∀ i, (u.core c).a.get i =
            if vb ≤ i ∧ i < vb + bytes.length then bytes.getD (i - vb) 0 else (s.core c).a.get i) ∧
          (∀ l, (u.core c).tag l = { (s.core c).tag l with
            p := ((s.core c).tag l).p && !decide (192 ≤ l ∧ vb ≤ 256 * (l - 192) ∧ 256 * (l - 192) + 256 ≤ vb + bytes.length) }) ∧
          Advances u go c p (endedAs p (if p.result = none then 0 else 11) (p.result.getD 0))

/-- R135 to R140, R262, R352, R365, R368, R396, R407, R408, R87: GET, PUT, GRIST and its scatter, CPY and the sends issue one
command when their registers are not deferred, their local extents are in range and 8-byte aligned, and a flat address is
8-byte aligned; GRIST's descriptor must keep R139. A SEND.p of a compute phase is held in the send queue.
R129, R133, R134, R138 to R140, R144, R442: the engine's step with such a command moves one unit of 8 bytes: which bytes of the local
store or of flat memory or a node it reads and writes, which tags it changes at the end of a line, and which poison it sets and
clears; after the last unit the command has ended with OK. A rank outside the team, and a destination that takes nothing, end a
copy or send with SEND_REJECT.
That a line counts as under way from its first unit to its last is the model's reading (DEDUCED, log 126). -/
def Obligations.TransfersIssue : Prop :=
  (∀ (x : XferArgs) (s : State),
    let lb := (s.me.sv x.b.val).toNat
    let regs := s.me.dbit x.a.val = false ∧ s.me.dbit x.b.val = false
    let cmd (i : Instr) : Prop :=
      Issues s (exec i s) (s.me.pc + 12) i (s.me.sv x.a.val) (s.me.sv x.b.val) (s.me.sv x.c.val) []
    (regs → (x.lin = true → s.me.dbit x.c.val = false) → lb + x.len.toNat ≤ limitOf x.lsp → lb % 8 = 0 →
      (s.me.sv (if x.lin then x.c.val else x.a.val)).toNat % 8 = 0 →
      (MayIssue s (.get x) → cmd (.get x)) ∧ (MayIssue s (.put x) → cmd (.put x))) ∧
    (let v := (s.me.sv x.c.val).toNat;
      let bs := v % 2 ^ 24
      let np := v / 2 ^ 24 % 2 ^ 15
      let ix := v / 2 ^ 39 % 2 ^ 15
      regs → s.me.dbit x.c.val = false → 8 ≤ bs → bs ≤ 0xC000 → bs % 8 = 0 → 1 ≤ np → np ≤ 26880 → ix < np → v < 2 ^ 54 →
      (let n := ((List.range (x.len.toNat / 8)).countP (fun u => decide (8 * u / bs % np = ix))) * 8;
        n = 0 ∨ (lb + n ≤ limitOf x.lsp ∧ lb % 8 = 0)) →
      x.len.toNat % 8 = 0 → (s.me.sv x.a.val).toNat % 8 = 0 →
      (MayIssue s (.grist x) → cmd (.grist x)) ∧ (MayIssue s (.gristScatter x) → cmd (.gristScatter x)))) ∧
  (∀ (x : CopyArgs) (s : State),
    let lb := (s.me.sv x.b.val).toNat
    let ld := (s.me.sv x.c.val).toNat
    let cmd (i : Instr) : Prop :=
      Issues s (exec i s) (s.me.pc + 12) i (s.me.sv x.a.val) (s.me.sv x.b.val) (s.me.sv x.c.val) []
    s.me.dbit x.a.val = false → s.me.dbit x.b.val = false → s.me.dbit x.c.val = false →
    lb + x.len.toNat ≤ limitOf x.lsp → lb % 8 = 0 → ld + x.len.toNat ≤ limitOf x.dsp → ld % 8 = 0 →
    (MayIssue s (.cpy x) → cmd (.cpy x)) ∧ (MayIssue s (.sendD x) → cmd (.sendD x)) ∧
    (s.home.phase.open' = true → MayIssue s (.sendP x) → cmd (.sendP x)) ∧
    (s.home.phase.open' = false → s.home.sendq.length < 64 → s.me.os ≠ 0xFFFF →
      Leaves s (exec (.sendP x) s) (s.me.pc + 12) (issuedCtx (.sendP x) s.home.nextId)
        (fun y => { y with
          sendq := y.sendq ++ [newCommand s (.sendP x) (s.me.sv x.a.val) (s.me.sv x.b.val) (s.me.sv x.c.val) []]
          nextId := y.nextId + 1 }))) ∧
  (∀ (x : InboxArgs) (s : State), s.me.dbit x.a.val = false → s.me.dbit x.b.val = false →
    (s.me.sv x.b.val).toNat + x.len.toNat ≤ limitOf x.lsp → (s.me.sv x.b.val).toNat % 8 = 0 → MayIssue s (.sendI x) →
    Issues s (exec (.sendI x) s) (s.me.pc + 12) (.sendI x) (s.me.sv x.a.val) (s.me.sv x.b.val) 0 []) ∧
  ∀ (c : Nat) (p : PgeCmd) (s : State), EngineTurn s c p →
    let go := s.work (.pge c p.id)
    let v := p.vc.toNat
    let bs := v % 2 ^ 24
    let np := v / 2 ^ 24 % 2 ^ 15
    let ix := v / 2 ^ 39 % 2 ^ 15
    let block (u : Nat) : Nat := p.va.toNat + (8 * u / bs * np + ix) * bs
    let last (a hi : Nat) : Bool := decide ((a + 8) % 256 = 0 ∨ a + 8 = hi)
    let next (units : Nat) : PgeCmd := { p with
      prog := if units ≤ p.pos + 1 then .ended 0 0 else .running, pos := p.pos + 1, outUnits := [] }
    (∀ (x : XferArgs) (units start : Nat) (va : Nat → Nat) (e : TlbEntry),
      let inRow : Prop := units = x.len.toNat / 8 ∧ start = p.va.toNat ∧ ∀ u, va u = p.va.toNat + 8 * u
      let inBlocks : Prop := 8 ≤ bs ∧ bs % 8 = 0 ∧ 1 ≤ np ∧ ix < np ∧ x.len.toNat % 8 = 0 ∧
        units = (List.range (x.len.toNat / 8)).countP (fun u => decide (8 * u / bs % np = ix)) ∧
        start = (if np = 1 then p.va.toNat else block p.pos) ∧ ∀ u, va u = block u + 8 * u % bs
      let inNode : Prop := x.lin = true ∧ p.va.toNat < 2 ^ 32 ∧ units = x.len.toNat / 8 ∧ start = v ∧ ∀ u, va u = v + 8 * u
      let a := p.vb.toNat + 8 * p.pos
      let hi := p.vb.toNat + 8 * units
      let l := lineOf x.lsp a
      let pa := e.phys (va p.pos)
      let tag := (s.core c).tag l
      let sets := x.t && !x.k
      p.pos < units → x.lsp ≠ .e → hi ≤ limitOf x.lsp →
      (∀ (bytes : List Byte) (bad : Bool),
        (((p.ins = .get x ∧ x.lin = false ∧ inRow ∨ p.ins = .grist x ∧ inBlocks) ∧ Hits s c p.sup .read (va p.pos) e ∧
            pa < Config.hbmSize ∧ bytes = s.flat.hbm.read pa 8 ∧
            bad = (s.hbmPoisoned pa 8 || s.lostAt (c / 224 / 60 * 2 + c % 224 / 112) pa 8)) ∨
          (p.ins = .get x ∧ inNode ∧ s.readNode p.asid (p.va.setWidth 32) (va p.pos) = .ok (bytes, bad))) →
        (x.t = true → p.tagged = true ∨ s.mayWrite c l (c, p.id) = true) →
        ∃ u, Fills s u c x.lsp a bytes l (filledTag a p.vb.toNat hi sets bad p.badLine tag) ∧
          Advances u go c p { next units with
            tagged := !last a hi, dtagged := false, badLine := !last a hi && (p.badLine || bad) }) ∧
      (let w := spentAt s c l (sets && last a hi);
        let bytes := ((s.core c).store x.lsp).read a 8
        let clears := !tag.p && decide (va p.pos % 32 = 24 ∧ start ≤ va p.pos / 32 * 32) && !p.badLine
        let q : PgeCmd := { next units with
          tagged := !last a hi, dtagged := false
          badLine := (p.badLine || tag.p) && decide (va (p.pos + 1) / 32 = va p.pos / 32) }
        (x.t = true → p.tagged = true ∨ s.mayRead c l (c, p.id) = true) →
        ((p.ins = .put x ∧ x.lin = false ∧ inRow ∨ p.ins = .gristScatter x ∧ inBlocks) → Hits s c p.sup .write (va p.pos) e →
          e.rm = false → pa < Config.hbmSize → pa % 8 = 0 →
          ∃ u, WritesUnit w u pa bytes tag.p clears ∧ Advances u go c p q) ∧
        (p.ins = .put x → inNode → ∀ u,
          w.writeNode ⟨c, p.id, p.sup, p.colour, p.asid⟩ (p.va.setWidth 32) (va p.pos) bytes tag.p clears = .ok u →
          Advances u go c p q))) ∧
    (∀ (x : CopyArgs) (y : InboxArgs) (t : Team), s.teamOf c = some t →
      let copies : Prop := p.ins = .cpy x ∨ p.ins = .sendD x ∨ p.ins = .sendP x
      let d := t.coreOf p.va.toNat
      let inside : Prop := p.va.toNat < t.width * t.height ∧ s.refuses c d = false
      let a := p.vb.toNat + 8 * p.pos
      let read (sp : Space) (units : Nat) (tg k : Bool) (out : State → List Byte → Bool → Prop) : Prop :=
        let l := lineOf sp a
        let hi := p.vb.toNat + 8 * units
        p.pos < units → sp ≠ .e → hi ≤ limitOf sp → (tg = true → p.tagged = true ∨ s.mayRead c l (c, p.id) = true) →
        out (spentAt s c l (tg && !k && last a hi)) (((s.core c).store sp).read a 8) ((s.core c).tag l).p
      ((copies ∨ p.ins = .sendI y) → ¬ inside → Advances s go c p (endedAs p 22 p.va)) ∧
      (copies → inside → p.buffer = [] →
        let units := x.len.toNat / 8
        let b := p.vc.toNat + 8 * p.pos
        let bhi := p.vc.toNat + 8 * units
        let m := lineOf x.dsp b
        x.dsp ≠ .e → bhi ≤ limitOf x.dsp → (x.dt = true → p.dtagged = true ∨ s.mayWrite d m (c, p.id) = true) →
        read x.lsp units x.t x.k (fun w bytes bad =>
          ∃ u, Fills w u d x.dsp b bytes m
              (filledTag b p.vc.toNat bhi (x.dt && !x.dk) bad p.badLine ((w.core d).tag m)) ∧
            Advances u go c p { next units with
              tagged := !last a (p.vb.toNat + 8 * units), dtagged := !last b bhi
              badLine := !last b bhi && (p.badLine || bad) })) ∧
      (p.ins = .sendI y → inside →
        read y.lsp (y.len.toNat / 8) y.t y.k (fun w bytes bad => Advances w go c p { p with
          prog := .running, pos := p.pos + 1, tagged := !last a (p.vb.toNat + 8 * (y.len.toNat / 8)), img := p.img ++ bytes
          poisoned := p.poisoned + b2n bad })))

/-- R244, R345: AWAIT on a translated word of HBM that holds the threshold or more returns its value at once and bumps its
counter; on a smaller one it registers a waiter and waits, as kind 3; a context that was woken returns its value; a refused
request is sent again when its 512 cycles are over. Nobody's line buffer holds the word here, and nothing watches the
counter.
R257, R258, R356: EVWAIT of 0 reads COUNT; with an empty queue and COUNT at n or more it takes n and gives the earlier
COUNT; otherwise it joins the queue and waits, as kind 4; an event above 0xFFFF raises PROT; a refused registration is sent
again when its 512 cycles are over, and then takes what it asks for, joins the queue in one of the event's four records or in the
overflow area, or is refused anew.
That no byte of flat memory changes for a record of the overflow area is the model's reading (DEDUCED, log 57). -/
def Obligations.AwaitAndEvwait : Prop :=
  (∀ (w : Bool) (d a b : Reg) (ct : Cnt) (acq : Bool) (sc : Scope) (e : TlbEntry) (s : State),
    let va := s.me.sv a.val
    let pa := e.phys va.toNat
    let n := if w then 4 else 8
    let v : Word64 := if w then BitVec.signExtend 64 (BitVec.ofNat 32 (s.flat.hbm.num pa 4)) else BitVec.ofNat 64 (s.flat.hbm.num pa 8)
    let th : Word64 := if w then BitVec.signExtend 64 (BitVec.ofNat 32 (s.me.sv b.val).toNat) else s.me.sv b.val
    let bumps : Core → Core := fun x => { x with counters := x.counters.set 0 ct.val (x.counter ct.val + 1) }
    let go := exec (.await w d a b ct acq sc) s
    s.me.dbit a.val = false → s.me.dbit b.val = false → va.toNat % n = 0 → QuietCounter s s.curCore ct.val →
    (∀ u, s.me.held = .awaitDone u → Gives s go (s.me.pc + 8) d.val u false id bumps) ∧
    (s.me.held = .none → Hits s s.curCore s.me.sup .read va.toNat e → e.rm = false → pa < Config.hbmSize →
      s.hbmPoisoned pa 1 = false → (∀ c ∈ s.cores, pa / 64 ∉ c.2.linebuf) →
      (th.toInt ≤ v.toInt → Gives s go (s.me.pc + 8) d.val v false id bumps) ∧
      (v.toInt < th.toInt → (s.flat.waiters.filter (fun q => decide (channelOf q.pa = channelOf pa))).length < 128 → MayWait s →
        ∃ t, go = .next t ∧
          OnlyMe { s with flat := { s.flat with
            waiters := s.flat.waiters ++ [⟨s.curCore, s.curCtx, pa, !w, th⟩] } } t id ∧
          t.me = { s.me with
            left := s.me.counted, waitObj := some (3, va.toNat), waitSince := some (s.me.waitSince.getD s.cycle)
            held := .awaitReg })) ∧
    ∀ (c h again : Nat) (va' th' : Word64), ((s.core c).ctx h).held = .awaitRefused again va' true th' → again ≤ s.cycle →
      Hits s c ((s.core c).ctx h).sup .read va'.toNat e → e.rm = false → e.phys va'.toNat < Config.hbmSize →
      s.hbmPoisoned (e.phys va'.toNat) 1 = false → (∀ q ∈ s.cores, e.phys va'.toNat / 64 ∉ q.2.linebuf) →
      th'.toInt ≤ (BitVec.ofNat 64 (s.flat.hbm.num (e.phys va'.toNat) 8)).toInt →
      exec (.awaitRegistrationRetry c h) s = .next (s.modCtx c h (fun x => { x with
        held := .awaitDone (BitVec.ofNat 64 (s.flat.hbm.num (e.phys va'.toNat) 8)) }))) ∧
  (∀ (d a b : Reg) (s : State), s.me.dbit a.val = false → s.me.dbit b.val = false →
    let e := (s.me.sv a.val).toNat
    let n : Word32 := (s.me.sv b.val).setWidth 32
    let count := s.sys.event e
    let go := exec (.evwait d a b) s
    (HasHandler s → 0xFFFF < e → Traps s go 10 (s.me.sv a.val)) ∧
    (e ≤ 0xFFFF → s.me.held = .none →
      (n = 0 → Writes s go (s.me.pc + 8) d.val (count.setWidth 64) false) ∧
      (n ≠ 0 → s.sys.waitersOf e = [] → n.toNat ≤ count.toNat →
        Writes { s with sys := { s.sys with events := s.sys.events.set 0 e (count - n) } } go (s.me.pc + 8) d.val
          (count.setWidth 64) false) ∧
      (n ≠ 0 → s.sys.waitersOf e = [] → count.toNat < n.toNat → MayWait s →
        ∃ t, go = .next t ∧
          OnlyMe { s with sys := { s.sys with
            evWaiters := s.sys.evWaiters.set [] e [⟨s.curCore, s.curCtx, n, false⟩] } } t id ∧
          t.me = { s.me with
            left := s.me.counted, waitObj := some (4, e), waitSince := some (s.me.waitSince.getD s.cycle)
            held := .eventReg })) ∧
    (e ≤ 0xFFFF → ∀ v, s.me.held = .eventDone v → Writes s go (s.me.pc + 8) d.val v false) ∧
    (e ≤ 0xFFFF → MayWait s → s.me.held = .eventReg → WaitsFor s go 4 e) ∧
    ∀ (c h again e' : Nat) (n' : Word32), ((s.core c).ctx h).held = .eventRefused again e' n' → again ≤ s.cycle →
      let q := s.sys.waitersOf e'
      let had := s.sys.event e'
      let holds (u : State) (v : Held) : Prop :=
        exec (.evwaitRegistrationRetry c h) s = .next (u.modCtx c h (fun x => { x with held := v }))
      let joins (ov : Bool) : State :=
        { s with sys := { s.sys with evWaiters := s.sys.evWaiters.set [] e' (q ++ [⟨c, h, n', ov⟩]) } }
      (n' = 0 → holds s (.eventDone (had.setWidth 64))) ∧
      (n' ≠ 0 → q = [] → n'.toNat ≤ had.toNat →
        holds { s with sys := { s.sys with events := s.sys.events.set 0 e' (had - n') } } (.eventDone (had.setWidth 64))) ∧
      (n' ≠ 0 → (q ≠ [] ∨ had.toNat < n'.toNat) →
        let near := (q.filter (fun w => !w.overflow)).length
        (near < 4 → holds (joins false) .eventReg) ∧
        (4 ≤ near → s.sys.evovf ≠ 0 → s.sys.overflowUsed < 65536 → holds (joins true) .eventReg) ∧
        (4 ≤ near → (s.sys.evovf = 0 ∨ 65536 ≤ s.sys.overflowUsed) → holds s (.eventRefused (s.cycle + 512) e' n'))))

/-! ## Vector instructions -/

/-- R423, R115, R421, R422: VADD, VSUB, VMUL and VFMA round their exact result once in each lane of a floating type and
work modulo 2^w in an integer one; VMAX and VMIN write an operand, VABS the magnitude; flags and draws are those of the
lanes that are on.
That a vector instruction executes when it issues is the model's (DEDUCED, log 8), here and in the statements below. -/
def Obligations.VectorArithmetic : Prop :=
  ∀ (ty : ElemType) (rm : RoundMode) (vd va vc : VReg) (b : VOperand) (m : VMask) (s : State), VecReady s b →
    let x := s.me
    let p (l : Nat) := x.laneNum ty (x.lane va.val l)
    let q (l : Nat) := x.laneNum ty (secondLane x b l)
    let r (l : Nat) := x.laneNum ty (x.lane vc.val l)
    let i (l : Nat) := x.laneInt ty (x.lane va.val l)
    let j (l : Nat) := x.laneInt ty (secondLane x b l)
    let k (l : Nat) := x.laneInt ty (x.lane vc.val l)
    let f (l : Nat) := x.elem ty (x.lane va.val l)
    let g (l : Nat) := x.elem ty (secondLane x b l)
    let sign := 2 ^ (ty.bits - 1)
    let rounds (o : Host.Outcome State Fault Refusal) (num : Nat → Machine.Num × Flags) (int : Nat → Int) : Prop :=
      WritesLanes s o vd m (fun _ => ty.isFloat && decide (rm = .rs))
        (fun l => if ty.isFloat then laneRound x ty rm l (num l) else { val := laneOfInt ty (int l) })
    let moves (o : Host.Outcome State Fault Refusal) (bits : Nat → Nat) (int : Nat → Int) : Prop :=
      WritesLanes s o vd m (fun _ => false)
        (fun l => { val := if ty.isFloat then BitVec.ofNat 32 (bits l) else laneOfInt ty (int l) })
    rounds (exec (.vadd ty rm vd va b m) s) (fun l => sumNum rm [p l, q l]) (fun l => i l + j l) ∧
    rounds (exec (.vsub ty rm vd va b m) s) (fun l => sumNum rm [p l, (q l).neg]) (fun l => i l - j l) ∧
    rounds (exec (.vmul ty rm vd va b m) s) (fun l => mulNum (p l) (q l)) (fun l => i l * j l) ∧
    rounds (exec (.vfma ty rm vd va b vc m) s)
      (fun l => ((sumNum rm [(mulNum (p l) (q l)).1, r l]).1,
        (mulNum (p l) (q l)).2 ||| (sumNum rm [(mulNum (p l) (q l)).1, r l]).2))
      (fun l => i l * j l + k l) ∧
    moves (exec (.vmax ty vd va b m) s) (fun l => floatMax ty (f l) (g l)) (fun l => max (i l) (j l)) ∧
    moves (exec (.vmin ty vd va b m) s) (fun l => floatMin ty (f l) (g l)) (fun l => min (i l) (j l)) ∧
    moves (exec (.vabs ty vd va m) s)
      (fun l => if p l = .nan then nanCode ty else if sign ≤ f l then f l - sign else f l) (fun l => (i l).natAbs)

/-- R424, R426, R427: the bitwise vector instructions and shifts on whole lanes, VSEL, VBCAST, VIDX and VSHUF; none sets a
flag or draws.
R425, R59: VCMP sets its predicate's bit of each lane that is on to the condition, clears that of a lane off under .z
and leaves every other bit; floating conditions but .ne are ordered, integer ones compare the elements. -/
def Obligations.VectorBitsMovesAndCompares : Prop :=
  (∀ (vd va vb : VReg) (b : VOperand) (m : VMask) (s : State), VecReady s b →
    let x := s.me
    let p (l : Nat) := x.lane va.val l
    let q (l : Nat) := secondLane x b l
    let lanes (o : Host.Outcome State Fault Refusal) (f : Nat → Word32) : Prop :=
      WritesLanes s o vd m (fun _ => false) (fun l => { val := f l })
    lanes (exec (.vand vd va b m) s) (fun l => p l &&& q l) ∧
    lanes (exec (.vor vd va b m) s) (fun l => p l ||| q l) ∧
    lanes (exec (.vxor vd va b m) s) (fun l => p l ^^^ q l) ∧
    lanes (exec (.vshl vd va b m) s) (fun l => BitVec.ofNat 32 ((p l).toNat * 2 ^ ((q l).toNat % 32))) ∧
    lanes (exec (.vshr false vd va b m) s) (fun l => BitVec.ofNat 32 ((p l).toNat / 2 ^ ((q l).toNat % 32))) ∧
    lanes (exec (.vshr true vd va b m) s) (fun l => BitVec.ofInt 32 ((p l).toInt / 2 ^ ((q l).toNat % 32))) ∧
    (∀ pk : Pred, lanes (exec (.vsel vd va vb pk m) s)
      (fun l => if (x.pv pk.val).getLsbD l then p l else x.lane vb.val l)) ∧
    (∀ imm : BitVec 32, lanes (exec (.vidx vd imm m) s) (fun l => BitVec.ofNat 32 (l + imm.toNat))) ∧
    (∀ ps : Pred, lanes (exec (.vshuf vd va vb ps m) s) (fun l =>
      let j := (x.lane vb.val l).toNat % 64
      if j < x.vcount.val ∧ (x.pv ps.val).getLsbD j = true then p j else 0)) ∧
    ∀ (ty : ElemType) (src : BcastSrc), (∀ r, src = .scalar r → x.dbit r.val = false) →
      let v := match src with | .imm i => i.toNat | .scalar r => (x.sv r.val).toNat
      lanes (exec (.vbcast ty vd src m) s) (fun _ =>
        if ty.isFloat then BitVec.ofNat 32 (v % 2 ^ ty.bits) else laneOfInt ty (decodeInt ty v))) ∧
  (∀ (k : Cond) (ty : ElemType) (pd : Pred) (va : VReg) (b : VOperand) (m : VMask) (s : State), VecReady s b →
    let x := s.me
    ∃ v, WritesPred s (exec (.vcmp k ty pd va b m) s) (s.me.pc + 12) pd.val v ∧
      ∀ l, l < 64 → v.getLsbD l =
        if l < x.vcount.val ∧ (x.pv m.pm.val).getLsbD l = true then
          (if ty.isFloat then condFloat k (x.laneNum ty (x.lane va.val l)) (x.laneNum ty (secondLane x b l))
          else holdsInt k (BitVec.ofInt 64 (x.laneInt ty (x.lane va.val l))) (BitVec.ofInt 64 (x.laneInt ty (secondLane x b l))))
        else if l < x.vcount.val ∧ m.zm = true then false
        else (x.pv pd.val).getLsbD l)

/-- R123, R124, R428: VRED writes lane 0 with the reduction of the lanes that are on, the others standing for the identity;
VSCAN gives every lane of the claim the reduction up to it. Integer sums are modulo 2^w; floating ones go by the tree of
R123, pair i of a level drawing from generator i, and lane by lane in a scan. -/
def Obligations.VectorReductions : Prop :=
  ∀ (op : RedOp) (ty : ElemType) (rm : RoundMode) (vd va : VReg) (m : VMask) (s : State), s.me.vcount ≠ 0 →
    let x := s.me
    let n := x.vcount.val
    let on (l : Nat) := decide (l < n) && (x.pv m.pm.val).getLsbD l
    let unit := match op with
      | .sum => if ty.isFloat then withSign ty true 0 else 0
      | .max => if ty.isFloat then withSign ty true (infCode ty) else ofSigned ty.bits (intMin ty)
      | .min => if ty.isFloat then infCode ty else ofSigned ty.bits (intMax ty)
    let input (l : Nat) := if on l then x.elem ty (x.lane va.val l) else unit
    let fill (v : Nat) : Word32 := if ty.isFloat then BitVec.ofNat 32 (v % 2 ^ ty.bits) else laneOfInt ty (decodeInt ty v)
    let ints (k : Nat) : Int := match op with
      | .sum => (((List.range k).filter on).map (fun l => x.laneInt ty (x.lane va.val l))).sum
      | .max => ((List.range k).filter on).foldl (fun a l => max a (x.laneInt ty (x.lane va.val l))) (intMin ty)
      | .min => ((List.range k).filter on).foldl (fun a l => min a (x.laneInt ty (x.lane va.val l))) (intMax ty)
    let same (t : State) : Prop := OnlyMe s t id ∧ Completed s t (s.me.pc + 12) ∧ SetsReg s.me t.me 0 0 false ∧
      t.me.istat = s.me.istat ∧
      { ctxRest t.me with vregs := [], frm := 0, gens := [] } = { ctxRest s.me with vregs := [], frm := 0, gens := [] }
    let tree := redTree op ty rm 7 ((List.range (pow2Up n)).map input) x
    let scan := x.scan op ty rm va m.pm
    (∃ t, exec (.vred op ty rm vd va m) s = .next t ∧ same t ∧
      t.me.frm = tree.2.frm ∧ t.me.gens = tree.2.gens ∧
      (∀ v l, v < 16 → l < 64 → t.me.lane v l =
        if v = vd.val ∧ l = 0 then fill tree.1 else if v = vd.val ∧ l < n ∧ m.zm = true then 0 else x.lane v l) ∧
      (ty.isFloat = false → t.me.lane vd.val 0 = laneOfInt ty (ints n) ∧ t.me.frm = x.frm ∧ t.me.gens = x.gens)) ∧
    ∃ t, exec (.vscan op ty rm vd va m) s = .next t ∧ same t ∧
      t.me.frm = scan.2.frm ∧ t.me.gens = scan.2.gens ∧
      (∀ v l, v < 16 → l < 64 → t.me.lane v l =
        if v = vd.val ∧ l < n then (if on l then fill (scan.1.getD l 0) else if m.zm then 0 else x.lane v l) else x.lane v l) ∧
      (ty.isFloat = false → (∀ l, l < n → on l = true → t.me.lane vd.val l = laneOfInt ty (ints (l + 1))) ∧
        t.me.frm = x.frm ∧ t.me.gens = x.gens)

/-- R429 to R432, R106, R117: VCVT, VFN, VQNT and VDQN lane by lane. VQNT's scale of a block of 32 lanes goes by the
greatest magnitude of its lanes that are on, is written to vc, and an element that overflows saturates; a scale of 0xFF
gives NaN, and no draw (the model's choice, DEDUCED, log 30). -/
def Obligations.VectorConversions : Prop :=
  ∀ (ty dst : ElemType) (fn : FnOp) (rm : RoundMode) (vd va vc : VReg) (m : VMask) (s : State), s.me.vcount ≠ 0 →
    let x := s.me
    let v (l : Nat) := x.elem ty (x.lane va.val l)
    let draws (_ : Nat) := decide (rm = .rs)
    let scaleAt (l : Nat) := (x.lane vc.val (l / 32)).toNat % 256
    let clamp (i : Int) := if i < intMin dst then intMin dst else if i > intMax dst then intMax dst else i
    (dst.isFloat = true → WritesLanes s (exec (.vcvt dst ty rm vd va m) s) vd m draws
      (fun l => laneRound x dst rm l (decodeElem ty (v l), 0))) ∧
    (dst.isFloat = false → ty.isFloat = true → WritesLanes s (exec (.vcvt dst ty rm vd va m) s) vd m draws
      (fun l =>
        let r := roundInt dst rm (laneDraw x rm l) (decodeFloat ty (v l))
        { val := laneOfInt dst (decodeInt dst r.1), flags := r.2 })) ∧
    (dst.isFloat = false → ty.isFloat = false → rm = .rne → WritesLanes s (exec (.vcvt dst ty rm vd va m) s) vd m draws
      (fun l =>
        let i := decodeInt ty (v l)
        { val := laneOfInt dst (clamp i), sat := decide (clamp i ≠ i) })) ∧
    (ty.isFloat = true → WritesLanes s (exec (.vfn fn ty rm vd va m) s) vd m draws
      (fun l => laneRound x ty rm l (fnNum fn (decodeFloat ty (v l))))) ∧
    (ty.isFloat = true → WritesLanes s (exec (.vdqn ty rm vd va vc m) s) vd m
      (fun l => decide (rm = .rs ∧ scaleAt l ≠ 0xFF))
      (fun l => if scaleAt l = 0xFF then { val := 0x7FC00000 }
        else laneRound x .fp32 rm l ((decodeFloat ty (v l)).scale ((scaleAt l : Int) - 127), 0))) ∧
    (ty.isFloat = true →
      let blocks := (x.vcount.val + 31) / 32
      let on := (List.range x.vcount.val).filter (fun l => (x.pv m.pm.val).getLsbD l)
      let e (b : Nat) := scaleOf ty (x.blockMax va m.pm b)
      let w (l : Nat) := (x.laneNum .fp32 (x.lane va.val l)).scale (127 - (e (l / 32) : Int))
      let q (l : Nat) := roundFloat ty rm (laneDraw x rm l) (w l)
      let lane (l : Nat) : Nat := if e (l / 32) = 0xFF then nanCode ty
        else if (q l).2.getLsbD 2 then withSign ty (w l).sign (maxCode ty) else (q l).1
      ∃ t, exec (.vqnt ty rm vd va vc m) s = .next t ∧ OnlyMe s t id ∧ Completed s t (s.me.pc + 12) ∧
        SetsReg s.me t.me 0 0 false ∧ t.me.istat = x.istat ∧
        (∀ u l, u < 16 → l < 64 → t.me.lane u l =
          if u = vc.val ∧ l < blocks then BitVec.ofNat 32 (e l)
          else if u = vd.val ∧ l < x.vcount.val then
            (if on.contains l then BitVec.ofNat 32 (lane l % 2 ^ ty.bits) else if m.zm then 0 else x.lane u l)
          else x.lane u l) ∧
        t.me.frm = on.foldl (fun a l => if e (l / 32) = 0xFF then a else a ||| (q l).2) x.frm ∧
        (∀ l, t.me.gen genSeed l = if rm = .rs ∧ on.contains l = true ∧ e (l / 32) ≠ 0xFF
          then BitVec.ofNat 32 (genAdvance 16 (x.gen genSeed l).toNat) else x.gen genSeed l) ∧
        { ctxRest t.me with vregs := [], frm := 0, gens := [] } = { ctxRest s.me with vregs := [], frm := 0, gens := [] })

/-- R433, R434, R129, R134: VLD reads COUNT elements of its type, packed from its address, into the lanes, and under .t
without .k marks its lines spent; VST writes the elements of the lanes that are on and no other bit, under .t without .k
marks its lines full, and clears P of a line that it fills. That both read and write their lines at the instant of issue, and that no
tagged command is under way at lines used under .t, are the model's (DEDUCED, logs 72 and 126). -/
def Obligations.VectorLoadsAndStores : Prop :=
  ∀ (ty : ElemType) (sp : Space) (t k : Bool) (vd : VReg) (base : Reg) (m : VMask) (s : State),
    let x := s.me
    let e := (x.sv base.val).toNat
    let n := (x.vcount.val * ty.bits + 7) / 8
    let on (l : Nat) := decide (l < x.vcount.val) && (x.pv m.pm.val).getLsbD l
    let inside (l : Nat) : Prop := lineOf sp e ≤ l ∧ l ≤ lineOf sp (e + n - 1)
    x.vcount ≠ 0 → x.dbit base.val = false → sp ≠ .e → e + n ≤ limitOf sp → e % ((ty.bits + 7) / 8) = 0 → s.home.drain = [] →
    ((∀ l, inside l → (s.home.tag l).p = false ∧
        (t = true → (s.home.tag l).v = true ∧ s.lineHeld s.curCore l false (s.curCore, 0) = false)) →
      WritesLanes (if t && !k then s.modHome (fun c => (linesOf sp e n).foldl (fun y l => y.markSpent l) c) else s)
        (exec (.vld ty sp t k vd base m) s) vd m (fun _ => false)
        (fun l =>
          let v := leNat ((s.home.store sp).read e n) / 2 ^ (l * ty.bits) % 2 ^ ty.bits
          { val := if ty.isFloat then BitVec.ofNat 32 v else laneOfInt ty (decodeInt ty v) })) ∧
    ((t = true → ∀ l, inside l →
        s.lineHeld s.curCore l true (s.curCore, 0) = false ∧ ((s.home.tag l).v = false ∨ (s.home.tag l).u = true)) →
      ∃ u, exec (.vst ty sp t k vd base m.pm) s = .next u ∧
        OnlyMe s u (fun c => { c with w := u.home.w, a := u.home.a, c := u.home.c, tags := u.home.tags, dirty := u.home.dirty }) ∧
        Completed s u (s.me.pc + 12) ∧ SetsReg s.me u.me 0 0 false ∧ ctxRest u.me = ctxRest s.me ∧
        (∀ sp' a i, i < 8 → ((u.home.store sp').get a).getLsbD i =
          let bit := 8 * (a - e) + i
          if sp' = sp ∧ e ≤ a ∧ on (bit / ty.bits) = true then (x.lane vd.val (bit / ty.bits)).getLsbD (bit % ty.bits)
          else ((s.home.store sp').get a).getLsbD i) ∧
        ∀ l,
          let full := (List.range x.vcount.val).all on && decide (n = 256 ∧ e % 256 = 0 ∧ l = lineOf sp e)
          let marked := decide (inside l) && t && !k
          u.home.tag l = { v := (s.home.tag l).v || marked, u := (s.home.tag l).u && !marked, p := (s.home.tag l).p && !full })

/-- R171, R435: VCLAIM n sets REQ to n and COUNT to n or to what the context holds and the cluster's pool has left; the
lanes that the claim keeps hold their contents and added ones read zero; VREL returns every lane. -/
def Obligations.VectorClaims : Prop :=
  ∀ (n : BitVec 7) (s : State), (∀ v l, v < 16 → s.me.vcount.val ≤ l → l < 64 → s.me.lane v l = 0) → n.toNat ≤ 64 →
    let held := ((s.claims (clusterOf s.curCore)).map (fun q => q.2.2.1)).sum
    let c := min n.toNat (s.me.vcount.val + (128 - held))
    let ends (o : Host.Outcome State Fault Refusal) (c : Nat) (n : BitVec 7) : Prop :=
      ∃ t, o = .next t ∧ OnlyMe s t id ∧ Completed s t (s.me.pc + 12) ∧ SetsReg s.me t.me 0 0 false ∧
        t.me.vcount.val = c ∧ t.me.vreq = n ∧
        (∀ v l, v < 16 → l < 64 → t.me.lane v l = if l < c then s.me.lane v l else 0) ∧
        { ctxRest t.me with vregs := [], vcount := 0, vreq := 0 } = { ctxRest s.me with vregs := [], vcount := 0, vreq := 0 }
    ends (exec (.vclaim n) s) c n ∧ ends (exec .vrel s) 0 0

/-! ## The matrix array -/

/-- R193, R196 to R198, R207, R211, R217, R381, R382, R443: the matrix commands put one command into the matrix queue when
their registers, extents, descriptor and bound map pass their checks, in the geometry of the last MGANG still to take
effect; an MSPLIT whose map cannot be bound takes its place too, to end with that failure. No acquire of its context holds the
MSPLIT here (R238).
That an unreadable header or map ends the command, and does not trap at issue, is the model's reading (DEDUCED, log 65), and so is
where MCORR and MSPLIT test their STRIDE (DEDUCED, log 91). -/
def Obligations.MatrixCommandsIssue : Prop :=
  ∀ (s : State), s.home.mx.length < 16 →
    let free (i : Instr) : Prop := (countsOl i = true → s.me.ol ≠ 0xFFFF) ∧ (countsOs i = true → s.me.os ≠ 0xFFFF)
    let deep := s.nextGeometry (clusterOf s.curCore)
    let plain (i : Instr) : Prop := free i → QueuesMatrix s (exec i s) i 0 0 0 [] none
    (∀ act grp ot gang pri ct gd woff, plain (.mlds act grp ot gang pri ct gd woff)) ∧
    (∀ gang pri ct gd, plain (.mswap gang pri ct gd)) ∧
    (∀ ct gd, plain (.mgangWide ct gd) ∧ plain (.mgangDeep ct gd)) ∧
    (∀ x : MmulArgs,
      let va := s.me.sv x.a.val
      let vb := s.me.sv x.b.val
      let n := if deep ∨ x.gang = false then 16 else 128
      let inputs := x.ksteps.toNat * (if deep ∧ x.gang = true then 128 else 16)
      let len := vectorLen x.at' x.grp inputs
      s.me.dbit x.a.val = false → s.me.dbit x.b.val = false → (1 < x.nvec.toNat → len ≤ x.stride.toNat) →
      va.toNat + (x.nvec.toNat - 1) * x.stride.toNat + len ≤ 0x8000 → va.toNat % 8 = 0 →
      vb.toNat + 4 * n * x.nvec.toNat ≤ 0x4000 → vb.toNat % 64 = 0 →
      free (.mmul x) → QueuesMatrix s (exec (.mmul x) s) (.mmul x) va vb 0 [] none) ∧
    (∀ (x : McorrArgs) (k : Nat),
      let va := s.me.sv x.a.val
      let vb := s.me.sv x.b.val
      let vc := s.me.sv x.c.val
      let img := s.home.a.read vc.toNat 32
      let len := vectorLen x.ty .none k
      s.me.dbit x.a.val = false → s.me.dbit x.b.val = false → s.me.dbit x.c.val = false →
      vc.toNat + 32 ≤ 0x8000 → vc.toNat % 32 = 0 → (s.home.tag (192 + vc.toNat / 256)).p = false →
      corrChecks (s.space (s.asidOf s.curCore)) x.ty img = .ok k → (1 < x.nvec.toNat → len ≤ x.stride.toNat) →
      va.toNat + (x.nvec.toNat - 1) * x.stride.toNat + len ≤ 0x8000 → va.toNat % 8 = 0 →
      vb.toNat + 4 * corrRows img * x.nvec.toNat ≤ 0x4000 → vb.toNat % 64 = 0 →
      free (.mcorr x) → QueuesMatrix s (exec (.mcorr x) s) (.mcorr x) va vb vc img none) ∧
    ∀ (x : MsplitArgs),
      let va := s.me.sv x.a.val
      let vb := s.me.sv x.b.val
      let vc := s.me.sv x.c.val
      let d := s.home.a.read vc.toNat 32
      let len := vectorLen x.ty .none (splitK d)
      s.me.dbit x.a.val = false → s.me.dbit x.b.val = false → s.me.dbit x.c.val = false →
      vc.toNat + 32 ≤ 0x8000 → vc.toNat % 32 = 0 → (s.home.tag (192 + vc.toNat / 256)).p = false →
      (1 < x.nvec.toNat → len ≤ x.stride.toNat) →
      va.toNat + (x.nvec.toNat - 1) * x.stride.toNat + len ≤ 0x8000 → va.toNat % 8 = 0 → vb.toNat ≤ 0x4000 → vb.toNat % 64 = 0 →
      s.acquiring s.curCore s.curCtx s.home.nextId = false → s.homeClear s.curCore s.me.sup (splitHeat d) = true →
      free (.msplit x) →
      (∀ f h, s.bindMap s.curCore s.me.sup (splitHeat d) = .fails f h → vb.toNat + 4 * boundRows h * x.nvec.toNat ≤ 0x4000 →
        QueuesMatrix s (exec (.msplit x) s) (.msplit x) va vb vc d (some f)) ∧
      ∀ h t, s.bindMap s.curCore s.me.sup (splitHeat d) = .bound h t → t.me = s.me → t.home.mx = s.home.mx →
        t.curCore = s.curCore → t.curCtx = s.curCtx →
        let rows := leNat (h.take 4)
        4 ≤ h.length → 1 ≤ rows → rows ≤ 4096 → vb.toNat + 4 * rows * x.nvec.toNat ≤ 0x4000 →
        QueuesMatrix t (exec (.msplit x) s) (.msplit x) va vb vc (d ++ h) none

/-- R193, R195 to R199, R202, R203, R381: what a queued command whose guard is true does when it stands alone in its cluster
and starts. MLDS puts the block of its W into the planes, MSWAP exchanges them, MGANG sets the geometry, each in one step;
an MMUL begins, or with .st ends with GANG when a latch does not match. -/
def Obligations.MatrixCommandsStart : Prop :=
  ∀ (c : Nat) (m : MxCmd) (s : State),
    let k := clusterOf c
    let own := c % 8
    (∀ i, i < 8 → (s.core (coreOfSlice k i)).mx = if coreOfSlice k i = c then [m] else []) →
    m.phase = .queued → m.bind = .val true → m.fail = none → s.acquiring c m.ctx m.id = false →
    let start := exec (.matrixCommandStart c m.id) s
    let leaves (m' : MxCmd) (g : Cluster → Cluster → Prop) : Prop :=
      ∃ t, start = .next t ∧ t = { s with cores := t.cores, clusters := t.clusters } ∧ (∀ d, d ≠ c → t.core d = s.core d) ∧
        t.core c = { s.core c with mx := [m'] } ∧ (∀ j, j ≠ k → t.cluster j = s.cluster j) ∧ g (s.cluster k) (t.cluster k)
    let ended (st : Nat) := { m with phase := .ended st 0 }
    let runs := { m with phase := .running, prio := min 3 (priOf m.ins + (s.cycle - m.since) / 4096) }
    (∀ act grp ot gang pri ct gd woff, m.ins = .mlds act grp ot gang pri ct gd woff →
      let hit (i : Nat) : Prop := gang = true ∨ i = own
      let bytes (i : Nat) := (s.core (coreOfSlice k i)).w.read woff.toNat (32 * ot.bits)
      (∀ i, i < 8 → hit i → ∀ l, ((s.core (coreOfSlice k i)).tag l).p = false) →
      leaves (ended 0) (fun x y => { y with active := [], shadow := [] } = { x with active := [], shadow := [] } ∧
        (∀ i, i < 8 → y.plane (!act) i = x.plane (!act) i) ∧
        ∀ i, i < 8 →
          (¬ hit i → y.plane act i = x.plane act i) ∧
          (hit i → (y.plane act i).latch.ty = ot ∧ (y.plane act i).latch.grp = grp ∧
            ∀ e, e < 256 → (y.plane act i).wts.get 0 e = leNat (bytes i) / 2 ^ (e * ot.bits) % 2 ^ ot.bits))) ∧
    (∀ gang pri ct gd, m.ins = .mswap gang pri ct gd →
      leaves (ended 0) (fun x y => { y with active := [], shadow := [] } = { x with active := [], shadow := [] } ∧
        ∀ i act, i < 8 → y.plane act i = if gang = true ∨ i = own then x.plane (!act) i else x.plane act i)) ∧
    (∀ ct gd, m.ins = .mgangWide ct gd → leaves (ended 0) (fun x y => y = { x with deep := false })) ∧
    (∀ ct gd, m.ins = .mgangDeep ct gd → leaves (ended 0) (fun x y => y = { x with deep := true })) ∧
    ∀ x : MmulArgs, m.ins = .mmul x → mmulStrideOk x (s.cluster k).deep = true →
      mmulExtents x (s.cluster k).deep m.va m.vb = .ok () →
      let differs := x.st = true ∧ ∃ i, i < 8 ∧ (x.gang = true ∨ i = own) ∧
        (((s.cluster k).plane true i).latch.ty ≠ x.ot ∨ ((s.cluster k).plane true i).latch.grp ≠ x.grp)
      (¬ differs → leaves { runs with deep := x.gang && (s.cluster k).deep } (fun x y => y = x)) ∧
      (differs → leaves (ended 21) (fun x y => y = x))

/-- R203, R209, R210, R212: a running MMUL that stands at a boundary between k-steps is suspended when a waiting command
that shares a slice has a higher effective priority, and waits anew from then.
R107, R108, R113, R120 to R122, R191, R199, R200, R208, R212, R445: where nothing makes it wait and its lines hold no poison, one vector
through one k-step of an MMUL loads the block of a streaming command and writes every output in C, or gathers the sums of a group that
has not ended; MCORR and MSPLIT put their outputs into C two at a time: the old value plus the dot product of a row's differences
with the vector, the dot product of a cold row, or the array's sum in a hot row's place. Flags, SAT and tags follow, and an output
that a poisoned sector reaches sets P of its line and takes a free value.
The join of MSPLIT adds to the counter of a row how often the row fired, saturating, in flat memory, and ends the command after its
last piece.
Where a command can be suspended and with which priority it runs are the model's readings (DEDUCED, logs 62 and 69), and so is that the
outputs of a vector change together in one step (DEDUCED, log 64). -/
def Obligations.MatrixSuspendAndJoin : Prop :=
  ∀ (c : Nat) (m : MxCmd) (s : State), (s.core c).mxOf m.id = some m → m.phase = .running →
    (∀ (x : MmulArgs) (d : Nat) (q : MxCmd), m.ins = .mmul x → x.st = false → x.grp = .none → 0 < m.pos →
      m.pos % x.nvec.toNat = 0 → (d, q) ∈ s.arrayCmds (clusterOf c) → s.competes (clusterOf c) d q = true →
      q.bind = .val true → (∃ i, i ∈ slicesOf q.ins (sliceOf d) ∧ i ∈ slicesOf m.ins (sliceOf c)) →
      m.prio < min 3 (priOf q.ins + (s.cycle - q.since) / 4096) →
      exec (.matrixSuspend c m.id) s =
        .next (s.modMx c m.id (fun z => { z with phase := .suspended, since := s.cycle }))) ∧
    (let k := clusterOf c
     let own := c % 8
     let t := s.work (.mx c m.id)
     let after (q : MxCmd) : Prop := (t.core c).mx = (s.core c).mx.map (fun z => if z.id = m.id then q else z)
     let word (a : Nat) : Nat := leNat ((s.core c).c.read a 4)
     s.sys.jobs = [] → (∀ q ∈ (s.core c).mx, q.id = m.id → q = m) →
     (∀ x : MmulArgs, m.ins = .mmul x →
      let deep := m.deep && x.gang
      let depth := if deep then 128 else 16
      let n := if x.gang && !m.deep then 128 else 16
      let inputs := x.ksteps.toNat * depth
      let nv := x.nvec.toNat
      let j := m.pos / nv
      let v := m.pos % nv
      let a := m.vb.toNat + 4 * n * v
      let base := m.va.toNat + v * x.stride.toNat
      let ends := lastReads m x j v
      let last := decide (m.pos + 1 = nv * x.ksteps.toNat)
      let loads (act : Bool) (i : Nat) : Prop := x.st = false ∧ v = 0 ∧ act = false ∧ (x.gang = true ∨ i = own)
      s.suspendDue c m = false → s.observe c m (stepLines m x j v) a (4 * n) ends = none → m.pos < nv * x.ksteps.toNat →
      (∀ l, ((s.core c).tag l).p = false) → (∀ i, i < 8 → ∀ l, ((s.core (coreOfSlice k i)).tag l).p = false) →
      ∀ plane : Nat → Plane, (∀ i, i < 8 →
        (loads x.st i → plane i = (s.core (coreOfSlice k i)).loadPlane x.ot x.grp (x.woff.toNat + j * blockLen x.ot x.grp)) ∧
        (¬ loads x.st i → plane i = (s.cluster k).plane x.st i)) →
      let g := grpElems x.grp
      let written := x.acc || (if g = 0 then decide (0 < j) else decide (g ≤ j * depth))
      let out (o : Nat) : OutAcc :=
        let start : OutAcc := { cur := if written then some (word (a + 4 * o)) else none, part := m.acc.get [] (v * n + o) }
        let slices := if x.gang = false then [own] else if deep then List.range 8 else [o / 16]
        let col := if x.gang && !m.deep then o % 16 else o
        let at' (p : Nat) : Plane := plane (slices.getD (p / 16) 0)
        if x.ot.isFloat then
          let sum := blockSum ((List.range depth).map (fun p =>
            ((at' p).num col (p % 16), (s.core c).actNum x.at' base inputs (j * depth + p))))
          withTerm start sum.1 sum.2
        else
          let per := if g = 0 then slices.length else min slices.length (g / 16)
          (List.range (slices.length / per)).foldl (fun acc r =>
            let lo := 16 * r * per
            let first := j * depth + lo
            let stop := first + 16 * per
            withRun acc
              ((List.range (16 * per)).map (fun p =>
                decodeInt (at' (lo + p)).latch.ty ((at' (lo + p)).wts.get 0 (16 * col + p % 16))))
              ((List.range (16 * per)).map (fun p => decodeInt x.at' ((s.core c).elemAt .a x.at' base (first + p))))
              ((List.range per).map (fun i => (at' (lo + 16 * i)).latch.sums.getD col 0)).sum
              (decide (g = 0 ∨ stop % g = 0 ∨ stop = inputs))
              (recordOf x.ot (if g = 0 then none else some ((at' (stop - first + lo - 16)).latch.meta'.getD col 0)))
              (recordOf x.at' (if g = 0 then none
                else some (leNat ((s.core c).a.read (base + metaOffset x.at' inputs + 4 * (first / g)) 4))))) start
      let changed := (List.range n).any (fun o => (out o).changed)
      t = { s with cores := t.cores, clusters := t.clusters } ∧ (∀ d, d ≠ c → t.core d = s.core d) ∧
      (∀ i, i ≠ k → t.cluster i = s.cluster i) ∧
      { t.cluster k with shadow := [] } = { s.cluster k with shadow := [] } ∧
      (∀ act i, i < 8 → (t.cluster k).plane act i = if act = x.st then plane i else (s.cluster k).plane act i) ∧
      t.core c = { s.core c with
        c := (t.core c).c, tags := (t.core c).tags, dirty := (t.core c).dirty, mx := (t.core c).mx } ∧
      (∀ b, b < a ∨ a + 4 * n ≤ b ∨ changed = false → (t.core c).c.get b = (s.core c).c.get b) ∧
      (changed = true → ∀ o, o < n → leNat ((t.core c).c.read (a + 4 * o) 4) = (out o).cur.getD 0 % 2 ^ 32) ∧
      (∀ l, let g := (s.core c).tag l
        (t.core c).tag l = if m.tags.2 = true ∧ last = true ∧ l ∈ linesOf .c m.vb.toNat (4 * n * nv) then
            { g with v := true, u := false }
          else if m.tags.2 = true ∧ l ∈ ends then { g with u := true } else g) ∧
      ∃ acc seen, (∀ o, o < n → acc.get [] (v * n + o) = (out o).part) ∧ after { m with
        pos := m.pos + 1, flags := (List.range n).foldl (fun f o => f ||| (out o).flags) m.flags
        sat := m.sat || (List.range n).any (fun o => (out o).sat), acc := acc, seen := seen
        phase := if last then .ended 0 0 else .running }) ∧
     (let units (rows nv : Nat) (acc : Bool) (term : Nat → Option (Nat × Flags)) (ends : Nat → Bool → MxPhase) : Prop :=
        let a := m.vb.toNat + 8 * m.pos
        let w := min 2 (rows * nv - 2 * m.pos)
        let val (i : Nat) : Option (Nat × Flags) := (term (2 * m.pos + i)).map (fun v =>
          if acc then ((add32 (word (a + 4 * i)) (val32 v.1)).1, v.2 ||| (add32 (word (a + 4 * i)) (val32 v.1)).2) else v)
        let bad := (List.range w).any (fun i => (term (2 * m.pos + i)).isNone)
        WritesOutputs s t c a ((List.range w).map (fun i => (val i).map (·.1))) (fun l => bad && decide (l = lineOf .c a)) ∧
        ∃ q, after q ∧ q.pos = m.pos + 1 ∧ q.phase = ends (rows * nv) q.badAddr.isSome ∧
          (bad = false → q.badAddr = m.badAddr ∧ q.badRows = m.badRows ∧
            q.flags = (List.range w).foldl (fun f i => f ||| ((val i).map (·.2)).getD 0) m.flags) ∧
          (bad = true → q.badAddr.isSome = true ∧ (m.badAddr.isSome = true → q.badAddr = m.badAddr) ∧
            ∀ i, i < w → term (2 * m.pos + i) = none → (2 * m.pos + i) % rows ∈ q.badRows)
      let ready (rows nv : Nat) (lines : List Nat) : Prop :=
        s.observe c m lines (m.vb.toNat + 8 * m.pos) (4 * min 2 (rows * nv - 2 * m.pos))
          (if rows * nv ≤ 2 * m.pos + 2 then lines else []) = none ∧
        2 * m.pos < rows * nv ∧ m.vb.toNat % 8 = 0 ∧ (∀ l ∈ lines, ((s.core c).tag l).p = false) ∧
        ∀ l, 320 ≤ l → ((s.core c).tag l).p = true → l ∈ m.badLines
      (∀ x : McorrArgs, m.ins = .mcorr x →
        let sp := s.space m.asid
        let d := handleIdx (corrD m.img)
        let up := handleIdx (corrA m.img)
        let n := sp.node d
        let per := 4096 / (n.fmt.bits / 8)
        let rows := corrRows m.img
        let row (q : Nat) : Nat := corrFirst m.img + q % rows
        let lost (q : Nat) : Bool := (sp.rowDiff d up (row q)).2
        let adds (b : Nat) : Bool := (sp.chain d up).any (fun i =>
          decide ((sp.node i).entry b ≠ .inherit) || decide ((sp.node i).kind = .lowrank))
        let diff (q p : Nat) : Machine.Num × Flags :=
          let e := row q * n.cols + p
          if adds (e / per) then
            sumNum .rne [decodeElem n.fmt (elemAt n.fmt (sp.block d (e / per)).1 (e % per)),
              (decodeElem n.fmt (elemAt n.fmt (sp.block up (e / per)).1 (e % per))).neg]
          else (.fin false 0 0, 0)
        let dot (q : Nat) : Nat × Flags :=
          let base := m.va.toNat + q / rows * x.stride.toNat
          let sum := dotOf ((List.range n.cols).map (fun p => ((diff q p).1, (s.core c).actNum x.ty base n.cols p)))
          (sum.1, (List.range n.cols).foldl (fun f p => f ||| (diff q p).2) sum.2)
        ready rows x.nvec.toNat (vectorLines m x.ty x.nvec.toNat x.stride.toNat n.cols) → s.chainFault m = none →
        (n.fmt = .fp32 ∨ n.fmt = .bf16 ∨ n.fmt = .fp16) →
        units rows x.nvec.toNat true (fun q => if lost q then none else some (dot q)) (fun total bad =>
          if total ≤ 2 * m.pos + 2 then .ended (if bad then 11 else 0) ((t.core c).mxOf m.id |>.bind (·.badAddr) |>.getD 0)
          else .running)) ∧
      ∀ x : MsplitArgs, m.ins = .msplit x →
        let rows := splitRows m.img
        let k' := splitK m.img
        let act (q p : Nat) : Machine.Num := (s.core c).actNum x.ty (m.va.toNat + q / rows * x.stride.toNat) k' p
        let hot (q : Nat) : Bool := ((m.img.getD (96 + q % rows / 8) 0).toNat).testBit (q % rows % 8)
        let rank (q : Nat) : Nat := ((List.range (q % rows)).filter hot).length
        let place (q : Nat) : Nat := (m.img.getD (96 + 8 * ((rows + 63) / 64) + rank q) 0).toNat % 128
        let width := if m.deep then 128 else 16
        let onArray (q : Nat) : Nat × Flags := blockSum ((List.range width).map (fun p =>
          (((s.cluster k).plane true (if m.deep then p / 16 else place q / 16)).num (place q % 16) (p % 16),
            if p < k' then act q p else .fin false 0 0)))
        ready rows x.nvec.toNat (vectorLines m x.ty x.nvec.toNat x.stride.toNat k') →
        ∀ cold : Nat → List Byte × Option Nat,
        (∀ q n, q < rows * x.nvec.toNat → hot q = false →
          State.readRun { s with freeCtr := n } c m.sup .read (splitWaddr m.img + 256 * (q % rows)) (2 * k') =
            .ok (cold q).1 (cold q).2 { s with freeCtr := n }) →
        let inMemory (q : Nat) : Nat × Flags := dotOf ((List.range k').map (fun p =>
          (decodeElem x.ty (leNat (((cold q).1.drop (2 * p)).take 2)), act q p)))
        units rows x.nvec.toNat x.acc (fun q =>
          if hot q then some (onArray q) else if (cold q).2.isSome then none else some (inMemory q)) (fun _ _ => .running))) ∧
    ∀ (x : MsplitArgs), m.ins = .msplit x →
      let rows := splitRows m.img
      let units := (rows * x.nvec.toNat + 1) / 2
      (∀ r, r < rows → m.pos = units + 1 + r → r ∉ m.badRows →
        let va := splitHeat m.img + 64 + 2 * r
        ∀ e : TlbEntry, Hits s c m.sup .both va e → e.rm = false →
        let pa := e.phys va
        pa < Config.hbmSize → s.hbmPoisoned pa 2 = false → s.lostAt (c / 224 / 60 * 2 + c % 224 / 112) pa 2 = false →
        (∀ l, 320 ≤ l → ((s.core c).tag l).p = true → l ∈ m.badLines) → (∀ q ∈ s.cores, pa / 64 ∉ q.2.linebuf) →
        s.flat.rmWrites = [] → s.sys.jobs = [] → s.flat.hbm.wf = true →
        let fires (v : Nat) : Bool := decide
          (cmpNum (decodeFloat .fp32 (leNat ((s.core c).c.read (m.vb.toNat + 4 * (rows * v + r)) 4))).abs
            (decodeFloat .fp32 (splitTau m.img)) = some .gt)
        let sum := min (leNat (s.flat.hbm.read pa 2) + (List.range x.nvec.toNat).countP fires) 0xFFFF
        ∃ t, exec (.msplitJoin c m.id) s = .next t ∧
          t = { s.modMx c m.id (fun z => { z with pos := z.pos + 1 }) with flat := { s.flat with hbm := t.flat.hbm } } ∧
          ∀ a, t.flat.hbm.get a = if pa ≤ a ∧ a < pa + 2 then (leBytes 2 sum).getD (a - pa) 0 else s.flat.hbm.get a) ∧
      (units + 2 * rows + 1 < m.pos → m.badAddr = none → s.flat.rmWrites = [] →
        exec (.msplitJoin c m.id) s = .next (s.modMx c m.id (fun z => { z with phase := .ended 0 0 })))

/-! ## Kilns -/

/-- R271 to R275, R287, R373, R374: KILN asks once and waits, as kind 1, and returns its answer; the controller's answer is
a refusal code, or K, one above LAST, with which the issuing core has cut, and its counter is bumped unless the kiln has aborted
by then; KILNST gives state and number; KILNREL releases kiln K and bumps, and KILNRB rolls back to it, after which every member
has KNUM and RBK K and RB 1; a nonzero status of either changes nothing else. With an earlier request of the job before it, each of
these three takes its place in the controller's line and waits, as kind 1. LAST is what the descriptor holds when the kiln starts
(R269), and KILNREL tells the job's other modules.
That number 0 follows 65,535, that refusal 3 is given whether or not 4 and 5 hold too, and that KILNREL waits for no answer of another
module are the model's readings (DEDUCED, logs 16, 79 and 131). -/
def Obligations.KilnInstructions : Prop :=
  ∀ (full : Bool) (d a : Reg) (ct : Cnt) (s : State),
    let asid := s.asidOf s.curCore
    let v := s.me.sv a.val
    let code (x : Kiln) : Nat := match x.state with | .running => 1 | .complete => 2 | .aborted => 3
    let kilns := match s.job asid with | some j => j.kilns | none => []
    let found := kilns.find? (fun x => decide (x.num.toNat = v.toNat) && (x.unreleased || decide (x.state = .aborted)))
    let st := match found with | some x => code x | none => 0
    let answered (o : Host.Outcome State Fault Refusal) (w : Word64) : Prop := Writes s o (s.me.pc + 8) d.val w false
    (s.me.held = .none → MayWait s → ∃ t, exec (.kiln full d ct) s = .next t ∧
      OnlyMe { s with sys := { s.sys with kilnReqs := s.sys.kilnReqs ++ [⟨s.curCore, s.curCtx, true, full, d.val, ct.val⟩] } } t id ∧
      t.me = { s.me with
        left := s.me.counted, waitObj := some (1, 0), waitSince := some (s.me.waitSince.getD s.cycle), held := .kilnAsked }) ∧
    (∀ w, s.me.held = .kilnDone w → answered (exec (.kiln full d ct) s) w) ∧
    (s.me.dbit a.val = false → s.me.held = .none → MayWait s → (∃ q ∈ s.sys.kilnReqs, s.asidOf q.core = asid) →
      (∀ q ∈ s.sys.kilnReqs, q.core ≠ s.curCore ∨ q.ctx ≠ s.curCtx) →
      let line : State := { s with sys := { s.sys with
        kilnReqs := s.sys.kilnReqs ++ [⟨s.curCore, s.curCtx, false, false, 0, 0⟩] } }
      let stands (o : Host.Outcome State Fault Refusal) : Prop := Becomes line o { s.me with
        left := s.me.counted, waitObj := some (1, 0), waitSince := some (s.me.waitSince.getD s.cycle), held := .kilnTurn }
      stands (exec (.kilnst d a) s) ∧ stands (exec (.kilnrel d a ct) s) ∧ stands (exec (.kilnrb d a ct) s)) ∧
    (s.me.dbit a.val = false → (∀ q ∈ s.sys.kilnReqs, s.asidOf q.core ≠ asid) →
      answered (exec (.kilnst d a) s) (BitVec.ofNat 64 (st + v.toNat % 2 ^ 16 * 2 ^ 16)) ∧
      (st ≠ 2 →
        let status : Word64 := if st = 1 then 1 else if st = 0 then 2 else 3
        answered (exec (.kilnrel d a ct) s) status ∧ answered (exec (.kilnrb d a ct) s) status) ∧
      (st = 2 → QuietCounter s s.curCore ct.val → (∀ x ∈ kilns, x.num.toNat = v.toNat → x.state = .complete) →
        ∃ (y : SysDie) (told : List (Nat × FabOut)), State.kilnState { s with sys := y } asid v = 0 ∧
          (∀ e ∈ told, e.2 = .kilnRelease asid v.toNat) ∧ (∀ j, s.job asid = some j → j.remotes = [] → told = []) ∧
          Gives { s with sys := y, fab := { s.fab with out := s.fab.out ++ told } } (exec (.kilnrel d a ct) s) (s.me.pc + 8) d.val 0 false id
            (fun x => { x with counters := x.counters.set 0 ct.val (x.counter ct.val + 1) })) ∧
      ∀ (j : Job) (k : Kiln) (u : State), s.job asid = some j → j.running = none → j.kiln (v.setWidth 16) = some k →
        st = 2 → j.spoils k = false → (s.tellModules asid (.kilnRollback asid k.num.toNat)).rollback j k = some u →
        (∀ t ∈ k.teams, t.col0 + t.width ≤ 224) →
        exec (.kilnrb d a ct) s = .next u ∧ (∃ i, u.job asid = some i ∧ i.last = k.num) ∧
        ∀ t ∈ u.sys.teams, t.asid = asid → ∀ c ∈ t.cores,
          (u.core c).knum = k.num ∧ (u.core c).rb = true ∧ (u.core c).rbk = k.num) ∧
    ∀ (c h : Nat) (q : KilnReq), s.sys.kilnReqs.find? (fun q => q.core = c && q.ctx = h && q.answers) = some q →
      (∀ p ∈ s.sys.kilnReqs.takeWhile (fun x => !(x.core = c && x.ctx = h)), s.asidOf p.core ≠ s.asidOf c) →
      (∀ t ∈ s.sys.teams, t.asid = s.asidOf c → t.phase ≠ .waking) →
      let rest : State := { s with sys := { s.sys with kilnReqs := s.sys.kilnReqs.filter (fun x => !(x.core = c && x.ctx = h)) } }
      let refused (r : Nat) : Prop := exec (.kilnAnswer c h) s =
        .next (rest.modCtx c h (fun x => { x with held := .kilnDone (BitVec.ofNat 64 (0xFFFFFFFF00000000 + r)) }))
      (s.job (s.asidOf c) = none → refused 1) ∧
      (∀ j, s.job (s.asidOf c) = some j → j.running.isSome = true → refused 2) ∧
      (∀ j, s.job (s.asidOf c) = some j → j.running = none → 2 ≤ (j.kilns.filter (fun k => k.unreleased)).length → refused 3) ∧
      ∀ (j : Job) (num : BitVec 16) (t : State) (e : Team), s.job (s.asidOf c) = some j →
        rest.beginKiln (s.asidOf c) q.full = .ok (num, t) → s.teamOf c = some e → c ∈ e.cores →
        ((s.core c).ctx h).live = true →
        (∀ d, rest.readDesc (s.asidOf c) j.desc = some d → num = d.last + 1) ∧ ∃ u, exec (.kilnAnswer c h) s = .next u ∧
          ((u.core c).ctx h).held = .kilnDone (num.setWidth 64) ∧ (u.core c).knum = num ∧
          (u.core c).counter q.ct = (s.core c).counter q.ct +
            (if ((u.job (s.asidOf c)).bind Job.running).isSome then 1 else 0)

/-- R275, R277 to R283, R287 to R289: the controller's and the routers' own steps. The first marker of a kiln that reaches a router is
forwarded on every link of it, from an entry router of the system die on every fabric port that is up too (R12), and makes its core
cut for the running kiln; later ones are dropped; the lowest pending line that no old command reads is drained with its bytes and tags; a drain that outlasts YSTALL
of h0 aborts the kiln; the page of a waiting write is copied and its leaf stamped; a module whose part is whole reports its counts, and a
kiln whose cores, drains and modules are done and whose old packets sent are those received ends, with every core of the job cut; a
kiln or a rollback of another module begins here.
What counts as an old packet, and when a module reports, are the model's readings (DEDUCED, log 113); that a port passes a kiln's
marker on once, from the first entry router that has it, and that a marker row with no such marker leaves the state, are its
choices (DESIGN CHOICE, logs 115 and 2). -/
def Obligations.KilnController : Prop :=
  ∀ (asid c : Nat) (s : State),
    (∀ j ∈ s.sys.jobs, ∀ x ∈ j.kilns, ∀ y ∈ j.kilns, x.state = .running → y.state = .running → x = y) →
    let aborts (s u : State) (k : Kiln) : Prop :=
      (u.job asid).bind Job.running = none ∧
      ∀ d ∈ s.jobCores asid, (u.core d).knum = k.num ∧ (u.core d).drain = []
    (∀ (k : Nat) (m : Marker), s.sys.markers.find? (fun m => m.router = c && m.k = k) = some m →
      let place := c * 2 ^ 16 + m.asid
      (s.sys.forwarded.find place = some k →
        exec (.marker c k) s = .next { s with sys := { s.sys with markers := s.sys.markers.erase m } }) ∧
      (s.sys.forwarded.find place ≠ some k → ∃ u, exec (.marker c k) s = .next u ∧ u.sys.forwarded.find place = some k ∧
        (∀ d n, d < 4 → neighbour c d = some n → ⟨n, m.asid, k⟩ ∈ u.sys.markers) ∧
        (∀ (t : Team) (x : Kiln), s.teamOf c = some t → t.asid = m.asid → t.phase = .running → s.partOver c = false →
          (s.job m.asid).bind Job.running = some x → x.num.toNat = k → (c ∈ t.cores → (u.core c).knum = x.num)) ∧
        ((∀ x, (s.job m.asid).bind Job.running = some x → x.num.toNat ≠ k) → u.cores = s.cores ∧
          u.fab.out = s.fab.out ++ (if c ∈ [59 * 224 + 111, 59 * 224 + 112, 60 * 224 + 111, 60 * 224 + 112] then
            ((List.range 16).filter (fun p =>
              (s.fab.ports.get {} p).up && decide ((s.fab.ports.get {} p).marked ≠ some (m.asid, k)))).map
                (fun p => (p, .marker m.asid k)) else [])))) ∧
    (∀ k, s.sys.markers.find? (fun m => m.router = c && m.k = k) = none → exec (.marker c k) s = .next s) ∧
    (∀ l before after, (s.core c).drain = before ++ l :: after → (∀ b ∈ before, b ∈ s.oldReads c (s.core c).knum) →
      l ∉ s.oldReads c (s.core c).knum →
      ∃ u, exec (.lineDrain c) s = .next u ∧ l ∉ (u.core c).drain ∧ (∀ sp, (u.core c).store sp = (s.core c).store sp) ∧
        (u.core c).tags = (s.core c).tags ∧
        ∀ k k', s.cutFor c = some k → (u.job (s.asidOf c)).bind Job.running = some k' →
          ∃ r ∈ k'.lines, r.core = c ∧ r.line = l ∧ r.tag = (s.core c).tag l ∧
            ∀ i, i < 256 → r.bytes.get i = ((s.core c).store (lineSpace l)).get (lineAddr l + i)) ∧
    (∀ since k, s.asidOf c = asid → (s.core c).drain ≠ [] → (s.core c).drainSince = some since →
      ((s.core c).ctx 0).ystall.toNat ≤ s.cycle - since → (s.job asid).bind Job.running = some k →
      ∃ u, exec (.kilnDrainTimeout c) s = .next u ∧ aborts s u k) ∧
    (∀ (va : Nat) (e : TlbEntry) (j : Job) (k : Kiln), (∃ q ∈ s.sys.pageReqs, q.asid = asid ∧ q.va = va) →
      walk s asid (s.space asid).ptbase.toNat va = .ok e → s.job asid = some j → j.current = some k → e.kst ≠ k.num →
      ∃ u, exec (.kilnPageCopy asid va) s = .next u ∧ (∀ q ∈ u.sys.pageReqs, ¬ (q.asid = asid ∧ q.va = va)) ∧
        (((u.job asid).bind Job.running).isSome = true →
          u.flat.hbm.read (e.leaf + 6) 2 = leBytes 2 k.num.toNat ∧ ∀ d, ∀ q ∈ (u.core d).tlb, q.leaf ≠ e.leaf)) ∧
    (∀ (j : Job) (k : Kiln), s.job asid = some j → j.running = some k → k.remotesLeft = [] →
      (∀ t ∈ s.sys.teams, t.asid = asid → t.phase = .running ∧ ∀ d ∈ t.cores, s.coreWhole k d = true) →
      (∀ p ∈ s.sys.packets, p.asid = asid → p.colour = decide (k.num.toNat % 2 = 1)) →
      (j.remotes ≠ [] → k.reported ≠ some (k.oldSent, k.received) →
        ∃ u x, exec (.kilnComplete asid) s = .next u ∧ (u.job asid).bind Job.running = some x ∧
          x.reported = some (k.oldSent, k.received)) ∧
      ((j.remotes = [] ∨ k.reported = some (k.oldSent, k.received)) → k.totalSent = k.totalReceived →
        ∃ u, exec (.kilnComplete asid) s = .next u ∧ (u.job asid).bind Job.running = none ∧
          ∀ d ∈ s.jobCores asid, (u.core d).knum = k.num)) ∧
    (∀ (j : Job) (k : BitVec 16) (base : Bool), s.job asid = some j → j.running = none →
      (∀ t ∈ s.sys.teams, t.asid = asid → t.phase ≠ .waking) →
      ∃ u i, exec (.remoteKilnStart asid k.toNat base) s = .next u ∧ u.job asid = some i ∧ i.last = k) ∧
    ∀ (j : Job) (k : Kiln) (u : State), s.job asid = some j → j.running = none → j.kiln k.num = some k → k.state = .complete →
      (∀ x ∈ j.kilns, x.num = k.num → x = k) → s.rollback j k = some u →
      exec (.remoteRollback asid k.num.toNat) s = .next u

/-! ## Lineage -/

/-- R48, R148, R149, R159 to R163: with no kiln to compare with, LFORK makes a root from its record, or an XOR child of a
node that is sealed and counts it, at the lowest free index, whose handle d receives; LFORK.af below the bound does so too,
with its bump due at once, and at the bound makes a child with AF and starts its flatten. BUSY, DEPTH and NOSPACE write 0
to d and change nothing, and a handle that names no node traps.
That a plain LFORK takes no sequence number is the model's reading (DEDUCED, log 89), and so is the depth that counts beneath an
LREBASE under way (DEDUCED, log 74): no LREBASE of the space is under way here. -/
def Obligations.LineageForks : Prop :=
  ∀ (d a c : Reg) (ct : Cnt) (s : State),
    let asid := s.asidOf s.curCore
    let sp := s.space asid
    let v := s.me.sv a.val
    let e := (s.me.sv c.val).toNat
    let r := nodeRec (s.home.a.read e 32)
    let handle (i : Nat) : Word32 := BitVec.ofNat 32 ((sp.gen i).toNat * 2 ^ 24 + i)
    let status (n : BitVec 2) (x : Ctx) : Ctx := { x with lstat := n }
    let grown (sp' : AddrSpace) (f : Nat → Node) : Prop :=
      sp' = { sp with nodes := sp'.nodes, heapUsed := sp'.heapUsed } ∧ ∀ j, sp'.node j = f j
    let cmd (i : Nat) (g : Prog) : LinCmd :=
      { id := s.home.nextId, core := s.curCore, ctx := s.curCtx, pc := s.me.pc, seq := s.me.seq, ins := .lforkAf d a c ct
        va := v, vb := 0, vc := s.me.sv c.val, node := i, base := 0, bind := .val true, colour := decide (s.home.knum.toNat % 2 = 1), asid := asid, prog := g }
    let fork := exec (.lfork d a c) s
    let forkAf := exec (.lforkAf d a c ct) s
    let refuses (o : Host.Outcome State Fault Refusal) (n : BitVec 2) : Prop := Gives s o (s.me.pc + 12) d.val 0 false (status n) id
    s.me.dbit a.val = false → s.me.dbit c.val = false → s.job asid = none → s.rebases asid = [] →
    (∀ (ty : ElemType) (i : Nat) (n : Node), v = 0 → c.val ≠ 0 → e + 32 ≤ 0x8000 → e % 32 = 0 →
      (s.home.tag (192 + e / 256)).p = false → r.kind = 0 → ElemType.ofCode r.fmt = some ty →
      (∀ x ∈ r.dims.take (r.ndim + 1), x ≠ 0) → (∀ x ∈ r.dims.drop (r.ndim + 1), x = 0) →
      n = { handle := handle i, state := .live, fmt := ty, dfmt := ty, dims := r.dims.take (r.ndim + 1) } → n.size ≤ 2 ^ 40 →
      sp.freeIdx = some i → (sp.takeMap n.blocks).isSome = true →
      ∃ sp', grown sp' (fun j => if j = i then n else sp.node j) ∧
        Gives (s.modSpace asid (fun _ => sp')) fork (s.me.pc + 12) d.val ((handle i).setWidth 64) false (status 0) id) ∧
    (∀ (i p : Nat), v ≠ 0 → c.val = 0 → sp.named v = some p → (sp.node p).state ≠ .frozen →
      let pn := sp.node p
      let child : Node := { parent := v.setWidth 32, handle := handle i, depth := pn.depth + 1, klev := pn.klev, state := .live
                            kind := .xor, fmt := pn.fmt, dfmt := pn.fmt, dims := pn.dims, dflt := .inherit }
      let after (x : Node) (j : Nat) : Node := if j = i then x
        else if j = p then { pn with state := if pn.state = .live then .sealed else pn.state, children := pn.children + 1 }
        else sp.node j
      (pn.af = true → refuses fork 3 ∧ refuses forkAf 3) ∧
      (pn.af = false → 7 ≤ pn.depth → refuses fork 1) ∧
      (pn.af = false → pn.depth < 7 → pn.children < 2 ^ 24 - 1 → sp.freeIdx = none → refuses fork 2 ∧ refuses forkAf 2) ∧
      (pn.af = false → pn.children < 2 ^ 24 - 1 → sp.freeIdx = some i → (sp.node i).state = .free →
        (sp.takeMap pn.blocks).isSome = true →
        (pn.depth < 7 → ∃ sp', grown sp' (after child) ∧
          Gives (s.modSpace asid (fun _ => sp')) fork (s.me.pc + 12) d.val ((handle i).setWidth 64) false (status 0) id) ∧
        ((s.sys.lin.filter (fun l => l.core = s.curCore)).length < 8 →
          let made (n : Node) (g : Prog) : Prop := ∃ sp', grown sp' (after n) ∧
            Gives ((s.modSpace asid (fun _ => sp')).modSys (fun y => { y with lin := y.lin ++ [cmd i g] })) forkAf
              (s.me.pc + 12) d.val ((handle i).setWidth 64) false
              (fun x => { issuedCtx (.lforkAf d a c ct) s.home.nextId x with lstat := 0 }) (fun x => { x with nextId := x.nextId + 1 })
          (pn.depth < 7 → made child (.ended 0 0)) ∧
          (7 ≤ pn.depth → made { child with depth := pn.depth, af := true } .waiting)))) ∧
    (HasHandler s → v ≠ 0 → sp.named v = none → Traps s fork 13 v ∧ Traps s forkAf 13 v)

/-- R159, R160, R164 to R170, R378, R443: LFLAT, LPACK and LREBASE of a node that is not BUSY take a place in the lineage
engine with status OK, and LDEL kills the handle besides; a BUSY node gives status 3, an LREBASE that would bring a node deeper
than 7 gives status 1, and either changes nothing and issues nothing; a handle that names no node traps. LINFO writes the fields of
R169, and 0 for such a handle.
The depth and the height that count beneath an LREBASE under way are the model's readings (DEDUCED, log 74), as is a DEPTH of 7 for a
node that a release has brought to 8 (DEDUCED, log 124); a KLEV of 2 for a node below more FROZEN ones is the model's choice (DESIGN
CHOICE, log 123). -/
def Obligations.LineageCommands : Prop :=
  ∀ (d a b : Reg) (ct : Cnt) (gd : Guard) (o : MemOrder) (s : State),
    let asid := s.asidOf s.curCore
    let sp := s.space asid
    let v := s.me.sv a.val
    let w := s.me.sv b.val
    let cmd (ins : Instr) (node base : Nat) : LinCmd :=
      { id := s.home.nextId, core := s.curCore, ctx := s.curCtx, pc := s.me.pc, seq := s.me.seq, ins := ins
        va := v, vb := match ins with | .lrebase .. => w | _ => 0
        vc := 0, node := node, base := base
        bind := match s.home.guard (Machine.gdOf ins) with
          | .tru => .val true | .fls => .val false | .pending => .slot (Machine.gdOf ins)
        colour := decide (s.home.knum.toNat % 2 = 1), asid := asid }
    let issues (u : State) (i : Instr) (l : LinCmd) : Prop :=
      Gives (u.modSys (fun y => { y with lin := y.lin ++ [l] })) (exec i s) (s.me.pc + 12) d.val 0 false
        (fun x => { issuedCtx i s.home.nextId x with lstat := 0 }) (fun x => { x with nextId := x.nextId + 1 })
    let busy (i : Instr) : Prop := Gives s (exec i s) (s.me.pc + 12) d.val 3 false (fun x => { x with lstat := 3 }) id
    let room := (s.sys.lin.filter (fun l => l.core = s.curCore)).length < 8
    s.me.dbit a.val = false → s.me.dbit b.val = false →
    (∀ i, sp.named v = some i → (sp.node i).state ≠ .frozen →
      (s.nodeBusy asid i = true → busy (.lflat d a ct gd o) ∧ busy (.lpack d a ct gd o) ∧ busy (.ldel d a ct)) ∧
      (s.nodeBusy asid i = false → room →
        issues s (.lflat d a ct gd o) (cmd (.lflat d a ct gd o) i 0) ∧
        issues s (.lpack d a ct gd o) (cmd (.lpack d a ct gd o) i 0) ∧
        (s.job asid = none → ∃ sp' hs, sp'.valid (v.setWidth 32) = none ∧
          ((sp.node i).parentIdx = 0 → (sp.node i).kind ≠ .lowrank →
            (sp'.node i).state = if (sp.node i).children = 0 ∧ (sp.node i).refs = 0 then .free else .husk) ∧
          issues (s.modSpace asid (fun _ => sp')) (.ldel d a ct)
            { cmd (.ldel d a ct) i 0 with prog := .running, after := some hs }) ∧
        ∀ j, sp.named w = some j → (sp.node j).state ≠ .frozen → j ≠ i → sp.isAncestor i j = false →
          (sp.isAncestor j i = false → (sp.node j).fmt = (sp.node i).fmt ∧ (sp.node j).dims = (sp.node i).dims) →
          (∀ k ∈ sp.descendants i, (sp.node k).af = false) →
          let status (n : Nat) : Prop := Gives s (exec (.lrebase d a b ct gd o) s) (s.me.pc + 12) d.val (BitVec.ofNat 64 n) false
            (fun x => { x with lstat := BitVec.ofNat 2 n }) id
          (s.rebases asid = [] → s.depthSeen asid j = (sp.node j).fullDepth ∧ s.heightSeen asid i = sp.height i) ∧
          (s.depthSeen asid j + 1 + s.heightSeen asid i ≤ 7 →
            issues s (.lrebase d a b ct gd o) (cmd (.lrebase d a b ct gd o) i j)) ∧
          (7 < s.depthSeen asid j + 1 + s.heightSeen asid i → status 1))) ∧
    (sp.named v = none → HasHandler s → Traps s (exec (.lflat d a ct gd o) s) 13 v ∧ Traps s (exec (.lpack d a ct gd o) s) 13 v ∧
      Traps s (exec (.ldel d a ct) s) 13 v ∧ Traps s (exec (.lrebase d a b ct gd o) s) 13 v) ∧
    (sp.named v = none → Writes s (exec (.linfo d a) s) (s.me.pc + 12) d.val 0 false) ∧
    ∀ i, sp.named v = some i →
      let n := sp.node i
      n.children < 2 ^ 24 →
      ∃ x : Word64, Writes s (exec (.linfo d a) s) (s.me.pc + 12) d.val x false ∧
        let x := x.toNat
        bits x 2 0 = (if n.af then 7 else min 7 n.depth) ∧ bits x 4 3 = min 2 n.klev ∧ bits x 7 5 = NodeState.code n.state ∧ bits x 9 8 = DeltaKind.code n.kind ∧
        bits x 13 10 = n.fmt.code ∧ bits x 37 14 = n.children ∧ bitAt x 38 = s.nodeBusy asid i ∧ bits x 41 39 = min 7 (sp.heightField i) ∧
        bitAt x 42 = n.af ∧ bits x 63 43 = 0

/-- R157, R163 to R166, R168: the block steps of LFLAT, LREBASE and LPACK: a flatten stores what the block resolves to as F, a rebase
puts I in its new map where node and base resolve alike and F elsewhere, a pack chooses I, Z, X or A for an F block without poison,
and a step without heap room ends the command with PROT.
The switch that ends a flatten makes the node a root and lowers its descendants; that of a
rebase installs the new map below its new parent, which is sealed and counts it; no other node changes. A splice begins when its child
is not BUSY, switches block by block by the table of R168, and ends with the child below the husk's parent and the husk free. The
parent that loses a child is no husk here, the node no LOWRANK one, and the job has no kiln.
An LREBASE whose base no longer stands at its switch ends with PROT, and one whose base has been written compares the block again;
both are the model's (DESIGN CHOICE, log 116). That the DEPTH of descendants and the KLEV of node and descendants change in the step of
the switch is the model's reading (DEDUCED, log 74), and so are the KIND, DFMT, RANK and factors that a spliced child takes from
the husk (DEDUCED, log 15); the room that a packed entry takes before the F gives its own back is its choice (DESIGN CHOICE, log 14). -/
def Obligations.NodeSwitchesAndSplices : Prop :=
  (∀ (c id : Nat) (l : LinCmd) (s : State), s.linOf c id = some l → l.prog = .running → l.after = none → l.bind = .val true →
    (s.job l.asid).bind Job.current = none →
    let sp := s.space l.asid
    let i := l.node
    let n := sp.node i
    let p := n.parentIdx
    let k := l.blk
    let ch := k % Config.channelCount
    let go := s.work (.lin c id)
    let fits (u : Nat) : Prop := sp.heapUsed.get 0 ch + u ≤ sp.heapUnits
    let full : Prop := ∃ d q, n.entry k = .full d q
    let done (e : Entry) : Prop := ∃ sp',
      go = (s.modSpace l.asid (fun _ => sp')).modLin c id (fun l => { l with blk := l.blk + 1 }) ∧
      sp' = { sp with nodes := sp'.nodes, heapUsed := sp'.heapUsed } ∧ sp'.node i = { n with map := (sp'.node i).map } ∧
      (∀ b, (sp'.node i).entry b = if b = k then e else n.entry b) ∧ (∀ j, j ≠ i → sp'.node j = sp.node j) ∧
      ∀ x, sp'.heapUsed.get 0 x =
        if x = ch then sp.heapUsed.get 0 x + e.units n - (n.entry k).units n else sp.heapUsed.get 0 x
    let fails (u : State) : Prop := go = u.modLin c id (fun l => { l with prog := .ended 10 0 })
    k < n.blocks →
    (((∃ d a ct gd o, l.ins = .lflat d a ct gd o) ∨ (∃ d a x ct, l.ins = .lforkAf d a x ct)) →
      (full ∨ fits 8 → done (.full (sp.block i k).1 (sp.block i k).2)) ∧ (¬ full → ¬ fits 8 → fails s)) ∧
    (∀ (d a b : Reg) (ct : Cnt) (gd : Guard) (o : MemOrder) (sp1 : AddrSpace), l.ins = .lrebase d a b ct gd o →
      (l.rooms = 1 ∧ sp1 = sp ∨ l.rooms = 0 ∧ sp.takeMap n.blocks = some sp1) → l.newMap.find k = none →
      let alike : Prop := (sp.block l.base k).1 = (sp.block i k).1 ∧ (sp.block l.base k).2 = [] ∧ (sp.block i k).2 = []
      let used := sp1.heapUsed.get 0 ch
      let goes (sp' : AddrSpace) (m : AMap Entry) : Prop := go =
        (s.modSpace l.asid (fun _ => sp')).modLin c id
          (fun z => { z with blk := z.blk + 1, newMap := m, frozMap := l.frozMap, rooms := 1 })
      (alike → goes sp1 l.newMap) ∧
      (¬ alike → used + 8 ≤ sp1.heapUnits →
        goes { sp1 with heapUsed := sp1.heapUsed.set 0 ch (used + 8) }
          (l.newMap.put k (.full (sp.block i k).1 (sp.block i k).2))) ∧
      (¬ alike → sp1.heapUnits < used + 8 → fails (s.modSpace l.asid (fun sp => sp.dropNewMaps l)))) ∧
    ∀ (d a : Reg) (ct : Cnt) (gd : Guard) (o : MemOrder), l.ins = .lpack d a ct gd o →
      (¬ full → done (n.entry k)) ∧
      (∀ x q, n.entry k = .full x q → q ≠ [] → done (n.entry k)) ∧
      ∀ x, n.entry k = .full x [] → fits 7 →
        let asI : Prop := p ≠ 0 ∧ (sp.modNode i (fun n => { n with map := n.map.set n.dflt k .inherit })).block i k = (x, [])
        (asI → done .inherit) ∧ (¬ asI → x = [] → done .zero) ∧
        (¬ asI → x ≠ [] → (n.depth = 0 ∨ n.kind = .lowrank ∨ n.kind = .none ∨ p = 0 ∨ (sp.block p k).2 ≠ []) → done (n.entry k)) ∧
        ∀ y, ¬ asI → x ≠ [] → n.depth ≠ 0 → p ≠ 0 → sp.block p k = (y, []) → AMap.sorted x = true → AMap.sorted y = true →
          let differs (z : Nat) : Bool := decide (x.read (128 * z) 128 ≠ y.read (128 * z) 128)
          let count := (List.range 32).countP differs
          let masks (m : Word32) : Prop := ∀ z, z < 32 → m.getLsbD z = differs z
          (n.kind = .xor → (∀ a, 4096 ≤ a → x.get a = 0 ∧ y.get a = 0) →
            (count ≤ 27 → ∃ m w, done (.xor m w []) ∧ masks m ∧ ∀ a, w.get a = x.get a ^^^ y.get a) ∧
            (27 < count → done (n.entry k))) ∧
          (n.kind = .add → addOk n.fmt n.dfmt = true →
            let per := 1024 / n.fmt.bits
            let sz := n.dfmt.bits / 8
            let diff (z j : Nat) : Option Nat :=
              packDiff n.fmt n.dfmt (elemAt n.fmt x (z * per + j)) (elemAt n.fmt y (z * per + j))
            let all : Prop := ∀ z j, z < 32 → differs z = true → j < per → (diff z j).isSome = true
            let small : Prop := 16 + count * (per * n.dfmt.bits / 8) ≤ 3584
            (all → small → ∃ m w, done (.add n.dfmt m w []) ∧ masks m ∧
              ∀ z j, z < 32 → differs z = true → j < per →
                (diff z j).map (fun v => v % 2 ^ (8 * sz)) = some (w.num (128 * z + j * sz) sz)) ∧
            (¬ all ∨ ¬ small → done (n.entry k)))) ∧
  (∀ (c id : Nat) (l : LinCmd) (s : State), id < 2 ^ 32 → s.linOf c id = some l → l.prog = .running → l.after = none →
    (s.job l.asid).bind Job.current = none →
    let sp := s.space l.asid
    let i := l.node
    let n := sp.node i
    let p := n.parentIdx
    n.blocks ≤ l.blk → n.kind ≠ .lowrank → (sp.node p).state ≠ .husk → p ≠ i → AMap.sorted sp.nodes = true →
    let go := exec (.nodeSwitch (c * 2 ^ 32 + id)) s
    let moved : List Nat := sp.descendants i
    let switches (f : Node) (below : Node → Node) (u : AddrSpace) (named : Nat → Prop) (more : AddrSpace → Prop) : Prop := ∃ sp',
      go = .next ((s.modSpace l.asid (fun _ => sp')).modLin c l.id (fun l => { l with after := some [] })) ∧
      sp'.node i = f ∧ sp' = { u with nodes := sp'.nodes } ∧ more sp' ∧
      (p ≠ 0 → p ∉ moved → ¬ named p → sp'.node p = { sp.node p with children := (sp.node p).children - 1 }) ∧
      (∀ k ∈ moved, k ≠ i → k ≠ p → sp'.node k = below (sp.node k)) ∧
      ∀ k, k ∉ moved → k ≠ i → k ≠ p → ¬ named k → sp'.node k = sp.node k
    let again (k : Nat) : Prop := go = .next (s.modLin c l.id (fun l => { l with blk := k }))
    let root : Node := { n with
      parent := 0, depth := 0, klev := 0, kind := .none, dfmt := n.fmt, rank := 0, u := 0, v := 0, af := false }
    ((∃ d a ct gd o, l.ins = .lflat d a ct gd o) ∨ (∃ d a x ct, l.ins = .lforkAf d a x ct) →
      (∀ k, sp.unflat i = some k → again k) ∧
      (sp.unflat i = none →
        switches root (fun m => { m.lower n.fullDepth with klev := m.klev - n.klev }) sp (fun _ => False) (fun _ => True))) ∧
    ∀ d a b ct gd o, l.ins = .lrebase d a b ct gd o →
      let base := sp.node l.base
      let to' := base.fullDepth + 1
      (sp.baseStands i l.base l.vb = false → ∃ sp', sp'.nodes = sp.nodes ∧ go = .next
        ((s.modSpace l.asid (fun _ => sp')).modLin c l.id (fun l => { l with prog := .ended 10 0 }))) ∧
      (sp.baseStands i l.base l.vb = true → ∀ k, sp.staleBlock i [l.base] l.newMap = some k → again k) ∧
      (sp.baseStands i l.base l.vb = true → sp.staleBlock i [l.base] l.newMap = none → l.rooms ≠ 2 →
      l.base ≠ i → l.base ∉ moved → l.base ≠ p →
      switches { n with
          parent := base.handle, depth := to', klev := base.klev, kind := .xor, dfmt := n.fmt, rank := 0, u := 0
          v := 0, af := false, dflt := .inherit, map := l.newMap }
        (fun m =>
          let m := { m with klev := m.klev + base.klev - n.klev }
          if to' ≤ n.fullDepth then m.lower (n.fullDepth - to') else { m with depth := m.depth + (to' - n.fullDepth) })
        (sp.giveBlocks n) (fun k => k = l.base)
        (fun sp' => sp'.node l.base = { base with
          state := if base.state = .live then .sealed else base.state, children := base.children + 1 }))) ∧
  ∀ (asid h : Nat) (x : Splice) (s : State), h < 2 ^ 24 → (s.space asid).splices = [x] → x.husk = h → x.child ≠ h →
    let sp := s.space asid
    let c := x.child
    let cn := sp.node c
    let hn := sp.node h
    let go := exec (.splice (asid * 2 ^ 24 + h)) s
    let leads (f : AddrSpace → Prop) : Prop := ∃ sp', go = .next (s.modSpace asid (fun _ => sp')) ∧ f sp'
    (x.started = false → s.nodeBusy asid c = false → leads (fun sp' =>
      sp' = { (if cn.kind = .none ∧ (hn.kind = .xor ∨ hn.kind = .add)
          then sp.modNode c (fun n => { n with kind := hn.kind, dfmt := hn.dfmt }) else sp) with
        splices := [{ x with started := true, todo := spliceTodo hn cn }] })) ∧
    (∀ k r, x.started = true → x.todo = k :: r →
      let ch := k % Config.channelCount
      let a := cn.entry k
      let b := hn.entry k
      let low := decide (cn.kind = .lowrank)
      let fits (e : Entry) : Prop := sp.heapUsed.get 0 ch + e.units cn ≤ sp.heapUnits
      let gives (e e' : Entry) (heap : Nat → Nat) : Prop := leads (fun sp' =>
        sp' = { sp with nodes := sp'.nodes, heapUsed := sp'.heapUsed, splices := [{ x with todo := r }] } ∧
        sp'.node c = { cn with map := (sp'.node c).map } ∧ sp'.node h = { hn with map := (sp'.node h).map } ∧
        (∀ i, (sp'.node c).entry i = if i = k then e else cn.entry i) ∧
        (∀ i, (sp'.node h).entry i = if i = k then e' else hn.entry i) ∧ (∀ j, j ≠ c → j ≠ h → sp'.node j = sp.node j) ∧
        ∀ i, sp'.heapUsed.get 0 i = if i = ch then heap (sp.heapUsed.get 0 i) else sp.heapUsed.get 0 i)
      let whole : Entry := .full (sp.block c k).1 (sp.block c k).2
      let takes (e : Entry) : Prop := gives e .inherit (fun u => u + e.units cn - a.units cn - b.units hn)
      let plain : Prop := (∃ d p, a = .full d p) ∨ a = .zero
      (plain → gives a .inherit (fun u => u - b.units hn)) ∧
      (a = .inherit → b = .inherit → ¬ (cn.kind = .lowrank ∧ hn.kind = .lowrank) → gives a b id) ∧
      (a = .inherit → b ≠ .inherit → low = false → gives b .inherit id) ∧
      (a = .inherit → b ≠ .inherit → low = true → fits whole → takes whole) ∧
      (∀ m1 d1 p1 m2 d2 p2, a = .xor m1 d1 p1 → b = .xor m2 d2 p2 → AMap.sorted d2 = true →
        let inMask (m : Word32) (q : Nat) : Prop := m.getLsbD (q / 4) = true
        ∃ d p, (∀ i, d.get i = d1.get i ^^^ d2.get i) ∧
          (∀ q, q ∈ p ↔ (q ∈ p1 ∧ inMask m1 q) ∨ (q ∈ p2 ∧ inMask m2 q)) ∧
          (fits (.xor (m1 ||| m2) d p) → takes (.xor (m1 ||| m2) d p))) ∧
      (((∃ m d p, a = .xor m d p) ∨ ∃ ty m d p, a = .add ty m d p) →
        ¬ ((∃ m d p, a = .xor m d p) ∧ ∃ m d p, b = .xor m d p) → fits whole → takes whole)) ∧
    (x.started = true → x.todo = [] → cn.kind ≠ .lowrank → AMap.sorted sp.nodes = true → sp.isAncestor c c = false →
      leads (fun sp' =>
        sp' = { sp.giveMap hn.blocks with nodes := sp'.nodes, splices := [] } ∧ sp'.node h = {} ∧
        (let m := cn.lower 1
         let m : Node := { m with
          parent := hn.parent, busy := false, map := (sp'.node c).map, dflt := if cn.dflt = .inherit then hn.dflt else cn.dflt }
         sp'.node c = if hn.kind = .none then m
          else { m with kind := hn.kind, dfmt := hn.dfmt, rank := hn.rank, u := hn.u, v := hn.v }) ∧
        (AMap.sorted cn.map = true → ∀ e ∈ cn.map, (sp'.node c).entry e.1 = cn.entry e.1) ∧
        (∀ k ∈ sp.descendants c, k ≠ h → sp'.node k = (sp.node k).lower 1) ∧
        ∀ k, k ∉ sp.descendants c → k ≠ c → k ≠ h → sp'.node k = sp.node k))

/-! ## Engines and limits -/

/-- R75, R80, R113, R138, R140, R180, R262, R298, R300, R340: a command whose work has ended completes with BUMP: it leaves its
engine, d receives its result and is released, ol or os falls, its counter counts it, and a status other than OK queues a
record, or sets the overflow flag where eight are queued. The destination named by WHERE is bumped first. SEND.i tries once its payload
is read, and again when its time has come; a record of clean data clears P of a line that it covers whole. R215: a ROWMIG that ends
well arms its core.
R221, R224: a part of a flat NMC changes its elements in its granule, and every other byte stays. That it reads its scalar's doubleword
in the step that applies it is the model's choice (DESIGN CHOICE, log 112), and that ol and os stay at zero where they are zero is
its reading (DEDUCED, log 20). -/
def Obligations.EngineCommandsComplete : Prop :=
  (∀ (c st : Nat) (addr : Word64) (s : State),
    let bumped (u : State) (o : Host.Outcome State Fault Refusal) (r : FaultRec) (k : Core → Core) (g : Ctx → Ctx) : Prop :=
      let fault := decide (r.status ≠ 0 ∧ r.status ≠ 26)
      let full := decide (8 ≤ (u.core c).faultq.length)
      ∃ t, o = .next t ∧ OnlyCore c u t ∧
        coreRest (t.core c) = { k (coreRest (u.core c)) with
          counters := (u.core c).counters.set 0 r.ct ((u.core c).counter r.ct + 1)
          faultq := if fault && !full then (u.core c).faultq ++ [r] else (u.core c).faultq } ∧
        (∀ h, h ≠ r.ctx → (t.core c).ctx h = (u.core c).ctx h) ∧
        (t.core c).ctx r.ctx = (let y := g ((u.core c).ctx r.ctx); if fault && full then { y with ovf := true } else y)
    let ends (i : Instr) (id : Nat) (result : Option Word64) (flags : BitVec 9) (sat : BitVec 2) (x : Ctx) : Ctx :=
      let mine := decide (x.reserved.find (resultReg i) = some id)
      let y := match result with
        | some v => if decide (st = 0) && mine then x.setS (resultReg i) v false else x
        | none => x
      { y with
        reserved := if mine then x.reserved.erase (resultReg i) else x.reserved
        ol := if countsOl i then (if x.ol = 0 then 0 else x.ol - 1) else x.ol
        os := if countsOs i then (if x.os = 0 then 0 else x.os - 1) else x.os
        frm := x.frm ||| flags, istat := x.istat ||| sat }
    (∀ p, (s.core c).pgeOf p.id = some p → p.prog = .ended st addr → QuietCounter s c (ctOf p.ins) →
      ((s.core c).ctx p.ctx).life = p.life → s.rmPending c p.id = false → p.awaitsHost = false →
      (s.job p.asid).bind Job.running = none →
      (whereOf p.ins = .issuer ∨ st ≠ 0 ∨ (whereOf p.ins = .both ∧ p.bumpedDst = true) →
        bumped s (exec (.bump c p.id) s)
          { pc := p.pc, addr := addr, ctx := p.ctx, ct := ctOf p.ins, status := st, seq := p.seq, rep := none }
          (fun x => { x with
            pge := x.pge.filter (fun q => q.id ≠ p.id)
            armed := match p.ins with
              | .rowmig .. => if st = 0 then some { table := p.va, map := p.vb, ct := ctOf p.ins, asid := p.asid } else x.armed
              | _ => x.armed })
          (ends p.ins p.id p.result p.flags 0)) ∧
      (st = 0 → whereOf p.ins ≠ .issuer → p.bumpedDst = false → ∀ d, s.destOf c p = some d → s.fenced d = false →
        QuietCounter s d (ctOf p.ins) →
        exec (.bump c p.id) s = .next ((s.modPge c p.id (fun q => { q with bumpedDst := true })).modCore d
          (fun x => { x with counters := x.counters.set 0 (ctOf p.ins) (x.counter (ctOf p.ins) + 1) })))) ∧
    (∀ m, (s.core c).pgeOf m.id = none → (s.core c).mx.find? (fun q => q.id = m.id) = some m → m.phase = .ended st addr →
      QuietCounter s c (ctOf m.ins) → ((s.core c).ctx m.ctx).life = m.life → s.rmPending c m.id = false →
      bumped s (exec (.bump c m.id) s)
        { pc := m.pc, addr := addr, ctx := m.ctx, ct := ctOf m.ins, status := st, seq := m.seq, rep := m.rep }
        (fun x => { x with mx := x.mx.filter (fun q => q.id ≠ m.id) })
        (ends m.ins m.id none m.flags (if m.sat then 2#2 else 0#2))) ∧
    (∀ l, (s.core c).pgeOf l.id = none → (s.core c).mx.find? (fun q => q.id = l.id) = none → s.linOf c l.id = some l →
      l.prog = .ended st addr → QuietCounter s c (ctOf l.ins) → s.rmPending c l.id = false →
      bumped { s with sys := { s.sys with lin := s.sys.lin.filter (fun q => !(q.core = c && q.id = l.id)) } }
        (exec (.bump c l.id) s)
        { pc := l.pc, addr := addr, ctx := l.ctx, ct := ctOf l.ins, status := st, seq := l.seq, rep := none } id id)) ∧
  (∀ (c d : Nat) (x : InboxArgs) (p : PgeCmd) (t : Team) (s : State), (s.core c).pgeOf p.id = some p → p.ins = .sendI x →
    s.destOf c p = some d → s.refuses c d = false → s.teamOf c = some t → s.sys.jobs = [] → (s.core d).drain = [] →
    p.poisoned = 0 → ∀ again : Host.Outcome State Fault Refusal,
    ((again = exec (.sendIRetry c p.id) s ∧ p.tries.refusals ≠ 0 ∧ p.prog.over = false ∧ p.tries.again ≤ s.cycle) ∨
      (again = .next (s.work (.pge c p.id)) ∧ p.tries.refusals = 0 ∧ x.len.toNat / 8 ≤ p.pos ∧ EngineTurn s c p)) →
    let b := (s.core d).inbox
    let size := 256 * b.lines.toNat
    let tail := (b.head.toNat + b.used.toNat) % size
    let n := p.tries.refusals + 1
    let u := s.modCore d (fun y => { y with inbox := { b with drop := if b.drop = 0xFFFF then b.drop else b.drop + 1 } })
    (size < b.used.toNat + 8 + p.img.length → n < 16 →
      again = .next (u.modPge c p.id (fun q => { q with
        prog := .running, tries := { refusals := n, again := s.cycle + 256 * n } }))) ∧
    (size < b.used.toNat + 8 + p.img.length → 16 ≤ n →
      again = .next (u.modPge c p.id (fun q => { q with prog := .ended 22 p.va, outUnits := [] }))) ∧
    (tail + 8 + p.img.length ≤ size → b.used.toNat + 8 + p.img.length ≤ size → ∃ v, again = .next v ∧
      (v.core d).inbox = { b with used := b.used + BitVec.ofNat 16 (8 + p.img.length) } ∧
      (v.core c).pgeOf p.id = some { p with prog := .ended 0 0, outUnits := [] } ∧
      (∀ e, e ≠ c → e ≠ d → v.core e = s.core e) ∧
      (v.core d).ctxs = (s.core d).ctxs ∧
      (∀ l, (v.core d).tag l = { (s.core d).tag l with
        p := ((s.core d).tag l).p && !decide (let i := 256 * b.base.toNat + tail
          192 + i / 256 ≤ l ∧ l ≤ 192 + (i + 7 + p.img.length) / 256 ∧ i ≤ lineAddr l ∧
            lineAddr l + 256 ≤ i + 8 + p.img.length) }) ∧
      ∀ a, (v.core d).a.get a =
        let i := a - (256 * b.base.toNat + tail)
        if 256 * b.base.toNat + tail ≤ a ∧ i < 8 + p.img.length then
          (leBytes 8 (1 + p.img.length / 8 * 2 ^ 8 + t.rankOf c * 2 ^ 16) ++ p.img).getD i 0
        else (s.core d).a.get a)) ∧
  ∀ (c part : Nat) (rb rc : Reg) (ct : Cnt) (gd : Guard) (o : MemOrder) (len : BitVec 32) (p : PgeCmd) (b : CaskBlock)
    (e : TlbEntry) (s : State),
    let sz := (ElemType.bits b.ty + 7) / 8
    let first := b.dst / 4096
    let pa := p.outUnits.getD (part - first) 0
    let count := (b.dst + len.toNat * sz + 4095) / 4096 - first
    let dst (i : Nat) := p.outUnits.getD ((b.dst + i * sz) / 4096 - first) 0 + (b.dst + i * sz) % 4096
    let src (i : Nat) := (p.outUnits.drop count).getD ((b.src + i * sz) / 4096 - b.src / 4096) 0 + (b.src + i * sz) % 4096
    (s.core c).pgeOf p.id = some p → p.ins = .nmc rb rc ct gd o len → caskBlock p.img = some b → b.ok = true → b.lin = false →
    b.dst % 8 = 0 → (ElemType.bits b.ty) % 8 = 0 → p.pos = 1 → p.prog.over = false → part ∈ p.parts →
    (∀ q ∈ (s.core c).pge, q = p ∨ (q.id ≠ p.id ∧ ∀ rb rc ct gd o n, q.ins ≠ .nmc rb rc ct gd o n)) →
    first ≤ part → part < first + count → count ≤ p.outUnits.length → pa % 4096 = 0 → pa + 4096 ≤ Config.hbmSize →
    Hits s c p.sup .write (4096 * part) e → e.phys (4096 * part) = pa → e.rm = false → e.va % 4096 = 0 → e.size % 4096 = 0 →
    Calm s → s.flat.poison = [] →
    ∃ t q, exec (.nmcPart c p.id part) s = .next t ∧
      t = { s.modPge c p.id (fun _ => q) with flat := { s.flat with hbm := t.flat.hbm } } ∧
      q = { p with parts := p.parts.filter (fun k => k ≠ part), flags := q.flags } ∧
      (∀ i, i < len.toNat → (b.dst + i * sz) / 4096 = part →
        t.flat.hbm.num (dst i) sz =
          if b.op = 4 then 0 else (b.newElem (s.flat.hbm.num (dst i) sz) (s.flat.hbm.num (src i) sz)).1 % 2 ^ (8 * sz)) ∧
      ∀ a, (∀ i, i < len.toNat → (b.dst + i * sz) / 4096 = part → a < dst i ∨ dst i + sz ≤ a) →
        t.flat.hbm.get a = s.flat.hbm.get a

/-- R91, R93, R186, R187, R244, R257, R302 to R304, R374: a wait of a context that has reached YSTALL ends in a STALL trap that names
its object, and what it had registered is withdrawn: its waiter, its event waiter where that frees no later one to be served, its
place in the queue of a mutex or an event line, its request to the Kiln controller. WATCHDOG ends the team of a context whose window is
used up: every member stops, and the team is failing with cause 17. R307, steps 3 to 5: once the teams of a containment are gone, its
cores and the clusters inside are as reset, the fence is lifted, and the notice is queued.
How the notice packs die and rectangle is the model's (DESIGN CHOICE, log 132). -/
def Obligations.StallsAndWatchdogs : Prop :=
  (∀ (c h k o since : Nat) (s : State),
    let u : State := { s with curCore := c, curCtx := h }
    u.me.live = true → u.me.waitObj = some (k, o) → o < 2 ^ 60 → u.me.waitSince = some since →
    u.me.ystall.toNat ≤ s.cycle - since → HasHandler u →
    let faddr : Word64 := BitVec.ofNat 64 (k * 2 ^ 60 + o)
    let cl := c / 224 * 28 + c % 224 / 8
    let me : Nat × Nat := (c % 224 % 8, h)
    let waiters := (u.sys.evWaiters.map (fun q => (q.1, q.2.filter (fun w => !(w.core = c && w.ctx = h))))).filter
      (fun q => !q.2.isEmpty)
    let requests := u.sys.kilnReqs.filter (fun q => !(q.core = c && q.ctx = h))
    let withdrawn (v : State) : Prop := match u.me.held with
      | .none | .awaitRefused .. | .eventRefused .. => v = u
      | .barrier l g => ((u.cluster cl).barrier l).gen = g ∧ v = u
      | .awaitReg =>
        v = { u with flat := { u.flat with waiters := u.flat.waiters.filter (fun w => !(w.core = c && w.ctx = h)) } }
      | .eventReg => (∀ q ∈ waiters, ∀ w, q.2.head? = some w → (u.sys.event q.1).toNat < w.n.toNat) ∧
        v = { u with sys := { u.sys with evWaiters := waiters } }
      | .mutexQueued l => v = u.modCluster cl (fun x => { x with
          mutexes := x.mutexes.put l { x.mutex l with queue := (x.mutex l).queue.filter (fun q => q ≠ me) } })
      | .eventLine l => v = u.modCluster cl (fun x => { x with
          events := x.events.put l { x.event l with queue := (x.event l).queue.filter (fun q => q ≠ me) } })
      | .kilnAsked | .kilnTurn => v = { u with sys := { u.sys with kilnReqs := requests } }
      | _ => False
    ∀ v, withdrawn v → Traps v (exec (.stall c h) s) 18 faddr) ∧
  (∀ (k : Containment) (s : State), s.sys.containments = [k] → (∀ t ∈ k.teams, s.team t = none) →
    (∀ a ∈ k.asids, (s.job a).bind Job.running = none) → s.queueNum 0 = none → s.sys.notices.length < 256 →
    let inside (c : Nat) : Prop := Inside k.row0 k.col0 k.width k.height c
    let u := s.work .contain
    (u.sys = { s.sys with
      containments := []
      notices := s.sys.notices ++ [match k.rect with
        | some i => { code := 7
                      args := [BitVec.ofNat 64 (k.die + i * 2 ^ 32), BitVec.ofNat 64 k.recs.length] ++
                        (k.recs.take 5).map (BitVec.ofNat 64) }
        | none => { code := 3, args := [BitVec.ofNat 64 k.die] }] }) ∧
    u = { s with cores := u.cores, clusters := u.clusters, sys := u.sys } ∧
    (∀ c, (inside c → u.core c = { nextId := (s.core c).nextId }) ∧ (¬ inside c → u.core c = s.core c)) ∧
    ∀ g, let first := g / 28 * 224 + g % 28 * 8
      (inside first → u.cluster g = {}) ∧ (¬ inside first → u.cluster g = s.cluster g)) ∧
  ∀ (c h : Nat) (t : Team) (s : State), s.teamOf c = some t → t.phase = .running → ((s.core c).ctx h).left = 0 →
    s.sys.evWaiters = [] →
    ∃ u, exec (.watchdog c h) s = .next u ∧
      u.team t.id = some { t with phase := .failing 17 c ((s.core c).ctx h).pc 0 } ∧
      (∀ m ∈ t.cores, ∀ j, ((u.core m).ctx j).live = false ∧ ((u.core m).ctx j).sregs = ((s.core m).ctx j).sregs) ∧
      (∀ m ∈ t.cores, (u.core m).sendq = [] ∧ (u.core m).wtt = [] ∧ (u.core m).faultq = [] ∧
        ∀ p ∈ (u.core m).pge, p ∈ (s.core m).pge ∧ p.prog ≠ .waiting) ∧
      (∀ w ∈ u.flat.waiters, w.core ∉ t.cores) ∧
      (∀ m, m ∉ t.cores → u.core m = s.core m) ∧ u.flat.hbm = s.flat.hbm ∧ u.sys.tasks = s.sys.tasks

/-! ## Tasks and teams -/

/-- R83, R84, R247 to R249, R253, R294: the scheduler places a READY task on a free rectangle, never before a task of higher
effective priority that fits; a wake gives each core its registers, h0 the record's entry and argument; a start makes the
team RUNNING with STATE 3; when every part has ended the team's events are posted, STATE is 4 and its cores are free.
What a wake leaves of KSTAT and of the lines to drain, and that an end waits for a drain, are the model's readings (DEDUCED,
logs 36 and 78); that a row whose task may not be placed yet leaves the state and answers next is its choice (DESIGN CHOICE,
log 2). -/
def Obligations.TasksRunAndEnd : Prop :=
  (∀ (n row col : Nat) (t : TaskEntry) (s : State), s.sys.tasks[n]? = some t → t.ready = true → FreeAt s row col t.width t.height →
    (t.was = none → (∀ k u, s.sys.tasks[k]? = some u → k ≠ n → u.ready = false) →
      exec (.taskPlace n row col) s = .next { s with sys := { s.sys with
        tasks := s.sys.tasks.eraseIdx n, nextId := s.sys.nextId + 1
        teams := s.sys.teams ++ [{ id := s.sys.nextId, rec' := t.rec', asid := t.asid, pkt := t.pkt, queue := t.queue, base := t.base
                                   sup := decide (t.queue = 0), row0 := row, col0 := col, width := t.width, height := t.height
                                   phase := .placed }] } }) ∧
    (∀ u ∈ s.sys.tasks, u.ready = true → priorityNow s t < priorityNow s u →
      (∃ r k, k < 28 ∧ FreeAt s r (8 * k) u.width u.height) → exec (.taskPlace n row col) s = .next s)) ∧
  (∀ (t : Team) (entry arg : Word64) (s : State), s.team t.id = some t → t.phase = .placed → t.resumes = false →
    t.col0 + t.width ≤ 224 →
    s.sysWord t.asid true t.rec' = .ok entry → s.sysWord t.asid true (t.rec' + 8) = .ok arg → s.packet t.pkt = none →
    (∀ i ∈ s.sys.images, ¬ (i.asid = t.asid ∧ i.task = t.rec')) →
    ∃ u t', exec (.wake t.id) s = .next u ∧ u.team t.id = some t' ∧ t'.phase = .waking ∧ t'.row0 = t.row0 ∧ t'.col0 = t.col0 ∧
      (∀ c, c ∉ t.cores → u.core c = s.core c) ∧ u.flat = s.flat ∧
      ∀ c ∈ t.cores,
        let x := u.core c
        let r := c / 224 - t.row0
        let k := c % 224 - t.col0
        let h0 := x.ctx 0
        x.team = some t.id ∧ x.exited = false ∧ x.partEnded = false ∧
        x.teamrank = BitVec.ofNat 64 (r * t.width + k) ∧ x.teamsize = BitVec.ofNat 64 (t.width * t.height) ∧
        x.teamorg = BitVec.ofNat 64 (t.col0 + t.row0 * 2 ^ 8) ∧ x.teamshape = BitVec.ofNat 64 (t.width + t.height * 2 ^ 8) ∧
        x.dom1 = BitVec.ofNat 64 (8 * (k / 8) + r * 2 ^ 8 + 8 * 2 ^ 16 + 2 ^ 24) ∧
        x.dom2 = BitVec.ofNat 64 (t.width * 2 ^ 16 + t.height * 2 ^ 24) ∧ x.dom3 = x.dom2 ∧
        x.tvec = (s.space t.asid).tvec ∧ x.ptbase = (s.space t.asid).ptbase ∧ x.asid = BitVec.ofNat 16 t.asid ∧
        x.curPtbase = x.ptbase ∧ x.curAsid = x.asid ∧
        x.counters = [] ∧ x.guards = [] ∧ x.pub = 0 ∧ x.rb = t.rolled.isSome ∧
        x.rbk = (match t.rolled with | some q => q.1 | none => 0) ∧
        (∀ sp, x.store sp = (s.core c).store sp) ∧ x.tags = (s.core c).tags ∧
        (∀ j, (x.ctx j).live = decide (j = 0)) ∧ h0.pc = entry ∧ h0.sup = t.sup ∧
        (∀ i, h0.sv i = if i = 1 then arg else 0) ∧ (∀ i, h0.dbit i = false) ∧
        { h0 with live := false, life := 0, pc := 0, sregs := [], sup := false } = ({} : Ctx)) ∧
  (∀ (t : Team) (pa : Nat) (s : State), s.team t.id = some t → t.phase = .waking → t.resumes = false → Calm s →
    SysAt s t.asid (t.rec' + 16) 8 pa → (t.rec' + 16) % 8 = 0 →
    ∃ u, WritesHbm s u pa (leBytes 8 (setBits (s.flat.hbm.num pa 8) 42 40 3)) false ∧
      exec (.teamStart t.id) s = .next { u with sys := pokedSys { s.sys with
        teams := s.sys.teams.map (fun x => if x.id = t.id then { x with phase := .running } else x) } }) ∧
  ∀ (t : Team) (evs : Word64) (pa : Nat) (s : State), s.team t.id = some t → t.phase = .running →
    (∀ c ∈ t.cores, (s.core c).partEnded = true ∧ (s.core c).drain = []) → Calm s → s.sys.evWaiters = [] → s.packet t.pkt = none →
    s.sysWord t.asid true (t.rec' + 40) = .ok evs →
    (t.trigDone = true ∨ ∀ k, 6 ≤ k → k ≤ 9 → s.sysWord t.asid true (t.rec' + 8 * k) = .ok 0) →
    SysAt s t.asid (t.rec' + 16) 8 pa → (t.rec' + 16) % 8 = 0 →
    let named := ((List.range 4).map (fun i => evs.toNat / 2 ^ (16 * i) % 2 ^ 16)).filter (fun e => e ≠ 0)
    ∃ u v, WritesHbm s u pa (leBytes 8 (setBits (s.flat.hbm.num pa 8) 42 40 4)) false ∧
      exec (.taskComplete t.id) s = .next v ∧ v.flat = u.flat ∧ v.team t.id = none ∧
      (∀ e, v.sys.event e = BitVec.ofNat 32 (min ((s.sys.event e).toNat + named.count e) 0xFFFFFFFF)) ∧
      (∀ c ∈ t.cores, (v.core c).team = none ∧ (v.core c).ctxs = [] ∧ ∀ sp, (v.core c).store sp = (s.core c).store sp) ∧
      ∀ c, c ∉ t.cores → v.core c = s.core c

/-- R92, R99, R100, R288, R294, R308 to R311: a take is asked for when a task of higher base priority fits nowhere, and withdrawn 2^20
cycles after the first context parked, whose contexts then go on after their YIELD. A save of a team at rest gives its cores
back and its task is READY with the team, its members' pending arrivals kept with it; a resumption loads each member's block and
clears VALID, in the mode of its task; the exit values of helpers that were not live are free; a team that a rollback has
redirected goes on with h0 at RBPC and no helper. That the arrivals stay with the entry is the model's (DESIGN CHOICE, log 25).
That a row with nothing to do leaves the state, and that a take waits for a kiln, are the model's (DESIGN CHOICE, log
2; DEDUCED, log 36). -/
def Obligations.TakesAndResumptions : Prop :=
  (∀ (t : Team) (s : State), s.team t.id = some t → t.phase = .running →
    let atRest (c : Nat) : Bool := ((s.core c).ctxs.any (fun e => e.2.live)) && (s.core c).ctxs.all (fun e =>
      !e.2.live || e.2.parked.isSome || (!e.2.nest && (match e.2.held with | .asleep _ => true | _ => false)))
    let asked (u : Team) : Team := if u.id = t.id then
      { u with take := true, takeSince := if u.cores.any atRest then some s.cycle else none } else u
    ((∃ q ∈ s.sys.tasks, q.ready = true ∧ t.base < q.base ∧ ∀ r k, k < 28 → ¬ FreeAt s r (8 * k) q.width q.height) →
      t.take = false → t.noTake = false → t.save ≠ 0 →
      exec (.takeRequest t.id) s = .next { s with sys := { s.sys with teams := s.sys.teams.map asked } }) ∧
    (t.save = 0 → exec (.takeRequest t.id) s = .next s)) ∧
  (∀ (t : Team) (since : Nat) (s : State), s.team t.id = some t → t.take = true → t.takeSince = some since →
    (s.cycle - since < 2 ^ 20 → exec (.takeWithdraw t.id) s = .next s) ∧
    (2 ^ 20 ≤ s.cycle - since → t.col0 + t.width ≤ 224 → ∃ u, exec (.takeWithdraw t.id) s = .next u ∧
      u.team t.id = some { t with take := false, takeSince := none } ∧ (∀ c, c ∉ t.cores → u.core c = s.core c) ∧
      ∀ c ∈ t.cores, coreRest (u.core c) = coreRest (s.core c) ∧ ∀ h,
        let x := (s.core c).ctx h
        (x.parked = none → (u.core c).ctx h = x) ∧
        ∀ p, x.parked = some p → (u.core c).ctx h = { x with
          pc := x.pc + 8, budget := p.budget, left := BitVec.ofNat 16 (p.budget.toNat * 256), waitSince := none, waitObj := none
          held := .none, parked := none, rep := { x.rep with stopped := false } })) ∧
  (∀ (t : Team) (s u : State), s.team t.id = some t → t.phase = .running → t.take = true → t.col0 + t.width ≤ 224 →
    Calm s → (∀ c ∈ t.cores, s.memberRests c = true) → (∃ c ∈ t.cores, ∃ e ∈ (s.core c).ctxs, e.2.live = true) →
    s.writeSave t = .ok u →
    ∃ v a, exec (.teamSave t.id) s = .next v ∧ v.team t.id = none ∧
      v.sys.tasks = s.sys.tasks ++ [{ rec' := t.rec', asid := t.asid, pkt := t.pkt, queue := t.queue, ready := true, since := s.cycle
                                      base := t.base, width := t.width, height := t.height
                                      was := some { t with arrivals := a } }] ∧
      (∀ c ∈ t.cores, a.get [] (t.rankOf c) = (s.core c).phase.arrivals.map (fun x => { x with before := 0 })) ∧
      (∀ c ∈ t.cores, (v.core c).team = none ∧ (v.core c).ctxs = []) ∧ ∀ c, c ∉ t.cores → v.core c = s.core c) ∧
  ∀ (t : Team) (pa : Nat) (img : Nat → Mem) (head : Mem) (s : State), s.team t.id = some t → t.phase = .waking →
    t.resumes = true → t.col0 + t.width ≤ 224 → Calm s →
    (∀ c ∈ t.cores, s.sysImage t.asid (t.save.toNat + 0x1000 + t.rankOf c * 0x40000) 0x40000 = .ok (img c)) →
    s.sysImage t.asid t.save.toNat 0x1000 = .ok head → SysAt s t.asid t.save.toNat 8 pa →
    ∃ u v, WritesHbm s u pa (leBytes 8 0) false ∧ exec (.teamResume t.id) s = .next v ∧ v.flat = u.flat ∧
      (∃ t', v.team t.id = some t' ∧ t'.resumes = false ∧ ∀ r, r < 4 → t'.next.get 0 r = head.num (0x18 + 8 * r) 8) ∧
      (∀ c, c ∉ t.cores → v.core c = s.core c) ∧
      ∀ c ∈ t.cores,
        let y := (s.core c).fromImage (img c) (t.arrivals.get [] (t.rankOf c))
        let x (h : Nat) : Ctx := { y.ctx h with waitSince := (y.ctx h).waitSince.map (fun _ => s.cycle), sup := t.sup }
        coreRest (v.core c) = coreRest y ∧ (∀ h, 10 < h → (v.core c).ctx h = y.ctx h) ∧
        (y.exited = true ∨ (∀ k pc, t.rolled ≠ some (k, some pc)) →
          (v.core c).ctx 0 = x 0 ∧ ∀ h, 1 ≤ h → h ≤ 10 →
            ((x h).live = true → (v.core c).ctx h = x h) ∧
            ((x h).live = false → ∃ n, (v.core c).ctx h = { x h with exitVal := Config.freeWord n })) ∧
        (∀ k pc, t.rolled = some (k, some pc) → y.exited = false →
          (v.core c).ctx 0 = { x 0 with pc := pc, held := .none } ∧
          ∀ h, 1 ≤ h → h ≤ 10 → ((v.core c).ctx h).live = false)

/-! ## Queues and packets -/

/-- R250 to R254, R256, R257: the dispatcher takes the packet at RIDX when WIDX is ahead of it and its phase bit shows that it
is written, and advances RIDX, its number and n being those that CONFIG now holds while ARMED is set there; a BARRIER that it takes holds
its queue; a LAUNCH keeps the greater of its task's and
its queue's PRI as its base priority; NOP and EVENT end at once; a BARRIER ends well when every signal it names is zero and badly
when one is negative; a completion lowers the packet's signal, an abort sets the queue's ABORT.
That a row with nothing to do leaves the state is the model's (DESIGN CHOICE, log 2). -/
def Obligations.QueuesRunPackets : Prop :=
  (∀ (n : Nat) (q : Queue) (pc pw pr ps : Nat) (s : State), s.queueNum n = some q → q.barrier = none → Calm s →
    SysAt s q.asid (q.header + 8) 8 pc → SysAt s q.asid q.header 8 pw → SysAt s q.asid (q.header + 0x40) 8 pr →
    let config := s.flat.hbm.num pc 8
    let size := config % 2 ^ 5
    let num := config / 2 ^ 32 % 2 ^ 16
    let widx := s.flat.hbm.num pw 8
    let i := s.flat.hbm.num pr 8
    let slot := q.header + 0x100 + 64 * (i % 2 ^ size)
    let w (k : Nat) : Word64 := BitVec.ofNat 64 (s.flat.hbm.num (ps + 8 * k) 8)
    let go := exec (.queueDispatch n) s
    let kind := (w 0).toNat % 2 ^ 8
    let takes (base : Nat) : Prop := ∃ t, WritesHbm s t pr (leBytes 8 (i + 1)) false ∧ go = .next { t with sys := { s.sys with
      nextId := s.sys.nextId + 1
      packets := s.sys.packets ++ [{ id := s.sys.nextId, queue := num, header := q.header, asid := q.asid, index := i
                                     words := (List.range 8).map w, colour := false, base := base }]
      queues := if kind = 2 then s.sys.queues.map (fun x =>
          if x.asid = q.asid ∧ x.header = q.header then { x with barrier := some s.sys.nextId } else x)
        else s.sys.queues } }
    (widx ≤ i → go = .next s) ∧
    (i < widx → SysAt s q.asid slot 64 ps →
      ((w 0).getLsbD 8 ≠ decide (i / 2 ^ size % 2 = 1) → go = .next s) ∧
      ((w 0).getLsbD 8 = decide (i / 2 ^ size % 2 = 1) → (w 0).getLsbD 9 = false →
        (w 0).toNat / 2 ^ 10 % 8 ≠ 7 → (w 0).toNat / 2 ^ 13 % 8 ≠ 7 →
        (kind = 2 ∨ kind = 5 ∨ kind = 6 → takes 0) ∧
        (kind = 1 → ∀ pt, (w 1).toNat % 128 = 0 →
          (∀ t, WritesHbm s t pr (leBytes 8 (i + 1)) false →
            SysAt t q.asid (w 1).toNat 128 pt ∧ SysAt t q.asid ((w 1).toNat + 16) 8 (pt + 16) ∧ SysAt t q.asid (q.header + 8) 8 pc) →
          pr + 8 ≤ pc ∨ pc + 8 ≤ pr → pr + 8 ≤ pt ∨ pt + 128 ≤ pr →
          (∀ p ∈ s.sys.packets, (p.word 0).toNat % 2 ^ 8 = 1 → p.begun = false → p.ended = none → p.asid = q.asid →
            p.word 1 ≠ w 1) →
          let w2 := s.flat.hbm.num (pt + 16) 8
          let wide := w2 % 2 ^ 8
          let high := w2 / 2 ^ 8 % 2 ^ 7
          let st := w2 / 2 ^ 40 % 2 ^ 3
          wide % 8 = 0 → 8 ≤ wide → wide ≤ 224 → 1 ≤ high → high ≤ 120 → st ≠ 1 → st ≠ 2 → st ≠ 3 →
          takes (max (w2 / 2 ^ 16 % 2 ^ 3) (config / 2 ^ 8 % 2 ^ 3)))))) ∧
  (∀ (p : Packet) (s : State), s.packet p.id = some p → p.ended = none → s.sys.jobs = [] →
    let kind := (p.word 0).toNat % 2 ^ 8
    let done (ok : Bool) (q : Packet) : Packet := { q with begun := true, ended := some ok, colour := false }
    (kind = 6 → exec (.nopPacket p.id) s = .next (withPacketAs s p.id (done true))) ∧
    (kind = 5 → s.sys.waitersOf ((p.word 1).toNat % 2 ^ 16) = [] →
      let e := (p.word 1).toNat % 2 ^ 16
      let n := min ((s.sys.event e).toNat + (p.word 1).toNat / 2 ^ 32) 0xFFFFFFFF
      exec (.eventPacket p.id) s = .next (withPacketAs { s with sys := { s.sys with
        events := s.sys.events.set 0 e (BitVec.ofNat 32 n) } } p.id (done true))) ∧
    (kind = 2 → ∀ vals : Nat → Word64,
      (∀ k, 1 ≤ k → k ≤ 5 → p.word k ≠ 0 → (p.word k).toNat % 8 = 0 ∧ s.sysWord p.asid true (p.word k).toNat = .ok (vals k)) →
      let named (k : Nat) : Prop := 1 ≤ k ∧ k ≤ 5 ∧ p.word k ≠ 0
      let rounds (e : Option Bool) : Prop :=
        (p.begun = false → exec (.barrier p.id) s = .next (withPacketAs s p.id (fun q =>
          { q with begun := true, lastRound := s.host.clock, poke := false, ended := if e = none then q.ended else e }))) ∧
        (p.begun = true → exec (.barrierRound p.id) s = .next (withPacketAs s p.id (fun q =>
          { q with lastRound := s.host.clock, poke := false, ended := if e = none then q.ended else e })))
      ((∃ k, named k ∧ (vals k).toInt < 0) → rounds (some false)) ∧
      ((∀ k, named k → vals k = 0) → rounds (some true)) ∧
      ((∀ k, named k → 0 ≤ (vals k).toInt) → (∃ k, named k ∧ vals k ≠ 0) → rounds none))) ∧
  ∀ (p : Packet) (pa : Nat) (s : State), s.packet p.id = some p → Calm s →
    let rest : SysDie := { s.sys with
      packets := s.sys.packets.filter (fun q => q.id ≠ p.id)
      queues := s.sys.queues.map (fun q => if q.barrier = some p.id then { q with barrier := none } else q) }
    (p.ended = some true → p.word 7 = 0 → exec (.packetCompletion p.id) s = .next { s with sys := rest }) ∧
    (p.ended = some true → p.word 7 ≠ 0 → (p.word 7).toNat % 8 = 0 → SysAt s p.asid (p.word 7).toNat 8 pa →
      ∃ t, WritesHbm s t pa (leBytes 8 (s.flat.hbm.num pa 8 + (2 ^ 64 - 1))) false ∧
        exec (.packetCompletion p.id) s = .next { t with sys := pokedSys rest }) ∧
    (p.ended = some false → p.word 7 = 0 → SysAt s p.asid (p.header + 0x18) 8 pa →
      ∃ t, WritesHbm s t pa (leBytes 8 (p.index + 1)) false ∧ exec (.packetCompletion p.id) s = .next { t with sys := rest })

/-- R133, R220 to R227, R245 to R247, R253: LAUNCH writes its signal into the record and enqueues the task, READY when DEPS is
zero, with the base priority of its dispatch; COPY reads its bytes in order and writes them once they reach the end of a
destination sector, which is poisoned where one of them is; NMEM reads its blocks in order, prepares each, and writes each block's 16-byte record when its parts are
done.
The number of elements of an NMEM block is a free value (DESIGN CHOICE, log 35). -/
def Obligations.LaunchCopyAndNmem : Prop :=
  ∀ (p : Packet) (s : State), s.packet p.id = some p → (∀ q ∈ s.sys.packets, q.id = p.id → q = p) → p.ended = none → Calm s →
    let begins (q : Packet) : Packet := { q with begun := true, colour := if p.begun then q.colour else false }
    let kind := (p.word 0).toNat % 2 ^ 8
    let ends : State := withPacketAs s p.id (fun q => { begins q with ended := some true })
    (kind = 1 → p.begun = false → ∀ pa : Nat,
      let r := (p.word 1).toNat
      let w2 := s.flat.hbm.num (pa + 16) 8
      let ready := decide (w2 / 2 ^ 24 % 2 ^ 16 = 0)
      let y := pokedSys (withPacketAs s p.id (fun q => { q with begun := true, colour := false })).sys
      r % 128 = 0 → SysPage s p.asid (r + 96) 8 (pa + 96) →
      (∀ t, WritesHbm s t (pa + 96) (leBytes 8 (p.word 7).toNat) false → SysAt t p.asid (r + 16) 8 (pa + 16)) →
      ∃ t u, WritesHbm s t (pa + 96) (leBytes 8 (p.word 7).toNat) false ∧
        WritesHbm t u (pa + 16) (leBytes 8 (setBits w2 42 40 (if ready then 2 else 1))) false ∧
        exec (.launch p.id) s = .next { u with sys := { y with tasks := y.tasks ++
          [{ rec' := r, asid := p.asid, pkt := p.id, queue := p.queue, ready := ready, since := s.cycle
             base := p.base, width := w2 % 2 ^ 8
             height := w2 / 2 ^ 8 % 2 ^ 7 }] } }) ∧
    (kind = 3 →
      let n := (p.word 3).toNat
      let dst := (p.word 1).toNat + p.pos
      let src := (p.word 2).toNat + p.pos + p.buf.length
      let k := min (32 - dst % 32) (n - p.pos)
      let m := min (k - p.buf.length) (65536 - src % 65536)
      let moved (t : State) (bad : Bool) : State := withPacketAs t p.id (fun q => { begins q with
        pos := q.pos + k, buf := [], bufBad := bad, out := false, answer := none })
      (n ≤ p.pos → (∀ e ∈ s.fab.ports, ∀ j ∈ e.2.queue ++ e.2.retry ++ e.2.flight,
          ¬ (j.isWrite = true ∧ j.core = sysParty ∧ j.cmd = p.id)) →
        exec (.copy p.id) s = .next ends) ∧
      (p.pos < n → ∀ pd : Nat, SysPage s p.asid dst k pd →
        (p.buf.length < k → ∀ ps, SysPage s p.asid src m ps →
          let buf := p.buf ++ s.flat.hbm.read ps m
          let bad := p.bufBad || s.hbmPoisoned ps m
          (m < k - p.buf.length → exec (.copy p.id) s = .next (withPacketAs s p.id (fun q => { begins q with
            buf := buf, bufBad := bad, out := false, answer := none }))) ∧
          (m = k - p.buf.length → ∃ t, WritesHbm s t pd buf bad ∧ exec (.copy p.id) s = .next (moved t false))) ∧
        (k = p.buf.length → p.out = false → p.answer = none → ∃ t, WritesHbm s t pd p.buf p.bufBad ∧
          exec (.copy p.id) s = .next (moved t false)))) ∧
    (kind = 4 →
      let n := (p.word 2).toNat
      let block := (p.word 1).toNat + 32 * p.pos
      let result := (p.word 3).toNat + 16 * p.pos
      (p.cask = none → n ≤ p.pos → exec (.nmem p.id) s = .next ends) ∧
      (p.cask = none → p.pos < n → ∀ pa, SysAt s p.asid block 32 pa →
        let v := Config.freeWord s.freeCtr
        let t : State := { withPacketAs s p.id begins with freeCtr := s.freeCtr + 1 }
        ∀ r, t.caskPrepare p.asid (s.flat.hbm.read pa 32) (max 1 (v.toNat % 2 ^ 32)) = some r →
          exec (.nmem p.id) s = .next (withPacketAs t p.id (fun q => { q with cask := some r }))) ∧
      (∀ r, p.cask = some r → r.parts = [] → r.status = 0 → r.heapFull = false → ∀ pa, SysPage s p.asid result 16 pa →
        ∃ t, WritesHbm s t pa (leBytes 8 (if r.poisoned = 0 then 0 else 1) ++ leBytes 4 (r.first.getD 0) ++ leBytes 4 r.poisoned) false ∧
          exec (.nmem p.id) s = .next (withPacketAs t p.id (fun q => { begins q with pos := q.pos + 1, cask := none }))))

/-! ## The host port -/

/-- R314, R315, R317: reads, writes and AtomicOps of BAR 2 reach HBM at BAR2BASE + offset, and CXL.mem lines at their own address,
while READY is 1; a piece that holds poison is answered with EP under HPE, and otherwise ends the read with Completer Abort, an AER message and
a logged error; a write outside HBM is dropped and logged, a read outside HBM ends with Completer Abort; requests longer than
R314 allows, or not aligned, get Unsupported Request.
The answers to a misaligned AtomicOp and to an overlong write (DEDUCED, log 92), to an AtomicOp on poison (DEDUCED, log 93) and to a
request beyond the size of the BAR (PRESUMED, log 122) are the model's readings. -/
def Obligations.HostReachesMemory : Prop :=
  ∀ (off : Nat) (s : State), Calm s →
    let pa := s.host.bar2base.toNat + off
    let inside (n : Nat) : Prop := pa < Config.hbmSize ∧ pa + n ≤ Config.hbmSize
    let line := off / 64 * 64
    let lineIn : Prop := line + 64 ≤ Config.hbmSize
    let fits (n : Nat) : Prop := off + n ≤ s.host.bar2size
    (∀ n, 4096 < n ∨ ¬ fits n → exec (.hostRead off n) s = .next (answers s [.unsupported])) ∧
    (∀ bs ep, 512 < bs.length ∨ ¬ fits bs.length → exec (.hostWrite off bs ep) s = .next (answers s [.unsupported])) ∧
    (∀ (op : HostAtomicOp) (wide : Bool) (v cmp : Word64), pa % (if wide then 8 else 4) ≠ 0 ∨ ¬ fits (if wide then 8 else 4) →
      exec (.hostAtomic op wide off v cmp) s = .next (answers s [.unsupported])) ∧
    (s.host.ready = false →
      (∀ n, n ≤ 4096 → fits n → exec (.hostRead off n) s = .next (answers s [.completerAbort])) ∧
      (∀ bs ep, bs.length ≤ 512 → fits bs.length → exec (.hostWrite off bs ep) s = .next s) ∧
      (∀ (op : HostAtomicOp) (wide : Bool) (v cmp : Word64), pa % (if wide then 8 else 4) = 0 → fits (if wide then 8 else 4) →
        exec (.hostAtomic op wide off v cmp) s = .next (answers s [.completerAbort])) ∧
      exec (.cxlMemRead off) s = .next s ∧ ∀ bs ep, exec (.cxlMemWrite off bs ep) s = .next s) ∧
    (s.host.ready = true →
      (∀ n, n ≤ 4096 → fits n →
        let pieces := piecesOf pa n
        (¬ inside n → exec (.hostRead off n) s = .next (answers s [.completerAbort])) ∧
        (inside n → s.host.hpe = true ∨ (∀ q ∈ pieces, s.hbmPoisoned q.1 q.2 = false) →
          exec (.hostRead off n) s =
            .next (answers s [.data (s.flat.hbm.read pa n) (pieces.map (fun q => s.hbmPoisoned q.1 q.2))])) ∧
        (inside n → s.host.hpe = false → ∀ q, pieces.find? (fun q => s.hbmPoisoned q.1 q.2) = some q →
          exec (.hostRead off n) s = .next (answers (logged s 1 q.1) [.aer, .completerAbort]))) ∧
      (∀ bs ep, bs.length ≤ 512 → fits bs.length →
        (inside bs.length → bs ≠ [] → ∃ t, WritesHbm s t pa bs ep ∧ exec (.hostWrite off bs ep) s = .next t) ∧
        (¬ inside bs.length → exec (.hostWrite off bs ep) s = .next (logged s 2 pa))) ∧
      (∀ (op : HostAtomicOp) (wide : Bool) (v cmp : Word64),
        let n := if wide then 8 else 4
        let old := s.flat.hbm.num pa n
        let new := match op with
          | .fetchAdd => old + v.toNat
          | .swap => v.toNat
          | .cas => if old = cmp.toNat % 2 ^ (8 * n) then v.toNat else old
        let sys := if op = .cas ∧ old ≠ cmp.toNat % 2 ^ (8 * n) then s.sys else pokedSys s.sys
        pa % n = 0 → fits n → inside n →
        (s.hbmPoisoned pa n = true → exec (.hostAtomic op wide off v cmp) s = .next (answers (logged s 1 pa) [.aer, .completerAbort])) ∧
        (s.hbmPoisoned pa n = false → ∃ t u, WritesHbm s t pa (leBytes n new) false ∧
          exec (.hostAtomic op wide off v cmp) s = .next u ∧ u.flat.hbm.get = t.flat.hbm.get ∧
          u = { answers s [.old (BitVec.ofNat 64 old)] with flat := u.flat, sys := sys })) ∧
      (lineIn →
        let bs := s.flat.hbm.read line 64
        (s.hbmPoisoned line 64 = false → exec (.cxlMemRead off) s = .next (answers s [.cxlLine bs false])) ∧
        (s.hbmPoisoned line 64 = true → s.host.hpe = true → exec (.cxlMemRead off) s = .next (answers s [.cxlLine bs true])) ∧
        (s.hbmPoisoned line 64 = true → s.host.hpe = false →
          exec (.cxlMemRead off) s = .next (answers s [.cxlLine (List.replicate 64 0xFF) false, .cxlEvent])) ∧
        ∀ ws ep, ws.length = 64 → ∃ t, WritesHbm s t line ws ep ∧ exec (.cxlMemWrite off ws ep) s = .next t))

/-- R5, R250, R257, R315, R316, R325, R326, R328, R329, R333 to R335, R338: a fetch-add of a queue window adds to WIDX and gives the
old value, and a read gives header bytes; any other write is dropped and logged; event windows post and read COUNT; the
management registers take and give what their rules say; the reports are signed and hold the nonce, and a module whose start-up
has failed makes none.
The widths of register writes and of the count in a report, and the answer of a window without a queue, are the model's
readings (DEDUCED, logs 94 and 95); the sign of the offset that a dialogue measures, that MGMT_BAR2BASE keeps every value as it is
written, and the grants to which a sum above 3,000 W falls after 10 ms, are its choices (DESIGN CHOICE, logs 119, 120 and 135). -/
def Obligations.HostWindowsAndRegisters : Prop :=
  (∀ (q off len e pa : Nat) (v : Word64) (x : Queue) (s : State), s.host.ready = true → Calm s →
    (s.queueNum q = none →
      exec (.queueWindowFetchadd q v) s = .next (answers s [.completerAbort]) ∧
      exec (.queueWindowRead q off len) s = .next (answers s [.completerAbort])) ∧
    (s.queueNum q = some x → SysAt s x.asid x.header 8 pa → x.header % 8 = 0 →
      ∃ t, WritesHbm s t pa (leBytes 8 (s.flat.hbm.num pa 8 + v.toNat)) false ∧
        exec (.queueWindowFetchadd q v) s =
          .next { answers t [.old (BitVec.ofNat 64 (s.flat.hbm.num pa 8))] with sys := pokedSys s.sys }) ∧
    (s.queueNum q = some x → 0 < len → off + len ≤ 256 → SysAt s x.asid (x.header + off) len pa →
      (∀ p ∈ piecesOf off len, SysAt s x.asid (x.header + p.1) p.2 (pa + (p.1 - off))) →
      exec (.queueWindowRead q off len) s =
        .next (answers s [.data (s.flat.hbm.read pa len) ((piecesOf off len).map (fun _ => false))])) ∧
    (s.queueNum (off / 256) = some x → SysAt s x.asid (x.header + off % 256) 1 pa →
      ∀ atomic, exec (.droppedWindowWrite ⟨off, atomic⟩) s = .next (logged s 3 pa)) ∧
    (e < 65536 → s.sys.waitersOf e = [] →
      exec (.eventWindowWrite e v) s = .next { s with sys := { s.sys with
        events := s.sys.events.set 0 e (BitVec.ofNat 32 (min ((s.sys.event e).toNat + v.toNat % 2 ^ 32) 0xFFFFFFFF)) } }) ∧
    (e < 65536 → exec (.eventWindowRead e) s =
      .next (answers s [.data (leBytes 8 (s.sys.event e).toNat) [false]]))) ∧
  (∀ (off : Nat) (s : State), s.host.ready = false →
    exec (.droppedWindowWrite ⟨off, true⟩) s = .next (answers s [.completerAbort]) ∧
    exec (.droppedWindowWrite ⟨off, false⟩) s = .next s) ∧
  (∀ s : State,
    let reads (off v : Nat) : Prop := s.registerRead off = answers s [.data (leBytes 8 v) [false]]
    reads 0x0 (b2n s.host.ready + s.host.stage.toNat * 2 + s.host.fail.toNat * 2 ^ 4 + s.host.lastrst.toNat * 2 ^ 12) ∧
    reads 0x8 (b2n s.host.hpe + 2 * b2n s.host.errirq) ∧ reads 0x10 s.host.err.toNat ∧ reads 0x20 s.host.bar2base.toNat ∧
    reads 0x108 s.host.timeerr.toNat ∧ reads 0x110 s.host.ptmint.toNat ∧
    let total := ((List.range 4).map (fun d => (s.die d).grant.toNat)).sum +
      ((List.range 13).map (fun k => (s.host.arbiter.others.get 0 k).toNat)).sum
    let lapsed : Bool := match s.host.arbiter.overSince with | some t => decide (t + 10000000 < s.host.clock) | none => false
    ∀ d, d < 4 →
      let grant := (s.die d).grant.toNat
      reads (0x200 + 8 * d) ((if lapsed then grant * 3000000 / total % 2 ^ 22 else grant) + (s.die d).level.toNat * 2 ^ 22 +
        (s.die d).tmax.toNat * 2 ^ 27 + (s.die d).vmin.toNat * 2 ^ 35 + (s.die d).roFreq.toNat * 2 ^ 43)) ∧
  (∀ (v : Word64) (s : State),
    exec (.timeset v) s = .next { s with host := { s.host with time := v } } ∧
    exec (.mgmtErrClear v) s = .next { s with host := { s.host with err := if v.getLsbD 63 then 0 else s.host.err } } ∧
    exec (.ptmintWrite v) s = .next { s with host := { s.host with ptmint := BitVec.ofNat 64 (max 1000000 v.toNat) } } ∧
    (s.host.fail = 0 → s.host.nextPtm ≤ s.host.clock → exec (.ptmDialogue v) s = .next { s with host := { s.host with
      timeerr := v, slew := v.toInt, nextPtm := s.host.clock + s.host.ptmint.toNat } }) ∧
    exec (.registerWrite 0x8 v) s = .next { s with host := { s.host with hpe := v.getLsbD 0, errirq := v.getLsbD 1 } } ∧
    exec (.registerWrite 0x20 v) s = .next { s with host := { s.host with bar2base := v } } ∧
    (∀ k, k < 4 → ∃ t, exec (.registerWrite (0x4000 + 8 * k) v) s = .next t ∧
      t = { s with host := { s.host with trust := { s.host.trust with nonce := t.host.trust.nonce } } } ∧
      ∀ a, t.host.trust.nonce.get a = if 8 * k ≤ a ∧ a < 8 * k + 8 then (leBytes 8 v.toNat).getD (a - 8 * k) 0
        else s.host.trust.nonce.get a) ∧
    (∀ w, w < 128 →
      let at' (j : Nat) := exec (.registerWrite (0x10000 + 32 * w + 8 * j) v) s
      let x := s.fab.windows.get {} w
      let put (y : PeerWindow) (ps : AMap Port) : State :=
        { s with fab := { s.fab with windows := s.fab.windows.put w y, ports := ps } }
      let mark (k : FabPacket) : FabPacket :=
        if k.window = w ∧ k.closed = none then { k with closed := some s.host.clock } else k
      let marked : AMap Port := s.fab.ports.map (fun e =>
        (e.1, { e.2 with queue := e.2.queue.map mark, retry := e.2.retry.map mark, flight := e.2.flight.map mark }))
      at' 0 = .next (put { x with
          node := v.setWidth 20, v := v.getLsbD 31, epoch := (v >>> 32).setWidth 16
          closedAt := if v.getLsbD 31 then none else if x.v then some s.host.clock else x.closedAt }
        (if x.v && !v.getLsbD 31 then marked else s.fab.ports)) ∧
      at' 1 = .next (put { x with rbase := v.setWidth 48 } s.fab.ports) ∧
      at' 2 = .next (put { x with size := v.setWidth 40 } s.fab.ports)) ∧
    (∀ w, w < 256 →
      let at' (j : Nat) := exec (.registerWrite (0x20000 + 32 * w + 8 * j) v) s
      let x := s.fab.exports.get {} w
      let put (y : Export) : State := { s with fab := { s.fab with exports := s.fab.exports.put w y } }
      at' 0 = .next (put { x with node := v.setWidth 20, v := v.getLsbD 31, epoch := (v >>> 32).setWidth 16 }) ∧
      at' 1 = .next (put { x with base := v.setWidth 48 }) ∧ at' 2 = .next (put { x with size := v.setWidth 40 }))) ∧
  ∀ s : State,
    let fresh := (List.range 32).map (fun i => Config.freeByte (s.freeCtr + i))
    let key := s.host.trust.session.getD fresh
    let reported (bs : List Byte) : State := { s with
      freeCtr := if s.host.trust.session = none then s.freeCtr + 32 else s.freeCtr
      host := { s.host with trust := { s.host.trust with report := bs, session := some key } } }
    let identity := (List.range 32).map Config.identityKey
    let nonce := s.host.trust.nonce.read 0 32
    let full := leBytes 8 Config.imageCount ++ (List.range Config.imageCount).flatMap (fun j =>
      (List.range 64).map (Config.measurement j)) ++ nonce ++ identity ++ key
    let short := nonce ++ leBytes 8 Config.imageCount ++ key
    (s.host.fail ≠ 0 → exec .fullReport s = .next s ∧ exec .shortReport s = .next s) ∧
    (s.host.fail = 0 → exec .fullReport s = .next (reported (full ++ (List.range 64).map (Config.signature identity full))) ∧
    exec .shortReport s = .next (reported (short ++ (List.range 64).map (Config.signature key short))))

/-! ## Reset, power and loading -/

/-- R20, R21, R48, R91, R93, R94, R111, R128, R149, R179, R185, R257, R329, R332, R333, R338: what State.reset holds where the
manual states a value: READY 1 and STAGE 3, flat memory, local stores and tags zero and without poison, no context live, the
reset columns of the control registers, guards true, barrier masks all ones, no event counted, no team, queue or node, and memory in its canonical form.
(Values that the manual does not give are the model's, DESIGN CHOICE, log 5, and are not stated here.)
That State.reset is the module at the end of its cold start is the model's (DESIGN CHOICE, log 3). -/
def Obligations.ResetState : Prop :=
  let s := State.reset
  s.host.ready = true ∧ s.host.stage = 3 ∧ s.host.fail = 0 ∧ s.host.lastrst = 0 ∧ s.host.err = 0 ∧ s.host.bar2base = 0 ∧
  s.host.ptmint.toNat = 10000000 ∧
  (∀ a, s.flat.hbm.get a = 0) ∧ (∀ a n, s.hbmPoisoned a n = false) ∧
  (∀ c h, ((s.core c).ctx h).live = false) ∧ (∀ c sp a, ((s.core c).store sp).get a = 0) ∧
  (∀ c l, (s.core c).tag l = { v := false, u := false, p := false }) ∧ (∀ c g, (s.core c).guard g = .tru) ∧
  (∀ c ct, (s.core c).counter ct = 0) ∧
  (∀ c h,
    let x := (s.core c).ctx h
    (∀ r, x.sv r = 0 ∧ x.dbit r = false) ∧ x.budget = 255 ∧ x.left.toNat = 65280 ∧ x.nbtmo.toNat = 256 ∧ x.frm = 0 ∧
    x.istat = 0 ∧ x.ystall.toNat = 67108864 ∧ x.seed = 1 ∧ x.vcount.val = 0 ∧ x.lstat = 0) ∧
  (∀ k i, ((s.cluster k).barrier i).mask.toNat = 255 ∧ ((s.cluster k).barrier i).arr = 0 ∧ ((s.cluster k).barrier i).gen = 0) ∧
  (∀ k i, ((s.cluster k).mutex i).owner = none) ∧ (∀ e, s.sys.event e = 0) ∧ (∀ d, (s.die d).level.toNat = 16) ∧
  s.sys.teams = [] ∧ s.sys.queues = [] ∧ (∀ a i, ((s.space a).node i).state = .free) ∧ (∀ a i, ((s.space a).gen i).toNat = 1) ∧
  MemOk s

/-- R332, R333, R336 to R339: the key, a hot reset and a thermal trip start a warm reset, which keeps flat memory, address
spaces, the time counter and the grants, stops every core and leaves READY 0 at STAGE 1 with LASTRST naming the cause; it completes with
READY 1 at STAGE 3. A cold start writes every byte of HBM zero and leaves poison where it is named; its failure leaves READY
0 and FAIL, of which codes 1 to 5 name a stage. A grant that R338 and R339 allow is taken with its readings, and LEVEL is 1 from
105 °C on; grants that sum to more than 3,600 W, or to more than 3,000 W before the rest is over, or that leave out a die at 100 °C, do
not arrive, and grants that have stood above 3,000 W for 10 ms are cut.
R47, R49, R245, R246: a program load places its sections, keeps the images of its tasks, and enqueues the entry task as a
LAUNCH would, without a packet: its signal is zero, and it is READY when DEPS is zero.
STAGE in a warm reset and between the stages of a cold start, that a FAIL code above 5 makes no start, and that grants that do not
arrive count as draws and a die's heat is timed on through a reset, are the model's readings (DEDUCED, logs 42, 96, 43 and 100); what
the cut grants are, and that images belong to their records, are its choices (DESIGN CHOICE, logs 135 and 133). -/
def Obligations.ResetsPowerAndLoading : Prop :=
  (∀ (s : State),
    let warms (o : Host.Outcome State Fault Refusal) (last : BitVec 2) : Prop := ∃ t, o = .next t ∧
      t.host.ready = false ∧ t.host.stage = 1 ∧ t.host.lastrst = last ∧ t.host.fail = 0 ∧ t.host.time = s.host.time ∧
      t.host.trust.session = none ∧ t.host.trust.nonce = s.host.trust.nonce ∧
      t.flat = { s.flat with rmWrites := [], waiters := [], tuples := [] } ∧
      (∀ c, t.core c = {}) ∧ (∀ k, t.cluster k = {}) ∧ t.sys.nodeid = s.sys.nodeid ∧
      t.sys.teams = [] ∧ t.sys.tasks = [] ∧ t.sys.queues = [] ∧ t.sys.packets = [] ∧ t.sys.lin = [] ∧ t.sys.jobs = [] ∧
      t.sys.events = [] ∧
      (∀ a i, (t.space a).node i = { (s.space a).node i with busy := false }) ∧
      (∀ a, (t.space a).ptbase = (s.space a).ptbase ∧ (t.space a).tvec = (s.space a).tvec) ∧
      t.host.arbiter = s.host.arbiter ∧
      (∀ d, (t.die d).grant = (s.die d).grant ∧ (t.die d).level = (s.die d).level ∧ (t.die d).tmax = (s.die d).tmax ∧
        (t.die d).hotSince = if last = 3 then (s.die d).hotSince.map (fun _ => s.host.clock) else (s.die d).hotSince) ∧
      ∀ e ∈ t.fab.ports, e.2.up = false
    (s.host.fail = 0 → s.sys.jobs = [] →
      warms (exec (.mgmtReset 0x5741524D) s) 1 ∧ warms (exec .hotReset s) 2 ∧
      ∀ (d : Fin 4) (since : Nat), (s.die d.val).hotSince = some since →
        since + 1000000 ≤ s.host.clock → warms (exec (.thermalTrip d) s) 3) ∧
    (∀ key, key ≠ 0x5741524D → exec (.mgmtReset key) s = .next s) ∧
    (s.host.fail ≠ 0 → exec .hotReset s = .next s) ∧
    (s.host.ready = false → s.host.fail = 0 →
      (s.host.lastrst ≠ 0 → ∃ t, exec .warmResetComplete s = .next t ∧
        t = { s with host := { s.host with ready := true, stage := 3 }, fab := { s.fab with ports := t.fab.ports } } ∧
        ∀ p, p < 16 → (t.fab.ports.get {} p).up = true) ∧
      (s.host.lastrst = 0 → exec .startUpComplete s = .next { s with host := { s.host with ready := true, stage := 3 } })) ∧
    (∀ (fail : BitVec 8) (bad : List Nat), 5 < fail.toNat → exec (.coldStart fail bad) s = .next s) ∧
    (∀ (fail : BitVec 8) (bad : List Nat), fail.toNat ≤ 5 → ∃ t, exec (.coldStart fail bad) s = .next t ∧
      t.host.ready = false ∧ t.host.fail = fail ∧ t.host.lastrst = 0 ∧ t.cores = [] ∧ t.clusters = [] ∧ t.sys = {} ∧
      (fail = 0 → t.host.stage = 2 ∧ t.flat.hbm = [] ∧
        ∀ k, t.flat.poison.get false k = bad.any (fun a => decide (a < Config.hbmSize ∧ a / 32 = k)))) ∧
    (∀ rs os t, s.host.arbiter.overSince = some t → t + 10000000 < s.host.clock → AMap.sorted s.host.arbiter.others = true →
      let total := ((List.range 4).map (fun d => (s.die d).grant.toNat)).sum +
        ((List.range 13).map (fun k => (s.host.arbiter.others.get 0 k).toNat)).sum
      let cut (g : BitVec 22) : BitVec 22 := BitVec.ofNat 22 (g.toNat * 3000000 / total)
      ∃ u, exec (.powerGrant ⟨rs, os⟩) s = exec (.powerGrant ⟨rs, os⟩) u ∧
        u = { s with dies := u.dies, host := { s.host with arbiter := { u.host.arbiter with overSince := none, restUntil := t + 20000000 } } } ∧
        (∀ d, u.die d = { s.die d with grant := cut (s.die d).grant }) ∧
        ∀ k, u.host.arbiter.others.get 0 k = cut (s.host.arbiter.others.get 0 k)) ∧
    ((∀ t, s.host.arbiter.overSince = some t → s.host.clock ≤ t + 10000000) →
    (s.host.fail ≠ 0 → ∀ rs os, exec (.powerGrant ⟨rs, os⟩) s = .next s) ∧
    ∀ (r : PowerReading) (rs : List PowerReading) (os : List (Fin 13 × BitVec 22)), s.host.fail = 0 →
      let allowed (q : PowerReading) : Prop :=
        q.tmax.toNat < 100 ∨ q.grant.toNat < (s.die q.die.val).grant.toNat ∨ ((s.die q.die.val).grant = 0 ∧ q.grant = 0)
      let leavesOut (qs : List PowerReading) : Prop := ∃ d, d < 4 ∧ 100 ≤ (s.die d).tmax.toNat ∧ ∀ q ∈ qs, q.die.val ≠ d
      ((∃ q ∈ rs, q.level.toNat = 0 ∨ 16 < q.level.toNat ∨ ¬ allowed q) ∨ leavesOut rs → exec (.powerGrant ⟨rs, os⟩) s = .next s) ∧
      (1 ≤ r.level.toNat → r.level.toNat ≤ 16 → allowed r → ¬ leavesOut [r] →
       let go := exec (.powerGrant ⟨[r], os⟩) s
       let a : Arbiter := { s.host.arbiter with others := os.foldl (fun m o => m.set 0 o.1.val o.2) s.host.arbiter.others }
       let now := s.host.clock
       let total := ((List.range 4).map (fun d => if d = r.die.val then r.grant.toNat else (s.die d).grant.toNat)).sum +
         ((List.range 13).map (fun k => (a.others.get 0 k).toNat)).sum
       let arrives (b : Arbiter) : Prop := ∃ t, go = .next t ∧
        t = { s with dies := t.dies, host := { s.host with arbiter := b } } ∧ (∀ d, d ≠ r.die.val → t.die d = s.die d) ∧
        let x := s.die r.die.val
        let y := t.die r.die.val
        y.tlb = x.tlb ∧ y.fences = x.fences ∧ y.grant = r.grant ∧ y.tmax = r.tmax ∧ y.vmin = r.vmin ∧ y.roFreq = r.roFreq ∧
        (r.tmax.toNat < 100 → y.level = r.level) ∧ (105 ≤ r.tmax.toNat → y.level = 1) ∧
        (r.tmax.toNat < 110 → y.hotSince = none) ∧
        (110 ≤ r.tmax.toNat → y.hotSince = some (x.hotSince.getD s.host.clock))
       (3600000 < total → go = .next s) ∧
       (total ≤ 3000000 → (a.overSince = none → arrives a) ∧
         ∀ t, a.overSince = some t → arrives { a with overSince := none, restUntil := now + (now - t) }) ∧
       (3000000 < total → total ≤ 3600000 →
         (∀ t, a.overSince = some t → arrives a) ∧
         (a.overSince = none → (a.restUntil ≤ now → arrives { a with overSince := some now }) ∧
           (now < a.restUntil → go = .next s)))))) ∧
  (∀ (p : ProgImage) (g : Segment) (pg pa : Nat) (s : State),
    (s.host.ready = false → exec (.programLoad p) s = .next s) ∧
    (s.host.ready = true → Calm s → p.segs = [g] → p.nodes = [] → p.queues = [] → g.bytes ≠ [] → p.entry % 8 = 0 →
      SysPage s p.asid g.va g.bytes.length pg →
      (∀ t, WritesHbm s t pg g.bytes false → SysPage t p.asid (p.entry + 96) 8 (pa + 96) ∧
        ∀ u, WritesHbm t u (pa + 96) (leBytes 8 0) false → SysAt u p.asid (p.entry + 16) 8 (pa + 16)) →
      ∃ t u v, WritesHbm s t pg g.bytes false ∧ WritesHbm t u (pa + 96) (leBytes 8 0) false ∧
        let w2 := t.flat.hbm.num (pa + 16) 8
        let ready := decide (w2 / 2 ^ 24 % 2 ^ 16 = 0)
        let ims := p.images.map (fun i => ({ asid := p.asid, task := i.task, sp := i.sp, addr := i.addr, bytes := i.bytes } : Image))
        WritesHbm u v (pa + 16) (leBytes 8 (setBits w2 42 40 (if ready then 2 else 1))) false ∧
        exec (.programLoad p) s = .next { v with sys := { pokedSys s.sys with
          images := s.sys.images.filter (fun i => !(i.asid = p.asid && (ims.any (fun j => j.task = i.task) ||
            decide (g.va ≤ i.task ∧ i.task < g.va + g.bytes.length)))) ++ ims
          tasks := s.sys.tasks ++
            [{ rec' := p.entry, asid := p.asid, pkt := 0, queue := 65536, ready := ready, since := s.cycle
               base := w2 / 2 ^ 16 % 2 ^ 3, width := w2 % 2 ^ 8, height := w2 / 2 ^ 8 % 2 ^ 7 }] } }))

/-! ## The fabric -/

/-- R232, R320 to R327: a port whose link dies ends the packets of its retry buffer, tells the other ports and queue 0, and
starts its drain rounds, each of which moves the packets that have another way; what is left after the fourth ends with
LINK_DEAD. Word of a dead link of a module of a job aborts its kiln. Requests end at their time limits, those of a window that is
closed as they stand then; a replica that is not written in time is poisoned for its die; a request that arrives is served when an
export covers it, in HBM or host memory, and otherwise dropped and counted; a tagged atomic is done once, and waits where its home holds 256 tuples. No packet of a queue overtakes one
that has no other way.
What a link-state notice names, how a request that an export does not cover is counted, that an answer takes the first of its
routes that is up, what an export of a peer range gives, and that a row with nothing to do leaves the state, are the model's (DEDUCED,
logs 45, 98 and 134; DESIGN CHOICE, log 2). -/
def Obligations.FabricMovesAndEnds : Prop :=
  (∀ (port : Fin 16) (s : State), s.host.ready = true → s.sys.jobs = [] → s.queueNum 0 = none → s.sys.notices.length < 256 →
    let p := s.fab.ports.get {} port.val
    let told (n : Nat) : List Notice := s.sys.notices ++ [{ code := n, args := [BitVec.ofNat 64 port.val] }]
    (p.up = true → (∀ k ∈ p.retry, k.core ≠ sysParty) → ∃ u, exec (.linkDead port) s = .next u ∧
      u.fab.ports.get {} port.val = { p with up := false, round := some 0, deadAt := s.host.clock, retry := [] } ∧
      (∀ q, q ≠ port.val → u.fab.ports.get {} q = s.fab.ports.get {} q) ∧
      u.fab.out = s.fab.out ++ ((List.range 16).filter (fun q => decide (q ≠ port.val) && (s.fab.ports.get {} q).up)).map
        (fun q => (q, .linkNotice port.val)) ∧
      u.sys.notices = told 8 ∧ u.flat = s.flat ∧
      ∀ k ∈ p.retry, (∀ j ∈ p.retry, j.core = k.core → j.cmd = k.cmd → j.isAtomic = k.isAtomic) →
        ∀ c, (s.core k.core).pgeOf k.cmd = some c → c.prog.over = false →
          ∃ d a, (u.core k.core).pgeOf k.cmd = some d ∧ d.prog = .ended (if k.isAtomic then 25 else 24) a) ∧
    (p.up = true → ∃ u, exec (.linkDead port) s = .next u ∧ ∀ k ∈ p.retry, k.core = sysParty →
      ∀ q, s.packet k.cmd = some q → q.ended = none → ∃ r, u.packet k.cmd = some r ∧ r.ended = some false) ∧
    (p.up = false → exec (.linkRetrained port) s = .next { s with
      sys := { s.sys with notices := told 2 }
      fab := { s.fab with ports := s.fab.ports.put port.val { p with up := true, round := none } } })) ∧
  (∀ (node : Nat) (up : Bool) (s : State),
    (s.host.ready = true → up = true ∨ (∀ j ∈ s.sys.jobs, node ∉ j.remotes) →
      ∃ d, exec (.linkStateNotice node up) s = .next { s with fab := { s.fab with down := d } } ∧
      (node ∈ d ↔ up = false) ∧ ∀ n, n ≠ node → (n ∈ d ↔ n ∈ s.fab.down)) ∧
    (∀ (j : Job) (k : Kiln), s.host.ready = true → s.sys.jobs = [j] → node ∈ j.remotes → j.running = some k →
      (∀ x ∈ j.kilns, x.state = .running → x = k) →
      ∃ u, exec (.linkStateNotice node false) s = .next u ∧ node ∈ u.fab.down ∧ (u.job j.asid).bind Job.running = none ∧
        ∀ d ∈ s.jobCores j.asid, (u.core d).knum = k.num ∧ (u.core d).drain = []) ∧
    (s.host.ready = false → exec (.linkStateNotice node up) s = .next s)) ∧
  (∀ (port : Fin 16) (n : Nat) (s : State),
    let p := s.fab.ports.get {} port.val
    p.round = some n →
    (s.host.clock < p.deadAt + 100000 * (n + 1) → exec (.drainRound port) s = .next s) ∧
    (p.deadAt + 100000 * (n + 1) ≤ s.host.clock → ∀ k, p.queue = [k] →
      let other := s.fab.alternative port.val k.node
      (∀ q, other = some q → ∃ u, exec (.drainRound port) s = .next u ∧
        (u.fab.ports.get {} q).queue = (s.fab.ports.get {} q).queue ++ [k] ∧
        u.fab.ports.get {} port.val = { p with queue := [], round := if n + 1 < 4 then some (n + 1) else none } ∧
        u.cores = s.cores) ∧
      (other = none → n + 1 < 4 → ∃ u, exec (.drainRound port) s = .next u ∧
        u.fab.ports.get {} port.val = { p with round := some (n + 1) } ∧ u.cores = s.cores) ∧
      (other = none → 4 ≤ n + 1 → k.core = sysParty → ∃ u, exec (.drainRound port) s = .next u ∧
        ∀ q, s.packet k.cmd = some q → q.ended = none → ∃ r, u.packet k.cmd = some r ∧ r.ended = some false) ∧
      (other = none → 4 ≤ n + 1 → k.core ≠ sysParty → ∃ u, exec (.drainRound port) s = .next u ∧
        u.fab.ports.get {} port.val = { p with queue := [], round := none } ∧
        ∀ c, (s.core k.core).pgeOf k.cmd = some c → c.prog.over = false →
          ∃ d a, (u.core k.core).pgeOf k.cmd = some d ∧ d.prog = .ended 24 a))) ∧
  (∀ (port : Fin 16) (j k : FabPacket) (q : Nat) (s : State),
    let p := s.fab.ports.get {} port.val
    p.round = some 0 → p.deadAt + 100000 ≤ s.host.clock → p.queue = [j, k] →
    s.fab.alternative port.val j.node = none → s.fab.alternative port.val k.node = some q →
    exec (.drainRound port) s = .next { s with fab := { s.fab with ports := s.fab.ports.put port.val { p with round := some 1 } } }) ∧
  (∀ (c : Nat) (p : PgeCmd) (sent : Nat) (s : State), (s.core c).pgeOf p.id = some p →
    p.sentAt = some sent → p.prog.over = false →
    let ended (a : Word64) : State :=
      if sent + 2000000 ≤ s.host.clock then s.modPge c p.id (fun q => { q with prog := .ended 25 a, outUnits := [] }) else s
    let go := exec (.remoteAtomicTimeout c p.id) s
    (p.result.isSome = true → go = .next s) ∧
    (p.result = none → (∀ x, atomicArgs p.ins = some x → go = .next (ended p.va)) ∧
      ∀ a ct gd o t, p.ins = .done a ct gd o → s.teamOf c = some t → t.bitmap ≠ 0 →
        go = .next (ended (BitVec.ofNat 64 (t.bitmap.toNat + 8 * (p.va.toNat / 64)))))) ∧
  (∀ (i : Nat) (t : TagTuple) (s : State), s.flat.tuples[i]? = some t →
    let gone : State := { s with flat := { s.flat with tuples := s.flat.tuples.eraseIdx i } }
    (s.host.clock < t.at' + 4000000 → exec (.tagTupleExpiry i) s = .next s) ∧
    (t.at' + 4000000 ≤ s.host.clock →
      (s.fab.waiting = [] → exec (.tagTupleExpiry i) s = .next gone) ∧
      ∀ src epoch addr asid colour op, s.host.ready = true → s.fab.serves src epoch addr = true →
        s.fab.waiting = [{ src := src, addr := addr, asid := asid, colour := colour, op := op }] →
        exec (.tagTupleExpiry i) s =
          exec (.peerRequest src epoch addr ⟨asid, colour, op⟩) { gone with fab := { s.fab with waiting := [] } })) ∧
  (∀ (w : Fin 128) (s : State),
    let x := s.fab.windows.get {} w.val
    let passed (closed : Option Nat) : Prop := ∃ t, closed = some t ∧ t + 400000 ≤ s.host.clock
    let due (k : FabPacket) : Prop := k.window = w.val ∧ (passed x.closedAt ∨ passed k.closed)
    let all (t : State) (p : FabPacket → Prop) : Prop :=
      ∀ e ∈ t.fab.ports, ∀ k ∈ e.2.queue ++ e.2.retry ++ e.2.flight, p k
    (¬ passed x.closedAt → all s (fun k => ¬ due k) → exec (.peerRetireTimeout w) s = .next s) ∧
    (all s (fun k => due k → k.core ≠ sysParty) →
      ∃ u, exec (.peerRetireTimeout w) s = .next u ∧
      (passed x.closedAt → u.fab.windows.get {} w.val = { x with out := 0, closedAt := none }) ∧
      (¬ passed x.closedAt → (u.fab.windows.get {} w.val).v = x.v ∧ (u.fab.windows.get {} w.val).closedAt = x.closedAt) ∧
      all u (fun k => ¬ due k) ∧ u.flat = s.flat ∧
      (∀ q p, s.fab.ports.find q = some p → ∃ r, u.fab.ports.find q = some r ∧
        ∀ k, ¬ due k → (k ∈ p.queue → k ∈ r.queue) ∧ (k ∈ p.retry → k ∈ r.retry) ∧ (k ∈ p.flight → k ∈ r.flight)) ∧
      all s (fun k => due k → ∀ c, (s.core k.core).pgeOf k.cmd = some c →
        c.prog.over = false → ∃ d a, (u.core k.core).pgeOf k.cmd = some d ∧ d.prog = .ended 23 a))) ∧
  (∀ (i die pa : Nat) (bs : List Byte) (w : RmWrite) (s : State), s.flat.rmWrites[i]? = some w → die ∈ w.dies →
    w.cells = (bs.zipIdx).map (fun e => (pa + e.2, e.1)) →
    let go := exec (.replicaWriteTimeout i die) s
    (s.host.clock < w.since + 2000 → go = .next s) ∧
    (w.since + 2000 ≤ s.host.clock → ∃ u, go = .next u ∧
      u = { s with flat := { s.flat with
        rmWrites := u.flat.rmWrites, hbm := u.flat.hbm, poison := u.flat.poison, lost := u.flat.lost } } ∧
      let z : RmWrite := { w with dies := w.dies.filter (fun d => d ≠ die), lost := w.lost ++ [die] }
      ((∃ d ∈ w.dies, d ≠ die) → u.flat.hbm = s.flat.hbm ∧ u.flat.poison = s.flat.poison ∧ u.flat.lost = s.flat.lost ∧
        u.flat.rmWrites = s.flat.rmWrites.set i z) ∧
      ((∀ d ∈ w.dies, d = die) → u.flat.rmWrites = (s.flat.rmWrites.set i z).erase z ∧
        (∀ a, u.flat.hbm.get a = if pa ≤ a ∧ a < pa + bs.length then bs.getD (a - pa) 0 else s.flat.hbm.get a) ∧
        (∀ k, u.flat.poison.get false k = (s.flat.poison.get false k && !decide (k ∈ w.clear) || decide (k ∈ w.poison))) ∧
        ∀ k d, d < 4 → (∀ x ∈ w.lost ++ [die], x < 4) → u.flat.lost.get false (4 * k + d) =
          (s.flat.lost.get false (4 * k + d) && !decide (k ∈ w.clear) ||
            decide (d ∈ w.lost ++ [die] ∧ ∃ e ∈ w.cells, e.1 / 32 = k))))) ∧
  (∀ (src epoch addr asid : Nat) (colour : Bool) (op : PeerOp) (s : State), s.host.ready = false →
    exec (.peerRequest src epoch addr ⟨asid, colour, op⟩) s = .next s) ∧
  ∀ (src epoch addr asid : Nat) (colour : Bool) (op : PeerOp) (s : State), s.host.ready = true → Calm s →
    AMap.sorted s.fab.exports = true →
    let covers (e : Nat × Export) : Prop := e.2.v = true ∧ e.2.base.toNat ≤ addr ∧ addr < e.2.base.toNat + e.2.size.toNat
    let serves : Prop := ∃ e ∈ s.fab.exports, covers e ∧ e.2.node.toNat = src ∧ e.2.epoch.toNat = epoch
    let go (o : PeerOp) := exec (.peerRequest src epoch addr ⟨asid, colour, o⟩) s
    (¬ serves → ∃ f, go op = .next (repliedTo { s with fab := { s.fab with exports := f } } src (.status 23)) ∧
      (∀ e ∈ s.fab.exports, covers e → (f.get {} e.1).drops.toNat = min (e.2.drops.toNat + 1) 0xFFFFFFFF) ∧
      ∀ e ∈ s.fab.exports, ¬ covers e → f.get {} e.1 = e.2) ∧
    (serves →
      (∀ a, rangeOf addr = .host a →
        (∀ n, a / 4096 ∉ s.flat.hostAbsent →
          go (.read n) = .next (repliedTo s src (.data (s.flat.host.read a n) (poisonedIn s.flat.hostPoison a n)))) ∧
        (∀ n, a / 4096 ∈ s.flat.hostAbsent → go (.read n) = .next (repliedTo s src (.status 10))) ∧
        (∀ bs, go (.write bs true) = .next (repliedTo s src (.status 12))) ∧
        (∀ bs, ∃ t, go (.write bs false) = .next (repliedTo t src .ack) ∧
          t = { s with flat := { s.flat with host := t.flat.host, hostPoison := t.flat.hostPoison } } ∧
          ∀ x, t.flat.host.get x = if a ≤ x ∧ x < a + bs.length then bs.getD (x - a) 0 else s.flat.host.get x) ∧
        ∀ k wide v cmp tag, go (.atomic k wide v cmp tag) = .next (repliedTo s src (.status 10))) ∧
      (rangeOf addr = .nothing ∨ (∃ w off, rangeOf addr = .peer w off) → ∀ o, go o = .next (repliedTo s src (.status 10))) ∧
      (∀ n, addr < Config.hbmSize → addr + n ≤ Config.hbmSize →
        go (.read n) = .next (repliedTo s src (.data (s.flat.hbm.read addr n) (s.hbmPoisoned addr n)))) ∧
      (∀ bs bad, bs ≠ [] → addr + bs.length ≤ Config.hbmSize →
        ∃ t, WritesHbm s t addr bs bad ∧ go (.write bs bad) = .next (repliedTo t src .ack)) ∧
      (∀ (wide : Bool) (v cmp : Word64),
        let n := if wide then 8 else 4
        let old := s.flat.hbm.num addr n
        let result : Word64 := BitVec.ofInt 64 (toSigned (8 * n) old)
        let here (t : TagTuple) : Bool := t.channel = channelOf addr && decide (s.host.clock < t.at' + 4000000)
        addr + n ≤ Config.hbmSize →
        (∀ name ctx tag t, s.flat.tuples.find? (fun t => here t && t.name = name && t.ctx = ctx && t.tag = tag) = some t →
          go (.atomic .add wide v cmp (some (name, ctx, tag))) = .next (repliedTo s src (.old t.result))) ∧
        (∀ name ctx tag, s.flat.tuples.find? (fun t => here t && t.name = name && t.ctx = ctx && t.tag = tag) = none →
          256 ≤ (s.flat.tuples.filter here).length →
          let o : PeerOp := .atomic .add wide v cmp (some (name, ctx, tag))
          go o = .next { s with fab := { s.fab with
            waiting := s.fab.waiting ++ [{ src := src, addr := addr, asid := asid, colour := colour, op := o }] } }) ∧
        (s.hbmPoisoned addr n = false →
          (∃ t, WritesHbm s t addr (leBytes n (old + v.toNat)) false ∧
            go (.atomic .add wide v cmp none) = .next { repliedTo t src (.old result) with sys := pokedSys s.sys }) ∧
          ∀ name ctx tag,
            s.flat.tuples.find? (fun t => here t && t.name = name && t.ctx = ctx && t.tag = tag) = none →
            (s.flat.tuples.filter here).length < 256 →
            ∃ t, WritesHbm s t addr (leBytes n (old + v.toNat)) false ∧
              go (.atomic .add wide v cmp (some (name, ctx, tag))) = .next { repliedTo t src (.old result) with
                sys := pokedSys s.sys
                flat := { t.flat with tuples := s.flat.tuples ++
                  [{ channel := channelOf addr, name := name, ctx := ctx, tag := tag, result := result, at' := s.host.clock }] } })))

/-! ## Decoding and the step -/

/-- R50 to R57: words written out bit by bit from the encodings of the formats decode to their instructions. -/
def Obligations.WrittenOutWordsDecode : Prop :=
  -- ADD s3, s1, s2 (R): zero, FN, M, C, B, A, D, opcode 0x01, length 00
  decodeWord (0#22 ++ 0#8 ++ 0#4 ++ 0#5 ++ 2#5 ++ 1#5 ++ 3#5 ++ 0x01#8 ++ 0#2).toNat = .ok (.add 3 1 2) ∧
  -- ADD s4, s5, −1 (I): IMM, FN, M, A, D, opcode 0x41
  decodeWord (0xFFFFFFFF#32 ++ 0#8 ++ 0#4 ++ 5#5 ++ 4#5 ++ 0x41#8 ++ 0#2).toNat = .ok (.addImm 4 5 0xFFFFFFFF) ∧
  -- BRC.ltu s6, s7, −8 (B): OFF, FN, CND 6, B, A, opcode 0x21
  decodeWord (0xFFFFFFF8#32 ++ 0#8 ++ 6#4 ++ 7#5 ++ 6#5 ++ 0x21#8 ++ 0#2).toNat = .ok (.brc .ltu 6 7 0xFFFFFFF8) ∧
  -- LD.d.t.k s8, [A : s9 + 0x40] (M): zero, OFF16, FN 1, SX, TG, SZ 3, SP 1, BASE, D, opcode 0x30
  decodeWord (0#16 ++ 0x40#16 ++ 1#5 ++ 0#1 ++ 1#1 ++ 3#3 ++ 1#2 ++ 9#5 ++ 8#5 ++ 0x30#8 ++ 0#2).toNat =
    .ok (.ld .d false true true 8 { sp := .a, base := 9, off := 0x40 }) ∧
  -- CSRW 0x106, s10 (S): zero, FN, CSR, A, D, opcode 0x79
  decodeWord (0#24 ++ 0#8 ++ 0x106#12 ++ 10#5 ++ 0#5 ++ 0x79#8 ++ 0#2).toNat = .ok (.csrw 10 0x106) ∧
  -- VADD.fp32.rz v1, v2, v3, p4 (V): IMM32, zero, FN, RM 1, TY 0, ZM, PM, VC, VB, VA, VD, opcode 0x24, length 01
  decodeWord (0#32 ++ 0#14 ++ 0#8 ++ 1#4 ++ 0#4 ++ 0#1 ++ 4#3 ++ 0#5 ++ 3#5 ++ 2#5 ++ 1#5 ++ 0x24#8 ++ 1#2).toNat =
    .ok (.vadd .fp32 .rz 1 2 (.vec 3) { zm := false, pm := 4 }) ∧
  -- MOVI s11, 2^63 + 1 (X): IMM64, zero, FN, zero, D, opcode 0x01, length 10
  decodeWord (0x8000000000000001#64 ++ 0#22 ++ 0#8 ++ 0#19 ++ 11#5 ++ 0x01#8 ++ 2#2).toNat = .ok (.movi 11 0x8000000000000001) ∧
  -- length code 11, an opcode without a row, a field that must be zero
  decodeWord 3 = .error .illegalLen ∧
  decodeWord (0#32 ++ 0#22 ++ 0xFF#8 ++ 0#2).toNat = .error .illegalOp ∧
  decodeWord (1#22 ++ 0#8 ++ 0#4 ++ 0#5 ++ 2#5 ++ 1#5 ++ 3#5 ++ 0x01#8 ++ 0#2).toNat = .error .illegalEnc

/-- R50 to R66: every well-formed instruction has one encoding, which fits its length, and the bytes of the encoding decode to
it whatever follows them; an event has none. -/
def Obligations.EncodingsDecode : Prop :=
  ∀ i : Instr, i.wellFormed = true →
    (encode i = none ↔ i.isEvent = true) ∧
    ∀ n w, encode i = some (n, w) → w < 2 ^ (8 * n) ∧ ∀ rest, decodeBytes (leBytes n w ++ rest) = .ok (i, rest)

/-- R51, R53, R56: a word that decodes gives a well-formed instruction whose encoding is that word, at the length that its
first bits give: no bit of an accepted word is ignored, and no two words are one instruction. -/
def Obligations.DecodedWordsEncode : Prop :=
  ∀ (w : Nat) (i : Instr), decodeWord w = .ok i →
    i.wellFormed = true ∧ i.isEvent = false ∧ ∃ n, lengthOf w = some n ∧ encode i = some (n, w % 2 ^ (8 * n))

/-- R69, R81, R91, R340, R378: when a core's issue turn comes, or a waiting context's next try, by the agenda or by the policy, and the
context that acts takes no trap of its repetition, finds at its pc, in its instruction cache or in memory, the bytes of an
instruction that it may run in its mode, that is not the last of its window, names no reserved register and does not wait behind a
repetition, the step runs that instruction. The state it runs in differs in the core's turn, its place in the cycle, for a fork its
place among the cycle's forks, and the instruction cache alone, after the cycle that passes where the core has issued in this one or
the place is past. A step for a unit's work does that work.
Who moves next, and in which order of cores the forks of one cycle and context number come, is the model's (DESIGN CHOICE, log 1), and
so are the block that a full instruction cache drops (DESIGN CHOICE, log 12) and that the last instruction of a window has no effect
(DEDUCED, log 46). -/
def Obligations.StepRunsDecodedInstruction : Prop :=
  (∀ (k : Work) (s v : State),
    (s.agenda = .work k :: v.agenda ∧ v = { s with agenda := v.agenda }) ∨ (s.agenda = [] ∧ s.choose = .work k ∧ v = s.tick) →
    let last := 11 * Config.coreCount
    let w := if v.slotCycle = v.cycle ∧ last < v.slotNext then v.tick else v
    step s = .next (({ w with slotCycle := w.cycle, slotNext := last } : State).work k)) ∧
  ∀ (c h : Nat) (slot : Bool) (i : Instr) (more : List Byte) (e : TlbEntry) (s v : State),
    let action : Action := if slot then .issue c else .retry c h
    (s.agenda = action :: v.agenda ∧ v = { s with agenda := v.agenda }) ∨ (s.agenda = [] ∧ s.choose = action ∧ v = s.tick) →
    let w := if slot ∧ (v.core c).issuedAt = some v.cycle then v.tick else v
    let w := if w.slotCycle = w.cycle ∧ 11 * c + h < w.slotNext then w.tick else w
    let at' : State := { w with curCore := c, curCtx := h, slotCycle := w.cycle, slotNext := 11 * c + h + 1 }
    let u := if slot then at'.modCore c (fun x => { x with rr := h, issuedAt := some w.cycle }) else at'
    let pc := u.me.pc.toNat
    let block := pc / 32 * 32
    let held := u.home.icache.find? (fun b => b.asid = u.home.curAsid.toNat && b.va = block)
    let bytes := match held with | some b => b.bytes | none => u.flat.hbm.read (e.phys block) 32
    let kept := u.home.icache ++ [{ asid := u.home.curAsid.toNat, va := block, bytes := bytes }]
    let t := match held with
      | some _ => u
      | none => u.modHome (fun x => { x with icache := kept.drop (kept.length - 512) })
    v.mayIssue c = true → (if slot then (v.core c).nextCtx = some h else ((v.core c).ctx h).retries = true) →
    (u.me.sup = true ∨ privileged i = false) → (u.me.held = .none → u.me.rep.trap = none) → Hits u c u.me.sup .fetch block e →
    (∀ w ∈ u.flat.rmWrites, w.granule ≠ e.phys block / 4096) →
    (held = none → u.hbmPoisoned (e.phys block) 32 = false ∧ u.lostAt (dieOf c) (e.phys block) 32 = false) → bytes.length = 32 →
    decodeBytes (bytes.drop (pc % 32)) = .ok (i, more) →
    (u.me.waitSince.isSome = true ∨ 1 < u.me.left.toNat ∨ (∃ mask budget, i = .yield mask budget) ∨
      ∃ n stride, i = .repgo n stride ∧ n ≠ 0) →
    (∀ r ∈ regsOf i, u.me.reserved.find r = none) → (isArrayWord i = true → u.me.rep.active = false) →
    let place := Config.coreCount * h + c
    let p : State := if t.sys.forkCycle = t.cycle ∧ place < t.sys.forkNext then t.tick else t
    let fork : Bool := match i with | .lfork .. | .lforkAf .. => true | _ => false
    step s = exec i (if fork then { p with sys := { p.sys with forkCycle := p.cycle, forkNext := place + 1 } } else t)

/-- Every step keeps the canonical form of flat memory and of host memory: addresses rise, and no byte equals what an unlisted
address reads as.
The canonical form is the model's own. -/
def Obligations.MemoryStaysCanonical : Prop :=
  ∀ s t : State, MemOk s → step s = .next t → MemOk t
end

