-- ==== Sys2Proof/Laws/Encoding.lean ====
section
/-! SUPPORT. Packing and unpacking the fields of a word, and for each format of R54 how a word that the encoder packs is
read: what the lemmas of PerInstr.lean cite. -/

namespace Sys2Proof

/-- Every value of a list of fields fits its width. -/
def fits (l : List (Nat × Nat)) : Prop := ∀ e ∈ l, e.2 < 2 ^ e.1

@[simp] theorem fits_nil : fits [] := by simp [fits]

@[simp] theorem fits_cons (w v : Nat) (r : List (Nat × Nat)) : fits ((w, v) :: r) ↔ v < 2 ^ w ∧ fits r := by simp [fits]

@[simp] theorem unpack_nil (w : Nat) : unpack [] w = [] := rfl

/-- One field comes back, and the rest of the word is the rest of the fields. -/
theorem unpack_pack_cons {w v : Nat} (ws : List Nat) (r : List (Nat × Nat)) (h : v < 2 ^ w) :
    unpack (w :: ws) (pack ((w, v) :: r)) = v :: unpack ws (pack r) := by
  simp only [unpack, pack, Nat.add_mul_mod_self_left, Nat.mod_eq_of_lt h, Nat.add_mul_div_left _ _ (Nat.two_pow_pos w),
    Nat.div_eq_of_lt h, Nat.zero_add]

/-- A number that fits the first field, read as fields. -/
theorem unpack_small {w v : Nat} (ws : List Nat) (h : v < 2 ^ w) : unpack (w :: ws) v = v :: unpack ws 0 := by
  simp only [unpack, Nat.mod_eq_of_lt h, Nat.div_eq_of_lt h]

@[simp] theorem unpack_zero (w : Nat) (ws : List Nat) : unpack (w :: ws) 0 = 0 :: unpack ws 0 := by simp [unpack]

@[simp] theorem pack_zeros (w v : Nat) : pack [(w, 0), (v, 0)] = 0 := rfl

/-- Fields that fit come back from the word that holds them. -/
theorem unpack_pack (l : List (Nat × Nat)) (h : fits l) : unpack (l.map (·.1)) (pack l) = l.map (·.2) := by
  induction l with
  | nil => rfl
  | cons e r ih =>
    obtain ⟨w, v⟩ := e
    rw [fits_cons] at h
    rw [List.map_cons, unpack_pack_cons _ _ h.1, ih h.2, List.map_cons]

/-- Fields that fit make a word of the sum of their widths. -/
theorem pack_lt (l : List (Nat × Nat)) (h : fits l) : pack l < 2 ^ (l.map (·.1)).sum := by
  induction l with
  | nil => simp [pack]
  | cons e r ih =>
    obtain ⟨w, v⟩ := e
    rw [fits_cons] at h
    simp only [pack, List.map_cons, List.sum_cons, Nat.pow_add]
    calc v + 2 ^ w * pack r < 2 ^ w * (pack r + 1) := by rw [Nat.mul_add]; omega
      _ ≤ _ := Nat.mul_le_mul_left _ (ih h.2)

/-- The decoder of the space that a length code names. -/
def decodeSpace (code op w : Nat) : Dec :=
  match code with
  | 0 => decode64 op w
  | 1 => decode96 op w
  | _ => decode128 op w

/-- A packed word reaches the decoder of its space with its opcode, and fits its length. -/
theorem decodeWord_pack {code op n : Nat} {r : List (Nat × Nat)} (hf : fits ((2, code) :: (8, op) :: r))
    (hl : lengthOf code = some n) (hs : 10 + (r.map (·.1)).sum = 8 * n) :
    let w := pack ((2, code) :: (8, op) :: r)
    w < 2 ^ (8 * n) ∧ lengthOf w = some n ∧ decodeWord w = decodeSpace code op w := by
  have hb := pack_lt _ hf
  simp only [List.map_cons, List.sum_cons, ← Nat.add_assoc] at hb
  rw [show 2 + 8 = 10 from rfl, hs] at hb
  rw [fits_cons, fits_cons] at hf
  have h4 : pack ((2, code) :: (8, op) :: r) % 4 = code := by simp only [pack]; omega
  have h8 : pack ((2, code) :: (8, op) :: r) / 4 % 256 = op := by simp only [pack]; omega
  have hc : code = 0 ∨ code = 1 ∨ code = 2 := by
    have := hf.1
    rcases (by omega : code = 0 ∨ code = 1 ∨ code = 2 ∨ code = 3) with h | h | h | h
    · exact .inl h
    · exact .inr (.inl h)
    · exact .inr (.inr h)
    · subst h; simp [lengthOf] at hl
  refine ⟨hb, ?_, ?_⟩
  · rw [← hl]
    unfold lengthOf
    rw [h4]
    rcases hc with rfl | rfl | rfl <;> rfl
  · have hn : n = 8 + 4 * code := by rcases hc with rfl | rfl | rfl <;> simp [lengthOf] at hl <;> omega
    subst hn
    unfold decodeWord decodeSpace
    rw [h4, h8]
    rcases hc with rfl | rfl | rfl
    · exact congrArg (decode64 op) (Nat.mod_eq_of_lt hb)
    · exact congrArg (decode96 op) (Nat.mod_eq_of_lt hb)
    · exact congrArg (decode128 op) (Nat.mod_eq_of_lt hb)

/-! Codes: each fits its field and comes back. -/

@[simp] theorem regOf_val (r : Reg) : regOf r.val = r := by simp [regOf]
@[simp] theorem cntOf_val (r : Cnt) : cntOf r.val = r := by simp [cntOf]
@[simp] theorem gdOf_val (r : Guard) : gdOf r.val = r := by simp [gdOf]
@[simp] theorem predOf_val (r : Pred) : predOf r.val = r := by simp [predOf]
@[simp] theorem vregOf_val (r : VReg) : vregOf r.val = r := by simp [vregOf]
@[simp] theorem flag_bit (b : Bool) : flag (bit b) = b := by cases b <;> rfl
@[simp] theorem flag_bit_mod (b : Bool) : flag (bit b % 2) = b := by cases b <;> rfl
@[simp] theorem bit_div (b : Bool) : bit b / 2 = 0 := by cases b <;> rfl
@[simp] theorem Scope.ofCode_zero : Scope.ofCode 0 = some .core := rfl
@[simp] theorem Space.a_code : Space.a.code = 1 := rfl
@[simp] theorem RoundMode.rne_code : RoundMode.rne.code = 0 := rfl
@[simp] theorem noOrder_sc : noOrder.sc.code = 0 := rfl
@[simp] theorem noOrder_acq : bit noOrder.acq = 0 := rfl
@[simp] theorem noOrder_rel : bit noOrder.rel = 0 := rfl
@[simp] theorem bit_true : bit true = 1 := rfl
@[simp] theorem bit_false : bit false = 0 := rfl
theorem bit_lt (b : Bool) : bit b < 2 := by cases b <;> decide
@[simp] theorem Cond.ofCode_code (x : Cond) : Cond.ofCode x.code = some x := by cases x <;> rfl
theorem Cond.code_lt (x : Cond) : x.code < 10 := by cases x <;> decide
@[simp] theorem Scope.ofCode_code (x : Scope) : Scope.ofCode x.code = some x := by cases x <;> rfl
theorem Scope.code_lt (x : Scope) : x.code < 7 := by cases x <;> decide
@[simp] theorem ElemType.ofCode_code (x : ElemType) : ElemType.ofCode x.code = some x := by cases x <;> rfl
theorem ElemType.code_lt (x : ElemType) : x.code < 12 := by cases x <;> decide
@[simp] theorem RoundMode.ofCode_code (x : RoundMode) : RoundMode.ofCode x.code = some x := by cases x <;> rfl
theorem RoundMode.code_lt (x : RoundMode) : x.code < 5 := by cases x <;> decide
@[simp] theorem Size.ofCode_code (x : Size) : Size.ofCode x.code = some x := by cases x <;> rfl
theorem Size.code_lt (x : Size) : x.code < 4 := by cases x <;> decide
@[simp] theorem VoteOp.ofCode_code (x : VoteOp) : VoteOp.ofCode x.code = some x := by cases x <;> rfl
theorem VoteOp.code_lt (x : VoteOp) : x.code < 4 := by cases x <;> decide
@[simp] theorem PlogOp.ofCode_code (x : PlogOp) : PlogOp.ofCode x.code = some x := by cases x <;> rfl
theorem PlogOp.code_lt (x : PlogOp) : x.code < 6 := by cases x <;> decide
@[simp] theorem PcntMode.ofCode_code (x : PcntMode) : PcntMode.ofCode x.code = some x := by cases x <;> rfl
theorem PcntMode.code_lt (x : PcntMode) : x.code < 3 := by cases x <;> decide
@[simp] theorem RedOp.ofCode_code (x : RedOp) : RedOp.ofCode x.code = some x := by cases x <;> rfl
theorem RedOp.code_lt (x : RedOp) : x.code < 3 := by cases x <;> decide
@[simp] theorem FnOp.ofCode_code (x : FnOp) : FnOp.ofCode x.code = some x := by cases x <;> rfl
theorem FnOp.code_lt (x : FnOp) : x.code < 8 := by cases x <;> decide
@[simp] theorem Where.ofCode_code (x : Where) : Where.ofCode x.code = some x := by cases x <;> rfl
theorem Where.code_lt (x : Where) : x.code < 3 := by cases x <;> decide
@[simp] theorem Reach.ofCode_code (x : Reach) : Reach.ofCode x.code = some x := by cases x <;> rfl
theorem Reach.code_lt (x : Reach) : x.code < 3 := by cases x <;> decide
@[simp] theorem Level.ofCode_code (x : Level) : Level.ofCode x.code = some x := by cases x <;> rfl
theorem Level.code_lt (x : Level) : x.code < 4 := by cases x <;> decide
@[simp] theorem Space.ofCode_code (x : Space) : Space.ofCode x.code = x := by cases x <;> rfl
theorem Space.code_lt (x : Space) : x.code < 4 := by cases x <;> decide
@[simp] theorem GroupSize.ofCode_code (x : GroupSize) : GroupSize.ofCode x.code = x := by cases x <;> rfl
theorem GroupSize.code_lt (x : GroupSize) : x.code < 4 := by cases x <;> decide

end Sys2Proof
end

