-- ==== Sys2Proof/Laws/Maps.lean ====
section
/-! SUPPORT. Laws of sparse maps and byte stores: reading after writing, reading elsewhere, and that every operation which
writes a store keeps its canonical form. -/

namespace Sys2Proof

/-! Reading after writing. -/

theorem AMap.get_put {α : Type} (d : α) (m : AMap α) (k j : Nat) (v : α) :
    AMap.get d (m.put k v) j = if k = j then v else AMap.get d m j := by
  induction m with
  | nil => simp [AMap.put, AMap.get]
  | cons e r ih =>
    obtain ⟨k', v'⟩ := e
    simp only [AMap.put]
    split
    · next h => subst h; simp only [AMap.get]; split <;> simp_all
    · split
      · simp only [AMap.get]
      · simp only [AMap.get, ih]
        split
        · next h => subst h; rw [if_neg (by omega)]
        · rfl

@[simp] theorem AMap.get_put_same {α : Type} (d : α) (m : AMap α) (k : Nat) (v : α) : AMap.get d (m.put k v) k = v := by
  simp [AMap.get_put]

theorem AMap.get_put_other {α : Type} (d : α) (m : AMap α) {k j : Nat} (v : α) (h : j ≠ k) :
    AMap.get d (m.put k v) j = AMap.get d m j := by
  rw [AMap.get_put, if_neg (fun e => h e.symm)]

theorem AMap.get_erase {α : Type} (d : α) (m : AMap α) (k j : Nat) :
    AMap.get d (m.erase k) j = if k = j then d else AMap.get d m j := by
  induction m with
  | nil => simp [AMap.erase, AMap.get]
  | cons e r ih =>
    obtain ⟨k', v'⟩ := e
    by_cases h : k' = k
    · subst h
      have : AMap.erase ((k', v') :: r) k' = AMap.erase r k' := by simp [AMap.erase]
      rw [this, ih]
      simp only [AMap.get]
      split <;> rfl
    · have : AMap.erase ((k', v') :: r) k = (k', v') :: AMap.erase r k := by simp [AMap.erase, h]
      rw [this]
      simp only [AMap.get, ih]
      split
      · next e => subst e; rw [if_neg (fun e => h e.symm)]
      · rfl

theorem AMap.get_set {α : Type} [DecidableEq α] (d : α) (m : AMap α) (k j : Nat) (v : α) :
    AMap.get d (m.set d k v) j = if k = j then v else AMap.get d m j := by
  unfold AMap.set
  split
  · next h => subst h; exact AMap.get_erase _ _ _ _
  · exact AMap.get_put _ _ _ _ _

@[simp] theorem AMap.get_nil {α : Type} (d : α) (j : Nat) : AMap.get d [] j = d := rfl

@[simp] theorem Mem.get_nil (j : Nat) : Mem.get [] j = 0 := rfl

theorem Mem.get_set (m : Mem) (a b : Nat) (v : Byte) : (m.set a v).get b = if a = b then v else m.get b :=
  AMap.get_set _ _ _ _ _

theorem Mem.get_write (m : Mem) (a b : Nat) (bs : List Byte) :
    (m.write a bs).get b = if a ≤ b ∧ b < a + bs.length then bs.getD (b - a) 0 else m.get b := by
  induction bs generalizing m a with
  | nil => rw [if_neg (by simp only [List.length_nil]; omega), Mem.write]
  | cons x r ih =>
    simp only [Mem.write, ih, Mem.get_set, List.length_cons]
    by_cases h : a = b
    · subst h
      rw [if_neg (by omega), if_pos (by omega)]
      simp
    · by_cases h2 : a + 1 ≤ b ∧ b < a + 1 + r.length
      · rw [if_pos h2, if_pos (by omega)]
        have : b - a = (b - (a + 1)) + 1 := by omega
        rw [this, List.getD_cons_succ]
      · rw [if_neg h2, if_neg h, if_neg (by omega)]

@[simp] theorem Mem.length_read (m : Mem) (a n : Nat) : (m.read a n).length = n := by
  induction n generalizing a with
  | zero => rfl
  | succ n ih => simp [Mem.read, ih]

theorem Mem.read_write_same (m : Mem) (a : Nat) (bs : List Byte) : (m.write a bs).read a bs.length = bs := by
  suffices h : ∀ n k, k + n = bs.length → (m.write a bs).read (a + k) n = bs.drop k by simpa using h bs.length 0 (by omega)
  intro n
  induction n with
  | zero => intro k hk; simp [Mem.read]; omega
  | succ n ih =>
    intro k hk
    have h1 := ih (k + 1) (by omega)
    have hk' : k < bs.length := by omega
    rw [Mem.read, show a + k + 1 = a + (k + 1) by omega, h1, Mem.get_write, if_pos (by omega)]
    rw [List.drop_eq_getElem_cons hk']
    simp [List.getD_eq_getElem?_getD, hk']

theorem Mem.read_write_apart (m : Mem) (a : Nat) (bs : List Byte) (b n : Nat) (h : b + n ≤ a ∨ a + bs.length ≤ b) :
    (m.write a bs).read b n = m.read b n := by
  induction n generalizing b with
  | zero => rfl
  | succ n ih =>
    rw [Mem.read, Mem.read, ih (b + 1) (by omega), Mem.get_write, if_neg (by omega)]

/-! The canonical form. -/

/-- All keys of a map lie above a bound. -/
def AMap.above {α : Type} (k : Nat) (m : AMap α) : Prop := ∀ e ∈ m, k < e.1

theorem AMap.sorted_cons {α : Type} (k : Nat) (v : α) (m : AMap α) :
    AMap.sorted ((k, v) :: m) = true ↔ AMap.above k m ∧ AMap.sorted m = true := by
  induction m generalizing k v with
  | nil => simp [AMap.sorted, AMap.above]
  | cons e r ih =>
    obtain ⟨k', v'⟩ := e
    rw [AMap.sorted]
    simp only [Bool.and_eq_true, decide_eq_true_eq]
    constructor
    · rintro ⟨h1, h2⟩
      refine ⟨fun e he => ?_, h2⟩
      rcases List.mem_cons.1 he with rfl | he
      · exact h1
      · exact Nat.lt_trans h1 (((ih k' v').1 h2).1 e he)
    · rintro ⟨h1, h2⟩
      exact ⟨h1 (k', v') (by simp), h2⟩

theorem AMap.above_put {α : Type} {b k : Nat} {v : α} {m : AMap α} (h : AMap.above b m) (hk : b < k) :
    AMap.above b (m.put k v) := by
  induction m with
  | nil => intro e he; simp [AMap.put] at he; subst he; exact hk
  | cons e r ih =>
    obtain ⟨k', v'⟩ := e
    have hr : AMap.above b r := fun e he => h e (by simp [he])
    have hk' : b < k' := h (k', v') (by simp)
    simp only [AMap.put]
    intro e he
    split at he
    · rcases List.mem_cons.1 he with rfl | he
      · exact hk
      · exact hr e he
    · split at he
      · rcases List.mem_cons.1 he with rfl | he
        · exact hk
        · exact h e he
      · rcases List.mem_cons.1 he with rfl | he
        · exact hk'
        · exact ih hr e he

theorem AMap.sorted_put {α : Type} (k : Nat) (v : α) (m : AMap α) (h : AMap.sorted m = true) :
    AMap.sorted (m.put k v) = true := by
  induction m with
  | nil => rfl
  | cons e r ih =>
    obtain ⟨k', v'⟩ := e
    obtain ⟨ha, hs⟩ := (AMap.sorted_cons _ _ _).1 h
    simp only [AMap.put]
    split
    · next e => subst e; exact (AMap.sorted_cons _ _ _).2 ⟨ha, hs⟩
    · split
      · next hlt =>
        refine (AMap.sorted_cons _ _ _).2 ⟨fun e he => ?_, h⟩
        rcases List.mem_cons.1 he with rfl | he
        · exact hlt
        · exact Nat.lt_trans hlt (ha e he)
      · exact (AMap.sorted_cons _ _ _).2 ⟨AMap.above_put ha (by omega), ih hs⟩

theorem AMap.sorted_filter {α : Type} (p : Nat × α → Bool) (m : AMap α) (h : AMap.sorted m = true) :
    AMap.sorted (m.filter p) = true := by
  induction m with
  | nil => rfl
  | cons e r ih =>
    obtain ⟨k', v'⟩ := e
    obtain ⟨ha, hs⟩ := (AMap.sorted_cons _ _ _).1 h
    rw [List.filter_cons]
    split
    · exact (AMap.sorted_cons _ _ _).2 ⟨fun e he => ha e (List.mem_filter.1 he).1, ih hs⟩
    · exact ih hs

theorem AMap.mem_put {α : Type} {k : Nat} {v : α} {m : AMap α} {e : Nat × α} (h : e ∈ m.put k v) : e = (k, v) ∨ e ∈ m := by
  induction m with
  | nil => simp [AMap.put] at h; exact .inl h
  | cons x r ih =>
    obtain ⟨k', v'⟩ := x
    simp only [AMap.put] at h
    split at h
    · rcases List.mem_cons.1 h with h | h
      · exact .inl h
      · exact .inr (by simp [h])
    · split at h
      · rcases List.mem_cons.1 h with h | h
        · exact .inl h
        · exact .inr h
      · rcases List.mem_cons.1 h with h | h
        · exact .inr (by simp [h])
        · rcases ih h with h | h
          · exact .inl h
          · exact .inr (by simp [h])

theorem AMap.wf_iff {α : Type} [DecidableEq α] (d : α) (m : AMap α) :
    AMap.wf d m = true ↔ AMap.sorted m = true ∧ ∀ e ∈ m, e.2 ≠ d := by
  simp [AMap.wf]

theorem AMap.wf_filter {α : Type} [DecidableEq α] (d : α) (p : Nat × α → Bool) (m : AMap α) (h : AMap.wf d m = true) :
    AMap.wf d (m.filter p) = true := by
  obtain ⟨hs, hd⟩ := (AMap.wf_iff d m).1 h
  exact (AMap.wf_iff d _).2 ⟨AMap.sorted_filter p m hs, fun e he => hd e (List.mem_filter.1 he).1⟩

/-- Writing a value keeps the canonical form, whatever the value. -/
theorem AMap.wf_set {α : Type} [DecidableEq α] (d : α) (m : AMap α) (k : Nat) (v : α) (h : AMap.wf d m = true) :
    AMap.wf d (m.set d k v) = true := by
  obtain ⟨hs, hd⟩ := (AMap.wf_iff d m).1 h
  unfold AMap.set
  split
  · exact AMap.wf_filter d _ m h
  · next hv =>
    refine (AMap.wf_iff d _).2 ⟨AMap.sorted_put k v m hs, fun e he => ?_⟩
    rcases AMap.mem_put he with rfl | he
    · exact hv
    · exact hd e he

theorem AMap.wf_clear {α : Type} [DecidableEq α] (d : α) (m : AMap α) (lo n : Nat) (h : AMap.wf d m = true) :
    AMap.wf d (m.clear lo n) = true := AMap.wf_filter d _ m h

theorem AMap.wf_over {α : Type} [DecidableEq α] (d : α) (m n : AMap α) (h : AMap.wf d m = true) :
    AMap.wf d (m.over d n) = true := by
  induction n generalizing m with
  | nil => exact h
  | cons e r ih => exact ih _ (AMap.wf_set d m e.1 e.2 h)

theorem Mem.wf_nil : Mem.wf [] = true := rfl

theorem Mem.wf_set (m : Mem) (a : Nat) (v : Byte) (h : m.wf = true) : (m.set a v).wf = true := AMap.wf_set 0 m a v h

theorem Mem.wf_write (m : Mem) (a : Nat) (bs : List Byte) (h : m.wf = true) : (m.write a bs).wf = true := by
  induction bs generalizing m a with
  | nil => exact h
  | cons x r ih => exact ih _ _ (Mem.wf_set m a x h)

theorem Mem.wf_setNum (m : Mem) (a n v : Nat) (h : m.wf = true) : (m.setNum a n v).wf = true := Mem.wf_write m a _ h

end Sys2Proof
end

