-- ==== Sys2Proof/Laws/State.lean ====
section
/-! SUPPORT. One lemma per field and update of the state, so that no later proof unfolds a record update; and reading a
register after writing one. -/

namespace Sys2Proof.Machine

open Sys2Proof

/-! modCore. -/

@[simp] theorem State.modCore_agenda (s : State) (c : Nat) (f : Core → Core) : (s.modCore c f).agenda = s.agenda := rfl
@[simp] theorem State.modCore_curCore (s : State) (c : Nat) (f : Core → Core) : (s.modCore c f).curCore = s.curCore := rfl
@[simp] theorem State.modCore_curCtx (s : State) (c : Nat) (f : Core → Core) : (s.modCore c f).curCtx = s.curCtx := rfl
@[simp] theorem State.modCore_freeCtr (s : State) (c : Nat) (f : Core → Core) : (s.modCore c f).freeCtr = s.freeCtr := rfl
@[simp] theorem State.modCore_cycle (s : State) (c : Nat) (f : Core → Core) : (s.modCore c f).cycle = s.cycle := rfl
@[simp] theorem State.modCore_slotCycle (s : State) (c : Nat) (f : Core → Core) : (s.modCore c f).slotCycle = s.slotCycle := rfl
@[simp] theorem State.modCore_slotNext (s : State) (c : Nat) (f : Core → Core) : (s.modCore c f).slotNext = s.slotNext := rfl
@[simp] theorem State.modCore_cores (s : State) (c : Nat) (f : Core → Core) : (s.modCore c f).cores = s.cores.put c (f (s.core c)) := rfl
@[simp] theorem State.modCore_clusters (s : State) (c : Nat) (f : Core → Core) : (s.modCore c f).clusters = s.clusters := rfl
@[simp] theorem State.modCore_dies (s : State) (c : Nat) (f : Core → Core) : (s.modCore c f).dies = s.dies := rfl
@[simp] theorem State.modCore_flat (s : State) (c : Nat) (f : Core → Core) : (s.modCore c f).flat = s.flat := rfl
@[simp] theorem State.modCore_sys (s : State) (c : Nat) (f : Core → Core) : (s.modCore c f).sys = s.sys := rfl
@[simp] theorem State.modCore_host (s : State) (c : Nat) (f : Core → Core) : (s.modCore c f).host = s.host := rfl
@[simp] theorem State.modCore_fab (s : State) (c : Nat) (f : Core → Core) : (s.modCore c f).fab = s.fab := rfl

/-! modCtx. -/

@[simp] theorem State.modCtx_agenda (s : State) (c h : Nat) (f : Ctx → Ctx) : (s.modCtx c h f).agenda = s.agenda := rfl
@[simp] theorem State.modCtx_curCore (s : State) (c h : Nat) (f : Ctx → Ctx) : (s.modCtx c h f).curCore = s.curCore := rfl
@[simp] theorem State.modCtx_curCtx (s : State) (c h : Nat) (f : Ctx → Ctx) : (s.modCtx c h f).curCtx = s.curCtx := rfl
@[simp] theorem State.modCtx_freeCtr (s : State) (c h : Nat) (f : Ctx → Ctx) : (s.modCtx c h f).freeCtr = s.freeCtr := rfl
@[simp] theorem State.modCtx_cycle (s : State) (c h : Nat) (f : Ctx → Ctx) : (s.modCtx c h f).cycle = s.cycle := rfl
@[simp] theorem State.modCtx_slotCycle (s : State) (c h : Nat) (f : Ctx → Ctx) : (s.modCtx c h f).slotCycle = s.slotCycle := rfl
@[simp] theorem State.modCtx_slotNext (s : State) (c h : Nat) (f : Ctx → Ctx) : (s.modCtx c h f).slotNext = s.slotNext := rfl
@[simp] theorem State.modCtx_cores (s : State) (c h : Nat) (f : Ctx → Ctx) : (s.modCtx c h f).cores = s.cores.put c ((s.core c).modCtx h f) := rfl
@[simp] theorem State.modCtx_clusters (s : State) (c h : Nat) (f : Ctx → Ctx) : (s.modCtx c h f).clusters = s.clusters := rfl
@[simp] theorem State.modCtx_dies (s : State) (c h : Nat) (f : Ctx → Ctx) : (s.modCtx c h f).dies = s.dies := rfl
@[simp] theorem State.modCtx_flat (s : State) (c h : Nat) (f : Ctx → Ctx) : (s.modCtx c h f).flat = s.flat := rfl
@[simp] theorem State.modCtx_sys (s : State) (c h : Nat) (f : Ctx → Ctx) : (s.modCtx c h f).sys = s.sys := rfl
@[simp] theorem State.modCtx_host (s : State) (c h : Nat) (f : Ctx → Ctx) : (s.modCtx c h f).host = s.host := rfl
@[simp] theorem State.modCtx_fab (s : State) (c h : Nat) (f : Ctx → Ctx) : (s.modCtx c h f).fab = s.fab := rfl

/-! modHome. -/

@[simp] theorem State.modHome_agenda (s : State) (f : Core → Core) : (s.modHome f).agenda = s.agenda := rfl
@[simp] theorem State.modHome_curCore (s : State) (f : Core → Core) : (s.modHome f).curCore = s.curCore := rfl
@[simp] theorem State.modHome_curCtx (s : State) (f : Core → Core) : (s.modHome f).curCtx = s.curCtx := rfl
@[simp] theorem State.modHome_freeCtr (s : State) (f : Core → Core) : (s.modHome f).freeCtr = s.freeCtr := rfl
@[simp] theorem State.modHome_cycle (s : State) (f : Core → Core) : (s.modHome f).cycle = s.cycle := rfl
@[simp] theorem State.modHome_slotCycle (s : State) (f : Core → Core) : (s.modHome f).slotCycle = s.slotCycle := rfl
@[simp] theorem State.modHome_slotNext (s : State) (f : Core → Core) : (s.modHome f).slotNext = s.slotNext := rfl
@[simp] theorem State.modHome_cores (s : State) (f : Core → Core) : (s.modHome f).cores = s.cores.put s.curCore (f s.home) := rfl
@[simp] theorem State.modHome_clusters (s : State) (f : Core → Core) : (s.modHome f).clusters = s.clusters := rfl
@[simp] theorem State.modHome_dies (s : State) (f : Core → Core) : (s.modHome f).dies = s.dies := rfl
@[simp] theorem State.modHome_flat (s : State) (f : Core → Core) : (s.modHome f).flat = s.flat := rfl
@[simp] theorem State.modHome_sys (s : State) (f : Core → Core) : (s.modHome f).sys = s.sys := rfl
@[simp] theorem State.modHome_host (s : State) (f : Core → Core) : (s.modHome f).host = s.host := rfl
@[simp] theorem State.modHome_fab (s : State) (f : Core → Core) : (s.modHome f).fab = s.fab := rfl

/-! modMe. -/

@[simp] theorem State.modMe_agenda (s : State) (f : Ctx → Ctx) : (s.modMe f).agenda = s.agenda := rfl
@[simp] theorem State.modMe_curCore (s : State) (f : Ctx → Ctx) : (s.modMe f).curCore = s.curCore := rfl
@[simp] theorem State.modMe_curCtx (s : State) (f : Ctx → Ctx) : (s.modMe f).curCtx = s.curCtx := rfl
@[simp] theorem State.modMe_freeCtr (s : State) (f : Ctx → Ctx) : (s.modMe f).freeCtr = s.freeCtr := rfl
@[simp] theorem State.modMe_cycle (s : State) (f : Ctx → Ctx) : (s.modMe f).cycle = s.cycle := rfl
@[simp] theorem State.modMe_slotCycle (s : State) (f : Ctx → Ctx) : (s.modMe f).slotCycle = s.slotCycle := rfl
@[simp] theorem State.modMe_slotNext (s : State) (f : Ctx → Ctx) : (s.modMe f).slotNext = s.slotNext := rfl
@[simp] theorem State.modMe_cores (s : State) (f : Ctx → Ctx) : (s.modMe f).cores = s.cores.put s.curCore (s.home.modCtx s.curCtx f) := rfl
@[simp] theorem State.modMe_clusters (s : State) (f : Ctx → Ctx) : (s.modMe f).clusters = s.clusters := rfl
@[simp] theorem State.modMe_dies (s : State) (f : Ctx → Ctx) : (s.modMe f).dies = s.dies := rfl
@[simp] theorem State.modMe_flat (s : State) (f : Ctx → Ctx) : (s.modMe f).flat = s.flat := rfl
@[simp] theorem State.modMe_sys (s : State) (f : Ctx → Ctx) : (s.modMe f).sys = s.sys := rfl
@[simp] theorem State.modMe_host (s : State) (f : Ctx → Ctx) : (s.modMe f).host = s.host := rfl
@[simp] theorem State.modMe_fab (s : State) (f : Ctx → Ctx) : (s.modMe f).fab = s.fab := rfl

/-! modCluster. -/

@[simp] theorem State.modCluster_agenda (s : State) (k : Nat) (f : Cluster → Cluster) : (s.modCluster k f).agenda = s.agenda := rfl
@[simp] theorem State.modCluster_curCore (s : State) (k : Nat) (f : Cluster → Cluster) : (s.modCluster k f).curCore = s.curCore := rfl
@[simp] theorem State.modCluster_curCtx (s : State) (k : Nat) (f : Cluster → Cluster) : (s.modCluster k f).curCtx = s.curCtx := rfl
@[simp] theorem State.modCluster_freeCtr (s : State) (k : Nat) (f : Cluster → Cluster) : (s.modCluster k f).freeCtr = s.freeCtr := rfl
@[simp] theorem State.modCluster_cycle (s : State) (k : Nat) (f : Cluster → Cluster) : (s.modCluster k f).cycle = s.cycle := rfl
@[simp] theorem State.modCluster_slotCycle (s : State) (k : Nat) (f : Cluster → Cluster) : (s.modCluster k f).slotCycle = s.slotCycle := rfl
@[simp] theorem State.modCluster_slotNext (s : State) (k : Nat) (f : Cluster → Cluster) : (s.modCluster k f).slotNext = s.slotNext := rfl
@[simp] theorem State.modCluster_cores (s : State) (k : Nat) (f : Cluster → Cluster) : (s.modCluster k f).cores = s.cores := rfl
@[simp] theorem State.modCluster_clusters (s : State) (k : Nat) (f : Cluster → Cluster) : (s.modCluster k f).clusters = s.clusters.put k (f (s.cluster k)) := rfl
@[simp] theorem State.modCluster_dies (s : State) (k : Nat) (f : Cluster → Cluster) : (s.modCluster k f).dies = s.dies := rfl
@[simp] theorem State.modCluster_flat (s : State) (k : Nat) (f : Cluster → Cluster) : (s.modCluster k f).flat = s.flat := rfl
@[simp] theorem State.modCluster_sys (s : State) (k : Nat) (f : Cluster → Cluster) : (s.modCluster k f).sys = s.sys := rfl
@[simp] theorem State.modCluster_host (s : State) (k : Nat) (f : Cluster → Cluster) : (s.modCluster k f).host = s.host := rfl
@[simp] theorem State.modCluster_fab (s : State) (k : Nat) (f : Cluster → Cluster) : (s.modCluster k f).fab = s.fab := rfl

/-! modDie. -/

@[simp] theorem State.modDie_agenda (s : State) (d : Nat) (f : Die → Die) : (s.modDie d f).agenda = s.agenda := rfl
@[simp] theorem State.modDie_curCore (s : State) (d : Nat) (f : Die → Die) : (s.modDie d f).curCore = s.curCore := rfl
@[simp] theorem State.modDie_curCtx (s : State) (d : Nat) (f : Die → Die) : (s.modDie d f).curCtx = s.curCtx := rfl
@[simp] theorem State.modDie_freeCtr (s : State) (d : Nat) (f : Die → Die) : (s.modDie d f).freeCtr = s.freeCtr := rfl
@[simp] theorem State.modDie_cycle (s : State) (d : Nat) (f : Die → Die) : (s.modDie d f).cycle = s.cycle := rfl
@[simp] theorem State.modDie_slotCycle (s : State) (d : Nat) (f : Die → Die) : (s.modDie d f).slotCycle = s.slotCycle := rfl
@[simp] theorem State.modDie_slotNext (s : State) (d : Nat) (f : Die → Die) : (s.modDie d f).slotNext = s.slotNext := rfl
@[simp] theorem State.modDie_cores (s : State) (d : Nat) (f : Die → Die) : (s.modDie d f).cores = s.cores := rfl
@[simp] theorem State.modDie_clusters (s : State) (d : Nat) (f : Die → Die) : (s.modDie d f).clusters = s.clusters := rfl
@[simp] theorem State.modDie_dies (s : State) (d : Nat) (f : Die → Die) : (s.modDie d f).dies = s.dies.put d (f (s.die d)) := rfl
@[simp] theorem State.modDie_flat (s : State) (d : Nat) (f : Die → Die) : (s.modDie d f).flat = s.flat := rfl
@[simp] theorem State.modDie_sys (s : State) (d : Nat) (f : Die → Die) : (s.modDie d f).sys = s.sys := rfl
@[simp] theorem State.modDie_host (s : State) (d : Nat) (f : Die → Die) : (s.modDie d f).host = s.host := rfl
@[simp] theorem State.modDie_fab (s : State) (d : Nat) (f : Die → Die) : (s.modDie d f).fab = s.fab := rfl

/-! modSys. -/

@[simp] theorem State.modSys_agenda (s : State) (f : SysDie → SysDie) : (s.modSys f).agenda = s.agenda := rfl
@[simp] theorem State.modSys_curCore (s : State) (f : SysDie → SysDie) : (s.modSys f).curCore = s.curCore := rfl
@[simp] theorem State.modSys_curCtx (s : State) (f : SysDie → SysDie) : (s.modSys f).curCtx = s.curCtx := rfl
@[simp] theorem State.modSys_freeCtr (s : State) (f : SysDie → SysDie) : (s.modSys f).freeCtr = s.freeCtr := rfl
@[simp] theorem State.modSys_cycle (s : State) (f : SysDie → SysDie) : (s.modSys f).cycle = s.cycle := rfl
@[simp] theorem State.modSys_slotCycle (s : State) (f : SysDie → SysDie) : (s.modSys f).slotCycle = s.slotCycle := rfl
@[simp] theorem State.modSys_slotNext (s : State) (f : SysDie → SysDie) : (s.modSys f).slotNext = s.slotNext := rfl
@[simp] theorem State.modSys_cores (s : State) (f : SysDie → SysDie) : (s.modSys f).cores = s.cores := rfl
@[simp] theorem State.modSys_clusters (s : State) (f : SysDie → SysDie) : (s.modSys f).clusters = s.clusters := rfl
@[simp] theorem State.modSys_dies (s : State) (f : SysDie → SysDie) : (s.modSys f).dies = s.dies := rfl
@[simp] theorem State.modSys_flat (s : State) (f : SysDie → SysDie) : (s.modSys f).flat = s.flat := rfl
@[simp] theorem State.modSys_sys (s : State) (f : SysDie → SysDie) : (s.modSys f).sys = f s.sys := rfl
@[simp] theorem State.modSys_host (s : State) (f : SysDie → SysDie) : (s.modSys f).host = s.host := rfl
@[simp] theorem State.modSys_fab (s : State) (f : SysDie → SysDie) : (s.modSys f).fab = s.fab := rfl

/-! modFlat. -/

@[simp] theorem State.modFlat_agenda (s : State) (f : Flat → Flat) : (s.modFlat f).agenda = s.agenda := rfl
@[simp] theorem State.modFlat_curCore (s : State) (f : Flat → Flat) : (s.modFlat f).curCore = s.curCore := rfl
@[simp] theorem State.modFlat_curCtx (s : State) (f : Flat → Flat) : (s.modFlat f).curCtx = s.curCtx := rfl
@[simp] theorem State.modFlat_freeCtr (s : State) (f : Flat → Flat) : (s.modFlat f).freeCtr = s.freeCtr := rfl
@[simp] theorem State.modFlat_cycle (s : State) (f : Flat → Flat) : (s.modFlat f).cycle = s.cycle := rfl
@[simp] theorem State.modFlat_slotCycle (s : State) (f : Flat → Flat) : (s.modFlat f).slotCycle = s.slotCycle := rfl
@[simp] theorem State.modFlat_slotNext (s : State) (f : Flat → Flat) : (s.modFlat f).slotNext = s.slotNext := rfl
@[simp] theorem State.modFlat_cores (s : State) (f : Flat → Flat) : (s.modFlat f).cores = s.cores := rfl
@[simp] theorem State.modFlat_clusters (s : State) (f : Flat → Flat) : (s.modFlat f).clusters = s.clusters := rfl
@[simp] theorem State.modFlat_dies (s : State) (f : Flat → Flat) : (s.modFlat f).dies = s.dies := rfl
@[simp] theorem State.modFlat_flat (s : State) (f : Flat → Flat) : (s.modFlat f).flat = f s.flat := rfl
@[simp] theorem State.modFlat_sys (s : State) (f : Flat → Flat) : (s.modFlat f).sys = s.sys := rfl
@[simp] theorem State.modFlat_host (s : State) (f : Flat → Flat) : (s.modFlat f).host = s.host := rfl
@[simp] theorem State.modFlat_fab (s : State) (f : Flat → Flat) : (s.modFlat f).fab = s.fab := rfl

/-! modHost. -/

@[simp] theorem State.modHost_agenda (s : State) (f : HostPort → HostPort) : (s.modHost f).agenda = s.agenda := rfl
@[simp] theorem State.modHost_curCore (s : State) (f : HostPort → HostPort) : (s.modHost f).curCore = s.curCore := rfl
@[simp] theorem State.modHost_curCtx (s : State) (f : HostPort → HostPort) : (s.modHost f).curCtx = s.curCtx := rfl
@[simp] theorem State.modHost_freeCtr (s : State) (f : HostPort → HostPort) : (s.modHost f).freeCtr = s.freeCtr := rfl
@[simp] theorem State.modHost_cycle (s : State) (f : HostPort → HostPort) : (s.modHost f).cycle = s.cycle := rfl
@[simp] theorem State.modHost_slotCycle (s : State) (f : HostPort → HostPort) : (s.modHost f).slotCycle = s.slotCycle := rfl
@[simp] theorem State.modHost_slotNext (s : State) (f : HostPort → HostPort) : (s.modHost f).slotNext = s.slotNext := rfl
@[simp] theorem State.modHost_cores (s : State) (f : HostPort → HostPort) : (s.modHost f).cores = s.cores := rfl
@[simp] theorem State.modHost_clusters (s : State) (f : HostPort → HostPort) : (s.modHost f).clusters = s.clusters := rfl
@[simp] theorem State.modHost_dies (s : State) (f : HostPort → HostPort) : (s.modHost f).dies = s.dies := rfl
@[simp] theorem State.modHost_flat (s : State) (f : HostPort → HostPort) : (s.modHost f).flat = s.flat := rfl
@[simp] theorem State.modHost_sys (s : State) (f : HostPort → HostPort) : (s.modHost f).sys = s.sys := rfl
@[simp] theorem State.modHost_host (s : State) (f : HostPort → HostPort) : (s.modHost f).host = f s.host := rfl
@[simp] theorem State.modHost_fab (s : State) (f : HostPort → HostPort) : (s.modHost f).fab = s.fab := rfl

/-! modFab. -/

@[simp] theorem State.modFab_agenda (s : State) (f : Fabric → Fabric) : (s.modFab f).agenda = s.agenda := rfl
@[simp] theorem State.modFab_curCore (s : State) (f : Fabric → Fabric) : (s.modFab f).curCore = s.curCore := rfl
@[simp] theorem State.modFab_curCtx (s : State) (f : Fabric → Fabric) : (s.modFab f).curCtx = s.curCtx := rfl
@[simp] theorem State.modFab_freeCtr (s : State) (f : Fabric → Fabric) : (s.modFab f).freeCtr = s.freeCtr := rfl
@[simp] theorem State.modFab_cycle (s : State) (f : Fabric → Fabric) : (s.modFab f).cycle = s.cycle := rfl
@[simp] theorem State.modFab_slotCycle (s : State) (f : Fabric → Fabric) : (s.modFab f).slotCycle = s.slotCycle := rfl
@[simp] theorem State.modFab_slotNext (s : State) (f : Fabric → Fabric) : (s.modFab f).slotNext = s.slotNext := rfl
@[simp] theorem State.modFab_cores (s : State) (f : Fabric → Fabric) : (s.modFab f).cores = s.cores := rfl
@[simp] theorem State.modFab_clusters (s : State) (f : Fabric → Fabric) : (s.modFab f).clusters = s.clusters := rfl
@[simp] theorem State.modFab_dies (s : State) (f : Fabric → Fabric) : (s.modFab f).dies = s.dies := rfl
@[simp] theorem State.modFab_flat (s : State) (f : Fabric → Fabric) : (s.modFab f).flat = s.flat := rfl
@[simp] theorem State.modFab_sys (s : State) (f : Fabric → Fabric) : (s.modFab f).sys = s.sys := rfl
@[simp] theorem State.modFab_host (s : State) (f : Fabric → Fabric) : (s.modFab f).host = s.host := rfl
@[simp] theorem State.modFab_fab (s : State) (f : Fabric → Fabric) : (s.modFab f).fab = f s.fab := rfl

/-! modSpace. -/

@[simp] theorem State.modSpace_agenda (s : State) (a : Nat) (f : AddrSpace → AddrSpace) : (s.modSpace a f).agenda = s.agenda := rfl
@[simp] theorem State.modSpace_curCore (s : State) (a : Nat) (f : AddrSpace → AddrSpace) : (s.modSpace a f).curCore = s.curCore := rfl
@[simp] theorem State.modSpace_curCtx (s : State) (a : Nat) (f : AddrSpace → AddrSpace) : (s.modSpace a f).curCtx = s.curCtx := rfl
@[simp] theorem State.modSpace_freeCtr (s : State) (a : Nat) (f : AddrSpace → AddrSpace) : (s.modSpace a f).freeCtr = s.freeCtr := rfl
@[simp] theorem State.modSpace_cycle (s : State) (a : Nat) (f : AddrSpace → AddrSpace) : (s.modSpace a f).cycle = s.cycle := rfl
@[simp] theorem State.modSpace_slotCycle (s : State) (a : Nat) (f : AddrSpace → AddrSpace) : (s.modSpace a f).slotCycle = s.slotCycle := rfl
@[simp] theorem State.modSpace_slotNext (s : State) (a : Nat) (f : AddrSpace → AddrSpace) : (s.modSpace a f).slotNext = s.slotNext := rfl
@[simp] theorem State.modSpace_cores (s : State) (a : Nat) (f : AddrSpace → AddrSpace) : (s.modSpace a f).cores = s.cores := rfl
@[simp] theorem State.modSpace_clusters (s : State) (a : Nat) (f : AddrSpace → AddrSpace) : (s.modSpace a f).clusters = s.clusters := rfl
@[simp] theorem State.modSpace_dies (s : State) (a : Nat) (f : AddrSpace → AddrSpace) : (s.modSpace a f).dies = s.dies := rfl
@[simp] theorem State.modSpace_flat (s : State) (a : Nat) (f : AddrSpace → AddrSpace) : (s.modSpace a f).flat = s.flat := rfl
@[simp] theorem State.modSpace_sys (s : State) (a : Nat) (f : AddrSpace → AddrSpace) : (s.modSpace a f).sys = { s.sys with spaces := s.sys.spaces.put a (f (s.space a)) } := rfl
@[simp] theorem State.modSpace_host (s : State) (a : Nat) (f : AddrSpace → AddrSpace) : (s.modSpace a f).host = s.host := rfl
@[simp] theorem State.modSpace_fab (s : State) (a : Nat) (f : AddrSpace → AddrSpace) : (s.modSpace a f).fab = s.fab := rfl

/-! modTeam. -/

@[simp] theorem State.modTeam_agenda (s : State) (t : Nat) (f : Team → Team) : (s.modTeam t f).agenda = s.agenda := rfl
@[simp] theorem State.modTeam_curCore (s : State) (t : Nat) (f : Team → Team) : (s.modTeam t f).curCore = s.curCore := rfl
@[simp] theorem State.modTeam_curCtx (s : State) (t : Nat) (f : Team → Team) : (s.modTeam t f).curCtx = s.curCtx := rfl
@[simp] theorem State.modTeam_freeCtr (s : State) (t : Nat) (f : Team → Team) : (s.modTeam t f).freeCtr = s.freeCtr := rfl
@[simp] theorem State.modTeam_cycle (s : State) (t : Nat) (f : Team → Team) : (s.modTeam t f).cycle = s.cycle := rfl
@[simp] theorem State.modTeam_slotCycle (s : State) (t : Nat) (f : Team → Team) : (s.modTeam t f).slotCycle = s.slotCycle := rfl
@[simp] theorem State.modTeam_slotNext (s : State) (t : Nat) (f : Team → Team) : (s.modTeam t f).slotNext = s.slotNext := rfl
@[simp] theorem State.modTeam_cores (s : State) (t : Nat) (f : Team → Team) : (s.modTeam t f).cores = s.cores := rfl
@[simp] theorem State.modTeam_clusters (s : State) (t : Nat) (f : Team → Team) : (s.modTeam t f).clusters = s.clusters := rfl
@[simp] theorem State.modTeam_dies (s : State) (t : Nat) (f : Team → Team) : (s.modTeam t f).dies = s.dies := rfl
@[simp] theorem State.modTeam_flat (s : State) (t : Nat) (f : Team → Team) : (s.modTeam t f).flat = s.flat := rfl
@[simp] theorem State.modTeam_sys (s : State) (t : Nat) (f : Team → Team) : (s.modTeam t f).sys = { s.sys with teams := s.sys.teams.map (fun x => if x.id = t then f x else x) } := rfl
@[simp] theorem State.modTeam_host (s : State) (t : Nat) (f : Team → Team) : (s.modTeam t f).host = s.host := rfl
@[simp] theorem State.modTeam_fab (s : State) (t : Nat) (f : Team → Team) : (s.modTeam t f).fab = s.fab := rfl

/-! emit. -/

@[simp] theorem State.emit_agenda (s : State) (o : HostOut) : (s.emit o).agenda = s.agenda := rfl
@[simp] theorem State.emit_curCore (s : State) (o : HostOut) : (s.emit o).curCore = s.curCore := rfl
@[simp] theorem State.emit_curCtx (s : State) (o : HostOut) : (s.emit o).curCtx = s.curCtx := rfl
@[simp] theorem State.emit_freeCtr (s : State) (o : HostOut) : (s.emit o).freeCtr = s.freeCtr := rfl
@[simp] theorem State.emit_cycle (s : State) (o : HostOut) : (s.emit o).cycle = s.cycle := rfl
@[simp] theorem State.emit_slotCycle (s : State) (o : HostOut) : (s.emit o).slotCycle = s.slotCycle := rfl
@[simp] theorem State.emit_slotNext (s : State) (o : HostOut) : (s.emit o).slotNext = s.slotNext := rfl
@[simp] theorem State.emit_cores (s : State) (o : HostOut) : (s.emit o).cores = s.cores := rfl
@[simp] theorem State.emit_clusters (s : State) (o : HostOut) : (s.emit o).clusters = s.clusters := rfl
@[simp] theorem State.emit_dies (s : State) (o : HostOut) : (s.emit o).dies = s.dies := rfl
@[simp] theorem State.emit_flat (s : State) (o : HostOut) : (s.emit o).flat = s.flat := rfl
@[simp] theorem State.emit_sys (s : State) (o : HostOut) : (s.emit o).sys = s.sys := rfl
@[simp] theorem State.emit_host (s : State) (o : HostOut) : (s.emit o).host = { s.host with out := s.host.out ++ [o] } := rfl
@[simp] theorem State.emit_fab (s : State) (o : HostOut) : (s.emit o).fab = s.fab := rfl

/-! Readers that an update does not touch. -/

@[simp] theorem State.modCore_cluster (s : State) (c : Nat) (f : Core → Core) (j : Nat) : (s.modCore c f).cluster j = s.cluster j := rfl
@[simp] theorem State.modCore_die (s : State) (c : Nat) (f : Core → Core) (j : Nat) : (s.modCore c f).die j = s.die j := rfl
@[simp] theorem State.modCore_space (s : State) (c : Nat) (f : Core → Core) (j : Nat) : (s.modCore c f).space j = s.space j := rfl
@[simp] theorem State.modCtx_cluster (s : State) (c h : Nat) (f : Ctx → Ctx) (j : Nat) : (s.modCtx c h f).cluster j = s.cluster j := rfl
@[simp] theorem State.modCtx_die (s : State) (c h : Nat) (f : Ctx → Ctx) (j : Nat) : (s.modCtx c h f).die j = s.die j := rfl
@[simp] theorem State.modCtx_space (s : State) (c h : Nat) (f : Ctx → Ctx) (j : Nat) : (s.modCtx c h f).space j = s.space j := rfl
@[simp] theorem State.modHome_cluster (s : State) (f : Core → Core) (j : Nat) : (s.modHome f).cluster j = s.cluster j := rfl
@[simp] theorem State.modHome_die (s : State) (f : Core → Core) (j : Nat) : (s.modHome f).die j = s.die j := rfl
@[simp] theorem State.modHome_space (s : State) (f : Core → Core) (j : Nat) : (s.modHome f).space j = s.space j := rfl
@[simp] theorem State.modMe_cluster (s : State) (f : Ctx → Ctx) (j : Nat) : (s.modMe f).cluster j = s.cluster j := rfl
@[simp] theorem State.modMe_die (s : State) (f : Ctx → Ctx) (j : Nat) : (s.modMe f).die j = s.die j := rfl
@[simp] theorem State.modMe_space (s : State) (f : Ctx → Ctx) (j : Nat) : (s.modMe f).space j = s.space j := rfl
@[simp] theorem State.modCluster_core (s : State) (k : Nat) (f : Cluster → Cluster) (j : Nat) : (s.modCluster k f).core j = s.core j := rfl
@[simp] theorem State.modCluster_die (s : State) (k : Nat) (f : Cluster → Cluster) (j : Nat) : (s.modCluster k f).die j = s.die j := rfl
@[simp] theorem State.modCluster_space (s : State) (k : Nat) (f : Cluster → Cluster) (j : Nat) : (s.modCluster k f).space j = s.space j := rfl
@[simp] theorem State.modCluster_home (s : State) (k : Nat) (f : Cluster → Cluster) : (s.modCluster k f).home = s.home := rfl
@[simp] theorem State.modCluster_me (s : State) (k : Nat) (f : Cluster → Cluster) : (s.modCluster k f).me = s.me := rfl
@[simp] theorem State.modDie_core (s : State) (d : Nat) (f : Die → Die) (j : Nat) : (s.modDie d f).core j = s.core j := rfl
@[simp] theorem State.modDie_cluster (s : State) (d : Nat) (f : Die → Die) (j : Nat) : (s.modDie d f).cluster j = s.cluster j := rfl
@[simp] theorem State.modDie_space (s : State) (d : Nat) (f : Die → Die) (j : Nat) : (s.modDie d f).space j = s.space j := rfl
@[simp] theorem State.modDie_home (s : State) (d : Nat) (f : Die → Die) : (s.modDie d f).home = s.home := rfl
@[simp] theorem State.modDie_me (s : State) (d : Nat) (f : Die → Die) : (s.modDie d f).me = s.me := rfl
@[simp] theorem State.modSys_core (s : State) (f : SysDie → SysDie) (j : Nat) : (s.modSys f).core j = s.core j := rfl
@[simp] theorem State.modSys_cluster (s : State) (f : SysDie → SysDie) (j : Nat) : (s.modSys f).cluster j = s.cluster j := rfl
@[simp] theorem State.modSys_die (s : State) (f : SysDie → SysDie) (j : Nat) : (s.modSys f).die j = s.die j := rfl
@[simp] theorem State.modSys_home (s : State) (f : SysDie → SysDie) : (s.modSys f).home = s.home := rfl
@[simp] theorem State.modSys_me (s : State) (f : SysDie → SysDie) : (s.modSys f).me = s.me := rfl
@[simp] theorem State.modFlat_core (s : State) (f : Flat → Flat) (j : Nat) : (s.modFlat f).core j = s.core j := rfl
@[simp] theorem State.modFlat_cluster (s : State) (f : Flat → Flat) (j : Nat) : (s.modFlat f).cluster j = s.cluster j := rfl
@[simp] theorem State.modFlat_die (s : State) (f : Flat → Flat) (j : Nat) : (s.modFlat f).die j = s.die j := rfl
@[simp] theorem State.modFlat_space (s : State) (f : Flat → Flat) (j : Nat) : (s.modFlat f).space j = s.space j := rfl
@[simp] theorem State.modFlat_home (s : State) (f : Flat → Flat) : (s.modFlat f).home = s.home := rfl
@[simp] theorem State.modFlat_me (s : State) (f : Flat → Flat) : (s.modFlat f).me = s.me := rfl
@[simp] theorem State.modHost_core (s : State) (f : HostPort → HostPort) (j : Nat) : (s.modHost f).core j = s.core j := rfl
@[simp] theorem State.modHost_cluster (s : State) (f : HostPort → HostPort) (j : Nat) : (s.modHost f).cluster j = s.cluster j := rfl
@[simp] theorem State.modHost_die (s : State) (f : HostPort → HostPort) (j : Nat) : (s.modHost f).die j = s.die j := rfl
@[simp] theorem State.modHost_space (s : State) (f : HostPort → HostPort) (j : Nat) : (s.modHost f).space j = s.space j := rfl
@[simp] theorem State.modHost_home (s : State) (f : HostPort → HostPort) : (s.modHost f).home = s.home := rfl
@[simp] theorem State.modHost_me (s : State) (f : HostPort → HostPort) : (s.modHost f).me = s.me := rfl
@[simp] theorem State.modFab_core (s : State) (f : Fabric → Fabric) (j : Nat) : (s.modFab f).core j = s.core j := rfl
@[simp] theorem State.modFab_cluster (s : State) (f : Fabric → Fabric) (j : Nat) : (s.modFab f).cluster j = s.cluster j := rfl
@[simp] theorem State.modFab_die (s : State) (f : Fabric → Fabric) (j : Nat) : (s.modFab f).die j = s.die j := rfl
@[simp] theorem State.modFab_space (s : State) (f : Fabric → Fabric) (j : Nat) : (s.modFab f).space j = s.space j := rfl
@[simp] theorem State.modFab_home (s : State) (f : Fabric → Fabric) : (s.modFab f).home = s.home := rfl
@[simp] theorem State.modFab_me (s : State) (f : Fabric → Fabric) : (s.modFab f).me = s.me := rfl
@[simp] theorem State.modSpace_core (s : State) (a : Nat) (f : AddrSpace → AddrSpace) (j : Nat) : (s.modSpace a f).core j = s.core j := rfl
@[simp] theorem State.modSpace_cluster (s : State) (a : Nat) (f : AddrSpace → AddrSpace) (j : Nat) : (s.modSpace a f).cluster j = s.cluster j := rfl
@[simp] theorem State.modSpace_die (s : State) (a : Nat) (f : AddrSpace → AddrSpace) (j : Nat) : (s.modSpace a f).die j = s.die j := rfl
@[simp] theorem State.modSpace_home (s : State) (a : Nat) (f : AddrSpace → AddrSpace) : (s.modSpace a f).home = s.home := rfl
@[simp] theorem State.modSpace_me (s : State) (a : Nat) (f : AddrSpace → AddrSpace) : (s.modSpace a f).me = s.me := rfl
@[simp] theorem State.modTeam_core (s : State) (t : Nat) (f : Team → Team) (j : Nat) : (s.modTeam t f).core j = s.core j := rfl
@[simp] theorem State.modTeam_cluster (s : State) (t : Nat) (f : Team → Team) (j : Nat) : (s.modTeam t f).cluster j = s.cluster j := rfl
@[simp] theorem State.modTeam_die (s : State) (t : Nat) (f : Team → Team) (j : Nat) : (s.modTeam t f).die j = s.die j := rfl
@[simp] theorem State.modTeam_home (s : State) (t : Nat) (f : Team → Team) : (s.modTeam t f).home = s.home := rfl
@[simp] theorem State.modTeam_me (s : State) (t : Nat) (f : Team → Team) : (s.modTeam t f).me = s.me := rfl
@[simp] theorem State.emit_core (s : State) (o : HostOut) (j : Nat) : (s.emit o).core j = s.core j := rfl
@[simp] theorem State.emit_cluster (s : State) (o : HostOut) (j : Nat) : (s.emit o).cluster j = s.cluster j := rfl
@[simp] theorem State.emit_die (s : State) (o : HostOut) (j : Nat) : (s.emit o).die j = s.die j := rfl
@[simp] theorem State.emit_space (s : State) (o : HostOut) (j : Nat) : (s.emit o).space j = s.space j := rfl
@[simp] theorem State.emit_home (s : State) (o : HostOut) : (s.emit o).home = s.home := rfl
@[simp] theorem State.emit_me (s : State) (o : HostOut) : (s.emit o).me = s.me := rfl

/-! Readers that it does. -/

theorem State.modCore_core (s : State) (c : Nat) (f : Core → Core) (j : Nat) :
    (s.modCore c f).core j = if c = j then f (s.core c) else s.core j := by
  simp only [State.core, State.modCore_cores, AMap.get_put]

@[simp] theorem State.modCore_core_same (s : State) (c : Nat) (f : Core → Core) : (s.modCore c f).core c = f (s.core c) := by
  simp [State.modCore_core]

theorem State.modCore_core_other (s : State) {c j : Nat} (f : Core → Core) (h : j ≠ c) : (s.modCore c f).core j = s.core j := by
  rw [State.modCore_core, if_neg (fun e => h e.symm)]

theorem Core.modCtx_ctx (x : Core) (h : Nat) (f : Ctx → Ctx) (j : Nat) :
    (x.modCtx h f).ctx j = if h = j then f (x.ctx h) else x.ctx j := by
  simp only [Core.ctx, Core.modCtx, AMap.get_put]

@[simp] theorem Core.modCtx_ctx_same (x : Core) (h : Nat) (f : Ctx → Ctx) : (x.modCtx h f).ctx h = f (x.ctx h) := by
  simp [Core.modCtx_ctx]

theorem Core.modCtx_ctx_other (x : Core) {h j : Nat} (f : Ctx → Ctx) (e : j ≠ h) : (x.modCtx h f).ctx j = x.ctx j := by
  rw [Core.modCtx_ctx, if_neg (fun q => e q.symm)]

@[simp] theorem State.modHome_home (s : State) (f : Core → Core) : (s.modHome f).home = f s.home := by
  simp [State.home, State.modHome]

@[simp] theorem State.modHome_core_other (s : State) (f : Core → Core) (j : Nat) (h : j ≠ s.curCore) :
    (s.modHome f).core j = s.core j := State.modCore_core_other s f h

@[simp] theorem State.modMe_home (s : State) (f : Ctx → Ctx) : (s.modMe f).home = s.home.modCtx s.curCtx f := by
  simp [State.home, State.modMe, State.modCtx]

@[simp] theorem State.modMe_me (s : State) (f : Ctx → Ctx) : (s.modMe f).me = f s.me := by
  simp [State.me]

@[simp] theorem State.modMe_core_other (s : State) (f : Ctx → Ctx) (j : Nat) (h : j ≠ s.curCore) :
    (s.modMe f).core j = s.core j := State.modCore_core_other s _ h

/-! Registers. -/

theorem Ctx.sv_setS (x : Ctx) (i : Nat) (v : Word64) (d : Bool) (j : Nat) :
    (x.setS i v d).sv j = if j = 0 then 0 else if j = i then v else x.sv j := by
  unfold Ctx.sv Ctx.setS
  by_cases hj : j = 0
  · simp [hj]
  · by_cases hi : i = 0
    · have : j ≠ i := by omega
      simp [hj, hi]
    · simp only [hj, hi, if_false, AMap.get_set]
      by_cases h : i = j
      · simp [h]
      · have : j ≠ i := fun e => h e.symm
        simp [h, this]

theorem Ctx.dbit_setS (x : Ctx) (i : Nat) (v : Word64) (d : Bool) (j : Nat) :
    (x.setS i v d).dbit j = if j = 0 then false else if j = i then d else x.dbit j := by
  unfold Ctx.dbit Ctx.setS
  by_cases hj : j = 0
  · simp [hj]
  · by_cases hi : i = 0
    · have : j ≠ i := by omega
      simp [hj, hi]
    · simp only [hj, hi, if_false, AMap.get_set]
      by_cases h : i = j
      · simp [h]
      · have : j ≠ i := fun e => h e.symm
        simp [h, this]

theorem Ctx.pv_setP (x : Ctx) (i : Nat) (v : Word64) (j : Nat) :
    (x.setP i v).pv j = if j = 0 then BitVec.allOnes 64 else if j = i then v else x.pv j := by
  unfold Ctx.pv Ctx.setP
  by_cases hj : j = 0
  · simp [hj]
  · by_cases hi : i = 0
    · have : j ≠ i := by omega
      simp [hj, hi]
    · simp only [hj, hi, if_false, AMap.get_set]
      by_cases h : i = j
      · simp [h]
      · have : j ≠ i := fun e => h e.symm
        simp [h, this]

@[simp] theorem Ctx.sv_zero (x : Ctx) : x.sv 0 = 0 := rfl
@[simp] theorem Ctx.dbit_zero (x : Ctx) : x.dbit 0 = false := rfl
@[simp] theorem Ctx.pv_zero (x : Ctx) : x.pv 0 = BitVec.allOnes 64 := rfl

theorem Core.counter_setCounter (x : Core) (k j : Nat) (v : Word32) :
    (x.setCounter k v).counter j = if k = j then v else x.counter j := by
  simp only [Core.counter, Core.setCounter, AMap.get_set]

end Sys2Proof.Machine
end

