-- ==== Sys2Proof/Laws/Finish.lean ====
section
/-! SUPPORT. How instructions end, in the words of Safety.lean: the laws that a proof about one instruction cites. -/

namespace Sys2Proof

open Sys2Proof.Machine

@[simp] theorem finish_ok (s : State) (npc : Word64) (t : State) : finish s npc (.ok t) = .next (t.modMe (fun x => x.complete npc)) := rfl
@[simp] theorem finish_trap (s : State) (npc : Word64) (c : Nat) (f : Word64) :
    finish s npc (.error (.trap c f)) = .next (s.trapEnter c (w64 c) f) := rfl
@[simp] theorem finish_poison (s : State) (npc a : Word64) :
    finish s npc (.error (.poison a)) = .next (s.contain s.curCore s.me.pc a) := rfl
@[simp] theorem finish_wait (s t : State) (npc : Word64) (o : Option (Nat × Nat)) :
    finish s npc (.error (.wait t o)) = .next (t.waitOn o) := rfl
@[simp] theorem finish_deliver (s t : State) (npc : Word64) (r : FaultRec) :
    finish s npc (.error (.deliver r t)) = .next (t.deliver r) := rfl

/-- A change of the running context alone. -/
theorem onlyMe_modMe (s : State) (f : Ctx → Ctx) : OnlyMe s (s.modMe f) id where
  core := { whole := rfl, others := fun k h => AMap.get_put_other _ _ _ h }
  home := by simp [State.home, State.core, coreRest, State.modMe, State.modCtx, State.modCore, Core.modCtx]
  ctxs := fun h hh => by
    simp only [State.home, State.core, State.modMe, State.modCtx, State.modCore, Core.modCtx, Core.ctx,
      AMap.get_put_same, AMap.get_put_other _ _ _ hh]

/-- A change of the running context and of the rest of its core. -/
theorem onlyMe_modHome (s : State) (f : Core → Core) (g : Ctx → Ctx) (k : Core → Core)
    (hk : ∀ x, coreRest (f x) = k (coreRest x)) (hc : ∀ x, (f x).ctxs = x.ctxs) :
    OnlyMe s ((s.modHome f).modMe g) k where
  core := {
    whole := rfl
    others := fun j h => by
      simp only [State.modMe, State.modCtx, State.modHome, State.modCore, State.core]
      rw [AMap.get_put_other _ _ _ h, AMap.get_put_other _ _ _ h] }
  home := by
    rw [← hk]
    simp [State.home, State.core, coreRest, State.modMe, State.modCtx, State.modHome, State.modCore, Core.modCtx]
  ctxs := fun h hh => by
    simp only [State.home, State.core, State.modMe, State.modCtx, State.modHome, State.modCore, Core.modCtx, Core.ctx,
      AMap.get_put_same, AMap.get_put_other _ _ _ hh, hc]

/-- Completing changes nothing that `OnlyMe` speaks of. -/
theorem onlyMe_complete {s t : State} {k : Core → Core} (h : OnlyMe s t k) (hc : t.curCore = s.curCore)
    (hx : t.curCtx = s.curCtx) (f : Ctx → Ctx) : OnlyMe s (t.modMe f) k where
  core := {
    whole := by
      have := h.core.whole
      rw [this]; rfl
    others := fun j hj => by rw [State.modMe_core_other _ _ _ (by rw [hc]; exact hj)]; exact h.core.others j hj }
  home := by rw [State.modMe_home]; exact h.home
  ctxs := fun j hj => by
    rw [State.modMe_home, Core.modCtx_ctx_other _ _ (by rw [hx]; exact hj)]; exact h.ctxs j hj

/-- The one law of completion: what the instruction's own effect has changed, the step has changed. -/
theorem gives_finish {s t : State} {npc : Word64} {d : Nat} {v : Word64} {db : Bool} {g : Ctx → Ctx} {k : Core → Core}
    (h : OnlyMe s t k) (hc : t.curCore = s.curCore) (hx : t.curCtx = s.curCtx) (hr : SetsReg s.me t.me d v db)
    (hg : ctxRest t.me = g (ctxRest s.me)) (hl : t.me.left = s.me.left) (hw : t.me.waitSince = s.me.waitSince) :
    Gives s (finish s npc (.ok t)) npc d v db g k := by
  refine ⟨t.modMe (fun x => x.complete npc), rfl, onlyMe_complete h hc hx _, ⟨?_, ?_, ?_⟩, ⟨?_, ?_⟩, ?_⟩
  · simp [Ctx.complete]
  · simp [Ctx.complete, Ctx.counted, hl, hw]
  · simp [Ctx.complete]
  · intro r; rw [← hr.vals r, State.modMe_me]; rfl
  · intro r; rw [← hr.dbits r, State.modMe_me]; rfl
  · rw [← hg, State.modMe_me]; rfl

theorem setsReg_setS (x : Ctx) (d : Nat) (v : Word64) (db : Bool) : SetsReg x (x.setS d v db) d v db where
  vals := fun r => by rw [Ctx.sv_setS]
  dbits := fun r => by rw [Ctx.dbit_setS]

theorem setsReg_none (x y : Ctx) (h : y.sregs = x.sregs) : SetsReg x y 0 0 false where
  vals := fun r => by by_cases h0 : r = 0 <;> simp [Ctx.sv, h, h0]
  dbits := fun r => by by_cases h0 : r = 0 <;> simp [Ctx.dbit, h, h0]

theorem ctxRest_setS (x : Ctx) (d : Nat) (v : Word64) (db : Bool) : ctxRest (x.setS d v db) = ctxRest x := by
  unfold Ctx.setS; split <;> rfl

theorem left_setS (x : Ctx) (d : Nat) (v : Word64) (db : Bool) : (x.setS d v db).left = x.left := by
  unfold Ctx.setS; split <;> rfl

theorem waitSince_setS (x : Ctx) (d : Nat) (v : Word64) (db : Bool) : (x.setS d v db).waitSince = x.waitSince := by
  unfold Ctx.setS; split <;> rfl

/-- An instruction that only writes a register. -/
theorem writes_setS (s : State) (npc : Word64) (d : Nat) (v : Word64) (db : Bool) :
    Writes s (finish s npc (.ok (s.modMe (fun x => x.setS d v db)))) npc d v db := by
  refine gives_finish (onlyMe_modMe s _) rfl rfl ?_ ?_ ?_ ?_
  · rw [State.modMe_me]; exact setsReg_setS _ _ _ _
  · rw [State.modMe_me]; exact ctxRest_setS _ _ _ _
  · rw [State.modMe_me]; exact left_setS _ _ _ _
  · rw [State.modMe_me]; exact waitSince_setS _ _ _ _

/-- An instruction that changes of the running context what `f` says, and writes register d beside it. -/
theorem gives_modMe (s : State) (npc : Word64) (d : Nat) (v : Word64) (db : Bool) (f g : Ctx → Ctx)
    (hs : (f s.me).sregs = (s.me.setS d v db).sregs) (hg : ctxRest (f s.me) = g (ctxRest s.me))
    (hl : (f s.me).left = s.me.left) (hw : (f s.me).waitSince = s.me.waitSince) :
    Gives s (finish s npc (.ok (s.modMe f))) npc d v db g id := by
  refine gives_finish (onlyMe_modMe s _) rfl rfl ?_ ?_ ?_ ?_
  · rw [State.modMe_me]
    have h := setsReg_setS s.me d v db
    exact ⟨fun r => by rw [← h.vals r]; simp only [Ctx.sv, hs], fun r => by rw [← h.dbits r]; simp only [Ctx.dbit, hs]⟩
  · rw [State.modMe_me]; exact hg
  · rw [State.modMe_me]; exact hl
  · rw [State.modMe_me]; exact hw

/-- An instruction that completes and changes nothing else. -/
theorem leaves_nothing (s : State) (npc : Word64) : Leaves s (finish s npc (.ok s)) npc id id :=
  gives_finish ⟨⟨rfl, fun _ _ => rfl⟩, rfl, fun _ _ => rfl⟩ rfl rfl (setsReg_none _ _ rfl) rfl rfl rfl

end Sys2Proof
end

