-- ==== Sys2Proof/Laws/Memory.lean ====
section
/-! SUPPORT. What the operations over flat memory do, once each: the bytes and the poison that a write changes, and that
every operation that writes bytes keeps the canonical form of MemOk. -/

namespace Sys2Proof

open Sys2Proof.Machine

/-! Poison by sector. -/

/-- Setting the keys of a run to one value. -/
theorem AMap.get_fold {α : Type} [DecidableEq α] (d v : α) (lo n : Nat) (m : AMap α) (k : Nat) :
    ((upFrom lo n).foldl (fun q j => q.set d j v) m).get d k = if lo ≤ k ∧ k < lo + n then v else m.get d k := by
  induction n generalizing lo m with
  | zero =>
    rw [if_neg (by omega)]
    rfl
  | succ n ih =>
    simp only [upFrom, List.foldl_cons]
    rw [ih, AMap.get_set]
    by_cases hk : lo = k
    · subst hk
      have h1 : ¬ (lo + 1 ≤ lo ∧ lo < lo + 1 + n) := by omega
      have h2 : lo ≤ lo ∧ lo < lo + (n + 1) := by omega
      rw [if_neg h1, if_pos rfl, if_pos h2]
    · by_cases h1 : lo + 1 ≤ k ∧ k < lo + 1 + n
      · have h2 : lo ≤ k ∧ k < lo + (n + 1) := by omega
        rw [if_pos h1, if_pos h2]
      · have h2 : ¬ (lo ≤ k ∧ k < lo + (n + 1)) := by omega
        rw [if_neg h1, if_neg h2, if_neg hk]

/-- Setting the poison of sectors (R133). -/
theorem setPoison_get (p : AMap Bool) (ks : List Nat) (v : Bool) (k : Nat) :
    (setPoison p ks v).get false k = if k ∈ ks then v else p.get false k := by
  unfold setPoison
  induction ks generalizing p with
  | nil => simp
  | cons j r ih =>
    rw [List.foldl_cons, ih, AMap.get_set]
    by_cases h : k ∈ r
    · simp [h]
    · by_cases hk : j = k
      · subst hk; simp
      · have : k ≠ j := fun e => hk e.symm
        simp [h, hk, this]

theorem mem_upFrom (lo n k : Nat) : k ∈ upFrom lo n ↔ lo ≤ k ∧ k < lo + n := by
  induction n generalizing lo with
  | zero => simp only [upFrom, List.not_mem_nil, false_iff]; omega
  | succ n ih => simp only [upFrom, List.mem_cons, ih]; omega

theorem mem_sectorsIn (pa n k : Nat) : k ∈ sectorsIn pa n ↔ n ≠ 0 ∧ pa / 32 ≤ k ∧ k ≤ (pa + n - 1) / 32 := by
  unfold sectorsIn
  by_cases hn : n = 0
  · simp [hn]
  · have hle : pa / 32 ≤ (pa + n - 1) / 32 := Nat.div_le_div_right (by omega)
    rw [if_neg hn, mem_upFrom]
    omega

theorem mem_sectorsWhole (pa n k : Nat) : k ∈ sectorsWhole pa n ↔ pa ≤ 32 * k ∧ 32 * k + 32 ≤ pa + n := by
  unfold sectorsWhole
  rw [mem_upFrom]
  omega

theorem poisonOver_get (p : AMap Bool) (pa n k : Nat) :
    (poisonOver p pa n).get false k = (p.get false k || decide (n ≠ 0 ∧ pa / 32 ≤ k ∧ k ≤ (pa + n - 1) / 32)) := by
  simp only [poisonOver, setPoison_get, mem_sectorsIn]
  split <;> simp_all

theorem unpoisonOver_get (p : AMap Bool) (pa n k : Nat) :
    (unpoisonOver p pa n).get false k = (p.get false k && !decide (pa ≤ 32 * k ∧ 32 * k + 32 ≤ pa + n)) := by
  simp only [unpoisonOver, setPoison_get, mem_sectorsWhole]
  by_cases h : pa ≤ 32 * k ∧ 32 * k + 32 ≤ pa + n <;> simp [h]

/-- Dies' replicas of sectors, by number. -/
theorem mem_replicas (ks : List Nat) (k die : Nat) (hd : die < 4) : 4 * k + die ∈ replicas ks [0, 1, 2, 3] ↔ k ∈ ks := by
  simp only [replicas, List.mem_flatMap, List.mem_map, List.mem_cons, List.not_mem_nil, or_false]
  constructor
  · rintro ⟨j, hj, d, hd', he⟩
    have : j = k := by rcases hd' with rfl | rfl | rfl | rfl <;> omega
    exact this ▸ hj
  · intro h
    exact ⟨k, h, die, by omega, rfl⟩

/-! The write of HBM bytes. -/

/-- A write that keeps or clears poison by what it covers (R133, R134). -/
theorem hbmWrite_keep (s : State) (pa : Nat) (bs : List Byte) : WritesHbm s (s.hbmWrite pa bs .keep) pa bs false where
  whole := rfl
  bytes := fun a => by simp only [State.hbmWrite, State.modFlat]; exact Mem.get_write _ _ _ _
  poison := fun k => by
    simp only [State.hbmWrite, State.modFlat, applyPoison, PoisonAct.sets, PoisonAct.clears, Bool.false_eq_true, if_false, reduceCtorEq]
    exact unpoisonOver_get _ _ _ _
  lost := fun k die hd => by
    simp only [State.hbmWrite, State.modFlat, PoisonAct.clears, setPoison_get, mem_replicas _ _ _ hd, mem_sectorsWhole]
    by_cases h : pa ≤ 32 * k ∧ 32 * k + 32 ≤ pa + bs.length <;> simp [h]

/-- A write that poisons what it touches (R133). -/
theorem hbmWrite_set (s : State) (pa : Nat) (bs : List Byte) : WritesHbm s (s.hbmWrite pa bs .set) pa bs true where
  whole := rfl
  bytes := fun a => by simp only [State.hbmWrite, State.modFlat]; exact Mem.get_write _ _ _ _
  poison := fun k => by
    simp only [State.hbmWrite, State.modFlat, applyPoison, PoisonAct.sets, PoisonAct.clears, if_true]
    exact (poisonOver_get _ _ _ _).trans (by simp [setPoison])
  lost := fun k die hd => by simp [State.hbmWrite, State.modFlat, PoisonAct.clears, replicas, setPoison]

/-- A controller's write changes bytes alone (R285). -/
theorem hbmPut_get (s : State) (pa : Nat) (bs : List Byte) (a : Nat) :
    (s.hbmPut pa bs).flat.hbm.get a = if pa ≤ a ∧ a < pa + bs.length then bs.getD (a - pa) 0 else s.flat.hbm.get a := by
  simp only [State.hbmPut, State.modFlat]; exact Mem.get_write _ _ _ _

/-! The canonical form. -/

/-- MemOk speaks of the two byte stores alone. -/
theorem MemOk.of_same {s t : State} (h : MemOk s) (hb : t.flat.hbm = s.flat.hbm) (hh : t.flat.host = s.flat.host) : MemOk t := by
  unfold MemOk; rw [hb, hh]; exact h

/-- A step outside flat memory keeps it. -/
theorem MemOk.of_flat {s t : State} (h : MemOk s) (hf : t.flat = s.flat) : MemOk t := h.of_same (by rw [hf]) (by rw [hf])

/-- Flat memory as a change leaves it. -/
theorem MemOk.modFlat {s : State} {f : Flat → Flat} (hb : (f s.flat).hbm.wf = true)
    (hh : (f s.flat).host.wf = true) : MemOk (s.modFlat f) := ⟨hb, hh⟩

theorem MemOk.modCore {s : State} (h : MemOk s) (c : Nat) (f : Core → Core) : MemOk (s.modCore c f) := h
theorem MemOk.modCtx {s : State} (h : MemOk s) (c x : Nat) (f : Ctx → Ctx) : MemOk (s.modCtx c x f) := h
theorem MemOk.modMe {s : State} (h : MemOk s) (f : Ctx → Ctx) : MemOk (s.modMe f) := h
theorem MemOk.modHome {s : State} (h : MemOk s) (f : Core → Core) : MemOk (s.modHome f) := h
theorem MemOk.modSys {s : State} (h : MemOk s) (f : SysDie → SysDie) : MemOk (s.modSys f) := h
theorem MemOk.modSpace {s : State} (h : MemOk s) (a : Nat) (f : AddrSpace → AddrSpace) : MemOk (s.modSpace a f) := h
theorem MemOk.modFab {s : State} (h : MemOk s) (f : Fabric → Fabric) : MemOk (s.modFab f) := h
theorem MemOk.modPge {s : State} (h : MemOk s) (c id : Nat) (f : PgeCmd → PgeCmd) : MemOk (s.modPge c id f) := h
theorem MemOk.modMx {s : State} (h : MemOk s) (c id : Nat) (f : MxCmd → MxCmd) : MemOk (s.modMx c id f) := h

theorem MemOk.hbmPut {s : State} (h : MemOk s) (pa : Nat) (bs : List Byte) : MemOk (s.hbmPut pa bs) :=
  ⟨Mem.wf_write _ _ _ h.1, h.2⟩

theorem MemOk.hbmWrite {s : State} (h : MemOk s) (pa : Nat) (bs : List Byte) (act : PoisonAct) : MemOk (s.hbmWrite pa bs act) :=
  ⟨Mem.wf_write _ _ _ h.1, h.2⟩

theorem MemOk.hostPut {s : State} (h : MemOk s) (a : Nat) (bs : List Byte) : MemOk (s.hostPut a bs) :=
  ⟨h.1, Mem.wf_write _ _ _ h.2⟩

/-- Writing a sparse content over an extent: what vaWrite, sysStore, the page copy and its return do. -/
theorem Mem.wf_refill (m n : Mem) (lo k : Nat) (h : m.wf = true) : Mem.wf ((AMap.clear m lo k).over 0 n) = true :=
  AMap.wf_over 0 _ _ (AMap.wf_clear 0 m lo k h)

/-- Writing cells one by one: what a read-mostly commit does. -/
theorem Mem.wf_cells (l : List (Nat × Byte)) (m : Mem) (h : m.wf = true) :
    Mem.wf (l.foldl (fun m c => m.set c.1 c.2) m) = true := by
  induction l generalizing m with
  | nil => exact h
  | cons e r ih => exact ih _ (Mem.wf_set _ _ _ h)

/-- The same at other addresses: what a page copy takes of a read-mostly write under way. -/
theorem Mem.wf_shifted (g : Nat → Nat) (l : List (Nat × Byte)) (m : Mem) (h : m.wf = true) :
    Mem.wf (l.foldl (fun m c => m.set (g c.1) c.2) m) = true := by
  induction l generalizing m with
  | nil => exact h
  | cons e r ih => exact ih _ (Mem.wf_set _ _ _ h)

theorem MemOk.dropLeaf {s : State} (h : MemOk s) (leaf : Nat) : MemOk (s.dropLeaf leaf) := h

theorem MemOk.recall {s : State} (h : MemOk s) (pa : Nat) : MemOk (s.recall pa) := by
  unfold State.recall; split <;> exact h

theorem MemOk.poke {s : State} (h : MemOk s) : MemOk s.poke := by
  unfold State.poke; split <;> exact h

theorem MemOk.askPage {s : State} (h : MemOk s) (asid va : Nat) : MemOk (s.askPage asid va) := by
  unfold State.askPage; split <;> exact h

/-- Changes that keep MemOk one by one keep it together. -/
theorem MemOk.foldl {α : Type} {f : State → α → State} (hf : ∀ s x, MemOk s → MemOk (f s x)) (l : List α) {s : State}
    (h : MemOk s) : MemOk (l.foldl f s) := by
  induction l generalizing s with
  | nil => exact h
  | cons x r ih => exact ih (hf _ _ h)

/-- The same for changes that may fail. -/
theorem MemOk.foldlM {α ε : Type} {f : State → α → Except ε State} (hf : ∀ s x t, MemOk s → f s x = .ok t → MemOk t)
    (l : List α) {s t : State} (h : MemOk s) (ht : l.foldlM f s = .ok t) : MemOk t := by
  induction l generalizing s with
  | nil => cases ht; exact h
  | cons x r ih =>
    rw [List.foldlM_cons] at ht
    cases hx : f s x with
    | error e => rw [hx] at ht; cases ht
    | ok u => rw [hx] at ht; exact ih (hf _ _ _ h hx) ht

theorem MemOk.wake {s : State} (h : MemOk s) (pa n : Nat) : MemOk (s.wake pa n) := by
  unfold State.wake
  exact MemOk.foldl (fun s w hs => hs.modCtx _ _ _) _ h

theorem MemOk.perform {s : State} (h : MemOk s) (w : RmWrite) : MemOk (s.perform w) := ⟨Mem.wf_cells _ _ h.1, h.2⟩

theorem MemOk.settle {s : State} (h : MemOk s) (pa n : Nat) : MemOk (s.settle pa n) := by
  unfold State.settle
  exact MemOk.foldl (fun s w hs => hs.perform w) _ h

theorem MemOk.openRm {s : State} (h : MemOk s) (core cmd : Nat) (act : PoisonAct) (fuel pa : Nat) (bs : List Byte) :
    MemOk (s.openRm core cmd act pa bs fuel) := by
  induction fuel generalizing s pa bs with
  | zero => cases bs <;> exact h
  | succ n ih =>
    cases bs with
    | nil => exact h
    | cons b r => exact ih (s := s.modFlat _) (h.of_same rfl rfl) _ _

theorem MemOk.updateReplica {s : State} (h : MemOk s) (i die : Nat) (bad : Bool) : MemOk (s.updateReplica i die bad) := by
  unfold State.updateReplica
  split
  · exact h
  · dsimp only
    split
    · exact MemOk.perform (s := s.modFlat _) (h.of_same rfl rfl) _
    · exact h.of_same rfl rfl

theorem MemOk.vaWrite {s t : State} (h : MemOk s) {asid va n : Nat} {m : Mem} (ht : s.vaWrite asid va n m = .ok t) : MemOk t := by
  unfold State.vaWrite at ht
  cases hr : s.sysRuns asid true .write va n (n / 65536 + 3) with
  | error e => rw [hr] at ht; cases ht
  | ok runs =>
    rw [hr] at ht
    refine MemOk.foldlM ?_ runs h ht
    intro u x v hu hv
    dsimp only at hv
    split at hv
    · cases hv; exact ⟨Mem.wf_refill _ _ _ _ hu.1, hu.2⟩
    · cases hv

theorem MemOk.putBack {s : State} (h : MemOk s) (p : PageCopy) : MemOk (s.putBack p) := by
  unfold State.putBack
  have hm : MemOk (s.modFlat (fun f => { f with
      hbm := (f.hbm.clear p.pa p.size).over 0 (AMap.slice f.hbm p.copy p.size p.pa)
      poison := (AMap.clear f.poison (p.pa / 32) (p.size / 32)).over false
        (AMap.slice f.poison (p.copy / 32) (p.size / 32) (p.pa / 32)) })) := ⟨Mem.wf_refill _ _ _ _ h.1, h.2⟩
  exact (hm.hbmPut _ _).dropLeaf _

/-! Kilns: what their bookkeeping leaves of flat memory. -/

theorem recolourCore_flat (s : State) (c : Nat) (b : Bool) : (s.recolourCore c b).flat = s.flat := rfl

/-- A fold of changes outside flat memory leaves it. -/
theorem foldl_flat {α : Type} {f : State → α → State} (hf : ∀ s x, (f s x).flat = s.flat) (l : List α) (s : State) :
    (l.foldl f s).flat = s.flat := by
  induction l generalizing s with
  | nil => rfl
  | cons x r ih => rw [List.foldl_cons, ih, hf]

/-- Telling the other modules of a job changes no byte of flat memory. -/
theorem tellModules_flat (s : State) (asid : Nat) (o : FabOut) : (s.tellModules asid o).flat = s.flat := by
  unfold State.tellModules
  split
  · refine foldl_flat (fun s n => ?_) _ _
    unfold State.reply
    split <;> rfl
  · rfl

/-- Ending a kiln as aborted changes no byte of flat memory (R289). -/
theorem abortHere_flat (s : State) (asid : Nat) : (s.abortHere asid).flat = s.flat := by
  unfold State.abortHere
  split
  · rfl
  · rename_i k hk
    have hfold : ∀ (u : State) (k : Kiln) (l : List Nat),
        (l.foldl (fun s c => (s.recolourCore c (kilnColour k.num)).modCore c
          (fun x => { x with knum := k.num, drain := [], drainSince := none })) u).flat = u.flat :=
      fun u k l => by apply foldl_flat; intro s c; rfl
    cases (s.job asid).bind (fun j => (j.kilns.filter (fun x => x.unreleased && decide (x.state = .complete))).getLast?) with
    | none => exact (hfold _ _ _).trans rfl
    | some p => exact (hfold _ _ _).trans rfl

/-- Aborting a kiln changes no byte of flat memory (R289). -/
theorem abortKiln_flat (s : State) (asid : Nat) : (s.abortKiln asid).flat = s.flat := by
  unfold State.abortKiln
  split
  · rfl
  · exact (abortHere_flat _ _).trans (tellModules_flat _ _ _)

theorem MemOk.abortKiln {s : State} (h : MemOk s) (asid : Nat) : MemOk (s.abortKiln asid) := h.of_flat (abortKiln_flat s asid)

theorem MemOk.putUnits {s t : State} (h : MemOk s) {asid from' u n : Nat} {j : Job} {m : Mem}
    (ht : s.putUnits asid j from' m u n = .ok t) : MemOk t := by
  induction n generalizing s u with
  | zero => cases ht; exact h
  | succ n ih =>
    unfold State.putUnits at ht
    cases hv : s.vaWrite asid (j.mbase + 64 * (u % j.ringUnits)) 64 (AMap.slice m (64 * (u - from')) 64 0) with
    | error e => simp only [hv] at ht; cases ht
    | ok v => simp only [hv] at ht; exact ih (h.vaWrite hv) ht

theorem MemOk.addRecord {s : State} (h : MemOk s) (asid : Nat) (num : BitVec 16) (typ : Nat) (words : List Nat) (data : Mem)
    (n : Nat) : MemOk (s.addRecord asid num typ words data n) := by
  unfold State.addRecord
  split
  · exact h
  · split
    · exact h
    · dsimp only
      split
      · exact h.abortKiln _
      · split
        · exact h.abortKiln _
        · rename_i t ht
          exact (h.putUnits ht).of_same rfl rfl

theorem MemOk.copyPending {s : State} (h : MemOk s) (pa size copy : Nat) : MemOk (s.copyPending pa size copy) := by
  have hf : ∀ (g : Flat → RmWrite → Flat), (∀ f w, f.hbm.wf = true → f.host.wf = true → (g f w).hbm.wf = true ∧ (g f w).host.wf = true) →
      ∀ (l : List RmWrite) (f : Flat), f.hbm.wf = true → f.host.wf = true → (l.foldl g f).hbm.wf = true ∧ (l.foldl g f).host.wf = true := by
    intro g hg l
    induction l with
    | nil => exact fun f hb hh => ⟨hb, hh⟩
    | cons w r ih => exact fun f hb hh => ih _ (hg f w hb hh).1 (hg f w hb hh).2
  refine hf _ (fun f w hb hh => ?_) _ _ h.1 h.2
  split
  · exact ⟨Mem.wf_shifted (fun a => a - pa + copy) _ _ hb, hh⟩
  · exact ⟨hb, hh⟩

theorem MemOk.copyPage {s : State} (h : MemOk s) (asid : Nat) (e : TlbEntry) : MemOk (s.copyPage asid e) := by
  have stamp : ∀ (u : State) (k : Kiln) (copy off : Nat), MemOk u → MemOk
      ((((u.modKiln asid k.num (fun x => { x with pages := x.pages ++
          [{ va := e.va, size := e.size, pa := e.pa, copy := copy, leaf := e.leaf, oldKst := e.kst, off := off }] })).addRecord
            asid k.num 5 [e.va, e.size, e.pa, copy] [] 0).hbmPut (e.leaf + 6) (leBytes 2 k.num.toNat)).dropLeaf e.leaf) :=
    fun u k copy off hu => ((MemOk.addRecord (s := u.modKiln asid k.num _) hu _ _ _ _ _ _).hbmPut _ _).dropLeaf _
  unfold State.copyPage
  split
  · exact h
  · split
    · exact h
    · split
      · exact h
      · dsimp only
        split
        · exact stamp _ _ _ _ h
        · split
          · exact h.abortKiln _
          · split
            · exact h.abortKiln _
            · split
              · exact stamp _ _ _ _ ((MemOk.modFlat (s := s) (Mem.wf_refill _ _ _ _ h.1) h.2).copyPending _ _ _)
              · exact h.abortKiln _

theorem MemOk.freezeFor {s : State} (h : MemOk s) (pa : Nat) : MemOk (s.freezeFor pa) := by
  unfold State.freezeFor
  refine MemOk.foldl (fun u j hu => ?_) _ h
  split
  · exact MemOk.foldl (fun v e hv => hv.copyPage _ _) _ hu
  · exact hu

/-! Writes at the homes. -/

theorem MemOk.reached {s : State} (h : MemOk s) (pa n : Nat) : MemOk (s.reached pa n) := by
  unfold State.reached
  split
  · exact h
  · exact (MemOk.foldl (fun u l hu => hu.recall _) _ ((h.freezeFor _).freezeFor _)).settle _ _

theorem MemOk.outerWrite {s : State} (h : MemOk s) (pa : Nat) (bs : List Byte) (bad : Bool) : MemOk (s.outerWrite pa bs bad) :=
  (h.reached _ _).hbmWrite _ _ _

theorem MemOk.noteManifest {s : State} (h : MemOk s) (asid va n : Nat) : MemOk (s.noteManifest asid va n) := by
  unfold State.noteManifest
  split
  · exact h
  · split <;> exact h

theorem MemOk.countOldBy {s : State} (h : MemOk s) (asid i o : Nat) : MemOk (s.countOldBy asid i o) := by
  unfold State.countOldBy; split <;> exact h

theorem MemOk.countOld {s : State} (h : MemOk s) (asid : Nat) : MemOk (s.countOld asid) := h.countOldBy _ _ _

theorem MemOk.countIf {s : State} (h : MemOk s) (p : Prop) [Decidable p] (asid : Nat) : MemOk (if p then s.countOld asid else s) := by
  split
  · exact h.countOld _
  · exact h

theorem MemOk.putFrozen {s : State} (h : MemOk s) (asid pa : Nat) (bs : List Byte) (act : PoisonAct) :
    MemOk (s.putFrozen asid pa bs act) := by
  unfold State.putFrozen
  split
  · exact h.hbmWrite _ _ _
  · exact h

theorem MemOk.writeFrozen {s : State} (h : MemOk s) (asid pa : Nat) (bs : List Byte) (act : PoisonAct) :
    MemOk (s.writeFrozen asid pa bs act) := (h.putFrozen _ _ _ _).countOld _

theorem MemOk.physWrite {s : State} (h : MemOk s) (asid : Nat) (old : Bool) (pa : Nat) (bs : List Byte) (act : PoisonAct) :
    MemOk (s.physWrite asid old pa bs act) := by
  have ht := (h.reached pa bs.length).hbmWrite pa bs act
  unfold State.physWrite
  dsimp only
  split
  · exact ht.writeFrozen _ _ _ _
  · exact ht

theorem MemOk.putHbm {s : State} (h : MemOk s) (w : Who) (rm : Bool) (va pa : Nat) (bs : List Byte) (act : PoisonAct) :
    MemOk (s.putHbm w rm va pa bs act) := by
  have hn := (h.recall pa).noteManifest w.asid va bs.length
  unfold State.putHbm
  dsimp only
  split
  · exact hn.openRm _ _ _ _ _ _
  · exact hn.hbmWrite _ _ _

theorem MemOk.writeHbm {s : State} (h : MemOk s) (w : Who) (e : TlbEntry) (va : Nat) (bs : List Byte) (act : PoisonAct) :
    MemOk (s.writeHbm w e va bs act).2 := by
  unfold State.writeHbm
  dsimp only
  split
  · exact h
  · split
    · split
      · exact h.askPage _ _
      · exact h.putHbm _ _ _ _ _ _
    · exact (h.putHbm _ _ _ _ _ _).writeFrozen _ _ _ _
    · exact h.putHbm _ _ _ _ _ _

theorem MemOk.changeFrozen {s t : State} (h : MemOk t) (asid pa n : Nat) (f : Nat → Option Nat) :
    MemOk (s.changeFrozen t asid pa n f) := by
  unfold State.changeFrozen
  split
  · exact h.hbmPut _ _
  · exact h

theorem MemOk.changeHbm {s : State} (h : MemOk s) (w : Who) (e : TlbEntry) (va n : Nat) (f : Nat → Option Nat) :
    MemOk (s.changeHbm w e va n f).2 := by
  have hz : ∀ (b : Bool) (t : State), MemOk t → MemOk (if b then s.changeFrozen t w.asid (e.phys va) n f else t) := by
    intro b t ht
    split
    · exact ht.changeFrozen _ _ _ _
    · exact ht
  unfold State.changeHbm
  dsimp only
  split
  · exact hz _ _ (h.countIf _ _)
  · rename_i v hv
    have hw := h.writeHbm w e va (leBytes n v) .keep
    rcases hr : s.writeHbm w e va (leBytes n v) .keep with ⟨b, t⟩
    rw [hr] at hw
    cases b
    · exact hw
    · exact hz _ _ hw

theorem MemOk.sysStore {s t : State} (h : MemOk s) {asid va n : Nat} {m : Mem} (ht : s.sysStore asid va n m = .ok t) : MemOk t := by
  unfold State.sysStore at ht
  cases hr : s.sysRuns asid true .write va n (n / 65536 + 3) with
  | error e => rw [hr] at ht; cases ht
  | ok runs =>
    rw [hr] at ht
    refine MemOk.foldlM ?_ runs h ht
    intro u x v hu hv
    dsimp only at hv
    split at hv
    · cases hv
      have hc : MemOk (if (u.newFor asid none).isSome then u.copyPage asid x.1 else u) := by
        split
        · exact hu.copyPage _ _
        · exact hu
      exact ⟨Mem.wf_refill _ _ _ _ (hc.settle _ _).1, (hc.settle _ _).2⟩
    · cases hv

/-- Memory is canonical right after reset (R332). -/
theorem memOk_reset : MemOk State.reset := ⟨by decide, by decide⟩

/-! Walks (R145). -/

/-- A pointer entry leads the walk to the next table (R145). -/
theorem walk_pointer {s : State} {asid va table lo width e : Nat} {top : Bool} {rest : List (Nat × Nat)}
    (h : s.pte (table + 8 * ((va >>> lo) % 2 ^ width)) = .ok e) (h0 : bitAt e 0 = true) (h1 : bitAt e 1 = false) (hb : pointerBad e = false) :
    walkFrom s asid va table top ((lo, width) :: rest) = walkFrom s asid va (bits e 47 12 * 2 ^ 12) false rest := by
  rw [walkFrom, h]
  simp [h0, h1, hb, bind, Except.bind]

/-- A leaf entry ends the walk with its translation (R145). -/
theorem walk_leaf {s : State} {asid va table lo width e : Nat} {rest : List (Nat × Nat)}
    (h : s.pte (table + 8 * ((va >>> lo) % 2 ^ width)) = .ok e) (h0 : bitAt e 0 = true) (h1 : bitAt e 1 = true)
    (hb : bits e 15 7 = 0) (ha : bits e 47 16 * 2 ^ 16 % 2 ^ lo = 0) :
    walkFrom s asid va table false ((lo, width) :: rest) =
      .ok { asid := asid, va := va / 2 ^ lo * 2 ^ lo, size := 2 ^ lo, pa := bits e 47 16 * 2 ^ 16, r := bitAt e 2, w := bitAt e 3,
            x := bitAt e 4, rm := bitAt e 5, s := bitAt e 6, kst := BitVec.ofNat 16 (bits e 63 48), leaf := table + 8 * ((va >>> lo) % 2 ^ width) } := by
  have ha' : bits e 47 16 * 65536 % 2 ^ lo = 0 := ha
  rw [walkFrom, h]
  simp [h0, h1, hb, ha', bind, Except.bind]

/-- With no read-mostly write between its two steps, every reader sees what memory holds. -/
theorem hbmSeen_idle {s : State} (h : s.flat.rmWrites = []) (pa n : Nat) :
    s.hbmSeen pa n = (s.flat.hbm.read pa n, s.hbmPoisoned pa n) := by
  simp [State.hbmSeen, State.hbmPoisoned, poisonedIn, h]

/-- With no read-mostly write between its two steps, there is none to perform. -/
theorem settle_idle {s : State} (h : s.flat.rmWrites = []) (pa n : Nat) : s.settle pa n = s := by
  simp [State.settle, h]

/-- A write above a page-table entry leaves it. -/
theorem pte_keep {s t : State} {pa : Nat} {bs : List Byte} (h : WritesHbm s t pa bs false) (hl : s.flat.rmWrites = [])
    (hp : ∀ k, s.flat.poison.get false k = false) {a v : Nat}
    (ha : a + 8 ≤ pa) (hs : s.pte a = .ok v) : t.pte a = .ok v := by
  have hb : t.flat.hbm.num a 8 = s.flat.hbm.num a 8 := by
    have hr : ∀ i, i < 8 → t.flat.hbm.get (a + i) = s.flat.hbm.get (a + i) := fun i hi => by
      rw [h.bytes]; rw [if_neg (by omega)]
    simp [Mem.num, Mem.read, hr 1, hr 2, hr 3, hr 4, hr 5, hr 6, hr 7, Nat.add_assoc, show t.flat.hbm.get a = s.flat.hbm.get a from hr 0 (by omega)]
  have hq : ∀ k, t.flat.poison.get false k = false := fun k => by rw [h.poison]; simp [hp]
  have hp' : ∀ n, t.hbmPoisoned a n = false := fun n => by simp [State.hbmPoisoned, poisonedIn, hq]
  have hs' : s.hbmPoisoned a 8 = false := by simp [State.hbmPoisoned, poisonedIn, hp]
  have hl' : t.flat.rmWrites = [] := by rw [h.whole]; exact hl
  have hr' : leNat (t.flat.hbm.read a 8) = leNat (s.flat.hbm.read a 8) := hb
  simp only [State.pte, hbmSeen_idle hl, hbmSeen_idle hl', hp', hs', hr'] at hs ⊢
  exact hs

end Sys2Proof
end

