-- ==== Sys2Proof/Laws/Ops.lean ====
section
/-! SUPPORT. One law for each shared operation of the meanings: the checks, taking a trap, waiting, writing a result, the
accesses of a local line, and putting a command into the engine. -/

namespace Sys2Proof

open Sys2Proof.Machine

/-! Checks. -/

@[simp] theorem need_ok {x : Ctx} {r : Nat} (h : x.dbit r = false) : need x r = .ok () := by simp [need, h]

theorem need_trap {x : Ctx} {r : Nat} (h : x.dbit r = true) : need x r = .error (.trap 8 (w64 r)) := by simp [need, h, causeDeferred]

theorem needAll_ok {x : Ctx} {rs : List Nat} (h : ∀ r ∈ rs, x.dbit r = false) : needAll x rs = .ok () := by
  induction rs with
  | nil => rfl
  | cons r rs ih => simp [needAll, need_ok (h r (by simp)), ih (fun q hq => h q (by simp [hq]))]

theorem aligned_ok {a : Word64} {n : Nat} (h : a.toNat % n = 0) : aligned a n = .ok () := by simp [aligned, h]

theorem aligned_trap {a : Word64} {n : Nat} (h : a.toNat % n ≠ 0) : aligned a n = .error (.trap 7 a) := by
  simp [aligned, h, causeAlign]

theorem localCheck_ok {sp : Space} {a n al : Nat} (h : a + n ≤ limitOf sp) (ha : a % al = 0) : localCheck sp a n al = .ok () := by
  simp [localCheck, Nat.not_lt.mpr h, ha]

theorem localCheck_range {sp : Space} {a n al : Nat} (h : limitOf sp < a + n) :
    localCheck sp a n al = .error (.trap 6 (w64 a)) := by simp [localCheck, h, causeLocalRange]

theorem localCheck_align {sp : Space} {a n al : Nat} (h : a + n ≤ limitOf sp) (ha : a % al ≠ 0) :
    localCheck sp a n al = .error (.trap 7 (w64 a)) := by simp [localCheck, Nat.not_lt.mpr h, ha, causeAlign]

/-- Without a record of the running context none is delivered (R299). -/
theorem deliverOldest_none (s : State) (h : NoRecords s) : deliverOldest s (fun r => decide (r.ctx = s.curCtx)) = .ok () := by
  have ht : ∀ l : List FaultRec, (∀ r ∈ l, r.ctx ≠ s.curCtx) → takeRecord (fun r => decide (r.ctx = s.curCtx)) l = none := by
    intro l hl
    induction l with
    | nil => rfl
    | cons r rs ih =>
      simp only [takeRecord, hl r (by simp), decide_false, Bool.false_eq_true, if_false]
      rw [ih (fun q hq => hl q (by simp [hq]))]
      rfl
  simp only [deliverOldest, ht _ h]

/-! Conditions. -/

/-- The comparison of the meanings is the condition of R59. -/
theorem condInt_holdsInt (k : Cond) (x y : Word64) : condInt k x y = holdsInt k x y := by
  cases k <;> simp [condInt, holdsInt, BitVec.slt, BitVec.sle, BitVec.ult, BitVec.ule] <;> rw [Bool.eq_iff_iff] <;> simp

/-! How an instruction ends that changes the running context alone. -/

theorem becomes_modMe (s : State) (f : Ctx → Ctx) : Becomes s (.next (s.modMe f)) (f s.me) :=
  ⟨_, rfl, onlyMe_modMe s f, by simp⟩

/-- Taking a trap (R295). -/
theorem traps_finish (s : State) (npc : Word64) (c : Nat) (f : Word64) (h : HasHandler s) :
    Traps s (finish s npc (.error (.trap c f))) c f := by
  rw [finish_trap, State.trapEnter, if_neg]
  · exact becomes_modMe _ _
  · simp [h.1, h.2]

/-- Waiting for an object of R302 (R93). -/
theorem waitsFor_finish (s : State) (npc : Word64) (k o : Nat) (h : MayWait s) :
    WaitsFor s (finish s npc (.error (.wait s (some (k, o))))) k o := by
  let g : Ctx → Ctx := fun x => { x with
    left := x.counted, waitObj := some (k, o), waitSince := some (x.waitSince.getD s.cycle) }
  have hw : (s.modMe g).waitedOut (s.modMe g).me = false := by
    rw [State.modMe_me]
    exact decide_eq_false (Nat.not_le.mpr h)
  have hb : WaitsFor s (.next (s.modMe g)) k o := becomes_modMe s g
  rw [finish_wait]
  show WaitsFor s (.next (if (s.modMe g).waitedOut (s.modMe g).me then (s.modMe g).stall k o else s.modMe g)) k o
  rw [hw]
  exact hb

/-! The forms of the scalar results. -/

theorem rform_of {f g : Word64 → Word64 → Word64} {mk : Reg → Reg → Reg → Instr}
    (h : ∀ d a b s, exec (mk d a b) s = binary g d a b s) (hg : ∀ x y, g x y = f x y) : RForm mk f := by
  intro d a b s
  rw [h, binary, writesS, hg]
  exact writes_setS _ _ _ _ _

theorem iform_of {f g : Word64 → Word64 → Word64} {mk : Reg → Reg → BitVec 32 → Instr}
    (h : ∀ d a b s, exec (mk d a b) s = binaryImm g d a b s) (hg : ∀ x y, g x y = f x y) : IForm mk f := by
  intro d a b s
  rw [h, binaryImm, writesS, hg]
  exact writes_setS _ _ _ _ _

theorem uform_of {f g : Word64 → Word64} {mk : Reg → Reg → Instr} (h : ∀ d a s, exec (mk d a) s = unary g d a s)
    (hg : ∀ x, g x = f x) : UForm mk f := by
  intro d a s
  rw [h, unary, writesS, hg]
  exact writes_setS _ _ _ _ _

/-! Changes of the core beside the running context. -/

theorem onlyMe_home (s : State) (f : Core → Core) (g : Ctx → Ctx) (k : Core → Core)
    (hk : coreRest (f s.home) = k (coreRest s.home)) (hc : (f s.home).ctxs = s.home.ctxs) :
    OnlyMe s ((s.modHome f).modMe g) k where
  core := {
    whole := rfl
    others := fun j h => by
      rw [State.modMe_core_other _ _ _ (by exact h), State.modHome_core_other _ _ _ h] }
  home := by
    rw [← hk, State.modMe_home, State.modHome_home]; rfl
  ctxs := fun h hh => by
    rw [State.modMe_home, Core.modCtx_ctx_other _ _ (by exact hh), State.modHome_home]
    simp [Core.ctx, hc]

theorem me_modHome (s : State) (f : Core → Core) (hc : (f s.home).ctxs = s.home.ctxs) : (s.modHome f).me = s.me := by
  simp only [State.me, State.modHome_home, State.modHome_curCtx, Core.ctx, hc]

/-- An instruction that changes the core's own state and writes a register. -/
theorem gives_home_setS (s : State) (npc : Word64) (d : Nat) (v : Word64) (db : Bool) (f k : Core → Core)
    (hk : coreRest (f s.home) = k (coreRest s.home)) (hc : (f s.home).ctxs = s.home.ctxs) :
    Gives s (finish s npc (.ok ((s.modHome f).modMe (fun x => x.setS d v db)))) npc d v db id k := by
  refine gives_finish (onlyMe_home s f _ k hk hc) rfl rfl ?_ ?_ ?_ ?_
  all_goals rw [State.modMe_me, me_modHome s f hc]
  · exact setsReg_setS _ _ _ _
  · exact ctxRest_setS _ _ _ _
  · exact left_setS _ _ _ _
  · exact waitSince_setS _ _ _ _

/-- An instruction that changes the core's own state and what `f` says of its context. -/
theorem gives_home_modMe (s : State) (npc : Word64) (f k : Core → Core) (g g' : Ctx → Ctx)
    (hk : coreRest (f s.home) = k (coreRest s.home)) (hc : (f s.home).ctxs = s.home.ctxs)
    (hs : (g s.me).sregs = s.me.sregs) (hg : ctxRest (g s.me) = g' (ctxRest s.me))
    (hl : (g s.me).left = s.me.left) (hw : (g s.me).waitSince = s.me.waitSince) :
    Leaves s (finish s npc (.ok ((s.modHome f).modMe g))) npc g' k := by
  refine gives_finish (onlyMe_home s f _ k hk hc) rfl rfl ?_ ?_ ?_ ?_
  all_goals rw [State.modMe_me, me_modHome s f hc]
  · exact setsReg_none _ _ hs
  · exact hg
  · exact hl
  · exact hw

/-- Putting a command into the put-and-get engine (R135, R180, R298, R443). -/
theorem issues_enqueue (s : State) (npc : Word64) (i : Instr) (a b c : Nat) (img : List Byte) (h : MayIssue s i) :
    Issues s (finish s npc (s.enqueue i a b c img)) npc i (s.me.sv a) (s.me.sv b) (s.me.sv c) img := by
  obtain ⟨h1, h2, h3⟩ := h
  have hc : s.countCheck i = .ok () := by
    unfold State.countCheck
    have e : BitVec.ofNat 16 Config.outstandingMax = 0xFFFF#16 := rfl
    cases hl : countsOl i <;> cases hs : countsOs i <;> simp_all <;> rfl
  have he : s.enqueue i a b c img = .ok ((s.modHome (fun x => { x with
      pge := x.pge ++ [s.pgeCmd i a b c img], nextId := x.nextId + 1 })).modMe (fun x => x.issued i s.home.nextId)) := by
    unfold State.enqueue
    rw [if_neg (by omega), hc]
    rfl
  rw [he]
  exact gives_home_modMe s npc _ _ _ _ rfl rfl rfl rfl rfl rfl

/-! Lines of the local store. -/

/-- An aligned access of a size touches one line. -/
theorem lineOf_last (sz : Size) (sp : Space) (e : Nat) (hs : sp ≠ .e) (h : e % sizeOf' sz = 0) :
    lineOf sp (e + sizeOf' sz - 1) = lineOf sp e := by
  cases sz <;> cases sp <;> simp [sizeOf', lineOf] at * <;> omega

/-- It waits for no drain when its line waits for none (R279). -/
theorem pendingDrain_no (x : Core) (sz : Size) (sp : Space) (e : Nat) (hs : sp ≠ .e) (h : e % sizeOf' sz = 0)
    (hd : lineOf sp e ∉ x.drain) : x.pendingDrain sp e (sizeOf' sz) = false := by
  simp only [Core.pendingDrain, lineOf_last sz sp e hs h, List.any_eq_false, decide_eq_true_eq]
  rintro l hl ⟨_, h1, h2⟩
  exact hd ((Nat.le_antisymm h1 h2) ▸ hl)

/-- It consumes no poison when its line holds none (R134). -/
theorem noPoison_ok (x : Core) (sz : Size) (sp : Space) (e : Nat) (hs : sp ≠ .e) (h : e % sizeOf' sz = 0)
    (hp : (x.tag (lineOf sp e)).p = false) : noPoison x sp e (sizeOf' sz) = .ok () := by
  have hn : sizeOf' sz ≠ 0 := by cases sz <;> simp [sizeOf']
  simp only [noPoison, Core.poisonAt, lineOf_last sz sp e hs h, hs, hn, or_self, if_false]
  simp [upFrom, hp]

theorem leNat_lt (bs : List Byte) : leNat bs < 256 ^ bs.length := by
  induction bs with
  | nil => simp [leNat]
  | cons b r ih =>
    simp only [leNat, List.length_cons, pow_succ]
    have := b.isLt
    omega

end Sys2Proof
end

