-- ==== Sys2Proof/Laws/PerInstr.lean ====
section
/-! SUPPORT. One lemma per constructor of Instr: a well-formed instruction's encoding fits its length and decodes to it,
and an event has no encoding. -/

namespace Sys2Proof.Laws

set_option linter.unusedSimpArgs false

open Sys2Proof

/-- The encoding of one instruction and the decoder agree on it. -/
def RoundTrip.Statement (i : Instr) : Prop :=
  i.wellFormed = true → (encode i = none ↔ i.isEvent = true) ∧
    ∀ n w, encode i = some (n, w) → w < 2 ^ (8 * n) ∧ lengthOf w = some n ∧ decodeWord w = .ok i

/-- What remains to show of an instruction whose encoding is a packed word. -/
theorem roundTrip_pack {i : Instr} {code op n : Nat} {r : List (Nat × Nat)}
    (he : encode i = some (n, pack ((2, code) :: (8, op) :: r))) (hv : i.isEvent = false)
    (hl : lengthOf code = some n) (hs : 10 + (r.map (·.1)).sum = 8 * n) (hf : fits ((2, code) :: (8, op) :: r))
    (hk : i.wellFormed = true → ∀ w, unpack (2 :: 8 :: r.map (·.1)) w = code :: op :: r.map (·.2) →
      decodeSpace code op w = .ok i) : RoundTrip.Statement i := by
  intro hi
  refine ⟨by simp [he, hv], fun m w hw => ?_⟩
  rw [he] at hw
  cases hw
  obtain ⟨h1, h2, h3⟩ := decodeWord_pack hf hl hs
  exact ⟨h1, h2, h3.trans (hk hi _ (unpack_pack _ hf))⟩

/-- An event has no encoding. -/
theorem roundTrip_event {i : Instr} (he : encode i = none) (hv : i.isEvent = true) : RoundTrip.Statement i :=
  fun _ => ⟨by simp [he, hv], fun n w hw => by rw [he] at hw; cases hw⟩


theorem RoundTrip.nop : RoundTrip.Statement (.nop) := by
  refine roundTrip_pack rfl rfl rfl (by simp) (by simp) fun hi u e => ?_
  show (asR u fun d a b c m fn z => mk [d, a, b, c, m, fn, z] .nop) = _
  simp only [List.map] at e
  simp (disch := omega) [asR, fmtR, e, mk, hi]

theorem RoundTrip.add (d a b : Reg) : RoundTrip.Statement (.add d a b) := by
  have := d.isLt; have := a.isLt; have := b.isLt
  refine roundTrip_pack rfl rfl rfl (by simp) (by simp; try omega) fun hi u e => ?_
  show (decRRR u .add) = _
  simp only [List.map] at e
  simp (disch := omega) [decRRR, asR, fmtR, e, mk, hi]

theorem RoundTrip.addImm (d a : Reg) (imm : BitVec 32) : RoundTrip.Statement (.addImm d a imm) := by
  have := d.isLt; have := a.isLt; have := imm.isLt
  refine roundTrip_pack rfl rfl rfl (by simp) (by simp; try omega) fun hi u e => ?_
  show (decRRI u .addImm) = _
  simp only [List.map] at e
  simp (disch := omega) [decRRI, asI, fmtI, e, mk, hi]

theorem RoundTrip.sub (d a b : Reg) : RoundTrip.Statement (.sub d a b) := by
  have := d.isLt; have := a.isLt; have := b.isLt
  refine roundTrip_pack rfl rfl rfl (by simp) (by simp; try omega) fun hi u e => ?_
  show (decRRR u .sub) = _
  simp only [List.map] at e
  simp (disch := omega) [decRRR, asR, fmtR, e, mk, hi]

theorem RoundTrip.subImm (d a : Reg) (imm : BitVec 32) : RoundTrip.Statement (.subImm d a imm) := by
  have := d.isLt; have := a.isLt; have := imm.isLt
  refine roundTrip_pack rfl rfl rfl (by simp) (by simp; try omega) fun hi u e => ?_
  show (decRRI u .subImm) = _
  simp only [List.map] at e
  simp (disch := omega) [decRRI, asI, fmtI, e, mk, hi]

theorem RoundTrip.mul (d a b : Reg) : RoundTrip.Statement (.mul d a b) := by
  have := d.isLt; have := a.isLt; have := b.isLt
  refine roundTrip_pack rfl rfl rfl (by simp) (by simp; try omega) fun hi u e => ?_
  show (decRRR u .mul) = _
  simp only [List.map] at e
  simp (disch := omega) [decRRR, asR, fmtR, e, mk, hi]

theorem RoundTrip.mulImm (d a : Reg) (imm : BitVec 32) : RoundTrip.Statement (.mulImm d a imm) := by
  have := d.isLt; have := a.isLt; have := imm.isLt
  refine roundTrip_pack rfl rfl rfl (by simp) (by simp; try omega) fun hi u e => ?_
  show (decRRI u .mulImm) = _
  simp only [List.map] at e
  simp (disch := omega) [decRRI, asI, fmtI, e, mk, hi]

theorem RoundTrip.mulh (d a b : Reg) : RoundTrip.Statement (.mulh d a b) := by
  have := d.isLt; have := a.isLt; have := b.isLt
  refine roundTrip_pack rfl rfl rfl (by simp) (by simp; try omega) fun hi u e => ?_
  show (decRRR u .mulh) = _
  simp only [List.map] at e
  simp (disch := omega) [decRRR, asR, fmtR, e, mk, hi]

theorem RoundTrip.div (d a b : Reg) : RoundTrip.Statement (.div d a b) := by
  have := d.isLt; have := a.isLt; have := b.isLt
  refine roundTrip_pack rfl rfl rfl (by simp) (by simp; try omega) fun hi u e => ?_
  show (decRRR u .div) = _
  simp only [List.map] at e
  simp (disch := omega) [decRRR, asR, fmtR, e, mk, hi]

theorem RoundTrip.rem (d a b : Reg) : RoundTrip.Statement (.rem d a b) := by
  have := d.isLt; have := a.isLt; have := b.isLt
  refine roundTrip_pack rfl rfl rfl (by simp) (by simp; try omega) fun hi u e => ?_
  show (decRRR u .rem) = _
  simp only [List.map] at e
  simp (disch := omega) [decRRR, asR, fmtR, e, mk, hi]

theorem RoundTrip.and (d a b : Reg) : RoundTrip.Statement (.and d a b) := by
  have := d.isLt; have := a.isLt; have := b.isLt
  refine roundTrip_pack rfl rfl rfl (by simp) (by simp; try omega) fun hi u e => ?_
  show (decRRR u .and) = _
  simp only [List.map] at e
  simp (disch := omega) [decRRR, asR, fmtR, e, mk, hi]

theorem RoundTrip.andImm (d a : Reg) (imm : BitVec 32) : RoundTrip.Statement (.andImm d a imm) := by
  have := d.isLt; have := a.isLt; have := imm.isLt
  refine roundTrip_pack rfl rfl rfl (by simp) (by simp; try omega) fun hi u e => ?_
  show (decRRI u .andImm) = _
  simp only [List.map] at e
  simp (disch := omega) [decRRI, asI, fmtI, e, mk, hi]

theorem RoundTrip.or (d a b : Reg) : RoundTrip.Statement (.or d a b) := by
  have := d.isLt; have := a.isLt; have := b.isLt
  refine roundTrip_pack rfl rfl rfl (by simp) (by simp; try omega) fun hi u e => ?_
  show (decRRR u .or) = _
  simp only [List.map] at e
  simp (disch := omega) [decRRR, asR, fmtR, e, mk, hi]

theorem RoundTrip.orImm (d a : Reg) (imm : BitVec 32) : RoundTrip.Statement (.orImm d a imm) := by
  have := d.isLt; have := a.isLt; have := imm.isLt
  refine roundTrip_pack rfl rfl rfl (by simp) (by simp; try omega) fun hi u e => ?_
  show (decRRI u .orImm) = _
  simp only [List.map] at e
  simp (disch := omega) [decRRI, asI, fmtI, e, mk, hi]

theorem RoundTrip.xor (d a b : Reg) : RoundTrip.Statement (.xor d a b) := by
  have := d.isLt; have := a.isLt; have := b.isLt
  refine roundTrip_pack rfl rfl rfl (by simp) (by simp; try omega) fun hi u e => ?_
  show (decRRR u .xor) = _
  simp only [List.map] at e
  simp (disch := omega) [decRRR, asR, fmtR, e, mk, hi]

theorem RoundTrip.xorImm (d a : Reg) (imm : BitVec 32) : RoundTrip.Statement (.xorImm d a imm) := by
  have := d.isLt; have := a.isLt; have := imm.isLt
  refine roundTrip_pack rfl rfl rfl (by simp) (by simp; try omega) fun hi u e => ?_
  show (decRRI u .xorImm) = _
  simp only [List.map] at e
  simp (disch := omega) [decRRI, asI, fmtI, e, mk, hi]

theorem RoundTrip.andn (d a b : Reg) : RoundTrip.Statement (.andn d a b) := by
  have := d.isLt; have := a.isLt; have := b.isLt
  refine roundTrip_pack rfl rfl rfl (by simp) (by simp; try omega) fun hi u e => ?_
  show (decRRR u .andn) = _
  simp only [List.map] at e
  simp (disch := omega) [decRRR, asR, fmtR, e, mk, hi]

theorem RoundTrip.shl (d a b : Reg) : RoundTrip.Statement (.shl d a b) := by
  have := d.isLt; have := a.isLt; have := b.isLt
  refine roundTrip_pack rfl rfl rfl (by simp) (by simp; try omega) fun hi u e => ?_
  show (decRRR u .shl) = _
  simp only [List.map] at e
  simp (disch := omega) [decRRR, asR, fmtR, e, mk, hi]

theorem RoundTrip.shlImm (d a : Reg) (imm : BitVec 32) : RoundTrip.Statement (.shlImm d a imm) := by
  have := d.isLt; have := a.isLt; have := imm.isLt
  refine roundTrip_pack rfl rfl rfl (by simp) (by simp; try omega) fun hi u e => ?_
  show (decRRI u .shlImm) = _
  simp only [List.map] at e
  simp (disch := omega) [decRRI, asI, fmtI, e, mk, hi]

theorem RoundTrip.shr (d a b : Reg) : RoundTrip.Statement (.shr d a b) := by
  have := d.isLt; have := a.isLt; have := b.isLt
  refine roundTrip_pack rfl rfl rfl (by simp) (by simp; try omega) fun hi u e => ?_
  show (decRRR u .shr) = _
  simp only [List.map] at e
  simp (disch := omega) [decRRR, asR, fmtR, e, mk, hi]

theorem RoundTrip.shrImm (d a : Reg) (imm : BitVec 32) : RoundTrip.Statement (.shrImm d a imm) := by
  have := d.isLt; have := a.isLt; have := imm.isLt
  refine roundTrip_pack rfl rfl rfl (by simp) (by simp; try omega) fun hi u e => ?_
  show (decRRI u .shrImm) = _
  simp only [List.map] at e
  simp (disch := omega) [decRRI, asI, fmtI, e, mk, hi]

theorem RoundTrip.sra (d a b : Reg) : RoundTrip.Statement (.sra d a b) := by
  have := d.isLt; have := a.isLt; have := b.isLt
  refine roundTrip_pack rfl rfl rfl (by simp) (by simp; try omega) fun hi u e => ?_
  show (decRRR u .sra) = _
  simp only [List.map] at e
  simp (disch := omega) [decRRR, asR, fmtR, e, mk, hi]

theorem RoundTrip.sraImm (d a : Reg) (imm : BitVec 32) : RoundTrip.Statement (.sraImm d a imm) := by
  have := d.isLt; have := a.isLt; have := imm.isLt
  refine roundTrip_pack rfl rfl rfl (by simp) (by simp; try omega) fun hi u e => ?_
  show (decRRI u .sraImm) = _
  simp only [List.map] at e
  simp (disch := omega) [decRRI, asI, fmtI, e, mk, hi]

theorem RoundTrip.rol (d a b : Reg) : RoundTrip.Statement (.rol d a b) := by
  have := d.isLt; have := a.isLt; have := b.isLt
  refine roundTrip_pack rfl rfl rfl (by simp) (by simp; try omega) fun hi u e => ?_
  show (decRRR u .rol) = _
  simp only [List.map] at e
  simp (disch := omega) [decRRR, asR, fmtR, e, mk, hi]

theorem RoundTrip.rolImm (d a : Reg) (imm : BitVec 32) : RoundTrip.Statement (.rolImm d a imm) := by
  have := d.isLt; have := a.isLt; have := imm.isLt
  refine roundTrip_pack rfl rfl rfl (by simp) (by simp; try omega) fun hi u e => ?_
  show (decRRI u .rolImm) = _
  simp only [List.map] at e
  simp (disch := omega) [decRRI, asI, fmtI, e, mk, hi]

theorem RoundTrip.min (d a b : Reg) : RoundTrip.Statement (.min d a b) := by
  have := d.isLt; have := a.isLt; have := b.isLt
  refine roundTrip_pack rfl rfl rfl (by simp) (by simp; try omega) fun hi u e => ?_
  show (decRRR u .min) = _
  simp only [List.map] at e
  simp (disch := omega) [decRRR, asR, fmtR, e, mk, hi]

theorem RoundTrip.minImm (d a : Reg) (imm : BitVec 32) : RoundTrip.Statement (.minImm d a imm) := by
  have := d.isLt; have := a.isLt; have := imm.isLt
  refine roundTrip_pack rfl rfl rfl (by simp) (by simp; try omega) fun hi u e => ?_
  show (decRRI u .minImm) = _
  simp only [List.map] at e
  simp (disch := omega) [decRRI, asI, fmtI, e, mk, hi]

theorem RoundTrip.max (d a b : Reg) : RoundTrip.Statement (.max d a b) := by
  have := d.isLt; have := a.isLt; have := b.isLt
  refine roundTrip_pack rfl rfl rfl (by simp) (by simp; try omega) fun hi u e => ?_
  show (decRRR u .max) = _
  simp only [List.map] at e
  simp (disch := omega) [decRRR, asR, fmtR, e, mk, hi]

theorem RoundTrip.maxImm (d a : Reg) (imm : BitVec 32) : RoundTrip.Statement (.maxImm d a imm) := by
  have := d.isLt; have := a.isLt; have := imm.isLt
  refine roundTrip_pack rfl rfl rfl (by simp) (by simp; try omega) fun hi u e => ?_
  show (decRRI u .maxImm) = _
  simp only [List.map] at e
  simp (disch := omega) [decRRI, asI, fmtI, e, mk, hi]

theorem RoundTrip.cmp (cond : Cond) (d a b : Reg) : RoundTrip.Statement (.cmp cond d a b) := by
  have := cond.code_lt; have := d.isLt; have := a.isLt; have := b.isLt
  refine roundTrip_pack rfl rfl rfl (by simp) (by simp; try omega) fun hi u e => ?_
  show (asR u fun d a b c m fn z => withCode (Cond.ofCode m) fun cd =>
      mk [c, fn, z] (.cmp cd (regOf d) (regOf a) (regOf b))) = _
  simp only [List.map] at e
  simp (disch := omega) [asR, fmtR, e, mk, hi, withCode]

theorem RoundTrip.cmpImm (cond : Cond) (d a : Reg) (imm : BitVec 32) : RoundTrip.Statement (.cmpImm cond d a imm) := by
  have := cond.code_lt; have := d.isLt; have := a.isLt; have := imm.isLt
  refine roundTrip_pack rfl rfl rfl (by simp) (by simp; try omega) fun hi u e => ?_
  show (asI u fun d a m fn imm => withCode (Cond.ofCode m) fun cd =>
      mk [fn] (.cmpImm cd (regOf d) (regOf a) (BitVec.ofNat 32 imm))) = _
  simp only [List.map] at e
  simp (disch := omega) [asI, fmtI, e, mk, hi, withCode]

theorem RoundTrip.sel (d a b c : Reg) : RoundTrip.Statement (.sel d a b c) := by
  have := d.isLt; have := a.isLt; have := b.isLt; have := c.isLt
  refine roundTrip_pack rfl rfl rfl (by simp) (by simp; try omega) fun hi u e => ?_
  show (asR u fun d a b c m fn z => mk [m, fn, z] (.sel (regOf d) (regOf a) (regOf b) (regOf c))) = _
  simp only [List.map] at e
  simp (disch := omega) [asR, fmtR, e, mk, hi]

theorem RoundTrip.clz (d a : Reg) : RoundTrip.Statement (.clz d a) := by
  have := d.isLt; have := a.isLt
  refine roundTrip_pack rfl rfl rfl (by simp) (by simp; try omega) fun hi u e => ?_
  show (decRR u .clz) = _
  simp only [List.map] at e
  simp (disch := omega) [decRR, asR, fmtR, e, mk, hi]

theorem RoundTrip.popc (d a : Reg) : RoundTrip.Statement (.popc d a) := by
  have := d.isLt; have := a.isLt
  refine roundTrip_pack rfl rfl rfl (by simp) (by simp; try omega) fun hi u e => ?_
  show (decRR u .popc) = _
  simp only [List.map] at e
  simp (disch := omega) [decRR, asR, fmtR, e, mk, hi]

theorem RoundTrip.mov (d a : Reg) : RoundTrip.Statement (.mov d a) := by
  have := d.isLt; have := a.isLt
  refine roundTrip_pack rfl rfl rfl (by simp) (by simp; try omega) fun hi u e => ?_
  show (decRR u .mov) = _
  simp only [List.map] at e
  simp (disch := omega) [decRR, asR, fmtR, e, mk, hi]

theorem RoundTrip.movi (d : Reg) (imm : BitVec 64) : RoundTrip.Statement (.movi d imm) := by
  have := d.isLt; have := imm.isLt
  refine roundTrip_pack rfl rfl rfl (by simp) (by simp [pack]; try omega) fun hi u e => ?_
  show (asX u fun d z1 fn z2 imm => mk [z1, fn, z2] (.movi (regOf d) (BitVec.ofNat 64 imm))) = _
  simp only [List.map] at e
  simp (disch := omega) [asX, fmtX, e, mk, hi]

theorem RoundTrip.bfx (s : Bool) (d a : Reg) (lsb wm1 : BitVec 6) : RoundTrip.Statement (.bfx s d a lsb wm1) := by
  have := bit_lt s; have := d.isLt; have := a.isLt; have := lsb.isLt; have := wm1.isLt
  refine roundTrip_pack rfl rfl rfl (by simp) (by simp [pack]; try omega) fun hi u e => ?_
  show (asI u fun d a m fn imm =>
      match unpack [6, 2, 6, 18] imm with
      | [lsb, z1, wm1, z2] => mk [m, fn / 2, z1, z2]
          (.bfx (flag (fn % 2)) (regOf d) (regOf a) (BitVec.ofNat 6 lsb) (BitVec.ofNat 6 wm1))
      | _ => .error .illegalEnc) = _
  simp only [List.map] at e
  simp (disch := omega) [asI, fmtI, e, mk, hi, unpack_pack_cons, unpack_small]

theorem RoundTrip.bfi (d a : Reg) (lsb wm1 : BitVec 6) : RoundTrip.Statement (.bfi d a lsb wm1) := by
  have := d.isLt; have := a.isLt; have := lsb.isLt; have := wm1.isLt
  refine roundTrip_pack rfl rfl rfl (by simp) (by simp [pack]; try omega) fun hi u e => ?_
  show (asI u fun d a m fn imm =>
      match unpack [6, 2, 6, 18] imm with
      | [lsb, z1, wm1, z2] => mk [m, fn, z1, z2]
          (.bfi (regOf d) (regOf a) (BitVec.ofNat 6 lsb) (BitVec.ofNat 6 wm1))
      | _ => .error .illegalEnc) = _
  simp only [List.map] at e
  simp (disch := omega) [asI, fmtI, e, mk, hi, unpack_pack_cons, unpack_small]

theorem RoundTrip.fadd (ty : ElemType) (rm : RoundMode) (d a b : Reg) : RoundTrip.Statement (.fadd ty rm d a b) := by
  have := ty.code_lt; have := rm.code_lt; have := d.isLt; have := a.isLt; have := b.isLt
  refine roundTrip_pack rfl rfl rfl (by simp) (by simp; try omega) fun hi u e => ?_
  show (decFRRR u .fadd) = _
  simp only [List.map] at e
  simp (disch := omega) [decFRRR, asR, fmtR, e, mk, hi, withCode]

theorem RoundTrip.fsub (ty : ElemType) (rm : RoundMode) (d a b : Reg) : RoundTrip.Statement (.fsub ty rm d a b) := by
  have := ty.code_lt; have := rm.code_lt; have := d.isLt; have := a.isLt; have := b.isLt
  refine roundTrip_pack rfl rfl rfl (by simp) (by simp; try omega) fun hi u e => ?_
  show (decFRRR u .fsub) = _
  simp only [List.map] at e
  simp (disch := omega) [decFRRR, asR, fmtR, e, mk, hi, withCode]

theorem RoundTrip.fmul (ty : ElemType) (rm : RoundMode) (d a b : Reg) : RoundTrip.Statement (.fmul ty rm d a b) := by
  have := ty.code_lt; have := rm.code_lt; have := d.isLt; have := a.isLt; have := b.isLt
  refine roundTrip_pack rfl rfl rfl (by simp) (by simp; try omega) fun hi u e => ?_
  show (decFRRR u .fmul) = _
  simp only [List.map] at e
  simp (disch := omega) [decFRRR, asR, fmtR, e, mk, hi, withCode]

theorem RoundTrip.ffma (ty : ElemType) (rm : RoundMode) (d a b c : Reg) :
    RoundTrip.Statement (.ffma ty rm d a b c) := by
  have := ty.code_lt; have := rm.code_lt; have := d.isLt; have := a.isLt; have := b.isLt; have := c.isLt
  refine roundTrip_pack rfl rfl rfl (by simp) (by simp; try omega) fun hi u e => ?_
  show (asR u fun d a b c m fn z => withCode (ElemType.ofCode fn) fun ty => withCode (RoundMode.ofCode m) fun rm =>
      mk [z] (.ffma ty rm (regOf d) (regOf a) (regOf b) (regOf c))) = _
  simp only [List.map] at e
  simp (disch := omega) [asR, fmtR, e, mk, hi, withCode]

theorem RoundTrip.fmin (ty : ElemType) (d a b : Reg) : RoundTrip.Statement (.fmin ty d a b) := by
  have := ty.code_lt; have := d.isLt; have := a.isLt; have := b.isLt
  refine roundTrip_pack rfl rfl rfl (by simp) (by simp; try omega) fun hi u e => ?_
  show (asR u fun d a b c m fn z => withCode (ElemType.ofCode fn) fun ty =>
      mk [c, m, z] (.fmin ty (regOf d) (regOf a) (regOf b))) = _
  simp only [List.map] at e
  simp (disch := omega) [asR, fmtR, e, mk, hi, withCode]

theorem RoundTrip.fmax (ty : ElemType) (d a b : Reg) : RoundTrip.Statement (.fmax ty d a b) := by
  have := ty.code_lt; have := d.isLt; have := a.isLt; have := b.isLt
  refine roundTrip_pack rfl rfl rfl (by simp) (by simp; try omega) fun hi u e => ?_
  show (asR u fun d a b c m fn z => withCode (ElemType.ofCode fn) fun ty =>
      mk [c, m, z] (.fmax ty (regOf d) (regOf a) (regOf b))) = _
  simp only [List.map] at e
  simp (disch := omega) [asR, fmtR, e, mk, hi, withCode]

theorem RoundTrip.fcmp (cond : Cond) (ty : ElemType) (d a b : Reg) : RoundTrip.Statement (.fcmp cond ty d a b) := by
  have := cond.code_lt; have := ty.code_lt; have := d.isLt; have := a.isLt; have := b.isLt
  refine roundTrip_pack rfl rfl rfl (by simp) (by simp; try omega) fun hi u e => ?_
  show (asR u fun d a b c m fn z => withCode (ElemType.ofCode fn) fun ty => withCode (Cond.ofCode m) fun cd =>
      mk [c, z] (.fcmp cd ty (regOf d) (regOf a) (regOf b))) = _
  simp only [List.map] at e
  simp (disch := omega) [asR, fmtR, e, mk, hi, withCode]

theorem RoundTrip.fcvt (dst src : ElemType) (rm : RoundMode) (d a : Reg) :
    RoundTrip.Statement (.fcvt dst src rm d a) := by
  have := dst.code_lt; have := src.code_lt; have := rm.code_lt; have := d.isLt; have := a.isLt
  refine roundTrip_pack rfl rfl rfl (by simp) (by simp [pack]; try omega) fun hi u e => ?_
  show (asR u fun d a b c m fn z =>
      match unpack [4, 4] fn with
      | [dst, src] => withCode (ElemType.ofCode dst) fun dst => withCode (ElemType.ofCode src) fun src =>
        withCode (RoundMode.ofCode m) fun rm => mk [b, c, z] (.fcvt dst src rm (regOf d) (regOf a))
      | _ => .error .illegalEnc) = _
  simp only [List.map] at e
  simp (disch := omega) [asR, fmtR, e, mk, hi, withCode, unpack_pack_cons, unpack_small]

theorem RoundTrip.br (off : BitVec 32) : RoundTrip.Statement (.br off) := by
  have := off.isLt
  refine roundTrip_pack rfl rfl rfl (by simp) (by simp; try omega) fun hi u e => ?_
  show (asB u fun a b cnd fn off => mk [a, b, cnd, fn] (.br (BitVec.ofNat 32 off))) = _
  simp only [List.map] at e
  simp (disch := omega) [asB, fmtB, e, mk, hi]

theorem RoundTrip.brc (cond : Cond) (a b : Reg) (off : BitVec 32) : RoundTrip.Statement (.brc cond a b off) := by
  have := cond.code_lt; have := a.isLt; have := b.isLt; have := off.isLt
  refine roundTrip_pack rfl rfl rfl (by simp) (by simp; try omega) fun hi u e => ?_
  show (asB u fun a b cnd fn off => withCode (Cond.ofCode cnd) fun cd =>
      mk [fn] (.brc cd (regOf a) (regOf b) (BitVec.ofNat 32 off))) = _
  simp only [List.map] at e
  simp (disch := omega) [asB, fmtB, e, mk, hi, withCode]

theorem RoundTrip.call (off : BitVec 32) : RoundTrip.Statement (.call off) := by
  have := off.isLt
  refine roundTrip_pack rfl rfl rfl (by simp) (by simp; try omega) fun hi u e => ?_
  show (asB u fun a b cnd fn off => mk [a, b, cnd, fn] (.call (BitVec.ofNat 32 off))) = _
  simp only [List.map] at e
  simp (disch := omega) [asB, fmtB, e, mk, hi]

theorem RoundTrip.ret (a : Reg) : RoundTrip.Statement (.ret a) := by
  have := a.isLt
  refine roundTrip_pack rfl rfl rfl (by simp) (by simp; try omega) fun hi u e => ?_
  show (asR u fun d a b c m fn z => mk [d, b, c, m, fn, z] (.ret (regOf a))) = _
  simp only [List.map] at e
  simp (disch := omega) [asR, fmtR, e, mk, hi]

theorem RoundTrip.jmpr (d a : Reg) : RoundTrip.Statement (.jmpr d a) := by
  have := d.isLt; have := a.isLt
  refine roundTrip_pack rfl rfl rfl (by simp) (by simp; try omega) fun hi u e => ?_
  show (decRR u .jmpr) = _
  simp only [List.map] at e
  simp (disch := omega) [decRR, asR, fmtR, e, mk, hi]

theorem RoundTrip.chk (a b : Reg) (off : BitVec 32) : RoundTrip.Statement (.chk a b off) := by
  have := a.isLt; have := b.isLt; have := off.isLt
  refine roundTrip_pack rfl rfl rfl (by simp) (by simp; try omega) fun hi u e => ?_
  show (asB u fun a b cnd fn off => mk [cnd, fn] (.chk (regOf a) (regOf b) (BitVec.ofNat 32 off))) = _
  simp only [List.map] at e
  simp (disch := omega) [asB, fmtB, e, mk, hi]

theorem RoundTrip.yield (mask : BitVec 32) (budget : BitVec 8) : RoundTrip.Statement (.yield mask budget) := by
  have := mask.isLt; have := budget.isLt
  refine roundTrip_pack rfl rfl rfl (by simp) (by simp; try omega) fun hi u e => ?_
  show (asI u fun d a m fn imm => mk [d, a, m] (.yield (BitVec.ofNat 32 imm) (BitVec.ofNat 8 fn))) = _
  simp only [List.map] at e
  simp (disch := omega) [asI, fmtI, e, mk, hi]

theorem RoundTrip.exit (a : Reg) : RoundTrip.Statement (.exit a) := by
  have := a.isLt
  refine roundTrip_pack rfl rfl rfl (by simp) (by simp; try omega) fun hi u e => ?_
  show (asR u fun d a b c m fn z => mk [d, b, c, m, fn, z] (.exit (regOf a))) = _
  simp only [List.map] at e
  simp (disch := omega) [asR, fmtR, e, mk, hi]

theorem RoundTrip.trap (n : BitVec 16) : RoundTrip.Statement (.trap n) := by
  have := n.isLt
  refine roundTrip_pack rfl rfl rfl (by simp) (by simp; try omega) fun hi u e => ?_
  show (asI u fun d a m fn imm => mk [d, a, m, fn, imm / 0x10000] (.trap (BitVec.ofNat 16 imm))) = _
  simp only [List.map] at e
  simp (disch := omega) [asI, fmtI, e, mk, hi]
  try omega

theorem RoundTrip.ld (sz : Size) (sx tg k : Bool) (d : Reg) (m : MemArg) :
    RoundTrip.Statement (.ld sz sx tg k d m) := by
  have := sz.code_lt; have := bit_lt sx; have := bit_lt tg; have := bit_lt k; have := d.isLt; have := m.sp.code_lt
  have := m.base.isLt; have := m.off.isLt
  refine roundTrip_pack rfl rfl rfl (by simp) (by simp; try omega) fun hi u e => ?_
  show (decLoad u .ld) = _
  simp only [List.map] at e
  simp (disch := omega) [decLoad, asM, fmtM, e, mk, hi, withCode, memArg, unpack_pack_cons, unpack_small]

theorem RoundTrip.st (sz : Size) (tg k : Bool) (d : Reg) (m : MemArg) : RoundTrip.Statement (.st sz tg k d m) := by
  have := sz.code_lt; have := bit_lt tg; have := bit_lt k; have := d.isLt; have := m.sp.code_lt; have := m.base.isLt
  have := m.off.isLt
  refine roundTrip_pack rfl rfl rfl (by simp) (by simp; try omega) fun hi u e => ?_
  show (asM u fun d base sp sz tg sx fn off z =>
      match unpack [1, 4] fn with
      | [k, fz] => withCode (Size.ofCode sz) fun sz =>
        mk [sx, fz, z] (.st sz (flag tg) (flag k) (regOf d) (memArg sp base off))
      | _ => .error .illegalEnc) = _
  simp only [List.map] at e
  simp (disch := omega) [asM, fmtM, e, mk, hi, withCode, memArg, unpack_pack_cons, unpack_small]

theorem RoundTrip.lds (sz : Size) (sx tg k : Bool) (d : Reg) (m : MemArg) :
    RoundTrip.Statement (.lds sz sx tg k d m) := by
  have := sz.code_lt; have := bit_lt sx; have := bit_lt tg; have := bit_lt k; have := d.isLt; have := m.sp.code_lt
  have := m.base.isLt; have := m.off.isLt
  refine roundTrip_pack rfl rfl rfl (by simp) (by simp; try omega) fun hi u e => ?_
  show (decLoad u .lds) = _
  simp only [List.map] at e
  simp (disch := omega) [decLoad, asM, fmtM, e, mk, hi, withCode, memArg, unpack_pack_cons, unpack_small]

theorem RoundTrip.tagTest (sz : Size) (d : Reg) (m : MemArg) : RoundTrip.Statement (.tagTest sz d m) := by
  have := sz.code_lt; have := d.isLt; have := m.sp.code_lt; have := m.base.isLt; have := m.off.isLt
  refine roundTrip_pack rfl rfl rfl (by simp) (by simp; try omega) fun hi u e => ?_
  show (decTag u) = _
  simp only [List.map] at e
  simp (disch := omega) [decTag, asM, fmtM, e, mk, hi, withCode, memArg, unpack_pack_cons, unpack_small]

theorem RoundTrip.tagEmpty (sz : Size) (m : MemArg) : RoundTrip.Statement (.tagEmpty sz m) := by
  have := sz.code_lt; have := m.sp.code_lt; have := m.base.isLt; have := m.off.isLt
  refine roundTrip_pack rfl rfl rfl (by simp) (by simp; try omega) fun hi u e => ?_
  show (decTag u) = _
  simp only [List.map] at e
  simp (disch := omega) [decTag, asM, fmtM, e, mk, hi, withCode, memArg, unpack_pack_cons, unpack_small]

theorem RoundTrip.tagFull (sz : Size) (m : MemArg) : RoundTrip.Statement (.tagFull sz m) := by
  have := sz.code_lt; have := m.sp.code_lt; have := m.base.isLt; have := m.off.isLt
  refine roundTrip_pack rfl rfl rfl (by simp) (by simp; try omega) fun hi u e => ?_
  show (decTag u) = _
  simp only [List.map] at e
  simp (disch := omega) [decTag, asM, fmtM, e, mk, hi, withCode, memArg, unpack_pack_cons, unpack_small]

theorem RoundTrip.tagSpent (sz : Size) (m : MemArg) : RoundTrip.Statement (.tagSpent sz m) := by
  have := sz.code_lt; have := m.sp.code_lt; have := m.base.isLt; have := m.off.isLt
  refine roundTrip_pack rfl rfl rfl (by simp) (by simp; try omega) fun hi u e => ?_
  show (decTag u) = _
  simp only [List.map] at e
  simp (disch := omega) [decTag, asM, fmtM, e, mk, hi, withCode, memArg, unpack_pack_cons, unpack_small]

theorem RoundTrip.hstart (d a b c : Reg) : RoundTrip.Statement (.hstart d a b c) := by
  have := d.isLt; have := a.isLt; have := b.isLt; have := c.isLt
  refine roundTrip_pack rfl rfl rfl (by simp) (by simp; try omega) fun hi u e => ?_
  show (asR u fun d a b c m fn z => mk [m, fn, z] (.hstart (regOf d) (regOf a) (regOf b) (regOf c))) = _
  simp only [List.map] at e
  simp (disch := omega) [asR, fmtR, e, mk, hi]

theorem RoundTrip.hjoin (d a : Reg) : RoundTrip.Statement (.hjoin d a) := by
  have := d.isLt; have := a.isLt
  refine roundTrip_pack rfl rfl rfl (by simp) (by simp; try omega) fun hi u e => ?_
  show (decRR u .hjoin) = _
  simp only [List.map] at e
  simp (disch := omega) [decRR, asR, fmtR, e, mk, hi]

theorem RoundTrip.phaseC (n : Level) : RoundTrip.Statement (.phaseC n) := by
  have := n.code_lt
  refine roundTrip_pack rfl rfl rfl (by simp) (by simp; try omega) fun hi u e => ?_
  show (asI u fun d a m fn imm => withCode (Level.ofCode imm) fun n =>
      match fn with
      | 0 => mk [d, a, m] (.phaseC n)
      | 1 => mk [d, a, m] (.phaseX n)
      | _ => .error .illegalEnc) = _
  simp only [List.map] at e
  simp (disch := omega) [asI, fmtI, e, mk, hi, withCode]

theorem RoundTrip.phaseX (n : Level) : RoundTrip.Statement (.phaseX n) := by
  have := n.code_lt
  refine roundTrip_pack rfl rfl rfl (by simp) (by simp; try omega) fun hi u e => ?_
  show (asI u fun d a m fn imm => withCode (Level.ofCode imm) fun n =>
      match fn with
      | 0 => mk [d, a, m] (.phaseC n)
      | 1 => mk [d, a, m] (.phaseX n)
      | _ => .error .illegalEnc) = _
  simp only [List.map] at e
  simp (disch := omega) [asI, fmtI, e, mk, hi, withCode]

theorem RoundTrip.vote (op : VoteOp) (d a : Reg) (n : Level) : RoundTrip.Statement (.vote op d a n) := by
  have := op.code_lt; have := d.isLt; have := a.isLt; have := n.code_lt
  refine roundTrip_pack rfl rfl rfl (by simp) (by simp; try omega) fun hi u e => ?_
  show (asR u fun d a b c m fn z => withCode (VoteOp.ofCode fn) fun op => withCode (Level.ofCode m) fun n =>
      mk [b, c, z] (.vote op (regOf d) (regOf a) n)) = _
  simp only [List.map] at e
  simp (disch := omega) [asR, fmtR, e, mk, hi, withCode]

theorem RoundTrip.evsig (e : Fin 8) (ct : Cnt) (a : Reg) (off : BitVec 32) (h0 : Fin 11) :
    RoundTrip.Statement (.evsig e ct a off h0) := by
  have := e.isLt; have := ct.isLt; have := a.isLt; have := off.isLt; have := h0.isLt
  refine roundTrip_pack rfl rfl rfl (by simp) (by simp; try omega) fun hi u e => ?_
  show (asI u fun d a m fn imm =>
      if h : fn < 11 then mk [d / 8] (.evsig (gdOf d) (cntOf m) (regOf a) (BitVec.ofNat 32 imm) ⟨fn, h⟩)
      else .error .illegalEnc) = _
  simp only [List.map] at e
  simp (disch := omega) [asI, fmtI, e, mk, hi]

theorem RoundTrip.sleept (a : Reg) : RoundTrip.Statement (.sleept a) := by
  have := a.isLt
  refine roundTrip_pack rfl rfl rfl (by simp) (by simp; try omega) fun hi u e => ?_
  show (asR u fun d a b c m fn z => mk [d, b, c, m, fn, z] (.sleept (regOf a))) = _
  simp only [List.map] at e
  simp (disch := omega) [asR, fmtR, e, mk, hi]

theorem RoundTrip.time (d : Reg) : RoundTrip.Statement (.time d) := by
  have := d.isLt
  refine roundTrip_pack rfl rfl rfl (by simp) (by simp; try omega) fun hi u e => ?_
  show (asR u fun d a b c m fn z => mk [a, b, c, m, fn, z] (.time (regOf d))) = _
  simp only [List.map] at e
  simp (disch := omega) [asR, fmtR, e, mk, hi]

theorem RoundTrip.waitcGe (ct : Cnt) (n : BitVec 32) : RoundTrip.Statement (.waitcGe ct n) := by
  have := ct.isLt; have := n.isLt
  refine roundTrip_pack rfl rfl rfl (by simp) (by simp; try omega) fun hi u e => ?_
  show (asI u fun d a m fn imm =>
      match fn with
      | 0 => mk [d, m, a / 16] (.waitcGe (cntOf a) (BitVec.ofNat 32 imm))
      | 1 => mk [d, m, a, imm / 0x10000] (.waitcLeOl (BitVec.ofNat 16 imm))
      | 2 => mk [d, m, a, imm / 0x10000] (.waitcLeOs (BitVec.ofNat 16 imm))
      | _ => .error .illegalEnc) = _
  simp only [List.map] at e
  simp (disch := omega) [asI, fmtI, e, mk, hi]

theorem RoundTrip.waitcLeOl (n : BitVec 16) : RoundTrip.Statement (.waitcLeOl n) := by
  have := n.isLt
  refine roundTrip_pack rfl rfl rfl (by simp) (by simp; try omega) fun hi u e => ?_
  show (asI u fun d a m fn imm =>
      match fn with
      | 0 => mk [d, m, a / 16] (.waitcGe (cntOf a) (BitVec.ofNat 32 imm))
      | 1 => mk [d, m, a, imm / 0x10000] (.waitcLeOl (BitVec.ofNat 16 imm))
      | 2 => mk [d, m, a, imm / 0x10000] (.waitcLeOs (BitVec.ofNat 16 imm))
      | _ => .error .illegalEnc) = _
  simp only [List.map] at e
  simp (disch := omega) [asI, fmtI, e, mk, hi]
  try omega

theorem RoundTrip.waitcLeOs (n : BitVec 16) : RoundTrip.Statement (.waitcLeOs n) := by
  have := n.isLt
  refine roundTrip_pack rfl rfl rfl (by simp) (by simp; try omega) fun hi u e => ?_
  show (asI u fun d a m fn imm =>
      match fn with
      | 0 => mk [d, m, a / 16] (.waitcGe (cntOf a) (BitVec.ofNat 32 imm))
      | 1 => mk [d, m, a, imm / 0x10000] (.waitcLeOl (BitVec.ofNat 16 imm))
      | 2 => mk [d, m, a, imm / 0x10000] (.waitcLeOs (BitVec.ofNat 16 imm))
      | _ => .error .illegalEnc) = _
  simp only [List.map] at e
  simp (disch := omega) [asI, fmtI, e, mk, hi]
  try omega

theorem RoundTrip.nbrd (d : Reg) (p : Pred) (dir : Fin 4) : RoundTrip.Statement (.nbrd d p dir) := by
  have := d.isLt; have := p.isLt; have := dir.isLt
  refine roundTrip_pack rfl rfl rfl (by simp) (by simp; try omega) fun hi u e => ?_
  show (asI u fun d a m fn imm =>
      if h : imm < 4 then mk [m, fn, a / 8] (.nbrd (regOf d) (predOf a) ⟨imm, h⟩) else .error .illegalEnc) = _
  simp only [List.map] at e
  simp (disch := omega) [asI, fmtI, e, mk, hi]

theorem RoundTrip.recv (sz : Size) (sx tg k : Bool) (d base : Reg) (off : BitVec 16) :
    RoundTrip.Statement (.recv sz sx tg k d base off) := by
  have := sz.code_lt; have := bit_lt sx; have := bit_lt tg; have := bit_lt k; have := d.isLt; have := base.isLt
  have := off.isLt
  refine roundTrip_pack rfl rfl rfl (by simp) (by simp; try omega) fun hi u e => ?_
  show (asM u fun d base sp sz tg sx fn off z =>
      match unpack [1, 4] fn with
      | [k, fz] => withCode (Size.ofCode sz) fun sz =>
        mk [fz, z, if sp == 1 then 0 else 1]
          (.recv sz (flag sx) (flag tg) (flag k) (regOf d) (regOf base) (BitVec.ofNat 16 off))
      | _ => .error .illegalEnc) = _
  simp only [List.map] at e
  simp (disch := omega) [asM, fmtM, e, mk, hi, withCode, unpack_pack_cons, unpack_small]

theorem RoundTrip.plog (op : PlogOp) (d : Pred) (a : Fin 32) (b : Pred) : RoundTrip.Statement (.plog op d a b) := by
  have := op.code_lt; have := d.isLt; have := a.isLt; have := b.isLt
  refine roundTrip_pack rfl rfl rfl (by simp) (by simp; try omega) fun hi u e => ?_
  show (asR u fun d a b c m fn z => withCode (PlogOp.ofCode fn) fun op =>
      mk [c, m, z, d / 8, b / 8] (.plog op (predOf d) (regOf a) (predOf b))) = _
  simp only [List.map] at e
  simp (disch := omega) [asR, fmtR, e, mk, hi, withCode]

theorem RoundTrip.pcnt (mode : PcntMode) (d : Reg) (a : Pred) : RoundTrip.Statement (.pcnt mode d a) := by
  have := mode.code_lt; have := d.isLt; have := a.isLt
  refine roundTrip_pack rfl rfl rfl (by simp) (by simp; try omega) fun hi u e => ?_
  show (asR u fun d a b c m fn z => withCode (PcntMode.ofCode fn) fun md =>
      mk [b, c, m, z, a / 8] (.pcnt md (regOf d) (predOf a))) = _
  simp only [List.map] at e
  simp (disch := omega) [asR, fmtR, e, mk, hi, withCode]

theorem RoundTrip.gset (g : Guard) (v : Fin 3) : RoundTrip.Statement (.gset g v) := by
  have := g.isLt; have := v.isLt
  refine roundTrip_pack rfl rfl rfl (by simp) (by simp; try omega) fun hi u e => ?_
  show (asI u fun d a m fn imm =>
      if h : imm < 3 then mk [a, m, fn, d / 8] (.gset (gdOf d) ⟨imm, h⟩) else .error .illegalEnc) = _
  simp only [List.map] at e
  simp (disch := omega) [asI, fmtI, e, mk, hi]

theorem RoundTrip.gres (g : Guard) (a : Reg) : RoundTrip.Statement (.gres g a) := by
  have := g.isLt; have := a.isLt
  refine roundTrip_pack rfl rfl rfl (by simp) (by simp; try omega) fun hi u e => ?_
  show (asR u fun d a b c m fn z => mk [b, c, m, fn, z, d / 8] (.gres (gdOf d) (regOf a))) = _
  simp only [List.map] at e
  simp (disch := omega) [asR, fmtR, e, mk, hi]

theorem RoundTrip.repseq (n : BitVec 5) : RoundTrip.Statement (.repseq n) := by
  have := n.isLt
  refine roundTrip_pack rfl rfl rfl (by simp) (by simp; try omega) fun hi u e => ?_
  show (asI u fun d a m fn imm => mk [d, a, m, fn, imm / 32] (.repseq (BitVec.ofNat 5 imm))) = _
  simp only [List.map] at e
  simp (disch := omega) [asI, fmtI, e, mk, hi]
  try omega

theorem RoundTrip.repgo (n : BitVec 16) (stride : BitVec 4) : RoundTrip.Statement (.repgo n stride) := by
  have := n.isLt; have := stride.isLt
  refine roundTrip_pack rfl rfl rfl (by simp) (by simp; try omega) fun hi u e => ?_
  show (asI u fun d a m fn imm => mk [d, a, m, fn / 16, imm / 0x10000]
      (.repgo (BitVec.ofNat 16 imm) (BitVec.ofNat 4 fn))) = _
  simp only [List.map] at e
  simp (disch := omega) [asI, fmtI, e, mk, hi]
  try omega

theorem RoundTrip.repetitionReissue (core ctx : Nat) : RoundTrip.Statement (.repetitionReissue core ctx) :=
  roundTrip_event rfl rfl

theorem RoundTrip.cntset (ct : Cnt) (v : BitVec 32) : RoundTrip.Statement (.cntset ct v) := by
  have := ct.isLt; have := v.isLt
  refine roundTrip_pack rfl rfl rfl (by simp) (by simp; try omega) fun hi u e => ?_
  show (asI u fun d a m fn imm => mk [d, m, fn, a / 16] (.cntset (cntOf a) (BitVec.ofNat 32 imm))) = _
  simp only [List.map] at e
  simp (disch := omega) [asI, fmtI, e, mk, hi]

theorem RoundTrip.aadd (x : AtomicArgs) : RoundTrip.Statement (.aadd x) := by
  have := bit_lt x.w; have := bit_lt x.tg; have := x.d.isLt; have := x.a.isLt; have := x.b.isLt; have := x.ct.isLt
  have := x.gd.isLt; have := bit_lt x.ord.acq; have := bit_lt x.ord.rel; have := x.ord.sc.code_lt; have := x.tag.isLt
  refine roundTrip_pack rfl rfl rfl (by simp) (by simp [pack]; try omega) fun hi u e => ?_
  show (decAtomic u false fun x _ => .aadd x) = _
  simp only [List.map] at e
  simp (disch := omega) [decAtomic, asE, fmtE, e, mk, hi, withOrder, withCode, unpack_pack_cons, unpack_small]

theorem RoundTrip.aaddw (x : AtomicArgs) : RoundTrip.Statement (.aaddw x) := by
  have := bit_lt x.w; have := bit_lt x.tg; have := x.d.isLt; have := x.a.isLt; have := x.b.isLt; have := x.ct.isLt
  have := x.gd.isLt; have := bit_lt x.ord.acq; have := bit_lt x.ord.rel; have := x.ord.sc.code_lt; have := x.tag.isLt
  refine roundTrip_pack rfl rfl rfl (by simp) (by simp [pack]; try omega) fun hi u e => ?_
  show (decAtomic u false fun x _ => .aaddw x) = _
  simp only [List.map] at e
  simp (disch := omega) [decAtomic, asE, fmtE, e, mk, hi, withOrder, withCode, unpack_pack_cons, unpack_small]

theorem RoundTrip.aswap (x : AtomicArgs) : RoundTrip.Statement (.aswap x) := by
  have := bit_lt x.w; have := bit_lt x.tg; have := x.d.isLt; have := x.a.isLt; have := x.b.isLt; have := x.ct.isLt
  have := x.gd.isLt; have := bit_lt x.ord.acq; have := bit_lt x.ord.rel; have := x.ord.sc.code_lt; have := x.tag.isLt
  refine roundTrip_pack rfl rfl rfl (by simp) (by simp [pack]; try omega) fun hi u e => ?_
  show (decAtomic u false fun x _ => .aswap x) = _
  simp only [List.map] at e
  simp (disch := omega) [decAtomic, asE, fmtE, e, mk, hi, withOrder, withCode, unpack_pack_cons, unpack_small]

theorem RoundTrip.acas (x : AtomicArgs) (c : Reg) : RoundTrip.Statement (.acas x c) := by
  have := bit_lt x.w; have := bit_lt x.tg; have := x.d.isLt; have := x.a.isLt; have := x.b.isLt; have := x.ct.isLt
  have := x.gd.isLt; have := bit_lt x.ord.acq; have := bit_lt x.ord.rel; have := x.ord.sc.code_lt; have := x.tag.isLt
  have := c.isLt
  refine roundTrip_pack rfl rfl rfl (by simp) (by simp [pack]; try omega) fun hi u e => ?_
  show (decAtomic u true fun x c => .acas x c) = _
  simp only [List.map] at e
  simp (disch := omega) [decAtomic, asE, fmtE, e, mk, hi, withOrder, withCode, unpack_pack_cons, unpack_small]

theorem RoundTrip.amin (x : AtomicArgs) : RoundTrip.Statement (.amin x) := by
  have := bit_lt x.w; have := bit_lt x.tg; have := x.d.isLt; have := x.a.isLt; have := x.b.isLt; have := x.ct.isLt
  have := x.gd.isLt; have := bit_lt x.ord.acq; have := bit_lt x.ord.rel; have := x.ord.sc.code_lt; have := x.tag.isLt
  refine roundTrip_pack rfl rfl rfl (by simp) (by simp [pack]; try omega) fun hi u e => ?_
  show (decAtomic u false fun x _ => .amin x) = _
  simp only [List.map] at e
  simp (disch := omega) [decAtomic, asE, fmtE, e, mk, hi, withOrder, withCode, unpack_pack_cons, unpack_small]

theorem RoundTrip.amax (x : AtomicArgs) : RoundTrip.Statement (.amax x) := by
  have := bit_lt x.w; have := bit_lt x.tg; have := x.d.isLt; have := x.a.isLt; have := x.b.isLt; have := x.ct.isLt
  have := x.gd.isLt; have := bit_lt x.ord.acq; have := bit_lt x.ord.rel; have := x.ord.sc.code_lt; have := x.tag.isLt
  refine roundTrip_pack rfl rfl rfl (by simp) (by simp [pack]; try omega) fun hi u e => ?_
  show (decAtomic u false fun x _ => .amax x) = _
  simp only [List.map] at e
  simp (disch := omega) [decAtomic, asE, fmtE, e, mk, hi, withOrder, withCode, unpack_pack_cons, unpack_small]

theorem RoundTrip.aand (x : AtomicArgs) : RoundTrip.Statement (.aand x) := by
  have := bit_lt x.w; have := bit_lt x.tg; have := x.d.isLt; have := x.a.isLt; have := x.b.isLt; have := x.ct.isLt
  have := x.gd.isLt; have := bit_lt x.ord.acq; have := bit_lt x.ord.rel; have := x.ord.sc.code_lt; have := x.tag.isLt
  refine roundTrip_pack rfl rfl rfl (by simp) (by simp [pack]; try omega) fun hi u e => ?_
  show (decAtomic u false fun x _ => .aand x) = _
  simp only [List.map] at e
  simp (disch := omega) [decAtomic, asE, fmtE, e, mk, hi, withOrder, withCode, unpack_pack_cons, unpack_small]

theorem RoundTrip.aor (x : AtomicArgs) : RoundTrip.Statement (.aor x) := by
  have := bit_lt x.w; have := bit_lt x.tg; have := x.d.isLt; have := x.a.isLt; have := x.b.isLt; have := x.ct.isLt
  have := x.gd.isLt; have := bit_lt x.ord.acq; have := bit_lt x.ord.rel; have := x.ord.sc.code_lt; have := x.tag.isLt
  refine roundTrip_pack rfl rfl rfl (by simp) (by simp [pack]; try omega) fun hi u e => ?_
  show (decAtomic u false fun x _ => .aor x) = _
  simp only [List.map] at e
  simp (disch := omega) [decAtomic, asE, fmtE, e, mk, hi, withOrder, withCode, unpack_pack_cons, unpack_small]

theorem RoundTrip.await (w : Bool) (d a b : Reg) (ct : Cnt) (acq : Bool) (sc : Scope) :
    RoundTrip.Statement (.await w d a b ct acq sc) := by
  have := bit_lt w; have := d.isLt; have := a.isLt; have := b.isLt; have := ct.isLt; have := bit_lt acq
  have := sc.code_lt
  refine roundTrip_pack rfl rfl rfl (by simp) (by simp; try omega) fun hi u e => ?_
  show (asE u fun d a b gd sc aq rl ct c fn imm => withCode (Scope.ofCode sc) fun sc =>
      mk [gd, rl, c, fn / 2, imm] (.await (flag (fn % 2)) (regOf d) (regOf a) (regOf b) (cntOf ct) (flag aq) sc)) = _
  simp only [List.map] at e
  simp (disch := omega) [asE, fmtE, e, mk, hi, withCode]

theorem RoundTrip.awaitRegistrationRetry (core ctx : Nat) : RoundTrip.Statement (.awaitRegistrationRetry core ctx) :=
  roundTrip_event rfl rfl

theorem RoundTrip.evpost (a b : Reg) (ct : Cnt) (gd : Guard) (ord : MemOrder) :
    RoundTrip.Statement (.evpost a b ct gd ord) := by
  have := a.isLt; have := b.isLt; have := ct.isLt; have := gd.isLt; have := bit_lt ord.acq; have := bit_lt ord.rel
  have := ord.sc.code_lt
  refine roundTrip_pack rfl rfl rfl (by simp) (by simp; try omega) fun hi u e => ?_
  show (asE u fun d a b gd sc aq rl ct c fn imm => withOrder sc aq rl fun ord =>
      mk [d, c, fn, imm] (.evpost (regOf a) (regOf b) (cntOf ct) (gdOf gd) ord)) = _
  simp only [List.map] at e
  simp (disch := omega) [asE, fmtE, e, mk, hi, withOrder, withCode]

theorem RoundTrip.evwait (d a b : Reg) : RoundTrip.Statement (.evwait d a b) := by
  have := d.isLt; have := a.isLt; have := b.isLt
  refine roundTrip_pack rfl rfl rfl (by simp) (by simp; try omega) fun hi u e => ?_
  show (asE u fun d a b gd sc aq rl ct c fn imm =>
      mk [gd, sc, aq, rl, ct, c, fn, imm] (.evwait (regOf d) (regOf a) (regOf b))) = _
  simp only [List.map] at e
  simp (disch := omega) [asE, fmtE, e, mk, hi]

theorem RoundTrip.evwaitRegistrationRetry (core ctx : Nat) :
    RoundTrip.Statement (.evwaitRegistrationRetry core ctx) :=
  roundTrip_event rfl rfl

theorem RoundTrip.trig (ct : Cnt) (gd : Guard) : RoundTrip.Statement (.trig ct gd) := by
  have := ct.isLt; have := gd.isLt
  refine roundTrip_pack rfl rfl rfl (by simp) (by simp; try omega) fun hi u e => ?_
  show (asE u fun d a b gd sc aq rl ct c fn imm =>
      mk [d, a, b, sc, aq, rl, c, fn, imm] (.trig (cntOf ct) (gdOf gd))) = _
  simp only [List.map] at e
  simp (disch := omega) [asE, fmtE, e, mk, hi]

theorem RoundTrip.done (a : Reg) (ct : Cnt) (gd : Guard) (ord : MemOrder) :
    RoundTrip.Statement (.done a ct gd ord) := by
  have := a.isLt; have := ct.isLt; have := gd.isLt; have := bit_lt ord.acq; have := bit_lt ord.rel
  have := ord.sc.code_lt
  refine roundTrip_pack rfl rfl rfl (by simp) (by simp; try omega) fun hi u e => ?_
  show (asE u fun d a b gd sc aq rl ct c fn imm => withOrder sc aq rl fun ord =>
      mk [d, b, c, fn, imm] (.done (regOf a) (cntOf ct) (gdOf gd) ord)) = _
  simp only [List.map] at e
  simp (disch := omega) [asE, fmtE, e, mk, hi, withOrder, withCode]

theorem RoundTrip.wdq (b : Reg) (ct : Cnt) (gd : Guard) (r : Fin 4) : RoundTrip.Statement (.wdq b ct gd r) := by
  have := b.isLt; have := ct.isLt; have := gd.isLt; have := r.isLt
  refine roundTrip_pack rfl rfl rfl (by simp) (by simp; try omega) fun hi u e => ?_
  show (asE u fun d a b gd sc aq rl ct c fn imm =>
      if h : imm < 4 then mk [d, a, sc, aq, rl, c, fn] (.wdq (regOf b) (cntOf ct) (gdOf gd) ⟨imm, h⟩)
      else .error .illegalEnc) = _
  simp only [List.map] at e
  simp (disch := omega) [asE, fmtE, e, mk, hi]

theorem RoundTrip.heatage (a : Reg) (ct : Cnt) (gd : Guard) (ord : MemOrder) (n : BitVec 14) :
    RoundTrip.Statement (.heatage a ct gd ord n) := by
  have := a.isLt; have := ct.isLt; have := gd.isLt; have := bit_lt ord.acq; have := bit_lt ord.rel
  have := ord.sc.code_lt; have := n.isLt
  refine roundTrip_pack rfl rfl rfl (by simp) (by simp; try omega) fun hi u e => ?_
  show (asE u fun d a b gd sc aq rl ct c fn imm => withOrder sc aq rl fun ord =>
      mk [d, b, c, fn] (.heatage (regOf a) (cntOf ct) (gdOf gd) ord (BitVec.ofNat 14 imm))) = _
  simp only [List.map] at e
  simp (disch := omega) [asE, fmtE, e, mk, hi, withOrder, withCode]

theorem RoundTrip.rowrank (a b : Reg) (ct : Cnt) (gd : Guard) (ord : MemOrder) (h0 : BitVec 14) :
    RoundTrip.Statement (.rowrank a b ct gd ord h0) := by
  have := a.isLt; have := b.isLt; have := ct.isLt; have := gd.isLt; have := bit_lt ord.acq; have := bit_lt ord.rel
  have := ord.sc.code_lt; have := h0.isLt
  refine roundTrip_pack rfl rfl rfl (by simp) (by simp; try omega) fun hi u e => ?_
  show (asE u fun d a b gd sc aq rl ct c fn imm => withOrder sc aq rl fun ord =>
      mk [d, c, fn] (.rowrank (regOf a) (regOf b) (cntOf ct) (gdOf gd) ord (BitVec.ofNat 14 imm))) = _
  simp only [List.map] at e
  simp (disch := omega) [asE, fmtE, e, mk, hi, withOrder, withCode]

theorem RoundTrip.rowmig (a b : Reg) (ct : Cnt) (gd : Guard) (ord : MemOrder) :
    RoundTrip.Statement (.rowmig a b ct gd ord) := by
  have := a.isLt; have := b.isLt; have := ct.isLt; have := gd.isLt; have := bit_lt ord.acq; have := bit_lt ord.rel
  have := ord.sc.code_lt
  refine roundTrip_pack rfl rfl rfl (by simp) (by simp; try omega) fun hi u e => ?_
  show (asE u fun d a b gd sc aq rl ct c fn imm => withOrder sc aq rl fun ord =>
      mk [d, c, fn, imm] (.rowmig (regOf a) (regOf b) (cntOf ct) (gdOf gd) ord)) = _
  simp only [List.map] at e
  simp (disch := omega) [asE, fmtE, e, mk, hi, withOrder, withCode]

theorem RoundTrip.kiln (full : Bool) (d : Reg) (ct : Cnt) : RoundTrip.Statement (.kiln full d ct) := by
  have := bit_lt full; have := d.isLt; have := ct.isLt
  refine roundTrip_pack rfl rfl rfl (by simp) (by simp; try omega) fun hi u e => ?_
  show (asE u fun d a b gd sc aq rl ct c fn imm =>
      mk [a, b, gd, sc, aq, rl, c, fn / 2, imm] (.kiln (flag (fn % 2)) (regOf d) (cntOf ct))) = _
  simp only [List.map] at e
  simp (disch := omega) [asE, fmtE, e, mk, hi]

theorem RoundTrip.kilnAnswer (core ctx : Nat) : RoundTrip.Statement (.kilnAnswer core ctx) :=
  roundTrip_event rfl rfl

theorem RoundTrip.kilnst (d a : Reg) : RoundTrip.Statement (.kilnst d a) := by
  have := d.isLt; have := a.isLt
  refine roundTrip_pack rfl rfl rfl (by simp) (by simp; try omega) fun hi u e => ?_
  show (asE u fun d a b gd sc aq rl ct c fn imm =>
      mk [b, gd, sc, aq, rl, ct, c, fn, imm] (.kilnst (regOf d) (regOf a))) = _
  simp only [List.map] at e
  simp (disch := omega) [asE, fmtE, e, mk, hi]

theorem RoundTrip.kilnrel (d a : Reg) (ct : Cnt) : RoundTrip.Statement (.kilnrel d a ct) := by
  have := d.isLt; have := a.isLt; have := ct.isLt
  refine roundTrip_pack rfl rfl rfl (by simp) (by simp; try omega) fun hi u e => ?_
  show (asE u fun d a b gd sc aq rl ct c fn imm =>
      mk [b, gd, sc, aq, rl, c, fn, imm] (.kilnrel (regOf d) (regOf a) (cntOf ct))) = _
  simp only [List.map] at e
  simp (disch := omega) [asE, fmtE, e, mk, hi]

theorem RoundTrip.kilnrb (d a : Reg) (ct : Cnt) : RoundTrip.Statement (.kilnrb d a ct) := by
  have := d.isLt; have := a.isLt; have := ct.isLt
  refine roundTrip_pack rfl rfl rfl (by simp) (by simp; try omega) fun hi u e => ?_
  show (asE u fun d a b gd sc aq rl ct c fn imm =>
      mk [b, gd, sc, aq, rl, c, fn, imm] (.kilnrb (regOf d) (regOf a) (cntOf ct))) = _
  simp only [List.map] at e
  simp (disch := omega) [asE, fmtE, e, mk, hi]

theorem RoundTrip.csrr (d : Reg) (csr : BitVec 12) : RoundTrip.Statement (.csrr d csr) := by
  have := d.isLt; have := csr.isLt
  refine roundTrip_pack rfl rfl rfl (by simp) (by simp; try omega) fun hi u e => ?_
  show (asS u fun d a csr fn z => mk [a, fn, z] (.csrr (regOf d) (BitVec.ofNat 12 csr))) = _
  simp only [List.map] at e
  simp (disch := omega) [asS, fmtS, e, mk, hi]

theorem RoundTrip.csrw (a : Reg) (csr : BitVec 12) : RoundTrip.Statement (.csrw a csr) := by
  have := a.isLt; have := csr.isLt
  refine roundTrip_pack rfl rfl rfl (by simp) (by simp; try omega) fun hi u e => ?_
  show (asS u fun d a csr fn z => mk [d, fn, z] (.csrw (regOf a) (BitVec.ofNat 12 csr))) = _
  simp only [List.map] at e
  simp (disch := omega) [asS, fmtS, e, mk, hi]

theorem RoundTrip.rfe : RoundTrip.Statement (.rfe) := by
  refine roundTrip_pack rfl rfl rfl (by simp) (by simp) fun hi u e => ?_
  show (asS u fun d a csr fn z => mk [d, a, csr, fn, z] .rfe) = _
  simp only [List.map] at e
  simp (disch := omega) [asS, fmtS, e, mk, hi]

theorem RoundTrip.tlbinv (all anyasid : Bool) (reach : Reach) (a : Reg) :
    RoundTrip.Statement (.tlbinv all anyasid reach a) := by
  have := bit_lt all; have := bit_lt anyasid; have := reach.code_lt; have := a.isLt
  refine roundTrip_pack rfl rfl rfl (by simp) (by simp [pack]; try omega) fun hi u e => ?_
  show (asS u fun d a csr fn z =>
      match unpack [1, 1, 2, 4] fn with
      | [al, any, rc, fz] => withCode (Reach.ofCode rc) fun rc =>
        mk [d, csr, z, fz] (.tlbinv (flag al) (flag any) rc (regOf a))
      | _ => .error .illegalEnc) = _
  simp only [List.map] at e
  simp (disch := omega) [asS, fmtS, e, mk, hi, withCode, unpack_pack_cons, unpack_small]

theorem RoundTrip.icinv : RoundTrip.Statement (.icinv) := by
  refine roundTrip_pack rfl rfl rfl (by simp) (by simp) fun hi u e => ?_
  show (asS u fun d a csr fn z => mk [d, a, csr, fn, z] .icinv) = _
  simp only [List.map] at e
  simp (disch := omega) [asS, fmtS, e, mk, hi]

theorem RoundTrip.get (x : XferArgs) : RoundTrip.Statement (.get x) := by
  have := x.a.isLt; have := x.b.isLt; have := x.c.isLt; have := x.ct.isLt; have := x.gd.isLt; have := bit_lt x.ord.acq
  have := bit_lt x.ord.rel; have := x.ord.sc.code_lt; have := x.lsp.code_lt; have := bit_lt x.t; have := bit_lt x.k
  have := bit_lt x.lin; have := x.len.isLt
  refine roundTrip_pack rfl rfl rfl (by simp) (by simp [pack]; try omega) fun hi u e => ?_
  show (decXfer u (fun _ x => .get x) false) = _
  simp only [List.map] at e
  simp (disch := omega) [decXfer, asEL, fmtEL, e, mk, hi, withOrder, withCode, unpack_pack_cons, unpack_small]

theorem RoundTrip.put (x : XferArgs) : RoundTrip.Statement (.put x) := by
  have := x.a.isLt; have := x.b.isLt; have := x.c.isLt; have := x.ct.isLt; have := x.gd.isLt; have := bit_lt x.ord.acq
  have := bit_lt x.ord.rel; have := x.ord.sc.code_lt; have := x.lsp.code_lt; have := bit_lt x.t; have := bit_lt x.k
  have := bit_lt x.lin; have := x.len.isLt
  refine roundTrip_pack rfl rfl rfl (by simp) (by simp [pack]; try omega) fun hi u e => ?_
  show (decXfer u (fun _ x => .put x) false) = _
  simp only [List.map] at e
  simp (disch := omega) [decXfer, asEL, fmtEL, e, mk, hi, withOrder, withCode, unpack_pack_cons, unpack_small]

theorem RoundTrip.grist (x : XferArgs) : RoundTrip.Statement (.grist x) := by
  have := x.a.isLt; have := x.b.isLt; have := x.c.isLt; have := x.ct.isLt; have := x.gd.isLt; have := bit_lt x.ord.acq
  have := bit_lt x.ord.rel; have := x.ord.sc.code_lt; have := x.lsp.code_lt; have := bit_lt x.t; have := bit_lt x.k
  have := bit_lt x.lin; have := x.len.isLt
  refine roundTrip_pack rfl rfl rfl (by simp) (by simp [pack]; try omega) fun hi u e => ?_
  show (decXfer u (fun dir x => if dir == 0 then .grist x else .gristScatter x) true) = _
  simp only [List.map] at e
  simp (disch := omega) [decXfer, asEL, fmtEL, e, mk, hi, withOrder, withCode, unpack_pack_cons, unpack_small]

theorem RoundTrip.gristScatter (x : XferArgs) : RoundTrip.Statement (.gristScatter x) := by
  have := x.a.isLt; have := x.b.isLt; have := x.c.isLt; have := x.ct.isLt; have := x.gd.isLt; have := bit_lt x.ord.acq
  have := bit_lt x.ord.rel; have := x.ord.sc.code_lt; have := x.lsp.code_lt; have := bit_lt x.t; have := bit_lt x.k
  have := bit_lt x.lin; have := x.len.isLt
  refine roundTrip_pack rfl rfl rfl (by simp) (by simp [pack]; try omega) fun hi u e => ?_
  show (decXfer u (fun dir x => if dir == 0 then .grist x else .gristScatter x) true) = _
  simp only [List.map] at e
  simp (disch := omega) [decXfer, asEL, fmtEL, e, mk, hi, withOrder, withCode, unpack_pack_cons, unpack_small]

theorem RoundTrip.cpy (x : CopyArgs) : RoundTrip.Statement (.cpy x) := by
  have := x.a.isLt; have := x.b.isLt; have := x.c.isLt; have := x.ct.isLt; have := x.gd.isLt; have := bit_lt x.ord.acq
  have := bit_lt x.ord.rel; have := x.ord.sc.code_lt; have := x.lsp.code_lt; have := bit_lt x.t; have := bit_lt x.k
  have := x.dsp.code_lt; have := x.wh.code_lt; have := bit_lt x.dt; have := bit_lt x.dk; have := x.len.isLt
  refine roundTrip_pack rfl rfl rfl (by simp) (by simp [pack]; try omega) fun hi u e => ?_
  show (asEL u fun d a b gd sc aq rl ct c fn imm len =>
      match unpack [2, 1, 1, 4] fn with
      | [lsp, t, k, fz] => decCopy d a b gd sc aq rl ct c lsp t k imm len [fz] .cpy
      | _ => .error .illegalEnc) = _
  simp only [List.map] at e
  simp (disch := omega) [asEL, fmtEL, e, mk, hi, decCopy, withOrder, withCode, unpack_pack_cons, unpack_small]

theorem RoundTrip.sendD (x : CopyArgs) : RoundTrip.Statement (.sendD x) := by
  have := x.a.isLt; have := x.b.isLt; have := x.c.isLt; have := x.ct.isLt; have := x.gd.isLt; have := bit_lt x.ord.acq
  have := bit_lt x.ord.rel; have := x.ord.sc.code_lt; have := x.lsp.code_lt; have := bit_lt x.t; have := bit_lt x.k
  have := x.dsp.code_lt; have := x.wh.code_lt; have := bit_lt x.dt; have := bit_lt x.dk; have := x.len.isLt
  refine roundTrip_pack rfl rfl rfl (by simp) (by simp [pack]; try omega) fun hi u e => ?_
  show (asEL u fun d a b gd sc aq rl ct c fn imm len =>
      match unpack [2, 1, 1, 2, 2] fn with
      | [lsp, t, k, kind, fz] =>
        match kind with
        | 0 => decCopy d a b gd sc aq rl ct c lsp t k imm len [fz] .sendD
        | 1 => decCopy d a b gd sc aq rl ct c lsp t k imm len [fz] .sendP
        | 2 => decInbox d a b gd sc aq rl ct c lsp t k imm len [fz]
        | _ => .error .illegalEnc
      | _ => .error .illegalEnc) = _
  simp only [List.map] at e
  simp (disch := omega) [asEL, fmtEL, e, mk, hi, decCopy, decInbox, withOrder, withCode, unpack_pack_cons,
    unpack_small]

theorem RoundTrip.sendP (x : CopyArgs) : RoundTrip.Statement (.sendP x) := by
  have := x.a.isLt; have := x.b.isLt; have := x.c.isLt; have := x.ct.isLt; have := x.gd.isLt; have := bit_lt x.ord.acq
  have := bit_lt x.ord.rel; have := x.ord.sc.code_lt; have := x.lsp.code_lt; have := bit_lt x.t; have := bit_lt x.k
  have := x.dsp.code_lt; have := x.wh.code_lt; have := bit_lt x.dt; have := bit_lt x.dk; have := x.len.isLt
  refine roundTrip_pack rfl rfl rfl (by simp) (by simp [pack]; try omega) fun hi u e => ?_
  show (asEL u fun d a b gd sc aq rl ct c fn imm len =>
      match unpack [2, 1, 1, 2, 2] fn with
      | [lsp, t, k, kind, fz] =>
        match kind with
        | 0 => decCopy d a b gd sc aq rl ct c lsp t k imm len [fz] .sendD
        | 1 => decCopy d a b gd sc aq rl ct c lsp t k imm len [fz] .sendP
        | 2 => decInbox d a b gd sc aq rl ct c lsp t k imm len [fz]
        | _ => .error .illegalEnc
      | _ => .error .illegalEnc) = _
  simp only [List.map] at e
  simp (disch := omega) [asEL, fmtEL, e, mk, hi, decCopy, decInbox, withOrder, withCode, unpack_pack_cons,
    unpack_small]

theorem RoundTrip.sendI (x : InboxArgs) : RoundTrip.Statement (.sendI x) := by
  have := x.a.isLt; have := x.b.isLt; have := x.ct.isLt; have := x.gd.isLt; have := bit_lt x.ord.acq
  have := bit_lt x.ord.rel; have := x.ord.sc.code_lt; have := x.lsp.code_lt; have := bit_lt x.t; have := bit_lt x.k
  have := x.wh.code_lt; have := x.len.isLt
  refine roundTrip_pack rfl rfl rfl (by simp) (by simp [pack]; try omega) fun hi u e => ?_
  show (asEL u fun d a b gd sc aq rl ct c fn imm len =>
      match unpack [2, 1, 1, 2, 2] fn with
      | [lsp, t, k, kind, fz] =>
        match kind with
        | 0 => decCopy d a b gd sc aq rl ct c lsp t k imm len [fz] .sendD
        | 1 => decCopy d a b gd sc aq rl ct c lsp t k imm len [fz] .sendP
        | 2 => decInbox d a b gd sc aq rl ct c lsp t k imm len [fz]
        | _ => .error .illegalEnc
      | _ => .error .illegalEnc) = _
  simp only [List.map] at e
  simp (disch := omega) [asEL, fmtEL, e, mk, hi, decCopy, decInbox, withOrder, withCode, unpack_pack_cons,
    unpack_small]

theorem RoundTrip.sendIRetry (core id : Nat) : RoundTrip.Statement (.sendIRetry core id) :=
  roundTrip_event rfl rfl

theorem RoundTrip.nmc (b c : Reg) (ct : Cnt) (gd : Guard) (ord : MemOrder) (len : BitVec 32) :
    RoundTrip.Statement (.nmc b c ct gd ord len) := by
  have := b.isLt; have := c.isLt; have := ct.isLt; have := gd.isLt; have := bit_lt ord.acq; have := bit_lt ord.rel
  have := ord.sc.code_lt; have := len.isLt
  refine roundTrip_pack rfl rfl rfl (by simp) (by simp; try omega) fun hi u e => ?_
  show (asEL u fun d a b gd sc aq rl ct c fn imm len => withOrder sc aq rl fun ord =>
      mk [d, a, fn, imm] (.nmc (regOf b) (regOf c) (cntOf ct) (gdOf gd) ord (BitVec.ofNat 32 len))) = _
  simp only [List.map] at e
  simp (disch := omega) [asEL, fmtEL, e, mk, hi, withOrder, withCode]

theorem RoundTrip.nmcPart (core id part : Nat) : RoundTrip.Statement (.nmcPart core id part) :=
  roundTrip_event rfl rfl

theorem RoundTrip.nmscan (abs : Bool) (a b c : Reg) (ct : Cnt) (gd : Guard) (ord : MemOrder) (ty : ElemType)
    (kmax : BitVec 10) (len : BitVec 32) :
    RoundTrip.Statement (.nmscan abs a b c ct gd ord ty kmax len) := by
  have := bit_lt abs; have := a.isLt; have := b.isLt; have := c.isLt; have := ct.isLt; have := gd.isLt
  have := bit_lt ord.acq; have := bit_lt ord.rel; have := ord.sc.code_lt; have := ty.code_lt; have := kmax.isLt
  have := len.isLt
  refine roundTrip_pack rfl rfl rfl (by simp) (by simp [pack]; try omega) fun hi u e => ?_
  show (asEL u fun d a b gd sc aq rl ct c fn imm len => withOrder sc aq rl fun ord =>
      match unpack [4, 10] imm with
      | [ty, kmax] => withCode (ElemType.ofCode ty) fun ty =>
        mk [d, fn / 2] (.nmscan (flag (fn % 2)) (regOf a) (regOf b) (regOf c) (cntOf ct) (gdOf gd) ord ty
          (BitVec.ofNat 10 kmax) (BitVec.ofNat 32 len))
      | _ => .error .illegalEnc) = _
  simp only [List.map] at e
  simp (disch := omega) [asEL, fmtEL, e, mk, hi, withCode, withOrder, unpack_pack_cons, unpack_small]

theorem RoundTrip.tspawn (d a b : Reg) (ct : Cnt) (gd : Guard) (ord : MemOrder) :
    RoundTrip.Statement (.tspawn d a b ct gd ord) := by
  have := d.isLt; have := a.isLt; have := b.isLt; have := ct.isLt; have := gd.isLt; have := bit_lt ord.acq
  have := bit_lt ord.rel; have := ord.sc.code_lt
  refine roundTrip_pack rfl rfl rfl (by simp) (by simp; try omega) fun hi u e => ?_
  show (asEL u fun d a b gd sc aq rl ct c fn imm len => withOrder sc aq rl fun ord =>
      mk [c, fn, imm, len] (.tspawn (regOf d) (regOf a) (regOf b) (cntOf ct) (gdOf gd) ord)) = _
  simp only [List.map] at e
  simp (disch := omega) [asEL, fmtEL, e, mk, hi, withOrder, withCode]

theorem RoundTrip.lfork (d a c : Reg) : RoundTrip.Statement (.lfork d a c) := by
  have := d.isLt; have := a.isLt; have := c.isLt
  refine roundTrip_pack rfl rfl rfl (by simp) (by simp; try omega) fun hi u e => ?_
  show (decLfork u) = _
  simp only [List.map] at e
  simp (disch := omega) [decLfork, asEL, fmtEL, e, mk, hi]

theorem RoundTrip.lforkAf (d a c : Reg) (ct : Cnt) : RoundTrip.Statement (.lforkAf d a c ct) := by
  have := d.isLt; have := a.isLt; have := c.isLt; have := ct.isLt
  refine roundTrip_pack rfl rfl rfl (by simp) (by simp; try omega) fun hi u e => ?_
  show (decLfork u) = _
  simp only [List.map] at e
  simp (disch := omega) [decLfork, asEL, fmtEL, e, mk, hi]

theorem RoundTrip.lflat (d a : Reg) (ct : Cnt) (gd : Guard) (ord : MemOrder) :
    RoundTrip.Statement (.lflat d a ct gd ord) := by
  have := d.isLt; have := a.isLt; have := ct.isLt; have := gd.isLt; have := bit_lt ord.acq; have := bit_lt ord.rel
  have := ord.sc.code_lt
  refine roundTrip_pack rfl rfl rfl (by simp) (by simp; try omega) fun hi u e => ?_
  show (decLin u false true true fun d a _ ct gd ord => .lflat d a ct gd ord) = _
  simp only [List.map] at e
  simp (disch := omega) [decLin, asEL, fmtEL, e, mk, hi, withOrder, withCode]

theorem RoundTrip.lrebase (d a b : Reg) (ct : Cnt) (gd : Guard) (ord : MemOrder) :
    RoundTrip.Statement (.lrebase d a b ct gd ord) := by
  have := d.isLt; have := a.isLt; have := b.isLt; have := ct.isLt; have := gd.isLt; have := bit_lt ord.acq
  have := bit_lt ord.rel; have := ord.sc.code_lt
  refine roundTrip_pack rfl rfl rfl (by simp) (by simp; try omega) fun hi u e => ?_
  show (decLin u true true true fun d a b ct gd ord => .lrebase d a b ct gd ord) = _
  simp only [List.map] at e
  simp (disch := omega) [decLin, asEL, fmtEL, e, mk, hi, withOrder, withCode]

theorem RoundTrip.ldel (d a : Reg) (ct : Cnt) : RoundTrip.Statement (.ldel d a ct) := by
  have := d.isLt; have := a.isLt; have := ct.isLt
  refine roundTrip_pack rfl rfl rfl (by simp) (by simp; try omega) fun hi u e => ?_
  show (decLin u false false true fun d a _ ct _ _ => .ldel d a ct) = _
  simp only [List.map] at e
  simp (disch := omega) [decLin, asEL, fmtEL, e, mk, hi, withOrder, withCode]

theorem RoundTrip.lpack (d a : Reg) (ct : Cnt) (gd : Guard) (ord : MemOrder) :
    RoundTrip.Statement (.lpack d a ct gd ord) := by
  have := d.isLt; have := a.isLt; have := ct.isLt; have := gd.isLt; have := bit_lt ord.acq; have := bit_lt ord.rel
  have := ord.sc.code_lt
  refine roundTrip_pack rfl rfl rfl (by simp) (by simp; try omega) fun hi u e => ?_
  show (decLin u false true true fun d a _ ct gd ord => .lpack d a ct gd ord) = _
  simp only [List.map] at e
  simp (disch := omega) [decLin, asEL, fmtEL, e, mk, hi, withOrder, withCode]

theorem RoundTrip.linfo (d a : Reg) : RoundTrip.Statement (.linfo d a) := by
  have := d.isLt; have := a.isLt
  refine roundTrip_pack rfl rfl rfl (by simp) (by simp; try omega) fun hi u e => ?_
  show (decLin u false false false fun d a _ _ _ _ => .linfo d a) = _
  simp only [List.map] at e
  simp (disch := omega) [decLin, asEL, fmtEL, e, mk, hi, withOrder, withCode]

theorem RoundTrip.nodeSwitch (id : Nat) : RoundTrip.Statement (.nodeSwitch id) :=
  roundTrip_event rfl rfl

theorem RoundTrip.splice (id : Nat) : RoundTrip.Statement (.splice id) :=
  roundTrip_event rfl rfl

theorem RoundTrip.vclaim (n : BitVec 7) : RoundTrip.Statement (.vclaim n) := by
  have := n.isLt
  refine roundTrip_pack rfl rfl rfl (by simp) (by simp; try omega) fun hi u e => ?_
  show (asV u fun vd va vb vc pm zm ty rm fn z imm =>
      mk [vd, va, vb, vc, pm, zm, ty, rm, fn, z, imm / 128] (.vclaim (BitVec.ofNat 7 imm))) = _
  simp only [List.map] at e
  simp (disch := omega) [asV, fmtV, e, mk, hi]
  try omega

theorem RoundTrip.vrel : RoundTrip.Statement (.vrel) := by
  refine roundTrip_pack rfl rfl rfl (by simp) (by simp) fun hi u e => ?_
  show (asV u fun vd va vb vc pm zm ty rm fn z imm => mk [vd, va, vb, vc, pm, zm, ty, rm, fn, z, imm] .vrel) = _
  simp only [List.map] at e
  simp (disch := omega) [asV, fmtV, e, mk, hi]

theorem RoundTrip.vld (ty : ElemType) (sp : Space) (t k : Bool) (vd : VReg) (base : Reg) (m : VMask) :
    RoundTrip.Statement (.vld ty sp t k vd base m) := by
  have := ty.code_lt; have := sp.code_lt; have := bit_lt t; have := bit_lt k; have := vd.isLt; have := base.isLt
  have := bit_lt m.zm; have := m.pm.isLt
  refine roundTrip_pack rfl rfl rfl (by simp) (by simp [pack]; try omega) fun hi u e => ?_
  show (decVld u) = _
  simp only [List.map] at e
  simp (disch := omega) [decVld, asV, fmtV, e, mk, hi, withCode, maskOf, unpack_pack_cons, unpack_small]

theorem RoundTrip.vst (ty : ElemType) (sp : Space) (t k : Bool) (vd : VReg) (base : Reg) (pm : Pred) :
    RoundTrip.Statement (.vst ty sp t k vd base pm) := by
  have := ty.code_lt; have := sp.code_lt; have := bit_lt t; have := bit_lt k; have := vd.isLt; have := base.isLt
  have := pm.isLt
  refine roundTrip_pack rfl rfl rfl (by simp) (by simp [pack]; try omega) fun hi u e => ?_
  show (decVst u) = _
  simp only [List.map] at e
  simp (disch := omega) [decVst, asV, fmtV, e, mk, hi, withCode, unpack_pack_cons, unpack_small]

theorem RoundTrip.vadd (ty : ElemType) (rm : RoundMode) (vd va : VReg) (b : VOperand) (m : VMask) :
    RoundTrip.Statement (.vadd ty rm vd va b m) := by
  cases b with
  | vec v =>
    have := ty.code_lt; have := rm.code_lt; have := vd.isLt; have := va.isLt; have := bit_lt m.zm; have := m.pm.isLt
    have := v.isLt
    refine roundTrip_pack rfl rfl rfl (by simp) (by simp [VOperand.fields]; try omega) fun hi u e => ?_
    show (decVArith u .vadd) = _
    simp only [List.map, VOperand.fields] at e
    simp (disch := omega) [decVArith, asV, fmtV, e, mk, hi, withCode, withVOperand, maskOf, unpack_pack_cons,
      unpack_small]
  | scalar v =>
    have := ty.code_lt; have := rm.code_lt; have := vd.isLt; have := va.isLt; have := bit_lt m.zm; have := m.pm.isLt
    have := v.isLt
    refine roundTrip_pack rfl rfl rfl (by simp) (by simp [VOperand.fields]; try omega) fun hi u e => ?_
    show (decVArith u .vadd) = _
    simp only [List.map, VOperand.fields] at e
    simp (disch := omega) [decVArith, asV, fmtV, e, mk, hi, withCode, withVOperand, maskOf, unpack_pack_cons,
      unpack_small]

theorem RoundTrip.vsub (ty : ElemType) (rm : RoundMode) (vd va : VReg) (b : VOperand) (m : VMask) :
    RoundTrip.Statement (.vsub ty rm vd va b m) := by
  cases b with
  | vec v =>
    have := ty.code_lt; have := rm.code_lt; have := vd.isLt; have := va.isLt; have := bit_lt m.zm; have := m.pm.isLt
    have := v.isLt
    refine roundTrip_pack rfl rfl rfl (by simp) (by simp [VOperand.fields]; try omega) fun hi u e => ?_
    show (decVArith u .vsub) = _
    simp only [List.map, VOperand.fields] at e
    simp (disch := omega) [decVArith, asV, fmtV, e, mk, hi, withCode, withVOperand, maskOf, unpack_pack_cons,
      unpack_small]
  | scalar v =>
    have := ty.code_lt; have := rm.code_lt; have := vd.isLt; have := va.isLt; have := bit_lt m.zm; have := m.pm.isLt
    have := v.isLt
    refine roundTrip_pack rfl rfl rfl (by simp) (by simp [VOperand.fields]; try omega) fun hi u e => ?_
    show (decVArith u .vsub) = _
    simp only [List.map, VOperand.fields] at e
    simp (disch := omega) [decVArith, asV, fmtV, e, mk, hi, withCode, withVOperand, maskOf, unpack_pack_cons,
      unpack_small]

theorem RoundTrip.vmul (ty : ElemType) (rm : RoundMode) (vd va : VReg) (b : VOperand) (m : VMask) :
    RoundTrip.Statement (.vmul ty rm vd va b m) := by
  cases b with
  | vec v =>
    have := ty.code_lt; have := rm.code_lt; have := vd.isLt; have := va.isLt; have := bit_lt m.zm; have := m.pm.isLt
    have := v.isLt
    refine roundTrip_pack rfl rfl rfl (by simp) (by simp [VOperand.fields]; try omega) fun hi u e => ?_
    show (decVArith u .vmul) = _
    simp only [List.map, VOperand.fields] at e
    simp (disch := omega) [decVArith, asV, fmtV, e, mk, hi, withCode, withVOperand, maskOf, unpack_pack_cons,
      unpack_small]
  | scalar v =>
    have := ty.code_lt; have := rm.code_lt; have := vd.isLt; have := va.isLt; have := bit_lt m.zm; have := m.pm.isLt
    have := v.isLt
    refine roundTrip_pack rfl rfl rfl (by simp) (by simp [VOperand.fields]; try omega) fun hi u e => ?_
    show (decVArith u .vmul) = _
    simp only [List.map, VOperand.fields] at e
    simp (disch := omega) [decVArith, asV, fmtV, e, mk, hi, withCode, withVOperand, maskOf, unpack_pack_cons,
      unpack_small]

theorem RoundTrip.vfma (ty : ElemType) (rm : RoundMode) (vd va : VReg) (b : VOperand) (vc : VReg) (m : VMask) :
    RoundTrip.Statement (.vfma ty rm vd va b vc m) := by
  cases b with
  | vec v =>
    have := ty.code_lt; have := rm.code_lt; have := vd.isLt; have := va.isLt; have := vc.isLt; have := bit_lt m.zm
    have := m.pm.isLt; have := v.isLt
    refine roundTrip_pack rfl rfl rfl (by simp) (by simp [VOperand.fields]; try omega) fun hi u e => ?_
    show (decVfma u) = _
    simp only [List.map, VOperand.fields] at e
    simp (disch := omega) [decVfma, asV, fmtV, e, mk, hi, withCode, withVOperand, maskOf, unpack_pack_cons,
      unpack_small]
  | scalar v =>
    have := ty.code_lt; have := rm.code_lt; have := vd.isLt; have := va.isLt; have := vc.isLt; have := bit_lt m.zm
    have := m.pm.isLt; have := v.isLt
    refine roundTrip_pack rfl rfl rfl (by simp) (by simp [VOperand.fields]; try omega) fun hi u e => ?_
    show (decVfma u) = _
    simp only [List.map, VOperand.fields] at e
    simp (disch := omega) [decVfma, asV, fmtV, e, mk, hi, withCode, withVOperand, maskOf, unpack_pack_cons,
      unpack_small]

theorem RoundTrip.vmax (ty : ElemType) (vd va : VReg) (b : VOperand) (m : VMask) :
    RoundTrip.Statement (.vmax ty vd va b m) := by
  cases b with
  | vec v =>
    have := ty.code_lt; have := vd.isLt; have := va.isLt; have := bit_lt m.zm; have := m.pm.isLt; have := v.isLt
    refine roundTrip_pack rfl rfl rfl (by simp) (by simp [VOperand.fields]; try omega) fun hi u e => ?_
    show (decVMinMax u .vmax) = _
    simp only [List.map, VOperand.fields] at e
    simp (disch := omega) [decVMinMax, asV, fmtV, e, mk, hi, withCode, withVOperand, maskOf, unpack_pack_cons,
      unpack_small]
  | scalar v =>
    have := ty.code_lt; have := vd.isLt; have := va.isLt; have := bit_lt m.zm; have := m.pm.isLt; have := v.isLt
    refine roundTrip_pack rfl rfl rfl (by simp) (by simp [VOperand.fields]; try omega) fun hi u e => ?_
    show (decVMinMax u .vmax) = _
    simp only [List.map, VOperand.fields] at e
    simp (disch := omega) [decVMinMax, asV, fmtV, e, mk, hi, withCode, withVOperand, maskOf, unpack_pack_cons,
      unpack_small]

theorem RoundTrip.vmin (ty : ElemType) (vd va : VReg) (b : VOperand) (m : VMask) :
    RoundTrip.Statement (.vmin ty vd va b m) := by
  cases b with
  | vec v =>
    have := ty.code_lt; have := vd.isLt; have := va.isLt; have := bit_lt m.zm; have := m.pm.isLt; have := v.isLt
    refine roundTrip_pack rfl rfl rfl (by simp) (by simp [VOperand.fields]; try omega) fun hi u e => ?_
    show (decVMinMax u .vmin) = _
    simp only [List.map, VOperand.fields] at e
    simp (disch := omega) [decVMinMax, asV, fmtV, e, mk, hi, withCode, withVOperand, maskOf, unpack_pack_cons,
      unpack_small]
  | scalar v =>
    have := ty.code_lt; have := vd.isLt; have := va.isLt; have := bit_lt m.zm; have := m.pm.isLt; have := v.isLt
    refine roundTrip_pack rfl rfl rfl (by simp) (by simp [VOperand.fields]; try omega) fun hi u e => ?_
    show (decVMinMax u .vmin) = _
    simp only [List.map, VOperand.fields] at e
    simp (disch := omega) [decVMinMax, asV, fmtV, e, mk, hi, withCode, withVOperand, maskOf, unpack_pack_cons,
      unpack_small]

theorem RoundTrip.vabs (ty : ElemType) (vd va : VReg) (m : VMask) : RoundTrip.Statement (.vabs ty vd va m) := by
  have := ty.code_lt; have := vd.isLt; have := va.isLt; have := bit_lt m.zm; have := m.pm.isLt
  refine roundTrip_pack rfl rfl rfl (by simp) (by simp; try omega) fun hi u e => ?_
  show (asV u fun vd va vb vc pm zm ty rm fn z imm => withCode (ElemType.ofCode ty) fun ty =>
      mk [vd / 16, va / 16, vb, vc, rm, fn, z, imm] (.vabs ty (vregOf vd) (vregOf va) (maskOf zm pm))) = _
  simp only [List.map] at e
  simp (disch := omega) [asV, fmtV, e, mk, hi, withCode, maskOf]

theorem RoundTrip.vcvt (dst src : ElemType) (rm : RoundMode) (vd va : VReg) (m : VMask) :
    RoundTrip.Statement (.vcvt dst src rm vd va m) := by
  have := dst.code_lt; have := src.code_lt; have := rm.code_lt; have := vd.isLt; have := va.isLt; have := bit_lt m.zm
  have := m.pm.isLt
  refine roundTrip_pack rfl rfl rfl (by simp) (by simp; try omega) fun hi u e => ?_
  show (decVcvt u) = _
  simp only [List.map] at e
  simp (disch := omega) [decVcvt, asV, fmtV, e, mk, hi, withCode, maskOf]

theorem RoundTrip.vqnt (ty : ElemType) (rm : RoundMode) (vd va vc : VReg) (m : VMask) :
    RoundTrip.Statement (.vqnt ty rm vd va vc m) := by
  have := ty.code_lt; have := rm.code_lt; have := vd.isLt; have := va.isLt; have := vc.isLt; have := bit_lt m.zm
  have := m.pm.isLt
  refine roundTrip_pack rfl rfl rfl (by simp) (by simp; try omega) fun hi u e => ?_
  show (decVQuant u .vqnt) = _
  simp only [List.map] at e
  simp (disch := omega) [decVQuant, asV, fmtV, e, mk, hi, withCode, maskOf]

theorem RoundTrip.vdqn (ty : ElemType) (rm : RoundMode) (vd va vc : VReg) (m : VMask) :
    RoundTrip.Statement (.vdqn ty rm vd va vc m) := by
  have := ty.code_lt; have := rm.code_lt; have := vd.isLt; have := va.isLt; have := vc.isLt; have := bit_lt m.zm
  have := m.pm.isLt
  refine roundTrip_pack rfl rfl rfl (by simp) (by simp; try omega) fun hi u e => ?_
  show (decVQuant u .vdqn) = _
  simp only [List.map] at e
  simp (disch := omega) [decVQuant, asV, fmtV, e, mk, hi, withCode, maskOf]

theorem RoundTrip.vred (op : RedOp) (ty : ElemType) (rm : RoundMode) (vd va : VReg) (m : VMask) :
    RoundTrip.Statement (.vred op ty rm vd va m) := by
  have := op.code_lt; have := ty.code_lt; have := rm.code_lt; have := vd.isLt; have := va.isLt; have := bit_lt m.zm
  have := m.pm.isLt
  refine roundTrip_pack rfl rfl rfl (by simp) (by simp; try omega) fun hi u e => ?_
  show (decVRed u .vred) = _
  simp only [List.map] at e
  simp (disch := omega) [decVRed, asV, fmtV, e, mk, hi, withCode, maskOf]

theorem RoundTrip.vscan (op : RedOp) (ty : ElemType) (rm : RoundMode) (vd va : VReg) (m : VMask) :
    RoundTrip.Statement (.vscan op ty rm vd va m) := by
  have := op.code_lt; have := ty.code_lt; have := rm.code_lt; have := vd.isLt; have := va.isLt; have := bit_lt m.zm
  have := m.pm.isLt
  refine roundTrip_pack rfl rfl rfl (by simp) (by simp; try omega) fun hi u e => ?_
  show (decVRed u .vscan) = _
  simp only [List.map] at e
  simp (disch := omega) [decVRed, asV, fmtV, e, mk, hi, withCode, maskOf]

theorem RoundTrip.vshuf (vd va vb : VReg) (ps : Pred) (m : VMask) : RoundTrip.Statement (.vshuf vd va vb ps m) := by
  have := vd.isLt; have := va.isLt; have := vb.isLt; have := ps.isLt; have := bit_lt m.zm; have := m.pm.isLt
  refine roundTrip_pack rfl rfl rfl (by simp) (by simp; try omega) fun hi u e => ?_
  show (decVPred u .vshuf) = _
  simp only [List.map] at e
  simp (disch := omega) [decVPred, asV, fmtV, e, mk, hi, maskOf]

theorem RoundTrip.vcmp (cond : Cond) (ty : ElemType) (pd : Pred) (va : VReg) (b : VOperand) (m : VMask) :
    RoundTrip.Statement (.vcmp cond ty pd va b m) := by
  cases b with
  | vec v =>
    have := cond.code_lt; have := ty.code_lt; have := pd.isLt; have := va.isLt; have := bit_lt m.zm; have := m.pm.isLt
    have := v.isLt
    refine roundTrip_pack rfl rfl rfl (by simp) (by simp [VOperand.fields, pack]; try omega) fun hi u e => ?_
    show (decVcmp u) = _
    simp only [List.map, VOperand.fields] at e
    simp (disch := omega) [decVcmp, asV, fmtV, e, mk, hi, withCode, withVOperand, maskOf, unpack_pack_cons,
      unpack_small]
  | scalar v =>
    have := cond.code_lt; have := ty.code_lt; have := pd.isLt; have := va.isLt; have := bit_lt m.zm; have := m.pm.isLt
    have := v.isLt
    refine roundTrip_pack rfl rfl rfl (by simp) (by simp [VOperand.fields, pack]; try omega) fun hi u e => ?_
    show (decVcmp u) = _
    simp only [List.map, VOperand.fields] at e
    simp (disch := omega) [decVcmp, asV, fmtV, e, mk, hi, withCode, withVOperand, maskOf, unpack_pack_cons,
      unpack_small]

theorem RoundTrip.vsel (vd va vb : VReg) (pk : Pred) (m : VMask) : RoundTrip.Statement (.vsel vd va vb pk m) := by
  have := vd.isLt; have := va.isLt; have := vb.isLt; have := pk.isLt; have := bit_lt m.zm; have := m.pm.isLt
  refine roundTrip_pack rfl rfl rfl (by simp) (by simp; try omega) fun hi u e => ?_
  show (decVPred u .vsel) = _
  simp only [List.map] at e
  simp (disch := omega) [decVPred, asV, fmtV, e, mk, hi, maskOf]

theorem RoundTrip.vfn (fn : FnOp) (ty : ElemType) (rm : RoundMode) (vd va : VReg) (m : VMask) :
    RoundTrip.Statement (.vfn fn ty rm vd va m) := by
  have := fn.code_lt; have := ty.code_lt; have := rm.code_lt; have := vd.isLt; have := va.isLt; have := bit_lt m.zm
  have := m.pm.isLt
  refine roundTrip_pack rfl rfl rfl (by simp) (by simp; try omega) fun hi u e => ?_
  show (decVfn u) = _
  simp only [List.map] at e
  simp (disch := omega) [decVfn, asV, fmtV, e, mk, hi, withCode, maskOf]

theorem RoundTrip.vbcast (ty : ElemType) (vd : VReg) (src : BcastSrc) (m : VMask) :
    RoundTrip.Statement (.vbcast ty vd src m) := by
  cases src with
  | imm v =>
    have := ty.code_lt; have := vd.isLt; have := bit_lt m.zm; have := m.pm.isLt; have := v.isLt
    refine roundTrip_pack rfl rfl rfl (by simp) (by simp; try omega) fun hi u e => ?_
    show (decVbcast u) = _
    simp only [List.map] at e
    simp (disch := omega) [decVbcast, asV, fmtV, e, mk, hi, withCode, maskOf]
  | scalar v =>
    have := ty.code_lt; have := vd.isLt; have := bit_lt m.zm; have := m.pm.isLt; have := v.isLt
    refine roundTrip_pack rfl rfl rfl (by simp) (by simp; try omega) fun hi u e => ?_
    show (decVbcast u) = _
    simp only [List.map] at e
    simp (disch := omega) [decVbcast, asV, fmtV, e, mk, hi, withCode, maskOf]

theorem RoundTrip.vidx (vd : VReg) (imm : BitVec 32) (m : VMask) : RoundTrip.Statement (.vidx vd imm m) := by
  have := vd.isLt; have := imm.isLt; have := bit_lt m.zm; have := m.pm.isLt
  refine roundTrip_pack rfl rfl rfl (by simp) (by simp; try omega) fun hi u e => ?_
  show (asV u fun vd va vb vc pm zm ty rm fn z imm =>
      mk [vd / 16, va, vb, vc, ty, rm, fn, z] (.vidx (vregOf vd) (BitVec.ofNat 32 imm) (maskOf zm pm))) = _
  simp only [List.map] at e
  simp (disch := omega) [asV, fmtV, e, mk, hi, maskOf]

theorem RoundTrip.vand (vd va : VReg) (b : VOperand) (m : VMask) : RoundTrip.Statement (.vand vd va b m) := by
  cases b with
  | vec v =>
    have := vd.isLt; have := va.isLt; have := bit_lt m.zm; have := m.pm.isLt; have := v.isLt
    refine roundTrip_pack rfl rfl rfl (by simp) (by simp [VOperand.fields, pack]; try omega) fun hi u e => ?_
    show (decVBits u false fun _ vd va b m => .vand vd va b m) = _
    simp only [List.map, VOperand.fields] at e
    simp (disch := omega) [decVBits, asV, fmtV, e, mk, hi, withVOperand, maskOf, unpack_pack_cons, unpack_small]
  | scalar v =>
    have := vd.isLt; have := va.isLt; have := bit_lt m.zm; have := m.pm.isLt; have := v.isLt
    refine roundTrip_pack rfl rfl rfl (by simp) (by simp [VOperand.fields, pack]; try omega) fun hi u e => ?_
    show (decVBits u false fun _ vd va b m => .vand vd va b m) = _
    simp only [List.map, VOperand.fields] at e
    simp (disch := omega) [decVBits, asV, fmtV, e, mk, hi, withVOperand, maskOf, unpack_pack_cons, unpack_small]

theorem RoundTrip.vor (vd va : VReg) (b : VOperand) (m : VMask) : RoundTrip.Statement (.vor vd va b m) := by
  cases b with
  | vec v =>
    have := vd.isLt; have := va.isLt; have := bit_lt m.zm; have := m.pm.isLt; have := v.isLt
    refine roundTrip_pack rfl rfl rfl (by simp) (by simp [VOperand.fields, pack]; try omega) fun hi u e => ?_
    show (decVBits u false fun _ vd va b m => .vor vd va b m) = _
    simp only [List.map, VOperand.fields] at e
    simp (disch := omega) [decVBits, asV, fmtV, e, mk, hi, withVOperand, maskOf, unpack_pack_cons, unpack_small]
  | scalar v =>
    have := vd.isLt; have := va.isLt; have := bit_lt m.zm; have := m.pm.isLt; have := v.isLt
    refine roundTrip_pack rfl rfl rfl (by simp) (by simp [VOperand.fields, pack]; try omega) fun hi u e => ?_
    show (decVBits u false fun _ vd va b m => .vor vd va b m) = _
    simp only [List.map, VOperand.fields] at e
    simp (disch := omega) [decVBits, asV, fmtV, e, mk, hi, withVOperand, maskOf, unpack_pack_cons, unpack_small]

theorem RoundTrip.vxor (vd va : VReg) (b : VOperand) (m : VMask) : RoundTrip.Statement (.vxor vd va b m) := by
  cases b with
  | vec v =>
    have := vd.isLt; have := va.isLt; have := bit_lt m.zm; have := m.pm.isLt; have := v.isLt
    refine roundTrip_pack rfl rfl rfl (by simp) (by simp [VOperand.fields, pack]; try omega) fun hi u e => ?_
    show (decVBits u false fun _ vd va b m => .vxor vd va b m) = _
    simp only [List.map, VOperand.fields] at e
    simp (disch := omega) [decVBits, asV, fmtV, e, mk, hi, withVOperand, maskOf, unpack_pack_cons, unpack_small]
  | scalar v =>
    have := vd.isLt; have := va.isLt; have := bit_lt m.zm; have := m.pm.isLt; have := v.isLt
    refine roundTrip_pack rfl rfl rfl (by simp) (by simp [VOperand.fields, pack]; try omega) fun hi u e => ?_
    show (decVBits u false fun _ vd va b m => .vxor vd va b m) = _
    simp only [List.map, VOperand.fields] at e
    simp (disch := omega) [decVBits, asV, fmtV, e, mk, hi, withVOperand, maskOf, unpack_pack_cons, unpack_small]

theorem RoundTrip.vshl (vd va : VReg) (b : VOperand) (m : VMask) : RoundTrip.Statement (.vshl vd va b m) := by
  cases b with
  | vec v =>
    have := vd.isLt; have := va.isLt; have := bit_lt m.zm; have := m.pm.isLt; have := v.isLt
    refine roundTrip_pack rfl rfl rfl (by simp) (by simp [VOperand.fields, pack]; try omega) fun hi u e => ?_
    show (decVBits u false fun _ vd va b m => .vshl vd va b m) = _
    simp only [List.map, VOperand.fields] at e
    simp (disch := omega) [decVBits, asV, fmtV, e, mk, hi, withVOperand, maskOf, unpack_pack_cons, unpack_small]
  | scalar v =>
    have := vd.isLt; have := va.isLt; have := bit_lt m.zm; have := m.pm.isLt; have := v.isLt
    refine roundTrip_pack rfl rfl rfl (by simp) (by simp [VOperand.fields, pack]; try omega) fun hi u e => ?_
    show (decVBits u false fun _ vd va b m => .vshl vd va b m) = _
    simp only [List.map, VOperand.fields] at e
    simp (disch := omega) [decVBits, asV, fmtV, e, mk, hi, withVOperand, maskOf, unpack_pack_cons, unpack_small]

theorem RoundTrip.vshr (arith : Bool) (vd va : VReg) (b : VOperand) (m : VMask) :
    RoundTrip.Statement (.vshr arith vd va b m) := by
  cases b with
  | vec v =>
    have := bit_lt arith; have := vd.isLt; have := va.isLt; have := bit_lt m.zm; have := m.pm.isLt; have := v.isLt
    refine roundTrip_pack rfl rfl rfl (by simp) (by simp [VOperand.fields, pack]; try omega) fun hi u e => ?_
    show (decVBits u true .vshr) = _
    simp only [List.map, VOperand.fields] at e
    simp (disch := omega) [decVBits, asV, fmtV, e, mk, hi, withVOperand, maskOf, unpack_pack_cons, unpack_small]
  | scalar v =>
    have := bit_lt arith; have := vd.isLt; have := va.isLt; have := bit_lt m.zm; have := m.pm.isLt; have := v.isLt
    refine roundTrip_pack rfl rfl rfl (by simp) (by simp [VOperand.fields, pack]; try omega) fun hi u e => ?_
    show (decVBits u true .vshr) = _
    simp only [List.map, VOperand.fields] at e
    simp (disch := omega) [decVBits, asV, fmtV, e, mk, hi, withVOperand, maskOf, unpack_pack_cons, unpack_small]

theorem RoundTrip.mlds (act : Bool) (grp : GroupSize) (ot : ElemType) (gang : Bool) (pri : Fin 4) (ct : Cnt)
    (gd : Guard) (woff : BitVec 16) :
    RoundTrip.Statement (.mlds act grp ot gang pri ct gd woff) := by
  have := bit_lt act; have := grp.code_lt; have := ot.code_lt; have := bit_lt gang; have := pri.isLt; have := ct.isLt
  have := gd.isLt; have := woff.isLt
  refine roundTrip_pack rfl rfl rfl (by simp) (by simp [pack]; try omega) fun hi u e => ?_
  show (asMX u fun a b c gd pri ct aty oty fn gang acc tg z ks nv wo st =>
      match unpack [1, 2, 5] fn with
      | [act, grp, fz] => withCode (ElemType.ofCode oty) fun ot =>
        mk [a, b, c, aty, acc, tg, z, ks, nv, st, fz]
          (.mlds (flag act) (GroupSize.ofCode grp) ot (flag gang) (Fin.ofNat 4 pri) (cntOf ct) (gdOf gd)
            (BitVec.ofNat 16 wo))
      | _ => .error .illegalEnc) = _
  simp only [List.map] at e
  simp (disch := omega) [asMX, fmtMX, e, mk, hi, withCode, unpack_pack_cons, unpack_small]

theorem RoundTrip.mswap (gang : Bool) (pri : Fin 4) (ct : Cnt) (gd : Guard) :
    RoundTrip.Statement (.mswap gang pri ct gd) := by
  have := bit_lt gang; have := pri.isLt; have := ct.isLt; have := gd.isLt
  refine roundTrip_pack rfl rfl rfl (by simp) (by simp; try omega) fun hi u e => ?_
  show (asMX u fun a b c gd pri ct aty oty fn gang acc tg z ks nv wo st =>
      mk [a, b, c, aty, oty, fn, acc, tg, z, ks, nv, wo, st]
        (.mswap (flag gang) (Fin.ofNat 4 pri) (cntOf ct) (gdOf gd))) = _
  simp only [List.map] at e
  simp (disch := omega) [asMX, fmtMX, e, mk, hi]

theorem RoundTrip.mmul (x : MmulArgs) : RoundTrip.Statement (.mmul x) := by
  have := x.a.isLt; have := x.b.isLt; have := x.ct.isLt; have := x.gd.isLt; have := x.pri.isLt; have := x.at'.code_lt
  have := x.ot.code_lt; have := bit_lt x.st; have := x.grp.code_lt; have := bit_lt x.k; have := bit_lt x.gang
  have := bit_lt x.acc; have := bit_lt x.tg; have := x.ksteps.isLt; have := x.nvec.isLt; have := x.woff.isLt
  have := x.stride.isLt
  refine roundTrip_pack rfl rfl rfl (by simp) (by simp [pack]; try omega) fun hi u e => ?_
  show (asMX u fun a b c gd pri ct aty oty fn gang acc tg z ks nv wo st =>
      match unpack [1, 2, 1, 4] fn with
      | [s, grp, k, fz] => withCode (ElemType.ofCode aty) fun aty => withCode (ElemType.ofCode oty) fun oty =>
        mk [c, z, fz]
          (.mmul { a := regOf a, b := regOf b, ct := cntOf ct, gd := gdOf gd, pri := Fin.ofNat 4 pri, at' := aty,
                   ot := oty, st := flag s, grp := GroupSize.ofCode grp, k := flag k, gang := flag gang,
                   acc := flag acc, tg := flag tg, ksteps := BitVec.ofNat 16 ks, nvec := BitVec.ofNat 16 nv,
                   woff := BitVec.ofNat 16 wo, stride := BitVec.ofNat 16 st })
      | _ => .error .illegalEnc) = _
  simp only [List.map] at e
  simp (disch := omega) [asMX, fmtMX, e, mk, hi, withCode, unpack_pack_cons, unpack_small]

theorem RoundTrip.mcorr (x : McorrArgs) : RoundTrip.Statement (.mcorr x) := by
  have := x.a.isLt; have := x.b.isLt; have := x.c.isLt; have := x.ct.isLt; have := x.gd.isLt; have := x.ty.code_lt
  have := bit_lt x.k; have := bit_lt x.tg; have := x.nvec.isLt; have := x.stride.isLt
  refine roundTrip_pack rfl rfl rfl (by simp) (by simp [pack]; try omega) fun hi u e => ?_
  show (asMX u fun a b c gd pri ct aty oty fn gang acc tg z ks nv wo st =>
      match unpack [3, 1, 4] fn with
      | [f0, k, fz] => withCode (ElemType.ofCode aty) fun aty =>
        mk [pri, oty, gang, acc, z, ks, wo, f0, fz]
          (.mcorr { a := regOf a, b := regOf b, c := regOf c, ct := cntOf ct, gd := gdOf gd, ty := aty, k := flag k,
                    tg := flag tg, nvec := BitVec.ofNat 16 nv, stride := BitVec.ofNat 16 st })
      | _ => .error .illegalEnc) = _
  simp only [List.map] at e
  simp (disch := omega) [asMX, fmtMX, e, mk, hi, withCode, unpack_pack_cons, unpack_small]

theorem RoundTrip.msplit (x : MsplitArgs) : RoundTrip.Statement (.msplit x) := by
  have := x.a.isLt; have := x.b.isLt; have := x.c.isLt; have := x.ct.isLt; have := x.gd.isLt; have := x.pri.isLt
  have := x.ty.code_lt; have := bit_lt x.k; have := bit_lt x.acc; have := bit_lt x.tg; have := x.nvec.isLt
  have := x.stride.isLt
  refine roundTrip_pack rfl rfl rfl (by simp) (by simp [pack]; try omega) fun hi u e => ?_
  show (asMX u fun a b c gd pri ct aty oty fn gang acc tg z ks nv wo st =>
      match unpack [3, 1, 4] fn with
      | [f0, k, fz] => withCode (ElemType.ofCode aty) fun aty' =>
        mk [z, wo, f0, fz, if gang == 1 && ks == 1 && aty == oty then 0 else 1]
          (.msplit { a := regOf a, b := regOf b, c := regOf c, ct := cntOf ct, gd := gdOf gd, pri := Fin.ofNat 4 pri,
                     ty := aty', k := flag k, acc := flag acc, tg := flag tg, nvec := BitVec.ofNat 16 nv,
                     stride := BitVec.ofNat 16 st })
      | _ => .error .illegalEnc) = _
  simp only [List.map] at e
  simp (disch := omega) [asMX, fmtMX, e, mk, hi, withCode, unpack_pack_cons, unpack_small]

theorem RoundTrip.msplitJoin (core id : Nat) : RoundTrip.Statement (.msplitJoin core id) :=
  roundTrip_event rfl rfl

theorem RoundTrip.mgangWide (ct : Cnt) (gd : Guard) : RoundTrip.Statement (.mgangWide ct gd) := by
  have := ct.isLt; have := gd.isLt
  refine roundTrip_pack rfl rfl rfl (by simp) (by simp; try omega) fun hi u e => ?_
  show (asMX u fun a b c gd pri ct aty oty fn gang acc tg z ks nv wo st =>
      match fn with
      | 0 => mk [a, b, c, pri, aty, oty, gang, acc, tg, z, ks, nv, wo, st] (.mgangWide (cntOf ct) (gdOf gd))
      | 1 => mk [a, b, c, pri, aty, oty, gang, acc, tg, z, ks, nv, wo, st] (.mgangDeep (cntOf ct) (gdOf gd))
      | _ => .error .illegalEnc) = _
  simp only [List.map] at e
  simp (disch := omega) [asMX, fmtMX, e, mk, hi]

theorem RoundTrip.mgangDeep (ct : Cnt) (gd : Guard) : RoundTrip.Statement (.mgangDeep ct gd) := by
  have := ct.isLt; have := gd.isLt
  refine roundTrip_pack rfl rfl rfl (by simp) (by simp; try omega) fun hi u e => ?_
  show (asMX u fun a b c gd pri ct aty oty fn gang acc tg z ks nv wo st =>
      match fn with
      | 0 => mk [a, b, c, pri, aty, oty, gang, acc, tg, z, ks, nv, wo, st] (.mgangWide (cntOf ct) (gdOf gd))
      | 1 => mk [a, b, c, pri, aty, oty, gang, acc, tg, z, ks, nv, wo, st] (.mgangDeep (cntOf ct) (gdOf gd))
      | _ => .error .illegalEnc) = _
  simp only [List.map] at e
  simp (disch := omega) [asMX, fmtMX, e, mk, hi]

theorem RoundTrip.matrixCommandStart (core id : Nat) : RoundTrip.Statement (.matrixCommandStart core id) :=
  roundTrip_event rfl rfl

theorem RoundTrip.matrixSuspend (core id : Nat) : RoundTrip.Statement (.matrixSuspend core id) :=
  roundTrip_event rfl rfl

theorem RoundTrip.bump (core id : Nat) : RoundTrip.Statement (.bump core id) :=
  roundTrip_event rfl rfl

theorem RoundTrip.stall (core ctx : Nat) : RoundTrip.Statement (.stall core ctx) :=
  roundTrip_event rfl rfl

theorem RoundTrip.watchdog (core ctx : Nat) : RoundTrip.Statement (.watchdog core ctx) :=
  roundTrip_event rfl rfl

theorem RoundTrip.nbrdTimeout (core ctx : Nat) : RoundTrip.Statement (.nbrdTimeout core ctx) :=
  roundTrip_event rfl rfl

theorem RoundTrip.sleepWake (core ctx : Nat) : RoundTrip.Statement (.sleepWake core ctx) :=
  roundTrip_event rfl rfl

theorem RoundTrip.phaseCompletion (core : Nat) : RoundTrip.Statement (.phaseCompletion core) :=
  roundTrip_event rfl rfl

theorem RoundTrip.programLoad (p : ProgImage) : RoundTrip.Statement (.programLoad p) :=
  roundTrip_event rfl rfl

theorem RoundTrip.queueDispatch (q : Nat) : RoundTrip.Statement (.queueDispatch q) :=
  roundTrip_event rfl rfl

theorem RoundTrip.launch (pid : Nat) : RoundTrip.Statement (.launch pid) :=
  roundTrip_event rfl rfl

theorem RoundTrip.barrier (pid : Nat) : RoundTrip.Statement (.barrier pid) :=
  roundTrip_event rfl rfl

theorem RoundTrip.copy (pid : Nat) : RoundTrip.Statement (.copy pid) :=
  roundTrip_event rfl rfl

theorem RoundTrip.nmem (pid : Nat) : RoundTrip.Statement (.nmem pid) :=
  roundTrip_event rfl rfl

theorem RoundTrip.eventPacket (pid : Nat) : RoundTrip.Statement (.eventPacket pid) :=
  roundTrip_event rfl rfl

theorem RoundTrip.nopPacket (pid : Nat) : RoundTrip.Statement (.nopPacket pid) :=
  roundTrip_event rfl rfl

theorem RoundTrip.barrierRound (pid : Nat) : RoundTrip.Statement (.barrierRound pid) :=
  roundTrip_event rfl rfl

theorem RoundTrip.packetCompletion (pid : Nat) : RoundTrip.Statement (.packetCompletion pid) :=
  roundTrip_event rfl rfl

theorem RoundTrip.taskPlace (task row col : Nat) : RoundTrip.Statement (.taskPlace task row col) :=
  roundTrip_event rfl rfl

theorem RoundTrip.wake (team : Nat) : RoundTrip.Statement (.wake team) :=
  roundTrip_event rfl rfl

theorem RoundTrip.teamStart (team : Nat) : RoundTrip.Statement (.teamStart team) :=
  roundTrip_event rfl rfl

theorem RoundTrip.taskComplete (team : Nat) : RoundTrip.Statement (.taskComplete team) :=
  roundTrip_event rfl rfl

theorem RoundTrip.takeRequest (team : Nat) : RoundTrip.Statement (.takeRequest team) :=
  roundTrip_event rfl rfl

theorem RoundTrip.takeWithdraw (team : Nat) : RoundTrip.Statement (.takeWithdraw team) :=
  roundTrip_event rfl rfl

theorem RoundTrip.teamSave (team : Nat) : RoundTrip.Statement (.teamSave team) :=
  roundTrip_event rfl rfl

theorem RoundTrip.teamResume (team : Nat) : RoundTrip.Statement (.teamResume team) :=
  roundTrip_event rfl rfl

theorem RoundTrip.marker (core k : Nat) : RoundTrip.Statement (.marker core k) :=
  roundTrip_event rfl rfl

theorem RoundTrip.lineDrain (core : Nat) : RoundTrip.Statement (.lineDrain core) :=
  roundTrip_event rfl rfl

theorem RoundTrip.kilnDrainTimeout (core : Nat) : RoundTrip.Statement (.kilnDrainTimeout core) :=
  roundTrip_event rfl rfl

theorem RoundTrip.kilnPageCopy (asid va : Nat) : RoundTrip.Statement (.kilnPageCopy asid va) :=
  roundTrip_event rfl rfl

theorem RoundTrip.kilnComplete (asid : Nat) : RoundTrip.Statement (.kilnComplete asid) :=
  roundTrip_event rfl rfl

theorem RoundTrip.hostRead (off len : Nat) : RoundTrip.Statement (.hostRead off len) :=
  roundTrip_event rfl rfl

theorem RoundTrip.hostWrite (off : Nat) (bytes : List Byte) (ep : Bool) :
    RoundTrip.Statement (.hostWrite off bytes ep) :=
  roundTrip_event rfl rfl

theorem RoundTrip.hostAtomic (op : HostAtomicOp) (wide : Bool) (off : Nat) (v cmp : Word64) :
    RoundTrip.Statement (.hostAtomic op wide off v cmp) :=
  roundTrip_event rfl rfl

theorem RoundTrip.cxlMemRead (pa : Nat) : RoundTrip.Statement (.cxlMemRead pa) :=
  roundTrip_event rfl rfl

theorem RoundTrip.cxlMemWrite (pa : Nat) (bytes : List Byte) (poison : Bool) :
    RoundTrip.Statement (.cxlMemWrite pa bytes poison) :=
  roundTrip_event rfl rfl

theorem RoundTrip.queueWindowFetchadd (q : Nat) (v : Word64) : RoundTrip.Statement (.queueWindowFetchadd q v) :=
  roundTrip_event rfl rfl

theorem RoundTrip.queueWindowRead (q off len : Nat) : RoundTrip.Statement (.queueWindowRead q off len) :=
  roundTrip_event rfl rfl

theorem RoundTrip.eventWindowWrite (e : Nat) (v : Word64) : RoundTrip.Statement (.eventWindowWrite e v) :=
  roundTrip_event rfl rfl

theorem RoundTrip.eventWindowRead (e : Nat) : RoundTrip.Statement (.eventWindowRead e) :=
  roundTrip_event rfl rfl

theorem RoundTrip.mgmtErrClear (v : Word64) : RoundTrip.Statement (.mgmtErrClear v) :=
  roundTrip_event rfl rfl

theorem RoundTrip.mgmtReset (key : BitVec 32) : RoundTrip.Statement (.mgmtReset key) :=
  roundTrip_event rfl rfl

theorem RoundTrip.hotReset : RoundTrip.Statement (.hotReset) :=
  roundTrip_event rfl rfl

theorem RoundTrip.warmResetComplete : RoundTrip.Statement (.warmResetComplete) :=
  roundTrip_event rfl rfl

theorem RoundTrip.coldStart (fail : BitVec 8) (bad : List Nat) : RoundTrip.Statement (.coldStart fail bad) :=
  roundTrip_event rfl rfl

theorem RoundTrip.startUpComplete : RoundTrip.Statement (.startUpComplete) :=
  roundTrip_event rfl rfl

theorem RoundTrip.timeset (v : Word64) : RoundTrip.Statement (.timeset v) :=
  roundTrip_event rfl rfl

theorem RoundTrip.ptmintWrite (v : Word64) : RoundTrip.Statement (.ptmintWrite v) :=
  roundTrip_event rfl rfl

theorem RoundTrip.ptmDialogue (offset : Word64) : RoundTrip.Statement (.ptmDialogue offset) :=
  roundTrip_event rfl rfl

theorem RoundTrip.fullReport : RoundTrip.Statement (.fullReport) :=
  roundTrip_event rfl rfl

theorem RoundTrip.shortReport : RoundTrip.Statement (.shortReport) :=
  roundTrip_event rfl rfl

theorem RoundTrip.registerWrite (off : Nat) (v : Word64) : RoundTrip.Statement (.registerWrite off v) :=
  roundTrip_event rfl rfl

theorem RoundTrip.powerGrant (g : PowerGrants) : RoundTrip.Statement (.powerGrant g) :=
  roundTrip_event rfl rfl

theorem RoundTrip.thermalTrip (die : Fin 4) : RoundTrip.Statement (.thermalTrip die) :=
  roundTrip_event rfl rfl

theorem RoundTrip.linkDead (port : Fin 16) : RoundTrip.Statement (.linkDead port) :=
  roundTrip_event rfl rfl

theorem RoundTrip.linkRetrained (port : Fin 16) : RoundTrip.Statement (.linkRetrained port) :=
  roundTrip_event rfl rfl

theorem RoundTrip.linkStateNotice (node : Nat) (up : Bool) : RoundTrip.Statement (.linkStateNotice node up) :=
  roundTrip_event rfl rfl

theorem RoundTrip.drainRound (port : Fin 16) : RoundTrip.Statement (.drainRound port) :=
  roundTrip_event rfl rfl

theorem RoundTrip.remoteAtomicTimeout (core id : Nat) : RoundTrip.Statement (.remoteAtomicTimeout core id) :=
  roundTrip_event rfl rfl

theorem RoundTrip.tagTupleExpiry (i : Nat) : RoundTrip.Statement (.tagTupleExpiry i) :=
  roundTrip_event rfl rfl

theorem RoundTrip.peerRequest (src epoch addr : Nat) (ask : PeerAsk) : RoundTrip.Statement (.peerRequest src epoch addr ask) :=
  roundTrip_event rfl rfl

theorem RoundTrip.peerRetireTimeout (w : Fin 128) : RoundTrip.Statement (.peerRetireTimeout w) :=
  roundTrip_event rfl rfl

theorem RoundTrip.replicaWriteTimeout (i die : Nat) : RoundTrip.Statement (.replicaWriteTimeout i die) :=
  roundTrip_event rfl rfl

theorem RoundTrip.droppedWindowWrite (w : WindowAccess) : RoundTrip.Statement (.droppedWindowWrite w) :=
  roundTrip_event rfl rfl

theorem RoundTrip.remoteKilnStart (asid k : Nat) (base : Bool) : RoundTrip.Statement (.remoteKilnStart asid k base) :=
  roundTrip_event rfl rfl

theorem RoundTrip.remoteRollback (asid k : Nat) : RoundTrip.Statement (.remoteRollback asid k) :=
  roundTrip_event rfl rfl

end Sys2Proof.Laws
end

