-- ==== Sys2Proof/Tests/Slice0.lean ====
section
/-! SUPPORT. Tests: ill-formed terms that `Instr.wellFormed` refuses, the words that the manual works out, single steps with
the manual's own results, and for every statement a witness that its hypotheses can hold together. -/

open Sys2Proof Sys2Proof.Machine

namespace Sys2Proof.Tests

set_option Elab.async false

/-! ## Ill-formed terms -/

def none' : MemOrder := { acq := false, rel := false, sc := .core }
def noMask : VMask := { zm := false, pm := 0 }
def atomic0 : AtomicArgs := { w := false, tg := false, d := 1, a := 2, b := 3, ct := 0, gd := 0, ord := none', tag := 0 }
def xfer0 : XferArgs :=
  { a := 5, b := 4, c := 0, ct := 3, gd := 0, ord := none', lsp := .a, t := false, k := false, lin := false, len := 512 }
def copy0 : CopyArgs :=
  { a := 5, b := 4, c := 6, ct := 2, gd := 0, ord := none', lsp := .a, t := false, k := false, dsp := .a, wh := .issuer
    dt := false, dk := false, len := 256 }
def inbox0 : InboxArgs :=
  { a := 5, b := 4, ct := 2, gd := 0, ord := none', lsp := .a, t := false, k := false, wh := .issuer, len := 64 }
def mmul0 : MmulArgs :=
  { a := 2, b := 3, ct := 1, gd := 0, pri := 0, at' := .bf16, ot := .bf16, st := false, grp := .none, k := false, gang := true
    acc := false, tg := false, ksteps := 2, nvec := 1, woff := 0, stride := 32 }
def mcorr0 : McorrArgs :=
  { a := 4, b := 5, c := 6, ct := 3, gd := 0, ty := .bf16, k := false, tg := false, nvec := 1, stride := 32 }
def msplit0 : MsplitArgs :=
  { a := 2, b := 3, c := 5, ct := 4, gd := 0, pri := 0, ty := .bf16, k := false, acc := false, tg := false, nvec := 1, stride := 32 }

/-- Scalar, control and local-store limits: R57, R59, R61, R62, R346, R361, R363, R375, R404, R412, R441. -/
theorem test_illFormed_scalar :
    ([.shlImm 1 2 64, .shrImm 1 2 64, .sraImm 1 2 64, .rolImm 1 2 64, .bfx false 1 2 60 4, .bfi 1 2 60 4,
      .fadd .e4m3 .rne 1 2 3, .fsub .int32 .rne 1 2 3, .fmul .e5m2 .rne 1 2 3, .ffma .e2m1 .rne 1 2 3 4, .fmin .int8 1 2 3,
      .fmax .int8 1 2 3, .fcmp .ltu .fp32 1 2 3, .fcmp .lt .int32 1 2 3, .fcvt .int8 .int32 .rz 1 2, .br 2, .brc .eq 1 2 1,
      .call 3, .chk 1 2 2, .yield 1 1, .yield 2 0, .ld .d true false false 1 ⟨.a, 2, 0⟩, .ld .w false false true 1 ⟨.a, 2, 0⟩,
      .ld .w false true false 1 ⟨.w, 2, 0⟩, .ld .w false false false 1 ⟨.e, 2, 0⟩, .ld .d false true false 1 ⟨.e, 2, 0⟩,
      .st .w false true 1 ⟨.a, 2, 0⟩, .st .w true false 1 ⟨.w, 2, 0⟩, .st .h false false 1 ⟨.e, 2, 0⟩,
      .lds .d false false false 1 ⟨.e, 2, 0⟩, .lds .d true false false 1 ⟨.a, 2, 0⟩, .tagTest .d 1 ⟨.w, 2, 0⟩,
      .tagEmpty .d ⟨.w, 2, 0⟩, .tagFull .d ⟨.e, 2, 0⟩, .tagSpent .d ⟨.w, 2, 0⟩] : List Instr).all
      (fun i => !i.wellFormed) = true := by decide +kernel

/-- Limits of contexts, predicates, atomics, engines and control registers: R58, R60, R63, R174, R176, R213, R222, R229, R341,
R358, R400, R414. -/
theorem test_illFormed_engines :
    ([.evsig 0 1 0 0 0, .evsig 0 0 1 0 0, .evsig 0 0 0 4 0, .evsig 0 1 2 2 1, .recv .d true false false 1 2 0,
      .recv .d false false true 1 2 0, .plog .and 1 8 2, .plog .not 1 2 3, .gset 0 1, .gres 0 1, .repseq 0, .repseq 17,
      .aadd { atomic0 with ord := ⟨false, false, .team⟩ }, .aaddw { atomic0 with tag := 1 }, .aswap { atomic0 with tag := 2 },
      .acas { atomic0 with tag := 2 } 4, .amin { atomic0 with tag := 2 }, .amax { atomic0 with tag := 2 },
      .aand { atomic0 with tag := 2 }, .aor { atomic0 with tag := 2 }, .await false 1 2 3 0 false .team,
      .evpost 1 2 0 0 ⟨false, false, .die⟩, .done 1 0 0 ⟨false, false, .die⟩, .rowmig 1 2 0 0 ⟨false, false, .die⟩,
      .tspawn 1 2 3 0 0 ⟨false, false, .die⟩, .lflat 1 2 0 0 ⟨false, false, .die⟩, .lrebase 1 2 3 0 0 ⟨false, false, .die⟩,
      .lpack 1 2 0 0 ⟨false, false, .die⟩, .heatage 1 0 0 none' 0, .heatage 1 0 0 none' 9, .rowrank 1 2 0 0 none' 0,
      .csrr 1 0x004, .csrw 1 0x004, .csrw 1 0x000, .csrw 1 0x105, .tlbinv true false .core 1, .get { xfer0 with c := 1 },
      .put { xfer0 with len := 4 }, .get { xfer0 with len := 0 }, .put { xfer0 with len := 0xC008 }, .get { xfer0 with lsp := .e },
      .get { xfer0 with k := true }, .get { xfer0 with lsp := .w, t := true }, .grist { xfer0 with lin := true },
      .gristScatter { xfer0 with len := 12 }, .cpy { copy0 with len := 0xC008 }, .cpy { copy0 with dsp := .e },
      .cpy { copy0 with dsp := .w, dt := true }, .cpy { copy0 with dk := true }, .sendD { copy0 with len := 264 },
      .sendP { copy0 with len := 264 }, .sendI { inbox0 with len := 264 }, .nmc 1 2 0 0 none' 0,
      .nmscan false 1 2 3 0 0 none' .e4m3 1 1, .nmscan false 1 2 3 0 0 none' .fp32 0 1,
      .nmscan false 1 2 3 0 0 none' .fp32 1 0] : List Instr).all (fun i => !i.wellFormed) = true := by decide +kernel

/-- Limits of the vector and matrix instructions: R171, R194 to R200, R211, R218, R420, R423, R425, R428 to R435. -/
theorem test_illFormed_vector :
    ([.vclaim 0, .vclaim 4, .vclaim 72, .vld .fp32 .e false false 1 2 noMask, .vld .fp32 .w true false 1 2 noMask,
      .vst .fp32 .w false false 1 2 0, .vst .fp32 .a false true 1 2 0, .vadd .e4m3 .rne 1 2 (.vec 3) noMask,
      .vsub .int32 .rz 1 2 (.vec 3) noMask, .vmul .int4 .rne 1 2 (.vec 3) noMask, .vfma .e2m1 .rne 1 2 (.vec 3) 4 noMask,
      .vmax .int4 1 2 (.vec 3) noMask, .vmin .e5m2 1 2 (.vec 3) noMask, .vabs .uint4 1 2 noMask, .vcvt .int8 .int32 .rs 1 2 noMask,
      .vqnt .fp32 .rne 1 2 3 noMask, .vqnt .e4m3 .rne 1 2 1 noMask, .vdqn .bf16 .rne 1 2 3 noMask, .vred .max .fp32 .rz 1 2 noMask,
      .vscan .sum .int32 .rz 1 2 noMask, .vred .sum .e4m3 .rne 1 2 noMask, .vcmp .ltu .fp32 1 2 (.vec 3) noMask,
      .vcmp .lt .e4m3 1 2 (.vec 3) noMask, .vfn .exp .int32 .rne 1 2 noMask, .mlds false .none .fp32 false 0 0 0 0,
      .mlds false .g32 .bf16 false 0 0 0 0, .mlds false .none .bf16 false 0 0 0 32, .mlds false .none .bf16 false 0 0 0 0xBF00,
      .mmul { mmul0 with ot := .fp16 }, .mmul { mmul0 with grp := .g32 }, .mmul { mmul0 with k := true },
      .mmul { mmul0 with ksteps := 0 }, .mmul { mmul0 with nvec := 33 }, .mmul { mmul0 with stride := 4 },
      .mmul { mmul0 with woff := 0xC000 }, .mmul { mmul0 with st := true }, .mcorr { mcorr0 with ty := .e4m3 },
      .mcorr { mcorr0 with nvec := 17 }, .mcorr { mcorr0 with k := true }, .mcorr { mcorr0 with stride := 4 },
      .msplit { msplit0 with ty := .fp32 }, .msplit { msplit0 with nvec := 0 }, .msplit { msplit0 with k := true },
      .msplit { msplit0 with stride := 4 }] : List Instr).all (fun i => !i.wellFormed) = true := by decide +kernel

/-- The same terms at the edge of what is allowed are well-formed. -/
theorem test_wellFormed :
    ([.shlImm 1 2 63, .bfx true 1 2 59 4, .fadd .bf16 .rup 3 1 2, .br 0xFFFFFFFC, .yield 0xFFFFFFFE 255,
      .ld .d false true true 1 ⟨.c, 2, 0⟩, .ld .d false false false 1 ⟨.e, 2, 0x40⟩, .plog .reg 1 31 0, .repseq 16,
      .aadd { atomic0 with tg := true, tag := 9 }, .heatage 1 0 0 none' 8, .get xfer0, .put { xfer0 with len := 0xC000 }, .cpy copy0,
      .sendI inbox0, .vclaim 64, .mmul mmul0, .mcorr mcorr0, .msplit msplit0] : List Instr).all Instr.wellFormed = true := by
  decide +kernel

/-! ## Words that the manual works out

Each pair is the parcels that the manual prints and the instruction that it prints them for. -/

/-- The number whose 32-bit parcels are given, parcel 0 first (R50). -/
def wordFrom (ps : List Nat) : Nat := ps.foldr (fun p r => p + 2 ^ 32 * r) 0

def reads (x : List Nat × Instr) : Bool := match decodeWord (wordFrom x.1) with | .ok i => decide (i = x.2) | .error _ => false

/-- Example 3.1 and the integer entries of the reference. -/
theorem test_words_integer :
    ([([0x00208C04, 0], .add 3 1 2), ([0x00029504, 0xFFFFFFF0], .addImm 5 5 0xFFFFFFF0),
      ([0x00001C06, 0, 0x89ABCDEF, 0x01234567], .movi 7 0x0123456789ABCDEF), ([0x0002111C, 0xFF], .andImm 4 4 0xFF),
      ([0x00208C28, 0], .andn 3 1 2), ([0x01029154, 0x308], .bfx true 4 5 8 3), ([0x00031158, 0x710], .bfi 4 6 16 7),
      ([0x0003984C, 0], .clz 6 7), ([0x80208C44, 0], .cmp .lt 3 1 2), ([0x00508D44, 0x64], .cmpImm .ge 3 1 100),
      ([0x00208C14, 0], .div 3 1 2), ([0x00020C54, 0], .mov 3 4), ([0x00208C0C, 0], .mul 3 1 2), ([0x0002910C, 10], .mulImm 4 5 10),
      ([0x00731410, 0], .mulh 5 6 7), ([0x00208C3C, 0], .min 3 1 2), ([0x00021140, 0], .maxImm 4 4 0), ([0, 0], .nop),
      ([0x00D4A420, 0], .or 9 9 13), ([0x00629408, 0], .sub 5 5 6), ([0x00021108, 1], .subImm 4 4 1), ([0x00039850, 0], .popc 6 7),
      ([0x00208C18, 0], .rem 3 1 2), ([0x04148C48, 0], .sel 3 9 1 2), ([0x0005352C, 5], .shlImm 13 10 5),
      ([0x00A4AC30, 0], .shr 11 9 10), ([0x00008D34, 63], .sraImm 3 1 63), ([0x00839838, 0], .rol 6 7 8),
      ([0x00208C24, 0], .xor 3 1 2), ([0x00021124, 0xFFFFFFFF], .xorImm 4 4 0xFFFFFFFF)] : List (List Nat × Instr)).all reads = true := by
  decide +kernel

/-- The floating, control, local-store and context entries, and R98, R189, R241, R266, R296, R330. -/
theorem test_words_control :
    ([([0xC0208C60, 4], .fadd .bf16 .rup 3 1 2), ([0x0620906C, 0], .ffma .fp32 .rne 4 1 2 3), ([0x80208C78, 0], .fcmp .lt .fp32 3 1 2),
      ([0x00208C70, 0], .fmin .fp32 3 1 2), ([0x0003147C, 5], .fcvt .bf16 .fp32 .rs 5 6), ([0x80, 0x0C], .br 0x0C),
      ([0x88, 0x180], .call 0x180), ([0x00101084, 0xFFFFFFC0], .brc .ne 4 0 0xFFFFFFC0), ([0x00029094, 0x20], .chk 4 5 0x20),
      ([0x000F808C, 0], .ret 31), ([0x0002FC90, 0], .jmpr 31 5), ([0x9C, 0], .exit 0), ([0x08000098, 0x80000030], .yield 0x80000030 8),
      ([0xA0, 7], .trap 7), ([0x1E8, 0], .rfe), ([0x1F0, 0], .icinv), ([0x02D21CC8, 0x40], .lds .d false true false 7 ⟨.a, 4, 0x40⟩),
      ([0x04428CC0, 0x10], .ld .h true false false 3 ⟨.w, 5, 0x10⟩), ([0x00F018C0, 0x40], .ld .d false false false 6 ⟨.e, 0, 0x40⟩),
      ([0x02D010C0, 0], .ld .d false true false 4 ⟨.a, 0, 0⟩), ([0x00901CC0, 0x28], .ld .w false false false 7 ⟨.a, 0, 0x28⟩),
      ([0x00431CC4, 0], .st .h false false 7 ⟨.w, 6, 0⟩), ([0x02E20CC4, 0x100], .st .d true false 3 ⟨.c, 4, 0x100⟩),
      ([0x08D200CC, 0x100], .tagEmpty .d ⟨.a, 4, 0x100⟩), ([0x00E014CC, 0x40], .tagTest .d 5 ⟨.c, 0, 0x40⟩),
      ([0x0A4188D0, 0], .hstart 2 3 4 5), ([0x000398D4, 0], .hjoin 6 7), ([0xE0, 1], .phaseC .l1), ([0x010000E0, 3], .phaseX .l3),
      ([0xC00214E4, 8], .vote .sum 5 4 .l3), ([0x016388E8, 0x40], .evsig 2 6 7 0x40 1), ([0x000280EC, 0], .sleept 5),
      ([0x10F0, 0], .time 4), ([0x000180F4, 1], .waitcGe 3 1), ([0x010000F4, 0], .waitcLeOl 0), ([0x020000F4, 0], .waitcLeOs 0),
      ([0x000110F8, 1], .nbrd 4 2 1), ([0x06929CFC, 0x20], .recv .w true true false 7 5 0x20)] : List (List Nat × Instr)).all reads = true := by
  decide +kernel

/-- Predicates, guards, repetitions, atomics, events, kilns, control registers: R189, R266, R271 and the reference. -/
theorem test_words_system :
    ([([0x00208D60, 0], .plog .and 3 1 2), ([0x00008960, 0x10], .plog .not 2 1 0), ([0x00011564, 4], .pcnt .lowest 5 2),
      ([0x968, 2], .gset 2 2), ([0x00028D6C, 0], .gres 3 5), ([0x170, 2], .repseq 2), ([0x04000174, 3], .repgo 3 4),
      ([0x00010178, 0], .cntset 2 0),
      ([0x00628980, 0x00240802], .aadd { w := false, tg := true, d := 2, a := 5, b := 6, ct := 1, gd := 0, ord := none', tag := 9 }),
      ([0xB062898C, 2], .acas { w := false, tg := false, d := 2, a := 5, b := 6, ct := 1, gd := 0, ord := ⟨true, false, .team⟩, tag := 0 } 0),
      ([0x50838198, 0x407], .aand { w := true, tg := false, d := 0, a := 7, b := 8, ct := 3, gd := 0, ord := ⟨false, true, .module⟩, tag := 0 }),
      ([0x30520D84, 3], .aaddw { w := false, tg := false, d := 3, a := 4, b := 5, ct := 1, gd := 0, ord := ⟨false, true, .team⟩, tag := 0 }),
      ([0xB0520DA0, 4], .await false 3 4 5 2 true .team), ([0x005201A8, 4], .evpost 4 5 2 0 none'), ([0x005219AC, 0], .evwait 6 4 5),
      ([0x1B0, 6], .trig 3 0), ([0x500581B4, 7], .done 11 3 0 ⟨false, true, .module⟩), ([0x006001B8, 8], .wdq 6 4 0 0),
      ([0x000201C0, 0x00040004], .heatage 4 2 0 none' 1), ([0x017A81C4, 0x00100008], .rowrank 21 23 4 0 none' 4),
      ([0x506201C8, 0xB], .rowmig 4 6 5 0 ⟨false, true, .module⟩), ([0x11D0, 2], .kiln false 4 1), ([0x000215D4, 0], .kilnst 5 4),
      ([0x000219D8, 4], .kilnrel 6 4 2), ([0x000219DC, 6], .kilnrb 6 4 3), ([0x010009E0, 0], .csrr 2 0x010), ([0x030281E4, 0], .csrw 5 0x030),
      ([0x000201EC, 4], .tlbinv false false .die 4), ([0x1EC, 0xB], .tlbinv true true .module 0)] : List (List Nat × Instr)).all reads = true := by
  decide +kernel

/-- Transfers, near-memory commands, lineage: Examples 6.1 and 7.1's words, R158, R228 and the reference. -/
theorem test_words_transfers :
    ([([0x00428005, 0x1406, 0x200], .get { xfer0 with t := true }),
      ([0x01780005, 0x4002, 16], .get { xfer0 with a := 16, b := 23, lsp := .w, ct := 1, lin := true, len := 16 }),
      ([0x00950009, 0x404, 8], .put { xfer0 with a := 10, b := 9, ct := 2, len := 8 }),
      ([0x0063800D, 0x8904, 0x900], .gristScatter { xfer0 with a := 7, b := 6, c := 8, lsp := .c, ct := 2, len := 2304 }),
      ([0x00428011, 0x002404C4, 0x100], .cpy { copy0 with wh := .both }),
      ([0x00B18015, 0x00140502, 8], .sendD { copy0 with a := 3, b := 11, c := 8, ct := 1, wh := .destination, len := 8 }),
      ([0x00428015, 0x00108404, 64], .sendI { inbox0 with wh := .destination }),
      ([0x00400019, 0xCA, 16], .nmc 4 6 5 0 none' 16), ([0x0084801D, 0x01000544, 1024], .nmscan true 9 8 10 2 0 none' .fp32 4 1024),
      ([0x00520C21, 2, 0], .tspawn 3 4 5 1 0 none'), ([0x00019041, 0, 0], .lfork 4 3 0), ([0x00019041, 0x4E2, 0], .lforkAf 4 3 7 1),
      ([0x00031445, 4, 0], .lflat 5 6 2 0 none'), ([0x0107B449, 4, 0], .lrebase 13 15 16 2 0 none'), ([0x0009B44D, 6, 0], .ldel 13 19 3),
      ([0x00031451, 4, 0], .lpack 5 6 2 0 none'), ([0x00085455, 0, 0], .linfo 21 16)] : List (List Nat × Instr)).all reads = true := by
  decide +kernel

/-- Vector and matrix instructions: R189, Examples 10.2 and 3.1, the table before Example 26.1 and the reference. -/
theorem test_words_vector :
    ([([0x81, 0, 32], .vclaim 32), ([0x85, 0, 0], .vrel), ([0x80310491, 2, 0], .vadd .fp32 .rne 1 2 (.vec 3) ⟨true, 2⟩),
      ([0xC89, 0x400, 4], .vld .fp32 .a false false 3 4 noMask), ([0x148D, 0x804, 6], .vst .bf16 .c false false 5 6 0),
      ([0x00010491, 0x400, 5], .vadd .fp32 .rne 1 2 (.scalar 5) noMask), ([0x0620909D, 0x104, 0], .vfma .bf16 .rs 4 1 (.vec 2) 3 noMask),
      ([0x88E9, 0xC00, 5], .vshr true 2 1 (.scalar 5) noMask), ([0x00208CC5, 0x1000, 0], .vcmp .lt .fp32 3 1 (.vec 2) noMask),
      ([0x400088B9, 0, 0], .vred .sum .fp32 .rne 2 1 ⟨false, 1⟩), ([0x083088C1, 0, 0], .vshuf 2 1 3 4 noMask),
      ([0x88AD, 0x104, 0], .vcvt .bf16 .fp32 .rs 2 1 noMask), ([0x0E0098B1, 0xC, 0], .vqnt .e4m3 .rne 6 1 7 noMask),
      ([0xD1, 0, 0x3F800000], .vbcast .fp32 0 (.imm 0x3F800000) noMask), ([0xD5, 0, 0], .vidx 0 0 noMask),
      ([0x4000000A, 0x40, 0, 0x200], .mlds false .none .bf16 false 0 1 0 0x200), ([0x4000001E, 0x400, 0, 0], .mgangDeep 1 0),
      ([0x0051881A, 0x00140045, 0x10001, 0x200000], .msplit { msplit0 with tg := true }),
      ([0xC000101A, 0x00040044, 0x10001, 0x200000], .msplit { msplit0 with a := 4, b := 0, c := 0, ct := 3 }),
      ([0x40018812, 0x00040044, 0x10002, 0x200000], .mmul mmul0), ([0x8000000E, 0x40000, 0, 0], .mswap true 0 2 0),
      ([0xC0629016, 4, 0x10000, 0x200000], .mcorr mcorr0)] : List (List Nat × Instr)).all reads = true := by
  decide +kernel

/-- Example 3.2: what its words raise. -/
theorem test_words_refused :
    (match decodeWord (wordFrom [0x00208C04, 1]) with | .error .illegalEnc => true | _ => false) = true ∧
    (match decodeWord (wordFrom [0x81310491, 2, 0]) with | .error .illegalEnc => true | _ => false) = true := by
  decide +kernel

/-! ## Single steps with the manual's results -/

/-- A live context with values in scalar registers. -/
def regs (l : List (Nat × Nat)) : Ctx := { live := true, sregs := l.map (fun e => (e.1, { val := BitVec.ofNat 64 e.2 })) }

/-- Core 0 with one context, h0, and a trap handler at 0x4000. -/
def one (x : Ctx) (y : Core := {}) : State := { cores := [(0, { y with ctxs := [(0, x)], tvec := 0x4000 })] }

def after (o : Host.Outcome State Fault Refusal) (p : State → Bool) : Bool := match o with | .next t => p t | _ => false

/-- The instruction leaves v in register d of the running context. -/
def writes (i : Instr) (s : State) (d v : Nat) : Bool := after (exec i s) (fun t => decide ((t.me.sv d).toNat = v))

/-- The instruction traps with a cause and FADDR. -/
def trapsWith (i : Instr) (s : State) (cause faddr : Nat) : Bool :=
  after (exec i s) (fun t => decide (t.me.cause.toNat = cause ∧ t.me.faddr.toNat = faddr ∧ t.me.pc = 0x4000 ∧ t.me.sup = true))

def neg (n : Nat) : Nat := 2 ^ 64 - n

/-- Hand calculation: wraps, signs, the amount's low bits, a source that is the destination. -/
theorem test_integer :
    (writes (.add 3 1 2) (one (regs [(1, neg 1), (2, 3)])) 3 2 && writes (.addImm 1 1 0xFFFFFFF0) (one (regs [(1, 6)])) 1 (neg 10) &&
      writes (.sub 3 1 2) (one (regs [(1, 3), (2, 5)])) 3 (neg 2) && writes (.mulh 3 1 2) (one (regs [(1, neg 1), (2, 2)])) 3 (neg 1) &&
      writes (.mul 3 1 2) (one (regs [(1, 2 ^ 63), (2, 2)])) 3 0 && writes (.div 3 1 2) (one (regs [(1, neg 7), (2, 2)])) 3 (neg 3) &&
      writes (.rem 3 1 2) (one (regs [(1, neg 7), (2, 2)])) 3 (neg 1) && writes (.div 3 1 2) (one (regs [(1, 2 ^ 63), (2, neg 1)])) 3 (2 ^ 63) &&
      writes (.shl 3 1 2) (one (regs [(1, 1), (2, 65)])) 3 2 && writes (.sra 3 1 2) (one (regs [(1, 2 ^ 63), (2, 63)])) 3 (neg 1) &&
      writes (.shr 3 1 2) (one (regs [(1, 2 ^ 63), (2, 63)])) 3 1 && writes (.rol 3 1 2) (one (regs [(1, 2 ^ 63 + 1), (2, 1)])) 3 3 &&
      writes (.cmp .lt 3 1 2) (one (regs [(1, neg 1), (2, 1)])) 3 1 && writes (.cmp .ltu 3 1 2) (one (regs [(1, neg 1), (2, 1)])) 3 0 &&
      writes (.min 3 1 2) (one (regs [(1, neg 1), (2, 1)])) 3 (neg 1) && writes (.max 3 1 2) (one (regs [(1, neg 1), (2, 1)])) 3 1 &&
      writes (.clz 3 0) (one (regs [])) 3 64 && writes (.popc 3 1) (one (regs [(1, neg 1)])) 3 64 &&
      writes (.bfx true 3 1 4 3) (one (regs [(1, 0x85)])) 3 (neg 8) && writes (.bfi 3 1 4 3) (one (regs [(1, 0xAB), (3, 0xFFFF)])) 3 0xFFBF &&
      writes (.sel 3 1 2 4) (one (regs [(1, 0), (2, 5), (4, 6)])) 3 6 && writes (.andn 3 1 2) (one (regs [(1, 0xF), (2, 5)])) 3 10 &&
      writes (.add 0 1 2) (one (regs [(1, 1), (2, 1)])) 0 0) = true := by decide +kernel

/-- R119, R399: division by zero sets ISTAT.DZ; R76: a deferred source defers the result. -/
theorem test_integer_flags :
    after (exec (.rem 3 1 2) (one (regs [(1, 9), (2, 0)]))) (fun t => decide (t.me.sv 3 = 9 ∧ t.me.istat = 1)) = true ∧
    after (exec (.mov 3 1) (one { regs [(1, 9)] with sregs := [(1, { val := 9, d := true })] }))
      (fun t => t.me.dbit 3) = true := by decide +kernel

/-- Example 5.2 and the lines of Example 23.2. -/
theorem test_floating :
    (writes (.fadd .bf16 .rne 3 1 2) (one (regs [(1, 0xFFFF000000004380), (2, 0x3F80)])) 3 0x4380 &&
      writes (.fadd .bf16 .rup 3 1 2) (one (regs [(1, 0x4380), (2, 0x3F80)])) 3 0x4381 &&
      writes (.fmin .fp32 3 1 2) (one (regs [(1, 0), (2, 0x80000000)])) 3 0x80000000 &&
      writes (.fmax .fp32 3 1 2) (one (regs [(1, 0x7FC01234), (2, 0x3F800000)])) 3 0x3F800000 &&
      writes (.fsub .fp32 .rne 3 1 2) (one (regs [(1, 0x7F800000), (2, 0x7F800000)])) 3 0x7FC00000 &&
      writes (.fcvt .int8 .fp32 .rne 3 1) (one (regs [(1, 0x43480000)])) 3 0x7F &&
      writes (.fcvt .e4m3 .fp32 .rne 3 1) (one (regs [(1, 0x43FA0000)])) 3 0x7E &&
      writes (.fcvt .bf16 .fp32 .rne 3 1) (one (regs [(1, 0x3F808000)])) 3 0x3F80 &&
      writes (.fmul .fp32 .rne 3 1 2) (one (regs [(1, 0x40000000), (2, 0xC0400000)])) 3 0xC0C00000 &&
      writes (.ffma .fp32 .rne 3 1 2 4) (one (regs [(1, 0x40000000), (2, 0x40400000), (4, 0x3F800000)])) 3 0x40E00000 &&
      writes (.fcmp .ne .fp32 3 1 1) (one (regs [(1, 0x7FC00000)])) 3 1) = true := by decide +kernel

/-- The flags of Example 23.2: NX alone, NV for ∞ − ∞ and for 200.0 to INT8, OF and NX for 500.0 to E4M3. -/
theorem test_floating_flags :
    after (exec (.fadd .bf16 .rup 3 1 2) (one (regs [(1, 0x4380), (2, 0x3F80)]))) (fun t => decide (t.me.frm = 16)) = true ∧
    after (exec (.fsub .fp32 .rne 3 1 2) (one (regs [(1, 0x7F800000), (2, 0x7F800000)]))) (fun t => decide (t.me.frm = 1)) = true ∧
    after (exec (.fcvt .int8 .fp32 .rne 3 1) (one (regs [(1, 0x43480000)]))) (fun t => decide (t.me.frm = 1)) = true ∧
    after (exec (.fcvt .e4m3 .fp32 .rne 3 1) (one (regs [(1, 0x43FA0000)]))) (fun t => decide (t.me.frm = 20)) = true := by
  decide +kernel

/-- R347, R402, R415; Example 3.2: RFE in user mode raises PRIV, and in supervisor mode executes. -/
theorem test_control :
    (after (exec (.call 0x180) (one { regs [] with pc := 0x100 })) (fun t => decide (t.me.pc = 0x280 ∧ t.me.sv 31 = 0x108)) &&
      after (exec (.brc .ne 1 0 0xFFFFFFC0) (one { regs [(1, 1)] with pc := 0x100 })) (fun t => decide (t.me.pc = 0xC0)) &&
      trapsWith (.ret 1) (one { regs [(1, 0x102)] with pc := 0x100 }) 7 0x102 &&
      trapsWith (.trap 7) (one { regs [] with pc := 0x100 }) 32 7 && trapsWith .rfe (one { regs [] with pc := 0x110 }) 5 0x110 &&
      after (exec .rfe (one { regs [] with sup := true, epc := 0x200, nest := true }))
        (fun t => decide (t.me.pc = 0x200 ∧ t.me.sup = false ∧ t.me.nest = false)) &&
      after (exec (.yield 0x30 8) (one (regs [(4, 7)]))) (fun t => decide (t.me.left = 2048 ∧ t.me.sv 4 = 7))) = true := by
  decide +kernel

/-- Example 1.1: MESHXY and CORENUM of the core at row 75, column 130. -/
theorem test_meshxy :
    ({ curCore := 16930, cores := [(16930, { ctxs := [(0, regs [])] })] } : State).csr 0x001 = 0xA1134B82 ∧
    ({ curCore := 16930, cores := [(16930, { ctxs := [(0, regs [])] })] } : State).csr 0x000 = 0x4222 := by decide +kernel

/-- R375, R376, R411: a load sign-extends; a tagged store fills its line; LDS defers on an empty one; limits trap. -/
theorem test_local :
    (writes (.ld .h true false false 3 ⟨.w, 5, 0x10⟩) (one (regs [(5, 0x20)]) { w := [(0x30, 0xFE), (0x31, 0xFF)] }) 3 (neg 2) &&
      after (exec (.st .d true false 3 ⟨.c, 4, 0x100⟩) (one (regs [(3, 0x0102), (4, 0)])))
        (fun t => decide (t.home.c = [(0x100, 2), (0x101, 1)] ∧ t.home.tag 321 = { v := true, u := false, p := false })) &&
      after (exec (.lds .d false true false 7 ⟨.a, 4, 0x40⟩) (one (regs [(4, 0)]))) (fun t => t.me.dbit 7) &&
      trapsWith (.ld .d false false false 3 ⟨.w, 5, 0⟩) (one (regs [(5, 0xBFFC)])) 6 0xBFFC &&
      trapsWith (.st .w false false 3 ⟨.a, 5, 2⟩) (one (regs [(5, 0x100)])) 7 0x102 &&
      writes (.ld .d false false false 6 ⟨.e, 0, 0x40⟩) (one (regs [])) 6 0) = true := by decide +kernel

/-- Example 25.1, step 2: RECV takes record 1 of 72 bytes; HEAD and USED become 72 and 144. -/
theorem test_recv :
    after (exec (.recv .w false false false 7 5 0) (one (regs [(5, 0x800)])
        { inbox := { base := 4, lines := 1, head := 0, used := 216 }, a := Mem.write [] 0x400 (leBytes 8 0x30801 ++ leBytes 8 9) }))
      (fun t => decide (t.home.inbox.head = 72 ∧ t.home.inbox.used = 144 ∧ t.me.sv 7 = 9 ∧ t.home.a.num 0x800 8 = 0x30801)) = true := by
  decide +kernel

def gangRec : FaultRec := { pc := 0x40, addr := 0, ctx := 0, ct := 4, status := 21, seq := 0, rep := some (0, 0) }

/-- R242, R240 on the edge of its half circle, and R300 with Example 19.1's first CAUSE. -/
theorem test_counters :
    (after (exec (.cntset 2 7) (one (regs []))) (fun t => decide (t.home.counter 2 = 7)) &&
      after (exec (.waitcGe 3 0x80000001) (one { regs [] with pc := 8 } { counters := [(3, 0)] })) (fun t => decide (t.me.pc = 16)) &&
      after (exec (.waitcGe 3 0x80000000) (one { regs [] with pc := 8 } { counters := [(3, 0)] })) (fun t => decide (t.me.pc = 8)) &&
      trapsWith (.waitcGe 4 3) (one (regs []) { counters := [(4, 3)], faultq := [gangRec] }) 0x241513 0) = true := by decide +kernel

/-- R174, R392, R365's predicate count below COUNT, R367, R400. -/
theorem test_predicates :
    (after (exec (.plog .andn 3 1 2) (one { regs [] with preds := [(1, 0xF), (2, 5)] })) (fun t => decide (t.me.pv 3 = 10)) &&
      after (exec (.plog .reg 0 1 0) (one (regs [(1, 0)]))) (fun t => decide (t.me.pv 0 = BitVec.allOnes 64)) &&
      writes (.pcnt .count 5 2) (one { regs [] with preds := [(2, 0xFF)], vcount := 4 }) 5 4 &&
      after (exec (.gset 2 2) (one (regs []))) (fun t => decide (t.home.guard 2 = .pending)) &&
      after (exec (.gres 3 5) (one (regs [(5, 1)]) { guards := [(3, .pending)] })) (fun t => decide (t.home.guard 3 = .tru)) &&
      after (exec (.repgo 3 4) (one { regs [] with rep := { len := 2, caps := [.vrel, .vrel] } }))
        (fun t => t.me.rep.active && decide (t.me.rep.cnt = 3 ∧ t.me.rep.stride = 4))) = true := by decide +kernel

/-- Lanes of a vector register in a claim of n lanes. -/
def lanes (n : Fin 65) (l : List (Nat × Nat × Nat)) : Ctx :=
  { regs [] with vcount := n, vreq := BitVec.ofNat 7 n.val, vregs := l.map (fun e => (64 * e.1 + e.2.1, BitVec.ofNat 32 e.2.2)) }

def lane (o : Host.Outcome State Fault Refusal) (v l x : Nat) : Bool := after o (fun t => decide ((t.me.lane v l).toNat = x))

def ex26 : State :=
  one (lanes 8 [(1, 0, 0x4B800000), (1, 1, 0x3F800000), (1, 2, 0x3F800000), (1, 3, 0x3F800000), (1, 4, 0xCB800000)])

/-- Example 26.1: the tree of VRED gives 2.0 with NX, and VSCAN gives 2^24 four times and then +0. -/
theorem test_reductions :
    (lane (exec (.vred .sum .fp32 .rne 2 1 noMask) ex26) 2 0 0x40000000 &&
      after (exec (.vred .sum .fp32 .rne 2 1 noMask) ex26) (fun t => decide (t.me.frm = 16)) &&
      (List.range 8).all (fun l => lane (exec (.vscan .sum .fp32 .rne 3 1 noMask) ex26) 3 l (if l < 4 then 0x4B800000 else 0))) = true := by
  decide +kernel

def ex26q : State := one (lanes 32 [(1, 0, 0x40400000), (1, 1, 0xBF400000), (1, 2, 0x3DCCCCCD)])

/-- Example 26.2: VQNT's scale 0x78 and elements 0x7C, 0xEC, 0x55, and VDQN's 13 × 2^−7 and −0.75. -/
theorem test_quantise :
    (lane (exec (.vqnt .e4m3 .rne 6 1 7 noMask) ex26q) 7 0 0x78 && lane (exec (.vqnt .e4m3 .rne 6 1 7 noMask) ex26q) 6 0 0x7C &&
      lane (exec (.vqnt .e4m3 .rne 6 1 7 noMask) ex26q) 6 1 0xEC && lane (exec (.vqnt .e4m3 .rne 6 1 7 noMask) ex26q) 6 2 0x55 &&
      after (exec (.vqnt .e4m3 .rne 6 1 7 noMask) ex26q) (fun t => decide (t.me.frm = 16)) &&
      lane (exec (.vdqn .e4m3 .rne 8 6 7 noMask) (one (lanes 32 [(6, 1, 0xEC), (6, 2, 0x55), (7, 0, 0x78)]))) 8 2 0x3DD00000 &&
      lane (exec (.vdqn .e4m3 .rne 8 6 7 noMask) (one (lanes 32 [(6, 1, 0xEC), (6, 2, 0x55), (7, 0, 0x78)]))) 8 1 0xBF400000) = true := by
  decide +kernel

/-- R420 to R435: lanes off keep or are zeroed, integer lanes are extended by their type, loads and stores pack elements. -/
theorem test_vector :
    (lane (exec (.vadd .fp32 .rne 1 2 (.vec 3) ⟨true, 2⟩) (one { lanes 8 [(1, 0, 5), (2, 1, 0x3F800000), (3, 1, 0x40000000)] with preds := [(2, 2)] })) 1 0 0 &&
      lane (exec (.vadd .fp32 .rne 1 2 (.vec 3) ⟨true, 2⟩) (one { lanes 8 [(2, 1, 0x3F800000), (3, 1, 0x40000000)] with preds := [(2, 2)] })) 1 1 0x40400000 &&
      lane (exec (.vadd .int8 .rne 1 2 (.vec 2) noMask) (one (lanes 8 [(2, 0, 0x7F)]))) 1 0 0xFFFFFFFE &&
      lane (exec (.vsub .uint8 .rne 1 2 (.vec 3) noMask) (one (lanes 8 [(3, 0, 1)]))) 1 0 0xFF &&
      lane (exec (.vshr true 2 1 (.scalar 0) noMask) (one (lanes 8 [(1, 7, 0x80000000)]))) 2 7 0x80000000 &&
      lane (exec (.vshuf 2 1 3 0 noMask) (one (lanes 8 [(1, 5, 9), (3, 0, 5), (3, 1, 8)]))) 2 0 9 &&
      lane (exec (.vshuf 2 1 3 0 noMask) (one (lanes 8 [(1, 5, 9), (3, 0, 5), (3, 1, 8)]))) 2 1 0 &&
      lane (exec (.vfn .recip .fp32 .rne 2 1 noMask) (one (lanes 8 [(1, 0, 0x40000000)]))) 2 0 0x3F000000 &&
      lane (exec (.vld .int8 .a false false 3 0 noMask) (one (lanes 8 []) { a := [(1, 0x80)] })) 3 1 0xFFFFFF80 &&
      after (exec (.vst .bf16 .c false false 5 0 0) (one (lanes 8 [(5, 1, 0x3F80)]))) (fun t => decide (t.home.c = [(2, 0x80), (3, 0x3F)])) &&
      after (exec (.vcmp .lt .fp32 3 1 (.vec 2) noMask) (one (lanes 8 [(2, 4, 0x3F800000)]))) (fun t => decide (t.me.pv 3 = 16)) &&
      after (exec (.vclaim 32) (one (regs []))) (fun t => decide (t.me.vcount = 32 ∧ t.me.vreq = 32))) = true := by decide +kernel

/-- Example 9.1: the buffer's second iteration of VADD v2, v0, v1 with stride 4 is VADD v6, v4, v5. -/
theorem test_reissue :
    after (exec (.repetitionReissue 0 0) (one { lanes 8 [(4, 0, 0x3F800000), (5, 0, 0x40000000)] with
        rep := { iter := 1, len := 2, stride := 4, active := true, cnt := 2, caps := [.vadd .fp32 .rne 2 0 (.vec 1) noMask, .vmul .fp32 .rne 3 2 (.vec 1) noMask] } }))
      (fun t => decide (t.me.lane 6 0 = 0x40400000 ∧ t.me.rep.word = 1)) = true := by decide +kernel

/-- Example 5.1: the group's term is −4.0. Example 5.3: the block sum of a k-step is 2.0, in one rounding. -/
theorem test_products :
    (OutAcc.run { cur := none, part := [] } ([10, 12] ++ List.replicate 30 8) ([3, -1] ++ List.replicate 30 1) 262 true
      (recordOf .int8 (some 0x83800)) (recordOf .int8 (some 0x14000))).cur = some 0xC0800000 ∧
    (blockSum (([0x4580, 0x3F80, 0x3F80, 0xC580].zip [0x4580, 0x3F80, 0x3F80, 0x4580]).map
      (fun p => (decodeElem .bf16 p.1, decodeElem .bf16 p.2)))).1 = 0x40000000 := by decide +kernel

/-- Example 11.1: FADE with η 0.125 and λ 0.5. -/
theorem test_fade :
    let b : CaskBlock := { op := 1, lin := false, ty := .fp32, eta := 0x3E000000, lambda := 0x3F000000, handle := 0, dst := 0, src := 0 }
    b.newElem 0x40000000 0x3F800000 = (0x3FE00000, 0) ∧ b.newElem 0xC0800000 0x3F000000 = (0xC0740000, 0) := by decide +kernel

/-- Example 7.1: LINFO of N2, an ADD child of a child of a BF16 root. -/
def ex7 : AddrSpace :=
  let n (i p d : Nat) (k : DeltaKind) (st : NodeState) : Node :=
    { handle := BitVec.ofNat 32 (2 ^ 24 + i), parent := if p = 0 then 0 else BitVec.ofNat 32 (2 ^ 24 + p), depth := d, state := st, kind := k
      fmt := .bf16, dfmt := .bf16, dims := [2048], children := if st = .sealed then 1 else 0, dflt := if p = 0 then .zero else .inherit }
  { nodes := [(1, n 1 0 0 .none .sealed), (2, n 2 1 1 .xor .sealed), (3, n 3 2 2 .add .live)], tableSize := 8, heapUnits := 100 }

theorem test_linfo :
    writes (.linfo 21 16) { one (regs [(16, 0x1000003)]) { team := some 1 } with sys := { spaces := [(0, ex7)], teams := [smallTeam] } } 21 0x622 = true := by
  decide +kernel

/-- Example 21.1: the second arrival of a tagged AADD within 4 ms is answered and not done again. -/
theorem test_tagged :
    let s : State := { flat := { hbm := [(0x100, 6)], tuples := [⟨channelOf 0x100, 7, 0, 9, 5, 0⟩] }, fab := { routes := [(5, 0x8002)], exports := [(0, { node := 5, v := true, epoch := 1, base := 0, size := 0x1000 })] } }
    after (exec (.peerRequest 5 1 0x100 ⟨0, false, .atomic .add false 1 0 (some (7, 0, 9))⟩) s)
      (fun t => decide (t.flat.hbm.num 0x100 8 = 6 ∧ t.fab.out = [(2, .old 5)])) = true := by decide +kernel

/-- A first-level TLB entry for the first 2 MiB, as the tables of `tableCells` translate it. -/
def tlb0 : TlbEntry :=
  { asid := 0, va := 0, size := 0x200000, pa := 0x400000, r := true, w := true, x := true, rm := false, s := false, kst := 0, leaf := 0x201000 }

/-- Core 0 of a running team, its space translated, in state `one`. -/
def flatOne (x : Ctx) (y : Core := {}) (cells : List (Nat × List Byte) := []) : State :=
  let s := one x { y with team := some 1, curPtbase := 0x100000, tlb := [tlb0] }
  { s with flat := { hbm := writeCells [] (tableCells ++ cells) }, sys := { spaces := [(0, { ptbase := 0x100000 })], teams := [smallTeam] } }

/-- Example 23.1, P0 first: AADD.w on 0x0000_0000_FFFF_FFFF reads −1 and does not carry. -/
theorem test_aadd :
    let i : Instr := .aadd { atomic0 with w := true, d := 2, a := 5, b := 6 }
    let s := flatOne (regs [(5, 0x800), (6, 1)]) {} [(0x400800, leBytes 8 0xFFFFFFFF)]
    after (exec i s) (fun t => after (step { t with agenda := [.work (.pge 0 1)] }) (fun u =>
      after (exec (.bump 0 1) u) (fun v => decide (v.flat.hbm.num 0x400800 8 = 0 ∧ v.me.sv 2 = BitVec.allOnes 64 ∧ v.home.counter 0 = 1)))) = true := by
  decide +kernel

/-- Example 6.2's descriptor of participant 1 issues, and a block size that is no multiple of 8 does not. -/
theorem test_grist :
    after (exec (.gristScatter { xfer0 with a := 7, b := 6, c := 8, lsp := .c, ct := 2, len := 2304 })
      (flatOne (regs [(6, 0x100), (7, 0x8000), (8, 0x8004000100)]))) (fun t => decide (t.home.pge.length = 1)) = true ∧
    after (exec (.gristScatter { xfer0 with a := 7, b := 6, c := 8, lsp := .c, ct := 2, len := 2304 })
      (flatOne (regs [(6, 0x100), (7, 0x8000), (8, 0x8004000101)]))) (fun t => decide (t.home.pge.length = 0)) = true := by
  decide +kernel

/-- R314, R316: a write above HBM is dropped and logged; R328: TIMESET; R333: the key starts a warm reset. -/
theorem test_host :
    after (exec (.hostWrite 0 [1] false) { host := { bar2base := BitVec.ofNat 64 (2 ^ 47) } }) (fun t => decide (t.host.err = loggedErr 0 2 (2 ^ 47) ∧ t.flat.hbm = [])) = true ∧
    after (exec (.hostWrite 5 [1, 2] false) {}) (fun t => decide (t.flat.hbm = [(5, 1), (6, 2)])) = true ∧
    after (exec (.timeset 9) {}) (fun t => decide (t.host.time = 9)) = true ∧
    after (exec (.mgmtReset 0x5741524D) {}) (fun t => decide (t.host.ready = false ∧ t.host.lastrst = 1)) = true := by decide +kernel

/-- `withFetchWord` places ADD s3, s1, s2 of Example 3.1, and the step runs it. -/
theorem test_step :
    after (step (State.reset.withFetchWord 64 0x00208C04)) (fun t => decide (t.me.pc = 0x1008 ∧ t.me.left = 65279)) = true := by
  decide +kernel

/-! ## Witnesses

For every statement with hypotheses: a state and operands that meet those of each of its clauses together, at the edge of the
clause's range where it has one. -/

/-- An Except that is a value satisfying a test. -/
def okAnd {ε α : Type} (r : Except ε α) (p : α → Bool) : Bool := match r with | .ok x => p x | .error _ => false

theorem ok_of {ε α : Type} {r : Except ε α} {p : α → Bool} (h : okAnd r p = true) : ∃ x, r = .ok x ∧ p x = true := by
  cases r with
  | error e => cases h
  | ok x => exact ⟨x, rfl, h⟩

theorem ok_eq {ε α : Type} [DecidableEq α] {r : Except ε α} {x : α} (h : okAnd r (fun y => decide (y = x)) = true) : r = .ok x := by
  obtain ⟨y, rfl, hy⟩ := ok_of h
  rw [of_decide_eq_true hy]

theorem error_of {ε α : Type} {r : Except ε α} (h : okAnd r (fun _ => true) = false) : ∃ e, r = .error e := by
  cases r with
  | error e => exact ⟨e, rfl⟩
  | ok x => cases h

theorem some_of {α : Type} {o : Option α} (h : o.isSome = true) : ∃ x, o = some x := Option.isSome_iff_exists.mp h

/-- What SysAt asks, as a test. -/
def sysAt (s : State) (asid va n pa : Nat) : Bool :=
  okAnd (s.sysXlate asid true .both va) (fun e => decide (va + n ≤ e.va + e.size ∧ e.phys va = pa ∧ e.rm = false)) &&
    decide (pa + n ≤ Config.hbmSize) && !s.hbmPoisoned pa n

theorem sysAt_of {s : State} {asid va n pa : Nat} (h : sysAt s asid va n pa = true) : SysAt s asid va n pa := by
  simp only [sysAt, Bool.and_eq_true, decide_eq_true_eq, Bool.not_eq_true'] at h
  obtain ⟨e, he, hp⟩ := ok_of h.1.1
  exact ⟨⟨e, he, of_decide_eq_true hp⟩, h.1.2, h.2⟩

/-- What SysPage asks, as a test. -/
def sysPage (s : State) (asid va n pa : Nat) : Bool :=
  okAnd (s.sysXlate asid true .both va) (fun e => decide (va + n ≤ e.va + e.size ∧ e.phys va = pa ∧ e.rm = false)) &&
    decide (pa + n ≤ Config.hbmSize)

theorem sysPage_of {s : State} {asid va n pa : Nat} (h : sysPage s asid va n pa = true) : SysPage s asid va n pa := by
  simp only [sysPage, Bool.and_eq_true, decide_eq_true_eq] at h
  obtain ⟨e, he, hp⟩ := ok_of h.1
  exact ⟨⟨e, he, of_decide_eq_true hp⟩, h.2⟩

/-- A calm state's four conditions, as a test. -/
theorem calm_of {s : State} (h : decide (s.sys.jobs = [] ∧ (∀ q ∈ s.cores, q.2.linebuf = []) ∧ s.flat.rmWrites = [] ∧ s.flat.waiters = []) = true) :
    Calm s := by
  have h := of_decide_eq_true h
  exact ⟨h.1, h.2.1, h.2.2.1, h.2.2.2⟩

/-- s1 deferred, s2 a multiple of 4, s3 not. -/
def branchy : State := one { regs [(2, 0x104), (3, 0x106)] with sregs := [(1, { d := true }), (2, { val := 0x104 }), (3, { val := 0x106 })] }

/-- R101, R109: the narrowest shift, the greatest draw; a finite element of a floating type. -/
theorem witness_RoundingModes_ExactValuesRoundToThemselves :
    (0 : Nat) < 1 ∧ 65535 < 2 ^ 16 ∧ ElemType.bf16.isFloat = true ∧ 0x3F80 < 2 ^ ElemType.bf16.bits ∧
      decodeFloat .bf16 0x3F80 = .fin false 128 (-7) := by decide +kernel

theorem witness_FloatingResults_ConversionResults :
    ElemType.fp16.isWide = true ∧ ElemType.e4m3.isFloat = true ∧ ElemType.int8.isFloat = false ∧ ElemType.uint4.isFloat = false := by
  decide +kernel

/-- The widest field of BFI, at both ends. -/
theorem witness_LogicFieldsAndCompares :
    (0 : BitVec 6).toNat + (63 : BitVec 6).toNat + 1 ≤ 64 ∧ (63 : BitVec 6).toNat + (0 : BitVec 6).toNat + 1 ≤ 64 := by decide +kernel

theorem witness_ControlTransfers_TrapEntersHandler :
    HasHandler branchy ∧ branchy.me.dbit 1 = true ∧ branchy.me.dbit 2 = false ∧ (branchy.me.sv 2).toNat % 4 = 0 ∧
      branchy.me.dbit 3 = false ∧ (branchy.me.sv 3).toNat % 4 ≠ 0 := by unfold HasHandler; decide +kernel

/-- A trap inside a handler: the team fails. -/
theorem witness_TrapEntersHandler :
    let s := flatOne { regs [] with nest := true }
    ¬ HasHandler s ∧ s.teamOf s.curCore = some smallTeam ∧ smallTeam.phase = .running ∧ s.sys.evWaiters = [] := by
  unfold HasHandler; decide +kernel

def inTrap (epc : Word64) (sup : Bool) : State := one { regs [] with sup := sup, epc := epc }

theorem witness_ReturnFromTrap :
    ((inTrap 0x200 true).me.sup = true ∧ (inTrap 0x200 true).me.epc.toNat % 4 = 0) ∧
    (HasHandler (inTrap 0x200 false) ∧ (inTrap 0x200 false).me.sup = false) ∧
    (HasHandler (inTrap 0x202 true) ∧ (inTrap 0x202 true).me.sup = true ∧ (inTrap 0x202 true).me.epc.toNat % 4 ≠ 0) := by
  unfold HasHandler; decide +kernel

def helper : State := { one (regs []) with curCtx := 1, cores := [(0, { ctxs := [(1, regs [])], tvec := 0x4000 })] }

theorem witness_YieldAndExit :
    ((one (regs [])).me.reserved = [] ∧ NoRecords (one (regs [])) ∧ (one (regs [])).teamOf 0 = none) ∧
    (helper.me.dbit 2 = false ∧ NoRecords helper ∧ helper.curCtx ≠ 0 ∧ helper.home.starts = []) ∧
    ((one (regs [])).curCtx = 0 ∧ (∀ h, h < 11 → 1 ≤ h → ((one (regs [])).home.ctx h).live = false) ∧ (one (regs [])).home.pge = [] ∧
      (one (regs [])).home.mx = [] ∧ (∀ l ∈ (one (regs [])).sys.lin, l.core ≠ 0) ∧
      ∀ r ∈ (one (regs [])).home.faultq, ((one (regs [])).home.ctx r.ctx).live = true) := by unfold NoRecords; decide +kernel

/-- The last double of W and of A; a line that is full, one that is empty. -/
def locals : State := one (regs [(1, 0xBFF8), (2, 0x7FF8), (3, 9)]) { tags := [(319, { v := true })] }

theorem witness_LocalLoads_LocalStores :
    (Space.w ≠ .e ∧ locals.me.dbit 1 = false ∧ ((locals.me.sv 1).toNat + 8 ≤ limitOf .w ∧ (locals.me.sv 1).toNat % 8 = 0) ∧
      (locals.home.tag (lineOf .w 0xBFF8)).p = false ∧ lineOf .w 0xBFF8 ∉ locals.home.drain) ∧
    ((locals.me.sv 2).toNat + 8 ≤ limitOf .a ∧ (locals.home.tag (lineOf .a 0x7FF8)).v = true) ∧
    (branchy.me.dbit 1 = true ∧ ¬ (0xBFF8 + 16 ≤ limitOf .w) ∧ (locals.home.tag (lineOf .a 0)).v = false) := by decide +kernel

theorem witness_LocalAccessChecks :
    (HasHandler branchy ∧ branchy.me.dbit 1 = true) ∧ (HasHandler locals ∧ locals.me.dbit 1 = false ∧ limitOf .w < 0xBFF8 + 1 + 8) ∧
    (limitOf .w = 0xBFF4 + 4 + 8 ∧ 0xBFF4 % 8 ≠ 0) ∧
    (MayWait locals ∧ (locals.home.tag (lineOf .a 0x7EF8)).v = false ∧ (locals.home.tag (lineOf .a 0x7FF8)).v = true ∧
      (locals.home.tag (lineOf .a 0x7FF8)).u = false ∧ locals.me.dbit 3 = false) := by unfold HasHandler MayWait; decide +kernel

/-- Event-unit lines 7, 8 and 31 of the window; mutex 9 owned by the context itself, event 16 with a count. -/
def units : State :=
  { one (regs [(1, 56), (2, 64), (3, 72), (4, 248), (5, 128), (6, 2 ^ 63 + 1), (7, 1), (8, 0)]) with
    clusters := [(0, { barriers := [(7, { mask := 3, arr := 2 })], mutexes := [(9, { owner := some (0, 0) }), (10, { owner := some (1, 0) })], events := [(16, { count := 3 })] })] }

/-- A team of two clusters, one below the other, whose lines 7 are linked; cluster 28's has nobody arrived. -/
def pair : Team := { smallTeam with height := 2 }
def awaiting : State :=
  { units with
    cores := [(0, { ctxs := [(0, units.me)], team := some 1, tvec := 0x4000 })], sys := { teams := [pair] }
    clusters := [(0, { barriers := [(7, { mask := 3, arr := 2, link := 4 })] }), (28, { barriers := [(7, { mask := 3, arr := 0, link := 1 })] })] }

theorem witness_EventUnitLines :
    ((units.me.sv 1).toNat + 0 = 8 * 7 ∧ (units.me.sv 2).toNat + 0 = 8 * 8 ∧ (units.me.sv 4).toNat + 0 = 8 * 31 ∧ units.me.held = .none ∧
      units.me.dbit 1 = false) ∧
    ((units.me.sv 6).getLsbD 63 = true ∧ ({ mask := 0xFE } : BarrierLine).mask.getLsbD (sliceOf 0) = false ∧
      ({ held := .barrier 7 4 } : Ctx).held = .barrier 7 4 ∧ ((units.cluster 0).barrier 7).gen = 0 ∧ MayWait units) ∧
    (let arrived (u : State) : State :=
       u.modCluster 0 (fun x => x.setBarrier 7 { x.barrier 7 with arr := (x.barrier 7).arr ||| (1#8 <<< sliceOf 0) });
     ((units.cluster 0).barrier 7).mask.getLsbD (sliceOf 0) = true ∧ (arrived units).chain none 7 0 = [0] ∧
       (((arrived units).cluster 0).barrier 7).arr = (((arrived units).cluster 0).barrier 7).mask ∧
       ((arrived awaiting).chain (some pair) 7 0 = [0, 28] ∧ (((arrived awaiting).cluster 28).barrier 7).arr ≠ (((arrived awaiting).cluster 28).barrier 7).mask)) ∧
    ((units.me.sv 7).getLsbD 63 = false ∧ ((units.cluster 0).barrier 6).arr = 0 ∧ units.teamOf 0 = none ∧
      awaiting.teamOf 0 = some pair ∧ clustersBeside (some pair) 0 = [28] ∧
      ∀ m ∈ [0, 28], ∀ n ∈ (awaiting.modCluster 0 (fun x => x.setBarrier 6 { mask := 1, link := 0 })).chain (some pair) 6 m,
        (((awaiting.modCluster 0 (fun x => x.setBarrier 6 { mask := 1, link := 0 })).cluster n).barrier 6).arr = 0) ∧
    ((units.cluster 0).mutex 8).owner = none ∧
    (((units.cluster 0).mutex 9).owner = some (0, 0) ∧ ((units.cluster 0).mutex 9).queue = [] ∧ units.me.sv 8 = 0) ∧
    ((units.cluster 0).mutex 10).owner = some (1, 0) ∧
    (((units.cluster 0).event 16).queue = [] ∧ 0 < ((units.cluster 0).event 16).count.toNat) := by unfold MayWait; decide +kernel

/-- Example 25.1's ring with one record of 8 bytes of payload at its head. -/
def ring : State :=
  one (regs [(5, 0x7FF0)]) { inbox := { base := 4, lines := 1, head := 0, used := 16 }, a := Mem.write [] 0x400 (leBytes 8 0x30101) }

theorem witness_ReceiveInboxRecord :
    ring.me.dbit 5 = false ∧ ring.home.inbox.used ≠ 0 ∧ leNat (ring.home.a.read 0x400 8) % 256 = 1 ∧
      8 ≤ 8 * (leNat (ring.home.a.read 0x400 8) / 256 % 256) ∧ 0x7FF0 % 8 = 0 ∧ 0x7FF0 + 8 + 8 ≤ 0x8000 ∧
      (∀ l, (ring.home.tag l).p = false) ∧ ring.home.drain = [] ∧ (ring.home.tag (lineOf .a 0x7FF0)).v = false :=
  ⟨by decide +kernel, by decide +kernel, by decide +kernel, by decide +kernel, by decide, by decide, fun _ => rfl, by decide +kernel,
    by decide +kernel⟩

theorem witness_HelpersStartAndJoin :
    ((one (regs [(1, 10), (2, 4)])).curCtx = 0 ∧ ((one (regs [(1, 10), (2, 4)])).home.ctx 10).live = false ∧
      ((one (regs [(1, 10), (2, 4)])).me.sv 2).toNat % 4 = 0) ∧ helper.curCtx ≠ 0 ∧
    (∃ s : State, s.curCtx = 0 ∧ (s.home.ctx 1).live = true ∧ MayWait s) :=
  ⟨by decide +kernel, by decide +kernel, { cores := [(0, { ctxs := [(0, regs []), (1, regs [])] })] }, by unfold MayWait; decide +kernel⟩

/-- An arrival at a VOTE.sum of level 3 by the instruction at 0. -/
def arrived (r : Option Word64) : Arrival := { level := .l3, op := some .sum, val := 5, k := 0, pc := 0, before := 9, result := r }

/-- A team of two cores: core 0 has arrived at a VOTE.sum, core 1 has exited. -/
def voting : State :=
  { cores := [(0, { ctxs := [(0, regs [])], team := some 1, dom3 := 0x01020000, phase := { n3 := 1, arrivals := [arrived none] } }),
      (1, { team := some 1, exited := true })]
    sys := { teams := [{ smallTeam with width := 2 }] } }

theorem witness_PhasesVotesAndCompletion :
    ((one (regs [])).me.rep.active = false ∧ NoRecords (one (regs [])) ∧ (∀ h, h < 11 → ((one (regs [])).home.ctx h).vcount.val ≤ 16) ∧
      MayWait (one (regs [])) ∧ (one (regs [])).home.phase.arrivals = [] ∧ (one (regs [])).me.dbit 1 = false) ∧
    (∀ r, r = none ∨ r = some 7 → let s := one (regs []) { phase := { arrivals := [arrived r] } };
      s.home.phase.arrivals.find? (fun b => decide (b.level = .l3 ∧ b.op = some .sum ∧ b.pc = s.me.pc)) = some (arrived r) ∧
        (arrived r).result = r ∧ s.me.rep.active = false) ∧
    (let a : Arrival := { arrived none with op := none };
     (one (regs []) { phase := { arrivals := [a] } }).home.phase.arrivals.find? (fun b => decide (b.level = .l3 ∧ b.op = none ∧ b.pc = 0)) = some a) ∧
    (branchy.me.dbit 1 = true ∧ HasHandler branchy) ∧ (helper.curCtx ≠ 0 ∧ HasHandler helper) ∧
    (∃ t, voting.teamOf 0 = some t ∧
      let ms := t.domain ((voting.core 0).dom .l3)
      1 ∈ ms ∧ (voting.core 0).phase.arrivals.head? = some (arrived none) ∧
      (∀ m ∈ ms, (voting.core m).exited = true ∨ ((voting.core m).dom .l3 = (voting.core 0).dom .l3 ∧
        ((voting.core m).phase.arrivals.find? (fun b => decide (b.level = .l3 ∧ b.op = some .sum ∧ b.k = 0 ∧ b.result = none))).isSome = true)) ∧
      ∀ m ∈ ms, ∀ p ∈ (voting.core m).pge, ∀ x, p.ins = .sendP x → ms.contains (t.coreOf p.va.toNat) = false) := by
  refine ⟨by unfold NoRecords MayWait; decide +kernel, ?_, by decide +kernel, by unfold HasHandler; decide +kernel,
    by unfold HasHandler; decide +kernel,
    { smallTeam with width := 2 }, by decide +kernel, by decide +kernel, by decide +kernel, by decide +kernel, ?_⟩
  · rintro r (rfl | rfl) <;> decide +kernel
  intro m hm
  have h : ∀ m ∈ ({ smallTeam with width := 2 } : Team).domain ((voting.core 0).dom .l3), (voting.core m).pge = [] := by decide +kernel
  simp [h m hm]

/-- c3 at the two ends of the half circle; an entry that is reached and one that is not. -/
def counted : State :=
  one { regs [(1, 5)] with ol := 1, os := 2 } { counters := [(3, 0x7FFFFFFF)], wtt := [(1, { ct := 3, threshold := 0x80000000, target := 0, helper := 1 })] }

theorem witness_CountersAndTheirWaits :
    ((counted.home.counter 3 - 0).toNat < 2 ^ 31 ∧ (∀ r ∈ counted.home.faultq, r.ctx ≠ 0 ∨ r.ct ≠ 3) ∧ counted.home.armed = none) ∧
    (2 ^ 31 ≤ (counted.home.counter 3 - 0x80000000).toNat ∧ MayWait counted) ∧
    ((1 : Nat) ≤ counted.me.ol.toNat ∧ counted.me.ol.toNat ≤ 1 ∧ counted.me.os.toNat ≤ 2 ∧ 1 < counted.me.os.toNat) ∧
    (∀ e ∈ counted.home.wtt, e.2.ct = 3 → 2 ^ 31 ≤ ((0x7FFFFFFF : Word32) - e.2.threshold).toNat) ∧
    ((∀ q ∈ counted.home.wtt, q.2.ct = 3 → 2 ^ 31 ≤ (counted.home.counter 3 - q.2.threshold).toNat) ∧
      2 ^ 31 ≤ (counted.home.counter 3 - 0x80000000).toNat) ∧
    (counted.me.dbit 1 = false ∧ (counted.home.counter 3 - 5).toNat < 2 ^ 31 ∧ (∀ q ∈ counted.home.wtt, q.1 ≠ 2) ∧ counted.home.starts = [] ∧
      (counted.home.ctx 1).live = false ∧ 1 ≠ counted.curCtx) := by unfold MayWait; decide +kernel

theorem witness_TimeAndNeighbours :
    ((one (regs [(1, 0), (2, 1)])).me.sv 1).toNat ≤ (one (regs [(1, 0), (2, 1)])).host.time.toNat ∧
    ((one (regs [(1, 0), (2, 1)])).host.time.toNat < ((one (regs [(1, 0), (2, 1)])).me.sv 2).toNat ∧ (one (regs [])).me.held ≠ .awake ∧
      (one (regs [])).teamOf 0 = none) ∧
    (∃ s : State, ((s.core 0).ctx 0).held = .asleep 0 ∧ (0 : Word64).toNat ≤ s.host.time.toNat) ∧
    (∃ s : State, ((s.core 0).ctx 0).held = .neighbour 0 ∧ ((s.core 0).ctx 0).nbtmo.toNat ≤ s.cycle - 0) ∧
    ((0 : Fin 4).val = 0 ∧ (one (regs [])).curCore / 224 = 0) ∧
    (∃ s : State, s.home.team.isSome = true ∧ (s.core 1).team = s.home.team ∧ ((s.core 1).ctx 0).live = true ∧
      ((s.core 1).ctx 0).parked = none ∧ s.fenced 1 = false ∧ s.me.held = .none) :=
  ⟨by decide +kernel, by decide +kernel, ⟨one { regs [] with held := .asleep 0 }, by decide +kernel⟩,
    ⟨{ one { regs [] with held := .neighbour 0 } with cycle := 256 }, by decide +kernel⟩, by decide +kernel,
    { cores := [(0, { ctxs := [(0, regs [])], team := some 1 }), (1, { ctxs := [(0, regs [])], team := some 1 })] }, by decide +kernel⟩

theorem witness_PredicatesAndGuards :
    (7 : Guard) ≠ 0 ∧ (one (regs [])).home.guard 7 ≠ .pending ∧ (one (regs []) { guards := [(7, .pending)] }).home.guard 7 = .pending ∧
      (one (regs [])).me.dbit 1 = false := by decide +kernel

theorem some_and {α : Type} {o : Option α} {p : α → Bool} (h : (match o with | some x => p x | none => false) = true) :
    ∃ x, o = some x ∧ p x = true := by
  cases o with
  | none => cases h
  | some x => exact ⟨x, rfl, h⟩

theorem fetched {s : State} {pc : Nat} {i : Instr} (h : okAnd (s.fetch pc) (fun r => decide (r.1 = i)) = true) :
    ∃ t, s.fetch pc = .ok (i, t) := by
  obtain ⟨⟨j, t⟩, hj, hi⟩ := ok_of h
  cases (of_decide_eq_true hi : j = i)
  exact ⟨t, hj⟩

/-- h0 at REPSEQ 1 with VIDX behind it, on a translated page. -/
def capturing : State :=
  { flatOne { regs [] with pc := 0x1000 } {} [(0x401000, leBytes 8 0x100000170 ++ leBytes 12 0xD5)] with agenda := [] }

theorem witness_RepetitionStarts :
    (capturing.me.rep.active = false ∧ (1 : BitVec 5) ≠ 0 ∧ 1 ≤ 2 ^ 50 ∧
      ∃ caps pc u, Captures 1 (1 : BitVec 5).toNat (capturing.me.pc + 8) capturing caps pc u) ∧
    ((one { regs [] with rep := { len := 1, caps := [.vrel] } }).me.rep.active = false ∧
      (one { regs [] with rep := { len := 1, caps := [.vrel] } }).me.rep.len ≠ 0) ∧
    (one (regs [])).me.rep.len = 0 ∧
    ((one { regs [] with rep := { active := true } }).me.rep.active = true ∧ MayWait (one { regs [] with rep := { active := true } })) := by
  refine ⟨⟨by decide +kernel, by decide, by decide, ?_⟩, by decide +kernel, by decide +kernel, by unfold MayWait; decide +kernel⟩
  obtain ⟨t, ht⟩ := fetched (s := capturing) (pc := 0x1008) (i := .vidx 0 0 noMask) (by decide +kernel)
  exact ⟨[.vidx 0 0 noMask], _, t, .word (.vidx 0 0 noMask) rfl ht (.done _ _)⟩

theorem witness_RepetitionReissues :
    let s := one { lanes 8 [] with left := 1, rep := { iter := 3, len := 1, stride := 5, active := true, cnt := 1, caps := [.vidx 2 7 noMask] } }
    let x := (s.core 0).ctx 0
    x.live = true ∧ x.rep.active = true ∧ x.rep.trap = none ∧ x.rep.stopped = false ∧ (if x.rep.charged then x.left else x.left - 1) = 0 ∧
      x.vcount ≠ 0 ∧ x.rep.caps[x.rep.word.toNat]? = some (.vidx 2 7 { zm := false, pm := 0 }) ∧
      (if ({ x.rep with charged := true } : Rep).charged then x.left else x.left - 1) ≠ 0 := by decide +kernel

/-- Supervisor mode, and registers that hold values at the edges of what the control registers accept. -/
def sups : State :=
  one { regs [(1, 127 + 2 ^ 8), (2, 127 + 2 ^ 9), (3, 0x00010000), (4, 2 ^ 31 + 8 * 2 ^ 16 + 2 ^ 24), (5, 2 ^ 31 + 4 * 2 ^ 16 + 2 ^ 24)] with sup := true }
    { teamsize := 8, teamshape := 0x108 }

theorem witness_ReadControlRegisters_ControlRegisterWrites :
    ((0xFF : BitVec 12).toNat < 0x100 ∧ 0x100 ≤ (0x100 : BitVec 12).toNat ∧ (one (regs [])).me.sup = false ∧ HasHandler (one (regs [])) ∧
      sups.me.sup = true ∧ sups.curCore < 26880 ∧ sups.me.waitSince = none ∧ sups.me.left ≠ 0) ∧
    ((sups.me.sv 1).toNat % 2 ^ 7 + (sups.me.sv 1).toNat / 2 ^ 8 % 2 ^ 8 ≤ 128 ∧ 128 < (sups.me.sv 2).toNat % 2 ^ 7 + (sups.me.sv 2).toNat / 2 ^ 8 % 2 ^ 8) ∧
    (sups.home.phase.open' = false ∧ (∃ v, sups.home.dom2Ok v = true) ∧ sups.home.dom2Ok 0 = false) ∧
    (sups.me.dbit 4 = false ∧ bitAt (sups.me.sv 4).toNat 31 = true ∧ (sups.me.sv 4).toNat / 2 ^ 16 % 2 ^ 8 % 8 = 0 ∧
      bitAt (sups.me.sv 3).toNat 31 = false ∧ bitAt (sups.me.sv 5).toNat 31 = true ∧ (sups.me.sv 5).toNat / 2 ^ 16 % 2 ^ 8 % 8 ≠ 0) := by
  refine ⟨by unfold HasHandler; decide +kernel, by decide +kernel, ⟨by decide +kernel, ⟨0x01080000, by decide +kernel⟩, by decide +kernel⟩,
    by decide +kernel⟩

theorem witness_InvalidateCaches :
    (HasHandler (one (regs [])) ∧ (one (regs [])).me.sup = false) ∧ (sups.me.sup = true ∧ sups.me.dbit 1 = false) := by
  unfold HasHandler; decide +kernel

/-- s1 the last double of A; s2 the last 64 bytes of A, and of the manual's 256-byte headers; s3 for a command block; s4 odd. -/
def cask : List Byte := leBytes 2 1 ++ [0, 0] ++ leBytes 4 0x3E000000 ++ leBytes 4 0x3F000000 ++ leBytes 4 0 ++ leBytes 8 0x800 ++ leBytes 8 0x1000

def issuing : State :=
  one (regs [(1, 0x7FF8), (2, 0x7FC0), (3, 0x7FE0), (4, 6), (5, 0x7FF0), (6, 0x100)]) { a := Mem.write [] 0x7FE0 cask }

theorem witness_ScalarCommandsIssue :
    (issuing.me.dbit 1 = false ∧ (issuing.me.sv 1).toNat % 8 = 0 ∧ MayIssue issuing (.aadd atomic0) ∧ MayIssue issuing (.acas atomic0 4)) ∧
    (HasHandler issuing ∧ (issuing.me.sv 4).toNat % 8 ≠ 0 ∧ (issuing.me.sv 4).toNat % 4 ≠ 0) ∧
    ((issuing.me.sv 1).toNat + 8 ≤ 0x8000 ∧ (issuing.me.sv 2).toNat + 64 ≤ 0x8000 ∧ (issuing.me.sv 2).toNat % 64 = 0 ∧
      (issuing.me.sv 6).toNat % 256 = 0 ∧ (issuing.home.tag (192 + 0x7FC0 / 256)).p = false ∧
      (issuing.me.sv 1).toNat + 8 + 8 * (0 : BitVec 10).toNat ≤ 0x8000) ∧
    ((issuing.me.sv 3).toNat + 32 ≤ 0x8000 ∧ (issuing.me.sv 3).toNat % 32 = 0 ∧ (issuing.me.sv 5).toNat + 16 ≤ 0x8000 ∧ (issuing.me.sv 5).toNat % 16 = 0 ∧
      MayIssue issuing (.nmc 3 5 0 0 none' 1) ∧
      ∃ k, caskBlock (issuing.home.a.read (issuing.me.sv 3).toNat 32) = some k ∧
        (k.ok && decide (k.dst % 8 = 0) && (!k.usesSrc || decide (k.src % 8 = 0))) = true) := by
  refine ⟨by unfold MayIssue; decide +kernel, by unfold HasHandler; decide +kernel, by decide +kernel, by decide +kernel, by decide +kernel,
    by decide +kernel, by decide +kernel, by unfold MayIssue; decide +kernel, some_and (by decide +kernel)⟩

/-- R135's and R139's limits at their ends: the last bytes of A and C, block sizes 8 and 0xC000, one participant and 26880. -/
def moving : State :=
  flatOne (regs [(4, 0x7E00), (5, 0x10000), (6, 0x3F00), (7, 8 + 2 ^ 24), (8, 0xC000 + 26880 * 2 ^ 24 + 26879 * 2 ^ 39)])

/-- R139 of a GRIST descriptor v, and the extent that it gives a command of len bytes at local address lb of A. -/
def gristFits (lb len v : Nat) : Bool :=
  let bs := v % 2 ^ 24
  let np := v / 2 ^ 24 % 2 ^ 15
  let ix := v / 2 ^ 39 % 2 ^ 15
  let n := ((List.range (len / 8)).countP (fun u => decide (8 * u / bs % np = ix))) * 8
  decide (8 ≤ bs ∧ bs ≤ 0xC000 ∧ bs % 8 = 0 ∧ 1 ≤ np ∧ np ≤ 26880 ∧ ix < np ∧ v < 2 ^ 54 ∧ (n = 0 ∨ (lb + n ≤ limitOf .a ∧ lb % 8 = 0)))

theorem witness_TransfersIssue :
    ((moving.me.sv 4).toNat + xfer0.len.toNat ≤ limitOf xfer0.lsp ∧ (moving.me.sv 4).toNat % 8 = 0 ∧ (moving.me.sv 5).toNat % 8 = 0 ∧
      moving.me.dbit 4 = false ∧ moving.me.dbit 5 = false ∧ MayIssue moving (.get xfer0) ∧ MayIssue moving (.put xfer0)) ∧
    (∀ r ∈ [7, 8], moving.me.dbit r = false ∧ gristFits (moving.me.sv 4).toNat xfer0.len.toNat (moving.me.sv r).toNat = true) ∧
    (MayIssue moving (.grist xfer0) ∧ MayIssue moving (.gristScatter xfer0) ∧ xfer0.len.toNat % 8 = 0) ∧
    ((moving.me.sv 6).toNat + copy0.len.toNat ≤ limitOf .c ∧ MayIssue moving (.cpy copy0) ∧ MayIssue moving (.sendD copy0) ∧
      MayIssue moving (.sendP copy0) ∧ (one (regs []) { phase := { open' := true } }).home.phase.open' = true) ∧
    (moving.home.phase.open' = false ∧ moving.home.sendq.length < 64 ∧ moving.me.os ≠ 0xFFFF ∧ MayIssue moving (.sendI inbox0)) := by
  unfold MayIssue; decide +kernel

/-- A word at its threshold, and one below it. -/
def waiting : State := flatOne (regs [(1, 0x800), (2, 5), (3, 6)]) {} [(0x400800, leBytes 8 5)]

/-- A refused EVWAIT of 3 on event 7, whose COUNT and whose queue of near waiters are given. -/
def refusedAt (count : Word32) (near : Nat) (ov : BitVec 40) : State :=
  { one { regs [] with held := .eventRefused 0 7 3 } with
    sys := { events := [(7, count)], evWaiters := if near = 0 then [] else [(7, List.replicate near ⟨1, 0, 9, false⟩)], evovf := ov } }

theorem witness_AwaitAndEvwait :
    (waiting.me.dbit 1 = false ∧ (waiting.me.sv 1).toNat % 8 = 0 ∧ QuietCounter waiting 0 2 ∧ waiting.me.held = .none ∧
      Hits waiting 0 waiting.me.sup .read 0x800 tlb0 ∧ tlb0.rm = false ∧ tlb0.phys 0x800 < Config.hbmSize ∧
      waiting.hbmPoisoned (tlb0.phys 0x800) 1 = false ∧ (∀ c ∈ waiting.cores, tlb0.phys 0x800 / 64 ∉ c.2.linebuf)) ∧
    (waiting.me.sv 2).toInt ≤ (BitVec.ofNat 64 (waiting.flat.hbm.num 0x400800 8)).toInt ∧
    ((BitVec.ofNat 64 (waiting.flat.hbm.num 0x400800 8)).toInt < (waiting.me.sv 3).toInt ∧ MayWait waiting ∧ waiting.flat.waiters = []) ∧
    (∃ s : State, ((s.core 0).ctx 0).held = .awaitRefused 0 0x800 true 5 ∧ 0 ≤ s.cycle ∧ Hits s 0 ((s.core 0).ctx 0).sup .read 0x800 tlb0 ∧
      (∀ q ∈ s.cores, tlb0.phys 0x800 / 64 ∉ q.2.linebuf) ∧ s.hbmPoisoned (tlb0.phys 0x800) 1 = false ∧
      (5 : Word64).toInt ≤ (BitVec.ofNat 64 (s.flat.hbm.num (tlb0.phys 0x800) 8)).toInt) ∧
    (∃ u, ({ regs [] with held := .awaitDone 5 } : Ctx).held = .awaitDone u) ∧
    (HasHandler (one (regs [(1, 0x10000)])) ∧ 0xFFFF < ((one (regs [(1, 0x10000)])).me.sv 1).toNat) ∧
    (∃ s : State, (s.me.sv 1).toNat ≤ 0xFFFF ∧ s.me.held = .none ∧ s.sys.waitersOf 0xFFFF = [] ∧ (s.me.sv 1).toNat = 0xFFFF ∧
      ((s.me.sv 2).setWidth 32 : Word32).toNat ≤ (s.sys.event 0xFFFF).toNat ∧ (s.sys.event 0xFFFF).toNat < ((s.me.sv 3).setWidth 32 : Word32).toNat ∧
      ((s.me.sv 2).setWidth 32 : Word32) ≠ 0 ∧ MayWait s) ∧
    (∀ count : Word32, count = 3 ∨ count = 2 → ∀ near, near = 0 ∨ near = 3 ∨ near = 4 → ∀ ov, ov = 0 ∨ ov = 1 →
      let s := refusedAt count near ov
      ((s.core 0).ctx 0).held = .eventRefused 0 7 3 ∧ 0 ≤ s.cycle ∧ s.sys.event 7 = count ∧ s.sys.evovf = ov ∧ s.sys.overflowUsed < 65536 ∧
        ((s.sys.waitersOf 7).filter (fun w => !w.overflow)).length = near) := by
  refine ⟨by unfold QuietCounter Hits; decide +kernel, by decide +kernel, by unfold MayWait; decide +kernel,
    ⟨flatOne { regs [] with held := .awaitRefused 0 0x800 true 5 } {} [(0x400800, leBytes 8 5)], by unfold Hits; decide +kernel⟩, ⟨5, rfl⟩,
    by unfold HasHandler; decide +kernel,
    ⟨{ one (regs [(1, 0xFFFF), (2, 5), (3, 6)]) with sys := { events := [(0xFFFF, 5)] } }, by unfold MayWait; decide +kernel⟩, ?_⟩
  rintro count (rfl | rfl) near (rfl | rfl | rfl) ov (rfl | rfl) <;> decide +kernel

theorem witness_Vectors :
    VecReady (one (lanes 1 [])) (.scalar 3) ∧ VecReady (one (lanes 64 [])) (.vec 3) ∧ (one (lanes 64 [])).me.vcount ≠ 0 ∧
      (∀ r, BcastSrc.scalar 4 = .scalar r → (one (lanes 1 [])).me.dbit r.val = false) ∧ ElemType.fp32.isFloat = true ∧
      ElemType.int16.isFloat = false := by
  refine ⟨⟨by decide +kernel, ?_⟩, ⟨by decide +kernel, ?_⟩, by decide +kernel, ?_, rfl, rfl⟩
  · intro r h; cases h; decide +kernel
  · intro r h; cases h
  · intro r h; cases h; decide +kernel

/-- A claim of 64 FP32 lanes that fill one line of A, and 3 lanes of a byte type at its end. -/
theorem witness_VectorLoadsAndStores :
    (∀ p ∈ [(64, 0x7F00, 32), (3, 0x7FFD, 8)], (p.1 : Nat) ≠ 0 ∧ p.2.1 + (p.1 * p.2.2 + 7) / 8 ≤ limitOf .a ∧ p.2.1 % ((p.2.2 + 7) / 8) = 0) ∧
    (one (lanes 64 [])).home.drain = [] ∧ (∀ l, ((one (lanes 64 [])).home.tag l).p = false ∧ ((one (lanes 64 [])).home.tag l).v = false) ∧
    ((one (lanes 64 []) { tags := [(319, { v := true })] }).home.tag 319).v = true :=
  ⟨by decide +kernel, by decide +kernel, fun _ => ⟨rfl, rfl⟩, by decide +kernel⟩

theorem witness_VectorClaims :
    (∀ v < 16, ∀ l < 64, (one (lanes 8 [])).me.vcount.val ≤ l → (one (lanes 8 [])).me.lane v l = 0) ∧ (64 : BitVec 7).toNat ≤ 64 :=
  ⟨fun _ _ _ _ _ => rfl, by decide⟩

/-! Matrix array. -/

/-- MCORR's descriptor of node 2 against node 1, and MSPLIT's with its heat table at 0x1000. -/
def corr0 : List Byte := leBytes 4 0x1000002 ++ leBytes 4 0x1000001 ++ leBytes 3 0 ++ leBytes 2 1 ++ List.replicate 19 0
def split0 (heat : Nat) : List Byte := leBytes 8 heat ++ leBytes 8 0x1800 ++ leBytes 4 0x3F800000 ++ leBytes 1 16 ++ List.replicate 11 0

/-- The last vectors and outputs that fit: s1 for MMUL's 64 bytes, s2 for its 512 bytes of C, s4 for MCORR's 4,096 bytes. -/
def matrix : State :=
  let s := flatOne (regs [(1, 0x7FC0), (2, 0x3E00), (3, 0x200), (4, 0x7000), (5, 0x3FC0), (6, 0x240), (7, 0x280), (8, 0x7FE0)])
    { a := ((Mem.write [] 0x200 corr0).write 0x240 (split0 0x1000)).write 0x280 (split0 0x1020) }
    [(0x401000, leBytes 4 1 ++ List.replicate 12 0 ++ leBytes 8 0x1100)]
  { s with sys := { s.sys with spaces := [(0, { ex7 with ptbase := 0x100000 })] } }

theorem fails_of {r : MapBind} (h : (match r with | .fails _ h => decide (boundRows h = 0) | _ => false) = true) :
    ∃ f h, r = .fails f h ∧ boundRows h = 0 := by
  cases r with
  | fails f h' => exact ⟨f, h', rfl, of_decide_eq_true h⟩
  | bound _ _ => cases h
  | waits => cases h

theorem bound_of {r : MapBind} {p : List Byte → State → Bool} (h : (match r with | .bound h t => p h t | _ => false) = true) :
    ∃ h t, r = .bound h t ∧ p h t = true := by
  cases r with
  | bound h' t => exact ⟨h', t, rfl, h⟩
  | fails _ _ => cases h
  | waits => cases h

theorem witness_MatrixCommandsIssue :
    (matrix.home.mx.length < 16 ∧ (countsOl (.mmul mmul0) = true → matrix.me.ol ≠ 0xFFFF) ∧ (countsOs (.mmul mmul0) = true → matrix.me.os ≠ 0xFFFF)) ∧
    (vectorLen .bf16 .none 32 = 64 ∧ (matrix.me.sv 1).toNat + 64 ≤ 0x8000 ∧ (matrix.me.sv 1).toNat % 8 = 0 ∧
      (matrix.me.sv 2).toNat + 4 * 128 ≤ 0x4000 ∧ (matrix.me.sv 2).toNat % 64 = 0 ∧ matrix.me.dbit 1 = false) ∧
    ((matrix.me.sv 3).toNat % 32 = 0 ∧ (matrix.home.tag (192 + 0x200 / 256)).p = false ∧
      (∃ k, corrChecks (matrix.space 0) .bf16 (matrix.home.a.read 0x200 32) = .ok k ∧ decide ((matrix.me.sv 4).toNat + vectorLen .bf16 .none k ≤ 0x8000) = true) ∧
      (matrix.me.sv 5).toNat + 4 * corrRows (matrix.home.a.read 0x200 32) * 1 ≤ 0x4000 ∧ (matrix.me.sv 5).toNat % 64 = 0) ∧
    (splitK (matrix.home.a.read 0x280 32) = 16 ∧ (matrix.me.sv 8).toNat + vectorLen .bf16 .none 16 ≤ 0x8000 ∧
      matrix.homeClear 0 false (splitHeat (matrix.home.a.read 0x280 32)) = true ∧ matrix.acquiring 0 0 0 = false ∧
      ∃ f h, matrix.bindMap 0 false (splitHeat (matrix.home.a.read 0x280 32)) = .fails f h ∧ boundRows h = 0) ∧
    (matrix.homeClear 0 false 0x1000 = true ∧ ∃ h t, matrix.bindMap 0 false 0x1000 = .bound h t ∧
      decide (t.me = matrix.me ∧ t.home.mx = [] ∧ t.curCore = 0 ∧ t.curCtx = 0 ∧ 4 ≤ h.length ∧ leNat (h.take 4) = 1 ∧
        (matrix.me.sv 5).toNat + 4 * 1 * 1 ≤ 0x4000) = true) :=
  ⟨by decide +kernel, by decide +kernel, ⟨by decide +kernel, by decide +kernel, ok_of (by decide +kernel), by decide +kernel, by decide +kernel⟩,
    ⟨by decide +kernel, by decide +kernel, by decide +kernel, by decide +kernel, fails_of (by decide +kernel)⟩, by decide +kernel,
    bound_of (by decide +kernel)⟩

/-- A matrix command as it stands in the queue. -/
def mxOf (id : Nat) (i : Instr) : MxCmd :=
  { id := id, ctx := 0, pc := 0, seq := 0, rep := none, ins := i, va := 0, vb := 0, vc := 0, bind := .val true, colour := false, asid := 0
    sup := false, arrival := 0, since := 0 }

def queued (i : Instr) (ks : AMap Cluster := []) : State := { one (regs []) { mx := [mxOf 5 i] } with clusters := ks }

def latched : Instr := .mmul { mmul0 with st := true, ksteps := 1, gang := false }

theorem witness_MatrixCommandsStart :
    ((∀ i < 8, ((queued latched).core (coreOfSlice 0 i)).mx = if coreOfSlice 0 i = 0 then [mxOf 5 latched] else []) ∧
      (mxOf 5 latched).phase = .queued ∧ (mxOf 5 latched).bind = .val true ∧ (mxOf 5 latched).fail = none ∧
      (queued latched).acquiring 0 0 5 = false) ∧
    (∀ i l, (((queued latched).core (coreOfSlice 0 (i + 1))).tag l).p = false) ∧ (∀ l, (((queued latched).core 0).tag l).p = false) ∧
    (mmulStrideOk mmul0 ((queued (.mmul mmul0)).cluster 0).deep = true ∧ ∃ u, mmulExtents mmul0 ((queued (.mmul mmul0)).cluster 0).deep 0 0 = .ok u ∧ true = true) ∧
    (((queued latched).cluster 0).plane true 0).latch.ty = .bf16 ∧
    (((queued latched [(0, { active := [(0, { latch := { ty := .fp16 } })] })]).cluster 0).plane true 0).latch.ty ≠ .bf16 :=
  ⟨by decide +kernel, fun i l => rfl, fun _ => rfl, ⟨by decide +kernel, ok_of (by decide +kernel)⟩, by decide +kernel, by decide +kernel⟩

/-- MMUL 5 of core 0 at a boundary and MMUL 6 of core 1 with a higher priority; then MSPLIT 7 before its join, and after its pieces. -/
def contending : State :=
  { cores := [(0, { ctxs := [(0, regs [])], mx := [{ mxOf 5 (.mmul mmul0) with phase := .running, pos := 1 }] }),
      (1, { mx := [mxOf 6 (.mmul { mmul0 with pri := 3 })] })] }

def joining (pos : Nat) : MxCmd :=
  { mxOf 7 (.msplit msplit0) with phase := .running, pos := pos, img := split0 0x1000 ++ leBytes 4 1 ++ List.replicate 60 0, vb := 0x100 }

def joins (pos : Nat) : State := flatOne (regs []) { mx := [joining pos] } [(0x401040, [0xFF, 0xFF])]

theorem witness_MatrixSuspendAndJoin :
    ((contending.core 0).mxOf 5 = some { mxOf 5 (.mmul mmul0) with phase := .running, pos := 1 } ∧
      (1, mxOf 6 (.mmul { mmul0 with pri := 3 })) ∈ contending.arrayCmds 0 ∧ contending.competes 0 1 (mxOf 6 (.mmul { mmul0 with pri := 3 })) = true ∧
      0 ∈ slicesOf (mxOf 6 (.mmul { mmul0 with pri := 3 })).ins (sliceOf 1) ∧ 0 ∈ slicesOf (Instr.mmul mmul0) (sliceOf 0) ∧
      0 < min 3 (3 + (contending.cycle - 0) / 4096)) ∧
    (((joins 2).core 0).mxOf 7 = some (joining 2) ∧ splitRows (joining 2).img = 1 ∧ (joining 2).pos = (1 * 1 + 1) / 2 + 1 + 0 ∧ 0 ∉ (joining 2).badRows ∧
      Hits (joins 2) 0 false .both (splitHeat (joining 2).img + 64) tlb0 ∧ tlb0.rm = false ∧ tlb0.phys 0x1040 < Config.hbmSize ∧
      (joins 2).hbmPoisoned (tlb0.phys 0x1040) 2 = false ∧ (joins 2).lostAt 0 (tlb0.phys 0x1040) 2 = false ∧ (∀ q ∈ (joins 2).cores, tlb0.phys 0x1040 / 64 ∉ q.2.linebuf) ∧
      (joins 2).flat.rmWrites = [] ∧ (joins 2).sys.jobs = [] ∧ (joins 2).flat.hbm.wf = true) ∧
    (((joins 5).core 0).mxOf 7 = some (joining 5) ∧ 1 + 2 * 1 + 1 < (joining 5).pos ∧ (joining 5).badAddr = none ∧
      (joins 5).flat.rmWrites = []) := by
  unfold Hits; decide +kernel

/-- No line of C holds poison when the join reads it. -/
theorem witness_JoinReadsNoPoison (l : Nat) : (((joins 2).core 0).tag l).p = false := rfl

/-! Kilns: pages of 64 KiB from virtual address 0 on, a job descriptor at 0x1000, the manifest area at 0x100000. -/

def smallPages : List (Nat × List Byte) :=
  [(0x100000, leBytes 8 0x200001), (0x200000, leBytes 8 0x201001), (0x201000, leBytes 8 0x202001),
    (0x202000, (List.range 32).flatMap (fun i => leBytes 8 (0x40001F + 0x10000 * i))),
    (0x401000, leBytes 8 0x100000 ++ leBytes 8 0x100000 ++ leBytes 8 0 ++ leBytes 8 3)]

def kilnOf (n : Nat) (st : KilnState) : Kiln := { num := BitVec.ofNat 16 n, base := true, state := st }

def jobOf (ks : List Kiln) : Job := { asid := 0, desc := 0x1000, mbase := 0x100000, msize := 0x100000, last := 3, kilns := ks }

def kilning (ks : List Kiln) (x : Ctx := regs [(2, 3), (3, 4)]) (reqs : List KilnReq := []) (y : Core := {}) : State :=
  { one x { y with team := some 1, curPtbase := 0x100000 } with
    flat := { hbm := writeCells [] smallPages }
    sys := { spaces := [(0, { ptbase := 0x100000 })], teams := [smallTeam], jobs := [jobOf ks], kilnReqs := reqs } }

theorem witness_KilnInstructions :
    ((kilning []).me.held = .none ∧ MayWait (kilning []) ∧ (kilning [] { regs [] with held := .kilnDone 4 }).me.held = .kilnDone 4) ∧
    ((kilning []).me.dbit 2 = false ∧ (kilning []).sys.kilnReqs = [] ∧ (kilning []).kilnState 0 3 = 0) ∧
    ((kilning [kilnOf 3 .complete]).kilnState 0 3 = 2 ∧ QuietCounter (kilning [kilnOf 3 .complete]) 0 2 ∧
      (∀ x ∈ [kilnOf 3 .complete], x.num.toNat = 3 → x.state = .complete)) ∧
    (let s := kilning [] (regs [(2, 3)]) [⟨1, 0, true, true, 0, 0⟩];
      s.me.held = .none ∧ MayWait s ∧ (∃ q ∈ s.sys.kilnReqs, s.asidOf q.core = s.asidOf 0) ∧
        ∀ q ∈ s.sys.kilnReqs, q.core ≠ s.curCore ∨ q.ctx ≠ s.curCtx) ∧
    (∃ u, (kilning [kilnOf 3 .complete]).job 0 = some (jobOf [kilnOf 3 .complete]) ∧ (jobOf [kilnOf 3 .complete]).running = none ∧
      (jobOf [kilnOf 3 .complete]).kiln 3 = some (kilnOf 3 .complete) ∧ (jobOf [kilnOf 3 .complete]).spoils (kilnOf 3 .complete) = false ∧
      ((kilning [kilnOf 3 .complete]).tellModules 0 (.kilnRollback 0 3)).rollback (jobOf [kilnOf 3 .complete]) (kilnOf 3 .complete) = some u ∧
      ∀ t ∈ (kilnOf 3 .complete).teams, t.col0 + t.width ≤ 224) := by
  refine ⟨by unfold MayWait; decide +kernel, by decide +kernel, by unfold QuietCounter; decide +kernel, by unfold MayWait; decide +kernel, ?_⟩
  obtain ⟨u, hu⟩ := some_of (o := ((kilning [kilnOf 3 .complete]).tellModules 0 (.kilnRollback 0 3)).rollback (jobOf [kilnOf 3 .complete])
    (kilnOf 3 .complete)) (by decide +kernel)
  exact ⟨u, by decide +kernel, by decide +kernel, by decide +kernel, by decide +kernel, hu, by decide⟩

/-- KILN_ANSWER: no job, a running kiln, two unreleased kilns, and a start. -/
theorem witness_KilnAnswer :
    ((kilning [] (regs []) [⟨0, 0, true, true, 1, 2⟩]).sys.kilnReqs.find? (fun q => q.core = 0 && q.ctx = 0 && q.answers) =
        some ⟨0, 0, true, true, 1, 2⟩ ∧
      (kilning [] (regs []) [⟨0, 0, true, true, 1, 2⟩]).sys.kilnReqs.takeWhile (fun x => !(x.core = 0 && x.ctx = 0)) = [] ∧
      (∀ t ∈ (kilning []).sys.teams, t.phase ≠ .waking)) ∧
    ((jobOf [kilnOf 4 .running]).running.isSome = true ∧ 2 ≤ ((jobOf [kilnOf 2 .complete, kilnOf 3 .complete]).kilns.filter (fun k => k.unreleased)).length) ∧
    (∃ r, (kilning []).beginKiln 0 true = .ok r ∧ decide (r.1 = 4) = true) ∧ ((kilning []).teamOf 0 = some smallTeam ∧ 0 ∈ smallTeam.cores ∧
      (((kilning []).core 0).ctx 0).live = true) :=
  ⟨by decide +kernel, by decide +kernel, ok_of (by decide +kernel), by decide +kernel⟩

theorem witness_KilnController :
    ((kilning [kilnOf 4 .running]).teamOf 0 = some smallTeam ∧ smallTeam.phase = .running ∧
      ((kilning [kilnOf 4 .running]).job 0).bind Job.running = some (kilnOf 4 .running) ∧ ((kilning [kilnOf 4 .running]).core 0).knum ≠ 4 ∧
      (kilning [kilnOf 4 .running]).partOver 0 = false ∧ 0 ∈ smallTeam.cores) ∧
    (∀ r ∈ [0, 59 * 224 + 111, 60 * 224 + 112], ∀ f ∈ [([] : AMap Nat), [(r * 2 ^ 16, 4)]],
      let s : State := { kilning [kilnOf 4 .running] with
        sys := { (kilning [kilnOf 4 .running]).sys with markers := [⟨r, 0, 4⟩], forwarded := f }
        fab := { ports := [(2, { up := true }), (3, { up := false }), (5, { up := true, marked := some (0, 4) })] } };
      s.sys.markers.find? (fun m => m.router = r && m.k = 4) = some ⟨r, 0, 4⟩ ∧ s.sys.markers.find? (fun m => m.router = 1 && m.k = 4) = none ∧
        (s.sys.forwarded.find (r * 2 ^ 16 + 0) = some 4 ↔ f ≠ []) ∧
        (List.range 16).filter (fun p => (s.fab.ports.get {} p).up && decide ((s.fab.ports.get {} p).marked ≠ some (0, 4))) = (List.range 16).filter (fun p => p ≠ 3 ∧ p ≠ 5)) ∧
    (∀ j ∈ (kilning [kilnOf 4 .running]).sys.jobs, ∀ x ∈ j.kilns, ∀ y ∈ j.kilns, x.state = .running → y.state = .running → x = y) ∧
    ((kilning [] (regs []) [] { drain := [3, 7] }).home.drain = [] ++ 3 :: [7] ∧ 3 ∉ (kilning [] (regs []) [] { drain := [3, 7] }).oldReads 0 0) ∧
    (∃ s : State, s.asidOf 0 = 0 ∧ (s.core 0).drain ≠ [] ∧ (s.core 0).drainSince = some 0 ∧ ((s.core 0).ctx 0).ystall.toNat ≤ s.cycle - 0 ∧
      (s.job 0).bind Job.running = some (kilnOf 4 .running)) ∧
    (∃ e, walk (kilning [kilnOf 4 .running]) 0 0x100000 0x3000 = .ok e ∧ decide (e.kst ≠ (kilnOf 4 .running).num) = true) ∧
    (jobOf [kilnOf 4 .running]).current = some (kilnOf 4 .running) ∧
    (∀ d ∈ smallTeam.cores, ({ kilning [kilnOf 4 .running] with cores := smallTeam.cores.map (fun c => (c, { knum := 4, team := some 1 })) } : State).coreWhole
      (kilnOf 4 .running) d = true) ∧
    ((kilnOf 4 .running).remotesLeft = [] ∧ (kilning [kilnOf 4 .running]).sys.packets = [] ∧ (jobOf [kilnOf 4 .running]).remotes = [] ∧
      (kilnOf 4 .running).reported ≠ some (0, 0) ∧ ({ jobOf [kilnOf 4 .running] with remotes := [9] } : Job).running = some (kilnOf 4 .running) ∧
      (kilnOf 4 .running).totalSent = (kilnOf 4 .running).totalReceived ∧
      ∃ q ∈ ({ kilning [kilnOf 4 .running] with sys := { (kilning [kilnOf 4 .running]).sys with pageReqs := [⟨0, 0x3000⟩] } } : State).sys.pageReqs,
        q.asid = 0 ∧ q.va = 0x3000) ∧
    ((jobOf []).running = none ∧ (kilning []).job 0 = some (jobOf [])) :=
  ⟨by decide +kernel, by decide +kernel, by decide +kernel, by decide +kernel,
    ⟨{ kilning [kilnOf 4 .running] (regs []) [] { drain := [3], drainSince := some 0 } with cycle := 0x04000000 }, by decide +kernel⟩,
    ok_of (by decide +kernel), by decide +kernel, by decide +kernel, by decide +kernel, by decide +kernel⟩

/-- The rollback to kiln 3 of a message. -/
theorem witness_RemoteRollback :
    ∃ u, (jobOf [kilnOf 3 .complete]).kiln (kilnOf 3 .complete).num = some (kilnOf 3 .complete) ∧ (kilnOf 3 .complete).state = .complete ∧
      (∀ x ∈ [kilnOf 3 .complete], x.num = (kilnOf 3 .complete).num → x = kilnOf 3 .complete) ∧
      (kilning [kilnOf 3 .complete]).rollback (jobOf [kilnOf 3 .complete]) (kilnOf 3 .complete) = some u := by
  obtain ⟨u, hu⟩ := some_of (o := (kilning [kilnOf 3 .complete]).rollback (jobOf [kilnOf 3 .complete]) (kilnOf 3 .complete)) (by decide +kernel)
  exact ⟨u, by decide +kernel, rfl, by decide +kernel, hu⟩

/-! Lineage. -/

/-- s1 names node 1, s2 a record of a root at 0x60, s3 node 3, s4 node 4 at depth 7, s5 nothing. -/
def tree (size : Nat) : AddrSpace :=
  { ex7 with
    tableSize := size
    nodes := ex7.nodes ++ [(4, { handle := 0x1000004, depth := 7, state := .live, kind := .xor, fmt := .bf16, dfmt := .bf16, dims := [2048], dflt := .inherit }),
      (5, { handle := 0x1000005, state := .live, fmt := .bf16, dfmt := .bf16, dims := [2048] })] }

def lineage (size : Nat := 8) (lin : List LinCmd := []) : State :=
  { one (regs [(1, 0x1000001), (2, 0x60), (3, 0x1000003), (4, 0x1000004), (5, 0x1000009), (6, 0x1000005)])
      { team := some 1, a := Mem.write [] 0x60 (leBytes 12 (2 ^ 10) ++ leBytes 3 64 ++ leBytes 3 40 ++ List.replicate 14 0) } with
    sys := { spaces := [(0, tree size)], teams := [smallTeam], lin := lin } }

theorem witness_LineageForks :
    (lineage.me.dbit 1 = false ∧ lineage.job 0 = none ∧ lineage.rebases 0 = [] ∧ (lineage.me.sv 2).toNat % 32 = 0 ∧ (lineage.home.tag (192 + 0x60 / 256)).p = false) ∧
    (let r := nodeRec (lineage.home.a.read 0x60 32);
      r.kind = 0 ∧ ElemType.ofCode r.fmt = some .fp32 ∧ r.dims.take (r.ndim + 1) = [64, 40] ∧ r.dims.drop (r.ndim + 1) = [0, 0] ∧
        (lineage.space 0).freeIdx = some 6 ∧
        ((lineage.space 0).takeMap ({ handle := 0, state := .live, dims := [64, 40] } : Node).blocks).isSome = true) ∧
    ((lineage.space 0).named 0x1000001 = some 1 ∧ ((tree 8).node 1).state ≠ .frozen ∧ ((tree 8).node 1).af = false ∧ ((tree 8).node 1).depth < 7 ∧
      ((tree 8).node 1).children < 2 ^ 24 - 1 ∧ ((tree 8).node 6).state = .free ∧ (lineage.sys.lin.filter (fun l => l.core = 0)).length < 8) ∧
    ((tree 8).node 4).depth = 7 ∧ ({ (tree 8).node 1 with af := true } : Node).af = true ∧ (tree 5).freeIdx = none ∧
    (HasHandler lineage ∧ (lineage.space 0).named 0x1000009 = none ∧ (lineage.me.sv 5) ≠ 0) := by unfold HasHandler; decide +kernel

def linOf (id : Nat) (i : Instr) (node base : Nat) (prog : Prog) : LinCmd :=
  { id := id, core := 0, ctx := 0, pc := 0, seq := 0, ins := i, node := node, base := base, bind := .val true, colour := false, asid := 0, prog := prog, blk := 1 }

theorem witness_LineageCommands :
    ((lineage.space 0).named 0x1000003 = some 3 ∧ ((tree 8).node 3).state ≠ .frozen ∧ lineage.nodeBusy 0 3 = false) ∧
    (lineage 8 [linOf 9 (.lflat 1 3 0 0 none') 3 0 .running]).nodeBusy 0 3 = true ∧
    ((lineage.space 0).named 0x1000005 = some 5 ∧ ((tree 8).node 5).state ≠ .frozen ∧ 5 ≠ 3 ∧ (tree 8).isAncestor 3 5 = false ∧
      ((tree 8).isAncestor 5 3 = false → ((tree 8).node 5).fmt = ((tree 8).node 3).fmt ∧ ((tree 8).node 5).dims = ((tree 8).node 3).dims) ∧
      (∀ k ∈ (tree 8).descendants 3, ((tree 8).node k).af = false) ∧ lineage.depthSeen 0 5 + 1 + lineage.heightSeen 0 3 ≤ 7) ∧
    ((lineage.space 0).named 0x1000004 = some 4 ∧ (tree 8).isAncestor 3 4 = false ∧ ((tree 8).node 4).fmt = ((tree 8).node 3).fmt ∧
      ((tree 8).node 4).dims = ((tree 8).node 3).dims ∧ 7 < lineage.depthSeen 0 4 + 1 + lineage.heightSeen 0 3) ∧
    (((tree 8).node 3).parentIdx ≠ 0 ∧ ((tree 8).node 1).parentIdx = 0 ∧ ((tree 8).node 1).kind ≠ .lowrank) ∧
    ((lineage.space 0).named 0x1000009 = none ∧ HasHandler lineage) ∧
    (((tree 8).node 3).depth < 8 ∧ ((tree 8).node 3).klev < 4 ∧ ((tree 8).node 3).children < 2 ^ 24 ∧ (tree 8).height 1 < 8) := by
  unfold HasHandler; decide +kernel

/-- A husk 1 with the child 2 that takes its place. -/
def spliced (started : Bool) (todo : List Nat) : AddrSpace :=
  { ex7 with splices := [{ husk := 1, child := 2, todo := todo, started := started }]
             nodes := [(1, { (ex7.node 1) with state := .husk }), (2, { (ex7.node 2) with map := [(0, .zero)] })] }

theorem witness_NodeSwitchesAndSplices :
    (let l := linOf 9 (.lflat 1 3 0 0 none') 3 0 .running;
     let s := lineage 8 [l];
     (9 : Nat) < 2 ^ 32 ∧ s.linOf 0 9 = some l ∧ l.after = none ∧ ((tree 8).node 3).blocks ≤ l.blk ∧ ((tree 8).node 3).kind ≠ .lowrank ∧
       ((tree 8).node ((tree 8).node 3).parentIdx).state ≠ .husk ∧ ((tree 8).node 3).parentIdx ≠ 3 ∧ ((tree 8).node 3).parentIdx ≠ 0 ∧
       ((tree 8).node 3).parentIdx ∉ (tree 8).descendants 3 ∧ AMap.sorted (tree 8).nodes = true) ∧
    ((tree 8).baseStands 3 5 0x1000005 = true ∧ (tree 8).baseStands 3 5 0x1000009 = false ∧ (tree 8).staleBlock 3 [5] [] = none ∧
      (({ tree 8 with nodes := [(3, (tree 8).node 3), (5, { (tree 8).node 5 with map := [(0, .full [(0, 9)] [])] })] } : AddrSpace).staleBlock 3 [5] []).isSome = true) ∧
    (5 ≠ 3 ∧ 5 ∉ (tree 8).descendants 3 ∧ 5 ≠ ((tree 8).node 3).parentIdx ∧ 2 ∈ (tree 8).descendants 1) ∧
    ((spliced false []).splices = [{ husk := 1, child := 2, todo := [], started := false }] ∧ (2 : Nat) ≠ 1 ∧
      ({ sys := { spaces := [(0, spliced false [])] } } : State).nodeBusy 0 2 = false) ∧
    (((spliced true [0]).node 2).kind ≠ .lowrank ∧ ((spliced true [0]).node 2).entry 0 = .zero ∧ ((spliced true [1]).node 2).entry 1 = .inherit ∧
      ((spliced true [1]).node 1).entry 1 ≠ .inherit) ∧
    (AMap.sorted (spliced true []).nodes = true ∧ (spliced true []).isAncestor 2 2 = false) := by decide +kernel

/-- Node 3 of kind k, of two blocks, below 2, with entry e of block 1; node 2 has f there; the block's channel has u units in use. -/
def blocky (k : DeltaKind) (e f : Entry) (u : Nat) : AddrSpace :=
  let n (i p d : Nat) (k : DeltaKind) (m : AMap Entry) : Node :=
    { handle := BitVec.ofNat 32 (2 ^ 24 + i), parent := if p = 0 then 0 else BitVec.ofNat 32 (2 ^ 24 + p), depth := d, kind := k
      state := if i = 3 then .live else .sealed, fmt := .bf16, dfmt := .bf16, dims := [4096], children := if i < 3 then 1 else 0
      dflt := if p = 0 then .zero else .inherit, map := m }
  { nodes := [(1, n 1 0 0 .none []), (2, n 2 1 1 .xor [(1, f)]), (3, n 3 2 2 k [(1, e)]), (5, n 5 0 0 .none [])]
    tableSize := 8, heapUnits := 100, heapUsed := [(1, u)] }

def blocking (l : LinCmd) (sp : AddrSpace) : State :=
  { one (regs []) { team := some 1 } with sys := { spaces := [(0, sp)], teams := [smallTeam], lin := [l] } }

def lpack0 : LinCmd := linOf 9 (.lpack 1 3 0 0 none') 3 0 .running
def lrebase0 (rooms : Nat) : LinCmd := { linOf 9 (.lrebase 1 3 5 0 0 none') 3 5 .running with rooms := rooms }

/-- n sub-blocks of a block whose first element is v. -/
def subBlocks (n v : Nat) : Mem := (List.range n).flatMap (fun z => [(128 * z, BitVec.ofNat 8 v), (128 * z + 1, BitVec.ofNat 8 (v / 256))])

/-- LFLAT, the flatten of LFORK.af and LREBASE at the last block of node 3: F or not, with room for the heap's last 8 units and with
one unit less, with the new map's room taken and not, alike with the base and not. -/
theorem witness_BlockSteps :
    (∀ u ∈ [92, 93], ∀ i ∈ [Instr.lflat 1 3 0 0 none', .lforkAf 1 3 0 0], ∀ e ∈ [Entry.inherit, .full [(0, 1)] []],
      let l := linOf 9 i 3 0 .running;
      let s := blocking l (blocky .xor e .zero u);
      s.linOf 0 9 = some l ∧ (s.job 0).bind Job.current = none ∧ l.blk < ((s.space 0).node 3).blocks ∧ ((s.space 0).node 3).entry l.blk = e ∧
        ((s.space 0).heapUsed.get 0 (1 % Config.channelCount) + 8 ≤ (s.space 0).heapUnits ↔ u = 92)) ∧
    (∀ r ∈ [0, 1], ∀ u ∈ [91, 92, 93], ∀ e ∈ [Entry.zero, .full [(0, 1)] [], .full [] [3]],
      let s := blocking (lrebase0 r) (blocky .xor e .zero u);
      s.linOf 0 9 = some (lrebase0 r) ∧ (lrebase0 r).rooms = r ∧ ((s.space 0).takeMap 2).isSome = true ∧ (lrebase0 r).newMap.find 1 = none ∧
        (((s.space 0).block 5 1).1 = ((s.space 0).block 3 1).1 ∧ ((s.space 0).block 3 1).2 = [] ↔ e = .zero)) := by decide +kernel

/-- LPACK of that block: poison; I; Z; a parent with poison; XOR and ADD of 27 and 28 sub-blocks; a difference that no element gives. -/
theorem witness_PackSteps :
    (∀ e ∈ [Entry.inherit, .full [(0, 1)] [3]], let s := blocking lpack0 (blocky .xor e .zero 93); s.linOf 0 9 = some lpack0 ∧ ((s.space 0).node 3).entry 1 = e) ∧
    (∀ q ∈ [(subBlocks 1 0x4000, Entry.full (subBlocks 1 0x4000) []), ([], .full [(0, 1)] []), ([(0, 1)], .full [(0, 1)] [3])],
      let sp := blocky .xor (.full q.1 []) q.2 93;
      ((sp.node 3).entry 1 = .full q.1 [] ∧ sp.heapUsed.get 0 1 + 7 ≤ sp.heapUnits ∧
        ((sp.modNode 3 (fun n => { n with map := n.map.set n.dflt 1 .inherit })).block 3 1 = (q.1, []) ↔ q.2 = Entry.full (subBlocks 1 0x4000) []) ∧
        ((sp.block 2 1).2 = [] ↔ q.2 ≠ .full [(0, 1)] [3]))) ∧
    (∀ k ∈ [DeltaKind.xor, .add], ∀ n ∈ [27, 28],
      let sp := blocky k (.full (subBlocks n 0x4000) []) (.full (subBlocks n 0x3F80) []) 93;
      (sp.modNode 3 (fun n => { n with map := n.map.set n.dflt 1 .inherit })).block 3 1 ≠ (subBlocks n 0x4000, []) ∧
        subBlocks n 0x4000 ≠ [] ∧ (sp.node 3).depth ≠ 0 ∧ (sp.node 3).kind = k ∧ sp.block 2 1 = (subBlocks n 0x3F80, []) ∧
        AMap.sorted (subBlocks n 0x4000) = true ∧ AMap.sorted (subBlocks n 0x3F80) = true ∧
        (List.range 32).countP (fun z => decide ((subBlocks n 0x4000).read (128 * z) 128 ≠ (subBlocks n 0x3F80).read (128 * z) 128)) = n ∧
        addOk .bf16 .bf16 = true) ∧
    ((packDiff .bf16 .bf16 0x4000 0x3F80).isSome = true ∧ packDiff .bf16 .bf16 0x7FC0 0x3F80 = none) := by decide +kernel

/-- Switches of an LFLAT whose node is F throughout and is not, and of an LREBASE whose blocks are stale and are not. -/
theorem witness_SwitchGuards :
    ((blocky .xor (.full [] []) .zero 0).unflat 3 = some 0 ∧
      ({ blocky .xor .inherit .zero 0 with nodes := [(2, (ex7.node 2)), (3, { ex7.node 3 with map := [(0, .full [(1, 1)] [])] })] } : AddrSpace).unflat 3 = none) ∧
    ((blocky .xor (.full [(0, 1)] []) .zero 0).staleBlock 3 [5] [] = some 1 ∧
      (blocky .xor (.full [(0, 1)] []) .zero 0).staleBlock 3 [5] [(1, .full [(0, 1)] [])] = none ∧
      (blocky .xor (.full [(0, 1)] []) .zero 0).baseStands 3 5 0x1000005 = true ∧ (lrebase0 1).rooms ≠ 2) := by decide +kernel

/-- Splices at a block: the child's entry beside the husk's, with the heap's last units free. -/
def splicing (kind : DeltaKind) (a b : Entry) (started : Bool) (todo : List Nat) : AddrSpace :=
  let sp := blocky kind a b 80
  { sp with nodes := [(1, sp.node 1), (2, { sp.node 2 with state := .husk }), (3, sp.node 3)]
            splices := [{ husk := 2, child := 3, todo := todo, started := started }] }

theorem witness_SpliceRows :
    (∀ k ∈ [DeltaKind.xor, .add, .lowrank, .none], ∀ a ∈ [Entry.inherit, .zero, .full [(0, 1)] [], .xor 1 [(0, 1)] [], .add .bf16 1 [(1, 0x40)] []],
      ∀ b ∈ [Entry.inherit, .zero, .full [(0, 1)] [], .xor 3 [(128, 1)] [4], .add .bf16 1 [(1, 0x40)] []],
      let sp := splicing k a b true [1];
      sp.splices = [{ husk := 2, child := 3, todo := [1], started := true }] ∧ (sp.node 3).entry 1 = a ∧ (sp.node 2).entry 1 = b ∧
        sp.heapUsed.get 0 1 + 8 ≤ sp.heapUnits ∧ AMap.sorted ([(128, 1)] : AMap Byte) = true) ∧
    (∀ k ∈ [DeltaKind.xor, .none], let sp := splicing k .zero .inherit false [];
      ({ sys := { spaces := [(0, sp)] } } : State).nodeBusy 0 3 = false ∧ sp.splices = [{ husk := 2, child := 3, todo := [], started := false }]) ∧
    (∀ k ∈ [DeltaKind.xor, .add, .none], let sp := splicing k .zero .inherit true [];
      (sp.node 3).kind ≠ .lowrank ∧ AMap.sorted sp.nodes = true ∧ sp.isAncestor 3 3 = false ∧ AMap.sorted (sp.node 3).map = true) := by decide +kernel

/-! Engines and limits. -/

def cmdOf (id : Nat) (i : Instr) (prog : Prog) : PgeCmd :=
  { id := id, ctx := 0, pc := 0, seq := 0, ins := i, va := 1, vb := 0, vc := 0, bind := .val true, colour := false, asid := 0, sup := false, prog := prog }

def ending (ps : List PgeCmd) (ms : List MxCmd := []) (ls : List LinCmd := []) : State :=
  let s := flatOne (regs []) { pge := ps, mx := ms }
  { s with sys := { s.sys with lin := ls } }

def added : PgeCmd := cmdOf 5 (.aadd atomic0) (.ended 0 0)
def copied : PgeCmd := cmdOf 5 (.cpy { copy0 with wh := .destination }) (.ended 0 0)
def swapped : MxCmd := { mxOf 7 (.mswap true 0 2 0) with phase := .ended 0 0 }
def flattened : LinCmd := linOf 8 (.lflat 1 3 2 0 none') 3 0 (.ended 0 0)

theorem witness_EngineCommandsComplete :
    (((ending [added]).core 0).pgeOf 5 = some added ∧ QuietCounter (ending [added]) 0 0 ∧
      (((ending [added]).core 0).ctx 0).life = added.life ∧ (ending [added]).rmPending 0 5 = false ∧ added.awaitsHost = false ∧ (ending [added]).sys.jobs = [] ∧ (∀ a b ct gd o, added.ins ≠ .rowmig a b ct gd o) ∧
      Machine.whereOf added.ins = .issuer) ∧
    (((ending [copied]).core 0).pgeOf 5 = some copied ∧ copied.awaitsHost = false ∧ (((ending [copied]).core 0).ctx 0).life = copied.life ∧ Machine.whereOf copied.ins ≠ .issuer ∧ copied.bumpedDst = false ∧
      (ending [copied]).destOf 0 copied = some 1 ∧ (ending [copied]).fenced 1 = false ∧ QuietCounter (ending [copied]) 1 2) ∧
    (((ending [] [swapped]).core 0).pgeOf 7 = none ∧ ((ending [] [swapped]).core 0).mx.find? (fun q => q.id = 7) = some swapped ∧
      (((ending [] [swapped]).core 0).ctx 0).life = swapped.life ∧ (ending [] [swapped]).rmPending 0 7 = false) ∧
    (((ending [] [] [flattened]).core 0).mx.find? (fun q => q.id = 8) = none ∧ (ending [] [] [flattened]).linOf 0 8 = some flattened ∧ (ending [] [] [flattened]).rmPending 0 8 = false ∧
      QuietCounter (ending [] [] [flattened]) 0 2) := by
  refine ⟨⟨by decide +kernel, by unfold QuietCounter; decide +kernel, by decide +kernel, by decide +kernel, by decide +kernel, by decide +kernel,
    fun _ _ _ _ _ h => (by cases h), by decide +kernel⟩,
    by unfold QuietCounter; decide +kernel, by decide +kernel, by unfold QuietCounter; decide +kernel⟩

/-- A SEND.i refused k times, to core 1, whose ring of one line is full or has room. -/
def retried (k : Nat) : PgeCmd := { cmdOf 5 (.sendI inbox0) .running with tries := { refusals := k, again := 0 }, img := List.replicate 8 7 }
def sending (k used : Nat) : State :=
  let s := ending [retried k]
  { s with cores := s.cores ++ [(1, { inbox := { base := 4, lines := 1, head := 0, used := BitVec.ofNat 16 used } })] }

theorem witness_SendIRetry :
    (((sending 14 248).core 0).pgeOf 5 = some (retried 14) ∧ (sending 14 248).destOf 0 (retried 14) = some 1 ∧ (sending 14 248).refuses 0 1 = false ∧
      (sending 14 248).teamOf 0 = some smallTeam ∧ (sending 14 248).sys.jobs = [] ∧ ((sending 14 248).core 1).drain = [] ∧ (retried 14).tries.refusals ≠ 0 ∧
      (retried 14).prog.over = false ∧ (retried 14).tries.again ≤ (sending 14 248).cycle ∧ (retried 14).poisoned = 0) ∧
    (256 < ((sending 14 248).core 1).inbox.used.toNat + 8 + (retried 14).img.length ∧ 14 + 1 < 16 ∧ 16 ≤ (retried 15).tries.refusals + 1) ∧
    (0 + 240 % 256 + 8 + (retried 14).img.length ≤ 256 ∧ ((sending 14 240).core 1).inbox.used.toNat + 8 + (retried 14).img.length ≤ 256) := by
  decide +kernel

/-- FADE on 1,500 FP32 elements from 0x3000 on, in two granules, of which part 3 is under way. -/
def fading : PgeCmd :=
  { cmdOf 9 (.nmc 1 2 0 0 none' 1500) .running with
    img := leBytes 2 1 ++ [0, 0] ++ leBytes 4 0x3E000000 ++ leBytes 4 0x3F000000 ++ leBytes 4 0 ++ leBytes 8 0x3000 ++ leBytes 8 0x5010
    pos := 1, parts := [3, 4], outUnits := [0x403000, 0x404000, 0x405000, 0x406000] }

theorem witness_NmcPart :
    (((ending [fading]).core 0).pgeOf 9 = some fading ∧ fading.pos = 1 ∧ fading.prog.over = false ∧ 3 ∈ fading.parts) ∧
    (∃ b, caskBlock fading.img = some b ∧ (b.ok && !b.lin && decide (b.dst % 8 = 0 ∧ b.ty.bits % 8 = 0 ∧ b.dst / 4096 ≤ 3 ∧
      3 < b.dst / 4096 + ((b.dst + 1500 * ((b.ty.bits + 7) / 8) + 4095) / 4096 - b.dst / 4096) ∧
      (b.dst + 1500 * ((b.ty.bits + 7) / 8) + 4095) / 4096 - b.dst / 4096 ≤ fading.outUnits.length)) = true) ∧
    (∀ q ∈ ((ending [fading]).core 0).pge, q = fading) ∧ (0x403000 % 4096 = 0 ∧ 0x403000 + 4096 ≤ Config.hbmSize) ∧
    (Hits (ending [fading]) 0 false .write (4096 * 3) tlb0 ∧ tlb0.phys (4096 * 3) = 0x403000 ∧ tlb0.rm = false ∧ tlb0.va % 4096 = 0 ∧ tlb0.size % 4096 = 0) ∧
    Calm (ending [fading]) ∧ (ending [fading]).flat.poison = [] :=
  ⟨by decide +kernel, some_and (by decide +kernel), by decide +kernel, by decide +kernel, by unfold Hits; decide +kernel, calm_of (by decide +kernel),
    by decide +kernel⟩

/-! The engines' own steps. -/

theorem drain_of {s : State} (h : s.cores.all (fun e => e.2.drain.isEmpty) = true) (d : Nat) : (s.core d).drain = [] := by
  have key : ∀ m : AMap Core, m.all (fun e => e.2.drain.isEmpty) = true → (AMap.get {} m d).drain = [] := by
    intro m
    induction m with
    | nil => intro _; rfl
    | cons e r ih =>
      obtain ⟨k, x⟩ := e
      intro hm
      simp only [List.all_cons, Bool.and_eq_true] at hm
      unfold AMap.get
      split
      · exact List.isEmpty_iff.mp hm.1
      · exact ih hm.2
  exact key _ h

/-- What EngineTurn asks, as a test. -/
def takesTurn (s : State) (c : Nat) (p : PgeCmd) : Bool :=
  decide ((s.core c).pge.head? = some p) && decide (∀ q ∈ (s.core c).pge, q.id = p.id → q = p) && s.pgeReady c p &&
    decide (p.bind = .val true) &&
    decide (s.sys.jobs = [] ∧ (∀ q ∈ s.cores, q.2.linebuf = []) ∧ s.flat.rmWrites = [] ∧ s.flat.waiters = []) &&
    s.cores.all (fun e => e.2.drain.isEmpty)

theorem takesTurn_of {s : State} {c : Nat} {p : PgeCmd} (h : takesTurn s c p = true) : EngineTurn s c p := by
  simp only [takesTurn, Bool.and_eq_true] at h
  obtain ⟨⟨⟨⟨⟨h1, h2⟩, h3⟩, h4⟩, h5⟩, h6⟩ := h
  exact ⟨of_decide_eq_true h1, of_decide_eq_true h2, h3, of_decide_eq_true h4, calm_of h5, drain_of h6⟩

/-- A command alone in the engine of core 0 of a team, with cells of memory. -/
def engine (p : PgeCmd) (cells : List (Nat × List Byte) := []) (t : Team := smallTeam) (y : Core := {}) : State :=
  let s := flatOne (regs []) { y with pge := [p] } cells
  { s with sys := { s.sys with teams := [t] } }

/-- Sectors of memory poisoned. -/
def spoilt (s : State) (ks : List Nat) : State := { s with flat := { s.flat with poison := ks.map (fun k => (k, true)) } }

def tagOf (i : Nat) : TagTuple := { channel := channelOf 0x400800, name := i, ctx := 0, tag := 9, result := 5, at' := 0 }
def kept (s : State) (ts : List TagTuple) : State := { s with flat := { s.flat with tuples := ts } }

def oneAdd (tg : Bool) : PgeCmd := { cmdOf 5 (.aadd { atomic0 with tg := tg, tag := 9 }) .waiting with va := 0x800, vb := 1 }

/-- Atomics: a word of the first page; a read-mostly page; a tuple that is kept, 256 that are, and none; poison. -/
theorem witness_AtomicTurns :
    (∀ b, takesTurn (engine (oneAdd b)) 0 (oneAdd b) = true) ∧
    (∀ tg, Hits (engine (oneAdd tg)) 0 false .both 0x800 tlb0 ∧ tlb0.phys 0x800 < Config.hbmSize ∧ tlb0.rm = false) ∧
    (let s := engine (oneAdd false);
     let t : State := { s with cores := s.cores.map (fun e => (e.1, { e.2 with tlb := [{ tlb0 with rm := true }] })) };
     takesTurn t 0 (oneAdd false) = true ∧ Hits t 0 false .both 0x800 { tlb0 with rm := true }) ∧
    (let s := kept (engine (oneAdd true)) [tagOf ((engine (oneAdd true)).coreName 0)];
     takesTurn s 0 (oneAdd true) = true ∧
      s.flat.tuples.find? (fun t => t.channel = channelOf (tlb0.phys 0x800) && decide (s.host.clock < t.at' + 4000000) &&
        t.name = s.coreName 0 && t.ctx = 0 && t.tag = 9) = some (tagOf ((engine (oneAdd true)).coreName 0))) ∧
    (let s := kept (engine (oneAdd true)) (List.replicate 256 (tagOf 77));
     takesTurn s 0 (oneAdd true) = true ∧ (77 : Nat) ≠ s.coreName 0 ∧
      (s.flat.tuples.filter (fun t => t.channel = channelOf (tlb0.phys 0x800) && decide (s.host.clock < t.at' + 4000000))).length = 256) ∧
    (takesTurn (spoilt (engine (oneAdd false)) [0x20040]) 0 (oneAdd false) = true ∧
      (spoilt (engine (oneAdd false)) [0x20040]).hbmPoisoned (tlb0.phys 0x800) 8 = true ∧
      (engine (oneAdd false)).hbmPoisoned (tlb0.phys 0x800) 8 = false) := by
  unfold Hits; decide +kernel

def cmdAt (i : Instr) (va vb : Word64) (prog : Prog := .waiting) : PgeCmd := { cmdOf 5 i prog with va := va, vb := vb }

/-- Events at both ends of their range, with a waiter that is and is not served. -/
theorem witness_EventAndTaskTurns :
    (∀ v ∈ [0x10000, 0xFFFF], takesTurn (engine (cmdAt (.evpost 1 2 0 0 none') (w64 v) 3)) 0 (cmdAt (.evpost 1 2 0 0 none') (w64 v) 3) = true) ∧
    (let s := engine (cmdAt (.evpost 1 2 0 0 none') 0xFFFF 3); s.sys.waitersOf 0xFFFF = []) ∧
    (∀ n ∈ [3, 4], let s := engine (cmdAt (.evpost 1 2 0 0 none') 0xFFFF 3);
      let t : State := { s with sys := { s.sys with evWaiters := [(0xFFFF, [⟨1, 0, BitVec.ofNat 32 n, false⟩])] } };
      takesTurn t 0 (cmdAt (.evpost 1 2 0 0 none') 0xFFFF 3) = true ∧ t.sys.waitersOf 0xFFFF = [⟨1, 0, BitVec.ofNat 32 n, false⟩] ∧
        ((BitVec.ofNat 32 n).toNat ≤ min ((t.sys.event 0xFFFF).toNat + 3 % 2 ^ 32) 0xFFFFFFFF ↔ n = 3)) ∧
    (∀ d, let t : Team := { smallTeam with rec' := 0x1000, trigDone := d };
      takesTurn (engine (cmdAt (.trig 0 0) 0 0) [] t) 0 (cmdAt (.trig 0 0) 0 0) = true ∧
        (engine (cmdAt (.trig 0 0) 0 0) [] t).teamOf 0 = some t ∧
        ∀ k ∈ [6, 7, 8, 9], okAnd ((engine (cmdAt (.trig 0 0) 0 0) [] t).sysWord 0 true (0x1000 + 8 * k)) (fun w => decide (w = 0)) = true) ∧
    (let t : Team := { smallTeam with rec' := 0x1000 };
     let s := engine (cmdAt (.trig 0 0) 0 0) [(0x401030, leBytes 8 0x1400), (0x401410, leBytes 8 0x2000000)] t;
     takesTurn s 0 (cmdAt (.trig 0 0) 0 0) = true ∧ okAnd (s.sysWord 0 true 0x1030) (fun w => decide (w = 0x1400)) = true ∧
       sysAt s 0 0x1410 8 0x401410 = true ∧ s.flat.hbm.num 0x401410 8 / 2 ^ 24 % 2 ^ 16 = 2 ∧
       ∀ k ∈ [7, 8, 9], okAnd (s.sysWord 0 true (0x1000 + 8 * k)) (fun w => decide (w = 0)) = true) ∧
    (let t : Team := { smallTeam with bitmap := 0x2000 };
     let p := cmdAt (.done 1 0 0 none') 65 0;
     (takesTurn (engine p) 0 p = true ∧ smallTeam.bitmap = 0) ∧
     (takesTurn (engine p [] t) 0 p = true ∧ (engine p [] t).teamOf 0 = some t ∧ t.bitmap ≠ 0 ∧
       Hits (engine p [] t) 0 false .write (0x2000 + 8 * (65 / 64)) tlb0 ∧ tlb0.phys 0x2008 < Config.hbmSize ∧
       (engine p [] t).hbmPoisoned (tlb0.phys 0x2008) 8 = false ∧ (spoilt (engine p [] t) [0x20100]).hbmPoisoned (tlb0.phys 0x2008) 8 = true ∧
       takesTurn (spoilt (engine p [] t) [0x20100]) 0 p = true)) ∧
    (let t : Team := { smallTeam with ranges := [(0, 0), (0, 0), (0, 0), (3, 2)], next := [(3, 5)] };
     let p := cmdAt (.wdq 2 0 0 3) 0 0x7FF8;
     let q : PgeCmd := { p with prog := .running, result := some 9 };
     (takesTurn (engine p [] t) 0 p = true ∧ (engine p [] t).teamOf 0 = some t ∧ t.ranges[3]? = some (3, 2)) ∧
     (takesTurn (engine q [] t) 0 q = true ∧ 0x7FF8 + 8 ≤ 0x8000 ∧ (engine q [] t).mayWrite 0 (192 + 0x7FF8 / 256) (0, 5) = true)) := by
  unfold Hits; decide +kernel

/-- A queue header of size 2^n at 0x2000 with WIDX w and RIDX r. -/
def header (n w r : Nat) : List (Nat × List Byte) := [(0x402000, leBytes 8 w ++ leBytes 8 n), (0x402040, leBytes 8 r)]

def spawn (pos : Nat) (r : Option Word64) : PgeCmd :=
  { cmdAt (.tspawn 1 2 3 0 0 none') 0x2000 0 (if pos = 0 then .waiting else .running) with pos := pos, result := r, img := List.replicate 64 0 }

/-- TSPAWN on the smallest and the greatest queue, full and with one slot free; then its slot's body and its header word. -/
theorem witness_SpawnTurns :
    (∀ q ∈ [(3, 9, 1), (3, 8, 1), (16, 0, 2 ^ 64 - 65535)],
      let s := engine (spawn 0 none) (header q.1 q.2.1 q.2.2);
      takesTurn s 0 (spawn 0 none) = true ∧ Hits s 0 false .both 0x2000 tlb0 ∧ tlb0.rm = false ∧ tlb0.phys 0x2000 < Config.hbmSize ∧
        3 ≤ s.flat.hbm.num (tlb0.phys 0x2000 + 8) 8 % 2 ^ 5 ∧ s.flat.hbm.num (tlb0.phys 0x2000 + 8) 8 % 2 ^ 5 ≤ 16 ∧
        s.hbmPoisoned (tlb0.phys 0x2000) 256 = false) ∧
    (2 ^ 3 ≤ (BitVec.ofNat 64 9 - BitVec.ofNat 64 1 : Word64).toNat ∧ (BitVec.ofNat 64 0 - BitVec.ofNat 64 (2 ^ 64 - 65535) : Word64).toNat < 2 ^ 16) ∧
    (let s := engine (spawn 0 none) (header 3 8 1);
      Hits s 0 false .both (0x2000 + 0x100 + 64 * (8 % 2 ^ 3)) tlb0 ∧ s.hbmPoisoned (tlb0.phys 0x2100) 64 = false) ∧
    ∀ k ∈ [1, 2], let s := engine (spawn k (some 15)) (header 3 16 9);
      takesTurn s 0 (spawn k (some 15)) = true ∧ (spawn k (some 15)).img.length = 64 ∧
        Hits s 0 false .write (0x2000 + 0x100 + 64 * (15 % 2 ^ 3) + 8) tlb0 ∧ Hits s 0 false .write (0x2000 + 0x100 + 64 * (15 % 2 ^ 3)) tlb0 := by
  unfold Hits; decide +kernel

def heat (rows : Nat) : List (Nat × List Byte) := [(0x402000, leBytes 4 rows), (0x402040, leBytes 2 7)]
def ageing (first : Option Nat) (pos : Nat) : PgeCmd :=
  { cmdAt (.heatage 1 0 0 none' 3) 0x2000 0 .running with first := first, pos := pos }
def ranking (h : BitVec 14) (first : Option Nat) (pos : Nat) : PgeCmd :=
  { cmdAt (.rowrank 1 2 0 0 none' h) 0x2000 0x3000 .running with first := first, pos := pos, parts := List.replicate (min pos 1) 7 }

/-- HEATAGE and ROWRANK of 1 and 4,096 rows: the header, one counter, poison of each, the list, and the end. -/
theorem witness_HeatTurns :
    (∀ p ∈ [ageing none 0, ranking 1 none 0], ∀ r ∈ [0, 1, 4096],
      takesTurn (engine p (heat r)) 0 p = true ∧ Hits (engine p (heat r)) 0 false .read 0x2000 tlb0 ∧
        (engine p (heat r)).hbmPoisoned (tlb0.phys 0x2000) 4 = false ∧ (engine p (heat r)).lostAt 0 (tlb0.phys 0x2000) 4 = false ∧
        (engine p (heat r)).flat.hbm.num (tlb0.phys 0x2000) 4 = r ∧
        (takesTurn (spoilt (engine p (heat r)) [0x20100]) 0 p = true ∧ (spoilt (engine p (heat r)) [0x20100]).hbmPoisoned (tlb0.phys 0x2000) 4 = true)) ∧
    (takesTurn (engine (ranking 2 none 0) (heat 1)) 0 (ranking 2 none 0) = true ∧ ¬ (2 : BitVec 14).toNat ≤ 1) ∧
    (∀ p ∈ [ageing (some 1) 0, ranking 1 (some 1) 0],
      takesTurn (engine p (heat 1)) 0 p = true ∧ Hits (engine p (heat 1)) 0 false .both (0x2000 + 64 + 2 * 0) tlb0 ∧
        Hits (engine p (heat 1)) 0 false .read (0x2000 + 64 + 2 * 0) tlb0 ∧
        (engine p (heat 1)).hbmPoisoned (tlb0.phys 0x2040) 2 = false ∧ (engine p (heat 1)).lostAt 0 (tlb0.phys 0x2040) 2 = false ∧
        (takesTurn (spoilt (engine p (heat 1)) [0x20102]) 0 p = true ∧ (spoilt (engine p (heat 1)) [0x20102]).hbmPoisoned (tlb0.phys 0x2040) 2 = true)) ∧
    (∀ p ∈ [ageing (some 1) 1, ranking 1 (some 1) 1, ranking 1 (some 1) 2], takesTurn (engine p (heat 1)) 0 p = true ∧ 1 ≤ p.pos) ∧
    (Hits (engine (ranking 1 (some 1) 1)) 0 false .write (0x3000 + 4 * (1 - 1)) tlb0 ∧ (1 - 1 < (1 : BitVec 14).toNat) ∧ (1 : BitVec 14).toNat ≤ 2 - 1) ∧
    (takesTurn (engine (cmdAt (.rowmig 1 2 0 0 none') 0x2000 0)) 0 (cmdAt (.rowmig 1 2 0 0 none') 0x2000 0) = true ∧
      Hits (engine (cmdAt (.rowmig 1 2 0 0 none') 0x2000 0)) 0 false .write 0x2000 tlb0) := by
  unfold Hits; decide +kernel

def scan0 : Instr := .nmscan false 1 2 3 0 0 none' .fp32 1 2
def scanning (first : Option Nat) (pos : Nat) : PgeCmd :=
  { cmdAt scan0 0x2FF8 0x7FF0 .running with first := first, pos := pos, outUnits := if first = none then [] else [0x402000], parts := List.replicate pos 0x13F800000 }

/-- NMSCAN of the last two FP32 elements of a granule, and the last 16 bytes of A for its header and one entry. -/
theorem witness_ScanTurns :
    (takesTurn (engine (scanning none 0)) 0 (scanning none 0) = true ∧ (0x2FF8 + 2 * 4 - 1) / 4096 = 0x2FF8 / 4096 ∧
      Hits (engine (scanning none 0)) 0 false .read (0x2FF8 / 4096 * 4096) tlb0 ∧ tlb0.phys 0x2000 < Config.hbmSize) ∧
    (takesTurn (engine (scanning (some 0) 0)) 0 (scanning (some 0) 0) = true ∧ 0 < (scanning (some 0) 0).outUnits.length ∧ 0x2FF8 % 4 = 0) ∧
    (takesTurn (engine (scanning (some 0) 1)) 0 (scanning (some 0) 1) = true ∧ (scanning (some 0) 1).outUnits.length ≤ 1 ∧ 0x7FF0 + (8 + 8) ≤ 0x8000) := by
  unfold Hits; decide +kernel

def xferAs (i : XferArgs → Instr) (x : XferArgs) (vb vc : Nat) (pos : Nat) (more : PgeCmd → PgeCmd := id) : PgeCmd :=
  more { cmdAt (i x) 0x800 (w64 vb) .running with vc := w64 vc, pos := pos }

/-- Two units at the end of a local space: the first, and the last, which ends line 319 of A. -/
def tail16 : XferArgs := { xfer0 with len := 16 }
def tailTagged : XferArgs := { tail16 with t := true }

/-- GET and PUT in rows, GRIST and its scatter in blocks of 8 bytes for one participant and for the last of two, and a node's bytes. -/
theorem witness_TransferTurns :
    (∀ pos ∈ [0, 1], ∀ p ∈ [xferAs .get tail16 0x7FF0 0 pos, xferAs .put tail16 0x7FF0 0 pos],
      takesTurn (engine p) 0 p = true ∧ p.pos < tail16.len.toNat / 8 ∧ 0x7FF0 + 8 * 2 ≤ limitOf .a ∧ Hits (engine p) 0 false .both (0x800 + 8 * pos) tlb0 ∧
        Hits (engine p) 0 false .read (0x800 + 8 * pos) tlb0 ∧ Hits (engine p) 0 false .write (0x800 + 8 * pos) tlb0 ∧
        (engine p).hbmPoisoned (tlb0.phys (0x800 + 8 * pos)) 8 = false ∧ tlb0.phys (0x800 + 8 * pos) % 8 = 0 ∧
        takesTurn (spoilt (engine p) [0x20040]) 0 p = true ∧ (spoilt (engine p) [0x20040]).hbmPoisoned (tlb0.phys (0x800 + 8 * pos)) 8 = true) ∧
    (∀ v ∈ [(8 + 2 ^ 24, 2), (8 + 2 * 2 ^ 24 + 2 ^ 39, 1)], ∀ p ∈ [xferAs .grist tail16 0x7FF0 v.1 0, xferAs .gristScatter tail16 0x7FF0 v.1 0],
      takesTurn (engine p) 0 p = true ∧ 8 ≤ v.1 % 2 ^ 24 ∧ v.1 / 2 ^ 39 % 2 ^ 15 < v.1 / 2 ^ 24 % 2 ^ 15 ∧
        (List.range 2).countP (fun u => decide (8 * u / (v.1 % 2 ^ 24) % (v.1 / 2 ^ 24 % 2 ^ 15) = v.1 / 2 ^ 39 % 2 ^ 15)) = v.2 ∧
        Hits (engine p) 0 false .both (0x800 + v.1 / 2 ^ 39 % 2 ^ 15 * 8) tlb0) ∧
    (let g := xferAs .get tailTagged 0x7FF0 0 0;
     let q := xferAs .put tailTagged 0x7FF0 0 0;
     (takesTurn (engine g) 0 g = true ∧ (engine g).mayWrite 0 319 (0, 5) = true) ∧
     (takesTurn (engine q [] smallTeam { tags := [(319, { v := true })] }) 0 q = true ∧
       (engine q [] smallTeam { tags := [(319, { v := true })] }).mayRead 0 319 (0, 5) = true) ∧
     (let h := xferAs .get tailTagged 0x7FF0 0 1 (fun p => { p with tagged := true }); takesTurn (engine h) 0 h = true ∧ h.tagged = true)) := by
  unfold Hits; decide +kernel

/-- The same unit of node 2 of Example 7.1's space, which core 0 reads and writes. -/
def inSpace (p : PgeCmd) (sp : AddrSpace) : State :=
  let s := engine p
  { s with sys := { s.sys with spaces := [(0, { sp with ptbase := 0x100000 })] } }

theorem witness_NodeTransferTurns :
    let x : XferArgs := { tail16 with lin := true };
    ∀ i ∈ [Instr.get x, .put x], let p : PgeCmd := { cmdAt i 0x1000003 0x7FF0 .running with vc := 8 };
      takesTurn (inSpace p ex7) 0 p = true ∧ p.va.toNat < 2 ^ 32 ∧
        (match (inSpace p ex7).readNode 0 0x1000003 8 with | .ok _ => true | _ => false) = true ∧
        (match (inSpace p ex7).writeNode ⟨0, 5, false, false, 0⟩ 0x1000003 8 (List.replicate 8 1) false false with | .ok _ => true | _ => false) = true := by
  decide +kernel

def copyAs (i : CopyArgs → Instr) (x : CopyArgs) (pos : Nat) (more : PgeCmd → PgeCmd := id) : PgeCmd :=
  more { cmdAt (i x) 7 0x7FF0 .running with vc := 0x3FF0, pos := pos }

def copyTail : CopyArgs := { copy0 with dsp := .c, len := 16 }
def copyTagged : CopyArgs := { copyTail with t := true, dt := true }

/-- CPY, SEND.d and SEND.p to the last rank, from the end of A to the end of C, plain and tagged; a rank outside the team; a fenced
destination; a unit of SEND.i. -/
theorem witness_CopyTurns :
    (∀ i ∈ [Instr.cpy, .sendD, .sendP], ∀ pos ∈ [0, 1], let p := copyAs i copyTail pos;
      takesTurn (engine p) 0 p = true ∧ (engine p).teamOf 0 = some smallTeam ∧ p.va.toNat < 8 * 1 ∧ (engine p).refuses 0 (smallTeam.coreOf 7) = false ∧
        p.buffer = [] ∧ 0x7FF0 + 8 * 2 ≤ limitOf .a ∧ 0x3FF0 + 8 * 2 ≤ limitOf .c) ∧
    (let p := copyAs .cpy copyTagged 0;
     let s := engine p [] smallTeam { tags := [(319, { v := true })] };
     takesTurn s 0 p = true ∧ s.mayRead 0 319 (0, 5) = true ∧ s.mayWrite 7 (lineOf .c 0x3FF0) (0, 5) = true) ∧
    (∀ i ∈ [Instr.cpy copyTail, .sendD copyTail, .sendP copyTail, .sendI inbox0], let p := cmdAt i 8 0x7E00 .running;
      takesTurn (engine p) 0 p = true ∧ ¬ p.va.toNat < 8 * 1) ∧
    (let p := copyAs .cpy copyTail 0;
     let s := engine p;
     let t : State := { s with sys := { s.sys with containments := [{ die := 0, rect := none, row0 := 0, col0 := 0, width := 112, height := 60, teams := [], recs := [] }] } };
     takesTurn t 0 p = true ∧ t.refuses 0 (smallTeam.coreOf 7) = true) ∧
    (let p := cmdAt (.sendI { inbox0 with len := 8 }) 7 0x7FF8 .running;
     takesTurn (engine p) 0 p = true ∧ p.pos < 1 ∧ 0x7FF8 + 8 * 1 ≤ limitOf .a ∧ (engine p).refuses 0 (smallTeam.coreOf 7) = false) := by
  decide +kernel

/-- A tagged GET that is writing line 319 of A keeps the instructions' tagged accesses off it; without one nothing does. -/
theorem witness_LinesHeld :
    (let p := xferAs .get tailTagged 0x7FF0 0 1 (fun p => { p with tagged := true });
     let s := engine p;
     s.lineHeld s.curCore (lineOf .a 0x7FF8) false (s.curCore, 0) = true ∧ s.lineHeld s.curCore (lineOf .a 0x7FF8) true (s.curCore, 0) = true ∧
       s.lineHeld s.curCore (lineOf .a 0x7EF8) true (s.curCore, 0) = false ∧ 0x7FF8 + 8 ≤ limitOf .a ∧ MayWait s) ∧
    (locals.lineHeld 0 (lineOf .a 0x7FF8) false (0, 0) = false ∧ ring.lineHeld 0 319 true (0, 0) = false) ∧
    (∀ l, (one (lanes 64 [])).lineHeld 0 l false (0, 0) = false ∧ (one (lanes 64 [])).lineHeld 0 l true (0, 0) = false) := by
  unfold MayWait; exact ⟨by decide +kernel, by decide +kernel, fun l => ⟨rfl, rfl⟩⟩

/-- Line 319 of A holds poison; the core belongs to a team of the first die, which has a valid rectangle that holds it or none. -/
def poisonedLine (fences : AMap FenceRect) : State :=
  let s := flatOne (regs [(2, 0x7FF8)]) { tags := [(319, { v := true, p := true })] }
  { s with dies := [(0, { fences := fences })] }

theorem witness_PoisonIsContained :
    ∀ f ∈ [[], [(3, ({ v := true, row0 := 0, col0 := 0, width := 8, height := 1 } : FenceRect))]], let s := poisonedLine f;
      s.me.dbit 2 = false ∧ (s.me.sv 2).toNat + 8 ≤ limitOf .a ∧ (s.me.sv 2).toNat % 8 = 0 ∧ (s.home.tag (lineOf .a 0x7FF8)).p = true ∧
        (s.home.tag (lineOf .a 0x7FF8)).v = true ∧ s.lineHeld s.curCore (lineOf .a 0x7FF8) false (s.curCore, 0) = false ∧
        lineOf .a 0x7FF8 ∉ s.home.drain ∧ s.sys.evWaiters = [] ∧ (∀ t ∈ s.sys.teams, ∀ x ∈ s.sys.teams, t.id = x.id → t = x) ∧
        AMap.sorted (s.die (s.curCore / 224 / 60 * 2 + s.curCore % 224 / 112)).fences = true := by
  decide +kernel

def mmulAt (x : MmulArgs) (pos : Nat) : MxCmd := { mxOf 5 (.mmul x) with phase := .running, pos := pos, va := 0x7FC0, vb := 0x3E00 }
def mcorrAt (pos : Nat) : MxCmd := { mxOf 5 (.mcorr mcorr0) with phase := .running, pos := pos, img := corr0, va := 0x7000, vb := 0x3FF8 }
def msplitAt (pos : Nat) : MxCmd :=
  { mxOf 5 (.msplit msplit0) with phase := .running, pos := pos, img := split0 0x1000 ++ leBytes 4 1 ++ List.replicate 60 0, vb := 0x3FF8, va := 0x7FE0 }
def working (m : MxCmd) : State :=
  let s := flatOne (regs []) { mx := [m] }
  { s with sys := { s.sys with spaces := [(0, { ex7 with ptbase := 0x100000 })] } }

def okRun (r : RunRead) : Bool := match r with | .ok .. => true | _ => false

/-- The last vector of an MMUL of 2 k-steps, and its first of an MMUL with .st. -/
theorem witness_MatrixProducts :
    (∀ m ∈ [mmulAt mmul0 1, mmulAt mmul0 0, mmulAt { mmul0 with st := true, ot := .int8, at' := .int8 } 1], let s := working m;
      (s.core 0).mxOf 5 = some m ∧ s.sys.jobs = [] ∧ (∀ q ∈ (s.core 0).mx, q.id = m.id → q = m) ∧ s.suspendDue 0 m = false ∧ m.pos < 1 * 2 ∧
        ∀ x ∈ [mmul0, { mmul0 with st := true, ot := .int8, at' := .int8 }],
          s.observe 0 m (stepLines m x (m.pos / 1) (m.pos % 1)) 0x3E00 (4 * 128) (lastReads m x (m.pos / 1) (m.pos % 1)) = none) ∧
    (∀ l, ((working (mmulAt mmul0 1)).core 0).tag l = {} ∧ ∀ i, ((working (mmulAt mmul0 1)).core (coreOfSlice (clusterOf 0) (i + 1))).tag l = {}) ∧
    (let m := mcorrAt 0; let s := working m;
      (s.core 0).mxOf 5 = some m ∧ s.chainFault m = none ∧ ((s.space 0).node (handleIdx (corrD m.img))).fmt = .bf16 ∧ 2 * m.pos < corrRows m.img * 1 ∧
        m.vb.toNat % 8 = 0 ∧ s.observe 0 m (vectorLines m .bf16 1 32 ((s.space 0).node 2).cols) 0x3FF8 4
          (vectorLines m .bf16 1 32 ((s.space 0).node 2).cols) = none) ∧
    (let m := msplitAt 0; let s := working m;
      (s.core 0).mxOf 5 = some m ∧ splitRows m.img = 1 ∧ 2 * m.pos < 1 ∧ m.vb.toNat % 8 = 0 ∧
        s.observe 0 m (vectorLines m .bf16 1 32 (splitK m.img)) 0x3FF8 4 (vectorLines m .bf16 1 32 (splitK m.img)) = none ∧
        okRun (s.readRun 0 false .read (splitWaddr m.img + 256 * (0 % 1)) (2 * splitK m.img)) = true) := by
  refine ⟨by decide +kernel, fun l => ⟨rfl, fun i => rfl⟩, by decide +kernel, by decide +kernel⟩

theorem cold_reads (n : Nat) :
    State.readRun { working (msplitAt 0) with freeCtr := n } 0 false .read (splitWaddr (msplitAt 0).img + 256 * (0 % 1)) (2 * splitK (msplitAt 0).img) =
      .ok (List.replicate 32 0) none { working (msplitAt 0) with freeCtr := n } := by
  rfl

def stalled (h : Held) (y : SysDie := {}) : State :=
  { one { regs [] with waitObj := some (3, 2 ^ 60 - 1), waitSince := some 0, held := h } with cycle := 0x04000000, sys := y }

/-- Two event waiters of event 9, of which the first, of the stalled context or of another, may be withdrawn. -/
def evWaiting (n : Nat) : SysDie := { evWaiters := [(9, [⟨0, 0, 3, false⟩, ⟨1, 0, BitVec.ofNat 32 n, false⟩])] }

/-- A containment of the first die, its rectangle 3 or all of it, whose teams are gone. -/
def contained (rect : Option Nat) : Containment :=
  { die := 0, rect := rect, row0 := 0, col0 := 0, width := 8, height := 1, teams := [9], recs := List.replicate 6 0x800 }

theorem witness_StallsAndWatchdogs :
    (∀ h ∈ [Held.none, .awaitRefused 10 0x800 false 4, .eventRefused 10 9 4, .barrier 15 0, .awaitReg, .eventReg, .mutexQueued 31, .eventLine 31, .kilnAsked, .kilnTurn],
      (stalled h).me.live = true ∧ (stalled h).me.waitObj = some (3, 2 ^ 60 - 1) ∧ (stalled h).me.waitSince = some 0 ∧
      (stalled h).me.ystall.toNat ≤ (stalled h).cycle - 0 ∧ HasHandler (stalled h) ∧ (stalled h).me.held = h) ∧
    (((stalled (.barrier 15 0)).cluster 0).barrier 15).gen = 0 ∧
    (∀ q ∈ ((evWaiting 1).evWaiters.map (fun q => (q.1, q.2.filter (fun w => !(w.core = 0 && w.ctx = 0))))).filter (fun q => !q.2.isEmpty),
      ∀ w, q.2.head? = some w → ((evWaiting 1).event q.1).toNat < w.n.toNat) ∧
    (∀ r ∈ [none, some 3],
      let s : State := { sys := { containments := [contained r] } };
      s.sys.containments = [contained r] ∧ (∀ t ∈ (contained r).teams, s.team t = none) ∧
        (∀ a ∈ (contained r).asids, (s.job a).bind Job.running = none) ∧ s.queueNum 0 = none ∧ s.sys.notices.length < 256 ∧
        Inside 0 0 8 1 0 ∧ ¬ Inside 0 0 8 1 8) ∧
    ((flatOne { regs [] with left := 0 }).teamOf 0 = some smallTeam ∧ smallTeam.phase = .running ∧
      (((flatOne { regs [] with left := 0 }).core 0).ctx 0).left = 0 ∧ (flatOne (regs [])).sys.evWaiters = []) := by
  unfold HasHandler Inside; refine ⟨by decide +kernel, by decide +kernel, by decide +kernel, by decide +kernel, by decide +kernel⟩

/-! Tasks and teams: a record at virtual 0x800 with ENTRY 0x1000 and ARG 9. -/

def taskOf (base : Nat) (ready : Bool) (w h : Nat) : TaskEntry :=
  { rec' := 0x800, asid := 0, pkt := 0, queue := 0, ready := ready, since := 0, base := base, width := w, height := h }

def scheduled (tasks : List TaskEntry) (teams : List Team) (cores : AMap Core := []) : State :=
  { flat := { hbm := writeCells [] (tableCells ++ [(0x201008, leBytes 8 0x60001F), (0x400800, leBytes 8 0x1000 ++ leBytes 8 9 ++ leBytes 8 0x10810)]) }
    cores := cores, sys := { spaces := [(0, { ptbase := 0x100000 })], tasks := tasks, teams := teams } }

def placed : Team := { smallTeam with rec' := 0x800, row0 := 40, col0 := 104, width := 16, height := 2, phase := .placed }

/-- Example 4.2: the wake of rank 27, at row 41, column 115. -/
theorem test_wake :
    after (exec (.wake 1) (scheduled [] [placed])) (fun t =>
      let x := t.core 9299
      decide (x.teamrank = 27 ∧ x.teamsize = 32 ∧ x.teamorg = 0x2868 ∧ x.teamshape = 0x0210 ∧ x.dom1 = 0x01080108 ∧ x.dom3 = 0x02100000 ∧
        x.dom2 = 0x02100000 ∧ (x.ctx 0).pc = 0x1000 ∧ (x.ctx 0).sv 1 = 9)) = true := by decide +kernel

theorem witness_TasksRunAndEnd :
    (FreeAt (scheduled [taskOf 1 true 8 1] []) 119 216 8 1 ∧ (taskOf 1 true 8 1).was = none ∧
      ∀ k u, [taskOf 1 true 8 1][k]? = some u → k ≠ 0 → u.ready = false) ∧
    (priorityNow (scheduled [taskOf 1 true 8 1, taskOf 2 true 8 1] []) (taskOf 1 true 8 1) <
        priorityNow (scheduled [taskOf 1 true 8 1, taskOf 2 true 8 1] []) (taskOf 2 true 8 1) ∧
      FreeAt (scheduled [taskOf 1 true 8 1, taskOf 2 true 8 1] []) 0 (8 * 0) 8 1) ∧
    ((scheduled [] [placed]).team 1 = some placed ∧ placed.phase = .placed ∧ placed.resumes = false ∧ placed.col0 + placed.width ≤ 224 ∧
      (∃ v, (scheduled [] [placed]).sysWord 0 true 0x800 = .ok v ∧ decide (v = 0x1000) = true) ∧
      (∃ v, (scheduled [] [placed]).sysWord 0 true 0x808 = .ok v ∧ decide (v = 9) = true) ∧ (scheduled [] [placed]).packet 0 = none ∧
      (scheduled [] [placed]).sys.images = []) ∧
    (({ placed with phase := .waking } : Team).resumes = false ∧ Calm (scheduled [] [placed]) ∧ SysAt (scheduled [] [placed]) 0 (0x800 + 16) 8 0x400810 ∧
      (0x800 + 16) % 8 = 0) ∧
    (let s := scheduled [] [smallTeam] (smallTeam.cores.map (fun c => (c, { partEnded := true })));
      (∀ c ∈ smallTeam.cores, (s.core c).partEnded = true ∧ (s.core c).drain = []) ∧ Calm s ∧ s.sys.evWaiters = [] ∧ s.packet 0 = none ∧
        (∃ v, s.sysWord 0 true 40 = .ok v ∧ true = true) ∧ (∀ k < 10, 6 ≤ k → okAnd (s.sysWord 0 true (8 * k)) (fun v => decide (v = 0)) = true) ∧
        SysAt s 0 16 8 0x400010) := by
  refine ⟨⟨by unfold FreeAt; decide +kernel, rfl, ?_⟩, by unfold FreeAt; decide +kernel,
    ⟨by decide +kernel, rfl, rfl, by decide, ok_of (by decide +kernel), ok_of (by decide +kernel), by decide +kernel, by decide +kernel⟩,
    ⟨rfl, calm_of (by decide +kernel), sysAt_of (by decide +kernel), rfl⟩,
    ⟨by decide +kernel, calm_of (by decide +kernel), by decide +kernel, by decide +kernel, ok_of (by decide +kernel), by decide +kernel,
      sysAt_of (by decide +kernel)⟩⟩
  intro k u h hk
  cases k with
  | zero => exact absurd rfl hk
  | succ k => simp at h

/-! A page of 1 GiB at 0x40000000, and the save area in it. -/

def tlbG : TlbEntry :=
  { asid := 0, va := 0, size := 2 ^ 30, pa := 0x40000000, r := true, w := true, x := true, rm := false, s := false, kst := 0, leaf := 0x200000 }

/-- The state's space 0 maps its first 1 GiB by two tables below 0x40000000, no sector is poisoned there and no kiln is known. -/
structure Giga (s : State) : Prop where
  base : (s.space 0).ptbase.toNat = 0x100000
  jobs : s.sys.jobs = []
  locks : s.flat.rmWrites = []
  p0 : s.pte 0x100000 = .ok 0x200001
  p1 : s.pte 0x200000 = .ok 0x4000001F

theorem Giga.walk {s : State} (h : Giga s) {va : Nat} (hv : va < 2 ^ 30) : walk s 0 0x100000 va = .ok tlbG := by
  have e39 : va >>> 39 = 0 := by rw [Nat.shiftRight_eq_div_pow]; omega
  have e30 : va >>> 30 = 0 := by rw [Nat.shiftRight_eq_div_pow]; omega
  have ev : va / 2 ^ 30 = 0 := by omega
  have hl : ¬ 2 ^ 52 ≤ va := by omega
  unfold Machine.walk walkLevels
  rw [if_neg hl, walk_pointer (e := 0x200001) (by rw [e39]; exact h.p0) (by decide) (by decide) (by decide),
    walk_leaf (e := 0x4000001F) (by rw [e30]; exact h.p1) (by decide) (by decide) (by decide) (by decide), ev, e30]
  decide

theorem get_clear_other {α : Type} (d : α) (m : AMap α) (lo n k : Nat) (h : k < lo) : AMap.get d (AMap.clear m lo n) k = AMap.get d m k := by
  induction m with
  | nil => rfl
  | cons e r ih =>
    obtain ⟨j, v⟩ := e
    by_cases hj : lo ≤ j ∧ j < lo + n
    · have hc : AMap.clear ((j, v) :: r) lo n = AMap.clear r lo n := by simp [AMap.clear, hj]
      rw [hc, ih, AMap.get, if_neg (by omega)]
    · have hc : AMap.clear ((j, v) :: r) lo n = (j, v) :: AMap.clear r lo n := by
        unfold AMap.clear
        rw [List.filter_cons_of_pos (by simp [hj])]
      rw [hc, AMap.get, AMap.get, ih]

theorem get_over_other {α : Type} [DecidableEq α] (d : α) (n : AMap α) (k : Nat) : ∀ m : AMap α, (∀ e ∈ n, e.1 ≠ k) →
    AMap.get d (AMap.over d m n) k = AMap.get d m k := by
  induction n with
  | nil => intro m _; rfl
  | cons e r ih =>
    intro m h
    rw [AMap.over, ih _ (fun e he => h e (List.mem_cons_of_mem _ he)), AMap.get_set, if_neg (h _ (List.mem_cons_self ..))]

/-- What sysStore leaves when one page holds the extent. -/
def stored (s : State) (va n : Nat) (m : Mem) : State :=
  s.modFlat (fun f => { f with
    hbm := (f.hbm.clear (0x40000000 + va) n).over 0 (AMap.slice m (va - va) n (0x40000000 + va))
    poison := unpoisonOver f.poison (0x40000000 + va) n
    lost := setPoison f.lost (replicas (sectorsWhole (0x40000000 + va) n) [0, 1, 2, 3]) false })

theorem stored_byte (s : State) (va n : Nat) (m : Mem) (a : Nat) (ha : a < 0x40000000) : (stored s va n m).flat.hbm.get a = s.flat.hbm.get a := by
  show AMap.get 0 (AMap.over 0 (AMap.clear s.flat.hbm _ _) _) a = AMap.get 0 s.flat.hbm a
  rw [get_over_other, get_clear_other _ _ _ _ _ (by omega)]
  intro e he
  simp only [AMap.slice, List.mem_filterMap] at he
  obtain ⟨q, _, hq⟩ := he
  split at hq
  · cases hq
    show q.1 - (va - va) + (0x40000000 + va) ≠ a
    omega
  · cases hq

theorem stored_poison (s : State) (va n : Nat) (m : Mem) (k : Nat) (hk : k < 0x2000000) :
    (stored s va n m).flat.poison.get false k = s.flat.poison.get false k := by
  show (unpoisonOver s.flat.poison (0x40000000 + va) n).get false k = _
  rw [unpoisonOver_get, decide_eq_false (by omega)]
  simp

theorem stored_pte (s : State) (va n : Nat) (m : Mem) (a v : Nat) (ha : a < 0x10000000) (hl : s.flat.rmWrites = []) (hs : s.pte a = .ok v) : (stored s va n m).pte a = .ok v := by
  have hb : (stored s va n m).hbmNum a 8 = s.hbmNum a 8 := by
    have ht := stored_byte s va n m
    simp [State.hbmNum, Mem.num, Mem.read, ht a (by omega), ht (a + 1) (by omega), ht (a + 2) (by omega), ht (a + 3) (by omega), ht (a + 4) (by omega),
      ht (a + 5) (by omega), ht (a + 6) (by omega), ht (a + 7) (by omega)]
  have hp : (stored s va n m).hbmPoisoned a 8 = s.hbmPoisoned a 8 := by
    have hq : ∀ lo j, lo + j < 0x2000000 → (upFrom lo j).any (fun k => (stored s va n m).flat.poison.get false k) =
        (upFrom lo j).any (fun k => s.flat.poison.get false k) := by
      intro lo j
      induction j generalizing lo with
      | zero => intro _; rfl
      | succ j ih => intro h; simp only [upFrom, List.any_cons]; rw [stored_poison _ _ _ _ _ (by omega), ih _ (by omega)]
    simp only [State.hbmPoisoned, poisonedIn, sectorsIn, OfNat.ofNat_ne_zero, if_false]
    rw [hq _ _ (by omega)]
  have hn : leNat ((stored s va n m).flat.hbm.read a 8) = leNat (s.flat.hbm.read a 8) := hb
  simp only [State.pte, hbmSeen_idle hl, hbmSeen_idle (show (stored s va n m).flat.rmWrites = [] from hl)] at hs ⊢
  rw [hn, hp]
  exact hs

theorem Giga.store {s : State} (h : Giga s) {va n : Nat} (m : Mem) (hn : 0 < n) (hv : va + n ≤ 2 ^ 30) :
    ∃ t, s.sysStore 0 va n m = .ok t ∧ Giga t := by
  refine ⟨stored s va n m, ?_, ⟨h.base, h.jobs, h.locks, stored_pte _ _ _ _ _ _ (by decide) h.locks h.p0,
    stored_pte _ _ _ _ _ _ (by decide) h.locks h.p1⟩⟩
  obtain ⟨n, rfl⟩ : ∃ k, n = k + 1 := ⟨n - 1, by omega⟩
  have hx : s.sysXlate 0 true .write va = .ok tlbG := by
    rw [State.sysXlate, h.base, h.walk (by omega)]
    rfl
  have hf : s.newFor 0 none = none := by simp [State.newFor, State.job, h.jobs]
  have hz : ∀ v f, s.sysRuns 0 true .write v 0 f = .ok [] := fun v f => by unfold State.sysRuns; rfl
  have hj : min (n + 1) (tlbG.va + tlbG.size - va) = n + 1 := by
    show min (n + 1) (0 + 2 ^ 30 - va) = n + 1
    omega
  have hr : s.sysRuns 0 true .write va (n + 1) ((n + 1) / 65536 + 2 + 1) = .ok [(tlbG, va, n + 1)] := by
    rw [State.sysRuns, hx]
    simp only [bind, Except.bind, hj]
    rw [Nat.sub_self, hz]
  have hp : tlbG.phys va = 0x40000000 + va := rfl
  have h1 : rangeOf (0x40000000 + va) = .hbm := by unfold rangeOf; rw [if_pos (by unfold Config.hbmSize; omega)]
  have h2 : rangeOf (0x40000000 + va + (n + 1) - 1) = .hbm := by unfold rangeOf; rw [if_pos (by unfold Config.hbmSize; omega)]
  rw [State.sysStore, show (n + 1) / 65536 + 3 = (n + 1) / 65536 + 2 + 1 from rfl, hr]
  simp only [bind, Except.bind, List.foldlM, hp, h1, h2, hf, pure, Except.pure, settle_idle h.locks, Option.isSome_none, Bool.false_eq_true, if_false]
  rfl

theorem Giga.blocks {base : Nat} {f : Nat → Nat} (l : List Nat) : ∀ s : State, Giga s → (∀ c ∈ l, base + 0x1000 + f c * blockBytes + blockBytes ≤ 2 ^ 30) →
    ∀ g : State → Nat → Mem, ∃ u, l.foldlM (fun (u : State) c => u.sysStore 0 (base + 0x1000 + f c * blockBytes) blockBytes (g u c)) s = .ok u ∧
      Giga u := by
  induction l with
  | nil => intro s hs _ g; exact ⟨s, rfl, hs⟩
  | cons c r ih =>
    intro s hs hl g
    have hc := hl c (List.mem_cons_self ..)
    obtain ⟨v, hv, gv⟩ := hs.store (va := base + 0x1000 + f c * blockBytes) (n := blockBytes) (g s c) (by decide) hc
    obtain ⟨u, hu, gu⟩ := ih v gv (fun d hd => hl d (List.mem_cons_of_mem _ hd)) g
    refine ⟨u, ?_, gu⟩
    rw [List.foldlM_cons, hv]
    exact hu

theorem Giga.saves {s : State} (h : Giga s) (t : Team) (ha : t.asid = 0) (hb : t.save.toNat + 0x1000 ≤ 2 ^ 30)
    (hc : ∀ c ∈ t.cores, t.save.toNat + 0x1000 + t.rankOf c * blockBytes + blockBytes ≤ 2 ^ 30) : ∃ u, s.writeSave t = .ok u := by
  obtain ⟨u, hu, gu⟩ := Giga.blocks (base := t.save.toNat) t.cores s h hc
    (fun u c => (u.core c).stores ++ (u.core c).image (u.cluster (clusterOf c)) (sliceOf c) true [])
  obtain ⟨v, hv, -⟩ := gu.store (va := t.save.toNat) (n := 0x1000) (u.saveHeader t) (by decide) hb
  refine ⟨v, ?_⟩
  simp only [State.writeSave, ha, hu, bind, Except.bind]
  exact hv

/-- A team of the whole mesh, a task of higher priority that fits nowhere, and a team of eight at rest that has a save area. -/
def whole : Team := { smallTeam with width := 224, height := 120, save := 0x10000 }
def taken : Team := { smallTeam with rec' := 0x800, take := true, takeSince := some 0, save := 0x10000 }
def resting : State :=
  let s := scheduled [] [taken] [(0, { team := some 1, ctxs := [(0, { regs [] with parked := some ⟨2, 1⟩ })] })]
  { s with flat := { hbm := writeCells [] [(0x100000, leBytes 8 0x200001), (0x200000, leBytes 8 0x4000001F)] } }

theorem resting_saves : ∃ u, resting.writeSave taken = .ok u :=
  Giga.saves ⟨by decide +kernel, by decide +kernel, by decide +kernel, ok_eq (by decide +kernel), ok_eq (by decide +kernel)⟩ taken rfl (by decide) (by decide +kernel)

theorem witness_TakesAndResumptions :
    ((scheduled [taskOf 1 true 8 1] [whole]).team 1 = some whole ∧ whole.base < (taskOf 1 true 8 1).base ∧
      (∀ r k, k < 28 → ¬ FreeAt (scheduled [taskOf 1 true 8 1] [whole]) r (8 * k) 8 1) ∧ whole.take = false ∧ whole.noTake = false ∧ whole.save ≠ 0 ∧
      smallTeam.save = 0) ∧
    (resting.team 1 = some taken ∧ resting.cycle - 0 < 2 ^ 20 ∧ 2 ^ 20 ≤ ({ resting with cycle := 2 ^ 20 } : State).cycle - 0 ∧
      ((resting.core 0).ctx 0).parked = some ⟨2, 1⟩) ∧
    (Calm resting ∧ (∀ c ∈ taken.cores, resting.memberRests c = true) ∧ (∃ c ∈ taken.cores, ∃ e ∈ (resting.core c).ctxs, e.2.live = true) ∧
      ∃ u, resting.writeSave taken = .ok u) ∧
    ((∃ img : Nat → Mem, ∀ c ∈ taken.cores, resting.sysImage 0 (0x10000 + 0x1000 + taken.rankOf c * 0x40000) 0x40000 = .ok (img c)) ∧
      (∃ head, resting.sysImage 0 0x10000 0x1000 = .ok head ∧ true = true) ∧ ((resting.core 0).fromImage [(0x19114, 1)] []).exited = false ∧ SysAt resting 0 0x10000 8 0x40010000) := by
  refine ⟨⟨by decide +kernel, by decide, ?_, rfl, rfl, by decide, rfl⟩, by decide +kernel,
    ⟨calm_of (by decide +kernel), by decide +kernel, by decide +kernel, resting_saves⟩, ?_, ok_of (by decide +kernel), by decide +kernel, sysAt_of (by decide +kernel)⟩
  · rintro r k hk ⟨_, hr, hc, ht, _⟩
    have := ht whole (by simp [scheduled])
    simp [whole, smallTeam] at this
    omega
  · refine ⟨fun c => match resting.sysImage 0 (0x10000 + 0x1000 + taken.rankOf c * 0x40000) 0x40000 with | .ok m => m | .error _ => [], ?_⟩
    intro c hc
    have h : ∀ c ∈ taken.cores, okAnd (resting.sysImage 0 (0x10000 + 0x1000 + taken.rankOf c * 0x40000) 0x40000) (fun _ => true) = true := by decide +kernel
    obtain ⟨m, hm, -⟩ := ok_of (h c hc)
    simp only [hm]

/-! The tables of `tableCells`, under every write above them. -/

theorem walk_tables {s : State} (h0 : s.pte 0x100000 = .ok 0x200001) (h1 : s.pte 0x200000 = .ok 0x201001)
    (h2 : s.pte 0x201000 = .ok 0x40001F) {va : Nat} (hv : va < 2 ^ 21) : walk s 0 0x100000 va = .ok tlb0 := by
  have e39 : va >>> 39 = 0 := by rw [Nat.shiftRight_eq_div_pow]; omega
  have e30 : va >>> 30 = 0 := by rw [Nat.shiftRight_eq_div_pow]; omega
  have e21 : va >>> 21 = 0 := by rw [Nat.shiftRight_eq_div_pow]; omega
  have ev : va / 2 ^ 21 = 0 := by omega
  have hl : ¬ 2 ^ 52 ≤ va := by omega
  unfold walk walkLevels
  rw [if_neg hl, walk_pointer (e := 0x200001) (by rw [e39]; exact h0) (by decide) (by decide) (by decide),
    walk_pointer (e := 0x201001) (by rw [e30]; exact h1) (by decide) (by decide) (by decide),
    walk_leaf (e := 0x40001F) (by rw [e21]; exact h2) (by decide) (by decide) (by decide) (by decide), ev, e21]
  decide

/-- Space 0 maps its first 2 MiB by the tables, and no sector is poisoned. -/
structure Mapped (s : State) : Prop where
  base : (s.space 0).ptbase.toNat = 0x100000
  clean : ∀ k, s.flat.poison.get false k = false
  locks : s.flat.rmWrites = []
  p0 : s.pte 0x100000 = .ok 0x200001
  p1 : s.pte 0x200000 = .ok 0x201001
  p2 : s.pte 0x201000 = .ok 0x40001F

theorem Mapped.write {s t : State} (m : Mapped s) {pa : Nat} {bs : List Byte} (h : WritesHbm s t pa bs false) (hp : 0x202000 ≤ pa) : Mapped t := by
  have keep : ∀ {a v}, a + 8 ≤ pa → s.pte a = .ok v → t.pte a = .ok v := fun ha hs => pte_keep h m.locks m.clean ha hs
  refine ⟨?_, fun k => by rw [h.poison]; simp [m.clean], by rw [h.whole]; exact m.locks, keep (by omega) m.p0, keep (by omega) m.p1, keep (by omega) m.p2⟩
  rw [h.whole]
  exact m.base

theorem Mapped.at {s : State} (m : Mapped s) {va n : Nat} (hv : va + n ≤ 2 ^ 21) (hn : 0 < n) : SysAt s 0 va n (0x400000 + va) := by
  refine ⟨⟨tlb0, ?_, ?_, rfl, rfl⟩, by unfold Config.hbmSize; omega, ?_⟩
  · rw [State.sysXlate, m.base, walk_tables m.p0 m.p1 m.p2 (by omega)]
    rfl
  · show va + n ≤ 0 + 0x200000
    omega
  · simp [State.hbmPoisoned, poisonedIn, m.clean]

theorem Mapped.page {s : State} (m : Mapped s) {va n : Nat} (hv : va + n ≤ 2 ^ 21) (hn : 0 < n) : SysPage s 0 va n (0x400000 + va) :=
  ⟨(m.at hv hn).page, (m.at hv hn).hbm⟩

theorem mapped_of {s : State} (h : decide ((s.space 0).ptbase.toNat = 0x100000 ∧ s.flat.poison = [] ∧ s.flat.rmWrites = []) = true)
    (h0 : okAnd (s.pte 0x100000) (fun v => decide (v = 0x200001)) = true) (h1 : okAnd (s.pte 0x200000) (fun v => decide (v = 0x201001)) = true)
    (h2 : okAnd (s.pte 0x201000) (fun v => decide (v = 0x40001F)) = true) : Mapped s := by
  have h := of_decide_eq_true h
  exact ⟨h.1, fun k => by rw [h.2.1]; rfl, h.2.2, ok_eq h0, ok_eq h1, ok_eq h2⟩

/-! Queues: queue 3 with its header at virtual 0x800, slots of 2^4 packets from 0x900 on. -/

def queue3 : Queue := { num := 3, header := 0x800, asid := 0, n := 4 }

def serving (cells : List (Nat × List Byte)) (packets : List Packet := []) : State :=
  { flat := { hbm := writeCells [] (tableCells ++ [(0x400808, leBytes 8 (4 + 2 ^ 16 + 3 * 2 ^ 32))] ++ cells) }
    sys := { spaces := [(0, { ptbase := 0x100000 })], queues := [queue3], packets := packets } }

/-- WIDX, RIDX 17 (slot 1, second lap) and the header of the packet in the slot. -/
def slotted (widx w0 : Nat) : State := serving [(0x400800, leBytes 8 widx), (0x400840, leBytes 8 17), (0x400940, leBytes 8 w0)]

def packetOf (ws : List Word64) (begun : Bool := false) (ended : Option Bool := none) : Packet :=
  { id := 7, queue := 3, header := 0x800, asid := 0, index := 17, words := ws, begun := begun, ended := ended }

/-- A BARRIER packet that names the signals at 0x40 and 0x48. -/
def barrier2 (begun : Bool) : Packet := packetOf [2, 0x40, 0x48] begun

def signals (v : Nat) : State := serving [(0x400040, leBytes 8 v)] [barrier2 false]

theorem witness_Dispatch (w0 : Nat) (hw : w0 = 6 ∨ w0 = 0x106 ∨ w0 = 0x102 ∨ w0 = 0x105) :
    (slotted 18 w0).queueNum queue3.num = some queue3 ∧ queue3.barrier = none ∧ Calm (slotted 18 w0) ∧ SysAt (slotted 18 w0) 0 0x800 8 0x400800 ∧
      SysAt (slotted 18 w0) 0 0x808 8 0x400808 ∧
      SysAt (slotted 18 w0) 0 0x840 8 0x400840 ∧ SysAt (slotted 18 w0) 0 0x940 64 0x400940 ∧ (slotted 18 w0).flat.hbm.num 0x400800 8 = 18 ∧
      (slotted 18 w0).flat.hbm.num 0x400840 8 = 17 ∧ (slotted 18 w0).flat.hbm.num 0x400940 8 = w0 ∧ (slotted 17 w0).flat.hbm.num 0x400800 8 = 17 := by
  rcases hw with rfl | rfl | rfl | rfl <;>
    exact ⟨by decide +kernel, rfl, calm_of (by decide +kernel), sysAt_of (by decide +kernel), sysAt_of (by decide +kernel), sysAt_of (by decide +kernel),
      sysAt_of (by decide +kernel), by decide +kernel⟩

/-- The same with a LAUNCH of the record at 0x1000, of a READY-to-run task of 8 × 1 cores. -/
theorem witness_DispatchLaunch :
    let s := serving [(0x400800, leBytes 8 18), (0x400840, leBytes 8 17), (0x400940, leBytes 8 0x101 ++ leBytes 8 0x1000), (0x401010, leBytes 8 0x108)]
    s.queueNum 3 = some queue3 ∧ Calm s ∧ SysAt s 0 0x940 64 0x400940 ∧ s.flat.hbm.num 0x400948 8 = 0x1000 ∧ s.flat.hbm.num 0x401010 8 = 0x108 ∧
      s.sys.packets = [] ∧ 0x108 % 2 ^ 8 = 8 ∧ 0x108 / 2 ^ 8 % 2 ^ 7 = 1 ∧ 0x108 / 2 ^ 40 % 2 ^ 3 = 0 ∧
      ∀ t, WritesHbm s t 0x400840 (leBytes 8 18) false →
        SysAt t 0 0x1000 128 0x401000 ∧ SysAt t 0 (0x1000 + 16) 8 (0x401000 + 16) ∧ SysAt t 0 (0x800 + 8) 8 0x400808 := by
  intro s
  have m : Mapped s := mapped_of (by decide +kernel) (by decide +kernel) (by decide +kernel) (by decide +kernel)
  refine ⟨by decide +kernel, calm_of (by decide +kernel), m.at (by decide) (by decide), by decide +kernel, by decide +kernel, rfl, rfl, rfl, rfl, fun t h => ?_⟩
  have mt := m.write h (by decide)
  exact ⟨mt.at (by decide) (by decide), mt.at (by decide) (by decide), mt.at (by decide) (by decide)⟩

theorem witness_Barrier (v : Nat) (hv : v = 0 ∨ v = 1 ∨ v = 2 ^ 64 - 1) :
    (signals v).packet 7 = some (barrier2 false) ∧ ∃ vals : Nat → Word64,
      (∀ k, 1 ≤ k → k ≤ 5 → (barrier2 false).word k ≠ 0 →
        ((barrier2 false).word k).toNat % 8 = 0 ∧ (signals v).sysWord 0 true ((barrier2 false).word k).toNat = .ok (vals k)) ∧
      vals 1 = BitVec.ofNat 64 v ∧ vals 2 = 0 := by
  have h1 : (signals v).sysWord 0 true 0x40 = .ok (BitVec.ofNat 64 v) := by rcases hv with rfl | rfl | rfl <;> exact ok_eq (by decide +kernel)
  have h2 : (signals v).sysWord 0 true 0x48 = .ok 0 := by rcases hv with rfl | rfl | rfl <;> exact ok_eq (by decide +kernel)
  refine ⟨by rcases hv with rfl | rfl | rfl <;> decide +kernel, fun k => if k = 1 then BitVec.ofNat 64 v else 0, ?_, rfl, rfl⟩
  intro k hk hk5 hz
  obtain rfl | rfl | hk3 : k = 1 ∨ k = 2 ∨ 3 ≤ k := by omega
  · exact ⟨by decide, h1⟩
  · exact ⟨by decide, h2⟩
  · obtain rfl | rfl | rfl : k = 3 ∨ k = 4 ∨ k = 5 := by omega
    all_goals exact absurd rfl hz

theorem witness_QueuesRunPackets :
    ((serving [] [packetOf [6]]).packet 7 = some (packetOf [6]) ∧ (packetOf [6]).ended = none ∧ (packetOf [6]).word 0 = 6 ∧
      (serving [] [packetOf [5, 0x0000000200000009]]).packet 7 = some (packetOf [5, 0x0000000200000009]) ∧
      (serving [] [packetOf [5, 0x0000000200000009]]).sys.waitersOf 9 = [] ∧ (serving []).sys.jobs = []) ∧
    (∀ w7 : Nat, w7 = 0 ∨ w7 = 0x48 → ∀ b, let p := packetOf [6, 0, 0, 0, 0, 0, 0, BitVec.ofNat 64 w7] true (some b)
      (serving [] [p]).packet p.id = some p ∧ Calm (serving [] [p]) ∧ SysAt (serving [] [p]) 0 0x48 8 0x400048 ∧
        SysAt (serving [] [p]) 0 0x818 8 0x400818 ∧ p.word 7 = BitVec.ofNat 64 w7) := by
  refine ⟨by decide +kernel, ?_⟩
  rintro w7 (rfl | rfl) (_ | _) <;>
    exact ⟨by decide +kernel, calm_of (by decide +kernel), sysAt_of (by decide +kernel), sysAt_of (by decide +kernel), by decide +kernel⟩

/-! LAUNCH of the record at 0x1000, COPY of 100 bytes from 0x3000 to 0x2010, NMEM. -/

def launch1 : Packet := packetOf [1, 0x1000, 0, 0, 0, 0, 0, 0x48]
def copy3 (pos : Nat) : Packet := { packetOf [3, 0x2010, 0x3000, 100] with pos := pos }
/-- One of 100 bytes from 0xFFF8, at the end of 64 KiB, of which three have been read. -/
def copyPart : Packet := { packetOf [3, 0x2010, 0xFFF8, 100] with buf := [1, 2, 3] }
def nmem4 (cask : Option CaskRun) (pos : Nat := 0) : Packet := { packetOf [4, 0x800, 2, 0x1800] with cask := cask, pos := pos }

theorem witness_LaunchAndCopy :
    (let s := serving [] [launch1];
     s.packet 7 = some launch1 ∧ (∀ q ∈ s.sys.packets, q.id = 7 → q = launch1) ∧ Calm s ∧ (launch1.word 1).toNat % 128 = 0 ∧
       launch1.ended = none ∧ launch1.begun = false ∧ SysPage s 0 (0x1000 + 96) 8 (0x401000 + 96) ∧
       ∀ t, WritesHbm s t (0x401000 + 96) (leBytes 8 (launch1.word 7).toNat) false → SysAt t 0 (0x1000 + 16) 8 (0x401000 + 16)) ∧
    (∀ pos, pos = 0 ∨ pos = 96 → ∀ bad : AMap Bool, bad = [] ∨ bad = [(0x403000 / 32, true), (0x403000 / 32 + 3, true)] →
     let s0 := serving [] [copy3 pos]
     let s : State := { s0 with flat := { s0.flat with poison := bad } }
     let k := min (32 - (0x2010 + pos) % 32) (100 - pos)
     s.packet 7 = some (copy3 pos) ∧ (∀ q ∈ s.sys.packets, q.id = 7 → q = copy3 pos) ∧ Calm s ∧ SysPage s 0 (0x2010 + pos) k (0x402010 + pos) ∧
       SysPage s 0 (0x3000 + pos) k (0x403000 + pos) ∧ (s.hbmPoisoned (0x403000 + pos) k = true ↔ bad ≠ []) ∧
       (copy3 pos).buf.length < k ∧ k = min (k - 0) (65536 - (0x3000 + pos) % 65536)) ∧
    (let s := serving [] [copyPart];
     s.packet 7 = some copyPart ∧ SysPage s 0 0x2010 16 0x402010 ∧ SysPage s 0 (0xFFF8 + 3) 5 (0x40FFF8 + 3) ∧ copyPart.buf.length = 3 ∧
       5 = min (16 - 3) (65536 - (0xFFF8 + 3) % 65536) ∧ 5 < 16 - 3 ∧ ({ copyPart with buf := List.replicate 16 1 } : Packet).buf.length = 16 ∧
       copyPart.out = false ∧ copyPart.answer = none ∧ s.fab.ports = [] ∧ 100 ≤ (copy3 100).pos) := by
  refine ⟨?_, ?_, ⟨by decide +kernel, sysPage_of (by decide +kernel), sysPage_of (by decide +kernel), by decide +kernel⟩⟩
  · have m : Mapped (serving [] [launch1]) := mapped_of (by decide +kernel) (by decide +kernel) (by decide +kernel) (by decide +kernel)
    exact ⟨by decide +kernel, by decide +kernel, calm_of (by decide +kernel), by decide +kernel, rfl, rfl, m.page (by decide) (by decide),
      fun t h => (m.write h (by decide)).at (by decide) (by decide)⟩
  · rintro pos (rfl | rfl) bad (rfl | rfl) <;>
      exact ⟨by decide +kernel, by decide +kernel, calm_of (by decide +kernel), sysPage_of (by decide +kernel), sysPage_of (by decide +kernel), by decide +kernel⟩

/-- A block of opcode 4 on node 1 of 2^36 FP32 elements: it fits whatever the number of elements. -/
def vastSpace : AddrSpace :=
  { ptbase := 0x100000, nodes := [(1, { handle := 0x1000001, state := .live, dims := [2 ^ 36] })], tableSize := 8 }
def vast (p : Packet) : State :=
  let s := serving [(0x400800, [4, 1] ++ List.replicate 10 0 ++ leBytes 4 0x1000001 ++ List.replicate 16 0)] [p]
  { s with sys := { s.sys with spaces := [(0, vastSpace)] } }

theorem vast_prepares (n : Nat) (hn : n ≤ 2 ^ 32) (s : State) (hs : s.space 0 = vastSpace) :
    ∃ r, s.caskPrepare 0 ([4, 1] ++ List.replicate 10 0 ++ leBytes 4 0x1000001 ++ List.replicate 16 0) n = some r := by
  obtain ⟨b, hb, h⟩ := some_and (o := caskBlock ([4, 1] ++ List.replicate 10 0 ++ leBytes 4 0x1000001 ++ List.replicate 16 0))
    (p := fun b => b.ok && b.lin && !b.usesSrc && decide (b.dst = 0 ∧ b.ty = .fp32 ∧ b.handle = 0x1000001)) (by decide +kernel)
  simp only [Bool.and_eq_true, Bool.not_eq_true', decide_eq_true_eq] at h
  obtain ⟨⟨⟨h1, h2⟩, h3⟩, h4, h5, h6⟩ := h
  have hv : vastSpace.valid 0x1000001 = some 1 := by decide
  have hz : 8 * ceilDiv (vastSpace.node 1).size 8 = 2 ^ 38 := by decide +kernel
  have hl : (vastSpace.node 1).state = .live := by decide
  have he : b.extent n ≤ 2 ^ 34 := by
    have : b.extent n = (n * 32 + 7) / 8 := by unfold CaskBlock.extent; rw [h5]; rfl
    omega
  apply some_of
  unfold State.caskPrepare
  rw [hb]
  simp only [h1, h2, h3, h4, h6, hs, hv, hz, hl, Bool.not_true, Bool.false_and, Bool.or_false, Nat.zero_mod, ne_eq, not_true_eq_false,
    decide_false, Bool.false_eq_true, if_false, if_true, Nat.zero_add, show ¬ (2 ^ 38 < b.extent n) from by omega]
  rfl

theorem witness_Nmem :
    (let s := vast (nmem4 none);
     s.packet 7 = some (nmem4 none) ∧ (∀ q ∈ s.sys.packets, q.id = 7 → q = nmem4 none) ∧ Calm s ∧ SysAt s 0 0x800 32 0x400800 ∧
       ∀ v : Word64, ∀ t : State, t.space 0 = vastSpace → ∃ r, t.caskPrepare 0 (s.flat.hbm.read 0x400800 32) (max 1 (v.toNat % 2 ^ 32)) = some r) ∧
    (nmem4 none 2).pos = 2 ∧ (vast (nmem4 none 2)).packet 7 = some (nmem4 none 2) ∧
    (let r : CaskRun := { img := [], n := 1, first := some 3, poisoned := 8 };
     let s := vast (nmem4 (some r));
     s.packet 7 = some (nmem4 (some r)) ∧ r.parts = [] ∧ r.status = 0 ∧ r.heapFull = false ∧ SysPage s 0 0x1800 16 0x401800) := by
  refine ⟨⟨by decide +kernel, by decide +kernel, calm_of (by decide +kernel), sysAt_of (by decide +kernel), ?_⟩, rfl, by decide +kernel, by decide +kernel, rfl, rfl, rfl,
    sysPage_of (by decide +kernel)⟩
  intro v t ht
  rw [show (vast (nmem4 none)).flat.hbm.read 0x400800 32 = [4, 1] ++ List.replicate 10 0 ++ leBytes 4 0x1000001 ++ List.replicate 16 0 from by decide +kernel]
  exact vast_prepares _ (by have := v.isLt; omega) t ht

/-! The host port. BAR2BASE is 0x400000; the sector of offset 0x40 is poisoned or not. -/

def hosted (ready hpe bad : Bool) : State :=
  { flat := { hbm := writeCells [] [(0x400040, leBytes 8 5)], poison := if bad then [(0x400040 / 32, true)] else [] }
    host := { ready := ready, hpe := hpe, bar2base := 0x400000 } }

theorem witness_HostReachesMemory :
    (∀ ready hpe bad, Calm (hosted ready hpe bad)) ∧
    (∀ n, 1 ≤ n → n ≤ 4096 → let s : State := { host := { bar2base := 0x6BFFFFFFFF } };
      s.host.bar2base.toNat + 0 < Config.hbmSize ∧ s.host.bar2base.toNat + 0 + 1 ≤ Config.hbmSize ∧ n + 1 ≤ s.host.bar2size ∧
        ¬ (s.host.bar2base.toNat + (n + 1) ≤ Config.hbmSize) ∧ ¬ (0x3FFFFFFF + (n + 1) ≤ s.host.bar2size)) ∧
    (∀ q ∈ piecesOf 0x400030 32, (hosted true false false).hbmPoisoned q.1 q.2 = false) ∧
    (piecesOf 0x400030 32).find? (fun q => (hosted true false true).hbmPoisoned q.1 q.2) = some (0x400040, 16) ∧
    ((hosted true false true).hbmPoisoned 0x400040 4 = true ∧ (hosted true false false).hbmPoisoned 0x400040 4 = false ∧ 0x400040 % 8 = 0) ∧
    (0x6BFFFFFFFF / 64 * 64 + 64 ≤ Config.hbmSize ∧ (hosted true true true).hbmPoisoned 0x40 64 = false) ∧
    ((hosted true false true).flat.hbm.num 0x400040 4 = 5 ∧ 5 = (0x100000005 : Word64).toNat % 2 ^ 32 ∧ 5 ≠ (6 : Word64).toNat % 2 ^ 32) := by
  refine ⟨by rintro (_ | _) (_ | _) (_ | _) <;> exact calm_of (by decide +kernel), fun n _ h => by unfold Config.hbmSize; simp; omega, by decide +kernel, by decide +kernel,
    by decide +kernel, by decide +kernel, by decide +kernel⟩

/-- The line at address 0x400040, that a CXL read at that offset asks for, is poisoned under HPE and without. -/
theorem witness_HostReachesMemory_cxl :
    ∀ hpe, (hosted true hpe true).hbmPoisoned (0x400047 / 64 * 64) 64 = true ∧ (hosted true hpe false).hbmPoisoned (0x400047 / 64 * 64) 64 = false := by
  decide +kernel

theorem witness_HostWindowsAndRegisters :
    (let s := serving [];
     s.host.ready = true ∧ Calm s ∧ s.queueNum 2 = none ∧ s.queueNum 3 = some queue3 ∧ SysAt s 0 0x800 8 0x400800 ∧ SysAt s 0 (0x800 + 200) 56 (0x400800 + 200) ∧
       200 + 56 ≤ 256 ∧ (∀ p ∈ piecesOf 200 56, SysAt s 0 (0x800 + p.1) p.2 (0x400800 + 200 + (p.1 - 200))) ∧
       s.queueNum (1023 / 256) = some queue3 ∧ SysAt s 0 (0x800 + 1023 % 256) 1 (0x400800 + 255) ∧ 65535 < 65536 ∧ s.sys.waitersOf 65535 = []) ∧
    ((hosted false false false).host.ready = false ∧ ({ fail := 2 } : HostPort).fail ≠ 0 ∧ ({} : HostPort).fail = 0 ∧ ({ clock := 10000000 } : HostPort).nextPtm ≤ ({ clock := 10000000 } : HostPort).clock ∧ (3 : Nat) < 4 ∧ (127 : Nat) < 128 ∧
      (255 : Nat) < 256) := by
  refine ⟨⟨by decide +kernel, calm_of (by decide +kernel), by decide +kernel, by decide +kernel, sysAt_of (by decide +kernel), sysAt_of (by decide +kernel),
    by decide, ?_, by decide +kernel, sysAt_of (by decide +kernel), by decide, by decide +kernel⟩, by decide⟩
  have h : ∀ p ∈ piecesOf 200 56, sysAt (serving []) 0 (0x800 + p.1) p.2 (0x400800 + 200 + (p.1 - 200)) = true := by decide +kernel
  exact fun p hp => sysAt_of (h p hp)

/-! Reset, power and loading. -/

def loaded : ProgImage :=
  { asid := 0, segs := [{ va := 0x3000, bytes := [1, 2, 3] }], nodes := [], queues := [], images := [{ task := 0x1000, sp := .a, addr := 0, bytes := [4] }], entry := 0x1000 }

def reading (grant level tmax : Nat) : PowerReading :=
  { die := 1, grant := BitVec.ofNat 22 grant, level := BitVec.ofNat 5 level, tmax := BitVec.ofNat 8 tmax, vmin := 3, roFreq := 9 }

theorem witness_ResetsPowerAndLoading :
    (∃ s : State, s.host.fail = 0 ∧ s.sys.jobs = [] ∧ (s.die (1 : Fin 4).val).hotSince = some 0 ∧ 0 + 1000000 ≤ s.host.clock) ∧
    ((0x5741524E : Word64) ≠ 0x5741524D ∧ ({ fail := 3 } : HostPort).fail ≠ 0 ∧ ({ ready := false, lastrst := 1 } : HostPort).lastrst ≠ 0 ∧
      ({ ready := false } : HostPort).lastrst = 0) ∧
    (let s : State := { dies := [(0, { grant := 400000, tmax := 100 }), (2, { grant := 1000000 })] };
      let total (g : Nat) (o : BitVec 22) : Nat := ((List.range 4).map (fun d => if d = 1 then g else (s.die d).grant.toNat)).sum +
        ((List.range 13).map (fun k => (AMap.get 0 ([(12, o)] : AMap (BitVec 22)) k).toNat)).sum;
      s.host.fail = 0 ∧ total 1200000 1000000 = 3600000 ∧ total 1200000 1000001 > 3600000 ∧ total 600000 1000000 = 3000000 ∧
        total 600000 1000001 > 3000000 ∧ s.host.arbiter.overSince = none ∧ s.host.arbiter.restUntil ≤ s.host.clock ∧
        (∃ d, d < 4 ∧ 100 ≤ (s.die d).tmax.toNat ∧ ∀ q ∈ [reading 5 1 20], q.die.val ≠ d) ∧
        (¬ ∃ d, d < 4 ∧ 100 ≤ (({} : State).die d).tmax.toNat)) ∧
    ((6 : BitVec 8).toNat > 5 ∧ (5 : BitVec 8).toNat ≤ 5) ∧
    ((∃ q ∈ [reading 5 0 20], q.level.toNat = 0 ∨ 16 < q.level.toNat) ∧
      ¬ ((reading 7 1 100).tmax.toNat < 100 ∨ (reading 7 1 100).grant.toNat < ({ grant := 7 } : Die).grant.toNat) ∧
      (reading 6 1 100).grant.toNat < ({ grant := 7 } : Die).grant.toNat ∧
      (∀ t, t = 99 ∨ t = 100 ∨ t = 105 ∨ t = 110 →
        (reading 3600000 16 t).grant.toNat ≤ 3600000 ∧ 1 ≤ (reading 3600000 16 t).level.toNat ∧ (reading 3600000 16 t).level.toNat ≤ 16 ∧
          (reading 3600000 16 t).tmax.toNat = t)) ∧
    (let s := serving [];
     s.host.ready = true ∧ Calm s ∧ loaded.segs = [{ va := 0x3000, bytes := [1, 2, 3] }] ∧ loaded.nodes = [] ∧ loaded.queues = [] ∧ loaded.entry % 8 = 0 ∧
       SysPage s 0 0x3000 3 0x403000 ∧ ∀ t, WritesHbm s t 0x403000 [1, 2, 3] false → SysPage t 0 (0x1000 + 96) 8 (0x401000 + 96) ∧
         ∀ u, WritesHbm t u (0x401000 + 96) (leBytes 8 0) false → SysAt u 0 (0x1000 + 16) 8 (0x401000 + 16)) := by
  have m : Mapped (serving []) := mapped_of (by decide +kernel) (by decide +kernel) (by decide +kernel) (by decide +kernel)
  refine ⟨⟨{ dies := [(1, { hotSince := some 0 })], host := { clock := 1000000 } }, by decide⟩, by decide, ?_, by decide, ⟨by decide, by decide, by decide, ?_⟩,
    ⟨rfl, calm_of (by decide +kernel), rfl, rfl, rfl, rfl, m.page (by decide) (by decide), ?_⟩⟩
  · exact ⟨rfl, by decide +kernel, by decide +kernel, by decide +kernel, by decide +kernel, rfl, by decide, ⟨0, by decide +kernel⟩, by rintro ⟨d, _, h⟩; exact absurd h (by simp [State.die, AMap.get])⟩
  · rintro t (rfl | rfl | rfl | rfl) <;> decide
  · intro t h
    have mt := m.write h (by decide)
    exact ⟨mt.page (by decide) (by decide), fun u hu => (mt.write hu (by decide)).at (by decide) (by decide)⟩

/-! The fabric: node 9 routed by ports 2 and 5. -/

def packetTo (isAtomic : Bool) : FabPacket := { core := 0, cmd := 5, unit' := 0, window := 4, node := 9, isAtomic := isAtomic }
def fromSys : FabPacket := { packetTo false with core := sysParty, cmd := 7 }
def sentAtomic : PgeCmd := { added with prog := .running, sentAt := some 0 }

def fabric (f : Fabric) (clock : Nat := 0) (ps : List PgeCmd := [sentAtomic]) : State :=
  { ending ps with fab := f, host := { clock := clock } }

/-- A write of two bytes to a read-mostly granule, awaited by dies 1 and 2 or by die 2. -/
def awaited (dies : List Nat) : RmWrite :=
  { granule := 0x400, cells := (([7, 8] : List Byte).zipIdx).map (fun e => (0x400040 + e.2, e.1)), poison := [], dies := dies, since := 0, core := 0, cmd := 5 }

theorem witness_FabricMovesAndEnds :
    (let s := fabric { ports := [(2, { retry := [packetTo true] })] };
     s.host.ready = true ∧ s.sys.jobs = [] ∧ s.queueNum 0 = none ∧ s.sys.notices.length < 256 ∧ (s.fab.ports.get {} 2).up = true ∧
       (∀ j ∈ (s.fab.ports.get {} 2).retry, j = packetTo true) ∧ (s.core 0).pgeOf 5 = some sentAtomic ∧ sentAtomic.prog.over = false ∧
       (∃ x, atomicArgs sentAtomic.ins = some x) ∧ sentAtomic.sentAt = some 0 ∧ sentAtomic.result = none ∧ (packetTo true).core ≠ sysParty) ∧
    (let s : State := { serving [] [copy3 0] with fab := { ports := [(2, { retry := [fromSys], queue := [fromSys], round := some 3 })] } };
     (s.fab.ports.get {} 2).up = true ∧ fromSys ∈ (s.fab.ports.get {} 2).retry ∧ fromSys.core = sysParty ∧ s.packet 7 = some (copy3 0) ∧
       (copy3 0).ended = none ∧ s.fab.alternative 2 fromSys.node = none) ∧
    (let s := fabric { ports := [(2, { up := false, round := some 0, queue := [packetTo false, { packetTo false with node := 8 }] })], routes := [(8, 0x8025)] } 100000;
     (s.fab.ports.get {} 2).deadAt + 100000 ≤ s.host.clock ∧ s.fab.alternative 2 9 = none ∧ s.fab.alternative 2 8 = some 5) ∧
    (let p : PgeCmd := { cmdOf 5 (.done 1 0 0 none') .running with sentAt := some 0 };
     let s := fabric {} 2000000 [p];
     (s.core 0).pgeOf 5 = some p ∧ p.prog.over = false ∧ p.result = none ∧
       ({ smallTeam with bitmap := 0x1000 } : Team).bitmap ≠ 0 ∧ s.teamOf 0 = some smallTeam) ∧
    (({ up := false } : Port).up = false) ∧
    (∀ n, n = 0 ∨ n = 2 ∨ n = 3 → ∀ route : BitVec 16, route = 0x8000 + 2 + 5 * 16 ∨ route = 0 →
      let s := fabric { ports := [(2, { up := false, round := some n, queue := [packetTo false] })], routes := [(9, route)] } (100000 * (n + 1));
      (s.fab.ports.get {} 2).round = some n ∧ (s.fab.ports.get {} 2).deadAt + 100000 * (n + 1) ≤ s.host.clock ∧ (s.fab.ports.get {} 2).queue = [packetTo false]) ∧
    (∃ route : BitVec 16, ({ ports := [(2, { up := false })], routes := [(9, route)] } : Fabric).alternative 2 9 ≠ none) ∧
      (fabric { exports := [(1, { node := 5, v := true, epoch := 1, base := 0x400000, size := 0x1000 })], waiting := [⟨5, 0x400040, 0, false, .read 8⟩] }).fab.serves 5 1 0x400040 = true ∧
      ({ ports := [(2, { up := false })], down := [9] } : Fabric).alternative 2 9 = none ∧
    ((fabric {} 2000000).flat.tuples = [] ∧ ({ fabric {} 4000000 with flat := { tuples := [⟨3, 7, 0, 9, 5, 0⟩] } } : State).flat.tuples[0]? = some ⟨3, 7, 0, 9, 5, 0⟩) ∧
    ((fabric { windows := [(4, { closedAt := some 0, out := 1 })], ports := [(2, { flight := [packetTo false] })] } 400000).fab.windows.get {} 4).closedAt = some 0 ∧ (packetTo false).core ≠ sysParty ∧
    (∀ ds, ds = [1, 2] ∨ ds = [2] → [awaited ds][0]? = some (awaited ds) ∧ 2 ∈ (awaited ds).dies ∧
      (awaited ds).cells = (([7, 8] : List Byte).zipIdx).map (fun e => (0x400040 + e.2, e.1))) := by
  refine ⟨⟨by decide +kernel, by decide +kernel, by decide +kernel, by decide +kernel, by decide +kernel, by decide +kernel, by decide +kernel, by decide +kernel,
    ⟨_, rfl⟩, by decide +kernel⟩, by decide +kernel, by decide +kernel, by decide +kernel, rfl, ?_, ⟨0x8025, by decide +kernel⟩, by decide +kernel, by decide +kernel, by decide +kernel, by decide +kernel, ?_⟩
  · rintro n (rfl | rfl | rfl) r (rfl | rfl) <;> decide +kernel
  · exact ⟨by decide, by rintro ds (rfl | rfl) <;> decide⟩

/-- Requests of node 5 at the edges of an export of [0x400000, 0x401000). -/
def exporting (bad : Bool) (ts : List TagTuple) : State :=
  { hosted true false bad with
    fab := { exports := [(1, { node := 5, v := true, epoch := 1, base := 0x400000, size := 0x1000 })] }
    flat := { (hosted true false bad).flat with tuples := ts } }

/-- A tuple of the channel of 0x400040 that its time limit has not passed. -/
def hereAt (clock : Nat) (t : TagTuple) : Bool := t.channel = channelOf 0x400040 && decide (clock < t.at' + 4000000)

theorem witness_PeerRequests :
    (∀ a, a = 0x400000 ∨ a = 0x400FFF → ∃ e ∈ (exporting false []).fab.exports,
      (e.2.v = true ∧ e.2.base.toNat ≤ a ∧ a < e.2.base.toNat + e.2.size.toNat) ∧ e.2.node.toNat = 5 ∧ e.2.epoch.toNat = 1) ∧
    (∀ a, a = 0x3FFFFF ∨ a = 0x401000 → ¬ ∃ e ∈ (exporting false []).fab.exports,
      (e.2.v = true ∧ e.2.base.toNat ≤ a ∧ a < e.2.base.toNat + e.2.size.toNat) ∧ e.2.node.toNat = 5 ∧ e.2.epoch.toNat = 1) ∧
    ((exporting false []).host.ready = true ∧ AMap.sorted (exporting false []).fab.exports = true ∧ 0x400FFF + 4096 ≤ Config.hbmSize) ∧
    (∃ t, (exporting false [⟨channelOf 0x400040, 7, 0, 9, 5, 0⟩]).flat.tuples.find?
      (fun t => hereAt 0 t && t.name = 7 && t.ctx = 0 && t.tag = 9) = some t) ∧
    (let ts := (List.range 256).map (fun k => (⟨channelOf 0x400040, 7, 0, k + 10, 5, 0⟩ : TagTuple));
     ts.find? (fun t => hereAt 3999999 t && t.name = 7 && t.ctx = 0 && t.tag = 9) = none ∧ 256 ≤ (ts.filter (hereAt 3999999)).length ∧
       (ts.filter (hereAt 4000000)).length < 256) ∧ ({ ready := false } : HostPort).ready = false ∧
    ((exporting false []).hbmPoisoned 0x400040 8 = false ∧ (exporting false []).flat.tuples.find?
      (fun t => hereAt 0 t && t.name = 7 && t.ctx = 0 && t.tag = 9) = none ∧
      ((exporting false []).flat.tuples.filter (hereAt 0)).length < 256) ∧ Calm (exporting false []) := by
  refine ⟨?_, ?_, by decide +kernel, some_of (by decide +kernel), by decide +kernel, rfl, by decide +kernel, calm_of (by decide +kernel)⟩
  · rintro a (rfl | rfl) <;> exact ⟨_, List.mem_singleton.mpr rfl, by decide⟩
  · rintro a (rfl | rfl) ⟨e, he, h, _⟩ <;> (cases List.mem_singleton.mp he; revert h; decide)

/-! Decoding and the step. -/

theorem witness_EncodingsDecode :
    (Instr.add 3 1 2).wellFormed = true ∧ (Instr.cpy copy0).wellFormed = true ∧ (Instr.mmul mmul0).wellFormed = true ∧ Instr.hotReset.wellFormed = true ∧
      encode (.add 3 1 2) = some (8, 0x00208C04) ∧ encode .hotReset = none := by decide +kernel

theorem witness_DecodedWordsEncode : decodeWord 0x00208C04 = .ok (.add 3 1 2) ∧ decodeWord (0x00208C04 + 2 ^ 64) = .ok (.add 3 1 2) := by
  constructor <;> rfl

/-- Context 0 at virtual 0x800 with two instructions left, ADD s3, s1, s2 there, whose block the core holds or does not. -/
def stepping (held : Bool) (agenda : List Action) : State :=
  let block := leBytes 32 0x00208C04
  { flatOne { regs [(1, 5), (2, 6)] with pc := 0x800, left := 2 } { icache := if held then [{ asid := 0, va := 0x800, bytes := block }] else [] }
      [(0x400800, block)] with agenda := agenda }

def stepsTo (slot : Bool) (v : State) (i : Instr) : Bool :=
  let w := if slot ∧ (v.core 0).issuedAt = some v.cycle then v.tick else v
  let w := if w.slotCycle = w.cycle ∧ 11 * 0 + 0 < w.slotNext then w.tick else w
  let at' : State := { w with curCore := 0, curCtx := 0, slotCycle := w.cycle, slotNext := 11 * 0 + 0 + 1 }
  let u := if slot then at'.modCore 0 (fun x => { x with rr := 0, issuedAt := some w.cycle }) else at'
  let block := u.me.pc.toNat / 32 * 32
  let held := u.home.icache.find? (fun b => b.asid = u.home.curAsid.toNat && b.va = block)
  let bytes : List Byte := match held with | some b => b.bytes | none => u.flat.hbm.read (tlb0.phys block) 32
  v.mayIssue 0 && (if slot then decide ((v.core 0).nextCtx = some 0) else ((v.core 0).ctx 0).retries) && !privileged i &&
    decide (u.me.rep.trap = none) && decide (tlbFind (u.core 0).tlb 0 block = some tlb0) &&
    tlb0.permits .fetch u.me.sup block && decide (u.flat.rmWrites = []) && !u.hbmPoisoned (tlb0.phys block) 32 && decide (bytes.length = 32) &&
    okAnd (decodeBytes (bytes.drop (u.me.pc.toNat % 32))) (fun r => decide (r.1 = i)) && (u.me.waitSince.isSome || decide (1 < u.me.left.toNat)) &&
    (regsOf i).all (fun r => decide (u.me.reserved.find r = none)) && !u.me.rep.active

theorem witness_StepRunsDecodedInstruction :
    (∀ held, stepsTo true (stepping held []) (.add 3 1 2) = true) ∧
    (∀ held, stepsTo true { (stepping held []).modCore 0 (fun x => { x with issuedAt := some 0 }) with slotNext := 1 } (.add 3 1 2) = true) ∧
    (∀ held, stepsTo false ((stepping held []).modCtx 0 0 (fun x => { x with waitSince := some 0 })) (.add 3 1 2) = true) ∧
    (∃ s : State, s.agenda = [] ∧ s.choose = .issue 0 ∧ stepsTo true s.tick (.add 3 1 2) = true) := by
  refine ⟨by decide +kernel, by decide +kernel, by decide +kernel, stepping false [], by decide +kernel, by decide +kernel, by decide +kernel⟩

/-- The step runs it: s3 becomes 11. -/
theorem test_step_fetches : after (step (stepping false [.issue 0])) (fun t => decide (t.me.sv 3 = 11 ∧ t.me.pc = 0x808 ∧ t.home.icache.length = 1)) = true := by
  decide +kernel

/-! Clauses of the later statements. -/

/-- A SEND.i whose payload has just been read, in an engine of one command; a ROWMIG whose work has ended well. -/
def firstTry : PgeCmd := { cmdAt (.sendI { inbox0 with len := 8 }) 1 0x100 .running with pos := 1, img := List.replicate 8 7 }
def migrated : PgeCmd := cmdOf 5 (.rowmig 1 2 0 0 none') (.ended 0 0)

theorem witness_FirstTryAndMigration :
    (∀ n ∈ [240, 248], let s := engine firstTry;
      let t : State := { s with cores := s.cores ++ [(1, { inbox := { base := 4, lines := 1, used := BitVec.ofNat 16 n } })] };
      takesTurn t 0 firstTry = true ∧ t.destOf 0 firstTry = some 1 ∧ t.refuses 0 1 = false ∧ firstTry.tries.refusals = 0 ∧ (8 : Nat) / 8 ≤ firstTry.pos ∧
        firstTry.poisoned = 0) ∧
    (((ending [migrated]).core 0).pgeOf 5 = some migrated ∧ QuietCounter (ending [migrated]) 0 0 ∧
      (((ending [migrated]).core 0).ctx 0).life = migrated.life ∧ (ending [migrated]).rmPending 0 5 = false ∧ Machine.whereOf migrated.ins = .issuer) :=
  ⟨by decide +kernel, by unfold QuietCounter; decide +kernel⟩

/-- An entry whose threshold is reached, of a core whose h0 has exited. -/
theorem witness_NoFiringAfterExit :
    let s := one (regs [(1, 5)]) { counters := [(3, 5)], exited := true };
    s.me.dbit 1 = false ∧ s.home.exited = true ∧ (s.home.counter 3 - 5).toNat < 2 ^ 31 ∧
      ∀ q ∈ s.home.wtt, q.2.ct = 3 → 2 ^ 31 ≤ (s.home.counter 3 - q.2.threshold).toNat := by decide +kernel

/-- Two grants that together pass 3,000 W for more than 10 ms. -/
def lapsed : State :=
  { dies := [(0, { grant := 2000000 }), (1, { grant := 1400000 })]
    host := { clock := 10000006, arbiter := { others := [(12, 100000)], overSince := some 5 } } }

theorem witness_GrantsLapse :
    lapsed.host.arbiter.overSince = some 5 ∧ 5 + 10000000 < lapsed.host.clock ∧ AMap.sorted lapsed.host.arbiter.others = true ∧
      ∀ t, ({ lapsed with host := { lapsed.host with clock := 10000005 } } : State).host.arbiter.overSince = some t →
        ({ lapsed with host := { lapsed.host with clock := 10000005 } } : State).host.clock ≤ t + 10000000 := by
  refine ⟨by decide, by decide, by decide, fun t h => ?_⟩
  cases h
  decide

/-- Node 9 is a module of a job whose kiln runs; window 4, closed and opened again, has packets of both times. -/
def allied : Job := { jobOf [kilnOf 4 .running] with remotes := [9] }
def retiring (closed : Option Nat) : State :=
  fabric { windows := [(4, { v := true, closedAt := none })], ports := [(2, { queue := [{ packetTo false with closed := closed }] })] } 400000

/-- An export of 4 KiB from b on. -/
def opening (b : Nat) : State :=
  { hosted true false false with fab := { exports := [(1, { node := 5, v := true, epoch := 1, base := BitVec.ofNat 48 b, size := 0x1000 })] } }

theorem witness_JobsAndWindows :
    (let s : State := { kilning [] with sys := { (kilning []).sys with jobs := [allied] } };
      s.host.ready = true ∧ s.sys.jobs = [allied] ∧ 9 ∈ allied.remotes ∧ allied.running = some (kilnOf 4 .running) ∧
        (∀ x ∈ allied.kilns, x.state = .running → x = kilnOf 4 .running) ∧ ∀ j ∈ s.sys.jobs, 8 ∉ j.remotes) ∧
    (∀ c ∈ [none, some 0, some 1], let s := retiring c;
      ((s.fab.windows.get {} 4).closedAt = none ∧ ∀ e ∈ s.fab.ports, ∀ k ∈ e.2.queue ++ e.2.retry ++ e.2.flight, k.core ≠ sysParty) ∧
        ((∀ e ∈ s.fab.ports, ∀ k ∈ e.2.queue ++ e.2.retry ++ e.2.flight, k.window = 4 ∧ k.closed = some 0) ↔ c = some 0)) ∧
    (∀ b ∈ [Config.hbmSize, Config.hostBase, Config.peerBase],
      let s := opening b;
      (∃ e ∈ s.fab.exports, (e.2.v = true ∧ e.2.base.toNat ≤ b ∧ b < e.2.base.toNat + e.2.size.toNat) ∧ e.2.node.toNat = 5 ∧ e.2.epoch.toNat = 1) ∧
        s.flat.hostAbsent = [] ∧ AMap.sorted s.fab.exports = true) ∧
    (rangeOf Config.hbmSize = .nothing ∧ rangeOf Config.hostBase = .host 0 ∧ rangeOf Config.peerBase = .peer 0 0) := by
  decide +kernel

theorem opening_calm (b : Nat) : Calm (opening b) := ⟨rfl, by simp [opening, hosted], rfl, rfl⟩

/-- The end of a member's part on the agenda. -/
def parting : State := { one (regs []) with agenda := [.work (.part 0)] }

theorem witness_UnitsWork :
    (∃ (k : Work) (v : State), parting.agenda = .work k :: v.agenda ∧ v = { parting with agenda := v.agenda }) ∧
    (({ engine (oneAdd false) with cycle := 1 } : State).agenda = [] ∧ ({ engine (oneAdd false) with cycle := 1 } : State).choose = .work (.pge 0 5)) :=
  ⟨⟨.part 0, { parting with agenda := [] }, by decide +kernel, by decide +kernel⟩, by decide +kernel⟩

theorem witness_MemoryStaysCanonical : MemOk State.reset ∧ ∃ t, step (State.reset.withFetchWord 64 0x00208C04) = .next t :=
  ⟨memOk_reset, by
    cases h : step (State.reset.withFetchWord 64 0x00208C04) with
    | next t => exact ⟨t, rfl⟩
    | fault f => exact absurd (by rw [h]; rfl) (show ¬ after (step (State.reset.withFetchWord 64 0x00208C04)) (fun _ => true) = false from by decide +kernel)
    | refused r => exact absurd (by rw [h]; rfl) (show ¬ after (step (State.reset.withFetchWord 64 0x00208C04)) (fun _ => true) = false from by decide +kernel)⟩

end Sys2Proof.Tests
end

section
/-! CSRW, register by register (R353): the values that a register's rule makes of sv(a), the laws of CSRW's own checks, and
what each write changes. -/

namespace Sys2Proof

open Sys2Proof.Machine

/-! Fields of a written value. -/

theorem bits_eq_div_mod (n hi lo : Nat) : bits n hi lo = n / 2 ^ lo % 2 ^ (hi - lo + 1) := by
  rw [bits, Nat.shiftRight_eq_div_pow]

/-- A field put into a register of its own width. -/
theorem ofNat_bits (w hi lo : Nat) (hw : w = hi - lo + 1) (n : Nat) :
    BitVec.ofNat w (bits n hi lo) = BitVec.ofNat w (n / 2 ^ lo) := by
  subst hw
  apply BitVec.eq_of_toNat_eq
  rw [BitVec.toNat_ofNat, BitVec.toNat_ofNat, bits_eq_div_mod, Nat.mod_mod]

theorem ofNat_bits_eq_setWidth (w hi lo : Nat) (hw : w = hi - lo + 1) (v : Word64) :
    BitVec.ofNat w (bits v.toNat hi lo) = (v >>> lo).setWidth w := by
  rw [ofNat_bits w hi lo hw]
  apply BitVec.eq_of_toNat_eq
  rw [BitVec.toNat_ofNat, BitVec.toNat_setWidth, BitVec.toNat_ushiftRight, Nat.shiftRight_eq_div_pow]

/-- A field cut out and put back in its place is the value under the field's mask. -/
theorem field_in_place_eq_and (v : Word64) (hi lo : Nat) :
    w64 (bits v.toNat hi lo * 2 ^ lo) = v &&& BitVec.ofNat 64 ((2 ^ (hi - lo + 1) - 1) * 2 ^ lo) := by
  have hnat : bits v.toNat hi lo * 2 ^ lo = v.toNat &&& (2 ^ (hi - lo + 1) - 1) * 2 ^ lo := by
    apply Nat.eq_of_testBit_eq
    intro i
    rw [bits, Nat.testBit_and, Nat.testBit_mul_two_pow, Nat.testBit_mul_two_pow, Nat.testBit_mod_two_pow,
      Nat.testBit_two_pow_sub_one, Nat.testBit_shiftRight]
    by_cases h : lo ≤ i
    · rw [Nat.add_sub_cancel' h]; simp only [h, decide_true, Bool.true_and, Bool.and_comm]
    · simp [h]
  rw [hnat, w64, BitVec.ofNat_and, BitVec.ofNat_toNat, BitVec.setWidth_eq]

/-- DOM2 keeps its four fields and drops the bits between and above them (R85). -/
theorem dom2Value_eq_and (v : Word64) : w64 (v.toNat % 2 ^ 31 - bits v.toNat 15 15 * 2 ^ 15) = v &&& 0x7FFF7FFF := by
  have hsplit : v.toNat % 2 ^ 31 - bits v.toNat 15 15 * 2 ^ 15 =
      2 ^ 16 * (v.toNat / 2 ^ 16 % 2 ^ 15) + v.toNat % 2 ^ 15 := by
    rw [bits_eq_div_mod]; omega
  have hmask : (0x7FFF7FFF : Word64).toNat = 2 ^ 16 * (2 ^ 15 - 1) + (2 ^ 15 - 1) := rfl
  apply BitVec.eq_of_toNat_eq
  rw [hsplit, w64, BitVec.toNat_ofNat, Nat.mod_eq_of_lt (by omega), BitVec.toNat_and, hmask]
  apply Nat.eq_of_testBit_eq
  intro j
  rw [Nat.testBit_and, Nat.testBit_two_pow_mul_add _ (by omega), Nat.testBit_two_pow_mul_add _ (by omega)]
  split
  · rw [Nat.testBit_mod_two_pow, Nat.testBit_two_pow_sub_one, Bool.and_comm]
  · rw [Nat.testBit_mod_two_pow, Nat.testBit_two_pow_sub_one, Nat.testBit_div_two_pow, Nat.sub_add_cancel (by omega),
      Bool.and_comm]

/-- NBTMO and YSTALL: a value below the register's least one is taken as that (R93, R94). -/
theorem raised_to_least (v : Word64) (w least : Nat) :
    (if (v.truncate w : BitVec w).toNat < least then BitVec.ofNat w least else v.truncate w) =
      BitVec.ofNat w (max least (v.toNat % 2 ^ w)) := by
  apply BitVec.eq_of_toNat_eq
  have hv : (v.truncate w : BitVec w).toNat = v.toNat % 2 ^ w := BitVec.toNat_setWidth w v
  split
  · next hlt => rw [Nat.max_eq_left (by omega)]
  · next hge => rw [Nat.max_eq_right (by omega), BitVec.toNat_ofNat, Nat.mod_mod, hv]

/-- INBOX: BASE and LINES take their fields, and a change of either empties the ring (R263). -/
theorem inbox_write_eq (b : Inbox) (v : Word64) :
    b.write v.toNat =
      if v.toNat % 2 ^ 7 = b.base.toNat ∧ v.toNat / 2 ^ 8 % 2 ^ 8 = b.lines.toNat then b
      else { b with base := v.setWidth 7, lines := (v >>> 8).setWidth 8, head := 0, used := 0 } := by
  have hbase : BitVec.ofNat 7 (bits v.toNat 6 0) = v.setWidth 7 := ofNat_bits_eq_setWidth 7 6 0 rfl v
  have hlines : BitVec.ofNat 8 (bits v.toNat 15 8) = (v >>> 8).setWidth 8 := ofNat_bits_eq_setWidth 8 15 8 rfl v
  have hiff : (v.setWidth 7 = b.base ∧ (v >>> 8).setWidth 8 = b.lines) ↔
      (v.toNat % 2 ^ 7 = b.base.toNat ∧ v.toNat / 2 ^ 8 % 2 ^ 8 = b.lines.toNat) := by
    rw [← BitVec.toNat_inj, ← BitVec.toNat_inj (x := (v >>> 8).setWidth 8), BitVec.toNat_setWidth, BitVec.toNat_setWidth,
      BitVec.toNat_ushiftRight, Nat.shiftRight_eq_div_pow]
  simp only [Inbox.write, hbase, hlines, hiff]

/-- FENCERECT: the rectangle of a value, field by field (R306). -/
theorem rectOf_eq (n : Nat) :
    rectOf n = { col0 := BitVec.ofNat 8 n, row0 := BitVec.ofNat 7 (n / 2 ^ 8), width := BitVec.ofNat 8 (n / 2 ^ 16)
                 height := BitVec.ofNat 7 (n / 2 ^ 24), v := bitAt n 31 } := by
  have hcol : BitVec.ofNat 8 (bits n 7 0) = BitVec.ofNat 8 n := by rw [ofNat_bits 8 7 0 rfl, Nat.pow_zero, Nat.div_one]
  rw [rectOf, hcol, ofNat_bits 7 14 8 rfl, ofNat_bits 8 23 16 rfl, ofNat_bits 7 30 24 rfl]

/-- What R306 asks of a valid rectangle: whole clusters, not empty, inside the die. -/
theorem fenceRect_ok_iff (r : FenceRect) (d : Nat) :
    r.ok d = true ↔ r.col0.toNat % 8 = 0 ∧ r.width.toNat % 8 = 0 ∧ 1 ≤ r.width.toNat ∧ 1 ≤ r.height.toNat ∧
      d % 2 * 112 ≤ r.col0.toNat ∧ r.col0.toNat + r.width.toNat ≤ d % 2 * 112 + 112 ∧
      d / 2 * 60 ≤ r.row0.toNat ∧ r.row0.toNat + r.height.toNat ≤ d / 2 * 60 + 60 := by
  have hne : ∀ {w : Nat} (x : BitVec w), x ≠ 0 ↔ 1 ≤ x.toNat := fun x => by
    rw [Nat.one_le_iff_ne_zero, ne_eq, ne_eq, ← BitVec.toNat_inj]; rfl
  rw [FenceRect.ok, decide_eq_true_eq, hne, hne]

/-! The checks of CSRW (R63, R75), and how it ends. -/

/-- A change of the running context's core beside its contexts. -/
theorem onlyMe_modHome_alone (s : State) (f k : Core → Core) (hk : coreRest (f s.home) = k (coreRest s.home))
    (hc : (f s.home).ctxs = s.home.ctxs) : OnlyMe s (s.modHome f) k where
  core := { whole := rfl, others := fun j h => State.modHome_core_other _ _ _ h }
  home := by rw [State.modHome_home, hk]
  ctxs := fun h _ => by rw [State.modHome_home, Core.ctx, hc, Core.ctx]

/-- An instruction that changes the core's own state alone. -/
theorem leaves_modHome (s : State) (npc : Word64) (f k : Core → Core) (hk : coreRest (f s.home) = k (coreRest s.home))
    (hc : (f s.home).ctxs = s.home.ctxs) : Leaves s (finish s npc (.ok (s.modHome f))) npc id k := by
  refine gives_finish (onlyMe_modHome_alone s f k hk hc) rfl rfl ?_ ?_ ?_ ?_
  all_goals rw [me_modHome s f hc]
  · exact setsReg_none _ _ rfl
  · rfl

/-- The register is one that the running context may write (R63). -/
def CsrAllowed (s : State) (csr : BitVec 12) : Prop := csr.toNat < 0x100 ∨ s.me.sup = true

section
variable {a : Reg} {csr : BitVec 12} {s : State}

theorem csrPriv_ok (hp : CsrAllowed s csr) : csrPriv s.me csr.toNat = .ok () := by
  unfold csrPriv
  split
  · next h =>
    have hs : s.me.sup = true := hp.resolve_left (Nat.not_lt.mpr h)
    rw [needSup, if_pos hs]
  · rfl

theorem csrPriv_trap (hs : s.me.sup = false) (hn : 0x100 ≤ csr.toNat) :
    csrPriv s.me csr.toNat = .error (.trap 5 s.me.pc) := by
  rw [csrPriv, if_pos hn, needSup, hs]; rfl

theorem exec_csrw (a : Reg) (csr : BitVec 12) (s : State) : exec (.csrw a csr) s = execCsrw a csr s := rfl

/-- A CSRW that passes its checks ends as the register's own rule says. -/
theorem csrw_eq (hd : s.me.dbit a.val = false) (hp : CsrAllowed s csr) :
    exec (.csrw a csr) s = finish s (s.me.pc + 8) (s.writeCsr csr.toNat (s.me.sv a.val)) := by
  rw [exec_csrw, execCsrw, csrPriv_ok hp, need_ok hd]; rfl

/-- A supervisor register in user mode (R63). -/
theorem csrw_user_traps (hh : HasHandler s) (hs : s.me.sup = false) (hn : 0x100 ≤ csr.toNat) :
    Traps s (exec (.csrw a csr) s) 5 s.me.pc := by
  rw [exec_csrw, execCsrw, csrPriv_trap hs hn]
  exact traps_finish s _ _ _ hh

/-- A write of a register of the context. -/
theorem csrw_leaves_ctx {f g : Ctx → Ctx} (hd : s.me.dbit a.val = false) (hp : CsrAllowed s csr)
    (hw : s.writeCsr csr.toNat (s.me.sv a.val) = .ok (s.modMe f)) (hregs : (f s.me).sregs = s.me.sregs)
    (hrest : ctxRest (f s.me) = g (ctxRest s.me)) (hleft : (f s.me).left = s.me.left)
    (hwait : (f s.me).waitSince = s.me.waitSince) :
    Leaves s (exec (.csrw a csr) s) (s.me.pc + 8) g id := by
  rw [csrw_eq hd hp, hw]
  exact gives_modMe s _ 0 0 false f g hregs hrest hleft hwait

/-- A write of a register of the core. -/
theorem csrw_leaves_core {f k : Core → Core} (hd : s.me.dbit a.val = false) (hp : CsrAllowed s csr)
    (hw : s.writeCsr csr.toNat (s.me.sv a.val) = .ok (s.modHome f)) (hk : coreRest (f s.home) = k (coreRest s.home))
    (hc : (f s.home).ctxs = s.home.ctxs) :
    Leaves s (exec (.csrw a csr) s) (s.me.pc + 8) id k := by
  rw [csrw_eq hd hp, hw]
  exact leaves_modHome s _ f k hk hc

/-- A write of a register of the system die. -/
theorem csrw_leaves_sys {y : SysDie} (hd : s.me.dbit a.val = false) (hp : CsrAllowed s csr)
    (hw : s.writeCsr csr.toNat (s.me.sv a.val) = .ok { s with sys := y }) :
    Leaves { s with sys := y } (exec (.csrw a csr) s) (s.me.pc + 8) id id := by
  rw [csrw_eq hd hp, hw]
  exact leaves_nothing { s with sys := y } _

/-- A write that the register's own rule refuses. -/
theorem csrw_refused {n : Word64} (hd : s.me.dbit a.val = false) (hp : CsrAllowed s csr) (hh : HasHandler s)
    (hw : s.writeCsr csr.toNat (s.me.sv a.val) = .error (.trap causeProt n)) :
    Traps s (exec (.csrw a csr) s) 10 n := by
  rw [csrw_eq hd hp, hw]
  exact traps_finish s _ _ _ hh

end

/-! The registers whose rules adjust or refuse a value. -/

section
variable {a : Reg} {s : State} (hd : s.me.dbit a.val = false)
include hd

theorem csrw_kstat :
    Leaves s (exec (.csrw a 0x022) s) (s.me.pc + 8) id
      (fun c => { c with rb := if (s.me.sv a.val).getLsbD 17 then false else c.rb }) := by
  refine csrw_leaves_core hd (.inl (by decide)) rfl ?_ rfl
  cases h : (s.me.sv a.val).getLsbD 17 <;> simp [coreRest]

theorem csrw_nbtmo :
    Leaves s (exec (.csrw a 0x024) s) (s.me.pc + 8)
      (fun x => { x with nbtmo := BitVec.ofNat 16 (max 16 ((s.me.sv a.val).toNat % 2 ^ 16)) }) id := by
  refine csrw_leaves_ctx hd (.inl (by decide)) rfl rfl ?_ rfl rfl
  simp only [← raised_to_least (s.me.sv a.val) 16 16]
  rfl

theorem csrw_ystall :
    Leaves s (exec (.csrw a 0x02A) s) (s.me.pc + 8)
      (fun x => { x with ystall := BitVec.ofNat 32 (max 0x10000 ((s.me.sv a.val).toNat % 2 ^ 32)) }) id := by
  refine csrw_leaves_ctx hd (.inl (by decide)) rfl rfl ?_ rfl rfl
  simp only [← raised_to_least (s.me.sv a.val) 32 0x10000]
  rfl

theorem csrw_inbox (hfit : (s.me.sv a.val).toNat % 2 ^ 7 + (s.me.sv a.val).toNat / 2 ^ 8 % 2 ^ 8 ≤ 128) :
    let v := s.me.sv a.val
    Leaves s (exec (.csrw a 0x026) s) (s.me.pc + 8) id (fun c => { c with inbox :=
      if v.toNat % 2 ^ 7 = c.inbox.base.toNat ∧ v.toNat / 2 ^ 8 % 2 ^ 8 = c.inbox.lines.toNat then c.inbox
      else { c.inbox with base := v.setWidth 7, lines := (v >>> 8).setWidth 8, head := 0, used := 0 } }) := by
  refine csrw_leaves_core (f := fun c => { c with inbox := c.inbox.write (s.me.sv a.val).toNat }) hd (.inl (by decide))
    (if_neg ?_) ?_ rfl
  · simpa [bits_eq_div_mod] using hfit
  · simp only [inbox_write_eq]; rfl

theorem csrw_inbox_refused (hh : HasHandler s)
    (hbig : 128 < (s.me.sv a.val).toNat % 2 ^ 7 + (s.me.sv a.val).toNat / 2 ^ 8 % 2 ^ 8) :
    Traps s (exec (.csrw a 0x026) s) 10 0x026 := by
  refine csrw_refused hd (.inl (by decide)) hh (if_pos ?_)
  simpa [bits_eq_div_mod] using hbig

theorem csrw_dom2 (hphase : s.home.phase.open' = false) (hok : s.home.dom2Ok (s.me.sv a.val).toNat = true) :
    Leaves s (exec (.csrw a 0x019) s) (s.me.pc + 8) id (fun c => { c with dom2 := s.me.sv a.val &&& 0x7FFF7FFF }) := by
  refine csrw_leaves_core (f := fun c => { c with dom2 := _ }) hd (.inl (by decide)) (if_neg ?_) ?_ rfl
  · simp [hphase, hok]
  · simp only [dom2Value_eq_and]; rfl

theorem csrw_tvec (hs : s.me.sup = true) :
    Leaves s (exec (.csrw a 0x104) s) (s.me.pc + 8) id
      (fun c => { c with tvec := s.me.sv a.val &&& 0x000FFFFFFFFFFFFC }) := by
  refine csrw_leaves_core hd (.inr hs) rfl ?_ rfl
  simp only [field_in_place_eq_and]; rfl

theorem csrw_ptbase (hs : s.me.sup = true) :
    Leaves s (exec (.csrw a 0x106) s) (s.me.pc + 8) id
      (fun c => { c with ptbase := s.me.sv a.val &&& 0x0000FFFFFFFF0000 }) := by
  refine csrw_leaves_core hd (.inr hs) rfl ?_ rfl
  simp only [field_in_place_eq_and]; rfl

theorem csrw_wttBase (hs : s.me.sup = true) :
    Leaves { s with sys := { s.sys with wttBase := (s.me.sv a.val >>> 14).setWidth 38 } } (exec (.csrw a 0x108) s)
      (s.me.pc + 8) id id := by
  rw [← ofNat_bits_eq_setWidth 38 51 14 rfl]
  exact csrw_leaves_sys hd (.inr hs) rfl

theorem csrw_evovf (hs : s.me.sup = true) :
    Leaves { s with sys := { s.sys with evovf := (s.me.sv a.val >>> 12).setWidth 40 } } (exec (.csrw a 0x10A) s)
      (s.me.pc + 8) id id := by
  rw [← ofNat_bits_eq_setWidth 40 51 12 rfl]
  exact csrw_leaves_sys hd (.inr hs) rfl

/-- FENCERECT sets the entry that IDX names on the core's die, and later reads show that entry (R306). -/
theorem csrw_fencerect (hs : s.me.sup = true)
    (hok : (rectOf (s.me.sv a.val).toNat).v = false ∨ (rectOf (s.me.sv a.val).toNat).ok (dieOf s.curCore) = true) :
    let i := bits (s.me.sv a.val).toNat 37 32
    Leaves (s.modDie (dieOf s.curCore) (fun x => { x with fences := x.fences.set {} i (rectOf (s.me.sv a.val).toNat) }))
      (exec (.csrw a 0x109) s) (s.me.pc + 8) id (fun c => { c with fenceIdx := BitVec.ofNat 6 i }) := by
  have hw : s.writeCsr (0x109 : BitVec 12).toNat (s.me.sv a.val) = .ok _ := if_neg fun ⟨hv, hn⟩ => by
    rcases hok with h | h
    · rw [h] at hv; cases hv
    · rw [h] at hn; cases hn
  rw [csrw_eq hd (.inr hs), hw]
  exact leaves_modHome _ _ _ _ rfl rfl

theorem csrw_fencerect_refused (hs : s.me.sup = true) (hh : HasHandler s)
    (hbad : (rectOf (s.me.sv a.val).toNat).v = true ∧ (rectOf (s.me.sv a.val).toNat).ok (dieOf s.curCore) = false) :
    Traps s (exec (.csrw a 0x109) s) 10 0x109 :=
  csrw_refused hd (.inr hs) hh (if_pos hbad)

end

/-- Settles O26: each register from the law of the level it belongs to, and FENCERECT from the two sides of R306's check. -/
theorem controlRegisterWrites : Obligations.ControlRegisterWrites := by
  unfold Obligations.ControlRegisterWrites
  refine ⟨fun a s hd => ?_, fun a s hd hs => ?_⟩
  · refine ⟨?lstat, csrw_kstat hd, csrw_nbtmo hd, ?pub, ?frm, ?istat, csrw_ystall hd, ?seed, csrw_inbox hd,
      csrw_inbox_refused hd, csrw_dom2 hd, ?dom2Refused, fun hs => ?supervisor, fun hs hh csr => csrw_user_traps hh hs⟩
    case lstat => exact csrw_leaves_ctx hd (.inl (by decide)) rfl rfl rfl rfl rfl
    case pub => exact csrw_leaves_core hd (.inl (by decide)) rfl rfl rfl
    case frm => exact csrw_leaves_ctx hd (.inl (by decide)) rfl rfl rfl rfl rfl
    case istat => exact csrw_leaves_ctx hd (.inl (by decide)) rfl rfl rfl rfl rfl
    case seed => exact csrw_leaves_ctx hd (.inl (by decide)) rfl rfl rfl rfl rfl
    case dom2Refused => exact fun hh hbad => csrw_refused hd (.inl (by decide)) hh (if_pos hbad)
    case supervisor =>
      exact ⟨csrw_leaves_ctx hd (.inr hs) rfl rfl rfl rfl rfl, csrw_leaves_ctx hd (.inr hs) rfl rfl rfl rfl rfl,
        csrw_leaves_ctx hd (.inr hs) rfl rfl rfl rfl rfl, csrw_leaves_ctx hd (.inr hs) rfl rfl rfl rfl rfl,
        csrw_tvec hd hs, csrw_ptbase hd hs, csrw_leaves_core hd (.inr hs) rfl rfl rfl, csrw_wttBase hd hs, csrw_evovf hd hs⟩
  · intro v r d i whole
    have hr : rectOf v = r := rectOf_eq v
    have hi : bits v 37 32 = i := bits_eq_div_mod v 37 32
    have hwhole : (rectOf v).ok (dieOf s.curCore) = true ↔ whole := hr ▸ fenceRect_ok_iff r d
    constructor
    · intro hok
      have h := csrw_fencerect hd hs (hok.imp (hr ▸ ·) hwhole.mpr)
      rwa [hr, hi] at h
    · intro hh hv hnot
      exact csrw_fencerect_refused hd hs hh ⟨hr ▸ hv, Bool.eq_false_iff.mpr (mt hwhole.mp hnot)⟩

end Sys2Proof
end

section
/-! The state after reset (R332, R333): every sparse family of State.reset is unlisted, so that a reader answers its default. -/

namespace Sys2Proof

open Sys2Proof.Machine

/-- Guard 0 is true always, the others are so at reset (R179). -/
theorem guard_fresh (g : Nat) : ({} : Core).guard g = .tru := by
  unfold Core.guard
  split <;> rfl

theorem store_fresh (sp : Space) (a : Nat) : (({} : Core).store sp).get a = 0 := by
  cases sp <;> rfl

theorem sv_fresh (r : Nat) : ({} : Ctx).sv r = 0 := by
  unfold Ctx.sv
  split <;> rfl

theorem dbit_fresh (r : Nat) : ({} : Ctx).dbit r = false := by
  unfold Ctx.dbit
  split <;> rfl

/-- A store without a poisoned sector holds no poison anywhere (R133). -/
theorem poisonedIn_nil (a n : Nat) : poisonedIn [] a n = false := by
  unfold poisonedIn
  rw [List.any_eq_false]
  exact fun _ _ => Bool.false_ne_true

/-- Settles O53: each level of the state at its default, and memory by `memOk_reset`. -/
theorem resetState : Obligations.ResetState := by
  unfold Obligations.ResetState
  refine ⟨rfl, rfl, rfl, rfl, rfl, rfl, rfl, fun _ => rfl, poisonedIn_nil, fun _ _ => rfl, fun _ => store_fresh, fun _ _ => rfl,
    fun _ => guard_fresh, fun _ _ => rfl, fun _ _ => ?context, fun _ _ => ⟨rfl, rfl, rfl⟩, fun _ _ => rfl, fun _ => rfl, fun _ => rfl,
    rfl, rfl, fun _ _ => rfl, fun _ _ => rfl, memOk_reset⟩
  case context => exact ⟨fun r => ⟨sv_fresh r, dbit_fresh r⟩, rfl, rfl, rfl, rfl, rfl, rfl, rfl, rfl, rfl⟩

end Sys2Proof
end

section
/-! CSRR, register by register (R353): its checks, and where the fields of a packed register stand. -/

namespace Sys2Proof

open Sys2Proof.Machine

theorem bitAt_eq_div_mod (n i : Nat) : bitAt n i = decide (n / 2 ^ i % 2 = 1) := Nat.testBit_eq_decide_div_mod_eq

theorem b2n_lt_two (b : Bool) : b2n b < 2 := by cases b <;> decide

theorem decide_b2n (b : Bool) : decide (b2n b = 1) = b := by cases b <;> rfl

theorem bitAt_eq_flag {n i : Nat} {b : Bool} (h : n / 2 ^ i % 2 = b2n b) : bitAt n i = b := by
  rw [bitAt_eq_div_mod, h, decide_b2n]

theorem toNat_w64 {n : Nat} (h : n < 2 ^ 64) : (w64 n).toNat = n := by
  rw [w64, BitVec.toNat_ofNat, Nat.mod_eq_of_lt h]

section
variable {d : Reg} {csr : BitVec 12} {s : State}

theorem exec_csrr (d : Reg) (csr : BitVec 12) (s : State) : exec (.csrr d csr) s = execCsrr d csr s := rfl

theorem csrr_writes (hp : CsrAllowed s csr) :
    Writes s (exec (.csrr d csr) s) (s.me.pc + 8) d.val (s.csr csr.toNat) false := by
  rw [exec_csrr, execCsrr, csrPriv_ok hp]
  exact writes_setS _ _ _ _ _

/-- A supervisor register in user mode (R63). -/
theorem csrr_user_traps (hn : 0x100 ≤ csr.toNat) (hs : s.me.sup = false) (hh : HasHandler s) :
    Traps s (exec (.csrr d csr) s) 5 s.me.pc := by
  rw [exec_csrr, execCsrr, csrPriv_trap hs hn]
  exact traps_finish s _ _ _ hh

end

/-! The number that a packed register holds: the sum of its fields at their places, which 64 bits hold. -/

theorem toNat_meshXy {c : Nat} (h : c < 26880) :
    (meshXy c).toNat = c % 224 + c / 224 * 2 ^ 8 + (c / 224 / 60 * 2 + c % 224 / 112) * 2 ^ 16 +
      (c / 224 * 28 + c % 224 / 8) * 2 ^ 18 + c % 224 % 8 * 2 ^ 30 := by
  simp only [meshXy, colOf, rowOf, dieOf, clusterOf, sliceOf]
  exact toNat_w64 (by omega)

theorem toNat_vlanes (x : Ctx) : x.vlanes.toNat = x.vcount.val + x.vreq.toNat * 2 ^ 8 :=
  toNat_w64 (by have := x.vcount.isLt; have := x.vreq.isLt; omega)

theorem toNat_inbox (b : Inbox) :
    b.word64.toNat = b.base.toNat + b.lines.toNat * 2 ^ 8 + b.head.toNat * 2 ^ 16 + b.used.toNat * 2 ^ 32 + b.drop.toNat * 2 ^ 48 :=
  toNat_w64 (by
    have := b.base.isLt; have := b.lines.isLt; have := b.head.isLt; have := b.used.isLt; have := b.drop.isLt
    omega)

theorem toNat_repidx (r : Rep) :
    r.word64.toNat = r.iter.toNat + r.word.toNat * 2 ^ 16 + r.len.toNat * 2 ^ 20 + r.stride.toNat * 2 ^ 25 + b2n r.active * 2 ^ 29 +
      r.cnt.toNat * 2 ^ 32 :=
  toNat_w64 (by
    have := r.iter.isLt; have := r.word.isLt; have := r.len.isLt; have := r.stride.isLt; have := b2n_lt_two r.active
    have := r.cnt.isLt
    omega)

theorem toNat_kstat (x : Core) :
    x.kstat.toNat = x.knum.toNat + x.knum.toNat % 2 * 2 ^ 16 + b2n x.rb * 2 ^ 17 + x.rbk.toNat * 2 ^ 32 :=
  toNat_w64 (by have := x.knum.isLt; have := b2n_lt_two x.rb; have := x.rbk.isLt; omega)

theorem toNat_status (x : Ctx) : x.status.toNat = b2n x.sup + b2n x.psup * 2 + b2n x.nest * 4 :=
  toNat_w64 (by have := b2n_lt_two x.sup; have := b2n_lt_two x.psup; have := b2n_lt_two x.nest; omega)

theorem toNat_fenceRect (r : FenceRect) (i : BitVec 6) :
    (r.word64 i).toNat = r.col0.toNat + r.row0.toNat * 2 ^ 8 + r.width.toNat * 2 ^ 16 + r.height.toNat * 2 ^ 24 + b2n r.v * 2 ^ 31 +
      i.toNat * 2 ^ 32 :=
  toNat_w64 (by
    have := r.col0.isLt; have := r.row0.isLt; have := r.width.isLt; have := r.height.isLt; have := b2n_lt_two r.v; have := i.isLt
    omega)

theorem toNat_wtt (y : SysDie) :
    (w64 (y.wttNext.toNat + y.wttBase.toNat * 2 ^ 14)).toNat = y.wttNext.toNat + y.wttBase.toNat * 2 ^ 14 :=
  toNat_w64 (by have := y.wttNext.isLt; have := y.wttBase.isLt; omega)

theorem toNat_evovf (y : SysDie) : (w64 (y.evovf.toNat * 2 ^ 12)).toNat = y.evovf.toNat * 2 ^ 12 :=
  toNat_w64 (by have := y.evovf.isLt; omega)

/-- A context that does not wait counts one instruction of its window, and the CSRR that reads YBUDGET is that one (R91). -/
theorem counted_add_one {x : Ctx} (h : x.waitSince = none) : x.counted + 1 = x.left := by
  rw [Ctx.counted, h, Option.isNone_none, if_pos rfl, BitVec.sub_add_cancel]

theorem toNat_ybudget {x : Ctx} (h : x.waitSince = none) : x.ybudget.toNat = x.budget.toNat + x.left.toNat * 2 ^ 8 := by
  rw [Ctx.ybudget, counted_add_one h]
  exact toNat_w64 (by have := x.budget.isLt; have := x.left.isLt; omega)

/-! The fields of each. -/

theorem meshXy_fields {c : Nat} (h : c < 26880) :
    let v := (meshXy c).toNat
    bits v 7 0 = c % 224 ∧ bits v 14 8 = c / 224 ∧ bits v 17 16 = c / 224 / 60 * 2 + c % 224 / 112 ∧
      bits v 29 18 = c / 224 * 28 + c % 224 / 8 ∧ bits v 32 30 = c % 8 := by
  have hcol : c % 224 < 224 := Nat.mod_lt c (by decide)
  have hrow : c / 224 < 120 := Nat.div_lt_of_lt_mul h
  have hdie : c / 224 / 60 * 2 + c % 224 / 112 < 4 := by omega
  have hclu : c / 224 * 28 + c % 224 / 8 < 3360 := by omega
  simp only [toNat_meshXy h, bits_eq_div_mod, Nat.mod_mod_of_dvd c (show 8 ∣ 224 by decide)]
  generalize c / 224 / 60 * 2 + c % 224 / 112 = die at *
  generalize c / 224 * 28 + c % 224 / 8 = clu at *
  generalize c % 224 = col at *
  generalize c / 224 = row at *
  have hslice : c % 8 < 8 := Nat.mod_lt c (by decide)
  generalize c % 8 = slice at *
  omega

theorem vlanes_fields (x : Ctx) :
    let v := x.vlanes.toNat
    bits v 6 0 = x.vcount.val ∧ bitAt v 7 = false ∧ bits v 14 8 = x.vreq.toNat ∧ bits v 63 15 = 0 := by
  have := x.vcount.isLt; have := x.vreq.isLt
  simp only [toNat_vlanes, bits_eq_div_mod, bitAt_eq_div_mod, decide_eq_false_iff_not]
  omega

theorem inbox_fields (b : Inbox) :
    let v := b.word64.toNat
    bits v 6 0 = b.base.toNat ∧ bitAt v 7 = false ∧ bits v 15 8 = b.lines.toNat ∧ bits v 30 16 = b.head.toNat ∧
      bitAt v 31 = false ∧ bits v 47 32 = b.used.toNat ∧ bits v 63 48 = b.drop.toNat := by
  have := b.base.isLt; have := b.lines.isLt; have := b.head.isLt; have := b.used.isLt; have := b.drop.isLt
  simp only [toNat_inbox, bits_eq_div_mod, bitAt_eq_div_mod, decide_eq_false_iff_not]
  omega

theorem repidx_fields (r : Rep) :
    let v := r.word64.toNat
    bits v 15 0 = r.iter.toNat ∧ bits v 19 16 = r.word.toNat ∧ bits v 24 20 = r.len.toNat ∧ bits v 28 25 = r.stride.toNat ∧
      bitAt v 29 = r.active ∧ bits v 31 30 = 0 ∧ bits v 47 32 = r.cnt.toNat ∧ bits v 63 48 = 0 := by
  have := r.iter.isLt; have := r.word.isLt; have := r.len.isLt; have := r.stride.isLt; have := b2n_lt_two r.active
  have := r.cnt.isLt
  have flag : bitAt r.word64.toNat 29 = r.active := bitAt_eq_flag (by rw [toNat_repidx]; omega)
  refine ⟨?_, ?_, ?_, ?_, flag, ?_, ?_, ?_⟩
  all_goals simp only [toNat_repidx, bits_eq_div_mod]; omega

theorem wtt_fields (y : SysDie) :
    let v := (w64 (y.wttNext.toNat + y.wttBase.toNat * 2 ^ 14)).toNat
    bits v 13 0 = y.wttNext.toNat ∧ bits v 51 14 = y.wttBase.toNat ∧ bits v 63 52 = 0 := by
  have := y.wttNext.isLt; have := y.wttBase.isLt
  simp only [toNat_wtt, bits_eq_div_mod]
  omega

theorem fenceRect_fields (r : FenceRect) (i : BitVec 6) :
    let v := (r.word64 i).toNat
    bits v 7 0 = r.col0.toNat ∧ bits v 14 8 = r.row0.toNat ∧ bitAt v 15 = false ∧ bits v 23 16 = r.width.toNat ∧
      bits v 30 24 = r.height.toNat ∧ bitAt v 31 = r.v ∧ bits v 37 32 = i.toNat ∧ bits v 63 38 = 0 := by
  have := r.col0.isLt; have := r.row0.isLt; have := r.width.isLt; have := r.height.isLt; have := b2n_lt_two r.v; have := i.isLt
  have flag : bitAt (r.word64 i).toNat 31 = r.v := bitAt_eq_flag (by rw [toNat_fenceRect]; omega)
  refine ⟨?_, ?_, ?_, ?_, ?_, flag, ?_, ?_⟩
  all_goals simp only [toNat_fenceRect, bits_eq_div_mod, bitAt_eq_div_mod, decide_eq_false_iff_not]; omega

theorem evovf_fields (y : SysDie) :
    let v := (w64 (y.evovf.toNat * 2 ^ 12)).toNat
    bits v 11 0 = 0 ∧ bits v 51 12 = y.evovf.toNat ∧ bits v 63 52 = 0 := by
  have := y.evovf.isLt
  simp only [toNat_evovf, bits_eq_div_mod]
  omega

theorem status_fields (x : Ctx) :
    let v := x.status.toNat
    bitAt v 0 = x.sup ∧ bitAt v 1 = x.psup ∧ bitAt v 2 = x.nest ∧ bits v 63 3 = 0 := by
  have := b2n_lt_two x.sup; have := b2n_lt_two x.psup; have := b2n_lt_two x.nest
  refine ⟨bitAt_eq_flag ?_, bitAt_eq_flag ?_, bitAt_eq_flag ?_, ?_⟩
  all_goals simp only [toNat_status, bits_eq_div_mod]; omega

theorem ybudget_fields {x : Ctx} (h : x.waitSince = none) :
    let v := x.ybudget.toNat
    bits v 7 0 = x.budget.toNat ∧ bits v 23 8 = x.left.toNat ∧ bits v 63 24 = 0 := by
  have := x.budget.isLt; have := x.left.isLt
  simp only [toNat_ybudget h, bits_eq_div_mod]
  omega

theorem kstat_fields (x : Core) :
    let v := x.kstat.toNat
    bits v 15 0 = x.knum.toNat ∧ bits v 16 16 = x.knum.toNat % 2 ∧ bitAt v 17 = x.rb ∧ bits v 47 32 = x.rbk.toNat := by
  have := x.knum.isLt; have := b2n_lt_two x.rb; have := x.rbk.isLt
  have hcol : x.knum.toNat % 2 < 2 := Nat.mod_lt _ (by decide)
  refine ⟨?_, ?_, bitAt_eq_flag ?_, ?_⟩
  all_goals
    simp only [toNat_kstat, bits_eq_div_mod]
    generalize x.knum.toNat % 2 = col at *
    omega

/-- Settles O25: CSRR by its check, and each packed register by the number that it holds. -/
theorem readControlRegisters : Obligations.ReadControlRegisters := by
  unfold Obligations.ReadControlRegisters
  intro d csr s
  refine ⟨csrr_writes, csrr_user_traps, meshXy_fields, ?plain, vlanes_fields _, inbox_fields _, repidx_fields _, wtt_fields _,
    fenceRect_fields _ _, evovf_fields _, status_fields _, fun hw _ => ybudget_fields hw, kstat_fields _⟩
  case plain =>
    have wide {w : Nat} (x : BitVec w) (h : w ≤ 64 := by decide) : (x.zeroExtend 64 : Word64).toNat = x.toNat :=
      BitVec.toNat_setWidth_of_le h
    exact ⟨rfl, wide _, rfl, rfl, rfl, rfl, rfl, rfl, rfl, rfl, wide _, wide _, rfl, wide _, wide _, wide _, wide _, rfl, rfl, rfl, rfl,
      rfl, rfl, wide _⟩

end Sys2Proof
end

section
/-! The end of a kiln in a state where two jobs have a core in common (R280, R256, R283, R289). -/

namespace Sys2Proof

open Sys2Proof.Machine

/-- Kiln 4, whose every core has cut, and the job that it belongs to. -/
def endingKiln : Kiln := { num := 4, base := true, state := .running }
def endingJob : Job := { asid := 0, desc := 0x1000, mbase := 0x100000, msize := 0x100000, last := 4, kilns := [endingKiln] }

/-- A job of address space 1 whose kiln 9 runs. Its page pool of 1 MiB has no place for the copy of a page of 2 MiB. -/
def poorJob : Job :=
  { asid := 1, desc := 0x2000, mbase := 0x100000, msize := 0x100000, last := 9
    kilns := [{ num := 9, base := true, state := .running }] }

/-- Both jobs have a team on cores 0 to 7. Queue 0 lies in address space 1, at 0x800 (its CONFIG, at physical 0x400808, says that
it is armed), and has no handler for the notice of a kiln's end. -/
def sharedCores : State :=
  { cores := (upFrom 0 8).map (fun c => (c, { team := some 1, knum := 4 }))
    flat := { hbm := writeCells [] (tableCells ++ [(0x400808, leBytes 8 0x10000)]) }
    sys := {
      spaces := [(0, { ptbase := 0x100000 }), (1, { ptbase := 0x100000 })]
      teams := [smallTeam, { smallTeam with id := 2, asid := 1 }]
      queues := [{ num := 0, header := 0x800, asid := 1, n := 0 }]
      jobs := [endingJob, poorJob] } }

/-- No job of the state has two running kilns. -/
theorem sharedCores_oneRunning : ∀ j ∈ sharedCores.sys.jobs, ∀ x ∈ j.kilns, ∀ y ∈ j.kilns,
    x.state = .running → y.state = .running → x = y := by decide +kernel

/-- The part of kiln 4 in this module is whole. -/
theorem sharedCores_whole : ∀ t ∈ sharedCores.sys.teams, t.asid = 0 →
    t.phase = .running ∧ ∀ d ∈ t.cores, sharedCores.coreWhole endingKiln d = true := by decide +kernel

/-- Kiln 4 ends, and its notice is dropped. NDROP of queue 0 counts that in a page which kiln 9 has no copy of and no room to copy:
kiln 9 aborts, and core 0 takes that abort as a cut for it. -/
theorem sharedCores_ends {u : State} (h : exec (.kilnComplete 0) sharedCores = .next u) : (u.core 0).knum = 9 := by
  have run : (match exec (.kilnComplete 0) sharedCores with
      | .next t => decide ((t.core 0).knum = 9)
      | _ => false) = true := by decide +kernel
  rw [h] at run
  exact of_decide_eq_true run

/-- Refutes O41: a kiln that ends does not leave every core of its job with its number in KNUM where a team of another job has the
core too. The notice of the end is dropped, the count of it aborts that other job's kiln, and the abort cuts the core anew. -/
theorem not_kilnController : ¬ Obligations.KilnController := by
  unfold Obligations.KilnController
  intro h
  obtain ⟨-, -, -, -, -, completes, -, -⟩ := h 0 0 sharedCores sharedCores_oneRunning
  obtain ⟨-, ends⟩ := completes endingJob endingKiln rfl rfl rfl sharedCores_whole (by decide)
  obtain ⟨u, hu, -, hcut⟩ := ends (.inl rfl) rfl
  have four : (u.core 0).knum = 4 := hcut 0 (by decide)
  have nine : (u.core 0).knum = 9 := sharedCores_ends hu
  exact absurd (four.symm.trans nine) (by decide)

end Sys2Proof
end

section
/-! LFORK and LFORK.af (R159 to R163): what a fork makes of an address space, what it comes to with no kiln to compare with, and
how the two instructions end. -/

namespace Sys2Proof

open Sys2Proof.Machine

/-! Address spaces. -/

theorem node_modNode (sp : AddrSpace) (i j : Nat) (f : Node → Node) :
    (sp.modNode i f).node j = if j = i then f (sp.node i) else sp.node j := by
  rw [AddrSpace.node, AddrSpace.modNode, AMap.get_put]
  exact if_congr eq_comm rfl rfl

/-- An address space whose nodes are those of f, and which differs from sp in nodes and heap use alone. -/
def Grown (sp sp' : AddrSpace) (f : Nat → Node) : Prop :=
  sp' = { sp with nodes := sp'.nodes, heapUsed := sp'.heapUsed } ∧ ∀ j, sp'.node j = f j

theorem Grown.gens {sp sp' : AddrSpace} {f : Nat → Node} (h : Grown sp sp' f) : sp'.gens = sp.gens := by rw [h.1]

/-- A new node changes no generation, so that an index keeps its handle. -/
theorem Grown.handleOf {sp sp' : AddrSpace} {f : Nat → Node} (h : Grown sp sp' f) (i : Nat) : sp'.handleOf i = sp.handleOf i := by
  rw [AddrSpace.handleOf, AddrSpace.gen, h.gens]; rfl

theorem Grown.modNode {sp sp' : AddrSpace} {f : Nat → Node} (h : Grown sp sp' f) (i : Nat) (g : Node → Node) :
    Grown sp (sp'.modNode i g) (fun j => if j = i then g (f i) else f j) := by
  refine ⟨?_, fun j => ?_⟩
  · conv_lhs => rw [h.1]
    rfl
  · rw [node_modNode, h.2, h.2]

/-- What every step of a fold that may fail keeps, the fold keeps. -/
theorem foldl_bind_keeps {α β : Type} {P : α → Prop} {f : α → β → Option α} (hstep : ∀ b u w, P u → f u b = some w → P w) (l : List β) :
    ∀ {o : Option α} {w : α}, (∀ u, o = some u → P u) → l.foldl (fun o b => o.bind (fun u => f u b)) o = some w → P w := by
  induction l with
  | nil => exact fun ho hw => ho _ hw
  | cons b l ih =>
    refine fun ho hw => ih (fun u hu => ?_) hw
    obtain ⟨x, hx, hu⟩ := Option.bind_eq_some_iff.mp hu
    exact hstep b x u (ho x hx) hu

/-- The room of a map comes from the heap alone (R156). -/
theorem takeMap_grown {sp t : AddrSpace} {nb : Nat} (h : sp.takeMap nb = some t) : Grown sp t sp.node := by
  refine foldl_bind_keeps (P := fun u => Grown sp u sp.node) (fun ch u w hu hw => ?_) _ ?_ h
  · obtain ⟨-, hw⟩ := Option.ite_none_right_eq_some.mp hw
    cases hw
    refine ⟨?_, hu.2⟩
    conv_lhs => rw [hu.1]
    rfl
  · rintro u ⟨⟩
    exact ⟨rfl, fun _ => rfl⟩

/-- The index that a register's value names is its handle's, no null one, and that of a node in use (R148). -/
theorem named_index {sp : AddrSpace} {v : Word64} {p : Nat} (h : sp.named v = some p) :
    handleIdx (v.setWidth 32) = p ∧ p ≠ 0 ∧ (sp.node p).state ≠ .free := by
  unfold AddrSpace.named at h
  obtain ⟨-, h⟩ := Option.ite_none_left_eq_some.mp h
  unfold AddrSpace.valid at h
  obtain ⟨⟨-, hne, hstate, -⟩, hp⟩ := Option.ite_none_right_eq_some.mp h
  cases hp
  exact ⟨rfl, hne, fun hfree => by rw [hfree] at hstate; cases hstate⟩

/-! The new node in its address space (R48, R163). -/

theorem addNode_grows {sp : AddrSpace} {n : Node} (i : Nat) (h : (sp.takeMap n.blocks).isSome = true) :
    ∃ sp', sp.addNode i n = some sp' ∧
      Grown sp sp' (fun j => if j = i then { n with handle := sp.handleOf i } else sp.node j) := by
  obtain ⟨t, ht⟩ := Option.isSome_iff_exists.mp h
  have hg := takeMap_grown ht
  refine ⟨_, by rw [AddrSpace.addNode, ht]; rfl, ?_⟩
  rw [← hg.handleOf i]
  exact hg.modNode i _

theorem fork_none {sp : AddrSpace} (n : Node) (h : sp.freeIdx = none) : sp.fork n = none := by
  rw [AddrSpace.fork, h]

theorem factors_nil {n : Node} (h : n.kind ≠ .lowrank) : n.factors = [] := if_pos h

theorem fork_root {sp : AddrSpace} {n : Node} {i : Nat} (hp : n.parentIdx = 0) (hk : n.kind ≠ .lowrank) (hi : sp.freeIdx = some i)
    (hm : (sp.takeMap n.blocks).isSome = true) :
    ∃ sp', sp.fork n = some (sp', i) ∧
      Grown sp sp' (fun j => if j = i then { n with handle := sp.handleOf i } else sp.node j) := by
  obtain ⟨t, ht, hg⟩ := addNode_grows i hm
  refine ⟨t, ?_, hg⟩
  rw [AddrSpace.fork, hi]
  simp [ht, hp, factors_nil hk]

/-- The nodes of sp with x at index i, below node p, which is sealed and counts it. -/
def withChild (sp : AddrSpace) (i p : Nat) (x : Node) (j : Nat) : Node :=
  if j = i then x else if j = p then { sealNode (sp.node p) with children := (sp.node p).children + 1 } else sp.node j

theorem fork_child {sp : AddrSpace} {n : Node} {i : Nat} (hp : n.parentIdx ≠ 0) (hk : n.kind ≠ .lowrank) (hi : sp.freeIdx = some i)
    (hne : n.parentIdx ≠ i) (hm : (sp.takeMap n.blocks).isSome = true) :
    ∃ sp', sp.fork n = some (sp', i) ∧ Grown sp sp' (withChild sp i n.parentIdx { n with handle := sp.handleOf i }) := by
  obtain ⟨t, ht, hg⟩ := addNode_grows i hm
  refine ⟨t.modNode n.parentIdx (fun m => { sealNode m with children := m.children + 1 }), ?_, ?_⟩
  · rw [AddrSpace.fork, hi]
    simp [ht, hp, factors_nil hk]
  · obtain ⟨whole, nodes⟩ := hg.modNode n.parentIdx (fun m => { sealNode m with children := m.children + 1 })
    refine ⟨whole, fun j => (nodes j).trans ?_⟩
    by_cases hj : j = i
    · subst hj; simp [withChild, Ne.symm hne]
    · simp [withChild, hj, hne]

/-! Without a job there is no kiln to compare with (R281, R282). -/

section
variable {s : State} {asid : Nat} (hj : s.job asid = none)
include hj

theorem newFor_none (colour : Option Bool) : s.newFor asid colour = none := by
  rw [State.newFor, hj]; rfl

theorem interpose_idle (i : Nat) (colour : Option Bool) : s.interpose asid i colour = some s := by
  rw [State.interpose, newFor_none hj]

theorem noteNewNode_idle (h : Word32) (colour : Option Bool) : s.noteNewNode asid h colour = s := by
  rw [State.noteNewNode, newFor_none hj]

theorem markFrozen_idle (h : Word32) (colour kill : Bool) : s.markFrozen asid h colour kill = s := by
  rw [State.markFrozen, newFor_none hj]

end

/-- With no LREBASE under way a node's depth is the one that it has. -/
theorem depthSeen_idle {s : State} {asid : Nat} (hr : s.rebases asid = []) (i : Nat) :
    s.depthSeen asid i = ((s.space asid).node i).fullDepth := by
  rw [State.depthSeen, hr]; rfl

theorem fullDepth_of_not_af {n : Node} (h : n.af = false) : n.fullDepth = n.depth := by
  rw [Node.fullDepth, h]; rfl

/-! What a fork comes to (R163), in the space of the running core's address space. -/

/-- The child as it takes its place below node p: at the bound it keeps its parent's DEPTH and has AF (R163). -/
def placed (p n : Node) : Node :=
  { (if 7 ≤ p.depth then { n with depth := p.depth, af := true } else n) with klev := p.klev }

theorem placed_below {p : Node} (n : Node) (h : p.depth < 7) : placed p n = { n with klev := p.klev } := by
  rw [placed, if_neg (Nat.not_le.mpr h)]

theorem placed_bound {p : Node} (n : Node) (h : 7 ≤ p.depth) :
    placed p n = { n with depth := p.depth, af := true, klev := p.klev } := by
  rw [placed, if_pos h]

section
variable {s : State} {sp : AddrSpace} {n : Node} (hsp : s.space (s.asidOf s.curCore) = sp)
include hsp

theorem forkNode_root {sp' : AddrSpace} {i : Nat} (af : Bool) (h0 : n.parentIdx = 0) (hk : n.kind ≠ .lowrank)
    (hj : s.job (s.asidOf s.curCore) = none) (hf : sp.fork n = some (sp', i)) :
    s.forkNode n af = .inr (s.modSpace (s.asidOf s.curCore) (fun _ => sp'), i) := by
  have hfull : countsFull sp n = false := by simp [countsFull, h0, hk]
  have hj' : (s.modSpace (s.asidOf s.curCore) (fun _ => sp')).job (s.asidOf s.curCore) = none := hj
  simp [State.forkNode, hsp, h0, hfull, hf, noteNewNode_idle hj']

variable {p : Node} (hp : sp.node n.parentIdx = p)
include hp

theorem depthSeen_parent (hb : p.af = false) (hr : s.rebases (s.asidOf s.curCore) = []) :
    s.depthSeen (s.asidOf s.curCore) n.parentIdx = p.depth := by
  rw [depthSeen_idle hr, hsp, hp, fullDepth_of_not_af hb]

variable (h0 : n.parentIdx ≠ 0)
include h0

theorem forkNode_busy (af : Bool) (hb : p.af = true) : s.forkNode n af = .inl lsBusy := by
  simp [State.forkNode, hsp, h0, hp, hb]

variable (hb : p.af = false) (hr : s.rebases (s.asidOf s.curCore) = [])
include hb hr

theorem forkNode_deep (hd : 7 ≤ p.depth) : s.forkNode n false = .inl lsDepth := by
  simp [State.forkNode, hsp, h0, hp, hb, depthSeen_parent hsp hp hb hr, hd]

/-- Past its checks a fork is the address space's, of the child in its place. -/
theorem forkNode_child {af : Bool} (hk : n.kind ≠ .lowrank) (hj : s.job (s.asidOf s.curCore) = none)
    (hc : p.children < 2 ^ 24 - 1) (hbound : p.depth < 7 ∨ af = true) :
    s.forkNode n af = (sp.fork (placed p n)).elim (.inl lsNoSpace)
      (fun r => .inr (s.modSpace (s.asidOf s.curCore) (fun _ => r.1), r.2)) := by
  have hseen := depthSeen_parent hsp hp hb hr
  have hfull : countsFull sp n = false := by
    simp only [countsFull, hp, hk, decide_false, Bool.false_and, Bool.or_false, Bool.and_eq_false_iff, decide_eq_false_iff_not]
    omega
  have hj' : ∀ sp', (s.modSpace (s.asidOf s.curCore) (fun _ => sp')).job (s.asidOf s.curCore) = none := fun _ => hj
  have hidx : ∀ d a, ({ n with depth := d, af := a } : Node).parentIdx = n.parentIdx := fun _ _ => rfl
  by_cases hd : 7 ≤ p.depth
  · rw [placed_bound n hd, hbound.resolve_left (Nat.not_lt.mpr hd)]
    simp only [State.forkNode, hsp, h0, hp, hb, hseen, hd, hfull, hidx, interpose_idle hj, noteNewNode_idle (hj' _),
      markFrozen_idle (hj' _), ne_eq, not_false_eq_true, decide_true, Bool.true_and, Bool.false_eq_true, Bool.not_true, if_true, if_false]
    cases sp.fork _ <;> rfl
  · rw [placed_below n (Nat.lt_of_not_le hd)]
    simp only [State.forkNode, hsp, h0, hp, hb, hseen, hd, hfull, interpose_idle hj, noteNewNode_idle (hj' _), markFrozen_idle (hj' _),
      ne_eq, not_false_eq_true, decide_true, decide_false, Bool.and_false, Bool.false_and, Bool.false_eq_true, if_true, if_false]
    cases sp.fork _ <;> rfl

end

/-! The checks of a fork, in the order of R159, and the node that it is to make (R161, R162). -/

/-- A record in a line without poison is read whole (R134, R161). -/
theorem forkRecord_reads {s : State} {c : Reg} (hc : c.val ≠ 0) (hfit : (s.me.sv c.val).toNat + 32 ≤ 0x8000)
    (hal : (s.me.sv c.val).toNat % 32 = 0) (hp : (s.home.tag (192 + (s.me.sv c.val).toNat / 256)).p = false) :
    forkRecord s c = .ok (some (nodeRec (s.home.a.read (s.me.sv c.val).toNat 32))) := by
  have hline : lineOf .a ((s.me.sv c.val).toNat + 32 - 1) = lineOf .a (s.me.sv c.val).toNat := by simp only [lineOf]; omega
  have hpoison : noPoison s.home .a (s.me.sv c.val).toNat 32 = .ok () := by
    simp only [noPoison, Core.poisonAt, hline]
    simp [upFrom, lineOf, hp]
  rw [forkRecord, if_neg hc]
  simp only [localCheck_ok (sp := .a) hfit hal, hpoison]
  rfl

/-- The size of a node and its blocks are those of its shape and type, whatever its handle. -/
theorem size_handle (n : Node) (h : Word32) : ({ n with handle := h } : Node).size = n.size := rfl
theorem blocks_handle (n : Node) (h : Word32) : ({ n with handle := h } : Node).blocks = n.blocks := rfl

/-- The root of a type and dimensions (R162). -/
def rootNode (ty : ElemType) (dims : List Nat) : Node := { state := .live, fmt := ty, dfmt := ty, dims := dims }

/-- The root of a record that R162 allows. -/
theorem forkRoot_ok {r : NodeRec} {ty : ElemType} (hk : r.kind = 0) (hf : ElemType.ofCode r.fmt = some ty)
    (hd : ∀ x ∈ r.dims.take (r.ndim + 1), x ≠ 0) (hz : ∀ x ∈ r.dims.drop (r.ndim + 1), x = 0)
    (hs : (rootNode ty (r.dims.take (r.ndim + 1))).size ≤ 2 ^ 40) :
    forkRoot (some r) = .ok (rootNode ty (r.dims.take (r.ndim + 1))) := by
  have hany : (r.dims.take (r.ndim + 1)).any (· = 0) = false := by simpa using hd
  have hrest : (r.dims.drop (r.ndim + 1)).any (· ≠ 0) = false := by simpa using hz
  simp only [forkRoot, hf]
  refine if_neg ?_
  simp only [hk, hany, hrest, ne_eq, not_true_eq_false, Bool.false_eq_true, false_or]
  exact Nat.not_lt.mpr hs

/-- The XOR child of node p, which a register's value names (R162). -/
def xorChild (p : Node) (v : Word64) : Node :=
  { parent := v.setWidth 32, depth := p.depth + 1, klev := p.klev, state := .live, kind := .xor, fmt := p.fmt, dfmt := p.fmt
    dims := p.dims, dflt := .inherit }

section
variable {s : State} {a c : Reg} (ha : s.me.dbit a.val = false) (hc : s.me.dbit c.val = false)
include ha hc

theorem forkChecks_root (hv : s.me.sv a.val = 0) {r : Option NodeRec} (hr : forkRecord s c = .ok r) :
    forkChecks s a c = forkRoot r := by
  rw [forkChecks, needAll_ok (by simp [ha, hc])]
  simp only [hv, hr]
  rfl

variable {sp : AddrSpace} (hsp : s.space (s.asidOf s.curCore) = sp) (hv : s.me.sv a.val ≠ 0)
include hsp hv

theorem forkChecks_child {p : Nat} (h0 : c.val = 0) (hp : sp.named (s.me.sv a.val) = some p) (hf : (sp.node p).state ≠ .frozen) :
    forkChecks s a c = .ok (xorChild (sp.node p) (s.me.sv a.val)) := by
  have hnf : notFrozen (sp.node p) (s.me.sv a.val) = .ok () := if_neg hf
  rw [forkChecks, needAll_ok (by simp [ha, hc])]
  simp only [hsp, hv, lineageHandle, hp, forkRecord, h0, if_true, if_false, bind, Except.bind, hnf]
  rfl

theorem forkChecks_unnamed (hp : sp.named (s.me.sv a.val) = none) : forkChecks s a c = .error (.trap 13 (s.me.sv a.val)) := by
  rw [forkChecks, needAll_ok (by simp [ha, hc])]
  simp only [hsp, hv, lineageHandle, hp, if_false]
  rfl

end

theorem space_modSpace (s : State) (asid : Nat) (f : AddrSpace → AddrSpace) : (s.modSpace asid f).space asid = f (s.space asid) := by
  rw [State.space, State.modSpace_sys, AMap.get_put_same]

/-! How the two instructions end (R160, R163). -/

/-- A status in LSTAT and a word in d complete an instruction that has changed of its context what g says. -/
theorem gives_status {s S t : State} {npc : Word64} {g : Ctx → Ctx} {k : Core → Core} (d : Reg) (v : Word64) (n : Nat)
    (h : OnlyMe S t k) (hc : t.curCore = S.curCore) (hx : t.curCtx = S.curCtx) (hs : t.me.sregs = S.me.sregs)
    (hg : ctxRest t.me = g (ctxRest S.me)) (hl : t.me.left = S.me.left) (hw : t.me.waitSince = S.me.waitSince) :
    Gives S (finish s npc (.ok ((t.setLstat n).give d v))) npc d.val v false
      (fun x => { g x with lstat := BitVec.ofNat 2 n }) k := by
  have hme : ((t.setLstat n).give d v).me = ({ t.me with lstat := BitVec.ofNat 2 n } : Ctx).setS d.val v false := by
    rw [State.give, State.modMe_me, State.setLstat, State.modMe_me]
  have hreg := setsReg_setS ({ t.me with lstat := BitVec.ofNat 2 n } : Ctx) d.val v false
  refine gives_finish (s := S) (onlyMe_complete (onlyMe_complete h hc hx _) hc hx _) hc hx ?_ ?_ ?_ ?_
  all_goals rw [hme]
  · exact ⟨fun r => by rw [hreg.vals]; simp only [Ctx.sv, hs], fun r => by rw [hreg.dbits]; simp only [Ctx.dbit, hs]⟩
  · rw [ctxRest_setS, ← hg]; rfl
  · rw [left_setS, hl]
  · rw [waitSince_setS, hw]

theorem onlyMe_refl (s : State) : OnlyMe s s id := ⟨⟨rfl, fun _ _ => rfl⟩, rfl, fun _ _ => rfl⟩

theorem exec_lfork (d a c : Reg) (s : State) : exec (.lfork d a c) s = execLfork d a c s := rfl
theorem exec_lforkAf (d a c : Reg) (ct : Cnt) (s : State) : exec (.lforkAf d a c ct) s = execLforkAf d a c ct s := rfl

section
variable {s : State} {d a c : Reg} {ct : Cnt}

theorem lfork_traps {e : Nat} {f : Word64} (h : forkChecks s a c = .error (.trap e f)) (hh : HasHandler s) :
    Traps s (exec (.lfork d a c) s) e f := by
  rw [exec_lfork, execLfork, h]
  exact traps_finish s _ _ _ hh

theorem lforkAf_traps {e : Nat} {f : Word64} (h : forkChecks s a c = .error (.trap e f)) (hh : HasHandler s) :
    Traps s (exec (.lforkAf d a c ct) s) e f := by
  rw [exec_lforkAf, execLforkAf, h]
  exact traps_finish s _ _ _ hh

variable {n : Node} (h : forkChecks s a c = .ok n)
include h

theorem lfork_refused {st : Nat} (hf : s.forkNode n false = .inl st) :
    Gives s (exec (.lfork d a c) s) (s.me.pc + 12) d.val 0 false (fun x => { x with lstat := BitVec.ofNat 2 st }) id := by
  rw [exec_lfork, execLfork, h]
  simp only [bind, Except.bind, hf]
  exact gives_status d 0 st (onlyMe_refl s) rfl rfl rfl rfl rfl rfl

theorem lforkAf_refused {st : Nat} (hf : s.forkNode n true = .inl st) :
    Gives s (exec (.lforkAf d a c ct) s) (s.me.pc + 12) d.val 0 false (fun x => { x with lstat := BitVec.ofNat 2 st }) id := by
  rw [exec_lforkAf, execLforkAf, h]
  simp only [bind, Except.bind, hf]
  exact gives_status d 0 st (onlyMe_refl s) rfl rfl rfl rfl rfl rfl

variable {sp' : AddrSpace} {i : Nat}

theorem lfork_makes (hf : s.forkNode n false = .inr (s.modSpace (s.asidOf s.curCore) (fun _ => sp'), i)) :
    Gives (s.modSpace (s.asidOf s.curCore) (fun _ => sp')) (exec (.lfork d a c) s) (s.me.pc + 12) d.val
      ((sp'.handleOf i).setWidth 64) false (fun x => { x with lstat := 0 }) id := by
  rw [exec_lfork, execLfork, h]
  simp only [bind, Except.bind, hf, space_modSpace]
  exact gives_status d _ 0 (onlyMe_refl _) rfl rfl rfl rfl rfl rfl

/-- LFORK.af queues its command, whose bump is due at once unless the child has AF (R163). -/
theorem lforkAf_makes (hf : s.forkNode n true = .inr (s.modSpace (s.asidOf s.curCore) (fun _ => sp'), i))
    (hroom : (s.sys.lin.filter (fun l => l.core = s.curCore)).length < 8) {g : Prog}
    (hg : g = if (sp'.node i).af then .waiting else .ended 0 0) :
    Gives ((s.modSpace (s.asidOf s.curCore) (fun _ => sp')).modSys (fun y => { y with
        lin := y.lin ++ [{ s.linCmd (.lforkAf d a c ct) i 0 with prog := g }] }))
      (exec (.lforkAf d a c ct) s) (s.me.pc + 12) d.val ((sp'.handleOf i).setWidth 64) false
      (fun x => { issuedCtx (.lforkAf d a c ct) s.home.nextId x with lstat := 0 }) (fun x => { x with nextId := x.nextId + 1 }) := by
  have hplace : lineageRoom s = .ok () := if_neg (Nat.not_le.mpr hroom)
  have hcmd : (if (sp'.node i).af = true then s.linCmd (.lforkAf d a c ct) i 0
      else { s.linCmd (.lforkAf d a c ct) i 0 with prog := .ended stOk 0 }) = { s.linCmd (.lforkAf d a c ct) i 0 with prog := g } := by
    subst hg; split <;> rfl
  have hlin : (s.modSpace (s.asidOf s.curCore) (fun _ => sp')).linCmd (.lforkAf d a c ct) i 0 = s.linCmd (.lforkAf d a c ct) i 0 := rfl
  rw [exec_lforkAf, execLforkAf, h]
  simp only [bind, Except.bind, hf, hplace, space_modSpace, hlin, hcmd]
  refine gives_status (g := issuedCtx (.lforkAf d a c ct) s.home.nextId) d _ 0 (onlyMe_home _ _ _ _ rfl rfl) rfl rfl ?_ ?_ ?_ ?_
  all_goals
    rw [State.enqueueLin, State.modMe_me, me_modHome _ _ rfl]
    rfl

end

/-! The XOR child of a node that is no AF node (R162, R163). -/

theorem xorChild_parentIdx {sp : AddrSpace} {v : Word64} {p : Nat} (hp : sp.named v = some p) :
    (xorChild (sp.node p) v).parentIdx = p := (named_index hp).1

/-- Its place changes of a node DEPTH, AF and KLEV alone. -/
theorem placed_keeps (p n : Node) :
    (placed p n).parentIdx = n.parentIdx ∧ (placed p n).kind = n.kind ∧ (placed p n).blocks = n.blocks := by
  unfold placed
  split <;> exact ⟨rfl, rfl, rfl⟩

/-- The XOR child of node p that a fork makes, at index i. -/
def forkedChild (sp : AddrSpace) (i p : Nat) (v : Word64) : Node :=
  { placed (sp.node p) (xorChild (sp.node p) v) with handle := sp.handleOf i }

section
variable {s : State} {sp : AddrSpace} (hsp : s.space (s.asidOf s.curCore) = sp) {v : Word64} {p : Nat} (hp : sp.named v = some p)
  (hb : (sp.node p).af = false) (hr : s.rebases (s.asidOf s.curCore) = []) (hj : s.job (s.asidOf s.curCore) = none)
  (hc : (sp.node p).children < 2 ^ 24 - 1) {af : Bool} (hbound : (sp.node p).depth < 7 ∨ af = true)
include hsp hp hb hr hj hc hbound

theorem forkNode_xorChild : s.forkNode (xorChild (sp.node p) v) af =
    (sp.fork (placed (sp.node p) (xorChild (sp.node p) v))).elim (.inl lsNoSpace)
      (fun r => .inr (s.modSpace (s.asidOf s.curCore) (fun _ => r.1), r.2)) := by
  have hidx := xorChild_parentIdx hp
  obtain ⟨-, h0, -⟩ := named_index hp
  exact forkNode_child hsp (by rw [hidx]) (by rw [hidx]; exact h0) hb hr (by simp [xorChild]) hj hc hbound

theorem forkNode_xorChild_noSpace (hi : sp.freeIdx = none) : s.forkNode (xorChild (sp.node p) v) af = .inl lsNoSpace := by
  rw [forkNode_xorChild hsp hp hb hr hj hc hbound, fork_none _ hi]; rfl

theorem forkNode_xorChild_makes {i : Nat} (hi : sp.freeIdx = some i) (hfree : (sp.node i).state = .free)
    (hm : (sp.takeMap (sp.node p).blocks).isSome = true) :
    ∃ sp', s.forkNode (xorChild (sp.node p) v) af = .inr (s.modSpace (s.asidOf s.curCore) (fun _ => sp'), i) ∧
      Grown sp sp' (withChild sp i p (forkedChild sp i p v)) := by
  obtain ⟨-, h0, hused⟩ := named_index hp
  have hne : p ≠ i := fun e => hused (e ▸ hfree)
  obtain ⟨hidx, hkind, hblocks⟩ := placed_keeps (sp.node p) (xorChild (sp.node p) v)
  rw [xorChild_parentIdx hp] at hidx
  obtain ⟨sp', hf, hg⟩ := fork_child (by rw [hidx]; exact h0) (by rw [hkind]; simp [xorChild]) hi (by rw [hidx]; exact hne)
    (by rw [hblocks]; exact hm)
  rw [hidx] at hg
  exact ⟨sp', by rw [forkNode_xorChild hsp hp hb hr hj hc hbound, hf]; rfl, hg⟩

end

/-! The obligation. -/

/-- Settles O42: the checks give the node that is to be made, the fork's cases give what it comes to, and the endings of the two
instructions what the step changes. -/
theorem lineageForks : Obligations.LineageForks := by
  unfold Obligations.LineageForks
  intro d a c ct s asid sp v e r handle status grown cmd fork forkAf refuses ha hc hj hr
  refine ⟨fun ty i n hv hc0 hfit hal hpoison hkind hfmt hdims hrest hn hsize hi hmap => ?root,
    fun i p hv hc0 hp hfrozen => ?child, fun hh hv hp => ?unnamed⟩
  case root =>
    have hroot : n = { rootNode ty (r.dims.take (r.ndim + 1)) with handle := handle i } := hn
    rw [hroot, size_handle] at hsize
    rw [hroot, blocks_handle] at hmap
    have hcheck := (forkChecks_root ha hc hv (forkRecord_reads hc0 hfit hal hpoison)).trans
      (forkRoot_ok hkind hfmt hdims hrest hsize)
    obtain ⟨sp', hf, hg⟩ := fork_root (n := rootNode ty (r.dims.take (r.ndim + 1))) rfl (by simp [rootNode]) hi hmap
    have hgives := lfork_makes (d := d) hcheck (forkNode_root rfl false rfl (by simp [rootNode]) hj hf)
    rw [hg.handleOf] at hgives
    rw [hroot]
    exact ⟨sp', hg, hgives⟩
  case child =>
    intro pn child after
    have hcheck := forkChecks_child ha hc rfl hv hc0 hp hfrozen
    have hidx := xorChild_parentIdx hp
    obtain ⟨-, h0, -⟩ := named_index hp
    have hpn : sp.node (xorChild pn v).parentIdx = pn := by rw [hidx]
    rw [← hidx] at h0
    refine ⟨fun hb => ?busy, fun hb hd => ?deep, fun hb hd hn hi => ?noSpace, fun hb hn hi hfree hmap => ?made⟩
    case busy =>
      exact ⟨lfork_refused hcheck (forkNode_busy rfl hpn h0 false hb), lforkAf_refused hcheck (forkNode_busy rfl hpn h0 true hb)⟩
    case deep => exact lfork_refused hcheck (forkNode_deep rfl hpn h0 hb hr hd)
    case noSpace =>
      exact ⟨lfork_refused hcheck (forkNode_xorChild_noSpace rfl hp hb hr hj hn (.inl hd) hi),
        lforkAf_refused hcheck (forkNode_xorChild_noSpace rfl hp hb hr hj hn (.inl hd) hi)⟩
    case made =>
      have below (hd : pn.depth < 7) : forkedChild sp i p v = child := by rw [forkedChild, placed_below _ hd]; rfl
      have bound (hd : 7 ≤ pn.depth) : forkedChild sp i p v = { child with depth := pn.depth, af := true } := by
        rw [forkedChild, placed_bound _ hd]; rfl
      refine ⟨fun hd => ?_, fun hroom => ?_⟩
      · obtain ⟨sp', hf, hg⟩ := forkNode_xorChild_makes rfl hp hb hr hj hn (.inl hd) hi hfree hmap
        have hgives := lfork_makes (d := d) hcheck hf
        rw [hg.handleOf] at hgives
        exact ⟨sp', below hd ▸ hg, hgives⟩
      · obtain ⟨sp', hf, hg⟩ := forkNode_xorChild_makes rfl hp hb hr hj hn (.inr rfl) hi hfree hmap
        have hnew : sp'.node i = forkedChild sp i p v := (hg.2 i).trans (if_pos rfl)
        have hgives (g : Prog) := lforkAf_makes (d := d) (ct := ct) (g := g) hcheck hf hroom
        rw [hg.handleOf, hnew] at hgives
        exact ⟨fun hd => ⟨sp', below hd ▸ hg, hgives _ (by rw [below hd]; rfl)⟩,
          fun hd => ⟨sp', bound hd ▸ hg, hgives _ (by rw [bound hd]; rfl)⟩⟩
  case unnamed =>
    have hcheck := forkChecks_unnamed ha hc rfl hv hp
    exact ⟨lfork_traps hcheck hh, lforkAf_traps hcheck hh⟩

end Sys2Proof
end

section
/-! Instruction words and their bytes (R1, R50 to R57): a number and the list of its bytes, the round trip of every constructor of
Instr, and the words written out bit by bit. -/

namespace Sys2Proof

/-! A number and its bytes. -/

theorem leBytes_length (n x : Nat) : (leBytes n x).length = n := by
  induction n generalizing x with
  | zero => rfl
  | succ n ih => rw [leBytes, List.length_cons, ih]

theorem leNat_leBytes (n x : Nat) : leNat (leBytes n x) = x % 256 ^ n := by
  induction n generalizing x with
  | zero => simp [leBytes, leNat, Nat.mod_one]
  | succ n ih => rw [leBytes, leNat, ih, BitVec.toNat_ofNat, pow_succ' 256, Nat.mod_mul]

theorem leBytes_take (m n x : Nat) : (leBytes (m + n) x).take m = leBytes m x := by
  induction m generalizing x with
  | zero => rfl
  | succ m ih => rw [Nat.succ_add, leBytes, leBytes, List.take_succ_cons, ih]

/-! The bytes of a word. -/

theorem lengthOf_eq_some {w n : Nat} (h : lengthOf w = some n) : n = 8 + 4 * (w % 4) := by
  unfold lengthOf at h
  split at h <;> simp_all

/-- The first byte alone says how long the word is (R51). -/
theorem lengthOf_mod (w k : Nat) : lengthOf (w % 256 ^ (k + 1)) = lengthOf w := by
  rw [lengthOf, lengthOf, Nat.mod_mod_of_dvd _ (Dvd.dvd.trans (by decide : 4 ∣ 256) (dvd_pow_self 256 k.succ_ne_zero))]

/-- The bytes of a word that decodes, whatever follows them: parcel 0 gives the length, and that many bytes give the word back. -/
theorem decodeBytes_leBytes {w n : Nat} {i : Instr} (hl : lengthOf w = some n) (hw : w < 2 ^ (8 * n)) (hi : decodeWord w = .ok i)
    (rest : List Byte) : decodeBytes (leBytes n w ++ rest) = .ok (i, rest) := by
  have hn : 4 ≤ n := by have := lengthOf_eq_some hl; omega
  obtain ⟨m, rfl⟩ := Nat.exists_eq_add_of_le hn
  have hfirst : (leBytes (4 + m) w ++ rest).take 4 = leBytes 4 w := by
    rw [List.take_append_of_le_length (by rw [leBytes_length]; omega), leBytes_take]
  have hword : leNat (leBytes (4 + m) w) = w := by
    rw [leNat_leBytes, Nat.mod_eq_of_lt]; rwa [pow_mul] at hw
  have hlen : lengthOf (leNat (leBytes 4 w)) = some (4 + m) := by rw [leNat_leBytes, lengthOf_mod, hl]
  have hlong : 4 + m ≤ (leBytes (4 + m) w ++ rest).length := by rw [List.length_append, leBytes_length]; omega
  rw [decodeBytes, if_neg (by omega), hfirst, hlen]
  simp only [if_neg (Nat.not_lt.mpr hlong), List.take_left' (leBytes_length _ _), List.drop_left' (leBytes_length _ _), hword, hi]

/-! Every constructor. -/

open Laws in
/-- The laws of PerInstr.lean, one for each constructor of Instr in its order. -/
theorem roundTrip (i : Instr) : RoundTrip.Statement i := by
  cases i
  exacts [
    RoundTrip.nop, RoundTrip.add _ _ _, RoundTrip.addImm _ _ _, RoundTrip.sub _ _ _, RoundTrip.subImm _ _ _, RoundTrip.mul _ _ _,
    RoundTrip.mulImm _ _ _, RoundTrip.mulh _ _ _, RoundTrip.div _ _ _, RoundTrip.rem _ _ _, RoundTrip.and _ _ _,
    RoundTrip.andImm _ _ _, RoundTrip.or _ _ _, RoundTrip.orImm _ _ _, RoundTrip.xor _ _ _, RoundTrip.xorImm _ _ _,
    RoundTrip.andn _ _ _, RoundTrip.shl _ _ _, RoundTrip.shlImm _ _ _, RoundTrip.shr _ _ _, RoundTrip.shrImm _ _ _,
    RoundTrip.sra _ _ _, RoundTrip.sraImm _ _ _, RoundTrip.rol _ _ _, RoundTrip.rolImm _ _ _, RoundTrip.min _ _ _,
    RoundTrip.minImm _ _ _, RoundTrip.max _ _ _, RoundTrip.maxImm _ _ _, RoundTrip.cmp _ _ _ _, RoundTrip.cmpImm _ _ _ _,
    RoundTrip.sel _ _ _ _, RoundTrip.clz _ _, RoundTrip.popc _ _, RoundTrip.mov _ _, RoundTrip.movi _ _, RoundTrip.bfx _ _ _ _ _,
    RoundTrip.bfi _ _ _ _, RoundTrip.fadd _ _ _ _ _, RoundTrip.fsub _ _ _ _ _, RoundTrip.fmul _ _ _ _ _, RoundTrip.ffma _ _ _ _ _ _,
    RoundTrip.fmin _ _ _ _, RoundTrip.fmax _ _ _ _, RoundTrip.fcmp _ _ _ _ _, RoundTrip.fcvt _ _ _ _ _, RoundTrip.br _,
    RoundTrip.brc _ _ _ _, RoundTrip.call _, RoundTrip.ret _, RoundTrip.jmpr _ _, RoundTrip.chk _ _ _, RoundTrip.yield _ _,
    RoundTrip.exit _, RoundTrip.trap _, RoundTrip.ld _ _ _ _ _ _, RoundTrip.st _ _ _ _ _, RoundTrip.lds _ _ _ _ _ _,
    RoundTrip.tagTest _ _ _, RoundTrip.tagEmpty _ _, RoundTrip.tagFull _ _, RoundTrip.tagSpent _ _, RoundTrip.hstart _ _ _ _,
    RoundTrip.hjoin _ _, RoundTrip.phaseC _, RoundTrip.phaseX _, RoundTrip.vote _ _ _ _, RoundTrip.evsig _ _ _ _ _, RoundTrip.sleept _,
    RoundTrip.time _, RoundTrip.waitcGe _ _, RoundTrip.waitcLeOl _, RoundTrip.waitcLeOs _, RoundTrip.nbrd _ _ _,
    RoundTrip.recv _ _ _ _ _ _ _, RoundTrip.plog _ _ _ _, RoundTrip.pcnt _ _ _, RoundTrip.gset _ _, RoundTrip.gres _ _,
    RoundTrip.repseq _, RoundTrip.repgo _ _, RoundTrip.repetitionReissue _ _, RoundTrip.cntset _ _, RoundTrip.aadd _,
    RoundTrip.aaddw _, RoundTrip.aswap _, RoundTrip.acas _ _, RoundTrip.amin _, RoundTrip.amax _, RoundTrip.aand _, RoundTrip.aor _,
    RoundTrip.await _ _ _ _ _ _ _, RoundTrip.awaitRegistrationRetry _ _, RoundTrip.evpost _ _ _ _ _, RoundTrip.evwait _ _ _,
    RoundTrip.evwaitRegistrationRetry _ _, RoundTrip.trig _ _, RoundTrip.done _ _ _ _, RoundTrip.wdq _ _ _ _,
    RoundTrip.heatage _ _ _ _ _, RoundTrip.rowrank _ _ _ _ _ _, RoundTrip.rowmig _ _ _ _ _, RoundTrip.kiln _ _ _,
    RoundTrip.kilnAnswer _ _, RoundTrip.kilnst _ _, RoundTrip.kilnrel _ _ _, RoundTrip.kilnrb _ _ _, RoundTrip.csrr _ _,
    RoundTrip.csrw _ _, RoundTrip.rfe, RoundTrip.tlbinv _ _ _ _, RoundTrip.icinv, RoundTrip.get _, RoundTrip.put _, RoundTrip.grist _,
    RoundTrip.gristScatter _, RoundTrip.cpy _, RoundTrip.sendD _, RoundTrip.sendP _, RoundTrip.sendI _, RoundTrip.sendIRetry _ _,
    RoundTrip.nmc _ _ _ _ _ _, RoundTrip.nmcPart _ _ _, RoundTrip.nmscan _ _ _ _ _ _ _ _ _ _, RoundTrip.tspawn _ _ _ _ _ _,
    RoundTrip.lfork _ _ _, RoundTrip.lforkAf _ _ _ _, RoundTrip.lflat _ _ _ _ _, RoundTrip.lrebase _ _ _ _ _ _, RoundTrip.ldel _ _ _,
    RoundTrip.lpack _ _ _ _ _, RoundTrip.linfo _ _, RoundTrip.nodeSwitch _, RoundTrip.splice _, RoundTrip.vclaim _, RoundTrip.vrel,
    RoundTrip.vld _ _ _ _ _ _ _, RoundTrip.vst _ _ _ _ _ _ _, RoundTrip.vadd _ _ _ _ _ _, RoundTrip.vsub _ _ _ _ _ _,
    RoundTrip.vmul _ _ _ _ _ _, RoundTrip.vfma _ _ _ _ _ _ _, RoundTrip.vmax _ _ _ _ _, RoundTrip.vmin _ _ _ _ _,
    RoundTrip.vabs _ _ _ _, RoundTrip.vcvt _ _ _ _ _ _, RoundTrip.vqnt _ _ _ _ _ _, RoundTrip.vdqn _ _ _ _ _ _,
    RoundTrip.vred _ _ _ _ _ _, RoundTrip.vscan _ _ _ _ _ _, RoundTrip.vshuf _ _ _ _ _, RoundTrip.vcmp _ _ _ _ _ _,
    RoundTrip.vsel _ _ _ _ _, RoundTrip.vfn _ _ _ _ _ _, RoundTrip.vbcast _ _ _ _, RoundTrip.vidx _ _ _, RoundTrip.vand _ _ _ _,
    RoundTrip.vor _ _ _ _, RoundTrip.vxor _ _ _ _, RoundTrip.vshl _ _ _ _, RoundTrip.vshr _ _ _ _ _, RoundTrip.mlds _ _ _ _ _ _ _ _,
    RoundTrip.mswap _ _ _ _, RoundTrip.mmul _, RoundTrip.mcorr _, RoundTrip.msplit _, RoundTrip.msplitJoin _ _,
    RoundTrip.mgangWide _ _, RoundTrip.mgangDeep _ _, RoundTrip.matrixCommandStart _ _, RoundTrip.matrixSuspend _ _,
    RoundTrip.bump _ _, RoundTrip.stall _ _, RoundTrip.watchdog _ _, RoundTrip.nbrdTimeout _ _, RoundTrip.sleepWake _ _,
    RoundTrip.phaseCompletion _, RoundTrip.programLoad _, RoundTrip.queueDispatch _, RoundTrip.launch _, RoundTrip.barrier _,
    RoundTrip.copy _, RoundTrip.nmem _, RoundTrip.eventPacket _, RoundTrip.nopPacket _, RoundTrip.barrierRound _,
    RoundTrip.packetCompletion _, RoundTrip.taskPlace _ _ _, RoundTrip.wake _, RoundTrip.teamStart _, RoundTrip.taskComplete _,
    RoundTrip.takeRequest _, RoundTrip.takeWithdraw _, RoundTrip.teamSave _, RoundTrip.teamResume _, RoundTrip.marker _ _,
    RoundTrip.lineDrain _, RoundTrip.kilnDrainTimeout _, RoundTrip.kilnPageCopy _ _, RoundTrip.kilnComplete _, RoundTrip.hostRead _ _,
    RoundTrip.hostWrite _ _ _, RoundTrip.hostAtomic _ _ _ _ _, RoundTrip.cxlMemRead _, RoundTrip.cxlMemWrite _ _ _,
    RoundTrip.queueWindowFetchadd _ _, RoundTrip.queueWindowRead _ _ _, RoundTrip.eventWindowWrite _ _, RoundTrip.eventWindowRead _,
    RoundTrip.mgmtErrClear _, RoundTrip.mgmtReset _, RoundTrip.hotReset, RoundTrip.warmResetComplete, RoundTrip.coldStart _ _,
    RoundTrip.startUpComplete, RoundTrip.timeset _, RoundTrip.ptmintWrite _, RoundTrip.ptmDialogue _, RoundTrip.fullReport,
    RoundTrip.shortReport, RoundTrip.registerWrite _ _, RoundTrip.powerGrant _, RoundTrip.thermalTrip _, RoundTrip.linkDead _,
    RoundTrip.linkRetrained _, RoundTrip.linkStateNotice _ _, RoundTrip.drainRound _, RoundTrip.remoteAtomicTimeout _ _,
    RoundTrip.tagTupleExpiry _, RoundTrip.peerRequest _ _ _ _, RoundTrip.peerRetireTimeout _, RoundTrip.replicaWriteTimeout _ _,
    RoundTrip.droppedWindowWrite _, RoundTrip.remoteKilnStart _ _ _, RoundTrip.remoteRollback _ _]

/-- Settles O57: the round trip of the instruction's own law, and the bytes of its word. -/
theorem encodingsDecode : Obligations.EncodingsDecode := by
  unfold Obligations.EncodingsDecode
  intro i hi
  obtain ⟨hnone, hword⟩ := roundTrip i hi
  refine ⟨hnone, fun n w he => ?_⟩
  obtain ⟨hlt, hlen, hdec⟩ := hword n w he
  exact ⟨hlt, decodeBytes_leBytes hlen hlt hdec⟩

/-- Settles O56: ten fixed words, each by running the decoder. -/
theorem writtenOutWordsDecode : Obligations.WrittenOutWordsDecode := by
  unfold Obligations.WrittenOutWordsDecode
  decide

end Sys2Proof
end

section
/-! What the decoder accepts (R51, R53, R56): a word is the pack of its fields, so a decoder that reads every field, or asks it to be
zero, answers an instruction whose encoding is the word. -/

namespace Sys2Proof

/-! A word and its fields. -/

theorem pack_unpack (ws : List Nat) (w : Nat) : pack (ws.zip (unpack ws w)) = w % 2 ^ ws.sum := by
  induction ws generalizing w with
  | nil => simp [pack, Nat.mod_one]
  | cons k ws ih => rw [unpack, List.zip_cons_cons, pack, ih, List.sum_cons, Nat.pow_add, Nat.mod_mul]

theorem fits_unpack (ws : List Nat) (w : Nat) : fits (ws.zip (unpack ws w)) := by
  induction ws generalizing w with
  | nil => exact fits_nil
  | cons k ws ih => exact (fits_cons ..).mpr ⟨Nat.mod_lt _ (Nat.two_pow_pos k), ih _⟩

/-- A word of n bytes with its length code and its opcode. -/
structure IsWord (n code op w : Nat) : Prop where
  lt : w < 2 ^ (8 * n)
  code : w % 4 = code
  op : w / 4 % 256 = op

/-! Codes: a field that has a meaning holds its code. -/

theorem bit_flag {n : Nat} (h : n < 2) : bit (flag n) = n := by
  obtain rfl | rfl : n = 0 ∨ n = 1 := by omega
  all_goals rfl

theorem Space.code_ofCode {n : Nat} (h : n < 4) : (Space.ofCode n).code = n := by
  obtain rfl | rfl | rfl | rfl : n = 0 ∨ n = 1 ∨ n = 2 ∨ n = 3 := by omega
  all_goals rfl

theorem GroupSize.code_ofCode {n : Nat} (h : n < 4) : (GroupSize.ofCode n).code = n := by
  obtain rfl | rfl | rfl | rfl : n = 0 ∨ n = 1 ∨ n = 2 ∨ n = 3 := by omega
  all_goals rfl

theorem Cond.eq_code {n : Nat} {x : Cond} (h : Cond.ofCode n = some x) : n = x.code := by
  unfold Cond.ofCode at h
  split at h <;> cases h <;> rfl

theorem Scope.eq_code {n : Nat} {x : Scope} (h : Scope.ofCode n = some x) : n = x.code := by
  unfold Scope.ofCode at h
  split at h <;> cases h <;> rfl

theorem ElemType.eq_code {n : Nat} {x : ElemType} (h : ElemType.ofCode n = some x) : n = x.code := by
  unfold ElemType.ofCode at h
  split at h <;> cases h <;> rfl

theorem RoundMode.eq_code {n : Nat} {x : RoundMode} (h : RoundMode.ofCode n = some x) : n = x.code := by
  unfold RoundMode.ofCode at h
  split at h <;> cases h <;> rfl

theorem Size.eq_code {n : Nat} {x : Size} (h : Size.ofCode n = some x) : n = x.code := by
  unfold Size.ofCode at h
  split at h <;> cases h <;> rfl

theorem Level.eq_code {n : Nat} {x : Level} (h : Level.ofCode n = some x) : n = x.code := by
  unfold Level.ofCode at h
  split at h <;> cases h <;> rfl

theorem VoteOp.eq_code {n : Nat} {x : VoteOp} (h : VoteOp.ofCode n = some x) : n = x.code := by
  unfold VoteOp.ofCode at h
  split at h <;> cases h <;> rfl

theorem PlogOp.eq_code {n : Nat} {x : PlogOp} (h : PlogOp.ofCode n = some x) : n = x.code := by
  unfold PlogOp.ofCode at h
  split at h <;> cases h <;> rfl

theorem PcntMode.eq_code {n : Nat} {x : PcntMode} (h : PcntMode.ofCode n = some x) : n = x.code := by
  unfold PcntMode.ofCode at h
  split at h <;> cases h <;> rfl

theorem RedOp.eq_code {n : Nat} {x : RedOp} (h : RedOp.ofCode n = some x) : n = x.code := by
  unfold RedOp.ofCode at h
  split at h <;> cases h <;> rfl

theorem FnOp.eq_code {n : Nat} {x : FnOp} (h : FnOp.ofCode n = some x) : n = x.code := by
  unfold FnOp.ofCode at h
  split at h <;> cases h <;> rfl

theorem Where.eq_code {n : Nat} {x : Where} (h : Where.ofCode n = some x) : n = x.code := by
  unfold Where.ofCode at h
  split at h <;> cases h <;> rfl

theorem Reach.eq_code {n : Nat} {x : Reach} (h : Reach.ofCode n = some x) : n = x.code := by
  unfold Reach.ofCode at h
  split at h <;> cases h <;> rfl

/-- Every instruction that a decoder answers is well formed, and its length and encoding are p. -/
def Encodes (p : Nat × Nat) (x : Dec) : Prop := ∀ i, x = .ok i → i.wellFormed = true ∧ encode i = some p

namespace Encodes

theorem error {p : Nat × Nat} {e : DecodeError} : Encodes p (.error e) := fun _ h => nomatch h

/-- The last step of a decoder: the fields that must be zero are zero, and the fields of the instruction's encoding are those of the
word. That they are is arithmetic, field by field, and left to the tactic. -/
theorem fields {n : Nat} {zeros : List Nat} {j : Instr} {x y : Nat × Nat} {l k : List (Nat × Nat)} (hl : fits l)
    (he : encode j = some (n, pack k))
    (hk : fits l → (∀ z ∈ zeros, z = 0) → k = x :: y :: l := by
      intro hfit hzero
      simp at hfit hzero
      simp (disch := omega) only [List.cons.injEq, Prod.mk.injEq, true_and, and_true, regOf, Sys2Proof.cntOf, predOf, vregOf,
        Sys2Proof.gdOf, Fin.val_ofNat, BitVec.toNat_ofNat, memArg, maskOf, noOrder_sc, noOrder_acq, noOrder_rel, RoundMode.rne_code,
        Space.a_code, bit_flag, bit_false, bit_true, Space.code_ofCode, GroupSize.code_ofCode, VOperand.fields, reduceIte,
        Bool.false_eq_true, pack]
      omega) :
    Encodes (n, pack (x :: y :: l)) (mk zeros j) := by
  intro i h
  unfold mk at h
  split at h
  · next hc =>
    cases h
    rw [Bool.and_eq_true, List.all_eq_true] at hc
    obtain ⟨hzero, hwf⟩ := hc
    exact ⟨hwf, hk hl (fun z hm => beq_iff_eq.mp (hzero z hm)) ▸ he⟩
  · cases h

theorem withCode {α : Type} {p : Nat × Nat} {o : Option α} {n : Nat} {code : α → Nat} {k : α → Dec}
    (ho : ∀ {x}, o = some x → n = code x) (hk : ∀ {x}, n = code x → Encodes p (k x)) : Encodes p (withCode o k) := by
  cases o with
  | none => exact error
  | some x => exact hk (ho rfl)

theorem withOrder {p : Nat × Nat} {sc aq rl : Nat} {k : MemOrder → Dec}
    (hk : ∀ {x : Scope}, sc = x.code → Encodes p (k { acq := flag aq, rel := flag rl, sc := x })) :
    Encodes p (withOrder sc aq rl k) :=
  withCode Scope.eq_code hk

/-- A second operand names a vector register in VB, or a scalar in SREG, and the other field is zero (R420). -/
theorem withVOperand {p : Nat × Nat} {s vb imm : Nat} {k : VOperand → Dec}
    (hvec : s = 0 → imm = 0 → vb < 16 → Encodes p (k (.vec (vregOf vb))))
    (hscalar : s ≠ 0 → vb = 0 → imm < 32 → Encodes p (k (.scalar (regOf imm)))) : Encodes p (withVOperand s vb imm k) := by
  unfold Sys2Proof.withVOperand
  split
  · next hs =>
    split
    · next hc =>
      obtain ⟨himm, hvb⟩ := (Bool.and_eq_true _ _).mp hc
      exact hvec (beq_iff_eq.mp hs) (beq_iff_eq.mp himm) (of_decide_eq_true hvb)
    · exact error
  · next hs =>
    split
    · next hc =>
      obtain ⟨hvb, himm⟩ := (Bool.and_eq_true _ _).mp hc
      exact hscalar (fun e => hs (beq_iff_eq.mpr e)) (beq_iff_eq.mp hvb) (of_decide_eq_true himm)
    · exact error

/-- A field that is an index below a bound. -/
theorem below {p : Nat × Nat} {n m : Nat} {x : n < m → Dec} {e : DecodeError} (hx : ∀ h, Encodes p (x h)) :
    Encodes p (if h : n < m then x h else .error e) := by
  split
  · exact hx _
  · exact error

/-! The formats of R54: what a decoder makes of the fields of a word of its space, it makes of the word. -/

theorem ofFields {n code op w : Nat} (h : IsWord n code op w) (ws : List Nat) (hs : 10 + ws.sum = 8 * n) {x : Dec}
    (hx : fits (ws.zip (unpack ws (w / 4 / 256))) → Encodes (n, pack ((2, code) :: (8, op) :: ws.zip (unpack ws (w / 4 / 256)))) x) :
    Encodes (n, w) x := by
  have hw : pack ((2 :: 8 :: ws).zip (unpack (2 :: 8 :: ws) w)) = w := by
    rw [pack_unpack, List.sum_cons, List.sum_cons, ← Nat.add_assoc, hs, Nat.mod_eq_of_lt h.lt]
  have hu : unpack (2 :: 8 :: ws) w = code :: op :: unpack ws (w / 4 / 256) := by
    rw [← h.code, ← h.op]; rfl
  rw [hu] at hw
  exact hw ▸ hx (fits_unpack _ _)

theorem asR {op w : Nat} {k : (d a b c m fn z : Nat) → Dec} (h : IsWord 8 0 op w)
    (hk : ∀ {d a b c m fn z}, fits [(5, d), (5, a), (5, b), (5, c), (4, m), (8, fn), (22, z)] →
      Encodes (8, pack [(2, 0), (8, op), (5, d), (5, a), (5, b), (5, c), (4, m), (8, fn), (22, z)]) (k d a b c m fn z)) :
    Encodes (8, w) (asR w k) :=
  ofFields h [5, 5, 5, 5, 4, 8, 22] rfl hk

theorem asI {op w : Nat} {k : (d a m fn imm : Nat) → Dec} (h : IsWord 8 0 op w)
    (hk : ∀ {d a m fn imm}, fits [(5, d), (5, a), (4, m), (8, fn), (32, imm)] →
      Encodes (8, pack [(2, 0), (8, op), (5, d), (5, a), (4, m), (8, fn), (32, imm)]) (k d a m fn imm)) :
    Encodes (8, w) (asI w k) :=
  ofFields h [5, 5, 4, 8, 32] rfl hk

theorem asB {op w : Nat} {k : (a b cnd fn off : Nat) → Dec} (h : IsWord 8 0 op w)
    (hk : ∀ {a b cnd fn off}, fits [(5, a), (5, b), (4, cnd), (8, fn), (32, off)] →
      Encodes (8, pack [(2, 0), (8, op), (5, a), (5, b), (4, cnd), (8, fn), (32, off)]) (k a b cnd fn off)) :
    Encodes (8, w) (asB w k) :=
  ofFields h [5, 5, 4, 8, 32] rfl hk

theorem asM {op w : Nat} {k : (d base sp sz tg sx fn off z : Nat) → Dec} (h : IsWord 8 0 op w)
    (hk : ∀ {d base sp sz tg sx fn off z}, fits [(5, d), (5, base), (2, sp), (3, sz), (1, tg), (1, sx),
        (5, fn), (16, off), (16, z)] →
      Encodes (8, pack [(2, 0), (8, op), (5, d), (5, base), (2, sp), (3, sz), (1, tg), (1, sx), (5, fn), (16, off), (16, z)])
        (k d base sp sz tg sx fn off z)) :
    Encodes (8, w) (asM w k) :=
  ofFields h [5, 5, 2, 3, 1, 1, 5, 16, 16] rfl hk

theorem asE {op w : Nat} {k : (d a b gd sc aq rl ct c fn imm : Nat) → Dec} (h : IsWord 8 0 op w)
    (hk : ∀ {d a b gd sc aq rl ct c fn imm}, fits [(5, d), (5, a), (5, b), (3, gd), (3, sc), (1, aq),
        (1, rl), (4, ct), (5, c), (8, fn), (14, imm)] →
      Encodes (8, pack [(2, 0), (8, op), (5, d), (5, a), (5, b), (3, gd), (3, sc), (1, aq), (1, rl), (4, ct), (5, c), (8, fn),
        (14, imm)]) (k d a b gd sc aq rl ct c fn imm)) :
    Encodes (8, w) (asE w k) :=
  ofFields h [5, 5, 5, 3, 3, 1, 1, 4, 5, 8, 14] rfl hk

theorem asS {op w : Nat} {k : (d a csr fn z : Nat) → Dec} (h : IsWord 8 0 op w)
    (hk : ∀ {d a csr fn z}, fits [(5, d), (5, a), (12, csr), (8, fn), (24, z)] →
      Encodes (8, pack [(2, 0), (8, op), (5, d), (5, a), (12, csr), (8, fn), (24, z)]) (k d a csr fn z)) :
    Encodes (8, w) (asS w k) :=
  ofFields h [5, 5, 12, 8, 24] rfl hk

theorem asEL {op w : Nat} {k : (d a b gd sc aq rl ct c fn imm len : Nat) → Dec} (h : IsWord 12 1 op w)
    (hk : ∀ {d a b gd sc aq rl ct c fn imm len}, fits [(5, d), (5, a), (5, b), (3, gd), (3, sc), (1, aq),
        (1, rl), (4, ct), (5, c), (8, fn), (14, imm), (32, len)] →
      Encodes (12, pack [(2, 1), (8, op), (5, d), (5, a), (5, b), (3, gd), (3, sc), (1, aq), (1, rl), (4, ct), (5, c), (8, fn),
        (14, imm), (32, len)]) (k d a b gd sc aq rl ct c fn imm len)) :
    Encodes (12, w) (asEL w k) :=
  ofFields h [5, 5, 5, 3, 3, 1, 1, 4, 5, 8, 14, 32] rfl hk

theorem asV {op w : Nat} {k : (vd va vb vc pm zm ty rm fn z imm : Nat) → Dec} (h : IsWord 12 1 op w)
    (hk : ∀ {vd va vb vc pm zm ty rm fn z imm}, fits [(5, vd), (5, va), (5, vb), (5, vc), (3, pm), (1, zm),
        (4, ty), (4, rm), (8, fn), (14, z), (32, imm)] →
      Encodes (12, pack [(2, 1), (8, op), (5, vd), (5, va), (5, vb), (5, vc), (3, pm), (1, zm), (4, ty), (4, rm), (8, fn),
        (14, z), (32, imm)]) (k vd va vb vc pm zm ty rm fn z imm)) :
    Encodes (12, w) (asV w k) :=
  ofFields h [5, 5, 5, 5, 3, 1, 4, 4, 8, 14, 32] rfl hk

theorem asX {op w : Nat} {k : (d z1 fn z2 imm : Nat) → Dec} (h : IsWord 16 2 op w)
    (hk : ∀ {d z1 fn z2 imm}, fits [(5, d), (19, z1), (8, fn), (22, z2), (64, imm)] →
      Encodes (16, pack [(2, 2), (8, op), (5, d), (19, z1), (8, fn), (22, z2), (64, imm)]) (k d z1 fn z2 imm)) :
    Encodes (16, w) (asX w k) :=
  ofFields h [5, 19, 8, 22, 64] rfl hk

theorem asMX {op w : Nat} {k : (a b c gd pri ct aty oty fn gang acc tg z ks nv wo st : Nat) → Dec} (h : IsWord 16 2 op w)
    (hk : ∀ {a b c gd pri ct aty oty fn gang acc tg z ks nv wo st}, fits [(5, a), (5, b), (5, c), (3, gd), (2, pri), (4, ct),
        (4, aty), (4, oty), (8, fn), (1, gang), (1, acc), (1, tg), (11, z), (16, ks), (16, nv), (16, wo), (16, st)] →
      Encodes (16, pack [(2, 2), (8, op), (5, a), (5, b), (5, c), (3, gd), (2, pri), (4, ct), (4, aty), (4, oty), (8, fn),
        (1, gang), (1, acc), (1, tg), (11, z), (16, ks), (16, nv), (16, wo), (16, st)])
        (k a b c gd pri ct aty oty fn gang acc tg z ks nv wo st)) :
    Encodes (16, w) (asMX w k) :=
  ofFields h [5, 5, 5, 3, 2, 4, 4, 4, 8, 1, 1, 1, 11, 16, 16, 16, 16] rfl hk

/-! The shapes that many rows share. -/

theorem decRRR {op w : Nat} {f : Reg → Reg → Reg → Instr} (h : IsWord 8 0 op w)
    (hf : ∀ {d a b}, encode (f d a b) = some (encR op d.val a.val b.val 0 0 0)) : Encodes (8, w) (decRRR w f) :=
  .asR h fun hl => .fields hl hf

theorem decRR {op w : Nat} {f : Reg → Reg → Instr} (h : IsWord 8 0 op w)
    (hf : ∀ {d a}, encode (f d a) = some (encR op d.val a.val 0 0 0 0)) : Encodes (8, w) (decRR w f) :=
  .asR h fun hl => .fields hl hf

theorem decRRI {op w : Nat} {f : Reg → Reg → BitVec 32 → Instr} (h : IsWord 8 0 op w)
    (hf : ∀ {d a imm}, encode (f d a imm) = some (encI op d.val a.val 0 0 imm.toNat)) : Encodes (8, w) (decRRI w f) :=
  .asI h fun hl => .fields hl hf

theorem decFRRR {op w : Nat} {f : ElemType → RoundMode → Reg → Reg → Reg → Instr} (h : IsWord 8 0 op w)
    (hf : ∀ {ty rm d a b}, encode (f ty rm d a b) = some (encR op d.val a.val b.val 0 rm.code ty.code)) :
    Encodes (8, w) (decFRRR w f) :=
  .asR h fun hl => .withCode ElemType.eq_code fun _ => .withCode RoundMode.eq_code fun _ => .fields hl hf

theorem decAtomic {op w : Nat} {useC : Bool} {f : AtomicArgs → Reg → Instr} (h : IsWord 8 0 op w)
    (hf : ∀ {x c}, encode (f x c) = some (encAtomic op x (if useC then c.val else 0))) : Encodes (8, w) (decAtomic w useC f) := by
  cases useC
  all_goals exact .asE h fun hl => .withOrder fun _ => .fields hl hf

theorem decLoad {op w : Nat} {f : Size → Bool → Bool → Bool → Reg → MemArg → Instr} (h : IsWord 8 0 op w)
    (hf : ∀ {sz sx tg k d m}, encode (f sz sx tg k d m) = some (encM op d.val m sz.code (bit tg) (bit sx) (bit k))) :
    Encodes (8, w) (decLoad w f) :=
  .asM h fun hl => .withCode Size.eq_code fun _ => .fields hl hf

theorem decTag {w : Nat} (h : IsWord 8 0 0x33 w) : Encodes (8, w) (decTag w) :=
  .asM h fun hl => .withCode Size.eq_code fun _ => by
    split
    · exact .fields hl rfl
    · exact .fields hl rfl
    · exact .fields hl rfl
    · next h0 h1 h2 =>
      simp only [imp_false] at h0 h1 h2
      exact .fields hl rfl

theorem decXfer {op w : Nat} {grist : Bool} {f : Nat → XferArgs → Instr} (h : IsWord 12 1 op w)
    (hf : ∀ dir x, dir < 2 → encode (f dir x) = some (encXfer op (if grist then dir else 0) x)) :
    Encodes (12, w) (decXfer w f grist) := by
  cases grist
  all_goals exact .asEL h fun hl => .withOrder fun _ => .fields hl (hf _ _ (Nat.mod_lt _ (by decide)))

theorem decVArith {op w : Nat} {f : ElemType → RoundMode → VReg → VReg → VOperand → VMask → Instr} (h : IsWord 12 1 op w)
    (hf : ∀ {ty rm vd va b m}, encode (f ty rm vd va b m) = some (encVArith op ty rm vd va b m)) : Encodes (12, w) (decVArith w f) :=
  .asV h fun hl => .withCode ElemType.eq_code fun _ => .withCode RoundMode.eq_code fun _ =>
    .withVOperand (fun _ _ _ => .fields hl hf) fun _ _ _ => .fields hl hf

theorem decVMinMax {op w : Nat} {f : ElemType → VReg → VReg → VOperand → VMask → Instr} (h : IsWord 12 1 op w)
    (hf : ∀ {ty vd va b m}, encode (f ty vd va b m) = some (encVArith op ty .rne vd va b m)) : Encodes (12, w) (decVMinMax w f) :=
  .asV h fun hl => .withCode ElemType.eq_code fun _ =>
    .withVOperand (fun _ _ _ => .fields hl hf) fun _ _ _ => .fields hl hf

theorem decVBits {op w : Nat} {sOk : Bool} {f : Bool → VReg → VReg → VOperand → VMask → Instr} (h : IsWord 12 1 op w)
    (hf : ∀ {ar vd va b m}, encode (f ar vd va b m) = some (encVBits op (if sOk then bit ar else 0) vd va b m)) :
    Encodes (12, w) (decVBits w sOk f) := by
  cases sOk
  all_goals exact .asV h fun hl => .withVOperand (fun _ _ _ => .fields hl hf) fun _ _ _ => .fields hl hf

theorem decVRed {op w : Nat} {f : RedOp → ElemType → RoundMode → VReg → VReg → VMask → Instr} (h : IsWord 12 1 op w)
    (hf : ∀ {r ty rm vd va m}, encode (f r ty rm vd va m) = some (encV op vd.val va.val 0 0 m ty.code rm.code r.code 0)) :
    Encodes (12, w) (decVRed w f) :=
  .asV h fun hl => .withCode RedOp.eq_code fun _ => .withCode ElemType.eq_code fun _ => .withCode RoundMode.eq_code fun _ =>
    .fields hl hf

theorem decVQuant {op w : Nat} {f : ElemType → RoundMode → VReg → VReg → VReg → VMask → Instr} (h : IsWord 12 1 op w)
    (hf : ∀ {ty rm vd va vc m}, encode (f ty rm vd va vc m) = some (encV op vd.val va.val 0 vc.val m ty.code rm.code 0 0)) :
    Encodes (12, w) (decVQuant w f) :=
  .asV h fun hl => .withCode ElemType.eq_code fun _ => .withCode RoundMode.eq_code fun _ => .fields hl hf

theorem decVPred {op w : Nat} {f : VReg → VReg → VReg → Pred → VMask → Instr} (h : IsWord 12 1 op w)
    (hf : ∀ {vd va vb p m}, encode (f vd va vb p m) = some (encV op vd.val va.val vb.val p.val m 0 0 0 0)) :
    Encodes (12, w) (decVPred w f) :=
  .asV h fun hl => .fields hl hf

theorem decLin {op w : Nat} {useB ordOk useCt : Bool} {f : Reg → Reg → Reg → Cnt → Guard → MemOrder → Instr} (h : IsWord 12 1 op w)
    (hf : ∀ {d a b ct gd ord}, encode (f d a b ct gd ord) = some (encEL op d.val a.val (if useB then b.val else 0)
      (if ordOk then gd.val else 0) (if ordOk then ord else noOrder) (if useCt then ct.val else 0) 0 0 0 0)) :
    Encodes (12, w) (decLin w useB ordOk useCt f) := by
  cases useB <;> cases ordOk <;> cases useCt
  all_goals exact .asEL h fun hl => .withOrder fun _ => .fields hl hf

end Encodes

/-! The three spaces (R64 to R66), arm by arm in the order of the decoder. -/

theorem decode64_encodes {op w : Nat} (h : IsWord 8 0 op w) : Encodes (8, w) (decode64 op w) := by
  unfold decode64
  split
  exacts [
    -- NOP to MAX
    .asR h fun hl => .fields hl rfl, .decRRR h rfl, .decRRR h rfl, .decRRR h rfl, .decRRR h rfl, .decRRR h rfl, .decRRR h rfl,
    .decRRR h rfl, .decRRR h rfl, .decRRR h rfl, .decRRR h rfl, .decRRR h rfl, .decRRR h rfl, .decRRR h rfl, .decRRR h rfl,
    .decRRR h rfl, .decRRR h rfl,
    -- CMP to MOV
    .asR h fun hl => .withCode Cond.eq_code fun _ => .fields hl rfl, .asR h fun hl => .fields hl rfl, .decRR h rfl, .decRR h rfl,
    .decRR h rfl,
    -- FADD to FCVT
    .decFRRR h rfl, .decFRRR h rfl, .decFRRR h rfl,
    .asR h fun hl => .withCode ElemType.eq_code fun _ => .withCode RoundMode.eq_code fun _ => .fields hl rfl,
    .asR h fun hl => .withCode ElemType.eq_code fun _ => .fields hl rfl,
    .asR h fun hl => .withCode ElemType.eq_code fun _ => .fields hl rfl,
    .asR h fun hl => .withCode ElemType.eq_code fun _ => .withCode Cond.eq_code fun _ => .fields hl rfl,
    .asR h fun hl => .withCode ElemType.eq_code fun _ => .withCode ElemType.eq_code fun _ =>
      .withCode RoundMode.eq_code fun _ => .fields hl rfl,
    -- BR to TRAP
    .asB h fun hl => .fields hl rfl, .asB h fun hl => .withCode Cond.eq_code fun _ => .fields hl rfl,
    .asB h fun hl => .fields hl rfl, .asR h fun hl => .fields hl rfl, .decRR h rfl, .asB h fun hl => .fields hl rfl,
    .asI h fun hl => .fields hl rfl, .asR h fun hl => .fields hl rfl, .asI h fun hl => .fields hl rfl,
    -- LD to HJOIN
    .decLoad h rfl, .asM h fun hl => .withCode Size.eq_code fun _ => .fields hl rfl, .decLoad h rfl, .decTag h,
    .asR h fun hl => .fields hl rfl, .decRR h rfl,
    -- PHASE to RECV
    .asI h fun hl => .withCode Level.eq_code fun _ => (by
      split
      exacts [.fields hl rfl, .fields hl rfl, .error]),
    .asR h fun hl => .withCode VoteOp.eq_code fun _ => .withCode Level.eq_code fun _ => .fields hl rfl,
    .asI h fun hl => .below fun _ => .fields hl rfl, .asR h fun hl => .fields hl rfl, .asR h fun hl => .fields hl rfl,
    .asI h fun hl => (by
      split
      exacts [.fields hl rfl, .fields hl rfl, .fields hl rfl, .error]),
    .asI h fun hl => .below fun _ => .fields hl rfl,
    .asM h fun hl => .withCode Size.eq_code fun _ => .fields hl rfl,
    -- ADD to MAX with an immediate, CMP with one, BFX, BFI
    .decRRI h rfl, .decRRI h rfl, .decRRI h rfl, .decRRI h rfl, .decRRI h rfl, .decRRI h rfl, .decRRI h rfl, .decRRI h rfl,
    .decRRI h rfl, .decRRI h rfl, .decRRI h rfl, .decRRI h rfl, .asI h fun hl => .withCode Cond.eq_code fun _ => .fields hl rfl,
    .asI h fun hl => .fields hl rfl, .asI h fun hl => .fields hl rfl,
    -- PLOG to CNTSET
    .asR h fun hl => .withCode PlogOp.eq_code fun _ => .fields hl rfl,
    .asR h fun hl => .withCode PcntMode.eq_code fun _ => .fields hl rfl, .asI h fun hl => .below fun _ => .fields hl rfl,
    .asR h fun hl => .fields hl rfl, .asI h fun hl => .fields hl rfl, .asI h fun hl => .fields hl rfl,
    .asI h fun hl => .fields hl rfl,
    -- AADD to WDQ
    .decAtomic h rfl, .decAtomic h rfl, .decAtomic h rfl, .decAtomic h rfl, .decAtomic h rfl, .decAtomic h rfl, .decAtomic h rfl,
    .decAtomic h rfl, .asE h fun hl => .withCode Scope.eq_code fun _ => .fields hl rfl,
    .asE h fun hl => .withOrder fun _ => .fields hl rfl, .asE h fun hl => .fields hl rfl, .asE h fun hl => .fields hl rfl,
    .asE h fun hl => .withOrder fun _ => .fields hl rfl, .asE h fun hl => .below fun _ => .fields hl rfl,
    -- HEATAGE to KILNRB
    .asE h fun hl => .withOrder fun _ => .fields hl rfl, .asE h fun hl => .withOrder fun _ => .fields hl rfl,
    .asE h fun hl => .withOrder fun _ => .fields hl rfl, .asE h fun hl => .fields hl rfl, .asE h fun hl => .fields hl rfl,
    .asE h fun hl => .fields hl rfl, .asE h fun hl => .fields hl rfl,
    -- CSRR to ICINV
    .asS h fun hl => .fields hl rfl, .asS h fun hl => .fields hl rfl, .asS h fun hl => .fields hl rfl,
    .asS h fun hl => .withCode Reach.eq_code fun _ => .fields hl rfl, .asS h fun hl => .fields hl rfl,
    -- an opcode without a row
    .error]

theorem decode96_encodes {op w : Nat} (h : IsWord 12 1 op w) : Encodes (12, w) (decode96 op w) := by
  unfold decode96
  split
  exacts [
    -- GET to GRIST
    .decXfer h fun _ _ _ => rfl, .decXfer h fun _ _ _ => rfl,
    .decXfer h fun dir _ hd => (by
      obtain rfl | rfl : dir = 0 ∨ dir = 1 := by omega
      all_goals rfl),
    -- CPY to TSPAWN
    .asEL h fun hl => (by
      simp only [unpack, decCopy]
      exact .withOrder fun _ => .withCode Where.eq_code fun _ => .fields hl rfl),
    .asEL h fun hl => (by
      simp only [unpack, decCopy, decInbox]
      split
      exacts [.withOrder fun _ => .withCode Where.eq_code fun _ => .fields hl rfl,
        .withOrder fun _ => .withCode Where.eq_code fun _ => .fields hl rfl,
        .withOrder fun _ => .withCode Where.eq_code fun _ => .fields hl rfl, .error]),
    .asEL h fun hl => .withOrder fun _ => .fields hl rfl,
    .asEL h fun hl => .withOrder fun _ => .withCode ElemType.eq_code fun _ => .fields hl rfl,
    .asEL h fun hl => .withOrder fun _ => .fields hl rfl,
    -- LFORK to LINFO
    .asEL h fun hl => (by
      split
      exacts [.fields hl rfl, .fields hl rfl, .error]),
    .decLin h rfl, .decLin h rfl, .decLin h rfl, .decLin h rfl, .decLin h rfl,
    -- VCLAIM to VABS
    .asV h fun hl => .fields hl rfl, .asV h fun hl => .fields hl rfl,
    .asV h fun hl => .withCode ElemType.eq_code fun _ => .fields hl rfl,
    .asV h fun hl => .withCode ElemType.eq_code fun _ => .fields hl rfl, .decVArith h rfl, .decVArith h rfl, .decVArith h rfl,
    .asV h fun hl => .withCode ElemType.eq_code fun _ => .withCode RoundMode.eq_code fun _ =>
      .withVOperand (fun _ _ _ => .fields hl rfl) fun _ _ _ => .fields hl rfl,
    .decVMinMax h rfl, .decVMinMax h rfl,
    .asV h fun hl => .withCode ElemType.eq_code fun _ => .fields hl rfl,
    -- VCVT to VIDX
    .asV h fun hl => .withCode ElemType.eq_code fun _ => .withCode ElemType.eq_code fun _ =>
      .withCode RoundMode.eq_code fun _ => .fields hl rfl,
    .decVQuant h rfl, .decVQuant h rfl, .decVRed h rfl, .decVRed h rfl, .decVPred h rfl,
    .asV h fun hl => .withCode ElemType.eq_code fun _ => .withCode Cond.eq_code fun _ =>
      .withVOperand (fun _ _ _ => .fields hl rfl) fun _ _ _ => .fields hl rfl,
    .decVPred h rfl,
    .asV h fun hl => .withCode FnOp.eq_code fun _ => .withCode ElemType.eq_code fun _ =>
      .withCode RoundMode.eq_code fun _ => .fields hl rfl,
    .asV h fun hl => .withCode ElemType.eq_code fun _ => (by
      split
      exacts [.fields hl rfl, .fields hl rfl, .error]),
    .asV h fun hl => .fields hl rfl,
    -- VAND to VSHR, and an opcode without a row
    .decVBits h rfl, .decVBits h rfl, .decVBits h rfl, .decVBits h rfl, .decVBits h rfl, .error]

theorem decode128_encodes {op w : Nat} (h : IsWord 16 2 op w) : Encodes (16, w) (decode128 op w) := by
  unfold decode128
  split
  exacts [
    .asX h fun hl => .fields hl rfl, .asMX h fun hl => .withCode ElemType.eq_code fun _ => .fields hl rfl,
    .asMX h fun hl => .fields hl rfl,
    .asMX h fun hl => .withCode ElemType.eq_code fun _ => .withCode ElemType.eq_code fun _ => .fields hl rfl,
    .asMX h fun hl => .withCode ElemType.eq_code fun _ => .fields hl rfl,
    .asMX h fun hl => .withCode ElemType.eq_code fun _ => .fields hl rfl,
    .asMX h fun hl => (by
      split
      exacts [.fields hl rfl, .fields hl rfl, .error]),
    .error]

/-- Every word that decodes is of one of the three spaces. -/
theorem decodeWord_encodes {w : Nat} {i : Instr} (hi : decodeWord w = .ok i) :
    ∃ n, lengthOf w = some n ∧ i.wellFormed = true ∧ encode i = some (n, w % 2 ^ (8 * n)) := by
  have word {n code : Nat} (hn : n = 8 ∨ n = 12 ∨ n = 16) (hc : w % 4 = code) : IsWord n code (w / 4 % 256) (w % 2 ^ (8 * n)) := by
    obtain rfl | rfl | rfl := hn <;> exact ⟨by omega, by omega, by omega⟩
  unfold decodeWord at hi
  unfold lengthOf
  split at hi
  · next hc => exact ⟨8, rfl, decode64_encodes (word (by decide) hc) i hi⟩
  · next hc => exact ⟨12, rfl, decode96_encodes (word (by decide) hc) i hi⟩
  · next hc => exact ⟨16, rfl, decode128_encodes (word (by decide) hc) i hi⟩
  · cases hi

/-- Settles O58: the word is the encoding by the decoder's arms, and an event has none by the instruction's own round trip. -/
theorem decodedWordsEncode : Obligations.DecodedWordsEncode := by
  unfold Obligations.DecodedWordsEncode
  intro w i hi
  obtain ⟨n, hlen, hwf, henc⟩ := decodeWord_encodes hi
  have hevent : i.isEvent = false := by
    obtain ⟨hnone, -⟩ := roundTrip i hwf
    rw [henc] at hnone
    exact Bool.eq_false_iff.mpr fun he => nomatch hnone.mpr he
  exact ⟨hwf, hevent, n, hlen, henc⟩

end Sys2Proof
end

section
/-! LD and ST as far as their checks (R75, R131, R375, R411): the first check that fails says how the access ends. -/

namespace Sys2Proof

open Sys2Proof.Machine

section
variable {sz : Size} {sx tg k : Bool} {d : Reg} {m : MemArg} {s : State} {e : Stop}

theorem ld_deferred_base (hb : s.me.dbit m.base.val = true) :
    exec (.ld sz sx tg k d m) s = finish s (s.me.pc + 8) (.error (.trap 8 (w64 m.base.val))) := by
  show execLd sz sx tg k d m s = _
  rw [execLd, need_trap hb]; rfl

theorem st_deferred_base (hb : s.me.dbit m.base.val = true) :
    exec (.st sz tg k d m) s = finish s (s.me.pc + 8) (.error (.trap 8 (w64 m.base.val))) := by
  show execSt sz tg k d m s = _
  rw [execSt, needAll, need_trap hb]; rfl

theorem ld_refused (hb : s.me.dbit m.base.val = false)
    (hc : localCheck m.sp (s.me.localAddr m) (sizeOf' sz) (sizeOf' sz) = .error e) :
    exec (.ld sz sx tg k d m) s = finish s (s.me.pc + 8) (.error e) := by
  show execLd sz sx tg k d m s = _
  simp only [execLd, need_ok hb, hc, bind, Except.bind]

theorem st_refused (hb : s.me.dbit m.base.val = false) (hd : s.me.dbit d.val = false)
    (hc : localCheck m.sp (s.me.localAddr m) (sizeOf' sz) (sizeOf' sz) = .error e) :
    exec (.st sz tg k d m) s = finish s (s.me.pc + 8) (.error e) := by
  show execSt sz tg k d m s = _
  have hn : needAll s.me [m.base.val, d.val] = .ok () := needAll_ok (by simp [hb, hd])
  simp only [execSt, hn, hc, bind, Except.bind]

/-- A load that passes its checks is an access of W, A or C, or of the event unit's window. -/
theorem ld_local (hb : s.me.dbit m.base.val = false) (hs : m.sp ≠ .e)
    (hc : localCheck m.sp (s.me.localAddr m) (sizeOf' sz) (sizeOf' sz) = .ok ()) :
    exec (.ld sz sx tg k d m) s = finish s (s.me.pc + 8) (s.loadLocal (sizeOf' sz) sx tg k d m.sp (s.me.localAddr m)) := by
  show execLd sz sx tg k d m s = _
  simp only [execLd, need_ok hb, hc, bind, Except.bind, if_neg hs]

theorem st_local (hb : s.me.dbit m.base.val = false) (hd : s.me.dbit d.val = false) (hs : m.sp ≠ .e)
    (hc : localCheck m.sp (s.me.localAddr m) (sizeOf' sz) (sizeOf' sz) = .ok ()) :
    exec (.st sz tg k d m) s = finish s (s.me.pc + 8) (s.storeLocal (sizeOf' sz) tg k (s.me.sv d.val) m.sp (s.me.localAddr m)) := by
  show execSt sz tg k d m s = _
  have hn : needAll s.me [m.base.val, d.val] = .ok () := needAll_ok (by simp [hb, hd])
  simp only [execSt, hn, hc, bind, Except.bind, if_neg hs]

end

/-! Tags (R129, R131). -/

section
variable {s : State} {sp : Space} {e : Nat} {sz : Size}

/-- An aligned access of W, A or C waits for no drain when its line waits for none (R279). -/
theorem noDrain_ok (hs : sp ≠ .e) (he : e % sizeOf' sz = 0) (hd : lineOf sp e ∉ s.home.drain) :
    noDrain s sp e (sizeOf' sz) = .ok () := by
  rw [noDrain, pendingDrain_no _ sz sp e hs he hd]; rfl

theorem loadLocal_waits {sx k : Bool} {d : Reg} (hd : noDrain s sp e (sizeOf' sz) = .ok ())
    (hr : s.mayRead s.curCore (lineOf sp e) s.self = false) :
    s.loadLocal (sizeOf' sz) sx true k d sp e = .error (.wait s (lineObj sp e)) := by
  rw [State.loadLocal, hd, hr]
  cases k <;> rfl

theorem storeLocal_waits {k : Bool} {v : Word64} (hd : noDrain s sp e (sizeOf' sz) = .ok ())
    (hw : s.mayWrite s.curCore (lineOf sp e) s.self = false) :
    s.storeLocal (sizeOf' sz) true k v sp e = .error (.wait s (lineObj sp e)) := by
  rw [State.storeLocal, hd, hw]; rfl

/-- A tagged load waits at a line that is not full, or that a tagged write has in hand. -/
theorem mayRead_false {l : Nat} (h : (s.home.tag l).v = false ∨ s.lineHeld s.curCore l false (s.curCore, 0) = true) :
    s.mayRead s.curCore l s.self = false := by
  change ((s.home.tag l).v && !s.lineHeld s.curCore l false (s.curCore, 0)) = false
  obtain hv | hh := h
  · rw [hv, Bool.false_and]
  · rw [hh, Bool.not_true, Bool.and_false]

/-- A tagged store waits at a full line, or at one that a tagged access has in hand. -/
theorem mayWrite_false {l : Nat} (h : ((s.home.tag l).v = true ∧ (s.home.tag l).u = false) ∨
    s.lineHeld s.curCore l true (s.curCore, 0) = true) : s.mayWrite s.curCore l s.self = false := by
  change ((!(s.home.tag l).v || (s.home.tag l).u) && !s.lineHeld s.curCore l true (s.curCore, 0)) = false
  obtain ⟨hv, hu⟩ | hh := h
  · rw [hv, hu]; rfl
  · rw [hh, Bool.not_true, Bool.and_false]

end

/-- Settles O15: the traps by the check that fails, the waits by the tags of the access's line. -/
theorem localAccessChecks : Obligations.LocalAccessChecks := by
  unfold Obligations.LocalAccessChecks
  intro sz sx tg k d m s n e l
  refine ⟨fun hh hb => ?deferred, fun hh hb hr => ?range, fun hh hb hr ha => ?misaligned, fun hs hb hr ha hdrain hw => ?tags⟩
  case deferred =>
    rw [ld_deferred_base hb, st_deferred_base hb]
    exact ⟨traps_finish s _ _ _ hh, traps_finish s _ _ _ hh⟩
  case range =>
    have hc := localCheck_range (al := sizeOf' sz) hr
    refine ⟨?_, fun hd => ?_⟩
    · rw [ld_refused hb hc]; exact traps_finish s _ _ _ hh
    · rw [st_refused hb hd hc]; exact traps_finish s _ _ _ hh
  case misaligned =>
    have hc := localCheck_align hr ha
    refine ⟨?_, fun hd => ?_⟩
    · rw [ld_refused hb hc]; exact traps_finish s _ _ _ hh
    · rw [st_refused hb hd hc]; exact traps_finish s _ _ _ hh
  case tags =>
    have hc := localCheck_ok hr ha
    have hfree := noDrain_ok (s := s) hs ha hdrain
    refine ⟨fun hline => ?_, fun hd hline => ?_⟩
    · rw [ld_local hb hs hc]
      exact loadLocal_waits (sx := sx) (k := k) (d := d) hfree (mayRead_false hline) ▸ waitsFor_finish s _ _ _ hw
    · rw [st_local hb hd hs hc]
      exact storeLocal_waits (k := k) hfree (mayWrite_false hline) ▸ waitsFor_finish s _ _ _ hw

end Sys2Proof
end

section
/-! REPSEQ and REPGO (R72, R91, R175, R176, R400, R401): what a capture makes of its path, and how the two instructions end. -/

namespace Sys2Proof

open Sys2Proof.Machine

/-! The path of a capture. -/

/-- A word that a capture takes is none of those that it passes over or follows. -/
theorem capturable_ne {i : Instr} (h : capturable i = true) : i ≠ .nop ∧ ∀ off, i ≠ .br off :=
  ⟨fun e => (by rw [e] at h; cases h), fun off e => (by rw [e] at h; cases h)⟩

theorem captures_length {k n : Nat} {pc pc' : Word64} {s u : State} {caps : List Instr} (h : Captures k n pc s caps pc' u) :
    caps.length = n := by
  induction h with
  | done => rfl
  | nop _ _ ih => exact ih
  | br _ _ _ ih => exact ih
  | word _ _ _ _ ih => rw [List.length_cons, ih]

/-- A path that ends within the fuel is captured as it stands. -/
theorem captureFrom_captures {k n : Nat} {pc pc' : Word64} {s u : State} {caps : List Instr} (h : Captures k n pc s caps pc' u)
    (f : Nat) (hf : k ≤ f) (acc : List Instr) : captureFrom f n acc pc s = .done (acc ++ caps) pc' u := by
  induction h generalizing f acc with
  | done => rw [List.append_nil, captureFrom]
  | nop hfetch _ ih =>
    obtain ⟨f, rfl⟩ := Nat.exists_eq_add_of_le' (Nat.le_trans (Nat.succ_pos _) hf)
    rw [captureFrom, hfetch]
    exact ih f (Nat.le_of_succ_le_succ hf) acc
  | br off hfetch _ ih =>
    obtain ⟨f, rfl⟩ := Nat.exists_eq_add_of_le' (Nat.le_trans (Nat.succ_pos _) hf)
    rw [captureFrom, hfetch]
    exact ih f (Nat.le_of_succ_le_succ hf) acc
  | word i hc hfetch _ ih =>
    obtain ⟨f, rfl⟩ := Nat.exists_eq_add_of_le' (Nat.le_trans (Nat.succ_pos _) hf)
    obtain ⟨hnop, hbr⟩ := capturable_ne hc
    rw [captureFrom, hfetch]
    split
    · next he => cases he
    · next he => cases he; exact absurd rfl hnop
    · next he => cases he; exact absurd rfl (hbr _)
    · next he =>
      cases he
      rw [if_pos hc, ih f (Nat.le_of_succ_le_succ hf), List.append_assoc, List.singleton_append]

/-! Changes of the running context, one after another. -/

/-- A change of the running context and one more are a change of it. -/
theorem OnlyMe.trans {s t u : State} (h : OnlyMe s t id) (hu : OnlyMe t u id) (hc : t.curCore = s.curCore)
    (hx : t.curCtx = s.curCtx) : OnlyMe s u id where
  core := {
    whole := hu.core.whole.trans (by rw [h.core.whole])
    others := fun k hk => (hu.core.others k (by rwa [hc])).trans (h.core.others k hk) }
  home := hu.home.trans h.home
  ctxs := fun j hj => (hu.ctxs j (by rwa [hx])).trans (h.ctxs j hj)

theorem Becomes.of_modMe {s : State} {f : Ctx → Ctx} {o : Host.Outcome State Fault Refusal} {x : Ctx}
    (h : Becomes (s.modMe f) o x) : Becomes s o x := by
  obtain ⟨t, ho, hm, hx⟩ := h
  exact ⟨t, ho, (onlyMe_modMe s f).trans hm rfl rfl, hx⟩

/-- An instruction that completes, having changed the running context alone. -/
theorem becomes_finish (s : State) (npc : Word64) (f : Ctx → Ctx) :
    Becomes s (finish s npc (.ok (s.modMe f))) ((f s.me).complete npc) := by
  have h := (becomes_modMe (s.modMe f) (fun x => x.complete npc)).of_modMe
  rwa [State.modMe_me] at h

/-! REPSEQ. -/

section
variable {n : BitVec 5} {s : State}

theorem repseq_captures {u : State} {k : Nat} {caps : List Instr} {pc : Word64} (ha : s.me.rep.active = false) (hk : k ≤ 2 ^ 50)
    (h : Captures k n.toNat (s.me.pc + 8) s caps pc u) :
    exec (.repseq n) s = finish u pc (.ok (u.modMe (fun x => { x with rep := x.rep.captured caps }))) := by
  show execRepseq n s = _
  have hrun : captureFrom captureFuel n.toNat [] (s.me.pc + 8) s = .done caps pc u := captureFrom_captures h captureFuel hk []
  rw [execRepseq, ha, hrun]
  rfl

theorem repseq_waits (ha : s.me.rep.active = true) (hw : MayWait s) : WaitsFor s (exec (.repseq n) s) 10 0 := by
  show WaitsFor s (execRepseq n s) 10 0
  rw [execRepseq, if_pos ha]
  exact waitsFor_finish s _ _ _ hw

end

/-! REPGO. -/

/-- The count that a REPGO is given back is the one that its end takes (R91). -/
theorem counted_uncounted (x : Ctx) (r : Rep) : ({ x.uncounted with rep := r } : Ctx).counted = x.left := by
  unfold Ctx.counted Ctx.uncounted
  cases x.waitSince with
  | none => exact BitVec.add_sub_cancel ..
  | some c => rfl

section
variable {n : BitVec 16} {stride : BitVec 4} {s : State}

theorem repgo_starts (hn : n ≠ 0) (ha : s.me.rep.active = false) :
    Becomes s (exec (.repgo n stride) s) { s.me with
      pc := s.me.pc + 8, waitSince := none, waitObj := none, held := .none, rep := s.me.rep.go n stride s.me.pc } := by
  show Becomes s (execRepgo n stride s) _
  rw [execRepgo, if_neg hn, ha]
  have h := becomes_finish s (s.me.pc + 8) (fun x => { x.uncounted with rep := x.rep.go n stride x.pc })
  rw [Ctx.complete, counted_uncounted] at h
  exact h

theorem repgo_waits (hn : n ≠ 0) (ha : s.me.rep.active = true) (hw : MayWait s) :
    Becomes s (exec (.repgo n stride) s) { s.me with
      waitObj := some (10, 0), waitSince := some (s.me.waitSince.getD s.cycle) } := by
  show Becomes s (execRepgo n stride s) _
  have hwait : MayWait (s.modMe Ctx.uncounted) := by unfold MayWait; rw [State.modMe_me]; exact hw
  have h := (waitsFor_finish (s.modMe Ctx.uncounted) (s.me.pc + 8) 10 0 hwait).of_modMe
  have hleft : s.me.uncounted.counted = s.me.left := counted_uncounted s.me s.me.rep
  rw [State.modMe_me, hleft] at h
  rw [execRepgo, if_neg hn, if_pos ha]
  exact h

end

/-- Settles O23: REPSEQ by its path, REPGO by the repetition that it meets. -/
theorem repetitionStarts : Obligations.RepetitionStarts := by
  unfold Obligations.RepetitionStarts
  refine ⟨fun n s u k caps pc ha hn hk h => ?captures, fun n s => repseq_waits, ?repgo⟩
  case captures =>
    have hlen := captures_length h
    refine ⟨hlen, ?_⟩
    rw [repseq_captures ha hk h]
    refine gives_modMe u pc 0 0 false _ _ rfl ?_ rfl rfl
    rw [Rep.captured, hlen, BitVec.ofNat_toNat, BitVec.setWidth_eq]
    rfl
  case repgo =>
    intro n stride s uncounted
    refine ⟨gives_modMe s _ 0 0 false _ _ rfl rfl rfl rfl, fun hn ha hl => ?starts, fun hn ha hl => ?empty, repgo_waits⟩
    case starts =>
      have h := repgo_starts (stride := stride) hn ha
      rwa [Rep.go, if_neg hn, if_neg hl] at h
    case empty =>
      have h := repgo_starts (stride := stride) hn ha
      rwa [Rep.go, if_neg hn, if_pos hl] at h

end Sys2Proof
end

section
/-! A step that reaches a decodable word at a context's pc runs the instruction of that word, and a step for a unit's work does that
work. -/

namespace Sys2Proof

open Sys2Proof.Machine

/-- The step of a state whose next action, by the agenda or by the policy, is known. -/
theorem step_eq_act {s v : State} {a : Action}
    (h : (s.agenda = a :: v.agenda ∧ v = { s with agenda := v.agenda }) ∨ (s.agenda = [] ∧ s.choose = a ∧ v = s.tick)) :
    step s = v.act a := by
  obtain ⟨hl, hv⟩ | ⟨hl, ha, hv⟩ := h
  · rw [hv]; simp only [step, hl]
  · simp only [step, hl, ha, hv]

/-! The turn that a context gets. -/

/-- The state in which a context's turn takes place: with the slot, or without it. -/
def turnState (slot : Bool) (s : State) (c h : Nat) : State :=
  if slot then s.take c h else (s.ctxTurn c h).select c h

@[simp] theorem turnState_curCore (slot : Bool) (s : State) (c h : Nat) : (turnState slot s c h).curCore = c := by
  cases slot <;> rfl

@[simp] theorem turnState_curCtx (slot : Bool) (s : State) (c h : Nat) : (turnState slot s c h).curCtx = h := by
  cases slot <;> rfl

theorem issue_eq_turn {s : State} {c h : Nat} (hm : s.mayIssue c = true) (hn : (s.core c).nextCtx = some h) :
    s.issue c = (s.take c h).turn := by
  simp [State.issue, hm, hn]

theorem retry_eq_turn {s : State} {c h : Nat} (hm : s.mayIssue c = true) (hr : ((s.core c).ctx h).retries = true) :
    s.retry c h = ((s.ctxTurn c h).select c h).turn := by
  simp [State.retry, hm, hr]

/-! The fetch of a word that decodes. -/

theorem xlate_of_hits {s : State} {c va : Nat} {sup : Bool} {k : Kind} {e : TlbEntry} (h : Hits s c sup k va e) :
    s.xlate c sup k va = .ok (e, s) := by
  obtain ⟨hva, hf, hp⟩ := h
  simp only [State.xlate, State.lookup, Nat.not_le.2 hva, hf, hp, if_true, if_false]

theorem readHbm_clean {s : State} {c pa n : Nat} (hl : ∀ w ∈ s.flat.rmWrites, w.granule ≠ pa / 4096)
    (hp : s.hbmPoisoned pa n = false) (ho : s.lostAt (dieOf c) pa n = false) :
    s.readHbm c pa n = .ok (s.flat.hbm.read pa n, false) := by
  have hn : s.rmLock pa = none := by simpa [State.rmLock] using hl
  simp [State.readHbm, State.hbmRead, hn, hp, ho]

/-- A block that the instruction cache does not hold joins it at the end, and the oldest leaves a full one. -/
theorem keepBlock_absent {x : Core} {b : IBlock} (h : x.icache.find? (fun a => a.asid = b.asid && a.va = b.va) = none) :
    x.keepBlock b = { x with icache := (x.icache ++ [b]).drop ((x.icache ++ [b]).length - 512) } := by
  have hk : x.icache.filter (fun a => !(a.asid = b.asid && a.va = b.va)) = x.icache := by
    rw [List.filter_eq_self]
    intro a ha
    rw [List.find?_eq_none.1 h a ha |> Bool.eq_false_iff.2]
    rfl
  simp only [Core.keepBlock, hk, icacheBlocks]

theorem modHome_keepBlock_absent {s : State} {b : IBlock}
    (h : s.home.icache.find? (fun a => a.asid = b.asid && a.va = b.va) = none) :
    s.modHome (fun x => x.keepBlock b) =
      s.modHome (fun x => { x with icache := (s.home.icache ++ [b]).drop ((s.home.icache ++ [b]).length - 512) }) := by
  have hk := keepBlock_absent h
  unfold State.home at hk ⊢
  simp only [State.modHome, State.modCore, hk]

/-- The block that a fetch of the context that runs gets, and the state that it leaves. -/
def fetched (s : State) (va : Nat) (e : TlbEntry) : List Byte × State :=
  match s.home.icache.find? (fun b => b.asid = s.home.curAsid.toNat && b.va = va) with
  | some b => (b.bytes, s)
  | none =>
    (s.flat.hbm.read (e.phys va) 32,
      s.modHome (fun x => x.keepBlock { asid := s.home.curAsid.toNat, va := va, bytes := s.flat.hbm.read (e.phys va) 32 }))

theorem fetchBlock_eq_fetched {s : State} {pc va : Nat} {e : TlbEntry} (hh : Hits s s.curCore s.me.sup .fetch va e)
    (hl : ∀ w ∈ s.flat.rmWrites, w.granule ≠ e.phys va / 4096)
    (hp : s.home.icache.find? (fun b => b.asid = s.home.curAsid.toNat && b.va = va) = none →
      s.hbmPoisoned (e.phys va) 32 = false ∧ s.lostAt (dieOf s.curCore) (e.phys va) 32 = false) :
    s.fetchBlock pc va = .ok (fetched s va e) := by
  simp only [State.fetchBlock, xlate_of_hits hh, fetched]
  cases hf : s.home.icache.find? (fun b => b.asid = s.home.curAsid.toNat && b.va = va) with
  | some b => rfl
  | none =>
    obtain ⟨hq, ho⟩ := hp hf
    simp [readHbm_clean hl hq ho]

/-- What the decoder of a list of bytes finds in a list that it accepts. -/
theorem decodeBytes_ok {bs more : List Byte} {i : Instr} (h : decodeBytes bs = .ok (i, more)) :
    ∃ n, lengthOf (leNat (bs.take 4)) = some n ∧ n ≤ bs.length ∧ decodeWord (leNat (bs.take n)) = .ok i := by
  unfold decodeBytes at h
  split at h
  · cases h
  split at h
  · cases h
  next n hn =>
    split at h
    · cases h
    next hlen =>
      split at h
      next j hj => cases h; exact ⟨n, hn, by omega, hj⟩
      · cases h

theorem fetch_of_block {s t : State} {pc : Nat} {bs more : List Byte} {i : Instr}
    (hb : s.fetchBlock pc (pc / 32 * 32) = .ok (bs, t)) (hlen : bs.length = 32)
    (hd : decodeBytes (bs.drop (pc % 32)) = .ok (i, more)) (hp : s.me.sup = true ∨ privileged i = false) :
    s.fetch pc = .ok (i, t) := by
  obtain ⟨n, hn, hle, hw⟩ := decodeBytes_ok hd
  have hspan : ¬ 32 < pc % 32 + n := by
    rw [List.length_drop, hlen] at hle; omega
  have hpriv : (privileged i && !s.me.sup) = false := by
    obtain h | h := hp <;> simp [h]
  simp only [State.fetch, hb, bind, Except.bind, hn, hspan, hw, hpriv, if_false, Bool.false_eq_true]

/-! The turn of a context whose fetch succeeds. -/

theorem reserves_none {x : Ctx} {i : Instr} (h : ∀ r ∈ regsOf i, x.reserved.find r = none) : x.reserves i = none := by
  have key : ∀ (m : AMap Nat) (r : Nat), m.find r = none → ∀ e ∈ m, e.1 ≠ r := by
    intro m r hm
    induction m with
    | nil => simp
    | cons a m ih =>
      obtain ⟨k, v⟩ := a
      by_cases hk : k = r
      · simp [AMap.find, hk] at hm
      · simpa [hk] using ih (by simpa [AMap.find, hk] using hm)
  rw [Ctx.reserves, List.find?_eq_none]
  intro e he hc
  exact key _ e.1 (h e.1 (by simpa using hc)) e he rfl

theorem turn_eq_exec {s t : State} {i : Instr} (hf : s.fetch s.me.pc.toNat = .ok (i, t)) (hrep : s.me.repTrap = none)
    (hme : t.me = s.me) (hlast : (s.me.lastOfWindow && endsWindow i) = false) (hres : s.me.reserves i = none)
    (hbehind : (isArrayWord i && s.me.rep.active) = false) : s.turn = exec i (t.forkPlace i) := by
  simp [State.turn, hrep, hf, State.run, State.behindRep, hme, hlast, hres, hbehind]

/-- The instruction is not the last of its window: it waits already, its window has room, or it is one that ends none. -/
theorem not_last_of_window {x : Ctx} {i : Instr}
    (h : x.waitSince.isSome = true ∨ 1 < x.left.toNat ∨ (∃ mask budget, i = .yield mask budget) ∨
      ∃ n stride, i = .repgo n stride ∧ n ≠ 0) : (x.lastOfWindow && endsWindow i) = false := by
  obtain h | h | ⟨mask, budget, rfl⟩ | ⟨n, stride, rfl, hn⟩ := h
  · obtain ⟨w, hw⟩ := Option.isSome_iff_exists.1 h
    simp [Ctx.lastOfWindow, hw]
  · simp [Ctx.lastOfWindow, h]
  · simp [endsWindow]
  · simp only [endsWindow, hn, decide_false, Bool.and_false]

/-- The fork's place in the cycle, for every instruction. -/
theorem forkPlace_eq (s : State) (i : Instr) :
    s.forkPlace i =
      let place := Config.coreCount * s.curCtx + s.curCore
      let p : State := if s.sys.forkCycle = s.cycle ∧ place < s.sys.forkNext then s.tick else s
      let fork : Bool := match i with | .lfork .. | .lforkAf .. => true | _ => false
      if fork then { p with sys := { p.sys with forkCycle := p.cycle, forkNext := place + 1 } } else s := by
  unfold State.forkPlace
  split
  · rfl
  · rfl
  · simp only [if_false, Bool.false_eq_true]

@[simp] theorem keepBlock_ctxs (x : Core) (b : IBlock) : (x.keepBlock b).ctxs = x.ctxs := by
  simp only [Core.keepBlock]

@[simp] theorem fetched_curCore (s : State) (va : Nat) (e : TlbEntry) : (fetched s va e).2.curCore = s.curCore := by
  unfold fetched; split <;> rfl

@[simp] theorem fetched_curCtx (s : State) (va : Nat) (e : TlbEntry) : (fetched s va e).2.curCtx = s.curCtx := by
  unfold fetched; split <;> rfl

/-- The fetched block leaves the context that runs as it is. -/
theorem me_fetched (s : State) (va : Nat) (e : TlbEntry) : (fetched s va e).2.me = s.me := by
  unfold fetched
  split
  · rfl
  · exact me_modHome s _ (keepBlock_ctxs _ _)

/-- Settles O59: the action's turn is the chosen context's, its fetch finds the decoded word, and no check of the turn holds the
instruction back. -/
theorem stepRunsDecodedInstruction : Obligations.StepRunsDecodedInstruction := by
  unfold Obligations.StepRunsDecodedInstruction
  refine ⟨fun k s v hv => by rw [step_eq_act hv]; rfl, ?_⟩
  intro c h slot i more e s v action hv w₀ w at' u pc block held bytes kept t hmay hctx hpriv hrep hhits hlock hclean hlen hdec hwin
    hres hrun place p fork
  have hu : u = turnState slot v c h := by
    cases slot with
    | true => simp only [u, at', w, w₀, turnState, true_and, if_true]; rfl
    | false => rfl
  have hturn : step s = u.turn := by
    rw [step_eq_act hv, hu]
    cases slot with
    | true => exact issue_eq_turn hmay hctx
    | false => exact retry_eq_turn hmay hctx
  have hcore : u.curCore = c := by rw [hu, turnState_curCore]
  have hctxt : u.curCtx = h := by rw [hu, turnState_curCtx]
  clear_value u
  have hfetched : fetched u block e = (bytes, t) := by
    cases hf : held with
    | some b => simp only [fetched, held, bytes, t, hf] at hf ⊢
    | none =>
      have hblockAbsent := hf
      simp only [held] at hblockAbsent
      simp only [fetched, bytes, t, hf, hblockAbsent]
      rw [modHome_keepBlock_absent hblockAbsent]
      simp only [kept, bytes, hf]
  have hblock : u.fetchBlock pc block = .ok (bytes, t) := by
    rw [← hfetched]
    exact fetchBlock_eq_fetched (by rwa [hcore]) hlock (by rwa [hcore])
  have hme : t.me = u.me := by
    have := me_fetched u block e
    rwa [hfetched] at this
  have hnone : u.me.repTrap = none := by
    unfold Ctx.repTrap
    split
    · exact hrep ‹_›
    · rfl
  have hbehind : (isArrayWord i && u.me.rep.active) = false := by
    cases ha : isArrayWord i with
    | true => rw [hrun ha]; rfl
    | false => rfl
  have htcore : t.curCore = c := by
    rw [← hcore, ← fetched_curCore u block e, hfetched]
  have htctx : t.curCtx = h := by
    rw [← hctxt, ← fetched_curCtx u block e, hfetched]
  have hplace := congrArg (exec i) (forkPlace_eq t i)
  rw [htcore, htctx] at hplace
  rw [hturn, turn_eq_exec (fetch_of_block hblock hlen hdec hpriv) hnone hme (not_last_of_window hwin) (reserves_none hres) hbehind]
  exact hplace

end Sys2Proof
end

section
/-! A part of a flat NMC that covers a whole sector of its target changes more of flat memory than its bytes: it also ends what
`lost` says of the sector's replicas, which `Calm` and an empty `poison` leave open. -/

namespace Sys2Proof

open Sys2Proof.Machine

/-- ZERO on eight FP32 elements from 0x3000 on, which are one sector: its only part, 3, is under way. -/
def zeroingCmd : PgeCmd :=
  { id := 1, ctx := 0, pc := 0, seq := 0, ins := .nmc 1 2 0 0 { acq := false, rel := false, sc := .core } 8, va := 0, vb := 0, vc := 0
    bind := .val true, colour := false, asid := 0, sup := false, prog := .running
    img := leBytes 4 4 ++ leBytes 12 0 ++ leBytes 8 0x3000 ++ leBytes 8 0
    pos := 1, parts := [3], outUnits := [0x3000] }

/-- Its command block. -/
def zeroingBlock : CaskBlock :=
  { op := 4, lin := false, ty := .fp32, eta := 0, lambda := 0, handle := 0, dst := 0x3000, src := 0 }

theorem caskBlock_zeroingCmd : caskBlock zeroingCmd.img = some zeroingBlock := rfl

/-- A translation of the first 64 KiB to themselves. -/
def identityPage : TlbEntry :=
  { asid := 0, va := 0, size := 0x10000, pa := 0, r := true, w := true, x := true, rm := false, s := false, kst := 0, leaf := 0 }

/-- Core 0 holds the command, and die 0 has lost its replica of the target's sector. -/
def zeroingLost : State :=
  { cores := [(0, { tlb := [identityPage], pge := [zeroingCmd] })], flat := { lost := [(4 * (0x3000 / 32), true)] } }

theorem zeroingLost_pge : (zeroingLost.core 0).pge = [zeroingCmd] := rfl

theorem zeroingLost_calm : Calm zeroingLost := ⟨rfl, by decide, rfl, rfl⟩

theorem zeroingLost_hits : Hits zeroingLost 0 zeroingCmd.sup .write (4096 * 3) identityPage := by
  unfold Hits; decide +kernel

/-- The part's write covers the sector whole, so the replica is no longer lost. -/
theorem nmcPart_clears_lost {t : State} (h : exec (.nmcPart 0 1 3) zeroingLost = .next t) : t.flat.lost = [] := by
  have key : (match exec (.nmcPart 0 1 3) zeroingLost with | .next u => decide (u.flat.lost = []) | _ => false) = true := by
    decide +kernel
  rw [h] at key
  exact of_decide_eq_true key

/-- Refutes O45: in the clause of a part of NMC, memory's bytes are not all that the part changes. The ZERO of `zeroingCmd` covers
a sector whole, and the loss of die 0's replica of it ends. -/
theorem not_engineCommandsComplete : ¬ Obligations.EngineCommandsComplete := by
  unfold Obligations.EngineCommandsComplete
  rintro ⟨-, -, hpart⟩
  obtain ⟨t, q, hexec, hframe, -⟩ := hpart 0 3 1 2 0 0 { acq := false, rel := false, sc := .core } 8 zeroingCmd zeroingBlock
    identityPage zeroingLost (by decide) rfl caskBlock_zeroingCmd rfl rfl (by decide) (by decide) rfl rfl (by decide)
    (fun q hq => .inl (List.mem_singleton.1 (zeroingLost_pge ▸ hq))) (by decide) (by decide) (by decide) (by decide) (by decide)
    zeroingLost_hits rfl rfl rfl rfl zeroingLost_calm rfl
  have hkept : t.flat.lost = zeroingLost.flat.lost := by rw [hframe]
  rw [nmcPart_clears_lost hexec] at hkept
  exact absurd hkept (by decide)

end Sys2Proof
end

section
/-! YIELD and EXIT (R90, R91, R92, R96, R359, R441): the window that a YIELD opens, and what an EXIT leaves. -/

namespace Sys2Proof

open Sys2Proof.Machine

/-- No record that a test selects means that none is delivered (R299). -/
theorem deliverOldest_unselected {s : State} {p : FaultRec → Bool} (h : ∀ r ∈ s.home.faultq, p r = false) :
    deliverOldest s p = .ok () := by
  have hnone : ∀ l : List FaultRec, (∀ r ∈ l, p r = false) → takeRecord p l = none := by
    intro l hl
    induction l with
    | nil => rfl
    | cons r l ih =>
      rw [takeRecord, hl r List.mem_cons_self, ih (fun q hq => hl q (List.mem_cons_of_mem _ hq))]
      rfl
  rw [deliverOldest, hnone _ h]

/-- A change of the running context and of the rest of its core, made at once. -/
theorem onlyMe_modHome_modCtx {s : State} {f k : Core → Core} {g : Ctx → Ctx}
    (hk : coreRest (f s.home) = k (coreRest s.home)) (hc : ∀ h, (f s.home).ctx h = if h = s.curCtx then g s.me else s.home.ctx h) :
    OnlyMe s (s.modHome f) k ∧ (s.modHome f).me = g s.me := by
  refine ⟨⟨⟨rfl, fun j hj => State.modHome_core_other _ _ _ hj⟩, ?_, fun h hh => ?_⟩, ?_⟩
  · rw [State.modHome_home, hk]
  · rw [State.modHome_home, hc, if_neg hh]
  · rw [State.me, State.modHome_home, State.modHome_curCtx, hc, if_pos rfl]

/-- A change of the running context leaves every core's team. -/
@[simp] theorem teamOf_modMe (s : State) (f : Ctx → Ctx) (c : Nat) : (s.modMe f).teamOf c = s.teamOf c := by
  have hteam : ((s.modMe f).core c).team = (s.core c).team := by
    rw [State.modMe, State.modCtx, State.modCore_core]
    split
    · next h => rw [← h]; rfl
    · rfl
  rw [State.teamOf, State.teamOf, hteam]
  rfl

/-- A team that is not being taken needs no note of a rest (R99). -/
theorem noteRest_of_no_take {s : State} (h : ∀ t, s.teamOf s.curCore = some t → t.take = false) : s.noteRest = s := by
  unfold State.noteRest
  split
  · next t ht => rw [h t ht]; rfl
  · rfl

theorem taking_of_no_take {s : State} (h : ∀ t, s.teamOf s.curCore = some t → t.take = false) : s.taking = false := by
  unfold State.taking
  split
  · next t ht => rw [h t ht, Bool.and_false]
  · rw [Bool.and_false]

/-- The window of a budget holds budget × 256 instructions (R91). -/
theorem window_left (budget : BitVec 8) : budget.zeroExtend 16 * 256 = BitVec.ofNat 16 (budget.toNat * 256) := by
  apply BitVec.eq_of_toNat_eq
  simp

theorem liveHelper_none {x : Core} (h : ∀ j, 1 ≤ j → j ≤ 10 → (x.ctx j).live = false) : x.liveHelper = none := by
  rw [Core.liveHelper, List.find?_eq_none]
  intro j hj
  obtain ⟨h1, h2⟩ := (mem_upFrom 1 10 j).1 hj
  rw [h j h1 (by omega)]
  exact Bool.false_ne_true

theorem oldestCommand_none {s : State} {c : Nat} (hp : (s.core c).pge = []) (hm : (s.core c).mx = [])
    (hl : ∀ l ∈ s.sys.lin, l.core ≠ c) : s.oldestCommand c = none := by
  have hlin : s.sys.lin.filter (fun l => l.core = c) = [] := by simpa [List.filter_eq_nil_iff] using hl
  rw [State.oldestCommand, hp, hm, hlin]
  rfl

section
variable {a : Reg} {s : State}

theorem yield_opens_window {mask : BitVec 32} {budget : BitVec 8} (hr : s.me.reserved = []) (hn : NoRecords s)
    (ht : ∀ t, s.teamOf s.curCore = some t → t.take = false) :
    exec (.yield mask budget) s = .next (s.modMe (fun x => x.passYield budget)) := by
  show execYield mask budget s = _
  rw [execYield, hr, deliverOldest_none s hn, taking_of_no_take ht]
  rfl

theorem exit_helper (hd : s.me.dbit a.val = false) (hn : NoRecords s) (hc : s.curCtx ≠ 0) (hs : s.home.starts = [])
    (ht : ∀ t, s.teamOf s.curCore = some t → t.take = false) :
    exec (.exit a) s = .next (s.modMe (fun x => { x.ends with exitVal := s.me.sv a.val })) := by
  have hend : s.endHelper (s.me.sv a.val) = s.modMe (fun x => { x.ends with exitVal := s.me.sv a.val }) := by
    have hmod : s.modHome (fun c => startFired (s.teamSup s.curCore) c.starts.length
        (c.modCtx s.curCtx (fun x => { x.ends with exitVal := s.me.sv a.val }))) =
        s.modMe (fun x => { x.ends with exitVal := s.me.sv a.val }) := by
      have hlen : (s.core s.curCore).starts = [] := hs
      simp only [State.modHome, State.modMe, State.modCtx, State.modCore, hlen, List.length_nil, startFired]
    rw [State.endHelper, hmod]
    exact noteRest_of_no_take (fun t h => ht t (by rwa [teamOf_modMe] at h))
  show execExit a s = _
  rw [execExit, need_ok hd, deliverOldest_none s hn, ← hend]
  simp only [if_pos hc]

theorem exit_control (hd : s.me.dbit a.val = false) (hn : NoRecords s) (hc : s.curCtx = 0)
    (hh : ∀ h, 1 ≤ h → h ≤ 10 → (s.home.ctx h).live = false) (hp : s.home.pge = []) (hm : s.home.mx = [])
    (hl : ∀ l ∈ s.sys.lin, l.core ≠ s.curCore) (hr : ∀ r ∈ s.home.faultq, (s.home.ctx r.ctx).live = true) :
    exec (.exit a) s = .next s.endControl := by
  have hrec : deliverOldest s (fun r => r.ctx = 0 || !(s.home.ctx r.ctx).live) = .ok () :=
    deliverOldest_unselected (fun r h => by
      have hne : r.ctx ≠ 0 := hc ▸ hn r h
      simp [hr r h, hne])
  show execExit a s = _
  rw [execExit, need_ok hd, liveHelper_none hh, oldestCommand_none hp hm hl, hrec]
  simp only [hc, ne_eq, not_true_eq_false, if_false]

end

/-- Settles O12: YIELD by its window, a helper's EXIT as a change of its context alone, and h0's EXIT by what its end releases. -/
theorem yieldAndExit : Obligations.YieldAndExit := by
  unfold Obligations.YieldAndExit
  refine ⟨fun mask budget s hr hn ht => ?yield, fun a s hd hn => ?exit⟩
  case yield =>
    rw [yield_opens_window hr hn ht, ← window_left]
    exact becomes_modMe s _
  case exit =>
    intro gone
    refine ⟨fun hc hs ht => ?helper, fun hc hh hp hm hl hr => ?control⟩
    case helper =>
      rw [exit_helper hd hn hc hs ht]
      exact becomes_modMe s _
    case control =>
      obtain ⟨hframe, hme⟩ := onlyMe_modHome_modCtx (s := s) (g := Ctx.ends)
        (f := fun c => ({ c with pge := c.pge ++ c.sendq, sendq := [], exited := true } : Core).modCtx 0 Ctx.ends)
        (k := fun x => { x with pge := s.home.sendq, sendq := [], exited := true })
        (by simp only [coreRest, Core.modCtx, hp, List.nil_append])
        (fun j => by simp only [Core.modCtx_ctx, State.me, hc, eq_comm]; rfl)
      exact ⟨_, exit_control hd hn hc hh hp hm hl hr, hme, hframe⟩

end Sys2Proof
end

section
/-! HSTART and HJOIN (R79, R95, R97, R370): the status that HSTART writes, the state of the helper that it starts, and what HJOIN
gives. -/

namespace Sys2Proof

open Sys2Proof.Machine

/-! The context that a start makes (R79, R96, R298). -/

@[simp] theorem freshCtx_live (old : Ctx) (pc arg : Word64) (sup : Bool) : (freshCtx old pc arg sup).live = true := rfl
@[simp] theorem freshCtx_pc (old : Ctx) (pc arg : Word64) (sup : Bool) : (freshCtx old pc arg sup).pc = pc := rfl
@[simp] theorem freshCtx_sup (old : Ctx) (pc arg : Word64) (sup : Bool) : (freshCtx old pc arg sup).sup = sup := rfl

theorem freshCtx_sv (old : Ctx) (pc arg : Word64) (sup : Bool) (r : Nat) :
    (freshCtx old pc arg sup).sv r = if r = 1 then arg else 0 := by
  rw [freshCtx, Ctx.sv_setS]
  by_cases h0 : r = 0
  · subst h0; rfl
  · by_cases h1 : r = 1 <;> simp [h0, h1, Ctx.sv]

theorem freshCtx_dbit (old : Ctx) (pc arg : Word64) (sup : Bool) (r : Nat) : (freshCtx old pc arg sup).dbit r = false := by
  rw [freshCtx, Ctx.dbit_setS]
  by_cases h0 : r = 0
  · subst h0; rfl
  · by_cases h1 : r = 1 <;> simp [h0, h1, Ctx.dbit]

theorem freshCtx_rest (old : Ctx) (pc arg : Word64) (sup : Bool) :
    { freshCtx old pc arg sup with live := false, pc := 0, sregs := [], sup := false } =
      ({ life := old.life + 1, seq := old.seq, exitVal := old.exitVal, ovf := old.ovf } : Ctx) := rfl

section
variable {d a b c : Reg} {s : State}

/-- HSTART writes its status, in the state with the helper started when that is 0. -/
theorem hstart_eq (ha : s.me.dbit a.val = false) (hb : s.me.dbit b.val = false) (hc : s.me.dbit c.val = false) :
    exec (.hstart d a b c) s = finish s (s.me.pc + 8)
      (.ok (State.give (if s.hstartStatus (s.me.sv a.val) (s.me.sv b.val) = 0 then
          s.modCtx s.curCore (s.me.sv a.val).toNat (fun y => freshCtx y (s.me.sv b.val) (s.me.sv c.val) (s.teamSup s.curCore))
        else s) d (w64 (s.hstartStatus (s.me.sv a.val) (s.me.sv b.val))))) := by
  show execHstart d a b c s = _
  rw [execHstart, needAll_ok (by simp [ha, hb, hc])]
  rfl

/-- HJOIN once its register is not deferred. -/
theorem hjoin_eq (ha : s.me.dbit a.val = false) :
    exec (.hjoin d a) s = finish s (s.me.pc + 8)
      (if s.curCtx ≠ 0 ∨ (s.me.sv a.val).toNat < 1 ∨ 10 < (s.me.sv a.val).toNat then .ok (s.give d 0)
        else if (s.home.ctx (s.me.sv a.val).toNat).live then .error (.wait s (some (5, (s.me.sv a.val).toNat)))
        else .ok (s.give d (s.home.ctx (s.me.sv a.val).toNat).exitVal)) := by
  show execHjoin d a s = _
  rw [execHjoin, need_ok ha]
  rfl

end

/-- Settles O18: HSTART by its status, HJOIN by the helper that it names. -/
theorem helpersStartAndJoin : Obligations.HelpersStartAndJoin := by
  unfold Obligations.HelpersStartAndJoin
  intro d a b c s ha hb hc h old status
  have hstatus : s.hstartStatus (s.me.sv a.val) (s.me.sv b.val) = status := rfl
  refine ⟨fun hne => ?refused, fun hzero => ?starts, fun hbad => ?none, fun h0 h1 h2 hl => ?value, fun h0 h1 h2 hl hw => ?waits⟩
  case refused =>
    rw [hstart_eq ha hb hc, hstatus, if_neg hne]
    exact writes_setS s _ _ _ _
  case starts =>
    refine ⟨freshCtx old (s.me.sv b.val) (s.me.sv c.val) (s.teamSup s.curCore), rfl, rfl, freshCtx_sv _ _ _ _,
      freshCtx_dbit _ _ _ _, rfl, freshCtx_rest _ _ _ _, ?_⟩
    rw [hstart_eq ha hb hc, hstatus, if_pos hzero, hzero]
    exact writes_setS (s.modCtx s.curCore h _) (s.me.pc + 8) d.val 0 false
  case none =>
    rw [hjoin_eq ha, if_pos hbad]
    exact writes_setS s _ _ _ _
  case value =>
    rw [hjoin_eq ha, if_neg (by omega), hl]
    exact writes_setS s _ _ _ _
  case waits =>
    rw [hjoin_eq ha, if_neg (by omega), hl]
    exact waitsFor_finish s _ _ _ hw

end Sys2Proof
end

section
/-! TIME, SLEEPT and NBRD with the ends of their waits (R94, R328, R330, R386, R410, R413). -/

namespace Sys2Proof

open Sys2Proof.Machine

theorem ule_true {n : Nat} {v w : BitVec n} (h : v.toNat ≤ w.toNat) : v.ule w = true := decide_eq_true h

theorem ule_false {n : Nat} {v w : BitVec n} (h : w.toNat < v.toNat) : v.ule w = false := decide_eq_false (Nat.not_le.2 h)

/-! Waits that do not count against YSTALL (R93). -/

/-- A wait without an object, in a state that differs from the present one in the running context alone. -/
theorem becomes_waitOn_none (s : State) (npc : Word64) (f : Ctx → Ctx) :
    Becomes s (finish s npc (.error (.wait (s.modMe f) none)))
      { f s.me with left := (f s.me).counted, waitObj := none, waitSince := some s.cycle } := by
  have h := becomes_modMe (s.modMe f) (fun x => { x with left := x.counted, waitObj := none, waitSince := some s.cycle })
  rw [State.modMe_me] at h
  exact h.of_modMe

/-! SLEEPT. -/

section
variable {a : Reg} {s : State}

theorem sleept_returns (ha : s.me.dbit a.val = false) (ht : (s.me.sv a.val).toNat ≤ s.host.time.toNat) :
    exec (.sleept a) s = finish s (s.me.pc + 8) (.ok s) := by
  show execSleept a s = _
  rw [execSleept, need_ok ha]
  simp only [ule_true ht, or_true, if_true]
  rfl

theorem sleept_sleeps (ha : s.me.dbit a.val = false) (ht : s.host.time.toNat < (s.me.sv a.val).toNat) (hh : s.me.held ≠ .awake)
    (hk : ∀ t, s.teamOf s.curCore = some t → t.take = false) :
    exec (.sleept a) s = finish s (s.me.pc + 8)
      (.error (.wait (s.modMe (fun x => { x with held := .asleep (s.me.sv a.val) })) none)) := by
  have hrest : (s.modMe (fun x => { x with held := .asleep (s.me.sv a.val) })).noteRest =
      s.modMe (fun x => { x with held := .asleep (s.me.sv a.val) }) :=
    noteRest_of_no_take (fun t h => hk t (by rwa [teamOf_modMe] at h))
  show execSleept a s = _
  rw [execSleept, need_ok ha, ← hrest]
  simp only [ule_false ht, hh, or_self, if_false, Bool.false_eq_true]
  rfl

end

/-! Neighbours where no kiln of the job runs (R275, R280). -/

theorem asidOf_eq {s : State} {c : Nat} {t : Team} (h : s.teamOf c = some t) : s.asidOf c = t.asid := by
  rw [State.asidOf, h]

/-- A core whose job has no running kiln does not cut. -/
theorem cutBefore_idle {s : State} {c : Nat} (h : (s.job (s.asidOf c)).bind Job.running = none) (b : Bool) : s.cutBefore c b = s := by
  unfold State.cutBefore
  split
  · rfl
  · next t ht => rw [asidOf_eq ht] at h; rw [h]

theorem countIfOld_idle {s : State} {asid : Nat} (h : (s.job asid).bind Job.running = none) (i o : Nat) (b : Bool) :
    s.countIfOld asid i o b = s := by
  unfold State.countIfOld State.countOldBy
  rw [h]
  split <;> rfl

theorem exchange_idle {s : State} {c : Nat} (h : (s.job (s.asidOf c)).bind Job.running = none) (n : Nat) : s.exchange c n = s := by
  unfold State.exchange State.askNeighbour
  split
  · next hc =>
    have hn : s.asidOf n = s.asidOf c := by simp only [Bool.and_eq_true, decide_eq_true_eq] at hc; exact hc.2
    simp only [cutBefore_idle (c := n) (hn ▸ h), countIfOld_idle h, cutBefore_idle h]
  · rfl

/-- The neighbour by direction, and where the mesh ends (R94). -/
theorem neighbour_eq (c : Nat) (dir : Fin 4) :
    neighbour c dir.val =
      if (dir.val = 0 ∧ c / 224 = 0) ∨ (dir.val = 1 ∧ c % 224 = 223) ∨ (dir.val = 2 ∧ 119 ≤ c / 224) ∨ (dir.val = 3 ∧ c % 224 = 0)
      then none
      else some (if dir.val = 0 then c - 224 else if dir.val = 1 then c + 1 else if dir.val = 2 then c + 224 else c - 1) := by
  have hcol : c % 224 < 224 := Nat.mod_lt _ (by decide)
  match dir with
  | 0 => by_cases h : 1 ≤ c / 224 <;> simp [neighbour, rowOf, h] <;> omega
  | 1 => by_cases h : c % 224 + 1 < 224 <;> simp [neighbour, colOf, h] <;> omega
  | 2 => by_cases h : c / 224 + 1 < 120 <;> simp [neighbour, rowOf, h] <;> omega
  | 3 => by_cases h : 1 ≤ c % 224 <;> simp [neighbour, colOf, h] <;> omega

section
variable {d : Reg} {p : Pred} {dir : Fin 4} {s : State}

theorem nbrd_off_mesh (h : neighbour s.curCore dir.val = none) :
    exec (.nbrd d p dir) s = finish s (s.me.pc + 8) (.ok (s.nbrdResult d p false 0)) := by
  show execNbrd d p dir s = _
  rw [execNbrd, h]

theorem nbrd_ready {n : Nat} (h : neighbour s.curCore dir.val = some n) (hh : s.me.held = .none) (hf : s.fenced n = false)
    (hr : s.neighbourReady s.curCore n = true) (hk : (s.job (s.asidOf s.curCore)).bind Job.running = none) :
    exec (.nbrd d p dir) s = finish s (s.me.pc + 8) (.ok (s.nbrdResult d p true (s.core n).pub)) := by
  show execNbrd d p dir s = _
  rw [execNbrd, h, hh]
  simp only [hf, hr, exchange_idle hk, if_true, if_false, Bool.false_eq_true]

end

theorem ctxRest_setP (x : Ctx) (i : Nat) (v : Word64) : ctxRest (x.setP i v) = (ctxRest x).setP i v := by
  unfold Ctx.setP; split <;> rfl

theorem sregs_setP (x : Ctx) (i : Nat) (v : Word64) : (x.setP i v).sregs = x.sregs := by
  unfold Ctx.setP; split <;> rfl

theorem left_setP (x : Ctx) (i : Nat) (v : Word64) : (x.setP i v).left = x.left := by
  unfold Ctx.setP; split <;> rfl

theorem waitSince_setP (x : Ctx) (i : Nat) (v : Word64) : (x.setP i v).waitSince = x.waitSince := by
  unfold Ctx.setP; split <;> rfl

/-- NBRD's result is a scalar register and a predicate. -/
theorem gives_nbrdResult (s : State) (npc : Word64) (d : Reg) (p : Pred) (ready : Bool) (v : Word64) :
    Gives s (finish s npc (.ok (s.nbrdResult d p ready v))) npc d.val v false
      (fun x => x.setP p.val (if ready then BitVec.allOnes 64 else 0)) id :=
  gives_modMe s npc d.val v false _ _ (sregs_setP _ _ _) (by rw [ctxRest_setP, ctxRest_setS])
    (by rw [left_setP, left_setS]) (by rw [waitSince_setP, waitSince_setS])

theorem erase_preds_setP (x : Ctx) (i : Nat) (v : Word64) : { x.setP i v with preds := [] } = { x with preds := [] } := by
  unfold Ctx.setP; split <;> rfl

/-- A predicate is one of those that `ctxRest` keeps. -/
theorem pv_ctxRest (x : Ctx) (r : Nat) : (ctxRest x).pv r = x.pv r := rfl

/-- What NBRD's result says of each register and predicate. -/
theorem Gives.of_setP {s : State} {o : Host.Outcome State Fault Refusal} {npc : Word64} {d p : Nat} {v w : Word64}
    (h : Gives s o npc d v false (fun x => x.setP p w) id) :
    ∃ t, o = .next t ∧ OnlyMe s t id ∧ Completed s t npc ∧ SetsReg s.me t.me d v false ∧
      (∀ r, t.me.pv r = if r = 0 then BitVec.allOnes 64 else if r = p then w else s.me.pv r) ∧
      { ctxRest t.me with preds := [] } = { ctxRest s.me with preds := [] } := by
  obtain ⟨t, ho, hm, hc, hr, hg⟩ := h
  refine ⟨t, ho, hm, hc, hr, fun r => ?_, ?_⟩
  · rw [← pv_ctxRest t.me, hg, Ctx.pv_setP, pv_ctxRest]
  · rw [hg, erase_preds_setP]

/-- Settles O21: TIME and SLEEPT by the counter, the ends of the two waits by what the context holds, NBRD by its neighbour. -/
theorem timeAndNeighbours : Obligations.TimeAndNeighbours := by
  unfold Obligations.TimeAndNeighbours
  refine ⟨fun d s => writes_setS s _ _ _ _, fun a s ha => ⟨fun ht => ?returns, fun ht hh hk => ?sleeps⟩, fun c h t s hh ht => ?wake,
    fun c h since s hh ht => ?timeout, ?nbrd⟩
  case returns => rw [sleept_returns ha ht]; exact leaves_nothing s _
  case sleeps => rw [sleept_sleeps ha ht hh hk]; exact becomes_waitOn_none s _ _
  case wake =>
    show execSleepWake c h s = _
    rw [execSleepWake, hh]
    simp only [ule_true ht, if_true]
  case timeout =>
    show execNbrdTimeout c h s = _
    rw [execNbrdTimeout, hh]
    simp only [ht, if_true]
  case nbrd =>
    intro d p dir s hh row col off n ready hk v all hv
    have hdir : neighbour s.curCore dir.val = if off then none else some n := neighbour_eq s.curCore dir
    rcases hv with ⟨hoff, rfl, rfl⟩ | ⟨hon, ⟨hteam, hsame, hlive, hpark, hfence⟩, rfl, rfl⟩
    · rw [nbrd_off_mesh (hdir.trans (if_pos hoff))]
      exact (gives_nbrdResult s _ d p false 0).of_setP
    · have hready : s.neighbourReady s.curCore n = true := by
        simp only [State.home] at hteam hsame
        simp [State.neighbourReady, hteam, hsame, hlive, hpark]
      rw [nbrd_ready (hdir.trans (if_neg hon)) hh hfence hready hk]
      exact (gives_nbrdResult s _ d p true _).of_setP

end Sys2Proof
end

section
/-! The reissue of a captured VIDX (R91, R176, R177, R426): what a vector register holds after it is written, and one reissue of a
repetition buffer. -/

namespace Sys2Proof

open Sys2Proof.Machine

/-! Two changes of one part of the state are one change. -/

theorem AMap.put_put {α : Type} (m : AMap α) (k : Nat) (v w : α) : (m.put k v).put k w = m.put k w := by
  induction m with
  | nil => simp [AMap.put]
  | cons e m ih =>
    obtain ⟨j, u⟩ := e
    by_cases hk : j = k
    · simp [AMap.put, hk]
    · by_cases hlt : k < j <;> simp [AMap.put, hk, hlt, ih]

theorem modCtx_modCtx (s : State) (c h : Nat) (f g : Ctx → Ctx) :
    (s.modCtx c h f).modCtx c h g = s.modCtx c h (fun x => g (f x)) := by
  simp only [State.modCtx, State.modCore, State.core, Core.modCtx, Core.ctx, AMap.get_put_same, AMap.put_put]

/-! Writing a vector register (R421). -/

theorem lane_setLane (x : Ctx) {v l v' l' : Nat} (w : Word32) (hl : l < 64) (hl' : l' < 64) :
    (x.setLane v l w).lane v' l' = if v' = v ∧ l' = l then w else x.lane v' l' := by
  rw [Ctx.lane, Ctx.setLane, AMap.get_set]
  by_cases h : v' = v ∧ l' = l
  · rw [if_pos h, if_pos (by rw [h.1, h.2])]
  · rw [if_neg h, if_neg (by omega)]
    rfl

section
variable (x : Ctx) (vd : VReg) (m : VMask) (f : Nat → Word32)

/-- One lane of a register that is written without a draw or a flag (R421). -/
def pureLane (y : Ctx) (l : Nat) : Ctx :=
  if x.laneOn m.pm.val l then y.setLane vd.val l (f l) else if m.zm then y.setLane vd.val l 0 else y

theorem writeVecPure_eq : x.writeVecPure vd m f = (upFrom 0 x.vcount.val).foldl (pureLane x vd m f) x := rfl

theorem pureLane_lane (y : Ctx) {l v' l' : Nat} (hl : l < 64) (hl' : l' < 64) :
    (pureLane x vd m f y l).lane v' l' =
      if v' = vd.val ∧ l' = l then (if x.laneOn m.pm.val l then f l else if m.zm then 0 else y.lane v' l') else y.lane v' l' := by
  unfold pureLane
  cases x.laneOn m.pm.val l <;> cases m.zm <;> simp [lane_setLane _ _ hl hl']

theorem pureLane_rest (y : Ctx) (l : Nat) : { pureLane x vd m f y l with vregs := [] } = { y with vregs := [] } := by
  unfold pureLane
  cases x.laneOn m.pm.val l <;> cases m.zm <;> rfl

theorem foldl_pureLane_lane {lo n : Nat} (y : Ctx) (hn : lo + n ≤ 64) {v' l' : Nat} (hl' : l' < 64) :
    ((upFrom lo n).foldl (pureLane x vd m f) y).lane v' l' =
      if v' = vd.val ∧ lo ≤ l' ∧ l' < lo + n then
        (if x.laneOn m.pm.val l' then f l' else if m.zm then 0 else y.lane v' l') else y.lane v' l' := by
  induction n generalizing lo y with
  | zero => rw [if_neg (by omega)]; rfl
  | succ n ih =>
    rw [upFrom, List.foldl_cons, ih _ (by omega), pureLane_lane _ _ _ _ _ (by omega) hl']
    by_cases hv : v' = vd.val
    · by_cases hlo : l' = lo
      · subst hlo
        have hafter : ¬ l' + 1 ≤ l' := by omega
        have hin : l' < l' + (n + 1) := by omega
        simp only [hv, hafter, hin, and_self, false_and, and_false, if_true, if_false, le_refl]
      · have hsame : (lo ≤ l' ∧ l' < lo + (n + 1)) ↔ lo + 1 ≤ l' ∧ l' < lo + 1 + n := by omega
        simp only [hv, hlo, hsame, and_false, if_false]
    · simp only [hv, false_and, if_false]

theorem foldl_pureLane_rest (ls : List Nat) (y : Ctx) :
    { ls.foldl (pureLane x vd m f) y with vregs := [] } = { y with vregs := [] } := by
  induction ls generalizing y with
  | nil => rfl
  | cons l ls ih => rw [List.foldl_cons, ih, pureLane_rest]

theorem writeVecPure_lane {v l : Nat} (hl : l < 64) :
    (x.writeVecPure vd m f).lane v l =
      if v = vd.val ∧ l < x.vcount.val then
        (if (x.pv m.pm.val).getLsbD l then f l else if m.zm then 0 else x.lane v l) else x.lane v l := by
  have hn := x.vcount.isLt
  rw [writeVecPure_eq, foldl_pureLane_lane _ _ _ _ _ (by omega) hl]
  by_cases h : v = vd.val ∧ l < x.vcount.val
  · rw [if_pos ⟨h.1, Nat.zero_le l, by omega⟩, if_pos h]
    simp [Ctx.laneOn, h.2]
  · rw [if_neg (by omega), if_neg h]

theorem writeVecPure_rest : { x.writeVecPure vd m f with vregs := [] } = { x with vregs := [] } :=
  foldl_pureLane_rest _ _ _ _ _ _

end

/-! One reissue. -/

/-- The word of a VIDX that has its register moved, for the context that runs (R177). -/
theorem issueWord_vidx {u : State} (o : Origin) (k : Nat) (vd : VReg) (imm : BitVec 32) (m : VMask) (hv : u.me.vcount ≠ 0) :
    issueWord o (moveRegs k (.vidx vd imm m)) u =
      .ok (u.modMe (fun x => x.writeVecPure (VReg.move k vd) m (fun l => BitVec.ofNat 32 l + imm))) := by
  show vecAct u [] _ = _
  rw [vecAct, vecCheck, if_neg hv]
  rfl

/-- A VIDX names no scalar register. -/
theorem reserves_vidx (x : Ctx) (vd : VReg) (imm : BitVec 32) (m : VMask) : x.reserves (.vidx vd imm m) = none :=
  reserves_none (fun _ h => nomatch h)

/-- An iteration that is counted: one instruction of the window, once (R91). -/
def chargedRep (x : Ctx) : Ctx :=
  if x.rep.charged then x else { x with left := x.left - 1, rep := { x.rep with charged := true } }

theorem chargedRep_rest (x : Ctx) : { chargedRep x with left := 0, rep := {} } = { x with left := 0, rep := {} } := by
  unfold chargedRep; split <;> rfl

theorem chargedRep_rep (x : Ctx) : (chargedRep x).rep = { x.rep with charged := true } := by
  unfold chargedRep
  split
  · next hc => rw [← hc]
  · rfl

theorem chargedRep_left (x : Ctx) : (chargedRep x).left = if x.rep.charged then x.left else x.left - 1 := by
  unfold chargedRep; split <;> rfl

/-- The context after the reissue of a VIDX. -/
def reissuedVidx (vd : VReg) (imm : BitVec 32) (m : VMask) (x : Ctx) : Ctx :=
  let k := x.rep.iter.toNat * x.rep.stride.toNat
  let y := (chargedRep x).writeVecPure (VReg.move k vd) m (fun l => BitVec.ofNat 32 l + imm)
  { y with rep := y.rep.advance }

theorem reissue_vidx {u : State} {vd : VReg} {imm : BitVec 32} {m : VMask} (hl : (chargedRep u.me).left ≠ 0) (hv : u.me.vcount ≠ 0)
    (hw : u.me.rep.caps[u.me.rep.word.toNat]? = some (.vidx vd imm m)) :
    u.reissue = u.modMe (fun _ => reissuedVidx vd imm m u.me) := by
  have hmod : ∀ f g : Ctx → Ctx, (u.modMe f).modMe g = u.modMe (fun x => g (f x)) := fun f g => modCtx_modCtx u _ _ f g
  have hmod' : ∀ f : Ctx → Ctx, u.modMe f = u.modMe (fun _ => f u.me) := fun f => rfl
  cases hc : u.me.rep.charged with
  | true =>
    have hch : chargedRep u.me = u.me := if_pos hc
    rw [hch] at hl
    simp only [State.reissue, hc, if_true, hl, if_false, hw, reserves_vidx, issueWord_vidx _ _ _ _ _ hv, hmod]
    rw [hmod', reissuedVidx, hch]
  | false =>
    have hch : chargedRep u.me = { u.me with left := u.me.left - 1, rep := { u.me.rep with charged := true } } := by
      rw [chargedRep, hc]; rfl
    have hv' : (u.modMe (fun x => { x with left := x.left - 1, rep := { x.rep with charged := true } })).me.vcount ≠ 0 := by
      rw [State.modMe_me]; exact hv
    rw [hch] at hl
    simp only [State.reissue, hc, Bool.false_eq_true, if_false, State.modMe_me, hl, hw, reserves_vidx,
      issueWord_vidx _ _ _ _ _ hv', hmod]
    rw [hmod', reissuedVidx, hch]

/-- Settles O24: one reissue writes the moved register lane by lane, and the repeat state goes on. -/
theorem repetitionReissues : Obligations.RepetitionReissues := by
  unfold Obligations.RepetitionReissues
  intro c h vd imm pm s x r left moved hlive hactive htrap hstopped hleft hcount hword
  have hreissue := reissue_vidx (u := { s with curCore := c, curCtx := h }) (imm := imm) (m := { zm := false, pm := pm })
    (by rw [chargedRep_left]; exact hleft) hcount hword
  have hcharged := chargedRep_rest x
  have hrest := writeVecPure_rest (chargedRep x) (VReg.move (r.iter.toNat * r.stride.toNat) vd) { zm := false, pm := pm }
    (fun l => BitVec.ofNat 32 l + imm)
  refine ⟨reissuedVidx vd imm { zm := false, pm := pm } x, ?exec, fun v l hv hl => ?lanes, ?left, ?rep, ?rest⟩
  case exec =>
    show Host.Outcome.next _ = _
    rw [if_pos ⟨hlive, hactive, htrap, hstopped⟩, State.asContext, hreissue]
    rfl
  case lanes =>
    have hvcount : (chargedRep x).vcount = x.vcount := (congrArg Ctx.vcount hcharged :)
    have hpv : (chargedRep x).pv = x.pv := (congrArg Ctx.pv hcharged :)
    have hlane : (chargedRep x).lane = x.lane := (congrArg Ctx.lane hcharged :)
    refine (writeVecPure_lane _ _ _ _ hl).trans ?_
    rw [hvcount, hpv, hlane, BitVec.ofNat_add, BitVec.ofNat_toNat, BitVec.setWidth_eq]
    show (if v = moved ∧ l < x.vcount.val then
      (if (x.pv pm.val).getLsbD l then BitVec.ofNat 32 l + imm else x.lane v l) else x.lane v l) = _
    by_cases hin : v = moved ∧ l < x.vcount.val
    · simp only [hin, true_and, and_self, if_true]
    · rw [if_neg hin, if_neg (fun h => hin ⟨h.1, h.2.1⟩)]
  case left =>
    exact (congrArg Ctx.left hrest :).trans (chargedRep_left x)
  case rep =>
    have hrep := congrArg (fun x : Ctx => x.rep.advance) hrest
    refine hrep.trans ?_
    show (chargedRep x).rep.advance = _
    rw [chargedRep_rep, Rep.advance]
  case rest =>
    exact (congrArg (fun x : Ctx => { x with left := 0, rep := {} }) hrest :).trans
      (congrArg (fun x : Ctx => { x with vregs := [] }) hcharged :)

end Sys2Proof
end

section
/-! WAITC, CNTSET and EVSIG (R240, R242, R265, R299, R351, R358): the waits of a counter, and the waiting-task table's test of its
entries. -/

namespace Sys2Proof

open Sys2Proof.Machine

/-! Counter waits. -/

section
variable {ct : Cnt} {n : BitVec 32} {k : BitVec 16} {s : State}

theorem waitcGe_returns (hc : (s.home.counter ct.val - n).toNat < 2 ^ 31) (hr : ∀ r ∈ s.home.faultq, r.ctx ≠ s.curCtx ∨ r.ct ≠ ct.val)
    (hm : ∀ m, s.home.armed = some m → m.ct ≠ ct.val) : exec (.waitcGe ct n) s = finish s (s.me.pc + 8) (.ok s) := by
  have hrec : deliverOldest s (fun r => r.ctx = s.curCtx && r.ct = ct.val) = .ok () :=
    deliverOldest_unselected (fun r h => by rcases hr r h with h | h <;> simp [h])
  have hreached : reached (s.home.counter ct.val) n = true := decide_eq_true hc
  show execWaitcGe ct n s = _
  rw [execWaitcGe, hreached, hrec]
  cases ha : s.home.armed with
  | none => rfl
  | some m => simp only [hm m ha, if_false]; rfl

theorem waitcGe_waits (hc : 2 ^ 31 ≤ (s.home.counter ct.val - n).toNat) :
    exec (.waitcGe ct n) s = finish s (s.me.pc + 8) (.error (.wait s (some (1, ct.val)))) := by
  have hreached : reached (s.home.counter ct.val) n = false := decide_eq_false (Nat.not_lt.2 hc)
  show execWaitcGe ct n s = _
  rw [execWaitcGe, hreached]
  rfl

theorem waitcLeOl_eq : exec (.waitcLeOl k) s =
    finish s (s.me.pc + 8) (if s.me.ol.ule k then .ok s else .error (.wait s (some (2, 0)))) := rfl

theorem waitcLeOs_eq : exec (.waitcLeOs k) s =
    finish s (s.me.pc + 8) (if s.me.os.ule k then .ok s else .error (.wait s (some (2, 1)))) := rfl

end

/-! The test of the waiting-task table (R265). -/

/-- An entry fires for a counter's value. -/
def firesAt (ct : Nat) (v : Word32) (e : Nat × WttEntry) : Bool := decide (e.2.ct = ct) && reached v e.2.threshold

theorem firesAt_false {ct : Nat} {v : Word32} {e : Nat × WttEntry} (h : e.2.ct = ct → 2 ^ 31 ≤ (v - e.2.threshold).toNat) :
    firesAt ct v e = false := by
  unfold firesAt reached
  by_cases hc : e.2.ct = ct
  · rw [decide_eq_false (Nat.not_lt.2 (h hc)), Bool.and_false]
  · rw [decide_eq_false hc, Bool.false_and]

/-- Where no entry fires, or h0 has executed EXIT, the test changes nothing. -/
theorem fireEntries_none {x : Core} {ct : Nat} (sup : Bool)
    (h : (∀ e ∈ x.wtt, firesAt ct (x.counter ct) e = false) ∨ x.exited = true) : x.fireEntries ct sup = x := by
  have hstop : ((x.wtt.filter (firesAt ct (x.counter ct))).isEmpty || x.exited) = true := by
    rcases h with h | h
    · have hnone : x.wtt.filter (firesAt ct (x.counter ct)) = [] := List.filter_eq_nil_iff.2 (fun e he => by simp [h e he])
      rw [hnone]
      rfl
    · rw [h, Bool.or_true]
  exact if_pos hstop

/-- Where one entry fires, and its helper is not live, the entry disarms itself and the helper starts (R79, R265). -/
theorem fireEntries_one {x : Core} {ct e : Nat} {w : WttEntry} (sup : Bool)
    (h : x.wtt.filter (firesAt ct (x.counter ct)) = [(e, w)]) (hx : x.exited = false) (hs : x.starts = [])
    (hl : (x.ctx w.helper).live = false) :
    x.fireEntries ct sup =
      ({ x with wtt := x.wtt.filter (fun q => !firesAt ct (x.counter ct) q) } : Core).modCtx w.helper
        (fun c => freshCtx c w.target ((x.counter ct).zeroExtend 64) sup) := by
  have hgo : ((x.wtt.filter (firesAt ct (x.counter ct))).isEmpty || x.exited) = false := by rw [h, hx]; rfl
  refine (if_neg (ne_true_of_eq_false hgo)).trans ?_
  have hctx : ∀ (l : List PendStart) (m : AMap WttEntry), (({ x with wtt := m, starts := l } : Core).ctx w.helper).live = false :=
    fun _ _ => hl
  show startFired sup _ _ = _
  have hh : x.wtt.filter (fun q => decide (q.2.ct = ct) && reached (x.counter ct) q.2.threshold) = [(e, w)] := h
  simp only [hh, List.foldl_cons, List.foldl_nil, hs, insertStart, List.length_singleton, startFired, List.find?_cons, hctx,
    Bool.not_false, List.filter_cons, ne_eq, not_true_eq_false, decide_false, Bool.false_eq_true, if_false, List.filter_nil]
  rw [← hs]
  rfl

/-! A map with one entry more, of a key that it had not. -/

section
variable {α : Type} {p : Nat × α → Bool} {k : Nat} {v : α} {m : AMap α}

theorem filter_put_single (hm : ∀ e ∈ m, p e = false) (hk : ∀ e ∈ m, e.1 ≠ k) (hp : p (k, v) = true) :
    (m.put k v).filter p = [(k, v)] := by
  induction m with
  | nil => simp [AMap.put, hp]
  | cons e m ih =>
    have hrest := ih (fun q hq => hm q (List.mem_cons_of_mem _ hq)) (fun q hq => hk q (List.mem_cons_of_mem _ hq))
    have he := hm e List.mem_cons_self
    have hne := hk e List.mem_cons_self
    have hnone : m.filter p = [] := List.filter_eq_nil_iff.2 (fun q hq => by simp [hm q (List.mem_cons_of_mem _ hq)])
    obtain ⟨j, w⟩ := e
    by_cases hlt : k < j
    · simp [AMap.put, hne, hlt, hp, he, hnone]
    · simp [AMap.put, hne, hlt, he, hrest]

theorem filter_not_put_single (hm : ∀ e ∈ m, p e = false) (hk : ∀ e ∈ m, e.1 ≠ k) (hp : p (k, v) = true) :
    (m.put k v).filter (fun e => !p e) = m := by
  induction m with
  | nil => simp [AMap.put, hp]
  | cons e m ih =>
    have hrest := ih (fun q hq => hm q (List.mem_cons_of_mem _ hq)) (fun q hq => hk q (List.mem_cons_of_mem _ hq))
    have he := hm e List.mem_cons_self
    have hne := hk e List.mem_cons_self
    have hall : m.filter (fun e => !p e) = m :=
      List.filter_eq_self.2 (fun q hq => by simp [hm q (List.mem_cons_of_mem _ hq)])
    obtain ⟨j, w⟩ := e
    by_cases hlt : k < j
    · simp [AMap.put, hne, hlt, hp, he, hall]
    · simp [AMap.put, hne, hlt, he, hrest]

end

/-! EVSIG. -/

section
variable {e : Fin 8} {ct : Cnt} {a : Reg} {off : BitVec 32} {h : Fin 11} {s : State}

/-- The entry that an EVSIG arms. -/
def entryOf (s : State) (ct : Cnt) (a : Reg) (off : BitVec 32) (h : Fin 11) : WttEntry :=
  { ct := ct.val, threshold := (s.me.sv a.val).setWidth 32, target := s.me.pc + BitVec.ofInt 64 off.toInt, helper := h.val }

theorem evsig_disarms (h0 : h.val = 0) :
    exec (.evsig e ct a off h) s = finish s (s.me.pc + 8) (.ok (s.modHome (fun x => x.unarm e.val))) := by
  show execEvsig e ct a off h s = _
  rw [execEvsig, if_pos h0]

theorem evsig_arms (h0 : h.val ≠ 0) (ha : s.me.dbit a.val = false) :
    exec (.evsig e ct a off h) s = finish s (s.me.pc + 8)
      (.ok (s.modHome (fun x => ((x.unarm e.val).arm e.val (entryOf s ct a off h)).fireEntries ct.val (s.teamSup s.curCore)))) := by
  show execEvsig e ct a off h s = _
  rw [execEvsig, if_neg h0, need_ok ha]
  rfl

end

/-- What an armed core's table holds: the new entry, and old ones of other keys. -/
theorem mem_arm_unarm {x : Core} {e : Nat} {w : WttEntry} {q : Nat × WttEntry} (h : q ∈ ((x.unarm e).arm e w).wtt) :
    q = (e, w) ∨ q ∈ x.wtt :=
  (AMap.mem_put h).imp_right (fun hq => (List.mem_filter.1 hq).1)

/-- An entry that fires as it is armed leaves of the table what it held, and its helper starts. -/
theorem fireEntries_armed {x : Core} {ct e : Nat} {w : WttEntry} (sup : Bool)
    (hothers : ∀ q ∈ x.wtt, firesAt ct (x.counter ct) q = false) (hnew : firesAt ct (x.counter ct) (e, w) = true)
    (hfree : ∀ q ∈ x.wtt, q.1 ≠ e) (hx : x.exited = false) (hs : x.starts = []) (hl : (x.ctx w.helper).live = false) :
    ((x.unarm e).arm e w).fireEntries ct sup =
      x.modCtx w.helper (fun c => freshCtx c w.target ((x.counter ct).zeroExtend 64) sup) := by
  have herase : x.wtt.erase e = x.wtt := List.filter_eq_self.2 (fun q hq => by simp [hfree q hq])
  have hunarm : x.unarm e = x := by rw [Core.unarm, herase, hs, List.filter_nil, ← hs]
  rw [hunarm]
  refine (fireEntries_one (x := x.arm e w) (e := e) (w := w) sup (filter_put_single hothers hfree hnew) hx hs hl).trans ?_
  have hrest : ((x.arm e w).wtt.filter (fun q => !firesAt ct ((x.arm e w).counter ct) q)) = x.wtt :=
    filter_not_put_single hothers hfree hnew
  rw [hrest]
  rfl

/-- A change of the running core that comes to one of a context. -/
theorem modHome_eq_modCtx {s : State} {F : Core → Core} {h : Nat} {f : Ctx → Ctx} (hF : F s.home = s.home.modCtx h f) :
    s.modHome F = s.modCtx s.curCore h f := by
  have hF' : F (s.core s.curCore) = (s.core s.curCore).modCtx h f := hF
  simp only [State.modHome, State.modCtx, State.modCore, hF']

/-- A change of another context of the core is not one of the context that runs. -/
theorem me_modCtx_other (s : State) {h : Nat} (f : Ctx → Ctx) (hh : h ≠ s.curCtx) : (s.modCtx s.curCore h f).me = s.me := by
  simp only [State.me, State.home, State.modCtx, State.modCore_curCore, State.modCore_curCtx, State.modCore_core_same]
  exact Core.modCtx_ctx_other _ _ hh.symm

/-- The instruction completes, having changed one other context of its core. -/
theorem completes_modCtx_other (s : State) (npc : Word64) {h : Nat} (f : Ctx → Ctx) (hh : h ≠ s.curCtx) :
    let t := (s.modCtx s.curCore h f).modMe (fun x => x.complete npc)
    OnlyCore s.curCore s t ∧ Completed s t npc ∧ coreRest t.home = coreRest s.home ∧
      (∀ j, j ≠ s.curCtx → j ≠ h → t.home.ctx j = s.home.ctx j) ∧ t.home.ctx h = f (s.home.ctx h) ∧
      SetsReg s.me t.me 0 0 false ∧ ctxRest t.me = ctxRest s.me := by
  intro t
  have hme : t.me = s.me.complete npc := by
    rw [← me_modCtx_other s f hh]
    exact State.modMe_me _ _
  have hhome : t.home = (s.home.modCtx h f).modCtx s.curCtx (fun x => x.complete npc) := by
    have hone : (s.modCtx s.curCore h f).home = s.home.modCtx h f := State.modCore_core_same _ _ _
    rw [← hone]
    exact State.modMe_home _ _
  refine ⟨⟨rfl, fun k hk => ?_⟩, ⟨?_, ?_, ?_⟩, ?_, fun j hj hj' => ?_, ?_, setsReg_none _ _ ?_, ?_⟩
  · exact (State.modMe_core_other (s.modCtx s.curCore h f) _ k hk).trans (State.modCore_core_other s _ hk)
  · rw [hme]; rfl
  · rw [hme]; rfl
  · rw [hme]; exact ⟨rfl, rfl, rfl⟩
  · rw [hhome]; rfl
  · rw [hhome, Core.modCtx_ctx_other _ _ hj, Core.modCtx_ctx_other _ _ hj']
  · rw [hhome, Core.modCtx_ctx_other _ _ hh, Core.modCtx_ctx_same]
  · rw [hme]; rfl
  · rw [hme]; rfl

/-- Settles O20: the counter waits by their tests, CNTSET and EVSIG by the test of the table that follows them. -/
theorem countersAndTheirWaits : Obligations.CountersAndTheirWaits := by
  unfold Obligations.CountersAndTheirWaits
  refine ⟨fun ct n k s => ⟨fun hc hr hm => ?geReturns, fun hc hw => ?geWaits, fun hk => ?olReturns, fun hk => ?osReturns,
    fun hk hw => ?olWaits, fun hk hw => ?osWaits⟩, fun ct v s hq => ?cntset, fun e ct a off h s h0 => ?disarms, ?evsig⟩
  case geReturns => rw [waitcGe_returns hc hr hm]; exact leaves_nothing s _
  case geWaits => rw [waitcGe_waits hc]; exact waitsFor_finish s _ _ _ hw
  case olReturns => rw [waitcLeOl_eq, ule_true hk]; exact leaves_nothing s _
  case osReturns => rw [waitcLeOs_eq, ule_true hk]; exact leaves_nothing s _
  case olWaits => rw [waitcLeOl_eq, ule_false hk]; exact waitsFor_finish s _ _ _ hw
  case osWaits => rw [waitcLeOs_eq, ule_false hk]; exact waitsFor_finish s _ _ _ hw
  case cntset =>
    have hset : (s.home.setCounter ct.val v).fireEntries ct.val (s.teamSup s.curCore) = s.home.setCounter ct.val v := by
      have hcount : (s.home.setCounter ct.val v).counter ct.val = v := by rw [Core.counter_setCounter, if_pos rfl]
      refine fireEntries_none _ (.inl fun e he => ?_)
      rw [hcount]
      exact firesAt_false (hq e he)
    exact leaves_modHome s _ (fun x => (x.setCounter ct.val v).fireEntries ct.val (s.teamSup s.curCore)) _ (by rw [hset]; rfl)
      (by rw [hset]; rfl)
  case disarms =>
    rw [evsig_disarms h0]
    exact leaves_modHome s _ _ _ rfl rfl
  case evsig =>
    intro e ct a off h s h0 ha threshold target entry hold
    have hentry : entryOf s ct a off h = entry := rfl
    rw [evsig_arms h0 ha, hentry]
    have hothers : ∀ q ∈ s.home.wtt, firesAt ct.val (s.home.counter ct.val) q = false := fun q hq => firesAt_false (hold q hq)
    refine ⟨fun hno => ?armed, fun hc hfree hs hl hne hx => ?fires⟩
    case armed =>
      have hsame : ((s.home.unarm e.val).arm e.val entry).fireEntries ct.val (s.teamSup s.curCore) =
          (s.home.unarm e.val).arm e.val entry := by
        refine fireEntries_none _ (hno.imp_left fun hc q hq => ?_)
        rcases mem_arm_unarm hq with rfl | hq
        · exact firesAt_false (fun _ => hc)
        · exact hothers q hq
      exact leaves_modHome s _ (fun x => ((x.unarm e.val).arm e.val entry).fireEntries ct.val (s.teamSup s.curCore)) _
        (by rw [hsame]; rfl) (by rw [hsame]; rfl)
    case fires =>
      have hnew : firesAt ct.val (s.home.counter ct.val) (e.val, entry) = true := by
        rw [firesAt, decide_eq_true rfl, Bool.true_and]
        exact decide_eq_true hc
      have hstart := fireEntries_armed (x := s.home) (w := entry) (s.teamSup s.curCore) hothers hnew hfree hx hs hl
      have hmod := modHome_eq_modCtx
        (F := fun x => ((x.unarm e.val).arm e.val entry).fireEntries ct.val (s.teamSup s.curCore)) hstart
      obtain ⟨honly, hdone, hcore, hctxs, hnewctx, hregs, hctx⟩ := completes_modCtx_other s (s.me.pc + 8)
        (fun c => freshCtx c entry.target ((s.home.counter ct.val).zeroExtend 64) (s.teamSup s.curCore)) hne
      refine ⟨_, congrArg (fun t => finish s (s.me.pc + 8) (.ok t)) hmod, honly, hdone, hcore, hctxs, hregs, hctx, ?_⟩
      intro old x
      have hx' : x = freshCtx old target ((s.home.counter ct.val).zeroExtend 64) (s.teamSup s.curCore) := hnewctx
      rw [hx']
      exact ⟨rfl, rfl, rfl, freshCtx_sv _ _ _ _, freshCtx_dbit _ _ _ _, freshCtx_rest _ _ _ _⟩

end Sys2Proof
end

section
/-! PHASE and VOTE (R86 to R90, R172, R302, R393, R394, R437): the arrival and the return of an instruction, and the completion of a
domain's arrivals. -/

namespace Sys2Proof

open Sys2Proof.Machine

/-! One change for each of a list of cores. -/

section
variable (f : Nat → Core → Core)

/-- Changes each core of a list in its turn. -/
def modCores (s : State) (ms : List Nat) : State := ms.foldl (fun u m => u.modCore m (f m)) s

theorem modCores_whole (s : State) (ms : List Nat) : modCores f s ms = { s with cores := (modCores f s ms).cores } := by
  induction ms generalizing s with
  | nil => rfl
  | cons m ms ih => exact ih (s.modCore m (f m))

theorem modCores_core_other {s : State} {ms : List Nat} {c : Nat} (h : c ∉ ms) : (modCores f s ms).core c = s.core c := by
  induction ms generalizing s with
  | nil => rfl
  | cons m ms ih =>
    rw [List.mem_cons, not_or] at h
    exact (ih h.2).trans (State.modCore_core_other _ _ h.1)

/-- A change that a core takes once, or that twice is once. -/
theorem modCores_core {s : State} {ms : List Nat} {c : Nat} (h : c ∈ ms)
    (hf : ms.Nodup ∨ ∀ x, f c (f c x) = f c x) : (modCores f s ms).core c = f c (s.core c) := by
  induction ms generalizing s with
  | nil => cases h
  | cons m ms ih =>
    show (modCores f (s.modCore m (f m)) ms).core c = _
    by_cases hin : c ∈ ms
    · have htail : ms.Nodup ∨ ∀ x, f c (f c x) = f c x := hf.imp_left (fun h => (List.nodup_cons.1 h).2)
      rw [ih hin htail]
      by_cases hm : c = m
      · subst hm
        rw [State.modCore_core_same]
        exact hf.elim (fun h => absurd hin (List.nodup_cons.1 h).1) (fun h => h _)
      · rw [State.modCore_core_other _ _ hm]
    · rw [modCores_core_other f hin]
      obtain rfl : c = m := (List.mem_cons.1 h).resolve_right hin
      exact State.modCore_core_same _ _ _

end

/-! Waits of a context that YSTALL does not end (R93). -/

theorem waitOn_mayWait {u : State} (h : MayWait u) (k o : Nat) :
    u.waitOn (some (k, o)) = u.modMe (fun x => { x with
      left := x.counted, waitObj := some (k, o), waitSince := some (x.waitSince.getD u.cycle) }) := by
  have hw : (u.modMe (fun x => { x with
      left := x.counted, waitObj := some (k, o), waitSince := some (x.waitSince.getD u.cycle) })).waitedOut
      (u.modMe (fun x => { x with
        left := x.counted, waitObj := some (k, o), waitSince := some (x.waitSince.getD u.cycle) })).me = false := by
    rw [State.modMe_me]
    exact decide_eq_false (Nat.not_le.mpr h)
  exact if_neg (ne_true_of_eq_false hw)

/-- A wait in a state in which the core's own registers have changed. -/
theorem waits_modHome {s : State} (npc : Word64) (f k : Core → Core) (hk : coreRest (f s.home) = k (coreRest s.home))
    (hc : (f s.home).ctxs = s.home.ctxs) (hw : MayWait s) (i o : Nat) :
    ∃ t, finish s npc (.error (.wait (s.modHome f) (some (i, o)))) = .next t ∧ OnlyMe s t k ∧
      t.me = { s.me with left := s.me.counted, waitObj := some (i, o), waitSince := some (s.me.waitSince.getD s.cycle) } := by
  have hme := me_modHome s f hc
  have hmay : MayWait (s.modHome f) := by unfold MayWait; rw [hme]; exact hw
  refine ⟨_, congrArg Host.Outcome.next (waitOn_mayWait hmay i o), onlyMe_home s f _ k hk hc, ?_⟩
  rw [State.modMe_me, hme]
  rfl

/-! The checks and the arrival of an instruction. -/

section
variable {n : Level} {op : VoteOp} {d a : Reg} {s : State}

theorem phaseCheck_ok (h0 : s.curCtx = 0) (hr : s.me.rep.active = false) : phaseCheck s = .ok () := by
  simp only [phaseCheck, h0, hr, ne_eq, not_true_eq_false, if_false, Bool.false_eq_true]
  rfl

theorem phaseCheck_helper (h0 : s.curCtx ≠ 0) : phaseCheck s = .error (.trap 10 0) := by
  simp only [phaseCheck, h0, ne_eq, not_false_eq_true, if_true]
  rfl

theorem deliverOldest_h0 (h0 : s.curCtx = 0) (hn : NoRecords s) : deliverOldest s (fun r => r.ctx = 0) = .ok () := by
  rw [← h0]; exact deliverOldest_none s hn

theorem phaseC_opens (h0 : s.curCtx = 0) (hr : s.me.rep.active = false) (hn : NoRecords s) :
    exec (.phaseC n) s = finish s (s.me.pc + 8) (.ok (s.modHome Core.openPhase)) := by
  show execPhaseC n s = _
  rw [execPhaseC, phaseCheck_ok h0 hr, deliverOldest_h0 h0 hn]
  rfl

theorem phaseX_eq : exec (.phaseX n) s = finish s (s.me.pc + 8) (do let (_, t) ← s.arrival n none 0; .ok t) := rfl

theorem vote_eq (h0 : s.curCtx = 0) (hr : s.me.rep.active = false) (ha : s.me.dbit a.val = false) :
    exec (.vote op d a n) s =
      finish s (s.me.pc + 8) (do let (v, t) ← s.arrival n (some op) (s.me.sv a.val); .ok (t.give d v)) := by
  show execVote op d a n s = _
  rw [execVote, phaseCheck_ok h0 hr, need_ok ha]
  rfl

theorem vote_deferred (h0 : s.curCtx = 0) (hr : s.me.rep.active = false) (ha : s.me.dbit a.val = true) :
    exec (.vote op d a n) s = finish s (s.me.pc + 8) (.error (.trap 8 (w64 a.val))) := by
  show execVote op d a n s = _
  rw [execVote, phaseCheck_ok h0 hr, need_trap ha]
  rfl

end

section
variable {n : Level} {o : Option VoteOp} {v : Word64} {s : State}

/-- An instruction without an arrival of its own makes one. -/
theorem arrival_arrives (h0 : s.curCtx = 0) (hr : s.me.rep.active = false) (hn : NoRecords s)
    (hf : s.home.phase.arrivals.find? (fun b => b.of n o s.me.pc) = none) :
    s.arrival n o v = .error (.wait (s.modHome (fun x => x.arrive n o v s.me.pc)) (some (6, levelNum n))) := by
  rw [State.arrival, phaseCheck_ok h0 hr, deliverOldest_h0 h0 hn]
  simp only [hf, bind, Except.bind]

/-- One whose arrival has not completed waits for it. -/
theorem arrival_waits (h0 : s.curCtx = 0) (hr : s.me.rep.active = false) {b : Arrival} (hb : b.result = none)
    (hf : s.home.phase.arrivals.find? (fun b => b.of n o s.me.pc) = some b) :
    s.arrival n o v = .error (.wait s (some (6, levelNum n))) := by
  rw [State.arrival, phaseCheck_ok h0 hr]
  simp only [hf, hb, bind, Except.bind]

/-- A core without a claim of more than 16 lanes has none cut (R172). -/
theorem claimCut_none {c : Nat} (h : ∀ h, h ≤ 10 → ((s.core c).ctx h).vcount.val ≤ 16) : s.claimCut c = s := by
  have hstep : ∀ (hs : List Nat) (u : State), (∀ h ∈ hs, h ≤ 10) →
      hs.foldl (fun t h =>
        if 16 < ((s.core c).ctx h).vcount.val ∧
          (s.claims (clusterOf c)).any (fun q => (q.1 ≠ c || q.2.1 ≠ h) && decide (q.2.2.1 < q.2.2.2)) = true
        then t.modCtx c h (fun x => x.cutClaim 16) else t) u = u := by
    intro hs
    induction hs with
    | nil => exact fun _ _ => rfl
    | cons j hs ih =>
      intro u hu
      have hj := h j (hu j List.mem_cons_self)
      rw [List.foldl_cons, if_neg (fun hc => by omega)]
      exact ih u (fun i hi => hu i (List.mem_cons_of_mem _ hi))
  exact hstep _ s (fun j hj => by have := (mem_upFrom 0 11 j).1 hj; omega)

/-- One whose arrival has completed returns with its value. -/
theorem arrival_returns (h0 : s.curCtx = 0) (hr : s.me.rep.active = false) {b : Arrival} {r : Word64} (hb : b.result = some r)
    (hf : s.home.phase.arrivals.find? (fun b => b.of n o s.me.pc) = some b)
    (hc : ∀ h, h ≤ 10 → (s.home.ctx h).vcount.val ≤ 16) :
    s.arrival n o v = .ok (r, s.modHome (fun x => x.returned n o s.me.pc)) := by
  rw [State.arrival, phaseCheck_ok h0 hr]
  simp only [hf, hb, bind, Except.bind, claimCut_none (c := s.curCore) hc]

end

/-! The completion of a domain's arrivals (R88 to R90). -/

/-- An exited core, and one whose arrivals that match have completed, are left by a completion as they are. -/
theorem completes_completes (x : Core) (a : Arrival) (v : Word64) : (x.completes a v).completes a v = x.completes a v := by
  cases hx : x.exited with
  | true => rw [show x.completes a v = x from if_pos hx, show x.completes a v = x from if_pos hx]
  | false =>
    have hmap : ∀ b : Arrival, (if a.matches (if a.matches b then { b with result := some v } else b)
        then { (if a.matches b then { b with result := some v } else b) with result := some v }
        else (if a.matches b then { b with result := some v } else b)) = if a.matches b then { b with result := some v } else b := by
      intro b
      cases hm : a.matches b with
      | true => simp [Arrival.matches]
      | false => simp [hm]
    simp [Core.completes, hx, hmap]

section
variable {s : State} {c : Nat} {t : Team} {a : Arrival}

theorem phaseDone_true (hr : a.result = none)
    (hm : ∀ m ∈ t.domain ((s.core c).dom a.level), (s.core m).exited = true ∨
      ((s.core m).dom a.level = (s.core c).dom a.level ∧ ((s.core m).phase.arrivals.find? a.matches).isSome = true))
    (hs : ∀ m ∈ t.domain ((s.core c).dom a.level), ∀ p ∈ (s.core m).pge, ∀ x, p.ins = .sendP x →
      (t.domain ((s.core c).dom a.level)).contains (t.coreOf p.va.toNat) = false) : s.phaseDone t c a = true := by
  have hall : (t.domain ((s.core c).dom a.level)).all (s.matched a ((s.core c).dom a.level)) = true := by
    refine List.all_eq_true.2 (fun m hmem => ?_)
    rcases hm m hmem with hx | ⟨hd, hf⟩
    · simp [State.matched, hx]
    · simp [State.matched, Core.matching, hd, hf]
  have hany : (t.domain ((s.core c).dom a.level)).any
      (s.sendsOpen t a ((s.core c).dom a.level) (t.domain ((s.core c).dom a.level))) = false := by
    refine List.any_eq_false.2 (fun m hmem => ?_)
    rw [State.sendsOpen, Bool.not_eq_true, List.any_eq_false]
    intro p hp
    cases hi : p.ins with
    | sendP x => simp only [hs m hmem p hp x hi, Bool.and_false]; exact Bool.false_ne_true
    | _ => simp
  simp [State.phaseDone, hr, hall, hany]

theorem meet_idle {asid : Nat} (h : (s.job asid).bind Job.running = none) (ms : List Nat) : s.meet asid ms = s := by
  rw [State.meet, h]

theorem phaseCompletion_eq (ht : s.teamOf c = some t) (ha : (s.core c).phase.arrivals.head? = some a)
    (hd : s.phaseDone t c a = true) (hk : (s.job t.asid).bind Job.running = none) :
    exec (.phaseCompletion c) s = .next (modCores
      (fun _ x => x.completes a (s.combined a ((s.core c).dom a.level) (t.domain ((s.core c).dom a.level)))) s
      (t.domain ((s.core c).dom a.level))) := by
  have hfind : (s.core c).phase.arrivals.find? (s.phaseDone t c) = some a := by
    obtain ⟨rest, hrest⟩ := List.head?_eq_some_iff.1 ha
    rw [hrest, List.find?_cons_of_pos hd]
  show execPhaseCompletion c s = _
  rw [execPhaseCompletion, ht]
  simp only [hfind, meet_idle hk]
  rfl

end

/-- The combined value, where the members that have not exited stand in the domain. -/
theorem combined_eq {s : State} {a : Arrival} {d : Word64} {ms : List Nat}
    (hm : ∀ m ∈ ms, (s.core m).exited = true ∨ (s.core m).dom a.level = d) :
    s.combined a d ms = match a.op with
      | none => 0
      | some o => ms.foldl (fun v k => voteOp o v (match (s.core k).exited, (s.core k).phase.arrivals.find? a.matches with
          | false, some b => b.val
          | _, _ => voteId o)) (voteId o) := by
  cases hop : a.op with
  | none => simp only [State.combined, hop]
  | some o =>
    simp only [State.combined, hop]
    refine List.foldl_ext _ _ _ (fun v m hmem => ?_)
    cases hx : (s.core m).exited with
    | true => rfl
    | false =>
      have hd : (s.core m).dom a.level = d := (hm m hmem).resolve_left (ne_true_of_eq_false hx)
      simp only [Core.matching, hd, if_true]
      cases (s.core m).phase.arrivals.find? a.matches <;> rfl

/-- Settles O19: PHASE and VOTE by the arrival that they meet, and the completion as one change of each member. -/
theorem phasesVotesAndCompletion : Obligations.PhasesVotesAndCompletion := by
  unfold Obligations.PhasesVotesAndCompletion
  refine ⟨?instructions, ?completion⟩
  case instructions =>
    intro n op d a s hrep num opens mine arrives returns
    have hnum : num = levelNum n := rfl
    refine ⟨fun h0 hn => ?opens, fun h0 hn hw => ⟨fun hf => ?xArrives, fun hf ha => ?voteArrives⟩,
      fun h0 b hb hw => ⟨fun hf => ?xWaits, fun hf ha => ?voteWaits⟩,
      fun h0 hc b v hb => ⟨fun hf => ?xReturns, fun hf ha => ?voteReturns⟩, fun h0 hh ha => ?deferred, fun h0 hh => ?helper⟩
    case opens =>
      rw [phaseC_opens h0 hrep hn]
      exact leaves_modHome s _ _ _ rfl rfl
    case xArrives =>
      rw [phaseX_eq, arrival_arrives h0 hrep hn hf]
      exact waits_modHome _ _ _ (by cases n <;> rfl) rfl hw _ _
    case voteArrives =>
      rw [vote_eq h0 hrep ha, arrival_arrives h0 hrep hn hf]
      exact waits_modHome _ _ _ (by cases n <;> rfl) rfl hw _ _
    case xWaits =>
      rw [phaseX_eq, arrival_waits h0 hrep hb hf]
      exact waitsFor_finish s _ _ _ hw
    case voteWaits =>
      rw [vote_eq h0 hrep ha, arrival_waits h0 hrep hb hf]
      exact waitsFor_finish s _ _ _ hw
    case xReturns =>
      rw [phaseX_eq, arrival_returns h0 hrep hb hf hc]
      exact leaves_modHome s _ _ _ rfl rfl
    case voteReturns =>
      rw [vote_eq h0 hrep ha, arrival_returns h0 hrep hb hf hc]
      exact gives_home_setS s _ _ _ _ _ _ rfl rfl
    case deferred =>
      rw [vote_deferred h0 hrep ha]
      exact traps_finish s _ _ _ hh
    case helper =>
      have hcheck := phaseCheck_helper h0
      refine ⟨?_, ?_, ?_⟩
      · show Traps s (execPhaseC n s) 10 0
        rw [execPhaseC, hcheck]
        exact traps_finish s _ _ _ hh
      · show Traps s (execPhaseX n s) 10 0
        rw [execPhaseX, State.arrival, hcheck]
        exact traps_finish s _ _ _ hh
      · show Traps s (execVote op d a n s) 10 0
        rw [execVote, hcheck]
        exact traps_finish s _ _ _ hh
  case completion =>
    intro c s t a ht ha hr ms same hmet hsends hk
    have hsame : same = a.matches := rfl
    have hdone : s.phaseDone t c a = true := phaseDone_true hr hmet hsends
    have hvalue := combined_eq (a := a) (fun m hm => (hmet m hm).imp_right And.left)
    refine ⟨_, phaseCompletion_eq ht ha hdone hk, modCores_whole _ _ _, fun m hm => modCores_core_other _ hm, fun m hm hx => ?exited,
      fun m hm hx => ?member⟩
    case exited =>
      rw [modCores_core _ hm (.inr fun x => completes_completes x a _)]
      exact if_pos hx
    case member =>
      rw [modCores_core _ hm (.inr fun x => completes_completes x a _), hvalue]
      exact if_neg (ne_true_of_eq_false hx)

end Sys2Proof
end

section
/-! What the units of the system die read (R145, R146, R253, R313): two states that agree in flat memory, in the address spaces and in
the fabric are read alike, whatever else differs. -/

namespace Sys2Proof

open Sys2Proof.Machine

/-- The two states agree in all that a read of the system die looks at. -/
structure SeenAlike (s t : State) : Prop where
  flat : t.flat = s.flat
  spaces : t.sys.spaces = s.sys.spaces
  nodeid : t.sys.nodeid = s.sys.nodeid
  fab : t.fab = s.fab
  cycle : t.cycle = s.cycle

section
variable {s t : State}

theorem SeenAlike.pte (h : SeenAlike s t) (pa : Nat) : t.pte pa = s.pte pa := by
  unfold State.pte State.hbmSeen
  rw [h.flat]

theorem SeenAlike.walkFrom (h : SeenAlike s t) (asid va : Nat) (ls : List (Nat × Nat)) (table : Nat) (top : Bool) :
    walkFrom t asid va table top ls = walkFrom s asid va table top ls := by
  induction ls generalizing table top with
  | nil => rfl
  | cons l ls ih =>
    obtain ⟨lo, width⟩ := l
    simp only [Machine.walkFrom, h.pte, ih]

theorem SeenAlike.sysXlate (h : SeenAlike s t) (asid : Nat) (sup : Bool) (k : Kind) (va : Nat) :
    t.sysXlate asid sup k va = s.sysXlate asid sup k va := by
  unfold State.sysXlate walk State.space
  rw [h.spaces, h.walkFrom]

theorem SeenAlike.sysPeer (h : SeenAlike s t) (w off n : Nat) : t.sysPeer w off n = s.sysPeer w off n := by
  have hloop : ∀ win, (t.loopback win off).1 = (s.loopback win off).1 := by
    intro win
    simp only [State.loopback, h.fab, h.nodeid]
    split <;> rfl
  simp only [State.sysPeer, State.remoteRead, State.sysHost, State.hostRead, State.hbmSeen, h.fab, h.nodeid, h.flat, h.cycle, hloop]

theorem SeenAlike.sysRead (h : SeenAlike s t) (asid : Nat) (sup : Bool) (va n fuel : Nat) :
    t.sysRead asid sup va n fuel = s.sysRead asid sup va n fuel := by
  induction fuel generalizing va n with
  | zero => cases n <;> rfl
  | succ fuel ih =>
    cases n with
    | zero => rfl
    | succ n =>
      simp only [State.sysRead, h.sysXlate, ih, State.hbmSeen, State.sysHost, State.hostRead, h.flat, h.sysPeer]

theorem SeenAlike.sysWord (h : SeenAlike s t) (asid : Nat) (sup : Bool) (va : Nat) : t.sysWord asid sup va = s.sysWord asid sup va := by
  simp only [State.sysWord, h.sysRead]

theorem SeenAlike.taskWord (h : SeenAlike s t) (asid rec' k : Nat) : t.taskWord asid rec' k = s.taskWord asid rec' k := by
  simp only [State.taskWord, h.sysWord]

theorem SeenAlike.queueNum (h : SeenAlike s t) (hq : t.sys.queues = s.sys.queues) (n : Nat) : t.queueNum n = s.queueNum n := by
  have hc : t.queueConfig = s.queueConfig := funext (fun q => by simp only [State.queueConfig, h.taskWord])
  have ha : t.queueArmed = s.queueArmed := funext (fun q => by simp only [State.queueArmed, hc])
  have hn : t.queueNow = s.queueNow := funext (fun q => by simp only [State.queueNow, hc])
  simp only [State.queueNum, hq, ha, hn]

theorem SeenAlike.sysRuns (h : SeenAlike s t) (asid : Nat) (sup : Bool) (k : Kind) (va n fuel : Nat) :
    t.sysRuns asid sup k va n fuel = s.sysRuns asid sup k va n fuel := by
  induction fuel generalizing va n with
  | zero => cases n <;> rfl
  | succ fuel ih =>
    cases n with
    | zero => rfl
    | succ n => simp only [State.sysRuns, h.sysXlate, ih]

theorem SeenAlike.sysImage (h : SeenAlike s t) (hl : s.flat.rmWrites = []) (asid va n : Nat) :
    t.sysImage asid va n = s.sysImage asid va n := by
  have hs : ∀ pa k, s.settle pa k = s := settle_idle hl
  have ht : ∀ pa k, t.settle pa k = t := settle_idle (by rw [h.flat, hl])
  simp only [State.sysImage, h.sysRuns, hs, ht, h.flat]

theorem SeenAlike.hbmPoisoned (h : SeenAlike s t) (pa n : Nat) : t.hbmPoisoned pa n = s.hbmPoisoned pa n := by
  simp only [State.hbmPoisoned, h.flat]

/-- A place of HBM that a unit reaches. -/
theorem SeenAlike.sysAt (h : SeenAlike s t) {asid va n pa : Nat} (hs : SysAt s asid va n pa) : SysAt t asid va n pa where
  page := by simpa only [h.sysXlate] using hs.page
  hbm := hs.hbm
  clean := by rw [h.hbmPoisoned]; exact hs.clean

end

end Sys2Proof
end

section
/-! STALL and what it withdraws, WATCHDOG, and the end of a containment (R91, R93, R244, R257, R302 to R304, R307, R374). -/

namespace Sys2Proof

open Sys2Proof.Machine

/-! Maps of which every entry changes, or some are dropped. -/

theorem AMap.get_map {α β : Type} {d : α} {d' : β} {f : Nat → α → β} (m : AMap α) (k : Nat) (h : f k d = d') :
    AMap.get d' (m.map (fun e => (e.1, f e.1 e.2))) k = f k (AMap.get d m k) := by
  induction m with
  | nil => exact h.symm
  | cons e m ih =>
    obtain ⟨j, v⟩ := e
    by_cases hj : j = k
    · simp [AMap.get, hj]
    · simpa [AMap.get, hj] using ih

theorem AMap.get_filter_key {α : Type} (d : α) (p : Nat → Bool) (m : AMap α) (k : Nat) :
    AMap.get d (m.filter (fun e => p e.1)) k = if p k then AMap.get d m k else d := by
  induction m with
  | nil => simp [AMap.get]
  | cons e m ih =>
    obtain ⟨j, v⟩ := e
    by_cases hp : p j <;> by_cases hj : j = k <;> simp_all [AMap.get]

theorem AMap.get_eq_or_mem {α : Type} (d : α) (m : AMap α) (k : Nat) : AMap.get d m k = d ∨ (k, AMap.get d m k) ∈ m := by
  induction m with
  | nil => exact .inl rfl
  | cons e m ih =>
    obtain ⟨j, v⟩ := e
    by_cases hj : j = k
    · exact .inr (by simp [AMap.get, hj])
    · exact ih.imp (fun h => by simpa [AMap.get, hj] using h) (fun h => by simp [AMap.get, hj, h])

/-! Event waiters that nobody frees (R257). -/

/-- The waiters of every event that a test does not select. -/
def waitersLeft (y : SysDie) (p : EventWaiter → Bool) : AMap (List EventWaiter) :=
  (y.evWaiters.map (fun q => (q.1, q.2.filter (fun w => !p w)))).filter (fun q => !q.2.isEmpty)

theorem serveEvent_idle {s : State} {e : Nat}
    (h : ∀ w, (s.sys.waitersOf e).head? = some w → (s.sys.event e).toNat < w.n.toNat) (fuel : Nat) : serveEvent e fuel s = s := by
  cases fuel with
  | zero => rfl
  | succ fuel =>
    rw [serveEvent]
    cases hw : s.sys.waitersOf e with
    | nil => rfl
    | cons w r =>
      have hlt := h w (by rw [hw]; rfl)
      simp only [ule_false hlt, Bool.false_eq_true, if_false]

/-- Where no waiter that is left can be served, the others are dropped and no more. -/
theorem dropEventWaiters_idle {s : State} {p : EventWaiter → Bool}
    (h : ∀ q ∈ waitersLeft s.sys p, ∀ w, q.2.head? = some w → (s.sys.event q.1).toNat < w.n.toNat) :
    s.dropEventWaiters p = s.modSys (fun y => { y with evWaiters := waitersLeft s.sys p }) := by
  have hserve : ∀ e fuel, serveEvent e fuel (s.modSys (fun y => { y with evWaiters := waitersLeft s.sys p })) =
      s.modSys (fun y => { y with evWaiters := waitersLeft s.sys p }) := by
    intro e fuel
    refine serveEvent_idle (fun w hw => ?_) fuel
    rcases AMap.get_eq_or_mem [] (waitersLeft s.sys p) e with hnil | hmem
    · have hnone : (AMap.get [] (waitersLeft s.sys p) e).head? = some w := hw
      rw [hnil] at hnone
      cases hnone
    · exact h _ hmem w hw
  have hfold : ∀ es : List Nat, es.foldl (fun s e => serveEvent e ((s.sys.waitersOf e).length) s)
      (s.modSys (fun y => { y with evWaiters := waitersLeft s.sys p })) =
      s.modSys (fun y => { y with evWaiters := waitersLeft s.sys p }) := by
    intro es
    induction es with
    | nil => rfl
    | cons e es ih => rw [List.foldl_cons, hserve, ih]
  exact hfold _

/-! STALL (R93, R302). -/

/-- Whether what a context waits for has come about, so that it does not stall. -/
def answered (s : State) (c : Nat) : Held → Bool
  | .awaitDone _ | .eventDone _ | .mutexGranted _ | .eventLineDone _ _ | .kilnDone _ => true
  | .barrier l g => decide (((s.cluster (clusterOf c)).barrier l).gen ≠ g)
  | _ => false

theorem execStall_eq (c h : Nat) (s : State) :
    exec (.stall c h) s =
      match ((s.core c).ctx h).waitObj with
      | some (k, o) =>
        if ((s.core c).ctx h).live && !answered s c ((s.core c).ctx h).held && s.waitedOut ((s.core c).ctx h)
        then .next (({ s with curCore := c, curCtx := h } : State).stall k o) else .next s
      | none => .next s := rfl

/-- A wait past its limit traps in the state without what it had registered. -/
theorem stall_traps {c h k o since : Nat} {s v : State} (hlive : ((s.core c).ctx h).live = true)
    (hobj : ((s.core c).ctx h).waitObj = some (k, o)) (ho : o < 2 ^ 60) (hsince : ((s.core c).ctx h).waitSince = some since)
    (hpast : ((s.core c).ctx h).ystall.toNat ≤ s.cycle - since) (hans : answered s c ((s.core c).ctx h).held = false)
    (hv : ({ s with curCore := c, curCtx := h } : State).withdraw c h = v) (hh : HasHandler v) :
    Traps v (exec (.stall c h) s) 18 (BitVec.ofNat 64 (k * 2 ^ 60 + o)) := by
  have hout : s.waitedOut ((s.core c).ctx h) = true := by
    rw [State.waitedOut, hsince]; exact decide_eq_true hpast
  have hword : stallWord k o = BitVec.ofNat 64 (k * 2 ^ 60 + o) := by rw [stallWord, Nat.mod_eq_of_lt ho, w64]
  have hstall : ({ s with curCore := c, curCtx := h } : State).stall k o = v.trapEnter 18 (w64 18) (stallWord k o) := by
    rw [← hv]; rfl
  rw [execStall_eq, hobj]
  simp only [hlive, hans, hout, Bool.not_false, Bool.and_self, if_true, hstall, hword]
  exact traps_finish v 0 18 _ hh

/-- What is left of a state once a context that waits as given has withdrawn what it had registered. -/
def withdrawnAs (u : State) (c h : Nat) : Held → State
  | .awaitReg => u.modFlat (fun f => { f with waiters := f.waiters.filter (fun w => !(w.core = c && w.ctx = h)) })
  | .eventReg => u.dropEventWaiters (fun w => w.core = c && w.ctx = h)
  | .mutexQueued l => u.modCluster (clusterOf c) (fun k =>
      { k with mutexes := k.mutexes.put l { k.mutex l with queue := (k.mutex l).queue.filter (fun q => q ≠ (sliceOf c, h)) } })
  | .eventLine l => u.modCluster (clusterOf c) (fun k =>
      { k with events := k.events.put l { k.event l with queue := (k.event l).queue.filter (fun q => q ≠ (sliceOf c, h)) } })
  | .kilnAsked | .kilnTurn =>
    u.modSys (fun y => { y with kilnReqs := y.kilnReqs.filter (fun q => !(q.core = c && q.ctx = h)) })
  | _ => u

theorem withdraw_eq (u : State) (c h : Nat) : u.withdraw c h = withdrawnAs u c h ((u.core c).ctx h).held := by
  rfl

/-! The end of a containment (R307). -/

theorem inRect_iff (row0 col0 width height c : Nat) : inRect row0 col0 width height c = true ↔ Inside row0 col0 width height c :=
  decide_eq_true_iff

theorem abortKiln_idle {s : State} {as : List Nat} (h : ∀ a ∈ as, (s.job a).bind Job.running = none) :
    as.foldl State.abortKiln s = s := by
  induction as with
  | nil => rfl
  | cons a as ih =>
    have ha : s.abortKiln a = s := by rw [State.abortKiln, h a (List.mem_cons_self ..)]
    rw [List.foldl_cons, ha, ih (fun b hb => h b (List.mem_cons_of_mem _ hb))]

/-- A notice of which no queue 0 asks for a handler waits where there is room (R256). -/
theorem notify_waits {s : State} (hq : s.queueNum 0 = none) (hlen : s.sys.notices.length < 256) (code : Nat) (args : List Word64) :
    s.notify code args = s.modSys (fun y => { y with notices := y.notices ++ [{ code := code, args := args }] }) := by
  rw [State.notify, hq]
  simp only [Bool.true_and, decide_eq_true hlen, if_true]

/-- The cores and clusters of a rectangle as reset. -/
def resetInside (s : State) (inside : Nat → Bool) : State :=
  { s with
    cores := s.cores.map (fun (e : Nat × Core) => (e.1, if inside e.1 then { nextId := e.2.nextId } else e.2))
    clusters := s.clusters.filter (fun e => !inside (coreOfSlice e.1 0)) }

theorem resetInside_core (s : State) (inside : Nat → Bool) (c : Nat) :
    (resetInside s inside).core c = if inside c then { nextId := (s.core c).nextId } else s.core c :=
  AMap.get_map (f := fun c (x : Core) => if inside c then ({ nextId := x.nextId } : Core) else x) s.cores c (by split <;> rfl)

theorem resetInside_cluster (s : State) (inside : Nat → Bool) (g : Nat) :
    (resetInside s inside).cluster g = if inside (coreOfSlice g 0) then {} else s.cluster g := by
  refine (AMap.get_filter_key {} (fun g => !inside (coreOfSlice g 0)) s.clusters g).trans ?_
  cases inside (coreOfSlice g 0) <;> rfl

/-- The notice of a containment. -/
def containNotice (k : Containment) : Notice :=
  match k.rect with
  | some i => { code := 7, args := [w64 (k.die + i * 2 ^ 32), w64 k.recs.length] ++ (k.recs.take 5).map w64 }
  | none => { code := 3, args := [w64 k.die] }

theorem containStep_eq {s : State} {k : Containment} (hk : s.sys.containments = [k]) (hteams : ∀ t ∈ k.teams, s.team t = none)
    (hkilns : ∀ a ∈ k.asids, (s.job a).bind Job.running = none) (hq : s.queueNum 0 = none) (hlen : s.sys.notices.length < 256) :
    s.containStep = (resetInside s (inRect k.row0 k.col0 k.width k.height)).modSys (fun y =>
      { y with containments := [], notices := y.notices ++ [containNotice k] }) := by
  have hfind : s.sys.containments.find? (fun k => k.teams.all (fun t => (s.team t).isNone)) = some k := by
    rw [hk]
    exact List.find?_cons_of_pos (List.all_eq_true.mpr (fun t ht => by rw [hteams t ht]; rfl))
  have herase : s.sys.containments.erase k = [] := by rw [hk, List.erase_cons_head]
  let v : State := (resetInside s (inRect k.row0 k.col0 k.width k.height)).modSys (fun y => { y with containments := [] })
  have hv : ∀ code args, v.notify code args = v.modSys (fun y => { y with notices := y.notices ++ [{ code := code, args := args }] }) :=
    notify_waits ((SeenAlike.queueNum (s := s) (t := v) ⟨rfl, rfl, rfl, rfl, rfl⟩ rfl 0).trans hq) hlen
  rw [State.containStep, hfind]
  simp only [abortKiln_idle hkilns]
  have hmod : (resetInside s (inRect k.row0 k.col0 k.width k.height)).modSys
      (fun y => { y with containments := y.containments.erase k }) = v :=
    congrArg (fun l => (resetInside s _).modSys (fun y => { y with containments := l })) herase
  show (match k.rect with
    | some i => State.notify ((resetInside s _).modSys (fun y => { y with containments := y.containments.erase k })) _ _
    | none => State.notify ((resetInside s _).modSys (fun y => { y with containments := y.containments.erase k })) _ _) = _
  rw [hmod, containNotice]
  cases k.rect with
  | none => exact hv _ _
  | some i => exact hv _ _

/-- The step of a containment whose teams are gone. -/
theorem work_contain (k : Containment) (s : State) (hk : s.sys.containments = [k]) (hteams : ∀ t ∈ k.teams, s.team t = none)
    (hkilns : ∀ a ∈ k.asids, (s.job a).bind Job.running = none) (hq : s.queueNum 0 = none) (hlen : s.sys.notices.length < 256) :
    let inside (c : Nat) : Prop := Inside k.row0 k.col0 k.width k.height c
    let u := s.work .contain
    (u.sys = { s.sys with
      containments := []
      notices := s.sys.notices ++ [match k.rect with
        | some i => { code := 7
                      args := [BitVec.ofNat 64 (k.die + i * 2 ^ 32), BitVec.ofNat 64 k.recs.length] ++
                        (k.recs.take 5).map (BitVec.ofNat 64) }
        | none => { code := 3, args := [BitVec.ofNat 64 k.die] }] }) ∧
    u = { s with cores := u.cores, clusters := u.clusters, sys := u.sys } ∧
    (∀ c, (inside c → u.core c = { nextId := (s.core c).nextId }) ∧ (¬ inside c → u.core c = s.core c)) ∧
    ∀ g, let first := g / 28 * 224 + g % 28 * 8
      (inside first → u.cluster g = {}) ∧ (¬ inside first → u.cluster g = s.cluster g) := by
  intro inside u
  have hu : u = _ := containStep_eq hk hteams hkilns hq hlen
  have hin : ∀ c, inside c ↔ inRect k.row0 k.col0 k.width k.height c = true := fun c => (inRect_iff ..).symm
  rw [hu]
  refine ⟨rfl, rfl, fun c => ?_, fun g => ?_⟩
  · have hcore := resetInside_core s (inRect k.row0 k.col0 k.width k.height) c
    rw [hin]
    exact ⟨fun h => hcore.trans (if_pos h), fun h => hcore.trans (if_neg h)⟩
  · have hcluster := resetInside_cluster s (inRect k.row0 k.col0 k.width k.height) g
    intro first
    rw [hin]
    exact ⟨fun h => hcluster.trans (if_pos h), fun h => hcluster.trans (if_neg h)⟩

/-! WATCHDOG (R91, R304). -/

theorem team_of_teamOf {s : State} {c : Nat} {t : Team} (h : s.teamOf c = some t) : s.team t.id = some t := by
  obtain ⟨i, -, hi⟩ := Option.bind_eq_some_iff.1 h
  have hid : t.id = i := of_decide_eq_true (List.find?_some (p := fun x : Team => decide (x.id = i)) hi)
  rw [hid]
  exact hi

theorem find?_map_id {α : Type} (l : List α) (num : α → Nat) (f : α → α) (i : Nat) (hf : ∀ x, num (f x) = num x) :
    (l.map (fun x => if num x = i then f x else x)).find? (fun x => num x = i) = (l.find? (fun x => num x = i)).map f := by
  induction l with
  | nil => rfl
  | cons x l ih => by_cases hx : num x = i <;> simp_all

theorem team_modTeam (s : State) (i : Nat) {f : Team → Team} (hf : ∀ t, (f t).id = t.id) :
    (s.modTeam i f).team i = (s.team i).map f :=
  find?_map_id s.sys.teams Team.id f i hf

/-- A context as R304 stops it. -/
def stoppedCtx (x : Ctx) : Ctx :=
  { x with live := false, held := .none, waitSince := none, waitObj := none, parked := none, reserved := []
           vcount := 0, vreq := 0, vregs := [], rep := { x.rep with active := false } }

theorem stopCore_ctx (x : Core) (j : Nat) : (stopCore x).ctx j = stoppedCtx (x.ctx j) :=
  AMap.get_map (f := fun _ => stoppedCtx) x.ctxs j rfl

theorem stopCore_stopCore (x : Core) : stopCore (stopCore x) = stopCore x := by
  simp only [stopCore, List.map_map, List.filter_filter, Bool.and_self, Function.comp_def]

theorem dropUncut_whole (s : State) (t : Team) : ∃ jobs, s.dropUncut t = { s with sys := { s.sys with jobs := jobs } } := by
  rw [State.dropUncut]
  split
  · split
    · exact ⟨_, rfl⟩
    · exact ⟨s.sys.jobs, rfl⟩
  · exact ⟨s.sys.jobs, rfl⟩

theorem modClusters_whole (s : State) (gs : List Nat) (f : Cluster → Cluster) :
    ∃ cl, gs.foldl (fun s g => s.modCluster g f) s = { s with clusters := cl } := by
  induction gs generalizing s with
  | nil => exact ⟨s.clusters, rfl⟩
  | cons g gs ih =>
    obtain ⟨cl, hcl⟩ := ih (s.modCluster g f)
    exact ⟨cl, hcl⟩

theorem dropEventWaiters_none {s : State} (h : s.sys.evWaiters = []) (p : EventWaiter → Bool) : s.dropEventWaiters p = s := by
  have hleft : waitersLeft s.sys p = s.sys.evWaiters := by rw [waitersLeft, h]; rfl
  have hnone : waitersLeft s.sys p = [] := hleft.trans h
  exact (dropEventWaiters_idle (fun q hq => by rw [hnone] at hq; cases hq)).trans
    (congrArg (fun l => s.modSys (fun y => { y with evWaiters := l })) hleft)

/-- A running team fails: its members stop, and what they had registered is dropped (R304, steps 1 and 2). -/
theorem failResident_running {s : State} {t : Team} (hrun : t.phase = .running) (hev : s.sys.evWaiters = [])
    (cause c : Nat) (pc faddr : Word64) :
    ∃ (jobs : List Job) (cl : AMap Cluster) (reqs : _) (lin : _), s.failResident t cause c pc faddr =
      (modCores (fun _ => stopCore) { s with
        flat := { s.flat with waiters := s.flat.waiters.filter (fun w => !t.cores.contains w.core) }
        clusters := cl
        sys := { s.sys with jobs := jobs, kilnReqs := reqs, lin := lin } } t.cores).modTeam t.id
          (fun t => { t with phase := .failing cause c pc faddr }) := by
  obtain ⟨jobs, hjobs⟩ := dropUncut_whole s t
  let v : State := { s with
    flat := { s.flat with waiters := s.flat.waiters.filter (fun w => !t.cores.contains w.core) }
    sys := { s.sys with jobs := jobs } }
  let w : State := v.modSys (fun y => { y with
    kilnReqs := y.kilnReqs.filter (fun q => !t.cores.contains q.core)
    lin := y.lin.filter (fun l => !(t.cores.contains l.core && decide (l.prog = .waiting))) })
  obtain ⟨cl, hcl⟩ := modClusters_whole w (t.cores.map clusterOf).eraseDups (fun x => { x with
    mutexes := x.mutexes.map (fun e => (e.1, { e.2 with queue := [] }))
    events := x.events.map (fun e => (e.1, { e.2 with queue := [] })) })
  refine ⟨jobs, cl, w.sys.kilnReqs, w.sys.lin, ?_⟩
  have hdrop : v.dropEventWaiters (fun w => t.cores.contains w.core) = v := dropEventWaiters_none (s := v) hev _
  rw [State.failResident, hrun]
  simp only [hjobs]
  show State.modTeam (List.foldl _ (List.foldl _ (State.modSys (v.dropEventWaiters _) _) _) _) _ _ = _
  rw [hdrop]
  show State.modTeam (List.foldl _ (List.foldl _ w _) _) _ _ = _
  rw [hcl]
  rfl

/-- WATCHDOG of a running team's context. -/
theorem watchdog_ends_team (c h : Nat) (t : Team) (s : State) (ht : s.teamOf c = some t) (hrun : t.phase = .running)
    (hleft : ((s.core c).ctx h).left = 0) (hev : s.sys.evWaiters = []) :
    ∃ u, exec (.watchdog c h) s = .next u ∧
      u.team t.id = some { t with phase := .failing 17 c ((s.core c).ctx h).pc 0 } ∧
      (∀ m ∈ t.cores, ∀ j, ((u.core m).ctx j).live = false ∧ ((u.core m).ctx j).sregs = ((s.core m).ctx j).sregs) ∧
      (∀ m ∈ t.cores, (u.core m).sendq = [] ∧ (u.core m).wtt = [] ∧ (u.core m).faultq = [] ∧
        ∀ p ∈ (u.core m).pge, p ∈ (s.core m).pge ∧ p.prog ≠ .waiting) ∧
      (∀ w ∈ u.flat.waiters, w.core ∉ t.cores) ∧
      (∀ m, m ∉ t.cores → u.core m = s.core m) ∧ u.flat.hbm = s.flat.hbm ∧ u.sys.tasks = s.sys.tasks := by
  obtain ⟨jobs, cl, reqs, lin, hu⟩ := failResident_running hrun hev causeWatchdog c ((s.core c).ctx h).pc 0
  have hexec : exec (.watchdog c h) s = .next (s.failResident t causeWatchdog c ((s.core c).ctx h).pc 0) := by
    show execWatchdog c h s = _
    simp only [execWatchdog, hleft, if_true, State.failTeam, ht]
  refine ⟨_, hexec, ?_⟩
  rw [hu]
  generalize hv : ({ s with flat := _, clusters := cl, sys := _ } : State) = v
  have hwhole := modCores_whole (fun _ => stopCore) v t.cores
  have hflat : (modCores (fun _ => stopCore) v t.cores).flat = v.flat := (congrArg State.flat hwhole :)
  have hsys : (modCores (fun _ => stopCore) v t.cores).sys = v.sys := (congrArg State.sys hwhole :)
  have hcores : ∀ m, v.core m = s.core m := fun m => by rw [← hv]; rfl
  have hstop : ∀ m ∈ t.cores, (modCores (fun _ => stopCore) v t.cores).core m = stopCore (s.core m) := fun m hm => by
    rw [modCores_core _ hm (.inr stopCore_stopCore), hcores]
  have hrest : ∀ m, m ∉ t.cores → (modCores (fun _ => stopCore) v t.cores).core m = s.core m := fun m hm => by
    rw [modCores_core_other _ hm, hcores]
  refine ⟨?_, fun m hm j => ?_, fun m hm => ?_, fun w hw => ?_, hrest, ?_, ?_⟩
  · have hteam : (modCores (fun _ => stopCore) v t.cores).team t.id = some t := by
      rw [hwhole]
      exact (by rw [← hv]; rfl : State.team _ _ = s.team t.id).trans (team_of_teamOf ht)
    rw [team_modTeam]
    · exact congrArg (Option.map _) hteam
    · exact fun _ => rfl
  · have hctx := congrArg (fun x => x.ctx j) (hstop m hm)
    have hj := hctx.trans (stopCore_ctx (s.core m) j)
    exact ⟨(congrArg Ctx.live hj :), (congrArg Ctx.sregs hj :)⟩
  · refine ⟨congrArg Core.sendq (hstop m hm), congrArg Core.wtt (hstop m hm), congrArg Core.faultq (hstop m hm), fun p hp => ?_⟩
    have hp' : p ∈ (stopCore (s.core m)).pge := by
      rw [← hstop m hm]
      exact hp
    obtain ⟨hin, hnot⟩ := List.mem_filter.1 hp'
    exact ⟨hin, by simpa using hnot⟩
  · have hw' : w ∈ v.flat.waiters := by
      rw [← hflat]
      exact hw
    rw [← hv] at hw'
    simpa using (List.mem_filter.1 hw').2
  · exact (congrArg Flat.hbm hflat).trans (by rw [← hv])
  · exact (congrArg SysDie.tasks hsys).trans (by rw [← hv])

/-- Settles O46: a STALL trap is one in the state without what the wait had registered, a containment's step and a team's failure are
each one change of the cores and what goes with it. -/
theorem stallsAndWatchdogs : Obligations.StallsAndWatchdogs := by
  unfold Obligations.StallsAndWatchdogs
  refine ⟨?_, work_contain, watchdog_ends_team⟩
  intro c h k o since s u hlive hobj ho hsince hpast hh faddr cl me waiters requests withdrawn v hw
  have traps : ∀ {held : Held}, u.me.held = held → answered s c held = false → withdrawnAs u c h held = v → HasHandler v →
      Traps v (exec (.stall c h) s) 18 faddr := by
    intro held hheld hans hv
    subst hheld
    exact stall_traps hlive hobj ho hsince hpast hans ((withdraw_eq u c h).trans hv)
  cases hheld : u.me.held <;> simp only [withdrawn, hheld] at hw
  case none => subst hw; exact traps hheld rfl rfl hh
  case awaitRefused => subst hw; exact traps hheld rfl rfl hh
  case eventRefused => subst hw; exact traps hheld rfl rfl hh
  case barrier l g =>
    obtain ⟨hgen, rfl⟩ := hw
    exact traps hheld (decide_eq_false (not_not_intro hgen)) rfl hh
  case awaitReg => subst hw; exact traps hheld rfl rfl hh
  case eventReg =>
    obtain ⟨hidle, rfl⟩ := hw
    exact traps hheld rfl (dropEventWaiters_idle hidle) hh
  case mutexQueued => subst hw; exact traps hheld rfl rfl hh
  case eventLine => subst hw; exact traps hheld rfl rfl hh
  case kilnAsked => subst hw; exact traps hheld rfl rfl hh
  case kilnTurn => subst hw; exact traps hheld rfl rfl hh

end Sys2Proof
end

section
/-! The cores of a team's rectangle (R83), and what the system die's units write to calm memory (R232, R233, R245, R281). -/

namespace Sys2Proof

open Sys2Proof.Machine

/-! Lists of numbers, and the cores of a rectangle (R83). -/

theorem upFrom_nodup (lo n : Nat) : (upFrom lo n).Nodup := by
  induction n generalizing lo with
  | zero => exact List.nodup_nil
  | succ n ih => exact List.nodup_cons.2 ⟨fun h => by rw [mem_upFrom] at h; omega, ih (lo + 1)⟩

theorem bits_eq (x hi lo : Nat) : bits x hi lo = x / 2 ^ lo % 2 ^ (hi - lo + 1) := by
  rw [bits, Nat.shiftRight_eq_div_pow]

section
variable {t : Team}

theorem mem_cores {c : Nat} :
    c ∈ t.cores ↔ ∃ r k, t.row0 ≤ r ∧ r < t.row0 + t.height ∧ t.col0 ≤ k ∧ k < t.col0 + t.width ∧ r * 224 + k = c := by
  simp only [Team.cores, List.mem_flatMap, List.mem_map, mem_upFrom, coreAt]
  exact ⟨fun ⟨r, ⟨h1, h2⟩, k, ⟨h3, h4⟩, h⟩ => ⟨r, k, h1, h2, h3, h4, h⟩, fun ⟨r, k, h1, h2, h3, h4, h⟩ => ⟨r, ⟨h1, h2⟩, k, ⟨h3, h4⟩, h⟩⟩

variable (hcol : t.col0 + t.width ≤ 224)
include hcol

theorem row_col_of_mem {c : Nat} (h : c ∈ t.cores) :
    t.row0 ≤ c / 224 ∧ t.col0 ≤ c % 224 ∧ c % 224 < t.col0 + t.width := by
  obtain ⟨r, k, hr, -, hk, hk', rfl⟩ := mem_cores.1 h
  omega

theorem cores_nodup : t.cores.Nodup := by
  refine List.nodup_flatMap.2 ⟨fun r _ => ?_, ?_⟩
  · exact (upFrom_nodup _ _).map (fun a b h => by simpa [coreAt] using h)
  · refine (upFrom_nodup t.row0 t.height).imp (fun {a b} hab => ?_)
    refine List.disjoint_left.2 (fun c ha hb => hab ?_)
    simp only [List.mem_map, mem_upFrom, coreAt] at ha hb
    obtain ⟨k, hk, rfl⟩ := ha
    obtain ⟨j, hj, heq⟩ := hb
    omega

/-- The members of a team have different ranks. -/
theorem rankOf_inj {c d : Nat} (hc : c ∈ t.cores) (hd : d ∈ t.cores) (h : t.rankOf c = t.rankOf d) : c = d := by
  obtain ⟨hc1, hc2, hc3⟩ := row_col_of_mem hcol hc
  obtain ⟨hd1, hd2, hd3⟩ := row_col_of_mem hcol hd
  have hkc : c % 224 - t.col0 < t.width := by omega
  have hkd : d % 224 - t.col0 < t.width := by omega
  have hw : 0 < t.width := by omega
  simp only [Team.rankOf, rowOf, colOf] at h
  have hrow := congrArg (· / t.width) h
  have hcolumn := congrArg (· % t.width) h
  simp only [Nat.mul_comm _ t.width, Nat.mul_add_div hw, Nat.mul_add_mod, Nat.div_eq_of_lt hkc, Nat.div_eq_of_lt hkd,
    Nat.mod_eq_of_lt hkc, Nat.mod_eq_of_lt hkd] at hrow hcolumn
  omega

end

/-! Bytes of numbers. -/

theorem Mem.num_lt (m : Mem) (a n : Nat) : m.num a n < 256 ^ n := by
  have hlen : ∀ a, (m.read a n).length = n := by
    induction n with
    | zero => exact fun _ => rfl
    | succ n ih => exact fun a => congrArg (· + 1) (ih (a + 1))
  have h := leNat_lt (m.read a n)
  rwa [hlen] at h

theorem leBytes_mod (n x : Nat) : leBytes n (x % 256 ^ n) = leBytes n x := by
  induction n generalizing x with
  | zero => rfl
  | succ n ih =>
    have hlow : BitVec.ofNat 8 (x % (256 * 256 ^ n)) = BitVec.ofNat 8 x :=
      BitVec.eq_of_toNat_eq (by simp only [BitVec.toNat_ofNat]; exact Nat.mod_mul_right_mod x 256 (256 ^ n))
    rw [Nat.pow_succ', leBytes, hlow, Nat.mod_mul_right_div_self, ih, leBytes]

/-! A unit's atomic change of a word of calm memory (R233, R281). -/

theorem recall_idle {s : State} (h : ∀ q ∈ s.cores, q.2.linebuf = []) (pa : Nat) : s.recall pa = s := by
  refine if_neg (fun hany => ?_)
  obtain ⟨q, hq, hin⟩ := List.any_eq_true.1 hany
  rw [h q hq] at hin
  cases hin

theorem job_none {s : State} (h : s.sys.jobs = []) (asid : Nat) : s.job asid = none := by rw [State.job, h]; rfl

theorem poke_eq (s : State) : s.poke = { s with sys := pokedSys s.sys } := by
  unfold State.poke
  split
  · next h =>
    have hnil : s.sys.packets = [] := List.isEmpty_iff.1 h
    exact congrArg (fun l => ({ s with sys := { s.sys with packets := l } } : State)) (by rw [hnil]; rfl : s.sys.packets = s.sys.packets.map _)
  · rfl

theorem rangeOf_hbm {pa n : Nat} (hn : 0 < n) (h : pa + n ≤ Config.hbmSize) : rangeOf pa = .hbm := if_pos (by omega)

/-- An atomic that wakes no one, for a unit with no kiln to compare with. -/
theorem sysAtomicAt_idle {s : State} {asid va : Nat} {e : TlbEntry} (hj : s.sys.jobs = []) (hl : ∀ q ∈ s.cores, q.2.linebuf = [])
    (f : Word64 → Word64) :
    s.sysAtomicAt asid false e va f false =
      if va % 8 ≠ 0 then .error causeAlign
      else if e.rm || rangeOf (e.phys va) ≠ .hbm then .error causeProt
      else if s.hbmPoisoned (e.phys va) 8 then .error causePoison
      else .ok (w64 (s.flat.hbm.num (e.phys va) 8),
        (s.hbmWrite (e.phys va) (leBytes 8 (f (w64 (s.flat.hbm.num (e.phys va) 8))).toNat) .keep).poke) := by
  simp only [State.sysAtomicAt, newFor_none (job_none hj asid), recall_idle hl, Option.isSome_none, Bool.false_and,
    Bool.false_eq_true, if_false, State.hbmNum]

/-- An atomic that wakes no one, at a place of calm memory. -/
theorem sysAtomic_calm {s : State} {asid va pa : Nat} (hc : Calm s) (ha : SysAt s asid va 8 pa) (h8 : va % 8 = 0)
    (f : Word64 → Word64) :
    s.sysAtomic asid true false va f false =
      .ok (w64 (s.flat.hbm.num pa 8), (s.hbmWrite pa (leBytes 8 (f (w64 (s.flat.hbm.num pa 8))).toNat) .keep).poke) := by
  obtain ⟨⟨e, he, -, hpa, hrm⟩, hhbm, hclean⟩ := ha
  have hrange : rangeOf pa = .hbm := rangeOf_hbm (by decide) hhbm
  have hat : s.sysAtomic asid true false va f false = s.sysAtomicAt asid false e va f false := by
    unfold State.sysAtomic
    rw [he]
    show (match rangeOf (e.phys va) with | .peer w off => _ | _ => s.sysAtomicAt asid false e va f false) = _
    rw [hpa, hrange]
  rw [hat, sysAtomicAt_idle hc.jobs hc.lines, if_neg (not_not_intro h8), hpa, hrm, hrange, hclean]
  rfl

/-- STATE of a task's record at a place of calm memory (R245). -/
theorem setTaskState_calm {s : State} {asid rec' pa : Nat} (hc : Calm s) (ha : SysAt s asid (rec' + 16) 8 pa) (h8 : (rec' + 16) % 8 = 0)
    (st : Nat) :
    s.setTaskState asid rec' st false =
      { s.hbmWrite pa (leBytes 8 (setBits (s.flat.hbm.num pa 8) 42 40 st)) .keep with sys := pokedSys s.sys } := by
  have hnum : (w64 (s.flat.hbm.num pa 8)).toNat = s.flat.hbm.num pa 8 := by
    rw [w64, BitVec.toNat_ofNat, Nat.mod_eq_of_lt (show _ < 2 ^ 64 from Mem.num_lt s.flat.hbm pa 8)]
  have hbytes : leBytes 8 (w64 (setBits (s.flat.hbm.num pa 8) 42 40 st)).toNat = leBytes 8 (setBits (s.flat.hbm.num pa 8) 42 40 st) :=
    leBytes_mod 8 _
  rw [State.setTaskState, sysAtomic_calm hc ha h8]
  simp only [hnum, hbytes]
  exact poke_eq _

/-! What a change of a record leaves of cores, teams and tasks, wherever the record is. -/

/-- The two states have the same cores, resident teams and tasks. -/
structure SameTeams (s t : State) : Prop where
  cores : t.cores = s.cores
  teams : t.sys.teams = s.sys.teams
  tasks : t.sys.tasks = s.sys.tasks

theorem SameTeams.refl (s : State) : SameTeams s s := ⟨rfl, rfl, rfl⟩

theorem SameTeams.core {s t : State} (h : SameTeams s t) (c : Nat) : t.core c = s.core c := by rw [State.core, h.cores]; rfl

theorem reached_idle {s : State} (hj : s.sys.jobs = []) (hl : ∀ q ∈ s.cores, q.2.linebuf = []) (hw : s.flat.rmWrites = [])
    (pa n : Nat) : s.reached pa n = s := by
  have hfreeze : ∀ a, s.freezeFor a = s := fun a => by rw [State.freezeFor, hj]; rfl
  have hrecall : ∀ ls : List Nat, ls.foldl (fun u l => u.recall (64 * l)) s = s := fun ls => by
    induction ls with
    | nil => rfl
    | cons l ls ih => rw [List.foldl_cons, recall_idle hl, ih]
  unfold State.reached
  split
  · rfl
  · simp only [hfreeze, hrecall, settle_idle hw]

theorem sysAtomicAt_same {s t : State} {asid va : Nat} {e : TlbEntry} {f : Word64 → Word64} {v : Word64}
    (hj : s.sys.jobs = []) (hl : ∀ q ∈ s.cores, q.2.linebuf = [])
    (h : s.sysAtomicAt asid false e va f false = .ok (v, t)) : SameTeams s t := by
  rw [sysAtomicAt_idle hj hl] at h
  by_cases h8 : va % 8 ≠ 0
  · rw [if_pos h8] at h; cases h
  by_cases hrange : (e.rm || rangeOf (e.phys va) ≠ .hbm) = true
  · rw [if_neg h8, if_pos hrange] at h; cases h
  by_cases hclean : s.hbmPoisoned (e.phys va) 8 = true
  · rw [if_neg h8, if_neg hrange, if_pos hclean] at h; cases h
  rw [if_neg h8, if_neg hrange, if_neg hclean] at h
  obtain rfl : _ = t := congrArg Prod.snd (Except.ok.inj h)
  rw [poke_eq]
  exact ⟨rfl, rfl, rfl⟩

/-- What a request through a window leaves of the state. -/
theorem through_here {s t : State} {w off pa : Nat} {k : FabPacket} (h : s.through w off k = .here pa t) : t = s := by
  unfold State.through at h
  simp only at h
  split at h
  · cases h
  · split at h
    · unfold State.loopback at h
      simp only at h
      split at h
      · next heq =>
        split at heq <;> cases heq
        split at h <;> cases h
        rfl
      · cases h
    · split at h <;> cases h

theorem through_sent {s t : State} {w off : Nat} {k : FabPacket} (h : s.through w off k = .sent t) : SameTeams s t := by
  unfold State.through at h
  simp only at h
  split at h
  · cases h
  · split at h
    · split at h
      · split at h <;> cases h
      · cases h
    · split at h
      · next hsend =>
        cases h
        obtain ⟨p, -, rfl⟩ := Option.map_eq_some_iff.1 hsend
        exact ⟨rfl, rfl, rfl⟩
      · cases h

theorem sysAtomic_same {s t : State} {asid va : Nat} {f : Word64 → Word64} {v : Word64} (hj : s.sys.jobs = [])
    (hl : ∀ q ∈ s.cores, q.2.linebuf = []) (hw : s.flat.rmWrites = [])
    (h : s.sysAtomic asid true false va f false = .ok (v, t)) : SameTeams s t := by
  unfold State.sysAtomic at h
  cases he : s.sysXlate asid true .both va with
  | error k => rw [he] at h; cases h
  | ok e =>
    rw [he] at h
    change (match rangeOf (e.phys va) with | .peer w off => _ | _ => s.sysAtomicAt asid false e va f false) = _ at h
    split at h
    · simp only at h
      split at h
      · cases h
      · split at h
        · next hthrough =>
          rw [through_here hthrough, reached_idle hj hl hw] at h
          exact sysAtomicAt_same hj hl h
        · next hthrough =>
          obtain rfl : _ = t := congrArg Prod.snd (Except.ok.inj h)
          exact through_sent hthrough
        all_goals cases h
    · exact sysAtomicAt_same hj hl h

theorem countRefused_same (s : State) (asid va : Nat) (k : Kind) : SameTeams s (s.countRefused asid va k) := by
  have hloop : ∀ (w : PeerWindow) (off : Nat), SameTeams s (s.loopback w off).2 := fun w off => by
    unfold State.loopback
    simp only
    split <;> exact ⟨rfl, rfl, rfl⟩
  unfold State.countRefused
  split
  · split
    · simp only
      split
      · exact hloop _ _
      · exact .refl s
    · exact .refl s
  · exact .refl s

theorem setTaskState_same {s : State} (hj : s.sys.jobs = []) (hl : ∀ q ∈ s.cores, q.2.linebuf = []) (hw : s.flat.rmWrites = [])
    (asid rec' st : Nat) : SameTeams s (s.setTaskState asid rec' st false) := by
  unfold State.setTaskState
  split
  · next h => exact sysAtomic_same hj hl hw h
  · exact countRefused_same s _ _ _

end Sys2Proof
end

section
/-! The tasks of the scheduler: placement, wake, start and end (R83, R84, R247 to R249, R253, R294). -/

namespace Sys2Proof

open Sys2Proof.Machine

/-! Placement (R247). -/

theorem rectFree_iff (s : State) (row col w h : Nat) : s.rectFree row col w h = true ↔ FreeAt s row col w h := by
  simp only [State.rectFree, FreeAt, apart, Config.meshRows, Config.meshCols, Bool.and_eq_true, List.all_eq_true, decide_eq_true_eq,
    and_assoc]

theorem fits_iff (s : State) (w h : Nat) : s.fits w h = true ↔ ∃ r k, k < 28 ∧ FreeAt s r (8 * k) w h := by
  simp only [State.fits, List.any_eq_true, mem_upFrom, rectFree_iff]
  constructor
  · rintro ⟨r, -, k, ⟨-, hk⟩, hfree⟩
    exact ⟨r, k, by omega, hfree⟩
  · rintro ⟨r, k, hk, hfree⟩
    have hrow : r + h ≤ 120 := hfree.2.1
    exact ⟨r, ⟨by omega, by simp only [Config.meshRows]; omega⟩, k, ⟨by omega, by omega⟩, hfree⟩

theorem mayPlace_lone {s : State} {n : Nat} {t : TaskEntry} (ht : s.sys.tasks[n]? = some t)
    (hothers : ∀ k u, s.sys.tasks[k]? = some u → k ≠ n → u.ready = false) : s.mayPlace n t = true := by
  refine List.all_eq_true.2 (fun ⟨u, k⟩ hu => ?_)
  have hk : s.sys.tasks[k]? = some u := List.mk_mem_zipIdx_iff_getElem?.1 hu
  by_cases hkn : k = n
  · subst hkn
    obtain rfl : u = t := Option.some.inj (hk.symm.trans ht)
    simp
  · simp [hothers k u hk hkn]

/-- No task is placed before one of higher effective priority that fits. -/
theorem mayPlace_held {s : State} {n : Nat} {t u : TaskEntry} (hu : u ∈ s.sys.tasks) (hready : u.ready = true)
    (hpri : s.effective t < s.effective u) (hfits : s.fits u.width u.height = true) : s.mayPlace n t = false := by
  obtain ⟨k, hk⟩ := List.mem_iff_getElem?.1 hu
  refine List.all_eq_false.2 ⟨(u, k), List.mk_mem_zipIdx_iff_getElem?.2 hk, ?_⟩
  simp [hready, hpri, hfits]

theorem taskPlace_eq {n row col : Nat} {t : TaskEntry} {s : State} (ht : s.sys.tasks[n]? = some t) (hw : t.was = none) :
    exec (.taskPlace n row col) s =
      if t.ready && s.mayPlace n t && s.rectFree row col t.width t.height then
        .next { s with sys := { s.sys with
          tasks := s.sys.tasks.eraseIdx n, nextId := s.sys.nextId + 1
          teams := s.sys.teams ++ [{ id := s.sys.nextId, rec' := t.rec', asid := t.asid, pkt := t.pkt, queue := t.queue, base := t.base
                                     sup := decide (t.queue = 0), row0 := row, col0 := col, width := t.width, height := t.height
                                     phase := .placed }] } }
      else .next s := by
  show execTaskPlace n row col s = _
  unfold execTaskPlace
  rw [ht]
  simp only [hw]
  rfl

theorem taskPlace_held {n row col : Nat} {t : TaskEntry} {s : State} (ht : s.sys.tasks[n]? = some t) (h : s.mayPlace n t = false) :
    exec (.taskPlace n row col) s = .next s := by
  show execTaskPlace n row col s = _
  unfold execTaskPlace
  rw [ht]
  simp only [h, Bool.and_false, Bool.false_and, Bool.false_eq_true, if_false]

/-! Wake (R248, R294). -/

/-- A team that another state of it replaces. -/
theorem team_modTeam_const {s : State} {i : Nat} {t t' : Team} (ht : s.team i = some t) (hid : t'.id = i) :
    (s.modTeam i (fun _ => t')).team i = some t' := by
  subst hid
  have hmap : s.modTeam t'.id (fun _ => t') = s.modTeam t'.id (fun x => { t' with id := x.id }) := by
    refine congrArg (fun l => s.modSys (fun y => { y with teams := l })) (List.map_congr_left (fun x _ => ?_))
    split
    · next hx => exact congrArg (fun i => ({ t' with id := i } : Team)) hx.symm
    · rfl
  rw [hmap, team_modTeam s t'.id (f := fun x => { t' with id := x.id }) (fun _ => rfl), ht]
  have hx : t.id = t'.id := of_decide_eq_true (List.find?_some (p := fun x : Team => decide (x.id = t'.id)) ht)
  exact congrArg (fun i => some { t' with id := i }) hx

/-- What a wake does to its team, beside what it reads from the record. -/
def wakingTeam (s : State) (t : Team) : Team := { s.readRecord t with phase := .waking }

theorem wakingTeam_same (s : State) (t : Team) :
    (wakingTeam s t).id = t.id ∧ (wakingTeam s t).row0 = t.row0 ∧ (wakingTeam s t).col0 = t.col0 := by
  unfold wakingTeam State.readRecord
  simp only
  split <;> exact ⟨rfl, rfl, rfl⟩

theorem taskWord_ok {s : State} {asid rec' k : Nat} {v : Word64} (h : s.sysWord asid true (rec' + 8 * k) = .ok v) :
    s.taskWord asid rec' k = v := by rw [State.taskWord, h]

theorem argOf_record {s : State} {t : Team} {arg : Word64} (hp : s.packet t.pkt = none)
    (ha : s.sysWord t.asid true (t.rec' + 8) = .ok arg) : s.argOf t = arg := by
  rw [State.argOf, hp]
  exact taskWord_ok ha

/-- A core of a team that wakes for the first time, with no image of its own. -/
def wokenAt (t : Team) (sp : AddrSpace) (last : BitVec 16) (pc arg : Word64) (c : Nat) (x : Core) : Core :=
  (x.woken t c sp last).modCtx 0 (fun _ => freshCtx {} pc arg t.sup)

theorem wokenAt_ctx (t : Team) (sp : AddrSpace) (last : BitVec 16) (pc arg : Word64) (c : Nat) (x : Core) (j : Nat) :
    (wokenAt t sp last pc arg c x).ctx j = if j = 0 then freshCtx {} pc arg t.sup else {} := by
  show AMap.get {} (AMap.put [] 0 (freshCtx {} pc arg t.sup)) j = _
  rw [AMap.get_put]
  exact if_congr eq_comm rfl rfl

/-- The KNUM that a core wakes with (R270). -/
def lastKiln (s : State) (asid : Nat) : BitVec 16 := match s.job asid with | some j => j.last | none => 0

theorem wake_eq {t : Team} {entry arg : Word64} {s : State} (ht : s.team t.id = some t) (hphase : t.phase = .placed)
    (hres : t.resumes = false) (hentry : s.sysWord t.asid true t.rec' = .ok entry)
    (harg : s.sysWord t.asid true (t.rec' + 8) = .ok arg) (hp : s.packet t.pkt = none)
    (him : ∀ i ∈ s.sys.images, ¬ (i.asid = t.asid ∧ i.task = t.rec')) :
    ∃ cl, exec (.wake t.id) s = .next ((modCores (wokenAt t (s.space t.asid) (lastKiln s t.asid) entry arg)
      { s with clusters := cl } t.cores).modTeam t.id (fun _ => wakingTeam s t)) := by
  have hnone : s.sys.images.filter (fun im => im.asid = t.asid && im.task = t.rec') = [] :=
    List.filter_eq_nil_iff.2 (fun i hi h => him i hi (by simpa using h))
  have hpc : s.taskWord t.asid t.rec' 0 = entry := taskWord_ok hentry
  obtain ⟨cl, hcl⟩ := modClusters_whole s (t.cores.map clusterOf).eraseDups (fun _ => {})
  refine ⟨cl, ?_⟩
  show execWake t.id s = _
  unfold execWake
  rw [ht]
  simp only [hphase, hres, ne_eq, not_true_eq_false, if_false, Bool.false_eq_true, hnone, hpc, argOf_record hp harg, hcl]
  rfl

theorem dom3Of_eq (t : Team) : t.dom3Of = BitVec.ofNat 64 (t.width * 2 ^ 16 + t.height * 2 ^ 24) := by
  simp only [Team.dom3Of, domWord, w64, Nat.zero_mul, Nat.zero_add]

/-- A wake of a team that has not run. -/
theorem wake_wakes (t : Team) (entry arg : Word64) (s : State) (ht : s.team t.id = some t) (hphase : t.phase = .placed)
    (hres : t.resumes = false) (_ : t.col0 + t.width ≤ 224) (hentry : s.sysWord t.asid true t.rec' = .ok entry)
    (harg : s.sysWord t.asid true (t.rec' + 8) = .ok arg) (hp : s.packet t.pkt = none)
    (him : ∀ i ∈ s.sys.images, ¬ (i.asid = t.asid ∧ i.task = t.rec')) :
    ∃ u t', exec (.wake t.id) s = .next u ∧ u.team t.id = some t' ∧ t'.phase = .waking ∧ t'.row0 = t.row0 ∧ t'.col0 = t.col0 ∧
      (∀ c, c ∉ t.cores → u.core c = s.core c) ∧ u.flat = s.flat ∧
      ∀ c ∈ t.cores,
        let x := u.core c
        let r := c / 224 - t.row0
        let k := c % 224 - t.col0
        let h0 := x.ctx 0
        x.team = some t.id ∧ x.exited = false ∧ x.partEnded = false ∧
        x.teamrank = BitVec.ofNat 64 (r * t.width + k) ∧ x.teamsize = BitVec.ofNat 64 (t.width * t.height) ∧
        x.teamorg = BitVec.ofNat 64 (t.col0 + t.row0 * 2 ^ 8) ∧ x.teamshape = BitVec.ofNat 64 (t.width + t.height * 2 ^ 8) ∧
        x.dom1 = BitVec.ofNat 64 (8 * (k / 8) + r * 2 ^ 8 + 8 * 2 ^ 16 + 2 ^ 24) ∧
        x.dom2 = BitVec.ofNat 64 (t.width * 2 ^ 16 + t.height * 2 ^ 24) ∧ x.dom3 = x.dom2 ∧
        x.tvec = (s.space t.asid).tvec ∧ x.ptbase = (s.space t.asid).ptbase ∧ x.asid = BitVec.ofNat 16 t.asid ∧
        x.curPtbase = x.ptbase ∧ x.curAsid = x.asid ∧
        x.counters = [] ∧ x.guards = [] ∧ x.pub = 0 ∧ x.rb = t.rolled.isSome ∧
        x.rbk = (match t.rolled with | some q => q.1 | none => 0) ∧
        (∀ sp, x.store sp = (s.core c).store sp) ∧ x.tags = (s.core c).tags ∧
        (∀ j, (x.ctx j).live = decide (j = 0)) ∧ h0.pc = entry ∧ h0.sup = t.sup ∧
        (∀ i, h0.sv i = if i = 1 then arg else 0) ∧ (∀ i, h0.dbit i = false) ∧
        { h0 with live := false, life := 0, pc := 0, sregs := [], sup := false } = ({} : Ctx) := by
  obtain ⟨cl, hexec⟩ := wake_eq ht hphase hres hentry harg hp him
  let f := wokenAt t (s.space t.asid) (lastKiln s t.asid) entry arg
  let v : State := { s with clusters := cl }
  have hwhole := modCores_whole f v t.cores
  have hflat : (modCores f v t.cores).flat = s.flat := (congrArg State.flat hwhole :)
  have hsys : (modCores f v t.cores).sys = s.sys := (congrArg State.sys hwhole :)
  have hteam : (modCores f v t.cores).team t.id = some t := by rw [State.team, hsys]; exact ht
  have hother : ∀ c, c ∉ t.cores → (modCores f v t.cores).core c = s.core c := fun c hc => modCores_core_other f hc
  have hcore : ∀ c ∈ t.cores, (modCores f v t.cores).core c = f c (s.core c) := fun c hc =>
    modCores_core f hc (.inr (fun _ => rfl))
  obtain ⟨hid, hrow, hcol⟩ := wakingTeam_same s t
  refine ⟨_, _, hexec, team_modTeam_const hteam hid, rfl, hrow, hcol, hother, hflat, fun c hc => ?_⟩
  intro x r k h0
  have hx : x = f c (s.core c) := hcore c hc
  have hctx : ∀ j, x.ctx j = if j = 0 then freshCtx {} entry arg t.sup else {} := fun j => by rw [hx]; exact wokenAt_ctx ..
  have hfresh : h0 = freshCtx {} entry arg t.sup := hctx 0
  have hlive : ∀ j, (x.ctx j).live = decide (j = 0) := fun j => by rw [hctx]; split <;> simp [*]
  refine ⟨?_, ?_, ?_, ?_, ?_, ?_, ?_, ?_, ?_, ?_, ?_, ?_, ?_, ?_, ?_, ?_, ?_, ?_, ?_, ?_, fun sp => ?_, ?_, hlive, ?_, ?_, ?_, ?_, ?_⟩
  case refine_9 => rw [hx]; exact dom3Of_eq t
  case refine_21 => rw [hx]; cases sp <;> rfl
  case refine_23 => rw [hfresh]; rfl
  case refine_24 => rw [hfresh]; rfl
  case refine_25 => exact fun i => by rw [hfresh]; exact freshCtx_sv ..
  case refine_26 => exact fun i => by rw [hfresh]; exact freshCtx_dbit ..
  case refine_27 => rw [hfresh]; rfl
  all_goals rw [hx]; rfl

/-! Start (R248). -/

/-- A start of a waking team. -/
theorem teamStart_starts (t : Team) (pa : Nat) (s : State) (ht : s.team t.id = some t) (hphase : t.phase = .waking)
    (hres : t.resumes = false) (hc : Calm s) (ha : SysAt s t.asid (t.rec' + 16) 8 pa) (h8 : (t.rec' + 16) % 8 = 0) :
    ∃ u, WritesHbm s u pa (leBytes 8 (setBits (s.flat.hbm.num pa 8) 42 40 3)) false ∧
      exec (.teamStart t.id) s = .next { u with sys := pokedSys { s.sys with
        teams := s.sys.teams.map (fun x => if x.id = t.id then { x with phase := .running } else x) } } := by
  let v : State := s.modTeam t.id (fun x => { x with phase := .running })
  have hcv : Calm v := ⟨hc.jobs, hc.lines, hc.locks, hc.waiters⟩
  have hav : SysAt v t.asid (t.rec' + 16) 8 pa := SeenAlike.sysAt (s := s) (t := v) ⟨rfl, rfl, rfl, rfl, rfl⟩ ha
  refine ⟨_, hbmWrite_keep s pa _, ?_⟩
  show execTeamStart t.id s = _
  unfold execTeamStart
  rw [ht]
  simp only [hphase, hres, and_self, if_true]
  exact congrArg Host.Outcome.next (setTaskState_calm hcv hav h8 tRunning)

/-! The end of a task (R249). -/

/-- A write of flat memory and a change of the system die leave every core. -/
theorem hbmWrite_core (s : State) (pa : Nat) (bs : List Byte) (y : SysDie) (c : Nat) :
    ({ s.hbmWrite pa bs .keep with sys := y } : State).core c = s.core c := rfl

theorem postEvent_eq {s : State} (h : s.sys.evWaiters = []) (e : Nat) :
    s.postEvent e 1 = { s with sys := { s.sys with
      events := s.sys.events.set 0 e (BitVec.ofNat 32 (min ((s.sys.event e).toNat + 1) 0xFFFFFFFF)) } } := by
  have hval : (if (s.sys.event e).toNat + (1 : Word32).toNat < 2 ^ 32 then s.sys.event e + 1 else BitVec.allOnes 32) =
      BitVec.ofNat 32 (min ((s.sys.event e).toNat + 1) 0xFFFFFFFF) := by
    refine BitVec.eq_of_toNat_eq ?_
    have hlt := (s.sys.event e).isLt
    have hone : (1 : Word32).toNat = 1 := rfl
    rw [hone]
    split
    · next hroom => simp only [BitVec.toNat_add, BitVec.toNat_ofNat, hone]; omega
    · next hfull => simp only [BitVec.toNat_allOnes, BitVec.toNat_ofNat]; omega
  rw [State.postEvent]
  simp only [hval]
  refine serveEvent_idle (fun w hw => ?_) _
  have hnone : (AMap.get [] s.sys.evWaiters e).head? = some w := hw
  rw [h] at hnone
  cases hnone

/-- The named events are posted, each as often as it is named, up to 2^32 - 1. -/
theorem postEvents_events {s : State} (h : s.sys.evWaiters = []) (es : List Nat) :
    ∃ ev, es.foldl (fun s e => if e = 0 then s else s.postEvent e 1) s = { s with sys := { s.sys with events := ev } } ∧
      ∀ e, AMap.get 0 ev e = BitVec.ofNat 32 (min ((s.sys.event e).toNat + (es.filter (fun e => e ≠ 0)).count e) 0xFFFFFFFF) := by
  induction es generalizing s with
  | nil =>
    refine ⟨s.sys.events, rfl, fun e => BitVec.eq_of_toNat_eq ?_⟩
    have hlt := (s.sys.event e).isLt
    simp only [List.filter_nil, List.count_nil, Nat.add_zero, BitVec.toNat_ofNat, show AMap.get 0 s.sys.events e = s.sys.event e from rfl]
    omega
  | cons d es ih =>
    by_cases hd : d = 0
    · subst hd
      exact ih h
    · let v : State := { s with sys := { s.sys with
        events := s.sys.events.set 0 d (BitVec.ofNat 32 (min ((s.sys.event d).toNat + 1) 0xFFFFFFFF)) } }
      obtain ⟨ev, hfold, hev⟩ := ih (s := v) h
      refine ⟨ev, ?_, fun e => ?_⟩
      · rw [List.foldl_cons, if_neg hd, postEvent_eq h, hfold]
      · have hv : v.sys.event e = if d = e then BitVec.ofNat 32 (min ((s.sys.event d).toNat + 1) 0xFFFFFFFF) else s.sys.event e :=
          AMap.get_set ..
        have hlt := (s.sys.event e).isLt
        rw [hev, hv, List.filter_cons_of_pos (by simpa using hd), List.count_cons]
        by_cases hde : d = e
        · subst hde
          simp only [if_true, beq_self_eq_true, BitVec.toNat_ofNat]
          exact congrArg (BitVec.ofNat 32) (by omega)
        · simp only [if_neg hde, beq_eq_false_iff_ne.2 hde, Bool.false_eq_true, if_false, Nat.add_zero]

/-- DEPS of no other task is named. -/
theorem decDeps_none {s : State} {asid rec' : Nat} (h : ∀ k, 6 ≤ k → k ≤ 9 → s.taskWord asid rec' k = 0) (old : Bool) :
    s.decDeps asid rec' old = s := by
  have hfold : ∀ ks : List Nat, (∀ k ∈ ks, 6 ≤ k ∧ k ≤ 9) → ks.foldl (fun t k =>
      let d := s.taskWord asid rec' k
      if d = 0 then t else t.decDep asid d.toNat old) s = s := by
    intro ks hks
    induction ks with
    | nil => rfl
    | cons k ks ih =>
      obtain ⟨hlo, hhi⟩ := hks k (List.mem_cons_self ..)
      rw [List.foldl_cons]
      simp only [h k hlo hhi, if_true]
      exact ih (fun j hj => hks j (List.mem_cons_of_mem _ hj))
  exact hfold _ (fun k hk => by rw [mem_upFrom] at hk; omega)

theorem freeTeam_eq (s : State) (t : Team) : s.freeTeam t =
    (modCores (fun _ => Core.freed) s t.cores).modSys (fun y => { y with teams := y.teams.filter (fun x => x.id ≠ t.id) }) := rfl

theorem freeTeam_team (s : State) (t : Team) : (s.freeTeam t).team t.id = none := by
  refine List.find?_eq_none.2 (fun x hx => ?_)
  simpa using (List.mem_filter.1 hx).2

theorem freeTeam_core {s : State} {t : Team} {c : Nat} (h : c ∈ t.cores) : (s.freeTeam t).core c = (s.core c).freed :=
  modCores_core (fun _ => Core.freed) h (.inr (fun _ => rfl))

theorem freeTeam_core_other {s : State} {t : Team} {c : Nat} (h : c ∉ t.cores) : (s.freeTeam t).core c = s.core c :=
  modCores_core_other (fun _ => Core.freed) h

theorem freeTeam_sys (s : State) (t : Team) :
    (s.freeTeam t).sys = { s.sys with teams := s.sys.teams.filter (fun x => x.id ≠ t.id) } := by
  have h : (modCores (fun _ => Core.freed) s t.cores).sys = s.sys := (congrArg State.sys (modCores_whole _ s t.cores) :)
  rw [freeTeam_eq, State.modSys_sys, h]

theorem freeTeam_flat (s : State) (t : Team) : (s.freeTeam t).flat = s.flat :=
  (congrArg State.flat (modCores_whole (fun _ => Core.freed) s t.cores) :)

theorem freed_store (x : Core) (sp : Space) : x.freed.store sp = x.store sp := by cases sp <;> rfl

/-- The four named events of a task's record (R245). -/
theorem taskEvents_eq {s : State} {t : Team} {evs : Word64} (h : s.sysWord t.asid true (t.rec' + 40) = .ok evs) :
    s.taskEvents t = (List.range 4).map (fun i => evs.toNat / 2 ^ (16 * i) % 2 ^ 16) := by
  have hw : s.taskWord t.asid t.rec' 5 = evs := taskWord_ok h
  simp only [State.taskEvents, hw, bits_eq]
  rfl

/-- The end of a task whose every part has ended. -/
theorem taskComplete_ends (t : Team) (evs : Word64) (pa : Nat) (s : State) (ht : s.team t.id = some t) (hphase : t.phase = .running)
    (hparts : ∀ c ∈ t.cores, (s.core c).partEnded = true ∧ (s.core c).drain = []) (hc : Calm s) (hev : s.sys.evWaiters = [])
    (hp : s.packet t.pkt = none) (hevs : s.sysWord t.asid true (t.rec' + 40) = .ok evs)
    (hdeps : t.trigDone = true ∨ ∀ k, 6 ≤ k → k ≤ 9 → s.sysWord t.asid true (t.rec' + 8 * k) = .ok 0)
    (ha : SysAt s t.asid (t.rec' + 16) 8 pa) (h8 : (t.rec' + 16) % 8 = 0) :
    let named := ((List.range 4).map (fun i => evs.toNat / 2 ^ (16 * i) % 2 ^ 16)).filter (fun e => e ≠ 0)
    ∃ u v, WritesHbm s u pa (leBytes 8 (setBits (s.flat.hbm.num pa 8) 42 40 4)) false ∧
      exec (.taskComplete t.id) s = .next v ∧ v.flat = u.flat ∧ v.team t.id = none ∧
      (∀ e, v.sys.event e = BitVec.ofNat 32 (min ((s.sys.event e).toNat + named.count e) 0xFFFFFFFF)) ∧
      (∀ c ∈ t.cores, (v.core c).team = none ∧ (v.core c).ctxs = [] ∧ ∀ sp, (v.core c).store sp = (s.core c).store sp) ∧
      ∀ c, c ∉ t.cores → v.core c = s.core c := by
  intro named
  obtain ⟨ev, hposts, hcounts⟩ := postEvents_events hev ((List.range 4).map (fun i => evs.toNat / 2 ^ (16 * i) % 2 ^ 16))
  let p : State := { s with sys := { s.sys with events := ev } }
  have hlike : SeenAlike s p := ⟨rfl, rfl, rfl, rfl, rfl⟩
  have hcp : Calm p := ⟨hc.jobs, hc.lines, hc.locks, hc.waiters⟩
  have hdec : (if t.trigDone then p else p.decDeps t.asid t.rec' false) = p := by
    split
    · rfl
    · next hnot =>
      exact decDeps_none (fun k hlo hhi => (hlike.taskWord ..).trans (taskWord_ok (hdeps.resolve_left hnot k hlo hhi))) false
  have hstate := setTaskState_calm hcp (hlike.sysAt ha) h8 tDone
  let w : State := { p.hbmWrite pa (leBytes 8 (setBits (p.flat.hbm.num pa 8) 42 40 tDone)) .keep with sys := pokedSys p.sys }
  have hcore : ∀ c, w.core c = s.core c := hbmWrite_core p pa _ (pokedSys p.sys)
  have hpacket : w.packet t.pkt = none := by
    have hpackets : w.sys.packets = s.sys.packets.map (fun p => { p with poke := true }) := rfl
    have hid : (fun q : Packet => decide (q.id = t.pkt)) ∘ (fun q : Packet => { q with poke := true }) =
        fun q => decide (q.id = t.pkt) := rfl
    rw [State.packet, hpackets, List.find?_map, hid]
    exact congrArg (Option.map _) hp
  have hexec : exec (.taskComplete t.id) s = .next (w.freeTeam t) := by
    have hall : t.cores.all (fun c => (s.core c).partEnded && (s.core c).drain.isEmpty) = true :=
      List.all_eq_true.2 (fun c hc => by rw [(hparts c hc).1, (hparts c hc).2]; rfl)
    show execTaskComplete t.id s = _
    unfold execTaskComplete
    rw [ht]
    simp only [hphase, hall, and_self, if_true]
    rw [taskEvents_eq hevs, hposts, hdec, hstate, hpacket]
  refine ⟨_, _, hbmWrite_keep s pa _, hexec, freeTeam_flat w t, freeTeam_team w t, fun e => ?_, fun c hc => ?_, fun c hc => ?_⟩
  · rw [freeTeam_sys]
    exact hcounts e
  · rw [freeTeam_core hc, hcore]
    exact ⟨rfl, rfl, freed_store _⟩
  · rw [freeTeam_core_other hc, hcore]

/-- Settles O47: a placement by the tests that the scheduler makes of the rectangle and of the other tasks, the rest by what each row
does to the cores of the team's rectangle and to its record. -/
theorem tasksRunAndEnd : Obligations.TasksRunAndEnd := by
  unfold Obligations.TasksRunAndEnd
  refine ⟨fun n row col t s ht hready hfree => ⟨fun hwas hothers => ?_, fun u hu hu' hpri hfits => ?_⟩, wake_wakes, teamStart_starts,
    taskComplete_ends⟩
  · rw [taskPlace_eq ht hwas]
    exact if_pos (by rw [hready, mayPlace_lone ht hothers, (rectFree_iff ..).2 hfree]; rfl)
  · exact taskPlace_held ht (mayPlace_held hu hu' hpri ((fits_iff ..).2 hfits))

end Sys2Proof
end

section
/-! Taking, saving and resuming a team (R92, R99, R100, R288, R294, R308 to R311). -/

namespace Sys2Proof

open Sys2Proof.Machine

/-! The scheduler asks for a team (R99, R308). -/

theorem fits_none {s : State} {w h : Nat} (hfree : ∀ r k, k < 28 → ¬ FreeAt s r (8 * k) w h) : s.fits w h = false := by
  refine Bool.eq_false_iff.2 (fun hfits => ?_)
  obtain ⟨r, k, hk, hr⟩ := (fits_iff ..).1 hfits
  exact hfree r k hk hr

/-- A team as a take asks for it. -/
def askedTeam (s : State) (u : Team) : Team :=
  { u with take := true, takeSince := if u.cores.any (fun c => (s.core c).rests) then some s.cycle else none }

theorem takeRequest_asks {t : Team} {s : State} (ht : s.team t.id = some t) (hrun : t.phase = .running)
    (hq : ∃ q ∈ s.sys.tasks, q.ready = true ∧ t.base < q.base ∧ ∀ r k, k < 28 → ¬ FreeAt s r (8 * k) q.width q.height)
    (htake : t.take = false) (hno : t.noTake = false) (hsave : t.save ≠ 0) :
    exec (.takeRequest t.id) s = .next (s.modTeam t.id (askedTeam s)) := by
  obtain ⟨q, hmem, hready, hbase, hfree⟩ := hq
  have hany : s.sys.tasks.any (fun u => u.ready && decide (t.base < u.base) && !s.fits u.width u.height) = true :=
    List.any_eq_true.2 ⟨q, hmem, by rw [hready, decide_eq_true hbase, fits_none hfree]; rfl⟩
  show execTakeRequest t.id s = _
  unfold execTakeRequest
  rw [ht]
  simp only [hrun, htake, hno, hany, ne_eq, hsave, not_false_eq_true, and_self, if_true]
  rfl

theorem takeRequest_unsaved {t : Team} {s : State} (ht : s.team t.id = some t) (hsave : t.save = 0) :
    exec (.takeRequest t.id) s = .next s := by
  show execTakeRequest t.id s = _
  unfold execTakeRequest
  rw [ht]
  simp only [hsave, ne_eq, not_true_eq_false, false_and, and_false, if_false]

/-! The take is withdrawn (R99). -/

theorem unpark_none {x : Ctx} (h : x.parked = none) : x.unpark = x := by rw [Ctx.unpark, h]

theorem unpark_some {x : Ctx} {p : Parked} (h : x.parked = some p) :
    x.unpark = { x with
      pc := x.pc + 8, budget := p.budget, left := BitVec.ofNat 16 (p.budget.toNat * 256), waitSince := none, waitObj := none
      held := .none, parked := none, rep := { x.rep with stopped := false } } := by
  have hleft : p.budget.zeroExtend 16 * 256 = BitVec.ofNat 16 (p.budget.toNat * 256) := by
    refine BitVec.eq_of_toNat_eq ?_
    simp [BitVec.toNat_mul]
  rw [Ctx.unpark, h, ← hleft]
  rfl

theorem unpark_unpark (x : Ctx) : x.unpark.unpark = x.unpark := by
  cases h : x.parked with
  | none => rw [unpark_none h, unpark_none h]
  | some p => exact unpark_none (by rw [unpark_some h])

/-- Every parked context of a core goes on. -/
def unparkCore (x : Core) : Core := { x with ctxs := x.ctxs.map (fun e => (e.1, e.2.unpark)) }

theorem unparkCore_ctx (x : Core) (h : Nat) : (unparkCore x).ctx h = (x.ctx h).unpark :=
  AMap.get_map (f := fun _ => Ctx.unpark) x.ctxs h rfl

theorem unparkCore_unparkCore (x : Core) : unparkCore (unparkCore x) = unparkCore x := by
  simp only [unparkCore, List.map_map, Function.comp_def, unpark_unpark]

theorem takeWithdraw_eq {t : Team} {since : Nat} {s : State} (ht : s.team t.id = some t) (htake : t.take = true)
    (hsince : t.takeSince = some since) :
    exec (.takeWithdraw t.id) s = .next (if 2 ^ 20 ≤ s.cycle - since then s.withdrawTake t false else s) := by
  show execTakeWithdraw t.id s = _
  unfold execTakeWithdraw
  rw [ht]
  simp only [htake, hsince]

/-- A take that has lasted too long. -/
theorem withdrawTake_goesOn {t : Team} {s : State} (ht : s.team t.id = some t) :
    let u := s.withdrawTake t false
    u.team t.id = some { t with take := false, takeSince := none } ∧ (∀ c, c ∉ t.cores → u.core c = s.core c) ∧
      ∀ c ∈ t.cores, coreRest (u.core c) = coreRest (s.core c) ∧ ∀ h,
        let x := (s.core c).ctx h
        (x.parked = none → (u.core c).ctx h = x) ∧
        ∀ p, x.parked = some p → (u.core c).ctx h = { x with
          pc := x.pc + 8, budget := p.budget, left := BitVec.ofNat 16 (p.budget.toNat * 256), waitSince := none, waitObj := none
          held := .none, parked := none, rep := { x.rep with stopped := false } } := by
  intro u
  have hteam : (modCores (fun _ => unparkCore) s t.cores).team t.id = some t := by
    have hsys : (modCores (fun _ => unparkCore) s t.cores).sys = s.sys := (congrArg State.sys (modCores_whole _ s t.cores) :)
    rw [State.team, hsys]
    exact ht
  have hu : u.team t.id = _ := team_modTeam (modCores (fun _ => unparkCore) s t.cores) t.id (fun _ => rfl)
  refine ⟨?_, fun c hc => modCores_core_other _ hc, fun c hc => ?_⟩
  · rw [hu, hteam]
    simp only [Option.map_some, Bool.or_false]
  · have hcore : u.core c = unparkCore (s.core c) := modCores_core _ hc (.inr unparkCore_unparkCore)
    rw [hcore]
    refine ⟨rfl, fun h => ⟨fun hp => ?_, fun p hp => ?_⟩⟩
    · exact (unparkCore_ctx ..).trans (unpark_none hp)
    · exact (unparkCore_ctx ..).trans (unpark_some hp)

/-! A team at rest is saved (R100, R309, R310). -/

theorem foldlM_ok {α σ ε : Type} {f : σ → α → Except ε σ} {P : σ → Prop} (hf : ∀ u x v, P u → f u x = .ok v → P v)
    (l : List α) {s t : σ} (hs : P s) (ht : l.foldlM f s = .ok t) : P t := by
  induction l generalizing s with
  | nil => cases ht; exact hs
  | cons x l ih =>
    rw [List.foldlM_cons] at ht
    cases hx : f s x with
    | error e => rw [hx] at ht; cases ht
    | ok u => rw [hx] at ht; exact ih (hf s x u hs hx) ht

/-- A state that differs in flat memory at most, with no granule locked. -/
structure StoresTo (s u : State) : Prop where
  whole : u = { s with flat := u.flat }
  locks : u.flat.rmWrites = []

theorem sysStore_stores {s u v : State} {asid va n : Nat} {m : Mem} (hj : s.sys.jobs = []) (h : StoresTo s u)
    (hv : u.sysStore asid va n m = .ok v) : StoresTo s v := by
  unfold State.sysStore at hv
  cases hr : u.sysRuns asid true .write va n (n / 65536 + 3) with
  | error e => rw [hr] at hv; cases hv
  | ok runs =>
    rw [hr] at hv
    refine foldlM_ok (P := StoresTo s) ?_ runs h hv
    intro u r v hu hv
    have hju : u.sys.jobs = [] := by rw [hu.whole]; exact hj
    simp only [newFor_none (job_none hju asid), settle_idle hu.locks, Option.isSome_none, Bool.false_eq_true, if_false] at hv
    split at hv
    · obtain rfl : _ = v := Except.ok.inj hv
      refine ⟨?_, hu.locks⟩
      rw [hu.whole]
      rfl
    · cases hv

theorem writeSave_stores {s u : State} {t : Team} (hj : s.sys.jobs = []) (hl : s.flat.rmWrites = []) (h : s.writeSave t = .ok u) :
    StoresTo s u := by
  unfold State.writeSave at h
  simp only [bind, Except.bind] at h
  split at h
  · cases h
  · next v hblocks =>
    refine sysStore_stores hj ?_ h
    exact foldlM_ok (P := StoresTo s) (fun u c w hu hw => sysStore_stores hj hu hw) t.cores ⟨rfl, hl⟩ hblocks

section
variable {α β : Type} [DecidableEq β] (d : β) (key : α → Nat) (val : α → β)

theorem AMap.get_foldl_set_other {l : List α} {k : Nat} (h : ∀ c ∈ l, key c ≠ k) (m : AMap β) :
    AMap.get d (l.foldl (fun m c => m.set d (key c) (val c)) m) k = AMap.get d m k := by
  induction l generalizing m with
  | nil => rfl
  | cons c l ih =>
    rw [List.foldl_cons, ih (fun b hb => h b (List.mem_cons_of_mem _ hb)), AMap.get_set, if_neg (h c (List.mem_cons_self ..))]

/-- A map that is set at the keys of a list, which differ. -/
theorem AMap.get_foldl_set {l : List α} (hinj : ∀ a ∈ l, ∀ b ∈ l, key a = key b → a = b) {c : α} (hc : c ∈ l) (m : AMap β) :
    AMap.get d (l.foldl (fun m c => m.set d (key c) (val c)) m) (key c) = val c := by
  induction l generalizing m with
  | nil => cases hc
  | cons a l ih =>
    rw [List.foldl_cons]
    by_cases hin : c ∈ l
    · exact ih (fun x hx y hy => hinj x (List.mem_cons_of_mem _ hx) y (List.mem_cons_of_mem _ hy)) hin _
    · obtain rfl : c = a := (List.mem_cons.1 hc).resolve_right hin
      rw [AMap.get_foldl_set_other, AMap.get_set, if_pos rfl]
      intro b hb hkey
      exact hin (hinj b (List.mem_cons_of_mem _ hb) c hc hkey ▸ hb)

end

/-- The entry of a task whose team is saved. -/
def savedEntry (s : State) (t : Team) : TaskEntry :=
  { rec' := t.rec', asid := t.asid, pkt := t.pkt, queue := t.queue, ready := true
    since := s.cycle, base := t.base, width := t.width, height := t.height, was := some (s.takenTeam t) }

theorem teamSave_eq {t : Team} {s u : State} (ht : s.team t.id = some t) (hrun : t.phase = .running) (htake : t.take = true)
    (hj : s.sys.jobs = []) (hrest : ∀ c ∈ t.cores, s.memberRests c = true)
    (hlive : ∃ c ∈ t.cores, ∃ e ∈ (s.core c).ctxs, e.2.live = true) (hu : s.writeSave t = .ok u) :
    exec (.teamSave t.id) s = .next (((u.setTaskState t.asid t.rec' tReady false).freeTeam t).modSys
      (fun y => { y with tasks := y.tasks ++ [savedEntry s t] })) := by
  have hall : t.cores.all s.memberRests = true := List.all_eq_true.2 hrest
  have hany : t.cores.any (fun c => (s.core c).ctxs.any (fun e => e.2.live)) = true := by
    obtain ⟨c, hc, e, he, hl⟩ := hlive
    exact List.any_eq_true.2 ⟨c, hc, List.any_eq_true.2 ⟨e, he, hl⟩⟩
  have hkiln : (s.job t.asid).bind Job.running = none := by rw [job_none hj]; rfl
  show execTeamSave t.id s = _
  unfold execTeamSave
  rw [ht]
  simp only [hrun, htake, hall, hany, hkiln, and_self, if_true, hu]
  rfl

/-- A save of a team at rest. -/
theorem teamSave_saves (t : Team) (s u : State) (ht : s.team t.id = some t) (hrun : t.phase = .running) (htake : t.take = true)
    (hcol : t.col0 + t.width ≤ 224) (hc : Calm s) (hrest : ∀ c ∈ t.cores, s.memberRests c = true)
    (hlive : ∃ c ∈ t.cores, ∃ e ∈ (s.core c).ctxs, e.2.live = true) (hu : s.writeSave t = .ok u) :
    ∃ v a, exec (.teamSave t.id) s = .next v ∧ v.team t.id = none ∧
      v.sys.tasks = s.sys.tasks ++ [{ rec' := t.rec', asid := t.asid, pkt := t.pkt, queue := t.queue, ready := true, since := s.cycle
                                      base := t.base, width := t.width, height := t.height
                                      was := some { t with arrivals := a } }] ∧
      (∀ c ∈ t.cores, a.get [] (t.rankOf c) = (s.core c).phase.arrivals.map (fun x => { x with before := 0 })) ∧
      (∀ c ∈ t.cores, (v.core c).team = none ∧ (v.core c).ctxs = []) ∧ ∀ c, c ∉ t.cores → v.core c = s.core c := by
  have hstores := writeSave_stores hc.jobs hc.locks hu
  have hcores : u.cores = s.cores := by rw [hstores.whole]
  have hsys : u.sys = s.sys := by rw [hstores.whole]
  have hsame := setTaskState_same (s := u) (by rw [hsys]; exact hc.jobs) (by rw [hcores]; exact hc.lines) hstores.locks
    t.asid t.rec' tReady
  have hcore : ∀ c, (u.setTaskState t.asid t.rec' tReady false).core c = s.core c := fun c => by
    rw [hsame.core, State.core, hcores]
    rfl
  refine ⟨_, (s.takenTeam t).arrivals, teamSave_eq ht hrun htake hc.jobs hrest hlive hu, freeTeam_team _ t, ?_, fun c hc => ?_,
    fun c hc => ?_, fun c hc => ?_⟩
  · rw [State.modSys_sys, freeTeam_sys]
    simp only [hsame.tasks, hsys]
    rfl
  · exact AMap.get_foldl_set [] t.rankOf (fun c => (s.core c).phase.arrivals.map (fun x => { x with before := 0 }))
      (fun a ha b hb => rankOf_inj hcol ha hb) hc []
  · rw [State.modSys_core, freeTeam_core hc]
    exact ⟨rfl, rfl⟩
  · rw [State.modSys_core, freeTeam_core_other hc, hcore]

/-! The contexts of a resumed core (R100, R288, R311). -/

theorem AMap.get_map_keys {α : Type} (d : α) (g : Nat → α) (ks : List Nat) (k : Nat) :
    AMap.get d (ks.map (fun j => (j, g j))) k = if k ∈ ks then g k else d := by
  induction ks with
  | nil => rfl
  | cons j ks ih =>
    by_cases hj : j = k
    · subst hj
      simp [AMap.get]
    · simp [AMap.get, hj, Ne.symm hj, ih]

/-- A core with a block read into it, its contexts in the team's mode (R294, R311). -/
def readCore (t : Team) (cycle : Nat) (m : Mem) (arrivals : List Arrival) (x : Core) : Core :=
  let y := x.fromImage m arrivals
  { y with ctxs := y.ctxs.map (fun e => (e.1, e.2.resumedAt cycle t.sup)) }

section
variable (t : Team) (cycle : Nat) (m : Mem) (arrivals : List Arrival) (x : Core)

theorem fromImage_ctxs : (x.fromImage m arrivals).ctxs = (upFrom 0 11).map (fun h => (h, ctxFrom m h)) := rfl

theorem fromImage_ctx (h : Nat) : (x.fromImage m arrivals).ctx h = if h ∈ upFrom 0 11 then ctxFrom m h else {} := by
  rw [Core.ctx, fromImage_ctxs, AMap.get_map_keys]

theorem coreRest_ctxs (y : Core) (l : AMap Ctx) : coreRest { y with ctxs := l } = coreRest y := rfl

theorem readCore_rest : coreRest (readCore t cycle m arrivals x) = coreRest (x.fromImage m arrivals) := by
  rw [readCore, coreRest_ctxs]

theorem readCore_ctxs :
    (readCore t cycle m arrivals x).ctxs = (upFrom 0 11).map (fun h => (h, (ctxFrom m h).resumedAt cycle t.sup)) := by
  simp only [readCore, fromImage_ctxs, List.map_map]
  rfl

theorem readCore_ctx (h : Nat) : (readCore t cycle m arrivals x).ctx h =
    if h ∈ upFrom 0 11 then ((x.fromImage m arrivals).ctx h).resumedAt cycle t.sup else {} := by
  rw [Core.ctx, readCore_ctxs, AMap.get_map_keys, fromImage_ctx]
  split <;> rfl

/-- A context of a redirected member (R288). -/
def redirectedCtx (pc : Word64) (h : Nat) (x : Ctx) : Ctx :=
  if h = 0 then { x with pc := pc, held := .none }
  else { x with live := false, held := .none, vcount := 0, vreq := 0, vregs := [], reserved := [] }

theorem redirectTo_ctx (pc : Word64) (h : Nat) : ((readCore t cycle m arrivals x).redirectTo pc).ctx h =
    if h ∈ upFrom 0 11 then redirectedCtx pc h ((readCore t cycle m arrivals x).ctx h) else {} := by
  have hctxs : ((readCore t cycle m arrivals x).redirectTo pc).ctxs =
      (upFrom 0 11).map (fun h => (h, redirectedCtx pc h ((ctxFrom m h).resumedAt cycle t.sup))) := by
    simp only [Core.redirectTo, readCore_ctxs, List.map_map]
    rfl
  rw [readCore_ctx, fromImage_ctx, Core.ctx, hctxs, AMap.get_map_keys]
  split <;> rfl

end

theorem rolledTo_stays {t : Team} {x : Core} (h : x.exited = true ∨ ∀ k pc, t.rolled ≠ some (k, some pc)) : x.rolledTo t = x := by
  unfold Core.rolledTo
  split
  · next k pc heq =>
    exact if_pos (h.resolve_right (fun hno => hno k pc heq))
  · rfl

theorem rolledTo_redirected {t : Team} {x : Core} {k : BitVec 16} {pc : Word64} (h : t.rolled = some (k, some pc))
    (hx : x.exited = false) : x.rolledTo t = x.redirectTo pc := by
  rw [Core.rolledTo, h]
  exact if_neg (by rw [hx]; exact Bool.false_ne_true)

theorem rolledTo_rest (t : Team) (x : Core) : coreRest (x.rolledTo t) = coreRest x := by
  unfold Core.rolledTo
  split
  · split <;> rfl
  · rfl

/-! The exit values of helpers that are not live (R100). -/

/-- A context that keeps all when it is live, and whose exit value is free when it is not. -/
structure FreedCtx (x y : Ctx) : Prop where
  live : x.live = true → y = x
  dead : x.live = false → ∃ n, y = { x with exitVal := Config.freeWord n }

theorem FreedCtx.trans {x y z : Ctx} (h : FreedCtx x y) (h' : FreedCtx y z) : FreedCtx x z where
  live := fun hx => by
    obtain rfl := h.live hx
    exact h'.live hx
  dead := fun hx => by
    obtain ⟨n, rfl⟩ := h.dead hx
    exact h'.dead hx

/-- The exit value of one helper that is not live. -/
def freeHelper (c : Nat) (u : State) (h : Nat) : State :=
  if ((u.core c).ctx h).live then u else u.free.2.modCtx c h (fun x => { x with exitVal := u.free.1 })

/-- What freeing exit values of core c's contexts hs does. -/
structure FreesExits (c : Nat) (hs : List Nat) (u v : State) : Prop where
  whole : v = { u with cores := v.cores, freeCtr := v.freeCtr }
  others : ∀ d, d ≠ c → v.core d = u.core d
  rest : coreRest (v.core c) = coreRest (u.core c)
  kept : ∀ h, h ∉ hs → (v.core c).ctx h = (u.core c).ctx h
  freed : ∀ h ∈ hs, FreedCtx ((u.core c).ctx h) ((v.core c).ctx h)

theorem freeHelper_frees (c h : Nat) (u : State) : FreesExits c [h] u (freeHelper c u h) := by
  unfold freeHelper
  split
  · next hl =>
    exact ⟨rfl, fun _ _ => rfl, rfl, fun _ _ => rfl, fun j hj => by
      obtain rfl := List.mem_singleton.1 hj
      exact ⟨fun _ => rfl, fun hd => absurd hl (by rw [hd]; exact Bool.false_ne_true)⟩⟩
  · next hl =>
    have hcore : (u.free.2.modCtx c h (fun x => { x with exitVal := u.free.1 })).core c =
        (u.core c).modCtx h (fun x => { x with exitVal := u.free.1 }) := State.modCore_core_same _ _ _
    refine ⟨rfl, fun d hd => State.modCore_core_other _ _ hd, ?_, fun j hj => ?_, fun j hj => ?_⟩
    · rw [hcore]; rfl
    · rw [hcore]
      exact AMap.get_put_other _ _ _ (fun heq => hj (List.mem_singleton.2 heq))
    · obtain rfl := List.mem_singleton.1 hj
      rw [hcore]
      exact ⟨fun hlive => absurd hlive hl, fun _ => ⟨u.freeCtr, AMap.get_put_same _ _ _ _⟩⟩

theorem freeHelpers_free (c : Nat) (hs : List Nat) (u : State) : FreesExits c hs u (hs.foldl (freeHelper c) u) := by
  induction hs generalizing u with
  | nil => exact ⟨rfl, fun _ _ => rfl, rfl, fun _ _ => rfl, fun h hh => nomatch hh⟩
  | cons h hs ih =>
    have h1 := freeHelper_frees c h u
    have h2 := ih (freeHelper c u h)
    refine ⟨?_, fun d hd => (h2.others d hd).trans (h1.others d hd), h2.rest.trans h1.rest, fun j hj => ?_, fun j hj => ?_⟩
    · rw [List.foldl_cons, h2.whole, h1.whole]
    · rw [List.mem_cons, not_or] at hj
      exact (h2.kept j hj.2).trans (h1.kept j (by simpa using hj.1))
    · by_cases hin : j ∈ hs
      · by_cases hjh : j = h
        · exact (h1.freed j (by simpa using hjh)).trans (h2.freed j hin)
        · have := h2.freed j hin
          rwa [h1.kept j (by simpa using hjh)] at this
      · obtain rfl := (List.mem_cons.1 hj).resolve_right hin
        have := h1.freed j (List.mem_singleton.2 rfl)
        rwa [← h2.kept j hin] at this

/-! The members of a resuming team, one after another (R100, R311). -/

/-- One member of a resuming team reads its block. -/
def resumeStep (s : State) (t : Team) (u : State) (c : Nat) : Except Nat State := do
  let m ← u.sysImage t.asid (t.save.toNat + 0x1000 + t.rankOf c * blockBytes) blockBytes
  .ok ((upFrom 1 10).foldl (freeHelper c) ((u.modCluster (clusterOf c) (fun k => k.fromImage m (sliceOf c))).modCore c
    (fun x => (readCore t s.cycle m (t.arrivals.get [] (t.rankOf c)) x).rolledTo t)))

theorem teamResume_eq {t : Team} {s : State} (ht : s.team t.id = some t) (hphase : t.phase = .waking) (hres : t.resumes = true) :
    exec (.teamResume t.id) s =
      match (do
        let v ← t.cores.foldlM (resumeStep s t) s
        let m ← v.sysImage t.asid t.save.toNat 0x1000
        (v.modTeam t.id (fun t => { t with
          resumes := false, rolled := none, next := sparse 0 (upFrom 0 4) (fun r => m.num (0x18 + 8 * r) 8) })).sysWrite
          t.asid true false t.save.toNat (leBytes 8 0) : Except Nat State) with
      | .ok u => .next u
      | .error _ => .next s := by
  show execTeamResume t.id s = _
  unfold execTeamResume
  rw [ht]
  simp only [hphase, hres, and_self, if_true]
  rfl

/-- A core that has read its block, its helpers' exit values free where they are not live. -/
structure ResumedCore (z y : Core) : Prop where
  rest : coreRest y = coreRest z
  kept : ∀ h, h ∉ upFrom 1 10 → y.ctx h = z.ctx h
  freed : ∀ h ∈ upFrom 1 10, FreedCtx (z.ctx h) (y.ctx h)

/-- The cores cs have read their blocks, and the lines of every core's buffer are as before: there is none. -/
structure Resumes (f : Nat → Core → Core) (cs : List Nat) (u v : State) : Prop where
  whole : v = { u with cores := v.cores, clusters := v.clusters, freeCtr := v.freeCtr }
  lines : ∀ q ∈ v.cores, q.2.linebuf = []
  others : ∀ d, d ∉ cs → v.core d = u.core d
  members : ∀ c ∈ cs, ResumedCore (f c (u.core c)) (v.core c)

/-- The core that a member's block and its team make of a core. -/
def resumedCore (s : State) (t : Team) (img : Nat → Mem) (c : Nat) (x : Core) : Core :=
  (readCore t s.cycle (img c) (t.arrivals.get [] (t.rankOf c)) x).rolledTo t

theorem linebuf_none {s : State} (h : ∀ q ∈ s.cores, q.2.linebuf = []) (c : Nat) : (s.core c).linebuf = [] := by
  rcases AMap.get_eq_or_mem {} s.cores c with hnone | hmem
  · rw [State.core, hnone]
  · exact h _ hmem

theorem linebuf_modCore {s : State} (h : ∀ q ∈ s.cores, q.2.linebuf = []) (c : Nat) {f : Core → Core} (hf : (f (s.core c)).linebuf = []) :
    ∀ q ∈ (s.modCore c f).cores, q.2.linebuf = [] := by
  intro q hq
  rcases AMap.mem_put hq with rfl | hq
  · exact hf
  · exact h q hq

theorem freeHelpers_lines (c : Nat) (hs : List Nat) {u : State} (h : ∀ q ∈ u.cores, q.2.linebuf = []) :
    ∀ q ∈ (hs.foldl (freeHelper c) u).cores, q.2.linebuf = [] := by
  induction hs generalizing u with
  | nil => exact h
  | cons j hs ih =>
    refine ih ?_
    unfold freeHelper
    split
    · exact h
    · exact linebuf_modCore (s := u.free.2) h c (linebuf_none h c)

theorem resumedCore_linebuf (s : State) (t : Team) (img : Nat → Mem) (c : Nat) (x : Core) :
    (resumedCore s t img c x).linebuf = x.linebuf :=
  (congrArg Core.linebuf (rolledTo_rest t (readCore t s.cycle (img c) (t.arrivals.get [] (t.rankOf c)) x)) :)

theorem resumeStep_resumes {s u : State} {t : Team} {img : Nat → Mem} {c : Nat} (hlike : SeenAlike s u) (hw : s.flat.rmWrites = [])
    (hl : ∀ q ∈ u.cores, q.2.linebuf = [])
    (himg : s.sysImage t.asid (t.save.toNat + 0x1000 + t.rankOf c * 0x40000) 0x40000 = .ok (img c)) :
    ∃ v, resumeStep s t u c = .ok v ∧ Resumes (resumedCore s t img) [c] u v := by
  have himg' : u.sysImage t.asid (t.save.toNat + 0x1000 + t.rankOf c * blockBytes) blockBytes = .ok (img c) :=
    (hlike.sysImage hw ..).trans himg
  let w : State := (u.modCluster (clusterOf c) (fun k => k.fromImage (img c) (sliceOf c))).modCore c (resumedCore s t img c)
  have hcore : w.core c = resumedCore s t img c (u.core c) := State.modCore_core_same _ _ _
  have hwl : ∀ q ∈ w.cores, q.2.linebuf = [] :=
    linebuf_modCore (s := u.modCluster (clusterOf c) _) hl c ((resumedCore_linebuf ..).trans (linebuf_none hl c))
  have hstep : resumeStep s t u c = .ok ((upFrom 1 10).foldl (freeHelper c) w) := by
    rw [resumeStep, himg']
    rfl
  obtain ⟨v, hv, hfree, hvl⟩ : ∃ v, (upFrom 1 10).foldl (freeHelper c) w = v ∧ FreesExits c (upFrom 1 10) w v ∧
      ∀ q ∈ v.cores, q.2.linebuf = [] := ⟨_, rfl, freeHelpers_free .., freeHelpers_lines c _ hwl⟩
  refine ⟨v, hstep.trans (congrArg Except.ok hv), ?_, hvl, fun d hd => ?_, fun d hd => ?_⟩
  · rw [hfree.whole]
    rfl
  · have hdc : d ≠ c := by simpa using hd
    exact (hfree.others d hdc).trans (State.modCore_core_other _ _ hdc)
  · obtain rfl := List.mem_singleton.1 hd
    rw [← hcore]
    exact ⟨hfree.rest, hfree.kept, hfree.freed⟩

theorem Resumes.seenAlike {f : Nat → Core → Core} {cs : List Nat} {s u v : State} (h : Resumes f cs u v) (hu : SeenAlike s u) :
    SeenAlike s v := by
  rw [h.whole]
  exact ⟨hu.flat, hu.spaces, hu.nodeid, hu.fab, hu.cycle⟩

theorem resumeSteps_resume {s : State} {t : Team} {img : Nat → Mem} (hw : s.flat.rmWrites = []) {cs : List Nat} (hcs : cs.Nodup)
    (himg : ∀ c ∈ cs, s.sysImage t.asid (t.save.toNat + 0x1000 + t.rankOf c * 0x40000) 0x40000 = .ok (img c))
    {u : State} (hlike : SeenAlike s u) (hl : ∀ q ∈ u.cores, q.2.linebuf = []) :
    ∃ v, cs.foldlM (resumeStep s t) u = .ok v ∧ Resumes (resumedCore s t img) cs u v := by
  induction cs generalizing u with
  | nil => exact ⟨u, rfl, rfl, hl, fun _ _ => rfl, fun c hc => nomatch hc⟩
  | cons c cs ih =>
    obtain ⟨hnot, hnodup⟩ := List.nodup_cons.1 hcs
    obtain ⟨v, hv, h1⟩ := resumeStep_resumes hlike hw hl (himg c (List.mem_cons_self ..))
    obtain ⟨w, hw, h2⟩ := ih hnodup (fun d hd => himg d (List.mem_cons_of_mem _ hd)) (h1.seenAlike hlike) h1.lines
    refine ⟨w, ?_, ?_, h2.lines, fun d hd => ?_, fun d hd => ?_⟩
    · rw [List.foldlM_cons, hv]
      exact hw
    · rw [h2.whole, h1.whole]
    · rw [List.mem_cons, not_or] at hd
      exact (h2.others d hd.2).trans (h1.others d (by simpa using hd.1))
    · by_cases hin : d ∈ cs
      · have hdc : d ∉ [c] := fun h => hnot (List.mem_singleton.1 h ▸ hin)
        rw [← h1.others d hdc]
        exact h2.members d hin
      · obtain rfl := (List.mem_cons.1 hd).resolve_right hin
        rw [h2.others d hin]
        exact h1.members d (List.mem_singleton.2 rfl)

/-! A unit's write of a word of calm memory (R253, R281). -/

theorem sysXlate_write {s : State} {asid va : Nat} {e : TlbEntry} (h : s.sysXlate asid true .both va = .ok e) :
    s.sysXlate asid true .write va = .ok e := by
  unfold State.sysXlate at h ⊢
  split at h
  · cases h
  · next e' hwalk =>
    by_cases hboth : e'.permits .both true va = true
    · rw [if_pos hboth] at h
      obtain rfl : e' = e := Except.ok.inj h
      have hwrite : e'.permits .write true va = true := by
        simp only [TlbEntry.permits, Bool.and_eq_true] at hboth ⊢
        exact ⟨hboth.1, hboth.2.2⟩
      rw [if_pos hwrite]
    · rw [if_neg hboth] at h
      cases h

theorem sysWrite_calm {s : State} {asid va pa : Nat} (hc : Calm s) (ha : SysAt s asid va 8 pa) {bs : List Byte} (hb : bs.length = 8) :
    s.sysWrite asid true false va bs = .ok (s.hbmWrite pa bs .keep) := by
  obtain ⟨⟨e, he, hin, hpa, hrm⟩, hhbm, -⟩ := ha
  have hrange : rangeOf pa = .hbm := rangeOf_hbm (by decide) hhbm
  have hlen : min (7 + 1) (e.va + e.size - va) = 8 := by omega
  have hruns : s.sysRuns asid true .write va 8 3 = .ok [(e, va, 8)] := by
    show s.sysRuns asid true .write va (7 + 1) (2 + 1) = _
    unfold State.sysRuns
    rw [sysXlate_write he]
    simp only [bind, Except.bind, hlen, Nat.sub_self]
    rfl
  have htake : (bs.drop (va - va)).take 8 = bs := by
    rw [Nat.sub_self, List.drop_zero, List.take_of_length_le (by omega)]
  unfold State.sysWrite State.sysPut
  rw [hb, hruns]
  simp only [bind, Except.bind, List.foldlM, hpa, hrange, recall_idle hc.lines, settle_idle hc.locks,
    newFor_none (job_none hc.jobs asid), hrm, htake, if_true, Bool.false_eq_true, if_false]
  rfl

section
variable {s v : State} (pa : Nat) (bs : List Byte) (act : PoisonAct)

theorem hbmWrite_flat (h : v.flat = s.flat) : (v.hbmWrite pa bs act).flat = (s.hbmWrite pa bs act).flat := by
  simp only [State.hbmWrite, State.modFlat, h]

theorem hbmWrite_same_core (c : Nat) : (s.hbmWrite pa bs act).core c = s.core c := rfl

theorem hbmWrite_team (i : Nat) : (s.hbmWrite pa bs act).team i = s.team i := rfl

end

/-! A team resumes (R100, R311). -/

/-- A resumed team, its distributor as the header of its save area has it. -/
def resumedTeam (head : Mem) (t : Team) : Team :=
  { t with resumes := false, rolled := none, next := sparse 0 (upFrom 0 4) (fun r => head.num (0x18 + 8 * r) 8) }

theorem sparse_get {α : Type} [DecidableEq α] (d : α) (f : Nat → α) {ks : List Nat} {k : Nat} (h : k ∈ ks) :
    AMap.get d (sparse d ks f) k = f k :=
  AMap.get_foldl_set d (fun k => k) f (fun _ _ _ _ h => h) h []

theorem resumedTeam_next (head : Mem) (t : Team) {r : Nat} (hr : r < 4) : (resumedTeam head t).next.get 0 r = head.num (0x18 + 8 * r) 8 := by
  have hmem : r ∈ upFrom 0 4 := by rw [mem_upFrom]; omega
  simp only [resumedTeam, sparse_get 0 (fun r => head.num (0x18 + 8 * r) 8) hmem]

/-- The row that resumes a team: its members have read their blocks, and VALID is cleared. -/
theorem teamResume_resumes {t : Team} {pa : Nat} {img : Nat → Mem} {head : Mem} {s : State} (ht : s.team t.id = some t)
    (hphase : t.phase = .waking) (hres : t.resumes = true) (hcol : t.col0 + t.width ≤ 224) (hc : Calm s)
    (himg : ∀ c ∈ t.cores, s.sysImage t.asid (t.save.toNat + 0x1000 + t.rankOf c * 0x40000) 0x40000 = .ok (img c))
    (hhead : s.sysImage t.asid t.save.toNat 0x1000 = .ok head) (ha : SysAt s t.asid t.save.toNat 8 pa) :
    ∃ v, exec (.teamResume t.id) s = .next v ∧ v.flat = (s.hbmWrite pa (leBytes 8 0) .keep).flat ∧
      v.team t.id = some (resumedTeam head t) ∧ (∀ c, c ∉ t.cores → v.core c = s.core c) ∧
      ∀ c ∈ t.cores, ResumedCore (resumedCore s t img c (s.core c)) (v.core c) := by
  obtain ⟨w, hw, hr⟩ := resumeSteps_resume hc.locks (cores_nodup hcol) himg ⟨rfl, rfl, rfl, rfl, rfl⟩ hc.lines
  have hlike : SeenAlike s w := hr.seenAlike ⟨rfl, rfl, rfl, rfl, rfl⟩
  have hsys : w.sys = s.sys := (congrArg State.sys hr.whole :)
  have hhead' : w.sysImage t.asid t.save.toNat 0x1000 = .ok head := (hlike.sysImage hc.locks ..).trans hhead
  let v := w.modTeam t.id (resumedTeam head)
  have hlikev : SeenAlike s v := ⟨hlike.flat, hlike.spaces, hlike.nodeid, hlike.fab, hlike.cycle⟩
  have hcv : Calm v :=
    ⟨(congrArg SysDie.jobs hsys).trans hc.jobs, hr.lines, (congrArg Flat.rmWrites hlike.flat).trans hc.locks,
      (congrArg Flat.waiters hlike.flat).trans hc.waiters⟩
  have hwrite : v.sysWrite t.asid true false t.save.toNat (leBytes 8 0) = .ok (v.hbmWrite pa (leBytes 8 0) .keep) :=
    sysWrite_calm hcv (hlikev.sysAt ha) (leBytes_length ..)
  have hteam : v.team t.id = some (resumedTeam head t) := by
    have hwt : w.team t.id = some t := by rw [State.team, hsys]; exact ht
    have hmod : (w.modTeam t.id (resumedTeam head)).team t.id = (w.team t.id).map (resumedTeam head) :=
      team_modTeam w t.id (fun _ => rfl)
    rw [hmod, hwt]
    rfl
  refine ⟨v.hbmWrite pa (leBytes 8 0) .keep, ?_, hbmWrite_flat _ _ _ hlikev.flat, (hbmWrite_team ..).trans hteam, fun c hc => ?_,
    fun c hc => ?_⟩
  · rw [teamResume_eq ht hphase hres, hw]
    simp only [bind, Except.bind, hhead']
    rw [show w.modTeam t.id (fun t => { t with
      resumes := false, rolled := none, next := sparse 0 (upFrom 0 4) (fun r => head.num (0x18 + 8 * r) 8) }) = v from rfl, hwrite]
  · rw [hbmWrite_same_core]
    exact hr.others c hc
  · rw [hbmWrite_same_core]
    exact hr.members c hc

/-! What a resumed member holds, context by context. -/

section
variable {s : State} {t : Team} {img : Nat → Mem} {c : Nat} {x y : Core}

/-- A context of a member as its block holds it, in the mode of the team's task. -/
def resumedCtx (s : State) (t : Team) (img : Nat → Mem) (c : Nat) (x : Core) (h : Nat) : Ctx :=
  ((x.fromImage (img c) (t.arrivals.get [] (t.rankOf c))).ctx h).resumedAt s.cycle t.sup

theorem readCore_ctx_low {h : Nat} (hh : h ≤ 10) :
    (readCore t s.cycle (img c) (t.arrivals.get [] (t.rankOf c)) x).ctx h = resumedCtx s t img c x h := by
  rw [readCore_ctx, if_pos (by rw [mem_upFrom]; omega)]
  rfl

theorem redirectTo_ctx_low (pc : Word64) {h : Nat} (hh : h ≤ 10) :
    ((readCore t s.cycle (img c) (t.arrivals.get [] (t.rankOf c)) x).redirectTo pc).ctx h =
      redirectedCtx pc h (resumedCtx s t img c x h) := by
  rw [redirectTo_ctx, if_pos (by rw [mem_upFrom]; omega), readCore_ctx_low hh]

theorem resumedCore_ctx_high {h : Nat} (hh : 10 < h) :
    (resumedCore s t img c x).ctx h = (x.fromImage (img c) (t.arrivals.get [] (t.rankOf c))).ctx h := by
  have hnot : h ∉ upFrom 0 11 := by rw [mem_upFrom]; omega
  rw [fromImage_ctx, if_neg hnot]
  by_cases hex : (readCore t s.cycle (img c) (t.arrivals.get [] (t.rankOf c)) x).exited = true ∨ ∀ k pc, t.rolled ≠ some (k, some pc)
  · rw [resumedCore, rolledTo_stays hex, readCore_ctx, if_neg hnot]
  · push Not at hex
    obtain ⟨hlive, k, pc, hrolled⟩ := hex
    rw [resumedCore, rolledTo_redirected hrolled (Bool.eq_false_iff.2 hlive), redirectTo_ctx, if_neg hnot]

variable (hy : ResumedCore (resumedCore s t img c x) y)
include hy

theorem ResumedCore.core : coreRest y = coreRest (x.fromImage (img c) (t.arrivals.get [] (t.rankOf c))) :=
  (hy.rest.trans (rolledTo_rest t _)).trans (readCore_rest t s.cycle (img c) (t.arrivals.get [] (t.rankOf c)) x)

theorem ResumedCore.high {h : Nat} (hh : 10 < h) : y.ctx h = (x.fromImage (img c) (t.arrivals.get [] (t.rankOf c))).ctx h :=
  (hy.kept h (by rw [mem_upFrom]; omega)).trans (resumedCore_ctx_high hh)

/-- A member that no rollback has redirected, or whose h0 has exited. -/
theorem ResumedCore.stays
    (h : (x.fromImage (img c) (t.arrivals.get [] (t.rankOf c))).exited = true ∨ ∀ k pc, t.rolled ≠ some (k, some pc)) :
    y.ctx 0 = resumedCtx s t img c x 0 ∧ ∀ h, 1 ≤ h → h ≤ 10 → FreedCtx (resumedCtx s t img c x h) (y.ctx h) := by
  have hcore : resumedCore s t img c x = readCore t s.cycle (img c) (t.arrivals.get [] (t.rankOf c)) x := rolledTo_stays h
  rw [hcore] at hy
  refine ⟨(hy.kept 0 (by rw [mem_upFrom]; omega)).trans (readCore_ctx_low (Nat.zero_le _)), fun h hlo hhi => ?_⟩
  rw [← readCore_ctx_low hhi]
  exact hy.freed h (by rw [mem_upFrom]; omega)

/-- A member that a rollback has redirected: h0 at RBPC, and no helper. -/
theorem ResumedCore.redirected {k : BitVec 16} {pc : Word64} (hrolled : t.rolled = some (k, some pc))
    (hex : (x.fromImage (img c) (t.arrivals.get [] (t.rankOf c))).exited = false) :
    y.ctx 0 = { resumedCtx s t img c x 0 with pc := pc, held := .none } ∧ ∀ h, 1 ≤ h → h ≤ 10 → (y.ctx h).live = false := by
  have hcore : resumedCore s t img c x = (readCore t s.cycle (img c) (t.arrivals.get [] (t.rankOf c)) x).redirectTo pc :=
    rolledTo_redirected hrolled hex
  rw [hcore] at hy
  refine ⟨(hy.kept 0 (by rw [mem_upFrom]; omega)).trans (redirectTo_ctx_low pc (Nat.zero_le _)), fun h hlo hhi => ?_⟩
  have hdead : (((readCore t s.cycle (img c) (t.arrivals.get [] (t.rankOf c)) x).redirectTo pc).ctx h).live = false := by
    rw [redirectTo_ctx_low pc hhi, redirectedCtx, if_neg (by omega)]
  obtain ⟨n, hn⟩ := (hy.freed h (by rw [mem_upFrom]; omega)).dead hdead
  rw [hn]
  exact hdead

end

/-- Settles O48: a take and its end by what they make of the team and of its members' contexts, a save by what it leaves alone while
the blocks are written, and a resumption member by member. -/
theorem takesAndResumptions : Obligations.TakesAndResumptions := by
  unfold Obligations.TakesAndResumptions
  refine ⟨fun t s ht hrun => ?_, fun t since s ht htake hsince => ⟨fun hshort => ?_, fun hlong _ => ?_⟩, teamSave_saves,
    fun t pa img head s ht hphase hres hcol hc himg hhead ha => ?_⟩
  · intro atRest asked
    exact ⟨fun hq htake hno hsave => takeRequest_asks ht hrun hq htake hno hsave, fun hsave => takeRequest_unsaved ht hsave⟩
  · rw [takeWithdraw_eq ht htake hsince, if_neg (Nat.not_le.2 hshort)]
  · exact ⟨_, (takeWithdraw_eq ht htake hsince).trans (congrArg Host.Outcome.next (if_pos hlong)), withdrawTake_goesOn ht⟩
  · obtain ⟨v, hexec, hflat, hteam, hothers, hmembers⟩ := teamResume_resumes ht hphase hres hcol hc himg hhead ha
    refine ⟨_, v, hbmWrite_keep s pa _, hexec, hflat, ⟨_, hteam, rfl, fun r hr => resumedTeam_next head t hr⟩, hothers, fun c hc => ?_⟩
    have hy := hmembers c hc
    intro y x
    refine ⟨hy.core, fun h hh => hy.high hh, fun hstay => ?_, fun k pc hrolled hex => hy.redirected hrolled hex⟩
    obtain ⟨hzero, hhelpers⟩ := hy.stays hstay
    exact ⟨hzero, fun h hlo hhi => ⟨(hhelpers h hlo hhi).live, (hhelpers h hlo hhi).dead⟩⟩

end Sys2Proof
end

section
/-! TLBINV and ICINV: the translations that a reach loses (R147, R294, R371, R414). -/

namespace Sys2Proof

open Sys2Proof.Machine

/-- Whether a reach covers a core, for the core that issues. -/
def reachCore (s : State) (r : Reach) (k : Nat) : Bool :=
  match r with
  | .core => decide (k = s.curCore)
  | .die => decide (dieOf k = dieOf s.curCore)
  | .module => true

/-- Whether it covers a die's second-level TLB. -/
def reachDie (s : State) (r : Reach) (d : Nat) : Bool :=
  match r with
  | .module => true
  | _ => decide (d = dieOf s.curCore)

section
variable (s : State) (r : Reach) (hit : TlbEntry → Bool)

theorem tlbInv_core (k : Nat) : (s.tlbInv r hit).core k = if reachCore s r k then (s.core k).tlbInv hit else s.core k :=
  AMap.get_map (f := fun c (x : Core) => if reachCore s r c then x.tlbInv hit else x) s.cores k (by split <;> rfl)

/-- A die's second-level TLB without the entries that `hit` names. -/
def dieWithout (hit : TlbEntry → Bool) (x : Die) : Die := { x with tlb := x.tlb.filter (fun e => !hit e) }

theorem tlbInv_die (d : Nat) : (s.tlbInv r hit).die d = if reachDie s r d then dieWithout hit (s.die d) else s.die d :=
  AMap.get_map (f := fun c (x : Die) => if reachDie s r c then dieWithout hit x else x) s.dies d (by split <;> rfl)

@[simp] theorem tlbInv_ctxs (k : Nat) : ((s.tlbInv r hit).core k).ctxs = (s.core k).ctxs := by
  rw [tlbInv_core]; split <;> rfl

@[simp] theorem tlbInv_ctx (h : Nat) : (s.tlbInv r hit).home.ctx h = s.home.ctx h := by
  simp only [Core.ctx, State.home]
  exact congrArg (fun m => AMap.get ({} : Ctx) m h) (tlbInv_ctxs s r hit s.curCore)

theorem tlbInv_me : (s.tlbInv r hit).me = s.me := tlbInv_ctx s r hit s.curCtx

theorem reachCore_iff (k : Nat) : reachCore s r k = true ↔
    r = .module ∨ (r = .die ∧ k / 224 / 60 * 2 + k % 224 / 112 = s.curCore / 224 / 60 * 2 + s.curCore % 224 / 112) ∨
      (r = .core ∧ k = s.curCore) := by
  cases r with
  | core => simp [reachCore]
  | die =>
    have hdie : reachCore s .die k = true ↔ dieOf k = dieOf s.curCore := decide_eq_true_iff
    rw [hdie]
    simp [dieOf, rowOf, colOf]
  | module => simp [reachCore]

theorem reachDie_iff (d : Nat) : reachDie s r d = true ↔ r = .module ∨ d = s.curCore / 224 / 60 * 2 + s.curCore % 224 / 112 := by
  cases r with
  | module => simp [reachDie]
  | core | die =>
    rw [show reachDie s _ d = decide (d = dieOf s.curCore) from rfl, decide_eq_true_iff]
    simp [dieOf, rowOf, colOf]

/-- Completing changes no more of a core than its contexts. -/
theorem coreRest_modMe (t : State) (f : Ctx → Ctx) (k : Nat) : coreRest ((t.modMe f).core k) = coreRest (t.core k) := by
  by_cases hk : k = t.curCore
  · subst hk
    exact (congrArg coreRest (State.modMe_home t f)).trans rfl
  · rw [State.modMe_core_other t f k hk]

end

theorem execTlbinv_sup {all anyasid : Bool} {r : Reach} {a : Reg} {s : State} (hs : s.me.sup = true)
    (ha : all = true ∨ s.me.dbit a.val = false) : exec (.tlbinv all anyasid r a) s =
      finish s (s.me.pc + 8) (.ok (s.tlbInv r (tlbHit all anyasid s.home.asid.toNat (s.me.sv a.val).toNat))) := by
  show execTlbinv all anyasid r a s = _
  have hsup : needSup s.me = .ok () := if_pos hs
  rw [execTlbinv, hsup]
  cases all with
  | true => rfl
  | false =>
    rw [need_ok (ha.resolve_left Bool.false_ne_true)]
    rfl

theorem execTlbinv_user {all anyasid : Bool} {r : Reach} {a : Reg} {s : State} (hs : s.me.sup = false) :
    exec (.tlbinv all anyasid r a) s = finish s (s.me.pc + 8) (.error (.trap causePriv s.me.pc)) := by
  show execTlbinv all anyasid r a s = _
  have hsup : needSup s.me = .error (.trap causePriv s.me.pc) := if_neg (ne_true_of_eq_false hs)
  rw [execTlbinv, hsup]
  rfl

/-- Settles O27: ICINV empties the core's instruction cache, and TLBINV filters the TLBs that its reach covers. -/
theorem invalidateCaches : Obligations.InvalidateCaches := by
  unfold Obligations.InvalidateCaches
  refine ⟨fun s => leaves_modHome s _ _ _ rfl rfl, fun all anyasid r a s hh hs => ?_, fun all anyasid r a s hs ha => ?_⟩
  · rw [execTlbinv_user hs]
    exact traps_finish s _ _ _ hh
  · rw [execTlbinv_sup hs ha, finish_ok]
    generalize hf : (fun x : Ctx => x.complete (s.me.pc + 8)) = f
    generalize hhit : tlbHit all anyasid s.home.asid.toNat (s.me.sv a.val).toNat = hit
    have hme : ((s.tlbInv r hit).modMe f).me = s.me.complete (s.me.pc + 8) := by rw [State.modMe_me, tlbInv_me, ← hf]
    refine ⟨_, rfl, rfl, ⟨?_, ?_, ?_⟩, ?_, ?_, fun h hh => ?_, fun c hc => ?_, fun c hc => ?_, fun c hc => ?_, fun d hd => ?_,
      fun d hd => ?_⟩
    · rw [hme]; rfl
    · rw [hme]; rfl
    · rw [hme]; exact ⟨rfl, rfl, rfl⟩
    · rw [hme]; exact setsReg_none _ _ rfl
    · rw [hme]; rfl
    · rw [State.modMe_home, Core.modCtx_ctx_other _ _ (by exact hh), tlbInv_ctx]
    · rw [coreRest_modMe, tlbInv_core, if_pos ((reachCore_iff s r c).2 hc), ← hhit]; rfl
    · have hother : c ≠ s.curCore := by
        rintro rfl
        exact hc (by cases r <;> simp)
      rw [State.modMe_core_other _ f c (by exact hother), tlbInv_core, if_neg (fun h => hc ((reachCore_iff s r c).1 h))]
    · rw [State.modMe_core_other _ f c (by exact hc), tlbInv_ctxs]
    · rw [State.modMe_die, tlbInv_die, if_pos ((reachDie_iff s r d).2 hd), ← hhit]; rfl
    · rw [State.modMe_die, tlbInv_die, if_neg (fun h => hd ((reachDie_iff s r d).1 h))]

end Sys2Proof
end

section
/-! The local store: what a write and a change of tags leave of a core (R129, R375, R411, R412). -/

namespace Sys2Proof

open Sys2Proof.Machine

/-! Bytes and tags of a core. -/

section
variable (x : Core)

/-- Two cores differ in the local store at most. -/
def StoreOnly (x y : Core) : Prop := y = { x with w := y.w, a := y.a, c := y.c, tags := y.tags, dirty := y.dirty }

theorem Core.store_setStore {sp : Space} (h : sp ≠ .e) (m : Mem) (sp' : Space) :
    (x.setStore sp m).store sp' = if sp' = sp then m else x.store sp' := by
  cases sp with
  | e => exact absurd rfl h
  | _ => cases sp' <;> rfl

@[simp] theorem Core.tags_setStore (sp : Space) (m : Mem) : (x.setStore sp m).tags = x.tags := by cases sp <;> rfl
@[simp] theorem Core.tag_setStore (sp : Space) (m : Mem) (l : Nat) : (x.setStore sp m).tag l = x.tag l := by cases sp <;> rfl
@[simp] theorem Core.store_touch (l : Nat) (sp : Space) : (x.touch l).store sp = x.store sp := by cases sp <;> rfl
@[simp] theorem Core.tag_touch (l j : Nat) : (x.touch l).tag j = x.tag j := rfl
@[simp] theorem Core.store_setTag (l : Nat) (t : Tag) (sp : Space) : (x.setTag l t).store sp = x.store sp := by cases sp <;> rfl

theorem Core.tag_setTag (l : Nat) (t : Tag) (j : Nat) : (x.setTag l t).tag j = if l = j then t else x.tag j := AMap.get_set _ _ _ _ _

theorem storeOnly_setTag (l : Nat) (t : Tag) : StoreOnly x (x.setTag l t) := rfl

theorem storeOnly_st (sp : Space) (a n v : Nat) : StoreOnly x (x.st sp a n v) := by cases sp <;> rfl

theorem StoreOnly.trans {x y z : Core} (h : StoreOnly x y) (h' : StoreOnly y z) : StoreOnly x z := by
  unfold StoreOnly at *
  rw [h', h]

@[simp] theorem Core.tag_st (sp : Space) (a n v l : Nat) : (x.st sp a n v).tag l = x.tag l := by simp [Core.st]

/-- A store writes its bytes at its address, and nothing else. -/
theorem Core.get_st {sp : Space} (h : sp ≠ .e) (e n v : Nat) (sp' : Space) (a : Nat) : ((x.st sp e n v).store sp').get a =
    if sp' = sp ∧ e ≤ a ∧ a < e + (leBytes n v).length then (leBytes n v).getD (a - e) 0 else (x.store sp').get a := by
  rw [Core.st, Core.store_touch, Core.store_setStore x h]
  by_cases hs : sp' = sp
  · subst hs
    simp only [if_true, true_and]
    exact Mem.get_write _ _ _ _
  · simp [hs]

end

/-- An instruction that changes the local store of its core and nothing else. -/
theorem storesLocal_modHome {s : State} {npc : Word64} {f : Core → Core} {sp : Space} {e : Nat} {bs : List Byte} {hit : Nat → Bool}
    {tag : Tag → Tag} (hf : StoreOnly s.home (f s.home))
    (hb : ∀ sp' a, ((f s.home).store sp').get a =
      if sp' = sp ∧ e ≤ a ∧ a < e + bs.length then bs.getD (a - e) 0 else (s.home.store sp').get a)
    (ht : ∀ l, (f s.home).tag l = if hit l then tag (s.home.tag l) else s.home.tag l) :
    StoresLocal s (finish s npc (.ok (s.modHome f))) npc sp e bs hit tag := by
  have hrest : coreRest (f s.home) = { coreRest s.home with
      w := (f s.home).w, a := (f s.home).a, c := (f s.home).c, tags := (f s.home).tags, dirty := (f s.home).dirty } := by
    rw [hf]; rfl
  obtain ⟨t, hnext, honly, hdone, hregs, hctx⟩ := leaves_modHome s npc f (fun x => { x with
      w := (f s.home).w, a := (f s.home).a, c := (f s.home).c, tags := (f s.home).tags, dirty := (f s.home).dirty })
    hrest (by rw [hf])
  have hthome : t = (s.modHome f).modMe (fun x => x.complete npc) := (Host.Outcome.next.inj hnext).symm
  have hh : t.home = (f s.home).modCtx s.curCtx (fun x => x.complete npc) := by simp [hthome]
  refine ⟨t, hnext, ?_, hdone, hregs, hctx, ?_, ?_⟩
  · rw [hh]; exact honly
  · intro sp' a; rw [hh]; rw [← hb]; cases sp' <;> rfl
  · intro l; rw [hh]; exact ht l

/-- The set operations of TAG (R412). -/
theorem setsTag_stores (v u : Bool) {sz : Size} {m : MemArg} {s : State} (hs : m.sp ≠ .e) (hb : s.me.dbit m.base.val = false)
    (hl : s.me.localAddr m + sizeOf' sz ≤ limitOf m.sp) (ha : s.me.localAddr m % sizeOf' sz = 0)
    (hd : lineOf m.sp (s.me.localAddr m) ∉ s.home.drain)
    (hfree : s.lineHeld s.curCore (lineOf m.sp (s.me.localAddr m)) true s.self = false) :
    StoresLocal s (setsTag v u sz m s) (s.me.pc + 8) m.sp (s.me.localAddr m) []
      (fun j => decide (j = lineOf m.sp (s.me.localAddr m))) (fun t => { t with v := v, u := u }) := by
  have hcheck : tagCheck sz m s = .ok () := by rw [tagCheck, need_ok hb, localCheck_ok hl ha]; rfl
  have hline : lineFree s (lineOf m.sp (s.me.localAddr m)) true = .ok () := by rw [lineFree, hfree]; rfl
  simp only [setsTag, hcheck, noDrain_ok hs ha hd, hline, bind, Except.bind]
  refine storesLocal_modHome (storeOnly_setTag _ _ _) (fun sp' a => by simp) (fun l => ?_)
  rw [Core.tag_setTag]
  by_cases h : l = lineOf m.sp (s.me.localAddr m)
  · simp [h]
  · simp [h, Ne.symm h]

/-- Settles O14: a store writes its bytes and marks its line, and the set operations of TAG write one tag. -/
theorem localStores : Obligations.LocalStores := by
  unfold Obligations.LocalStores
  intro sz tg k d m s hs n e l free hb hl ha hd
  refine ⟨fun hdb htag => ?_, fun hfree => ?_⟩
  · rw [st_local hb hdb hs (localCheck_ok hl ha)]
    have hw : (tg && !s.mayWrite s.curCore l s.self) = false := by
      cases tg with
      | false => rfl
      | true =>
        obtain ⟨hfree, hempty⟩ := htag rfl
        have hfree' : s.lineHeld s.curCore l true s.self = false := hfree
        have hempty' : (s.home.tag l).writable = true := by
          obtain h | h := hempty <;> simp [Tag.writable, h]
        change (!((s.home.tag l).writable && !s.lineHeld s.curCore l true s.self)) = false
        rw [hfree', hempty']; rfl
    have hstore : s.storeLocal (sizeOf' sz) tg k (s.me.sv d.val) m.sp (s.me.localAddr m) =
        .ok (s.modHome (fun x =>
          if tg && !k then (x.st m.sp e n (s.me.sv d.val).toNat).markFull l else x.st m.sp e n (s.me.sv d.val).toNat)) := by
      have hdrain : noDrain s m.sp (s.me.localAddr m) (sizeOf' sz) = .ok () := noDrain_ok hs ha hd
      rw [State.storeLocal, hdrain]
      exact if_neg (ne_true_of_eq_false hw)
    rw [hstore]
    have hst := Core.get_st s.home hs e n (s.me.sv d.val).toNat
    cases hm : (tg && !k) with
    | false => exact storesLocal_modHome (storeOnly_st _ _ _ _ _) hst (fun j => by simp)
    | true =>
      refine storesLocal_modHome ((storeOnly_st _ _ _ _ _).trans (storeOnly_setTag _ _ _)) (fun sp' a => ?_) (fun j => ?_)
      · rw [← hst]; simp [Core.markFull]
      · simp only [if_true, Core.markFull, Core.tag_setTag, Core.tag_st, Bool.true_and, decide_eq_true_eq]
        by_cases h : j = l
        · simp [h]
        · simp [h, Ne.symm h]
  · exact ⟨setsTag_stores false false hs hb hl ha hd hfree, setsTag_stores true false hs hb hl ha hd hfree,
      setsTag_stores true true hs hb hl ha hd hfree⟩

end Sys2Proof
end

section
/-! Containment (R134, R306, R307, R304): what the fall of the teams inside a fence leaves of the machine. -/

namespace Sys2Proof

open Sys2Proof.Machine

/-! One team fails. -/

theorem team_modTeam_other (s : State) {i j : Nat} {f : Team → Team} (hf : ∀ t, (f t).id = t.id) (h : j ≠ i) :
    (s.modTeam i f).team j = s.team j := by
  show (s.sys.teams.map (fun x => if x.id = i then f x else x)).find? (fun x => x.id = j) = s.sys.teams.find? (fun x => x.id = j)
  induction s.sys.teams with
  | nil => rfl
  | cons x l ih =>
    rw [List.map_cons, List.find?_cons, List.find?_cons, ih]
    by_cases hx : x.id = i
    · simp [hx, hf, Ne.symm h]
    · simp [hx]

/-- A team that is not failing yet. -/
def Fresh (t : Team) : Prop := ∀ a b p f, t.phase ≠ .failing a b p f

/-- What a team's failure shows: its members stop and its phase becomes p. -/
structure Falls (s u : State) (t : Team) (p : TeamPhase) : Prop where
  events : u.sys.evWaiters = []
  containments : u.sys.containments = s.sys.containments
  hbm : u.flat.hbm = s.flat.hbm
  poison : u.flat.poison = s.flat.poison
  stopped : ∀ m ∈ t.cores, u.core m = stopCore (s.core m)
  others : ∀ m, m ∉ t.cores → u.core m = s.core m
  failed : u.team t.id = (s.team t.id).map (fun x => { x with phase := p })
  apart : ∀ i, i ≠ t.id → u.team i = s.team i

/-- A team's phase counts for nothing in its failure, once it is not failing. -/
theorem failResident_fresh {s : State} {t : Team} (hfresh : Fresh t) (cause c : Nat) (pc f : Word64) :
    s.failResident t cause c pc f = s.failResident { t with phase := .running } cause c pc f := by
  unfold State.failResident
  cases hp : t.phase with
  | failing a b p f => exact absurd hp (hfresh a b p f)
  | _ => rfl

theorem failResident_falls {s : State} {t : Team} (hfresh : Fresh t) (hev : s.sys.evWaiters = []) (cause c : Nat)
    (pc f : Word64) : Falls s (s.failResident t cause c pc f) t (.failing cause c pc f) := by
  rw [failResident_fresh hfresh]
  obtain ⟨jobs, cl, reqs, lin, hu⟩ := failResident_running (t := { t with phase := .running }) rfl hev cause c pc f
  rw [hu]
  generalize hv : ({ s with flat := _, clusters := cl, sys := _ } : State) = v
  have hwhole := modCores_whole (fun _ => stopCore) v t.cores
  have hflat : (modCores (fun _ => stopCore) v t.cores).flat = v.flat := (congrArg State.flat hwhole :)
  have hsys : (modCores (fun _ => stopCore) v t.cores).sys = v.sys := (congrArg State.sys hwhole :)
  have hteam : ∀ i, (modCores (fun _ => stopCore) v t.cores).team i = s.team i := fun i => by
    rw [hwhole, ← hv]; rfl
  have hcores : ∀ m, v.core m = s.core m := fun m => by rw [← hv]; rfl
  let failed : Team → Team := fun x => { x with phase := .failing cause c pc f }
  exact {
    events := (congrArg SysDie.evWaiters hsys).trans (by rw [← hv]; exact hev)
    containments := (congrArg SysDie.containments hsys).trans (by rw [← hv])
    hbm := (congrArg Flat.hbm hflat).trans (by rw [← hv])
    poison := (congrArg Flat.poison hflat).trans (by rw [← hv])
    stopped := fun m hm => (modCores_core _ hm (.inr stopCore_stopCore)).trans (by rw [hcores])
    others := fun m hm => (modCores_core_other _ hm).trans (hcores m)
    failed := (team_modTeam _ _ (f := failed) (fun _ => rfl)).trans (congrArg (Option.map failed) (hteam t.id))
    apart := fun i hi => (team_modTeam_other _ (f := failed) (fun _ => rfl) hi).trans (hteam i) }

/-! The fence, and the teams inside it. -/

/-- Where the containment of a core stands: the first valid rectangle that holds it, or its whole die. -/
def fenceAround (s : State) (c : Nat) : Containment :=
  match (s.die (dieOf c)).rectFor c with
  | some (i, r) => { die := dieOf c, rect := some i, row0 := r.row0.toNat, col0 := r.col0.toNat, width := r.width.toNat
                     height := r.height.toNat, teams := [], recs := [] }
  | none => { die := dieOf c, rect := none, row0 := dieOf c / 2 * 60, col0 := dieOf c % 2 * 112, width := 112, height := 60
              teams := [], recs := [] }

/-- Whether a fence stands around a core. -/
def fenceHolds (k : Containment) (m : Nat) : Bool := inRect k.row0 k.col0 k.width k.height m

/-- The teams with a member inside a fence. -/
def teamsInside (s : State) (k : Containment) : List Team := s.sys.teams.filter (fun t => t.cores.any (fenceHolds k))

/-- A team inside fails by the poisoned core, or by its first member inside. -/
def failInside (k : Containment) (c : Nat) (pc addr : Word64) (u : State) (t : Team) : State :=
  if t.cores.contains c then u.failResident t causePoison c pc addr
  else
    match t.cores.find? (fenceHolds k) with
    | some m => u.failResident t causePoison m ((u.core m).ctx 0).pc 0
    | none => u

/-- The containment as the system die lists it. -/
def listed (s : State) (k : Containment) : Containment :=
  { k with teams := (teamsInside s k).map (·.id), recs := (teamsInside s k).map (·.rec')
           asids := ((teamsInside s k).map (·.asid)).eraseDups }

theorem contain_eq (s : State) (c : Nat) (pc addr : Word64) : s.contain c pc addr =
    let k := fenceAround s c
    let u := (teamsInside s k).foldl (failInside k c pc addr)
      (s.modSys (fun y => { y with containments := y.containments ++ [listed s k] }))
    if (teamsInside s k).any (fun t => t.cores.contains c) then u else u.modCore c stopCore := rfl

/-- How a team inside has failed (R305, R307). -/
def phaseInside (s : State) (k : Containment) (c : Nat) (pc addr : Word64) (t : Team) : TeamPhase :=
  if t.cores.contains c then .failing causePoison c pc addr
  else
    match t.cores.find? (fenceHolds k) with
    | some m => .failing causePoison m ((s.core m).ctx 0).pc 0
    | none => t.phase

/-- The teams of a list have fallen. -/
structure Fallen (s u : State) (p : Team → TeamPhase) (done : List Team) : Prop where
  events : u.sys.evWaiters = []
  containments : u.sys.containments = s.sys.containments
  hbm : u.flat.hbm = s.flat.hbm
  poison : u.flat.poison = s.flat.poison
  stopped : ∀ t ∈ done, Fresh t → ∀ m ∈ t.cores, u.core m = stopCore (s.core m)
  others : ∀ m, (∀ t ∈ done, Fresh t → m ∉ t.cores) → u.core m = s.core m
  failed : ∀ t ∈ done, Fresh t → u.team t.id = some { t with phase := p t }
  apart : ∀ t ∈ s.sys.teams, (t ∈ done → ¬ Fresh t) → u.team t.id = some t

/-- A core of a state in which teams have fallen is as before, or stopped. -/
theorem Fallen.core {s u : State} {p : Team → TeamPhase} {done : List Team} (h : Fallen s u p done) (m : Nat) :
    u.core m = s.core m ∨ u.core m = stopCore (s.core m) := by
  by_cases hm : ∃ t ∈ done, Fresh t ∧ m ∈ t.cores
  · obtain ⟨t, ht, hfresh, hin⟩ := hm
    exact .inr (h.stopped t ht hfresh m hin)
  · exact .inl (h.others m (fun t ht hfresh hin => hm ⟨t, ht, hfresh, hin⟩))

theorem Fallen.pc {s u : State} {p : Team → TeamPhase} {done : List Team} (h : Fallen s u p done) (m : Nat) :
    ((u.core m).ctx 0).pc = ((s.core m).ctx 0).pc := by
  obtain hm | hm := h.core m
  · rw [hm]
  · rw [hm, stopCore_ctx]; rfl

theorem failInside_failing {s u : State} {k : Containment} {c : Nat} {pc addr : Word64} {t : Team}
    (hpc : ∀ m, ((u.core m).ctx 0).pc = ((s.core m).ctx 0).pc) (hin : t.cores.any (fenceHolds k) = true) :
    ∃ m q f, failInside k c pc addr u t = u.failResident t causePoison m q f ∧
      phaseInside s k c pc addr t = .failing causePoison m q f := by
  unfold failInside phaseInside
  by_cases hc : t.cores.contains c = true
  · exact ⟨c, pc, addr, if_pos hc, if_pos hc⟩
  · rw [if_neg hc, if_neg hc]
    cases hfind : t.cores.find? (fenceHolds k) with
    | some m => exact ⟨m, _, 0, rfl, by rw [hpc]⟩
    | none =>
      obtain ⟨m, hm, hk⟩ := List.any_eq_true.1 hin
      exact absurd hk (by simpa using List.find?_eq_none.1 hfind m hm)

theorem failResident_failing {u : State} {t : Team} (h : ¬ Fresh t) (cause c : Nat) (pc f : Word64) :
    u.failResident t cause c pc f = u := by
  unfold State.failResident
  split
  · rfl
  · next hno => exact absurd (fun a b p f e => hno a b p f e) h

/-- The next team of the list falls. -/
theorem Fallen.next {s u : State} {k : Containment} {c : Nat} {pc addr : Word64} {done : List Team} {t : Team}
    (h : Fallen s u (phaseInside s k c pc addr) done) (ht : t ∈ s.sys.teams) (hdone : ∀ x ∈ done, x ∈ s.sys.teams)
    (hids : ∀ t ∈ s.sys.teams, ∀ x ∈ s.sys.teams, t.id = x.id → t = x) (hin : t.cores.any (fenceHolds k) = true) :
    Fallen s (failInside k c pc addr u t) (phaseInside s k c pc addr) (done ++ [t]) := by
  obtain ⟨m, q, f, hfail, hphase⟩ := failInside_failing (c := c) (pc := pc) (addr := addr) h.pc hin
  rw [hfail]
  by_cases hfresh : Fresh t
  · have hfall := failResident_falls hfresh h.events causePoison m q f
    have hmem : ∀ x, x ∈ done ++ [t] ↔ x ∈ done ∨ x = t := fun x => by simp
    have hfailed : (u.failResident t causePoison m q f).team t.id = some { t with phase := phaseInside s k c pc addr t } := by
      rw [hfall.failed, hphase]
      by_cases hd : t ∈ done
      · rw [h.failed t hd hfresh]; rfl
      · rw [h.apart t ht (fun hd' => absurd hd' hd)]; rfl
    exact {
      events := hfall.events
      containments := hfall.containments.trans h.containments
      hbm := hfall.hbm.trans h.hbm
      poison := hfall.poison.trans h.poison
      stopped := fun x hx hxf j hj => by
        by_cases hjt : j ∈ t.cores
        · rw [hfall.stopped j hjt]
          obtain hj' | hj' := h.core j
          · rw [hj']
          · rw [hj', stopCore_stopCore]
        · rw [hfall.others j hjt]
          obtain hx | rfl := (hmem x).1 hx
          · exact h.stopped x hx hxf j hj
          · exact absurd hj hjt
      others := fun j hj => by
        rw [hfall.others j (hj t (by simp) hfresh)]
        exact h.others j (fun x hx hxf => hj x (by simp [hx]) hxf)
      failed := fun x hx hxf => by
        by_cases hid : x.id = t.id
        · have hxt : x = t := by
            obtain hx | hx := (hmem x).1 hx
            · exact hids x (hdone x hx) t ht hid
            · exact hx
          subst hxt
          exact hfailed
        · obtain hx | rfl := (hmem x).1 hx
          · rw [hfall.apart _ hid]
            exact h.failed x hx hxf
          · exact absurd rfl hid
      apart := fun x hx hxd => by
        have hid : x.id ≠ t.id := fun hid => by
          obtain rfl := hids x hx t ht hid
          exact hxd (by simp) hfresh
        rw [hfall.apart _ hid]
        exact h.apart x hx (fun hd => hxd (by simp [hd])) }
  · rw [failResident_failing hfresh]
    exact { h with
      stopped := fun x hx hxf => by
        obtain hx | rfl := by simpa using hx
        · exact h.stopped x hx hxf
        · exact absurd hxf hfresh
      others := fun j hj => h.others j (fun x hx hxf => hj x (by simp [hx]) hxf)
      failed := fun x hx hxf => by
        obtain hx | rfl := by simpa using hx
        · exact h.failed x hx hxf
        · exact absurd hxf hfresh
      apart := fun x hx hxd => h.apart x hx (fun hd => hxd (by simp [hd])) }

theorem Fallen.foldl {s : State} {k : Containment} {c : Nat} {pc addr : Word64}
    (hids : ∀ t ∈ s.sys.teams, ∀ x ∈ s.sys.teams, t.id = x.id → t = x) (l : List Team)
    (hl : ∀ t ∈ l, t ∈ s.sys.teams ∧ t.cores.any (fenceHolds k) = true) {u : State} {done : List Team}
    (h : Fallen s u (phaseInside s k c pc addr) done) (hdone : ∀ x ∈ done, x ∈ s.sys.teams) :
    Fallen s (l.foldl (failInside k c pc addr) u) (phaseInside s k c pc addr) (done ++ l) := by
  induction l generalizing u done with
  | nil => rwa [List.append_nil]
  | cons t l ih =>
    obtain ⟨ht, hin⟩ := hl t (by simp)
    have hnext := h.next ht hdone hids hin
    have hrest := ih (fun x hx => hl x (by simp [hx])) hnext (fun x hx => by
      obtain hx | rfl := by simpa using hx
      · exact hdone x hx
      · exact ht)
    rwa [List.append_assoc, List.singleton_append] at hrest

/-! The containment of the running core. -/

/-- In a map whose keys rise, the first entry that passes has the lowest key. -/
theorem AMap.find?_lowest {α : Type} {m : AMap α} (hm : AMap.sorted m = true) {p : Nat × α → Bool} {e : Nat × α} (he : e ∈ m)
    (hp : p e = true) (hleast : ∀ f ∈ m, p f = true → e.1 ≤ f.1) : m.find? p = some e := by
  induction m with
  | nil => cases he
  | cons f m ih =>
    obtain ⟨habove, hsorted⟩ := (AMap.sorted_cons f.1 f.2 m).1 hm
    rw [List.find?_cons]
    obtain rfl | he := List.mem_cons.1 he
    · rw [hp]
    · have hf : p f = false := by
        refine Bool.eq_false_iff.2 (fun hf => ?_)
        have h1 := hleast f (by simp) hf
        have h2 := habove e he
        omega
      rw [hf]
      exact ih hsorted he (fun g hg => hleast g (by simp [hg]))

/-- The fence stands in the valid rectangle of lowest index that holds the core, or else in its die. -/
theorem fenceAround_rect (s : State) (c : Nat) :
    let k := fenceAround s c
    let d := c / 224 / 60 * 2 + c % 224 / 112
    let holds (e : Nat × FenceRect) : Prop :=
      e.2.v = true ∧ Inside e.2.row0.toNat e.2.col0.toNat e.2.width.toNat e.2.height.toNat c
    k.die = d ∧
    (∀ e, AMap.sorted (s.die d).fences = true → e ∈ (s.die d).fences → holds e →
      (∀ f ∈ (s.die d).fences, holds f → e.1 ≤ f.1) →
      k.rect = some e.1 ∧ k.row0 = e.2.row0.toNat ∧ k.col0 = e.2.col0.toNat ∧ k.width = e.2.width.toNat ∧
      k.height = e.2.height.toNat) ∧
    ((∀ e ∈ (s.die d).fences, ¬ holds e) → k.rect = none ∧ k.row0 = d / 2 * 60 ∧ k.col0 = d % 2 * 112 ∧ k.width = 112 ∧
      k.height = 60) := by
  intro k d holds
  have hholds : ∀ e : Nat × FenceRect,
      (e.2.v && inRect e.2.row0.toNat e.2.col0.toNat e.2.width.toNat e.2.height.toNat c) = true ↔ holds e :=
    fun e => by rw [Bool.and_eq_true, inRect_iff]
  refine ⟨?_, fun e hsorted he hv hleast => ?_, fun hnone => ?_⟩
  · show (fenceAround s c).die = _
    unfold fenceAround
    split <;> rfl
  · have hfind : (s.die (dieOf c)).rectFor c = some e :=
      AMap.find?_lowest hsorted he ((hholds e).2 hv) (fun f hf hp => hleast f hf ((hholds f).1 hp))
    show (fenceAround s c).rect = _ ∧ _
    simp only [k, fenceAround, hfind, and_self]
  · have hfind : (s.die (dieOf c)).rectFor c = none :=
      List.find?_eq_none.2 (fun e he hp => hnone e he ((hholds e).1 hp))
    show (fenceAround s c).rect = _ ∧ _
    simp only [k, fenceAround, hfind, true_and]
    exact ⟨rfl, rfl, trivial⟩

theorem team_of_mem {s : State} (hids : ∀ t ∈ s.sys.teams, ∀ x ∈ s.sys.teams, t.id = x.id → t = x) {t : Team}
    (ht : t ∈ s.sys.teams) :
    s.team t.id = some t := by
  cases hfind : s.team t.id with
  | none => exact absurd (List.find?_eq_none.1 hfind t ht) (by simp)
  | some x =>
    have hx : x.id = t.id := by simpa using List.find?_some hfind
    rw [hids x (List.mem_of_find?_eq_some hfind) t ht hx]

theorem teamsInside_mem {s : State} {k : Containment} {t : Team} :
    t ∈ teamsInside s k ↔ t ∈ s.sys.teams ∧ ∃ m ∈ t.cores, fenceHolds k m = true := by
  simp [teamsInside, List.mem_filter]

/-- The first member that passes, with those before it. -/
theorem find?_split {α : Type} {p : α → Bool} {l : List α} {m : α} (h : l.find? p = some m) :
    ∃ before after, l = before ++ m :: after ∧ p m = true ∧ ∀ b ∈ before, p b ≠ true := by
  obtain ⟨hm, before, after, hl, hb⟩ := List.find?_eq_some_iff_append.1 h
  exact ⟨before, after, hl, hm, fun b hin hp => by simpa [hp] using hb b hin⟩

/-- The running core has consumed poison: its containment starts, and no event waiter sees it. -/
theorem contains_poison {s : State} (npc : Word64) {a : Word64} (hev : s.sys.evWaiters = [])
    (hids : ∀ t ∈ s.sys.teams, ∀ x ∈ s.sys.teams, t.id = x.id → t = x)
    (hsorted : AMap.sorted (s.die (s.curCore / 224 / 60 * 2 + s.curCore % 224 / 112)).fences = true) :
    Contains s (finish s npc (.error (.poison a))) a := by
  rw [finish_poison, contain_eq]
  let c := s.curCore
  let k := fenceAround s c
  let s' : State := s.modSys (fun y => { y with containments := y.containments ++ [listed s k] })
  let p := phaseInside s k c s.me.pc a
  have hstart : Fallen s' s' p [] := ⟨hev, rfl, rfl, rfl, by simp, fun _ _ => rfl, by simp, fun t ht _ => team_of_mem hids ht⟩
  have hfall := Fallen.foldl (s := s') (k := k) (c := c) (pc := s.me.pc) (addr := a) hids (teamsInside s k)
    (fun t ht => ⟨(teamsInside_mem.1 ht).1, List.any_eq_true.2 (teamsInside_mem.1 ht).2⟩) hstart (by simp)
  rw [List.nil_append] at hfall
  let u := (teamsInside s k).foldl (failInside k c s.me.pc a) s'
  let w := if (teamsInside s k).any (fun t => t.cores.contains c) then u else u.modCore c stopCore
  change Contains s (.next w) a
  have hsame : w.sys = u.sys ∧ w.flat = u.flat ∧ ∀ m, m ≠ c → w.core m = u.core m := by
    by_cases hm : (teamsInside s k).any (fun t => t.cores.contains c) = true
    · rw [show w = u from if_pos hm]; exact ⟨rfl, rfl, fun _ _ => rfl⟩
    · rw [show w = u.modCore c stopCore from if_neg hm]
      exact ⟨rfl, rfl, fun m hne => State.modCore_core_other u stopCore hne⟩
  obtain ⟨hsys, hflat, hcores⟩ := hsame
  have hteam : ∀ i, w.team i = u.team i := fun i => congrArg (fun y : SysDie => y.teams.find? (fun x : Team => x.id = i)) hsys
  have hown : ∀ t ∈ teamsInside s k, c ∈ t.cores → w.core c = u.core c := fun t ht hc => by
    rw [show w = u from if_pos (List.any_eq_true.2 ⟨t, ht, by simpa using hc⟩)]
  have hfalls : ∀ t ∈ s.sys.teams, (∃ m ∈ t.cores, Inside k.row0 k.col0 k.width k.height m) ↔ t ∈ teamsInside s k :=
      fun t ht => by
    rw [teamsInside_mem]
    simp [ht, fenceHolds, inRect_iff]
  have hfailed : ∀ t ∈ teamsInside s k, Fresh t → w.team t.id = some { t with phase := p t } := fun t ht hfresh =>
    (hteam t.id).trans (hfall.failed t ht hfresh)
  have hwhere := fenceAround_rect s c
  refine ⟨w, listed s k, rfl, (congrArg SysDie.containments hsys).trans hfall.containments, hwhere.1, fun e he hv hleast => ?_,
    fun hnone => ?_,
    fun t ht => ⟨fun hno => ?_, fun ⟨hin, hfresh⟩ hc => ?_, fun ⟨hin, hfresh⟩ hc => ?_, fun ⟨hin, hfresh⟩ m hm j => ?_⟩,
    fun m hm hno => ?_, (congrArg Flat.hbm hflat).trans hfall.hbm, (congrArg Flat.poison hflat).trans hfall.poison⟩
  · exact hwhere.2.1 e hsorted he hv hleast
  · exact hwhere.2.2 hnone
  · rw [hteam]
    exact hfall.apart t ht (fun hin hfresh => hno ⟨(hfalls t ht).2 hin, hfresh⟩)
  · have hphase : p t = .failing causePoison c s.me.pc a := if_pos (by simpa using hc)
    exact (hfailed t ((hfalls t ht).1 hin) hfresh).trans (congrArg (fun q => some { t with phase := q }) hphase)
  · cases hfind : t.cores.find? (fenceHolds k) with
    | none =>
      obtain ⟨m, hm, hk⟩ := hin
      exact absurd ((inRect_iff _ _ _ _ _).2 hk) (List.find?_eq_none.1 hfind m hm)
    | some m =>
      obtain ⟨before, after, hsplit, hk, hbefore⟩ := find?_split hfind
      have hphase : p t = .failing causePoison m ((s.core m).ctx 0).pc 0 := by
        show (if _ then _ else _) = _
        rw [if_neg (by simpa using hc), hfind]
      refine ⟨before, m, after, hsplit, (inRect_iff _ _ _ _ _).1 hk, fun b hb hi => hbefore b hb ((inRect_iff _ _ _ _ _).2 hi), ?_⟩
      exact (hfailed t ((hfalls t ht).1 hin) hfresh).trans (congrArg (fun q => some { t with phase := q }) hphase)
  · have hinside := (hfalls t ht).1 hin
    have hwm : w.core m = u.core m := by
      by_cases hc : m = c
      · rw [hc]; exact hown t hinside (hc ▸ hm)
      · exact hcores m hc
    rw [hwm, hfall.stopped t hinside hfresh m hm, stopCore_ctx]
    rfl
  · rw [hcores m hm]
    exact hfall.others m (fun t ht hfresh hin => hno t (teamsInside_mem.1 ht).1 ⟨(hfalls t (teamsInside_mem.1 ht).1).2 ht, hfresh⟩ hin)

end Sys2Proof
end

section
/-! LD, LDS and TAG.test (R182, R375, R376, R412). -/

namespace Sys2Proof

open Sys2Proof.Machine

/-- The line of a local address lies where the address's multiple of 256 does. -/
theorem lineAddr_lineOf {sp : Space} {a : Nat} (hs : sp ≠ .e) (h : a < limitOf sp) : lineAddr (lineOf sp a) = a / 256 * 256 := by
  rw [Nat.mul_comm]
  cases sp with
  | e => exact absurd rfl hs
  | w => exact if_pos (Nat.div_lt_of_lt_mul h)
  | a =>
    have hin : a / 256 < 128 := Nat.div_lt_of_lt_mul h
    have hline : 192 + a / 256 - 192 = a / 256 := Nat.add_sub_cancel_left _ _
    exact ((if_neg (Nat.not_lt.2 (Nat.le_add_right _ _))).trans (if_pos (Nat.add_lt_add_left hin 192))).trans (congrArg _ hline)
  | c =>
    have hout : ∀ k, k ≤ 320 → ¬ 320 + a / 256 < k := fun k hk => Nat.not_lt.2 (hk.trans (Nat.le_add_right _ _))
    have hline : 320 + a / 256 - 320 = a / 256 := Nat.add_sub_cancel_left _ _
    exact ((if_neg (hout 192 (by decide))).trans (if_neg (hout 320 (by decide)))).trans (congrArg _ hline)

/-- A line begins at or below the addresses in it. -/
theorem lineAddr_lineOf_le {sp : Space} {e : Nat} (hs : sp ≠ .e) (h : e < limitOf sp) : lineAddr (lineOf sp e) ≤ e :=
  (lineAddr_lineOf hs h).trans_le (Nat.div_mul_le_self e 256)

theorem poisonAt_line (x : Core) (sz : Size) {sp : Space} {e : Nat} (hs : sp ≠ .e) (hl : e + sizeOf' sz ≤ limitOf sp)
    (h : e % sizeOf' sz = 0) (hp : (x.tag (lineOf sp e)).p = true) : x.poisonAt sp e (sizeOf' sz) = some e := by
  have hn : sizeOf' sz ≠ 0 := by cases sz <;> simp [sizeOf']
  have hline : max e (lineAddr (lineOf sp e)) = e := max_eq_left (lineAddr_lineOf_le hs ((Nat.lt_add_of_pos_right (Nat.pos_of_ne_zero hn)).trans_le hl))
  simp only [Core.poisonAt, lineOf_last sz sp e hs h, hs, hn, or_self, if_false, Nat.sub_self, upFrom, List.find?_cons, hp, hline]

theorem noPoison_stops {x : Core} {sz : Size} {sp : Space} {e : Nat} (hs : sp ≠ .e) (hl : e + sizeOf' sz ≤ limitOf sp)
    (h : e % sizeOf' sz = 0) (hp : (x.tag (lineOf sp e)).p = true) :
    noPoison x sp e (sizeOf' sz) = .error (.poison (w64 e)) := by
  rw [noPoison, poisonAt_line x sz hs hl h hp]

/-- A load's value in numbers. -/
theorem extend_bytes (sx : Bool) (m : Mem) (e n : Nat) : extend sx n (m.num e n) =
    if sx then BitVec.ofInt 64 (toSigned (8 * n) (leNat (m.read e n))) else BitVec.ofNat 64 (leNat (m.read e n)) := by
  have hlt : leNat (m.read e n) < 2 ^ (8 * n) := by
    have := leNat_lt (m.read e n)
    rwa [Mem.length_read, show (256 : Nat) = 2 ^ 8 from rfl, ← pow_mul] at this
  unfold extend Mem.num
  rw [Nat.mod_eq_of_lt hlt]

/-- What a load that reads a line leaves: its value, and the line spent where it was tagged without .k. -/
def loaded (s : State) (spend : Bool) (l d : Nat) (v : Word64) : State :=
  (if spend then s.modHome (fun x => x.markSpent l) else s).modMe (fun x => x.setS d v false)

theorem gives_loaded (s : State) (npc : Word64) (spend : Bool) (l d : Nat) (v : Word64) :
    Gives s (finish s npc (.ok (loaded s spend l d v))) npc d v false id
      (fun x => if spend then x.setTag l { x.tag l with u := true } else x) := by
  cases spend with
  | false => exact writes_setS s npc d v false
  | true => exact gives_home_setS s npc d v false _ _ rfl rfl

section
variable {s : State} {sz : Size} {sx tg k : Bool} {d : Reg} {m : MemArg}

/-- An access that reads its line now: the line is full, nothing tagged writes it, and a drain does not hold it. -/
structure Readable (s : State) (sz : Size) (tg k : Bool) (sp : Space) (e : Nat) : Prop where
  local' : sp ≠ .e
  range : e + sizeOf' sz ≤ limitOf sp
  aligned : e % sizeOf' sz = 0
  full : tg = true → (s.home.tag (lineOf sp e)).v = true ∧ s.lineHeld s.curCore (lineOf sp e) false (s.curCore, 0) = false
  drained : tg = true → k = false → lineOf sp e ∉ s.home.drain

/-- The checks of a load that may read its line come down to the poison of the line. -/
theorem loadLocal_reads (h : Readable s sz tg k m.sp (s.me.localAddr m)) :
    s.loadLocal (sizeOf' sz) sx tg k d m.sp (s.me.localAddr m) =
      (noPoison s.home m.sp (s.me.localAddr m) (sizeOf' sz)).bind (fun _ => .ok (loaded s (tg && !k) (lineOf m.sp (s.me.localAddr m)) d.val
        (extend sx (sizeOf' sz) (s.home.ld m.sp (s.me.localAddr m) (sizeOf' sz))))) := by
  obtain ⟨hs, hl, ha, hfull, hdrain⟩ := h
  have hread : tg = true → s.mayRead s.curCore (lineOf m.sp (s.me.localAddr m)) s.self = true := fun ht => by
    obtain ⟨hv, hheld⟩ := hfull ht
    change ((s.home.tag _).v && !s.lineHeld s.curCore _ false (s.curCore, 0)) = true
    rw [hv, hheld]
    rfl
  unfold State.loadLocal
  cases tg with
  | false => rfl
  | true =>
    rw [hread rfl]
    cases k with
    | true => rfl
    | false => rw [noDrain_ok hs ha (hdrain rfl rfl)]; rfl

theorem lds_reads (hb : s.me.dbit m.base.val = false) (h : Readable s sz tg k m.sp (s.me.localAddr m)) :
    exec (.lds sz sx tg k d m) s = finish s (s.me.pc + 8)
      ((noPoison s.home m.sp (s.me.localAddr m) (sizeOf' sz)).bind (fun _ => .ok (loaded s (tg && !k) (lineOf m.sp (s.me.localAddr m)) d.val
        (extend sx (sizeOf' sz) (s.home.ld m.sp (s.me.localAddr m) (sizeOf' sz)))))) := by
  obtain ⟨hs, hl, ha, hfull, hdrain⟩ := h
  show execLds sz sx tg k d m s = _
  have hgo : ¬ (s.me.dbit m.base.val = true ∨ limitOf m.sp < s.me.localAddr m + sizeOf' sz ∨ s.me.localAddr m % sizeOf' sz ≠ 0 ∨
      (tg = true ∧ (s.home.tag (lineOf m.sp (s.me.localAddr m))).readable = false)) := by
    rintro (h | h | h | ⟨ht, h⟩)
    · rw [hb] at h; cases h
    · exact absurd h (Nat.not_lt.2 hl)
    · exact h ha
    · rw [Tag.readable, (hfull ht).1] at h; cases h
  have hline : tg = true → lineFree s (lineOf m.sp (s.me.localAddr m)) false = .ok () := fun ht =>
    if_neg (ne_true_of_eq_false (hfull ht).2)
  unfold execLds
  simp only [if_neg hgo]
  cases tg with
  | false => rfl
  | true =>
    rw [hline rfl]
    cases k with
    | true => rfl
    | false => rw [noDrain_ok hs ha (hdrain rfl rfl)]; rfl

theorem ld_reads (hb : s.me.dbit m.base.val = false) (h : Readable s sz tg k m.sp (s.me.localAddr m)) :
    exec (.ld sz sx tg k d m) s = exec (.lds sz sx tg k d m) s := by
  rw [ld_local hb h.local' (localCheck_ok h.range h.aligned), loadLocal_reads h, lds_reads hb h]

/-- LDS defers where a plain load would trap or wait for its line. -/
theorem lds_defers (h : s.me.dbit m.base.val = true ∨
    ¬ (s.me.localAddr m + sizeOf' sz ≤ limitOf m.sp ∧ s.me.localAddr m % sizeOf' sz = 0) ∨
    (tg = true ∧ (s.home.tag (lineOf m.sp (s.me.localAddr m))).v = false)) :
    exec (.lds sz sx tg k d m) s = finish s (s.me.pc + 8) (.ok (s.modMe (fun x => x.setS d.val 0 true))) := by
  show execLds sz sx tg k d m s = _
  unfold execLds
  refine congrArg (finish s (s.me.pc + 8)) (if_pos ?_)
  obtain h | h | h := h
  · exact .inl h
  · by_cases hl : limitOf m.sp < s.me.localAddr m + sizeOf' sz
    · exact .inr (.inl hl)
    · exact .inr (.inr (.inl (fun ha => h ⟨Nat.le_of_not_lt hl, ha⟩)))
  · exact .inr (.inr (.inr h))

theorem tagByte_word (t : Tag) : (tagByte t).zeroExtend 64 = BitVec.ofNat 64 (b2n t.v + 2 * b2n t.u + 4 * b2n t.p) := by
  obtain ⟨v, u, p⟩ := t
  cases v <;> cases u <;> cases p <;> rfl

theorem tagTest_reads (hb : s.me.dbit m.base.val = false) (hl : s.me.localAddr m + sizeOf' sz ≤ limitOf m.sp)
    (ha : s.me.localAddr m % sizeOf' sz = 0) : exec (.tagTest sz d m) s = finish s (s.me.pc + 8)
      (.ok (s.modMe (fun x => x.setS d.val ((tagByte (s.home.tag (lineOf m.sp (s.me.localAddr m)))).zeroExtend 64) false))) := by
  show execTagTest sz d m s = _
  have hcheck : tagCheck sz m s = .ok () := by rw [tagCheck, need_ok hb, localCheck_ok hl ha]; rfl
  rw [execTagTest, hcheck]
  rfl

end

/-- Settles O13: a load that may read its line gives its value or starts the containment of its core, and LDS defers otherwise. -/
theorem localLoads : Obligations.LocalLoads := by
  unfold Obligations.LocalLoads
  intro sz sx tg k d m s hs n e l bytes v spends fine
  refine ⟨fun hb hf hp hfull hdrain => ?_, fun hb hf hp hfull hdrain hev hids hsorted => ?_, fun h => ?_, fun hb hf => ?_⟩
  · have hr : Readable s sz tg k m.sp (s.me.localAddr m) := ⟨hs, hf.1, hf.2, hfull, hdrain⟩
    have hv : extend sx (sizeOf' sz) (s.home.ld m.sp (s.me.localAddr m) (sizeOf' sz)) = v := extend_bytes sx _ _ _
    have hclean : noPoison s.home m.sp (s.me.localAddr m) (sizeOf' sz) = .ok () := noPoison_ok _ sz _ _ hs hf.2 hp
    rw [ld_reads hb hr, and_self, lds_reads hb hr, hclean, hv]
    exact gives_loaded s _ _ l d.val v
  · have hr : Readable s sz tg k m.sp (s.me.localAddr m) := ⟨hs, hf.1, hf.2, hfull, hdrain⟩
    have hbad : noPoison s.home m.sp (s.me.localAddr m) (sizeOf' sz) = .error (.poison (w64 e)) := noPoison_stops hs hf.1 hf.2 hp
    rw [ld_reads hb hr, and_self, lds_reads hb hr, hbad]
    exact contains_poison _ hev hids hsorted
  · rw [lds_defers h]
    exact writes_setS s _ _ _ _
  · rw [tagTest_reads hb hf.1 hf.2, tagByte_word]
    exact writes_setS s _ _ _ _

end Sys2Proof
end

section
/-! LAUNCH, COPY and NMEM packets on calm memory (R133, R220 to R227, R245 to R247, R253): what the system die reads and writes in one
page, and how the table of packets changes. -/

namespace Sys2Proof

open Sys2Proof.Machine

/-! A page that a unit of the system die reads and writes. -/

theorem sysXlate_weaken {s : State} {asid va : Nat} {e : TlbEntry} {k : Kind} (hk : k = .read ∨ k = .write)
    (h : s.sysXlate asid true .both va = .ok e) : s.sysXlate asid true k va = .ok e := by
  unfold State.sysXlate at h ⊢
  split at h
  · cases h
  · next e' _ =>
    by_cases hboth : e'.permits .both true va = true
    · rw [if_pos hboth] at h
      have hone : e'.permits k true va = true := by
        rcases hk with rfl | rfl <;> simp only [TlbEntry.permits, Bool.and_eq_true] at hboth ⊢
        · exact ⟨hboth.1, hboth.2.1⟩
        · exact ⟨hboth.1, hboth.2.2⟩
      rw [if_pos hone]
      exact h
    · rw [if_neg hboth] at h
      cases h

section
variable {s : State} {asid va n pa : Nat}

theorem SysAt.sysPage (h : SysAt s asid va n pa) : SysPage s asid va n pa := ⟨h.page, h.hbm⟩

theorem SeenAlike.sysPage {t : State} (h : SeenAlike s t) (hs : SysPage s asid va n pa) : SysPage t asid va n pa where
  page := by simpa only [h.sysXlate] using hs.page
  hbm := hs.hbm

/-- A page of HBM lies in no window. -/
theorem SysPage.windowAt (h : SysPage s asid va n pa) (hn : 0 < n) {k : Kind} (hk : k = .read ∨ k = .write) :
    s.windowAt asid k va = none := by
  obtain ⟨⟨e, he, -, hpa, -⟩, hhbm⟩ := h
  rw [State.windowAt, sysXlate_weaken hk he]
  show (match rangeOf (e.phys va) with | .peer w off => some (w, off) | _ => none) = none
  rw [hpa, rangeOf_hbm hn hhbm]

/-- A read within a page is one run. -/
theorem SysPage.sysRead (h : SysPage s asid va n pa) (hn : 0 < n) (hl : s.flat.rmWrites = []) :
    s.sysRead asid true va n 3 = .ok (s.flat.hbm.read pa n, s.hbmPoisoned pa n) := by
  obtain ⟨⟨e, he, hin, hpa, -⟩, hhbm⟩ := h
  obtain ⟨n, rfl⟩ := Nat.exists_eq_succ_of_ne_zero hn.ne'
  have hall : min (n + 1) (e.va + e.size - va) = n + 1 := min_eq_left (Nat.le_sub_of_add_le' hin)
  have hrange : rangeOf pa = .hbm := rangeOf_hbm hn hhbm
  unfold State.sysRead
  rw [sysXlate_weaken (.inl rfl) he]
  simp only [bind, Except.bind, hall, hpa, hrange, Nat.sub_self, hbmSeen_idle hl]
  simp [State.sysRead]

/-- A write within a page changes the page's bytes and the poison of its sectors. -/
theorem SysPage.sysPut {bs : List Byte} (h : SysPage s asid va bs.length pa) (hn : bs ≠ []) (hc : Calm s) (cmd : Nat) (act : PoisonAct) :
    s.sysPut asid true false cmd act va bs = .ok (s.hbmWrite pa bs act) := by
  obtain ⟨⟨e, he, hin, hpa, hrm⟩, hhbm⟩ := h
  have hlen : 0 < bs.length := List.length_pos_iff.2 hn
  have hrange : rangeOf pa = .hbm := rangeOf_hbm hlen hhbm
  have hruns : s.sysRuns asid true .write va bs.length (bs.length / 65536 + 3) = .ok [(e, va, bs.length)] := by
    obtain ⟨n, hn'⟩ := Nat.exists_eq_succ_of_ne_zero hlen.ne'
    have hall : min (n + 1) (e.va + e.size - va) = n + 1 := min_eq_left (Nat.le_sub_of_add_le' ((Nat.add_le_add_left hn'.ge va).trans hin))
    rw [hn', Nat.add_succ]
    unfold State.sysRuns
    rw [sysXlate_weaken (.inr rfl) he]
    simp [bind, Except.bind, hall, State.sysRuns]
  have htake : (bs.drop (va - va)).take bs.length = bs := by
    rw [Nat.sub_self, List.drop_zero, List.take_length]
  have hnote : (if cmd = 0 then s else s.noteManifest asid va bs.length) = s := by
    simp only [State.noteManifest, job_none hc.jobs, ite_self]
  unfold State.sysPut
  rw [hruns]
  simp only [bind, Except.bind, List.foldlM, hpa, hrange, hnote, recall_idle hc.lines, settle_idle hc.locks,
    newFor_none (job_none hc.jobs asid), hrm, htake, Bool.false_eq_true, if_false]
  rfl

theorem SysPage.sysWrite {bs : List Byte} (h : SysPage s asid va bs.length pa) (hn : bs ≠ []) (hc : Calm s) :
    s.sysWrite asid true false va bs = .ok (s.hbmWrite pa bs .keep) := h.sysPut hn hc 0 .keep

/-- A word of a record that holds no poison. -/
theorem SysAt.sysWord (h : SysAt s asid va 8 pa) (hl : s.flat.rmWrites = []) :
    s.sysWord asid true va = .ok (BitVec.ofNat 64 (s.flat.hbm.num pa 8)) := by
  rw [State.sysWord, h.sysPage.sysRead (by decide) hl, h.clean]
  rfl

end

/-- A write poisons what it touches, or keeps and cleans. -/
theorem hbmWrite_bad (s : State) (pa : Nat) (bs : List Byte) (bad : Bool) :
    WritesHbm s (s.hbmWrite pa bs (if bad then .set else .keep)) pa bs bad := by
  cases bad
  · exact hbmWrite_keep s pa bs
  · exact hbmWrite_set s pa bs

/-- A write leaves the words that it does not overlap. -/
theorem hbmWrite_num_apart (s : State) (pa : Nat) (bs : List Byte) (act : PoisonAct) {b n : Nat} (h : b + n ≤ pa ∨ pa + bs.length ≤ b) :
    (s.hbmWrite pa bs act).flat.hbm.num b n = s.flat.hbm.num b n :=
  congrArg leNat (Mem.read_write_apart s.flat.hbm pa bs b n h)

theorem Calm.of_flat {s t : State} (h : Calm s) (hj : t.sys.jobs = s.sys.jobs) (hc : t.cores = s.cores)
    (hr : t.flat.rmWrites = s.flat.rmWrites) (hw : t.flat.waiters = s.flat.waiters) : Calm t :=
  ⟨hj.trans h.jobs, hc ▸ h.lines, hr.trans h.locks, hw.trans h.waiters⟩

/-! The table of packets. -/

section
variable {s : State} {p : Packet} (hp : s.packet p.id = some p) (hone : ∀ q ∈ s.sys.packets, q.id = p.id → q = p)

include hp in
theorem packet_withPacketAs {f : Packet → Packet} (hf : ∀ q, (f q).id = q.id) : (withPacketAs s p.id f).packet p.id = some (f p) := by
  have hid : (fun q : Packet => decide ((if q.id = p.id then f q else q).id = p.id)) = fun q => decide (q.id = p.id) := by
    funext q
    split <;> simp only [hf]
  have hfind : s.sys.packets.find? (fun q => q.id = p.id) = some p := hp
  show (s.sys.packets.map _).find? _ = _
  rw [List.find?_map]
  simp only [Function.comp_def, hid, hfind, Option.map_some, if_true]

theorem modPacket_eq (s : State) (pid : Nat) (f : Packet → Packet) : s.modPacket pid f = withPacketAs s pid f := rfl

include hone in
/-- One packet has the number, so that two changes of it are the same where they agree on it. -/
theorem withPacketAs_congr {f g : Packet → Packet} (h : f p = g p) : withPacketAs s p.id f = withPacketAs s p.id g := by
  have hmap : s.sys.packets.map (fun q => if q.id = p.id then f q else q) = s.sys.packets.map (fun q => if q.id = p.id then g q else q) := by
    refine List.map_congr_left (fun q hq => ?_)
    by_cases hid : q.id = p.id
    · rw [if_pos hid, if_pos hid, hone q hq hid, h]
    · rw [if_neg hid, if_neg hid]
  unfold withPacketAs
  rw [hmap]

include hone in
theorem withPacketAs_id {f : Packet → Packet} (h : f p = p) : withPacketAs s p.id f = s := by
  rw [withPacketAs_congr (g := id) hone h]
  unfold withPacketAs
  simp

theorem withPacketAs_twice (s : State) (pid : Nat) {f g : Packet → Packet} (hf : ∀ q, (f q).id = q.id) :
    withPacketAs (withPacketAs s pid f) pid g = withPacketAs s pid (fun q => g (f q)) := by
  have hmap : (s.sys.packets.map (fun q => if q.id = pid then f q else q)).map (fun q => if q.id = pid then g q else q) =
      s.sys.packets.map (fun q => if q.id = pid then g (f q) else q) := by
    rw [List.map_map]
    refine List.map_congr_left (fun q _ => ?_)
    by_cases hid : q.id = pid <;> simp [hid, hf]
  unfold withPacketAs
  rw [hmap]

end

/-! The states in which a packet's work goes on. -/

/-- The packet when its work has begun, in the colour that no kiln gives. -/
def begunAs (was : Bool) (q : Packet) : Packet := { q with begun := true, colour := if was then q.colour else false }

section
variable {s : State} {p : Packet} (hp : s.packet p.id = some p) (hone : ∀ q ∈ s.sys.packets, q.id = p.id → q = p) (hc : Calm s)

include hc in
theorem sysColour_calm (asid : Nat) : s.sysColour asid = false := by rw [State.sysColour, job_none hc.jobs]

include hc in
theorem oldPacket_calm (q : Packet) : s.oldPacket q = false := by
  rw [State.oldPacket, State.isOld, newFor_none (job_none hc.jobs q.asid)]

include hone hc in
/-- Beginning a packet, or finding it begun. -/
theorem begun_eq : (if p.begun then s else s.begin' p) = withPacketAs s p.id (begunAs p.begun) := by
  cases hb : p.begun with
  | true =>
    exact (withPacketAs_id hone (show ({ p with begun := true } : Packet) = p by cases p; cases hb; rfl)).symm
  | false =>
    show s.modPacket p.id _ = _
    rw [modPacket_eq, sysColour_calm hc]
    exact withPacketAs_congr hone rfl

theorem seenAlike_withPacketAs (s : State) (pid : Nat) (f : Packet → Packet) : SeenAlike s (withPacketAs s pid f) :=
  ⟨rfl, rfl, rfl, rfl, rfl⟩

include hc in
theorem calm_withPacketAs (pid : Nat) (f : Packet → Packet) : Calm (withPacketAs s pid f) := hc.of_flat rfl rfl rfl rfl

include hp in
theorem withPacket_eq {kind : Nat} (hk : p.kind = kind) (he : p.ended = none) (f : Packet → State) :
    s.withPacket p.id kind f = .next (f p) := by
  rw [State.withPacket, hp]
  exact congrArg _ (if_pos ⟨hk, he⟩)

/-! LAUNCH (R246, R247). -/

include hp hc in
/-- A LAUNCH writes SIG of its record, reads DEPS, and enqueues the task in the state that DEPS gives. -/
theorem launch_eq (hk : (p.word 0).toNat % 2 ^ 8 = 1) (he : p.ended = none) (hb : p.begun = false) {pa : Nat}
    (hr : (p.word 1).toNat % 128 = 0) (hpage : SysPage s p.asid ((p.word 1).toNat + 96) 8 (pa + 96))
    (hat : ∀ t, WritesHbm s t (pa + 96) (leBytes 8 (p.word 7).toNat) false → SysAt t p.asid ((p.word 1).toNat + 16) 8 (pa + 16)) :
    let w2 := s.flat.hbm.num (pa + 16) 8
    let ready := decide (w2 / 2 ^ 24 % 2 ^ 16 = 0)
    let y := pokedSys (withPacketAs s p.id (fun q => { q with begun := true, colour := false })).sys
    let t := s.hbmWrite (pa + 96) (leBytes 8 (p.word 7).toNat) .keep
    let u := t.hbmWrite (pa + 16) (leBytes 8 (setBits w2 42 40 (if ready then 2 else 1))) .keep
    exec (.launch p.id) s = .next { u with sys := { y with tasks := y.tasks ++
      [{ rec' := (p.word 1).toNat, asid := p.asid, pkt := p.id, queue := p.queue, ready := ready, since := s.cycle
         base := p.base, width := w2 % 2 ^ 8, height := w2 / 2 ^ 8 % 2 ^ 7 }] } } := by
  intro w2 ready y t u
  let b := withPacketAs s p.id (fun q => { q with begun := true, colour := false })
  let v := b.hbmWrite (pa + 96) (leBytes 8 (p.word 7).toNat) .keep
  have hbegin : s.begin' p = b := by
    show s.modPacket p.id _ = _
    rw [modPacket_eq, sysColour_calm hc]
  have hcb : Calm b := calm_withPacketAs hc _ _
  have hcv : Calm v := hcb.of_flat rfl rfl rfl rfl
  have hwrite : b.sysWrite p.asid true false ((p.word 1).toNat + 96) (leBytes 8 (p.word 7).toNat) = .ok v :=
    ((seenAlike_withPacketAs s p.id _).sysPage hpage).sysWrite (bs := leBytes 8 _) (by simp [leBytes]) hcb
  have hatv : SysAt v p.asid ((p.word 1).toNat + 16) 8 (pa + 16) :=
    SeenAlike.sysAt (s := t) (t := v) ⟨rfl, rfl, rfl, rfl, rfl⟩ (hat t (hbmWrite_keep _ _ _))
  have hnum : v.flat.hbm.num (pa + 16) 8 = w2 := hbmWrite_num_apart s _ _ _ (.inl (Nat.add_le_add_left (show 24 ≤ 96 by decide) pa))
  have hword : v.taskWord p.asid (p.word 1).toNat 2 = BitVec.ofNat 64 w2 := taskWord_ok (hnum ▸ hatv.sysWord hcv.locks)
  have hw2 : (BitVec.ofNat 64 w2).toNat = w2 := by
    rw [BitVec.toNat_ofNat, Nat.mod_eq_of_lt (show w2 < 2 ^ 64 from Mem.num_lt s.flat.hbm (pa + 16) 8)]
  have hready : (decide (taskDeps (BitVec.ofNat 64 w2) = 0)) = ready := by
    rw [taskDeps, hw2, bits_eq]
  have hwidth : taskWidth (BitVec.ofNat 64 w2) = w2 % 2 ^ 8 := by rw [taskWidth, hw2]; rfl
  have hheight : taskHeight (BitVec.ofNat 64 w2) = w2 / 2 ^ 8 % 2 ^ 7 := by rw [taskHeight, hw2, bits_eq]
  have h8 : ((p.word 1).toNat + 16) % 8 = 0 :=
    Nat.mod_eq_zero_of_dvd (Nat.dvd_add (Dvd.dvd.trans ⟨16, rfl⟩ (Nat.dvd_of_mod_eq_zero hr)) ⟨2, rfl⟩)
  have hset := setTaskState_calm hcv hatv h8 (if ready then 2 else 1)
  have hexec : exec (.launch p.id) s = s.withPacket p.id 1 _ := rfl
  rw [hexec, withPacket_eq hp (by rw [Packet.kind, bits]; exact hk) he, hb]
  simp only [hbegin, hwrite, hword, hready, hwidth, hheight, Bool.false_eq_true, if_false, hset, hnum]
  rfl

/-! COPY (R133, R253). -/

include hc in
/-- A COPY reads on within a page of its source. -/
theorem copyRead_page {q : Packet} {k m ps : Nat} (hm : m = min k (65536 - ((q.word 2).toNat + q.pos + q.buf.length) % 65536)) (h0 : 0 < m)
    (hs : SysPage s q.asid ((q.word 2).toNat + q.pos + q.buf.length) m ps) :
    s.copyRead q k = withPacketAs s q.id (fun z => { z with
      buf := z.buf ++ s.flat.hbm.read ps m, bufBad := z.bufBad || s.hbmPoisoned ps m, out := false, answer := none }) := by
  have hread := hs.sysRead h0 hc.locks
  unfold State.copyRead
  simp only [hs.windowAt h0 (.inl rfl), ← hm, hread]
  rfl

include hc in
/-- A COPY writes the bytes that it holds into a page of its destination, and poisons their sector where one of them is poisoned. -/
theorem copyPut_page {q : Packet} {k pd : Nat} (hk : q.buf.length = k) (h0 : 0 < k)
    (hd : SysPage s q.asid ((q.word 1).toNat + q.pos) k pd) :
    s.copyPut q k = withPacketAs (s.hbmWrite pd q.buf (if q.bufBad then .set else .keep)) q.id (fun z => { z with
      pos := z.pos + k, buf := z.buf.drop k, bufBad := z.bufBad && decide (k < z.buf.length) }) := by
  subst hk
  have hput := hd.sysPut (List.length_pos_iff.1 h0) hc q.id (if q.bufBad then .set else .keep)
  unfold State.copyPut
  simp only [hd.windowAt h0 (.inr rfl), List.take_length, oldPacket_calm hc, hput]
  rfl

/-- A COPY that holds k bytes for its destination writes them. -/
def copyWrites (t : State) (pid k : Nat) : State :=
  match t.packet pid with
  | some r => if r.ended.isNone && decide (k ≤ r.buf.length) then t.copyPut r k else t
  | none => t

theorem copyWrites_eq {t : State} {pid : Nat} {r : Packet} (ht : t.packet pid = some r) (hr : r.ended = none) (k : Nat) :
    copyWrites t pid k = if k ≤ r.buf.length then t.copyPut r k else t := by
  rw [copyWrites, ht]
  simp [hr]

/-- What a step of a COPY does once its work has begun: `b` is the state and `q` the packet then. -/
def copyGoes (b : State) (q : Packet) (k : Nat) : State :=
  copyWrites (if q.buf.length < k then b.copyRead q (k - q.buf.length) else b) q.id k

variable (hk : (p.word 0).toNat % 2 ^ 8 = 3) (he : p.ended = none)

include hp hone hc hk he in
theorem copy_eq : exec (.copy p.id) s =
    .next (let b := withPacketAs s p.id (begunAs p.begun)
      if (p.word 3).toNat - p.pos = 0 then (if b.sysPending p.id then b else b.endPacket p.id true)
      else copyGoes b (begunAs p.begun p)
        (min (if (b.windowAt p.asid .write ((p.word 1).toNat + p.pos)).isSome then 8 else 32 - ((p.word 1).toNat + p.pos) % 32)
          ((p.word 3).toNat - p.pos))) := by
  have hexec : exec (.copy p.id) s = s.withPacket p.id 3 _ := rfl
  rw [hexec, withPacket_eq hp (by rw [Packet.kind, bits]; exact hk) he]
  simp only [begun_eq hone hc, sysColour_calm (calm_withPacketAs hc _ _)]
  rfl

include hp hone hc hk he in
/-- A COPY ends when it has written every byte and each write is performed. -/
theorem copy_ends (hn : (p.word 3).toNat ≤ p.pos) (hq : ∀ e ∈ s.fab.ports, ∀ j ∈ e.2.queue ++ e.2.retry ++ e.2.flight,
      ¬ (j.isWrite = true ∧ j.core = sysParty ∧ j.cmd = p.id)) :
    exec (.copy p.id) s = .next (withPacketAs s p.id (fun q => { begunAs p.begun q with ended := some true })) := by
  have hpend : (withPacketAs s p.id (begunAs p.begun)).sysPending p.id = false := by
    have hports : s.fab.ports.any (fun e => (e.2.queue ++ e.2.retry ++ e.2.flight).any (fun k =>
        k.isWrite && decide (k.core = sysParty ∧ k.cmd = p.id))) = false := by
      refine List.any_eq_false.2 (fun e he hany => ?_)
      obtain ⟨j, hj, hit⟩ := List.any_eq_true.1 hany
      rw [Bool.and_eq_true, decide_eq_true_eq] at hit
      exact hq e he j hj hit
    show (s.flat.rmWrites.any _ || _) = false
    rw [hc.locks]
    exact hports
  rw [copy_eq hp hone hc hk he]
  simp only [Nat.sub_eq_zero_of_le hn, hpend, if_true, Bool.false_eq_true, if_false]
  rw [← withPacketAs_twice s p.id (f := begunAs p.begun) (g := fun q => { q with ended := some true }) (fun _ => rfl)]
  rfl

section
variable {k : Nat} (hpos : p.pos < (p.word 3).toNat)
  (hkk : k = min (32 - ((p.word 1).toNat + p.pos) % 32) ((p.word 3).toNat - p.pos))
  {pd : Nat} (hd : SysPage s p.asid ((p.word 1).toNat + p.pos) k pd)

include hpos hkk in
theorem copy_len_pos : 0 < k :=
  hkk ▸ lt_min (Nat.sub_pos_of_lt (Nat.mod_lt _ (by decide))) (Nat.sub_pos_of_lt hpos)

include hp hone hc hk he hpos hkk hd in
/-- A COPY to HBM goes on towards the end of a sector of its destination. -/
theorem copy_goes : exec (.copy p.id) s = .next (copyGoes (withPacketAs s p.id (begunAs p.begun)) (begunAs p.begun p) k) := by
  have hw : (withPacketAs s p.id (begunAs p.begun)).windowAt p.asid .write ((p.word 1).toNat + p.pos) = none :=
    ((seenAlike_withPacketAs s p.id _).sysPage hd).windowAt (copy_len_pos hpos hkk) (.inr rfl)
  rw [copy_eq hp hone hc hk he]
  simp only [(Nat.sub_pos_of_lt hpos).ne', if_false, hw, Option.isSome_none, Bool.false_eq_true, ← hkk]

/-- A COPY's packet with the bytes that it reads at ps. -/
def readInto (s : State) (ps m : Nat) (z : Packet) : Packet :=
  { z with buf := z.buf ++ s.flat.hbm.read ps m, bufBad := z.bufBad || s.hbmPoisoned ps m, out := false, answer := none }

/-- A COPY's packet when its bytes of a sector stand in memory. -/
def putOut (k : Nat) (z : Packet) : Packet :=
  { z with pos := z.pos + k, buf := z.buf.drop k, bufBad := z.bufBad && decide (k < z.buf.length) }

variable {m ps : Nat} (hlen : p.buf.length < k)
  (hm : m = min (k - p.buf.length) (65536 - ((p.word 2).toNat + p.pos + p.buf.length) % 65536))
  (hs : SysPage s p.asid ((p.word 2).toNat + p.pos + p.buf.length) m ps)

include hlen hm in
theorem copy_read_pos : 0 < m :=
  hm ▸ lt_min (Nat.sub_pos_of_lt hlen) (Nat.sub_pos_of_lt (Nat.mod_lt _ (by decide)))

include hc hlen hm hs in
theorem copyGoes_reads : copyGoes (withPacketAs s p.id (begunAs p.begun)) (begunAs p.begun p) k =
    copyWrites (withPacketAs s p.id (fun z => readInto s ps m (begunAs p.begun z))) p.id k := by
  have hread := copyRead_page (calm_withPacketAs hc p.id (begunAs p.begun)) (q := begunAs p.begun p) hm (copy_read_pos hlen hm)
    ((seenAlike_withPacketAs s p.id _).sysPage hs)
  have htwice := withPacketAs_twice s p.id (f := begunAs p.begun) (g := readInto s ps m) (fun _ => rfl)
  unfold copyGoes
  rw [if_pos (show (begunAs p.begun p).buf.length < k from hlen), ← htwice]
  exact congrArg (fun t => copyWrites t p.id k) hread

include hp hone hc hk he hpos hkk hd hlen hm hs in
/-- A COPY whose source page ends before the sector is whole keeps what it has read. -/
theorem copy_reads (hpart : m < k - p.buf.length) : exec (.copy p.id) s =
    .next (withPacketAs s p.id (fun q => { begunAs p.begun q with
      buf := p.buf ++ s.flat.hbm.read ps m, bufBad := p.bufBad || s.hbmPoisoned ps m, out := false, answer := none })) := by
  have hr := packet_withPacketAs hp (f := fun z => readInto s ps m (begunAs p.begun z)) (fun _ => rfl)
  have hshort : ¬ k ≤ (readInto s ps m (begunAs p.begun p)).buf.length := by
    simp only [readInto, begunAs, List.length_append, Mem.length_read]
    exact Nat.not_le.2 (Nat.add_lt_of_lt_sub' hpart)
  rw [copy_goes hp hone hc hk he hpos hkk hd, copyGoes_reads hc hlen hm hs, copyWrites_eq hr he, if_neg hshort]
  exact congrArg _ (withPacketAs_congr hone rfl)

/-- The packet of a COPY once it has written a sector, with nothing more of its source read. -/
def movedOn (k : Nat) (z : Packet) : Packet :=
  { z with pos := z.pos + k, buf := [], bufBad := false, out := false, answer := none }

include hp hone hc hkk hpos hd in
/-- The state `w` of a COPY whose packet holds a whole sector writes it. -/
theorem copyWrites_sector {f : Packet → Packet} (hf : ∀ q, (f q).id = q.id) (hasid : (f p).asid = p.asid)
    (hwords : (f p).words = p.words) (hposf : (f p).pos = p.pos) (hend : (f p).ended = none) (hbuf : (f p).buf.length = k)
    (hout : (f p).out = false) (hans : (f p).answer = none) :
    copyWrites (withPacketAs s p.id f) p.id k =
      withPacketAs (s.hbmWrite pd (f p).buf (if (f p).bufBad then .set else .keep)) p.id (fun q => movedOn k (f q)) := by
  have hr := packet_withPacketAs hp hf
  have hput := copyPut_page (calm_withPacketAs hc p.id f) (q := f p) hbuf (copy_len_pos hpos hkk)
    (show SysPage _ (f p).asid (((f p).word 1).toNat + (f p).pos) k pd by
      rw [hasid, hposf, Packet.word, hwords]
      exact (seenAlike_withPacketAs s p.id f).sysPage hd)
  rw [copyWrites_eq hr hend, if_pos hbuf.ge, hput, hf p]
  have htwice := withPacketAs_twice (s.hbmWrite pd (f p).buf (if (f p).bufBad then .set else .keep)) p.id (f := f)
    (g := fun z => { z with pos := z.pos + k, buf := z.buf.drop k, bufBad := z.bufBad && decide (k < z.buf.length) }) hf
  refine htwice.trans (withPacketAs_congr (s := s.hbmWrite pd (f p).buf (if (f p).bufBad then .set else .keep)) hone ?_)
  simp [movedOn, hbuf, hout, hans, List.drop_of_length_le hbuf.le]

include hp hone hc hk he hpos hkk hd hlen hm hs in
/-- A COPY that has read up to the end of a sector of its destination writes the sector. -/
theorem copy_fills (hwhole : m = k - p.buf.length) : exec (.copy p.id) s =
    .next (withPacketAs (s.hbmWrite pd (p.buf ++ s.flat.hbm.read ps m) (if p.bufBad || s.hbmPoisoned ps m then .set else .keep)) p.id
      (fun q => movedOn k (begunAs p.begun q))) := by
  rw [copy_goes hp hone hc hk he hpos hkk hd, copyGoes_reads hc hlen hm hs,
    copyWrites_sector hp hone hc hpos hkk hd (f := fun z => readInto s ps m (begunAs p.begun z)) (fun _ => rfl) rfl rfl rfl he
      (by simp only [readInto, begunAs, List.length_append, Mem.length_read, hwhole, Nat.add_sub_cancel' hlen.le]) rfl rfl]
  exact congrArg _ (withPacketAs_congr (s := s.hbmWrite pd _ _) hone rfl)

include hp hone hc hk he hpos hkk hd in
/-- A COPY that holds a whole sector and waits for nothing writes the sector. -/
theorem copy_writes (hfull : k = p.buf.length) (hout : p.out = false) (hans : p.answer = none) : exec (.copy p.id) s =
    .next (withPacketAs (s.hbmWrite pd p.buf (if p.bufBad then .set else .keep)) p.id (fun q => movedOn k (begunAs p.begun q))) := by
  have hgoes : copyGoes (withPacketAs s p.id (begunAs p.begun)) (begunAs p.begun p) k =
      copyWrites (withPacketAs s p.id (begunAs p.begun)) p.id k :=
    congrArg (fun t => copyWrites t p.id k) (if_neg (show ¬ (begunAs p.begun p).buf.length < k from hfull.le.not_gt))
  rw [copy_goes hp hone hc hk he hpos hkk hd, hgoes,
    copyWrites_sector hp hone hc hpos hkk hd (f := begunAs p.begun) (fun _ => rfl) rfl rfl rfl he hfull.symm hout hans]
  rfl

end

end

/-! NMEM (R220 to R227, R253). -/

section
variable {s : State} {p : Packet} (hp : s.packet p.id = some p) (hone : ∀ q ∈ s.sys.packets, q.id = p.id → q = p) (hc : Calm s)
  (hk : (p.word 0).toNat % 2 ^ 8 = 4) (he : p.ended = none)
include hp hone hc hk he

/-- An NMEM ends when it has done every block. -/
theorem nmem_ends (hcask : p.cask = none) (hn : (p.word 2).toNat ≤ p.pos) : exec (.nmem p.id) s =
    .next (withPacketAs s p.id (fun q => { begunAs p.begun q with ended := some true })) := by
  have hexec : exec (.nmem p.id) s = s.withPacket p.id 4 _ := rfl
  rw [hexec, withPacket_eq hp (by rw [Packet.kind, bits]; exact hk) he]
  unfold Packet.word at hn
  simp only [begun_eq hone hc, hcask, Packet.word, if_pos hn]
  rw [← withPacketAs_twice s p.id (f := begunAs p.begun) (g := fun q => { q with ended := some true }) (fun _ => rfl)]
  rfl

/-- An NMEM reads its next block and prepares it for a number of elements that is free. -/
theorem nmem_prepares (hcask : p.cask = none) (hn : p.pos < (p.word 2).toNat) {pa : Nat}
    (ha : SysAt s p.asid ((p.word 1).toNat + 32 * p.pos) 32 pa) {r : CaskRun}
    (hr : ({ withPacketAs s p.id (begunAs p.begun) with freeCtr := s.freeCtr + 1 } : State).caskPrepare p.asid (s.flat.hbm.read pa 32)
      (max 1 ((Config.freeWord s.freeCtr).toNat % 2 ^ 32)) = some r) :
    exec (.nmem p.id) s = .next (withPacketAs { withPacketAs s p.id (begunAs p.begun) with freeCtr := s.freeCtr + 1 } p.id
      (fun q => { q with cask := some r })) := by
  have hread : (withPacketAs s p.id (begunAs p.begun)).free.2.sysRead p.asid true ((p.word 1).toNat + 32 * p.pos) 32 3 =
      .ok (s.flat.hbm.read pa 32, false) :=
    (SeenAlike.sysRead (s := s) (t := (withPacketAs s p.id (begunAs p.begun)).free.2) ⟨rfl, rfl, rfl, rfl, rfl⟩ ..).trans
      ((ha.sysPage.sysRead (by decide) hc.locks).trans (by rw [ha.clean]))
  have hprep : (withPacketAs s p.id (begunAs p.begun)).free.2.caskPrepare p.asid (s.flat.hbm.read pa 32)
      (max 1 ((withPacketAs s p.id (begunAs p.begun)).free.1.toNat % 2 ^ 32)) = some r := hr
  have hexec : exec (.nmem p.id) s = s.withPacket p.id 4 _ := rfl
  rw [hexec, withPacket_eq hp (by rw [Packet.kind, bits]; exact hk) he]
  unfold Packet.word at hn hread
  simp only [begun_eq hone hc, hcask, Packet.word, if_neg hn.not_ge, hread, hprep]
  rfl

/-- An NMEM whose block has no part left writes the block's record. -/
theorem nmem_records {r : CaskRun} (hcask : p.cask = some r) (hparts : r.parts = []) (hst : r.status = 0) (hheap : r.heapFull = false)
    {pa : Nat} (ha : SysPage s p.asid ((p.word 3).toNat + 16 * p.pos) 16 pa) :
    exec (.nmem p.id) s = .next (withPacketAs (s.hbmWrite pa r.record .keep) p.id
      (fun q => { begunAs p.begun q with pos := q.pos + 1, cask := none })) := by
  have hlen : r.record.length = 16 := by simp [CaskRun.record, leBytes_length]
  have hwrite : (withPacketAs s p.id (begunAs p.begun)).sysWrite p.asid true false ((p.word 3).toNat + 16 * p.pos) r.record =
      .ok ((withPacketAs s p.id (begunAs p.begun)).hbmWrite pa r.record .keep) :=
    SysPage.sysWrite (hlen ▸ (seenAlike_withPacketAs s p.id _).sysPage ha) (by intro h; rw [h] at hlen; cases hlen)
      (calm_withPacketAs hc _ _)
  have hexec : exec (.nmem p.id) s = s.withPacket p.id 4 _ := rfl
  rw [hexec, withPacket_eq hp (by rw [Packet.kind, bits]; exact hk) he]
  unfold Packet.word at hwrite
  simp only [begun_eq hone hc, hcask, hparts, oldPacket_calm (calm_withPacketAs hc _ _), Packet.word, hwrite, hst, hheap]
  have htwice := withPacketAs_twice (s.hbmWrite pa r.record .keep) p.id (f := begunAs p.begun)
    (g := fun q => { q with pos := q.pos + 1, cask := none }) (fun _ => rfl)
  exact congrArg _ htwice

end

/-- Settles O50: each row is one step of the packet's work, and calm memory makes every access one run of one page. -/
theorem launchCopyAndNmem : Obligations.LaunchCopyAndNmem := by
  intro p s hp hone he hc
  refine ⟨fun hk hb pa hr hpage hat => ?_, fun hk => ⟨fun hn hq => copy_ends hp hone hc hk he hn hq, fun hpos pd hd =>
    ⟨fun hlen ps hs => ⟨fun hpart => ?_, fun hwhole => ?_⟩, fun hfull hout hans => ?_⟩⟩,
    fun hk => ⟨fun hcask hn => nmem_ends hp hone hc hk he hcask hn, fun hcask hn pa ha r hr => ?_,
      fun r hcask hparts hst hheap pa ha => ?_⟩⟩
  · exact ⟨_, _, hbmWrite_keep _ _ _, hbmWrite_keep _ _ _, launch_eq hp hc hk he hb hr hpage hat⟩
  · exact copy_reads hp hone hc hk he hpos rfl hd hlen rfl hs hpart
  · exact ⟨_, hbmWrite_bad _ _ _ _, copy_fills hp hone hc hk he hpos rfl hd hlen rfl hs hwhole⟩
  · exact ⟨_, hbmWrite_bad _ _ _ _, copy_writes hp hone hc hk he hpos rfl hd hfull hout hans⟩
  · exact nmem_prepares hp hone hc hk he hcask hn ha hr
  · have hrec : r.record = leBytes 8 (if r.poisoned = 0 then 0 else 1) ++ leBytes 4 (r.first.getD 0) ++ leBytes 4 r.poisoned := by
      simp [CaskRun.record, hheap]
    exact ⟨_, hrec ▸ hbmWrite_keep _ _ _, nmem_records hp hone hc hk he hcask hparts hst hheap ha⟩

end Sys2Proof
end

section
/-! The issue of the engine's transfers (R135 to R140, R262, R352, R365, R368, R396, R407, R408, R87): the checks that they pass, and the
bytes that a GRIST descriptor gives a participant. -/

namespace Sys2Proof

open Sys2Proof.Machine

/-! The local count of a GRIST descriptor (R139). -/

/-- Numbers below n that are ix modulo np. -/
theorem countP_mod {np ix : Nat} (hix : ix < np) (n : Nat) :
    (List.range n).countP (fun b => decide (b % np = ix)) = if ix < n then (n - 1 - ix) / np + 1 else 0 := by
  induction n with
  | zero => rfl
  | succ n ih =>
    have hmod : (n % np = ix) ↔ ix ≤ n ∧ np ∣ n - ix := by
      constructor
      · intro h
        have hle : ix ≤ n := h ▸ Nat.mod_le _ _
        exact ⟨hle, (Nat.modEq_iff_dvd' hle).1 (by rw [Nat.ModEq, Nat.mod_eq_of_lt hix, h])⟩
      · rintro ⟨hle, hdvd⟩
        have := (Nat.modEq_iff_dvd' hle).2 hdvd
        rw [Nat.ModEq, Nat.mod_eq_of_lt hix] at this
        exact this.symm
    rw [List.range_succ, List.countP_append, ih, List.countP_singleton]
    simp only [decide_eq_true_eq, hmod]
    rcases Nat.lt_trichotomy ix n with h | rfl | h
    · have hstep : (n - ix) / np = (n - 1 - ix) / np + if np ∣ n - ix then 1 else 0 := by
        rw [← Nat.sub_add_cancel (Nat.sub_pos_of_lt h), Nat.sub_right_comm, Nat.succ_div]
      simp only [if_pos h, if_pos (show ix < n + 1 by omega), h.le, true_and, Nat.add_sub_cancel, hstep]
      omega
    · simp only [lt_self_iff_false, if_false, le_refl, Nat.sub_self, dvd_zero, and_self, if_true, if_pos (show ix < ix + 1 by omega),
        Nat.add_sub_cancel, Nat.zero_div]
    · simp only [if_neg (show ¬ ix < n by omega), if_neg (show ¬ ix < n + 1 by omega), show ¬ ix ≤ n by omega, false_and, if_false]

/-- Units of a run of whole blocks, and of what follows it. -/
theorem countP_blocks {m : Nat} (hm : 0 < m) (f : Nat → Bool) (q r : Nat) (hr : r ≤ m) :
    (List.range (q * m + r)).countP (fun u => f (u / m)) = m * (List.range q).countP f + if f q then r else 0 := by
  have hblock : ∀ b k, k ≤ m → (List.range k).countP (fun i => f ((b * m + i) / m)) = if f b then k else 0 := by
    intro b k hk
    have hdiv : ∀ i ∈ List.range k, (f ((b * m + i) / m) = true ↔ f b = true) := fun i hi => by
      rw [Nat.mul_comm, Nat.mul_add_div hm, Nat.div_eq_of_lt (by have := List.mem_range.1 hi; omega), Nat.add_zero]
    rw [List.countP_congr hdiv]
    split
    · next h => simp [h]
    · next h => simp [h]
  have hwhole : (List.range (q * m)).countP (fun u => f (u / m)) = m * (List.range q).countP f := by
    induction q with
    | zero => simp
    | succ q ih =>
      rw [Nat.succ_mul, List.range_add, List.countP_append, ih, List.countP_map, List.range_succ, List.countP_append]
      simp only [Function.comp_def, hblock q m le_rfl, List.countP_singleton]
      split <;> ring
  rw [List.range_add, List.countP_append, hwhole, List.countP_map]
  simp only [Function.comp_def, hblock q r hr]

/-- Blocks of `m` units that `q` whole ones and `r` units more touch. -/
theorem ceilDiv_blocks {m : Nat} (hm : 0 < m) (q : Nat) {r : Nat} (hr : r < m) :
    ceilDiv (8 * (q * m + r)) (8 * m) = if r = 0 then q else q + 1 := by
  have hpos : 0 < 8 * m := Nat.mul_pos (by decide) hm
  have hform : 8 * (q * m + r) + 8 * m - 1 = 8 * r + 8 * m - 1 + q * (8 * m) := by
    have hone : 1 ≤ 8 * r + 8 * m := le_add_left hpos
    rw [Nat.mul_left_comm q 8 m, ← Nat.sub_add_comm hone, Nat.mul_add, Nat.add_assoc, Nat.add_comm (8 * (q * m))]
  rw [ceilDiv, hform, Nat.add_mul_div_right _ _ hpos, Nat.add_comm]
  cases r with
  | zero => rw [if_pos rfl, Nat.mul_zero, Nat.zero_add, Nat.div_eq_of_lt (Nat.sub_lt hpos Nat.one_pos), Nat.add_zero]
  | succ r =>
    have hone : (8 * (r + 1) + 8 * m - 1) / (8 * m) = 1 := Nat.div_eq_of_lt_le (by omega) (by omega)
    rw [if_neg (Nat.succ_ne_zero r), hone]

/-- What a descriptor whose last block is its own drops of that block. -/
theorem lastBlock_drop (q r m : Nat) : (q + 1) * (8 * m) - 8 * (q * m + r) = 8 * (m - r) := by
  rw [Nat.mul_left_comm, ← Nat.mul_sub, Nat.succ_mul q m, Nat.add_sub_add_left]

/-- A descriptor counts eight bytes for each unit of its blocks (R139). -/
theorem grist_count (g : Grist) {len : Nat} (hbs : 8 ≤ g.bs) (h8 : g.bs % 8 = 0) (hlen : len % 8 = 0) (hix : g.ix < g.np) :
    g.count len = 8 * (List.range (len / 8)).countP (fun u => decide (8 * u / g.bs % g.np = g.ix)) := by
  obtain ⟨m, hm⟩ : ∃ m, g.bs = 8 * m := ⟨g.bs / 8, (Nat.mul_div_cancel' (Nat.dvd_of_mod_eq_zero h8)).symm⟩
  have hm0 : 0 < m := Nat.pos_of_ne_zero (fun h0 => by rw [hm, h0] at hbs; exact absurd hbs (by decide))
  obtain ⟨q, r, hr, hn⟩ : ∃ q r, r < m ∧ len / 8 = q * m + r :=
    ⟨len / 8 / m, len / 8 % m, Nat.mod_lt _ hm0, by rw [Nat.mul_comm]; exact (Nat.div_add_mod _ _).symm⟩
  have hlen' : len = 8 * (q * m + r) := by rw [← hn]; exact (Nat.mul_div_cancel' (Nat.dvd_of_mod_eq_zero hlen)).symm
  have hdiv : ∀ u, 8 * u / g.bs = u / m := fun u => by rw [hm, Nat.mul_div_mul_left _ _ (by decide)]
  have hcount := countP_blocks hm0 (fun b => decide (b % g.np = g.ix)) q r hr.le
  have hnb : ceilDiv len g.bs = if r = 0 then q else q + 1 := by rw [hlen', hm, ceilDiv_blocks hm0 q hr]
  simp only [hdiv, hn, hcount, decide_eq_true_eq]
  unfold Grist.count
  simp only [hnb, ← countP_mod hix]
  generalize hf : (List.range q).countP (fun b => decide (b % g.np = g.ix)) = f
  have hwhole : f * (8 * m) = 8 * (m * f) := by rw [Nat.mul_left_comm, Nat.mul_comm f]
  by_cases h0 : r = 0
  · have hno : q * g.bs - len = 0 := by rw [hm, hlen', h0, Nat.add_zero, Nat.mul_left_comm, Nat.sub_self]
    simp only [h0, if_true, hf, hno, ite_self, Nat.sub_zero, Nat.add_zero]
    rw [hm, hwhole]
  · have hlast : (q + 1) * g.bs - len = 8 * (m - r) := by rw [hm, hlen', lastBlock_drop]
    simp only [h0, if_false, List.range_succ, List.countP_append, List.countP_singleton, hf, hlast, Nat.add_sub_cancel, decide_eq_true_eq]
    by_cases hq : q % g.np = g.ix
    · have hsub : 8 * m - 8 * (m - r) = 8 * r := by rw [← Nat.mul_sub, Nat.sub_sub_self hr.le]
      have hle : 8 * (m - r) ≤ 8 * m := Nat.mul_le_mul_left 8 (Nat.sub_le m r)
      simp only [hq, if_true, and_true, ne_eq, Nat.succ_ne_zero, not_false_eq_true, hm]
      rw [Nat.succ_mul, hwhole, Nat.add_sub_assoc hle, hsub, Nat.mul_add]
    · simp only [hq, if_false, and_false, Nat.add_zero, hm, hwhole]

/-! The checks at issue. -/

section
variable {s : State}

theorem finish_check {npc : Word64} {chk : Except Stop Unit} (h : chk = .ok ()) (r : Act) :
    finish s npc (do chk; r) = finish s npc r := by rw [h]; rfl

theorem xferChecks_ok {x : XferArgs} (ha : s.me.dbit x.a.val = false) (hb : s.me.dbit x.b.val = false)
    (hc : x.lin = true → s.me.dbit x.c.val = false) (hl : (s.me.sv x.b.val).toNat + x.len.toNat ≤ limitOf x.lsp)
    (h8 : (s.me.sv x.b.val).toNat % 8 = 0) (hg : (s.me.sv (if x.lin then x.c.val else x.a.val)).toNat % 8 = 0) :
    xferChecks x s = .ok () := by
  have hregs : needAll s.me (if x.lin then [x.a.val, x.b.val, x.c.val] else [x.a.val, x.b.val]) = .ok () := by
    cases hlin : x.lin with
    | false => exact needAll_ok (by simp [ha, hb])
    | true => exact needAll_ok (by simp [ha, hb, hc hlin])
  rw [xferChecks, hregs, localCheck_ok hl h8, aligned_ok hg]
  rfl

theorem copyChecks_ok {x : CopyArgs} (ha : s.me.dbit x.a.val = false) (hb : s.me.dbit x.b.val = false) (hc : s.me.dbit x.c.val = false)
    (hl : (s.me.sv x.b.val).toNat + x.len.toNat ≤ limitOf x.lsp) (h8 : (s.me.sv x.b.val).toNat % 8 = 0)
    (hd : (s.me.sv x.c.val).toNat + x.len.toNat ≤ limitOf x.dsp) (hd8 : (s.me.sv x.c.val).toNat % 8 = 0) :
    copyChecks x s = .ok () := by
  have hregs : needAll s.me [x.a.val, x.b.val, x.c.val] = .ok () := needAll_ok (by simp [ha, hb, hc])
  rw [copyChecks, hregs, localCheck_ok hl h8, localCheck_ok hd hd8]
  rfl

/-- The fields of a descriptor that keeps R139. -/
theorem gristOf_fields (v : Word64) : gristOf v =
    { bs := v.toNat % 2 ^ 24, np := v.toNat / 2 ^ 24 % 2 ^ 15, ix := v.toNat / 2 ^ 39 % 2 ^ 15 } := by
  simp only [gristOf, bits_eq]
  simp

theorem gristChecks_ok {x : XferArgs} (ha : s.me.dbit x.a.val = false) (hb : s.me.dbit x.b.val = false) (hc : s.me.dbit x.c.val = false)
    (hbs : 8 ≤ (gristOf (s.me.sv x.c.val)).bs) (hbs' : (gristOf (s.me.sv x.c.val)).bs ≤ 0xC000)
    (hbs8 : (gristOf (s.me.sv x.c.val)).bs % 8 = 0) (hnp : 1 ≤ (gristOf (s.me.sv x.c.val)).np)
    (hnp' : (gristOf (s.me.sv x.c.val)).np ≤ 26880) (hix : (gristOf (s.me.sv x.c.val)).ix < (gristOf (s.me.sv x.c.val)).np)
    (hv : (s.me.sv x.c.val).toNat < 2 ^ 54)
    (hl : (gristOf (s.me.sv x.c.val)).count x.len.toNat = 0 ∨
      ((s.me.sv x.b.val).toNat + (gristOf (s.me.sv x.c.val)).count x.len.toNat ≤ limitOf x.lsp ∧ (s.me.sv x.b.val).toNat % 8 = 0))
    (hg : (s.me.sv x.a.val).toNat % 8 = 0) : gristChecks x s = .ok () := by
  have hregs : needAll s.me [x.a.val, x.b.val, x.c.val] = .ok () := needAll_ok (by simp [ha, hb, hc])
  have hhigh : bits (s.me.sv x.c.val).toNat 63 54 = 0 := by rw [bits_eq, Nat.div_eq_of_lt hv]; rfl
  have hok : gristOk (s.me.sv x.c.val) = true := decide_eq_true ⟨hbs, hbs', hbs8, hnp, hnp', hix, hhigh⟩
  unfold gristChecks
  rw [hregs]
  simp only [hok, if_true, aligned_ok hg, Bool.not_true, Bool.false_eq_true, if_false]
  by_cases h0 : (gristOf (s.me.sv x.c.val)).count x.len.toNat = 0
  · rw [h0]; rfl
  · obtain ⟨hin, h8⟩ := hl.resolve_left h0
    simp only [ne_eq, h0, not_false_eq_true, if_true, localCheck_ok hin h8]
    rfl

/-- Holding a SEND.p of a compute phase (R87). -/
theorem leaves_holdSend {npc : Word64} {i : Instr} {a b c : Nat} (hq : s.home.sendq.length < 64) (hol : countsOl i = false)
    (hos : s.me.os ≠ 0xFFFF) :
    Leaves s (finish s npc (s.holdSend i a b c)) npc (issuedCtx i s.home.nextId) (fun y => { y with
      sendq := y.sendq ++ [newCommand s i (s.me.sv a) (s.me.sv b) (s.me.sv c) []], nextId := y.nextId + 1 }) := by
  have hcount : s.countCheck i = .ok () := by
    have e : BitVec.ofNat 16 Config.outstandingMax = 0xFFFF#16 := rfl
    have hos' : decide (s.me.os = 0xFFFF#16) = false := decide_eq_false hos
    simp only [State.countCheck, hol, Bool.false_and, Bool.false_eq_true, if_false, e, hos', Bool.and_false]
    rfl
  have he : s.holdSend i a b c = .ok ((s.modHome (fun x => { x with
      sendq := x.sendq ++ [s.pgeCmd i a b c []], nextId := x.nextId + 1 })).modMe (fun x => x.issued i s.home.nextId)) := by
    unfold State.holdSend
    rw [if_neg (by omega), hcount]
    rfl
  rw [he]
  exact gives_home_modMe s npc _ _ _ _ rfl rfl rfl rfl rfl rfl

end

end Sys2Proof
end

section
/-! The put-and-get engine's step with the first command of its queue on calm memory (R129, R133, R134, R138 to R144): the pieces that
every transfer shares. -/

namespace Sys2Proof

open Sys2Proof.Machine

/-! What waits for nothing. -/

section
variable {s : State} {c : Nat} {p : PgeCmd}

theorem EngineTurn.pgeOf (h : EngineTurn s c p) : (s.core c).pgeOf p.id = some p := by
  obtain ⟨r, hr⟩ := List.head?_eq_some_iff.1 h.first
  rw [Core.pgeOf, hr]
  exact List.find?_cons_of_pos (by simp)

theorem EngineTurn.ahead (h : EngineTurn s c p) : (s.core c).ahead p.id = [] := by
  obtain ⟨r, hr⟩ := List.head?_eq_some_iff.1 h.first
  rw [Core.ahead, hr]
  exact List.takeWhile_cons_of_neg (by simp)

theorem EngineTurn.over (h : EngineTurn s c p) : p.prog.over = false := by
  have hr := h.ready
  unfold State.pgeReady at hr
  cases hp : p.prog with
  | ended st a => rw [hp] at hr; cases hr
  | running => rfl
  | waiting => rfl

theorem channelFree_first (h : (s.core c).ahead p.id = []) (ch : Nat) : s.channelFree c p ch = true := by
  rw [State.channelFree, h]; rfl

theorem copyHeld_first (h : (s.core c).ahead p.id = []) (d : Nat) : s.copyHeld c p d = false := by
  rw [State.copyHeld, h]; rfl

theorem rmPending_none (h : s.flat.rmWrites = []) (cmd : Nat) : s.rmPending c cmd = false := by
  rw [State.rmPending, h]; rfl

theorem pendingDrain_none {x : Core} (h : x.drain = []) (sp : Space) (a n : Nat) : x.pendingDrain sp a n = false := by
  rw [Core.pendingDrain, h]; rfl

section
variable (hj : s.sys.jobs = [])
include hj

theorem cutFor_none (d : Nat) : s.cutFor d = none := by rw [State.cutFor, job_none hj]; rfl

theorem infl_none (d : Nat) (b : Bool) (f : Infl) (ws : List Nat) (bs : List Byte) : s.infl d b f ws bs = s := by
  rw [State.infl, cutFor_none hj]

theorem countIfOld_none (a i o : Nat) (b : Bool) : s.countIfOld a i o b = s := by
  rw [State.countIfOld, newFor_none (job_none hj a)]

theorem cutBefore_none (d : Nat) (b : Bool) : s.cutBefore d b = s := by
  unfold State.cutBefore
  split
  · rfl
  · rw [job_none hj]; rfl

end

/-! A command that moves on. -/

theorem advances_modPge {u : State} (hone : ∀ q ∈ (u.core c).pge, q.id = p.id → q = p) (f : PgeCmd → PgeCmd) :
    Advances u (u.modPge c p.id f) c p (f p) where
  whole := { whole := rfl, others := fun k hk => State.modCore_core_other _ _ hk }
  core := by
    rw [State.modPge, State.modCore_core_same, withCommand]
    refine congrArg (fun l => { u.core c with pge := l }) (List.map_congr_left (fun q hq => ?_))
    by_cases hid : q.id = p.id
    · rw [if_pos hid, if_pos hid, hone q hq hid]
    · rw [if_neg hid, if_neg hid]

theorem Advances.one {u t : State} {q : PgeCmd} (h : Advances u t c p q) (hid : q.id = p.id) :
    ∀ z ∈ (t.core c).pge, z.id = q.id → z = q := by
  rw [h.core]
  intro z hz hzid
  obtain ⟨y, -, rfl⟩ := List.mem_map.1 hz
  by_cases hy : y.id = p.id
  · exact if_pos hy
  · rw [if_neg hy] at hzid
    exact absurd (hzid.trans hid) hy

theorem OnlyCore.trans {s t u : State} (h : OnlyCore c s t) (h' : OnlyCore c t u) : OnlyCore c s u where
  whole := by rw [h'.whole, h.whole]
  others := fun k hk => (h'.others k hk).trans (h.others k hk)

theorem Advances.trans {u t v : State} {q r : PgeCmd} (h : Advances u t c p q) (hid : q.id = p.id) (h' : Advances t v c q r) :
    Advances u v c p r where
  whole := h.whole.trans h'.whole
  core := by
    rw [h'.core, h.core]
    simp only [withCommand, List.map_map]
    refine congrArg (fun l => { u.core c with pge := l }) (List.map_congr_left (fun z _ => ?_))
    by_cases hz : z.id = p.id <;> simp [hz, hid]

/-- A unit more has been moved; the last one ends the command with OK. -/
theorem advances_nextUnit {u : State} (hone : ∀ q ∈ (u.core c).pge, q.id = p.id → q = p) (hl : u.flat.rmWrites = [])
    (tg dtg bad : Bool) : Advances u (u.nextUnit c p tg dtg bad) c p { p with
      prog := if p.units ≤ p.pos + 1 then .ended 0 0 else .running, pos := p.pos + 1, tagged := tg, dtagged := dtg, badLine := bad
      outUnits := [] } := by
  have hmove := advances_modPge hone (fun q => { q with
    prog := .running, pos := q.pos + 1, tagged := tg, dtagged := dtg, badLine := bad, outUnits := [] })
  have hpend : ∀ f, (u.modPge c p.id f).rmPending c p.id = false := fun _ => rmPending_none hl p.id
  unfold State.nextUnit
  simp only [hpend, and_true]
  by_cases hu : p.units ≤ p.pos + 1
  · rw [if_pos hu, if_pos hu]
    exact hmove.trans rfl (advances_modPge (hmove.one rfl) _)
  · rw [if_neg hu, if_neg hu]
    exact hmove

end

/-! Bytes and tags that a command writes. -/

section
variable (x : Core)

theorem storeOnly_touches (ls : List Nat) : StoreOnly x (ls.foldl (fun z l => z.touch l) x) := by
  induction ls generalizing x with
  | nil => rfl
  | cons l ls ih => exact StoreOnly.trans (y := x.touch l) rfl (ih _)

theorem store_touches (ls : List Nat) (sp : Space) : (ls.foldl (fun z l => z.touch l) x).store sp = x.store sp := by
  induction ls generalizing x with
  | nil => rfl
  | cons l ls ih => exact (ih _).trans (Core.store_touch x l sp)

theorem tag_touches (ls : List Nat) (j : Nat) : (ls.foldl (fun z l => z.touch l) x).tag j = x.tag j := by
  induction ls generalizing x with
  | nil => rfl
  | cons l ls ih => exact (ih _).trans (Core.tag_touch x l j)

theorem storeOnly_stBytes (sp : Space) (a : Nat) (bs : List Byte) : StoreOnly x (x.stBytes sp a bs) := by
  have hset : ∀ m, StoreOnly x (x.setStore sp m) := fun m => by cases sp <;> rfl
  unfold Core.stBytes
  split
  · exact hset _
  · exact (hset _).trans (storeOnly_touches _ _)

theorem tag_stBytes (sp : Space) (a : Nat) (bs : List Byte) (j : Nat) : (x.stBytes sp a bs).tag j = x.tag j := by
  unfold Core.stBytes
  split
  · exact Core.tag_setStore _ _ _ _
  · exact (tag_touches _ _ _).trans (Core.tag_setStore _ _ _ _)

theorem get_stBytes {sp : Space} (h : sp ≠ .e) (e : Nat) (bs : List Byte) (sp' : Space) (a : Nat) :
    ((x.stBytes sp e bs).store sp').get a =
      if sp' = sp ∧ e ≤ a ∧ a < e + bs.length then bs.getD (a - e) 0 else (x.store sp').get a := by
  have hst : (x.stBytes sp e bs).store sp' = (x.setStore sp ((x.store sp).write e bs)).store sp' := by
    unfold Core.stBytes
    split
    · rfl
    · exact store_touches _ _ _
  rw [hst, Core.store_setStore x h]
  by_cases hs : sp' = sp
  · subst hs
    simp only [if_true, true_and]
    exact Mem.get_write _ _ _ _
  · simp [hs]

end

theorem lineEnds_eq (a hi : Nat) : lineEnds a hi = decide ((a + 8) % 256 = 0 ∨ a + 8 = hi) := by
  rw [lineEnds, Bool.decide_or]

/-- The tag of a line after a unit of it, in the order in which the model changes it. -/
def unitTag (poison sets ends whole bad : Bool) (g : Tag) : Tag :=
  let g := if poison then { g with p := true } else g
  if ends then
    let g := if sets then { g with v := true, u := false } else g
    if whole && !bad && !poison then { g with p := false } else g
  else g

theorem unitTag_eq (poison sets ends whole bad : Bool) (g : Tag) : unitTag poison sets ends whole bad g =
    { v := g.v || sets && ends, u := g.u && !(sets && ends), p := (g.p || poison) && !(ends && whole && !poison && !bad) } := by
  obtain ⟨v, u, q⟩ := g
  revert poison sets ends whole bad v u q
  decide

/-- The core's part of writing one unit of a transfer into a line. -/
def filledCore (sp : Space) (a : Nat) (bs : List Byte) (poison sets ends whole bad : Bool) (x : Core) : Core :=
  let y := x.stBytes sp a bs
  let g := unitTag poison sets ends whole bad (y.tag (lineOf sp a))
  if g = y.tag (lineOf sp a) then y else y.setTag (lineOf sp a) g

theorem fills_modCore {w : State} {d : Nat} {f : Core → Core} {sp : Space} {e l : Nat} {bs : List Byte} {g : Tag}
    (hf : StoreOnly (w.core d) (f (w.core d)))
    (hb : ∀ sp' a, ((f (w.core d)).store sp').get a =
      if sp' = sp ∧ e ≤ a ∧ a < e + bs.length then bs.getD (a - e) 0 else ((w.core d).store sp').get a)
    (ht : ∀ j, (f (w.core d)).tag j = if j = l then g else (w.core d).tag j) : Fills w (w.modCore d f) d sp e bs l g where
  core := { whole := rfl, others := fun k hk => State.modCore_core_other _ _ hk }
  rest := by rw [State.modCore_core_same]; exact hf
  bytes := fun sp' a => by rw [State.modCore_core_same]; exact hb sp' a
  tags := fun j => by rw [State.modCore_core_same]; exact ht j

theorem fills_filledCore (w : State) (d : Nat) {sp : Space} (hs : sp ≠ .e) (a : Nat) (bs : List Byte)
    (poison sets ends whole bad : Bool) : Fills w (w.modCore d (filledCore sp a bs poison sets ends whole bad)) d sp a bs (lineOf sp a)
      (unitTag poison sets ends whole bad ((w.core d).tag (lineOf sp a))) := by
  refine fills_modCore ?_ (fun sp' b => ?_) (fun j => ?_)
  all_goals simp only [filledCore, tag_stBytes]
  all_goals split
  · exact storeOnly_stBytes _ _ _ _
  · exact (storeOnly_stBytes _ _ _ _).trans (storeOnly_setTag _ _ _)
  · exact get_stBytes _ hs _ _ _ _
  · rw [Core.store_setTag]
    exact get_stBytes _ hs _ _ _ _
  · next hsame =>
    rw [tag_stBytes]
    split
    · next hj => rw [hj, hsame]
    · rfl
  · rw [Core.tag_setTag, tag_stBytes]
    simp only [eq_comm]

section
variable {w : State} {d : Nat} {sp : Space} {a hi : Nat} (hs : sp ≠ .e) (ha : a + 8 ≤ hi) (hhi : hi ≤ limitOf sp)
  (hd : (w.core d).drain = [])
include hs ha hhi hd

/-- A command that may write a line writes a unit of it. -/
theorem fillUnit_fills {me : Nat × Nat} {t tagged : Bool} (ht : t = true → tagged = true ∨ w.mayWrite d (lineOf sp a) me = true)
    (k : Bool) (lo : Nat) (bs : List Byte) (bad before : Bool) :
    ∃ u, w.fillUnit me d sp a bs bad t k tagged lo hi before = some u ∧
      Fills w u d sp a bs (lineOf sp a) (filledTag a lo hi (t && !k) bad before ((w.core d).tag (lineOf sp a))) := by
  have hfree : (t && !tagged && !w.failing d && !w.mayWrite d (lineOf sp a) me) = false := by
    cases ht' : t with
    | false => rfl
    | true => rcases ht ht' with h | h <;> simp [h]
  have htag : filledTag a lo hi (t && !k) bad before ((w.core d).tag (lineOf sp a)) =
      unitTag bad (t && !k) (lineEnds a hi) (decide (lo ≤ lineAddr (lineOf sp a)) && decide (lineAddr (lineOf sp a) + 256 ≤ hi)) before
        ((w.core d).tag (lineOf sp a)) := by
    rw [unitTag_eq, lineEnds_eq, lineAddr_lineOf hs (by omega), ← Bool.decide_and]
    rfl
  refine ⟨w.modCore d (filledCore sp a bs bad (t && !k) (lineEnds a hi)
    (decide (lo ≤ lineAddr (lineOf sp a)) && decide (lineAddr (lineOf sp a) + 256 ≤ hi)) before), ?_, ?_⟩
  · unfold State.fillUnit
    simp only [hfree, pendingDrain_none hd, Bool.or_self, Bool.false_eq_true, if_false]
    rfl
  · rw [htag]
    exact fills_filledCore w d hs a bs bad _ _ _ _

omit hs ha hhi in
/-- A command that may read a line reads a unit of it. -/
theorem drawUnit_reads {id : Nat} {t tagged : Bool} (ht : t = true → tagged = true ∨ w.mayRead d (lineOf sp a) (d, id) = true)
    (k colour : Bool) : w.drawUnit d id colour sp a t k tagged hi = some (((w.core d).store sp).read a 8,
      ((w.core d).tag (lineOf sp a)).p, spentAt w d (lineOf sp a) (t && !k && decide ((a + 8) % 256 = 0 ∨ a + 8 = hi))) := by
  have hfree : (t && !tagged && !w.failing d && !w.mayRead d (lineOf sp a) (d, id)) = false := by
    cases ht' : t with
    | false => rfl
    | true => rcases ht ht' with h | h <;> simp [h]
  unfold State.drawUnit
  simp only [hfree, hd, List.contains_nil, Bool.and_false, Bool.false_and, Bool.or_self, Bool.false_eq_true, if_false, lineEnds_eq]
  rfl

end

/-! A line spent leaves the rest. -/

section
variable (s : State) (c l : Nat) (hit : Bool)

theorem spentAt_core (d : Nat) : (spentAt s c l hit).core d =
    if hit && decide (d = c) then (s.core c).setTag l { (s.core c).tag l with u := true } else s.core d := by
  cases hit with
  | false => rfl
  | true =>
    rw [Bool.true_and, spentAt, if_pos rfl]
    by_cases hd : d = c
    · subst hd
      rw [if_pos (decide_eq_true rfl)]
      exact State.modCore_core_same s d _
    · rw [if_neg (by simpa using hd)]
      exact State.modCore_core_other s _ hd

theorem spentAt_flat : (spentAt s c l hit).flat = s.flat := by cases hit <;> rfl
theorem spentAt_sys : (spentAt s c l hit).sys = s.sys := by cases hit <;> rfl

theorem spentAt_storeOnly (d : Nat) : StoreOnly (s.core d) ((spentAt s c l hit).core d) := by
  rw [spentAt_core]
  split
  · next h =>
    obtain rfl : d = c := by simpa using (Bool.and_eq_true_iff.1 h).2
    exact storeOnly_setTag _ _ _
  · exact rfl

end

end Sys2Proof
end

section
/-! One unit of a transfer: the global operand, the local line, and the engine's step with each (R129, R133, R134, R138
to R140, R144, R442). -/

namespace Sys2Proof

open Sys2Proof.Machine

/-! The step of the engine goes to the command's own. -/

section
variable {s : State} {c : Nat} {p : PgeCmd} (h : EngineTurn s c p)
include h

theorem EngineTurn.not_discarded : p.bind ≠ .val false := by rw [h.bound]; simp

theorem EngineTurn.reads {x : XferArgs} (hpos : p.pos < p.units) (hi : p.ins = .get x ∨ p.ins = .grist x) :
    s.pgeStep c p.id = s.getStep c p x := by
  have hm : decide (p.units ≤ p.pos) = false := decide_eq_false (by omega)
  unfold State.pgeStep
  rcases hi with hi | hi
  all_goals simp only [h.pgeOf, h.over, h.ready, h.not_discarded, hi, hm, Bool.false_and, Bool.false_eq_true, Bool.not_true, if_false]

theorem EngineTurn.writes {x : XferArgs} (hpos : p.pos < p.units) (hi : p.ins = .put x ∨ p.ins = .gristScatter x) :
    s.pgeStep c p.id = s.putStep c p x := by
  have hm : decide (p.units ≤ p.pos) = false := decide_eq_false (by omega)
  unfold State.pgeStep
  rcases hi with hi | hi
  all_goals simp only [h.pgeOf, h.over, h.ready, h.not_discarded, hi, hm, Bool.false_and, Bool.false_eq_true, Bool.not_true, if_false]

theorem EngineTurn.copies {x : CopyArgs} (hi : p.ins = .cpy x ∨ p.ins = .sendD x ∨ p.ins = .sendP x) :
    s.pgeStep c p.id = s.copyStep c p x := by
  unfold State.pgeStep
  rcases hi with hi | hi | hi
  all_goals simp only [h.pgeOf, h.over, h.ready, h.not_discarded, hi, Bool.false_and, Bool.false_eq_true, Bool.not_true, if_false]

theorem EngineTurn.sends {x : InboxArgs} (hi : p.ins = .sendI x) : s.pgeStep c p.id = s.inboxStep c p x := by
  unfold State.pgeStep
  simp only [h.pgeOf, h.over, h.ready, h.not_discarded, hi, Bool.false_and, Bool.false_eq_true, Bool.not_true, if_false]

end

/-! The global operand of a unit. -/

section
variable {s : State} {c : Nat} {p : PgeCmd} {u : Nat} {e : TlbEntry} (hf : (s.core c).ahead p.id = []) (hc : Calm s)
include hf

section
variable (hlin : isLin p.ins = false) (hpa : e.phys (p.unitVa u) < Config.hbmSize)
include hc hlin hpa

theorem gRead_flat (ht : Hits s c p.sup .read (p.unitVa u) e) :
    s.gRead c p u = .got (s.flat.hbm.read (e.phys (p.unitVa u)) 8)
      (s.hbmPoisoned (e.phys (p.unitVa u)) 8 || s.lostAt (dieOf c) (e.phys (p.unitVa u)) 8) s := by
  have hrange : rangeOf (e.phys (p.unitVa u)) = .hbm := if_pos hpa
  have hread : s.readHbm c (e.phys (p.unitVa u)) 8 = .ok (s.flat.hbm.read (e.phys (p.unitVa u)) 8,
      s.hbmPoisoned (e.phys (p.unitVa u)) 8 || s.lostAt (dieOf c) (e.phys (p.unitVa u)) 8) := by
    rw [State.readHbm, State.hbmRead, State.rmLock, hc.locks]; rfl
  unfold State.gRead
  simp only [hlin, Bool.false_eq_true, if_false, xlate_of_hits ht, hrange, channelFree_first hf, Bool.not_true, recall_idle hc.lines, hread]

theorem gWrite_flat (ht : Hits s c p.sup .write (p.unitVa u) e) (hrm : e.rm = false) (bs : List Byte) (act : PoisonAct) :
    s.gWrite c p u bs act = .put (s.hbmWrite (e.phys (p.unitVa u)) bs act) := by
  have hrange : rangeOf (e.phys (p.unitVa u)) = .hbm := if_pos hpa
  have hnote : s.noteManifest p.asid (p.unitVa u) bs.length = s := by rw [State.noteManifest, job_none hc.jobs]
  have hput : s.putHbm (p.who c) e.rm (p.unitVa u) (e.phys (p.unitVa u)) bs act = s.hbmWrite (e.phys (p.unitVa u)) bs act := by
    unfold State.putHbm
    rw [recall_idle hc.lines, show (p.who c).asid = p.asid from rfl, hnote, hrm]
    rfl
  have hwrite : s.writeHbm (p.who c) e (p.unitVa u) bs act = (true, s.hbmWrite (e.phys (p.unitVa u)) bs act) := by
    unfold State.writeHbm
    simp only [State.rmLock, hc.locks, List.find?_nil, Option.isSome_none, Bool.false_eq_true, if_false,
      newFor_none (job_none hc.jobs _), hput]
  unfold State.gWrite
  simp only [hlin, Bool.false_eq_true, if_false, xlate_of_hits ht, hrange, channelFree_first hf, Bool.not_true, hwrite]

end

section
variable (hlin : isLin p.ins = true) (hva : p.va.toNat < 2 ^ 32)
include hlin hva

theorem gRead_node {bs : List Byte} {bad : Bool}
    (hr : s.readNode p.asid (p.va.setWidth 32) (p.vc.toNat + 8 * u) = .ok (bs, bad)) : s.gRead c p u = .got bs bad s := by
  have hr' : s.readNode p.asid (p.va.truncate 32) (p.vc.toNat + 8 * u) = .ok (bs, bad) := hr
  unfold State.gRead
  simp only [hlin, if_true, Nat.div_eq_of_lt hva, ne_eq, not_true_eq_false, if_false, channelFree_first hf, Bool.not_true,
    Bool.false_eq_true, hr']

theorem gWrite_node {bs : List Byte} {act : PoisonAct} {t : State}
    (hw : s.writeNode (p.who c) (p.va.setWidth 32) (p.vc.toNat + 8 * u) bs (act = .set) (act = .clear) = .ok t) :
    s.gWrite c p u bs act = .put t := by
  have hw' : s.writeNode (p.who c) (p.va.truncate 32) (p.vc.toNat + 8 * u) bs (act = .set) (act = .clear) = .ok t := hw
  unfold State.gWrite
  simp only [hlin, if_true, Nat.div_eq_of_lt hva, ne_eq, not_true_eq_false, if_false, channelFree_first hf, Bool.not_true,
    Bool.false_eq_true, hw']

end

end

/-- Where no job runs, a write of a node changes address spaces alone. -/
theorem writeNode_keeps {s t : State} {w : Who} {hd : Word32} {off : Nat} {bs : List Byte} {set whole : Bool} (hj : s.sys.jobs = [])
    (ht : s.writeNode w hd off bs set whole = .ok t) : t.cores = s.cores ∧ t.flat = s.flat := by
  have hchange : ∀ i bs', s.changeNode w i off bs' set whole = some t → t.cores = s.cores ∧ t.flat = s.flat := by
    intro i bs' hc
    unfold State.changeNode State.onVersions at hc
    rw [newFor_none (job_none hj _)] at hc
    simp only [interpose_idle (job_none hj _), Option.bind_some, State.putNode, Option.map_eq_some_iff] at hc
    obtain ⟨sp, -, rfl⟩ := hc
    exact ⟨rfl, rfl⟩
  unfold State.writeNode at ht
  simp only at ht
  split at ht
  · cases ht
  · split at ht
    · cases ht
    · split at ht
      · cases ht
      · split at ht
        · cases ht
        · split at ht
          · cases ht
          · next hc => cases ht; exact hchange _ _ hc

/-! The poison of the unit's sector. -/

/-- What a unit does to the poison of its sector: it poisons it, or clears it, or leaves it. -/
def unitAct (sets clears : Bool) : PoisonAct := if sets then .set else if clears then .clear else .keep

theorem poisonAct_eq (p : PgeCmd) (start off : Nat) (poison : Bool) :
    p.poisonAct start off poison = unitAct poison (!poison && decide (off % 32 = 24 ∧ start ≤ off / 32 * 32) && !p.badLine) := by
  unfold PgeCmd.poisonAct unitAct
  cases poison with
  | true => rfl
  | false =>
    by_cases hoff : off % 32 = 24 ∧ start ≤ off / 32 * 32
    · simp [hoff]
    · have hall : ¬ (off % 32 = 24 ∧ start ≤ off / 32 * 32 ∧ p.badLine = false) := fun h => hoff ⟨h.1, h.2.1⟩
      simp [hoff, hall]

/-- A unit lies in one sector. -/
theorem mem_sectorsIn_unit {pa : Nat} (hpa : pa % 8 = 0) (k : Nat) : k ∈ sectorsIn pa 8 ↔ k = pa / 32 := by
  obtain ⟨m, rfl⟩ := Nat.dvd_of_mod_eq_zero hpa
  have hlast : (8 * m + 7) / (8 * 4) = 8 * m / (8 * 4) := by
    rw [← Nat.div_div_eq_div_mul, ← Nat.div_div_eq_div_mul, Nat.mul_add_div (by decide), Nat.mul_div_cancel_left _ (by decide)]
    rfl
  rw [mem_sectorsIn]
  exact ⟨fun ⟨_, hlo, hhi⟩ => le_antisymm (hhi.trans_eq hlast) hlo, fun h => ⟨by decide, h.ge, h.le.trans_eq hlast.symm⟩⟩

/-- A unit is no whole sector. -/
theorem notMem_sectorsWhole_unit (pa k : Nat) : k ∉ sectorsWhole pa 8 := by
  rw [mem_sectorsWhole]
  exact fun ⟨hlo, hhi⟩ => absurd (hhi.trans (Nat.add_le_add_right hlo 8)) (Nat.not_le.2 (Nat.add_lt_add_left (by decide) _))

theorem writesUnit_hbmWrite (s : State) {pa : Nat} (hpa : pa % 8 = 0) {bs : List Byte} (hb : bs.length = 8) {sets clears : Bool}
    (hx : sets = true → clears = false) : WritesUnit s (s.hbmWrite pa bs (unitAct sets clears)) pa bs sets clears where
  whole := rfl
  bytes := fun a => by simp only [State.hbmWrite, State.modFlat]; exact Mem.get_write _ _ _ _
  poison := fun k => by
    have hin := mem_sectorsIn_unit hpa k
    have hno := notMem_sectorsWhole_unit pa k
    simp only [State.hbmWrite, State.modFlat, applyPoison, hb, setPoison_get, unitAct]
    cases sets with
    | true => simp [PoisonAct.sets, PoisonAct.clears, hin]
    | false => cases clears <;> simp [PoisonAct.sets, PoisonAct.clears, hno]
  lost := fun k die hd => by
    have hno := notMem_sectorsWhole_unit pa k
    simp only [State.hbmWrite, State.modFlat, hb, setPoison_get, mem_replicas _ _ _ hd, unitAct]
    cases sets with
    | true => simp [PoisonAct.clears, hx rfl]
    | false => cases clears <;> simp [PoisonAct.clears, hno, Bool.and_comm]

end Sys2Proof
end

section
/-! The engine's step with one unit of GET, PUT, GRIST and a scatter (R129, R133, R134, R138, R139, R144, R442). -/

namespace Sys2Proof

open Sys2Proof.Machine

/-! The flat addresses of GRIST's units. -/

section
variable {p : PgeCmd} {x : XferArgs} (hi : p.ins = .grist x ∨ p.ins = .gristScatter x)
include hi

theorem units_grist (hbs : 8 ≤ p.vc.toNat % 2 ^ 24) (h8 : p.vc.toNat % 2 ^ 24 % 8 = 0) (hlen : x.len.toNat % 8 = 0)
    (hix : p.vc.toNat / 2 ^ 39 % 2 ^ 15 < p.vc.toNat / 2 ^ 24 % 2 ^ 15) : p.units = (List.range (x.len.toNat / 8)).countP (fun u =>
      decide (8 * u / (p.vc.toNat % 2 ^ 24) % (p.vc.toNat / 2 ^ 24 % 2 ^ 15) = p.vc.toNat / 2 ^ 39 % 2 ^ 15)) := by
  have hcount : p.units = (gristOf p.vc).count x.len.toNat / 8 := by
    unfold PgeCmd.units
    rcases hi with h | h <;> rw [h]
  rw [hcount, gristOf_fields, grist_count _ hbs h8 hlen hix, Nat.mul_div_cancel_left _ (by decide)]

theorem unitVa_grist (u : Nat) : p.unitVa u = p.va.toNat + (8 * u / (p.vc.toNat % 2 ^ 24) * (p.vc.toNat / 2 ^ 24 % 2 ^ 15) +
    p.vc.toNat / 2 ^ 39 % 2 ^ 15) * (p.vc.toNat % 2 ^ 24) + 8 * u % (p.vc.toNat % 2 ^ 24) := by
  have hplace : p.unitVa u = p.va.toNat + (gristOf p.vc).place (8 * u) := by
    unfold PgeCmd.unitVa
    rcases hi with h | h <;> rw [h]
  rw [hplace, gristOf_fields, Grist.place, Nat.add_assoc, Nat.add_comm (p.vc.toNat / 2 ^ 39 % 2 ^ 15)]

end

theorem runStart_put {p : PgeCmd} {x : XferArgs} (hi : p.ins = .put x) (u : Nat) :
    p.runStart u = if x.lin then p.vc.toNat else p.va.toNat := by
  rw [PgeCmd.runStart, hi]
  rfl

theorem runStart_scatter {p : PgeCmd} {x : XferArgs} (hi : p.ins = .gristScatter x) (u : Nat) (hbs : 0 < p.vc.toNat % 2 ^ 24) :
    p.runStart u = if p.vc.toNat / 2 ^ 24 % 2 ^ 15 = 1 then p.va.toNat else p.va.toNat +
      (8 * u / (p.vc.toNat % 2 ^ 24) * (p.vc.toNat / 2 ^ 24 % 2 ^ 15) + p.vc.toNat / 2 ^ 39 % 2 ^ 15) * (p.vc.toNat % 2 ^ 24) := by
  simp only [PgeCmd.runStart, hi, gristOf_fields, Grist.place, Nat.mul_div_cancel _ hbs, Nat.mul_mod_left, Nat.add_zero]
  rw [Nat.add_comm (p.vc.toNat / 2 ^ 39 % 2 ^ 15)]
  split <;> rfl

section
variable {s : State} {c : Nat} {p : PgeCmd} {x : XferArgs}

/-- One unit of a transfer that reads (R138). -/
theorem getStep_advances (h : EngineTurn s c p) (hx : p.ins = .get x ∨ p.ins = .grist x) (hpos : p.pos < p.units)
    (hsp : x.lsp ≠ .e) (hhi : p.vb.toNat + 8 * p.units ≤ limitOf x.lsp) {bytes : List Byte} {bad : Bool}
    (hr : s.gRead c p p.pos = .got bytes bad s)
    (ht : x.t = true → p.tagged = true ∨ s.mayWrite c (lineOf x.lsp (p.vb.toNat + 8 * p.pos)) (c, p.id) = true) :
    ∃ u, Fills s u c x.lsp (p.vb.toNat + 8 * p.pos) bytes (lineOf x.lsp (p.vb.toNat + 8 * p.pos))
        (filledTag (p.vb.toNat + 8 * p.pos) p.vb.toNat (p.vb.toNat + 8 * p.units) (x.t && !x.k) bad p.badLine
          ((s.core c).tag (lineOf x.lsp (p.vb.toNat + 8 * p.pos)))) ∧
      Advances u (s.getStep c p x) c p { p with
        prog := if p.units ≤ p.pos + 1 then .ended 0 0 else .running, pos := p.pos + 1, outUnits := []
        tagged := !lineEnds (p.vb.toNat + 8 * p.pos) (p.vb.toNat + 8 * p.units), dtagged := false
        badLine := !lineEnds (p.vb.toNat + 8 * p.pos) (p.vb.toNat + 8 * p.units) && (p.badLine || bad) } := by
  have hfree : (x.t && !p.tagged && !s.failing c && !s.mayWrite c (lineOf x.lsp (p.vb.toNat + 8 * p.pos)) (c, p.id)) = false := by
    cases ht' : x.t with
    | false => rfl
    | true => rcases ht ht' with h | h <;> simp [h]
  have hheld : s.heldLocally c p = false := by
    unfold State.heldLocally
    rcases hx with hx | hx <;> simp only [hx, hfree, pendingDrain_none (h.drained c), Bool.or_self]
  obtain ⟨u, hu, hf⟩ := fillUnit_fills hsp (by omega) hhi (h.drained c) ht x.k p.vb.toNat bytes bad p.badLine
  have hjobs : u.sys.jobs = [] := by rw [hf.core.whole]; exact h.calm.jobs
  have hone : ∀ q ∈ (u.core c).pge, q.id = p.id → q = p := by rw [hf.rest]; exact h.one
  have hlocks : u.flat.rmWrites = [] := by rw [hf.core.whole]; exact h.calm.locks
  refine ⟨u, hf, ?_⟩
  unfold State.getStep
  simp only [hheld, Bool.false_eq_true, if_false, hr, hu, infl_none hjobs, countIfOld_none hjobs, ite_self]
  exact advances_nextUnit hone hlocks _ _ _

/-- One unit of a transfer that writes (R138). -/
theorem putStep_advances {bytes : List Byte} {poison : Bool} {w u : State}
    (hw : s.drawUnit c p.id p.colour x.lsp (p.vb.toNat + 8 * p.pos) x.t x.k p.tagged (p.vb.toNat + 8 * p.units) = some (bytes, poison, w))
    (hg : w.gWrite c p p.pos bytes (p.poisonAct (p.runStart p.pos) (p.unitOff p.pos) poison) = .put u)
    (hone : ∀ q ∈ (u.core c).pge, q.id = p.id → q = p) (hlocks : u.flat.rmWrites = []) :
    Advances u (s.putStep c p x) c p { p with
      prog := if p.units ≤ p.pos + 1 then .ended 0 0 else .running, pos := p.pos + 1, outUnits := []
      tagged := !lineEnds (p.vb.toNat + 8 * p.pos) (p.vb.toNat + 8 * p.units), dtagged := false
      badLine := (p.badLine || poison) && decide (p.unitOff (p.pos + 1) / 32 = p.unitOff p.pos / 32) } := by
  unfold State.putStep
  simp only [hw, hg]
  exact advances_nextUnit hone hlocks _ _ _

end

/-! A state whose line has been spent stands as calm as before. -/

section
variable {s : State} (c l : Nat) (hit : Bool)

theorem calm_spentAt (h : Calm s) : Calm (spentAt s c l hit) where
  jobs := by rw [spentAt_sys]; exact h.jobs
  locks := by rw [spentAt_flat]; exact h.locks
  waiters := by rw [spentAt_flat]; exact h.waiters
  lines := fun q hq => by
    cases hit with
    | false => exact h.lines q hq
    | true =>
      rcases AMap.mem_put hq with rfl | hq
      · rcases AMap.get_eq_or_mem {} s.cores c with hc | hc
        · show (s.core c).linebuf = []
          rw [State.core, hc]
        · exact (h.lines _ hc : (s.core c).linebuf = [])
      · exact h.lines q hq

theorem hits_spentAt {d va : Nat} {sup : Bool} {k : Kind} {e : TlbEntry} (h : Hits s d sup k va e) :
    Hits (spentAt s c l hit) d sup k va e := by
  have htlb : ((spentAt s c l hit).core d).tlb = (s.core d).tlb := by rw [spentAt_storeOnly s c l hit d]
  have hasid : ((spentAt s c l hit).core d).curAsid = (s.core d).curAsid := by rw [spentAt_storeOnly s c l hit d]
  rw [Hits, htlb, hasid]
  exact h

theorem pge_spentAt (d : Nat) : ((spentAt s c l hit).core d).pge = (s.core d).pge := by rw [spentAt_storeOnly s c l hit d]

end

theorem unitAct_eq_set (sets clears : Bool) : decide (unitAct sets clears = .set) = sets := by
  cases sets <;> cases clears <;> rfl

theorem unitAct_eq_clear {sets clears : Bool} (h : sets = true → clears = false) :
    decide (unitAct sets clears = .clear) = clears := by
  cases sets with
  | true => rw [h rfl]; rfl
  | false => cases clears <;> rfl

/-! The four transfers. -/

section
variable {s : State} {c : Nat} {p : PgeCmd} (h : EngineTurn s c p)
include h

/-- A unit written to HBM from a local line (R133, R442). -/
theorem EngineTurn.put_flat {x : XferArgs} (hx : p.ins = .put x ∧ x.lin = false ∨ p.ins = .gristScatter x) (hpos : p.pos < p.units)
    {l : Nat} (hl : l = lineOf x.lsp (p.vb.toNat + 8 * p.pos))
    (ht : x.t = true → p.tagged = true ∨ s.mayRead c l (c, p.id) = true) {last : Bool}
    (hlast : last = lineEnds (p.vb.toNat + 8 * p.pos) (p.vb.toNat + 8 * p.units)) {e : TlbEntry}
    (hh : Hits s c p.sup .write (p.unitVa p.pos) e) (hrm : e.rm = false) (hpa : e.phys (p.unitVa p.pos) < Config.hbmSize)
    (h8 : e.phys (p.unitVa p.pos) % 8 = 0) :
    ∃ u, WritesUnit (spentAt s c l (x.t && !x.k && last)) u (e.phys (p.unitVa p.pos))
        (((s.core c).store x.lsp).read (p.vb.toNat + 8 * p.pos) 8) ((s.core c).tag l).p
        (!((s.core c).tag l).p && decide (p.unitVa p.pos % 32 = 24 ∧ p.runStart p.pos ≤ p.unitVa p.pos / 32 * 32) && !p.badLine) ∧
      Advances u (s.pgeStep c p.id) c p { p with
        prog := if p.units ≤ p.pos + 1 then .ended 0 0 else .running, pos := p.pos + 1, outUnits := []
        tagged := !last, dtagged := false
        badLine := (p.badLine || ((s.core c).tag l).p) && decide (p.unitVa (p.pos + 1) / 32 = p.unitVa p.pos / 32) } := by
  subst hl hlast
  have hlin : isLin p.ins = false := by
    rcases hx with ⟨hi, hlin⟩ | hi <;> rw [hi]
    · exact hlin
    · rfl
  have hoff : ∀ i, p.unitOff i = p.unitVa i := fun i => by rw [PgeCmd.unitOff, hlin]; rfl
  have hdraw := drawUnit_reads (hi := p.vb.toNat + 8 * p.units) (h.drained c) ht x.k p.colour
  rw [← lineEnds_eq] at hdraw
  have hpge := pge_spentAt (s := s) c (lineOf x.lsp (p.vb.toNat + 8 * p.pos))
    (x.t && !x.k && lineEnds (p.vb.toNat + 8 * p.pos) (p.vb.toNat + 8 * p.units)) c
  have hwrite := gWrite_flat (by rw [Core.ahead, hpge]; exact h.ahead) (calm_spentAt c _ _ h.calm) hlin hpa (hits_spentAt c _ _ hh) hrm
    (((s.core c).store x.lsp).read (p.vb.toNat + 8 * p.pos) 8)
    (p.poisonAct (p.runStart p.pos) (p.unitOff p.pos) ((s.core c).tag (lineOf x.lsp (p.vb.toNat + 8 * p.pos))).p)
  have hadv := putStep_advances hdraw hwrite (hpge ▸ h.one) ((congrArg Flat.rmWrites (spentAt_flat s c _ _)).trans h.calm.locks)
  rw [h.writes hpos (hx.imp And.left id)]
  simp only [hoff, poisonAct_eq] at hadv
  exact ⟨_, writesUnit_hbmWrite _ h8 (by simp) (fun hp => by rw [hp]; rfl), hadv⟩

/-- A unit written to a node from a local line (R144). -/
theorem EngineTurn.put_node {x : XferArgs} (hx : p.ins = .put x) (hlin : x.lin = true) (hva : p.va.toNat < 2 ^ 32)
    (hpos : p.pos < p.units) {l : Nat} (hl : l = lineOf x.lsp (p.vb.toNat + 8 * p.pos))
    (ht : x.t = true → p.tagged = true ∨ s.mayRead c l (c, p.id) = true) {last : Bool}
    (hlast : last = lineEnds (p.vb.toNat + 8 * p.pos) (p.vb.toNat + 8 * p.units)) {u : State}
    (hu : (spentAt s c l (x.t && !x.k && last)).writeNode (p.who c) (p.va.setWidth 32) (p.vc.toNat + 8 * p.pos)
      (((s.core c).store x.lsp).read (p.vb.toNat + 8 * p.pos) 8) ((s.core c).tag l).p
      (!((s.core c).tag l).p && decide ((p.vc.toNat + 8 * p.pos) % 32 = 24 ∧ p.vc.toNat ≤ (p.vc.toNat + 8 * p.pos) / 32 * 32) &&
        !p.badLine) = .ok u) :
    Advances u (s.pgeStep c p.id) c p { p with
      prog := if p.units ≤ p.pos + 1 then .ended 0 0 else .running, pos := p.pos + 1, outUnits := []
      tagged := !last, dtagged := false
      badLine := (p.badLine || ((s.core c).tag l).p) && decide ((p.vc.toNat + 8 * (p.pos + 1)) / 32 = (p.vc.toNat + 8 * p.pos) / 32) } := by
  subst hl hlast
  have hisLin : isLin p.ins = true := by rw [hx]; exact hlin
  have hoff : ∀ i, p.unitOff i = p.vc.toNat + 8 * i := fun i => by rw [PgeCmd.unitOff, if_pos hisLin]
  have hstart : p.runStart p.pos = p.vc.toNat := (runStart_put hx _).trans (if_pos hlin)
  have hdraw := drawUnit_reads (hi := p.vb.toNat + 8 * p.units) (h.drained c) ht x.k p.colour
  rw [← lineEnds_eq] at hdraw
  have hpge := pge_spentAt (s := s) c (lineOf x.lsp (p.vb.toNat + 8 * p.pos))
    (x.t && !x.k && lineEnds (p.vb.toNat + 8 * p.pos) (p.vb.toNat + 8 * p.units)) c
  obtain ⟨hcores, hflat⟩ := writeNode_keeps (calm_spentAt c _ _ h.calm).jobs hu
  have hqueue : (u.core c).pge = (s.core c).pge := by rw [State.core, hcores]; exact hpge
  have hact := poisonAct_eq p (p.runStart p.pos) (p.unitOff p.pos) ((s.core c).tag (lineOf x.lsp (p.vb.toNat + 8 * p.pos))).p
  rw [hoff, hstart] at hact
  have hadv := putStep_advances (u := u) hdraw (by
    rw [hoff, hstart, hact]
    refine gWrite_node (by rw [Core.ahead, hpge]; exact h.ahead) hisLin hva ?_
    rw [unitAct_eq_set, unitAct_eq_clear]
    · exact hu
    · intro hp
      rw [hp]
      rfl) (by rw [hqueue]; exact h.one) (by rw [hflat, spentAt_flat]; exact h.calm.locks)
  rw [h.writes hpos (.inl hx)]
  simp only [hoff] at hadv
  exact hadv

end

end Sys2Proof
end

section
/-! The engine's step with one unit of CPY and of the sends (R87, R129, R134, R140, R262). -/

namespace Sys2Proof

open Sys2Proof.Machine

/-! Who holds a line, once another has been spent. -/

section
variable {s : State} {c l : Nat} {hit : Bool}

theorem destOf_spentAt (d : Nat) (q : PgeCmd) : (spentAt s c l hit).destOf d q = s.destOf d q := by
  have hteam : ((spentAt s c l hit).core d).team = (s.core d).team := by rw [spentAt_storeOnly s c l hit d]
  have hsys : (spentAt s c l hit).team = s.team := by unfold State.team; rw [spentAt_sys]
  simp only [State.destOf, State.teamOf, hteam, hsys]

theorem cores_spentAt {y : Nat × Core} (hy : y ∈ (spentAt s c l hit).cores) {q : PgeCmd} (hq : q ∈ y.2.pge) :
    ∃ z ∈ s.cores, z.1 = y.1 ∧ q ∈ z.2.pge := by
  cases hit with
  | false => exact ⟨y, hy, rfl, hq⟩
  | true =>
    rcases AMap.mem_put hy with rfl | hy
    · rcases AMap.get_eq_or_mem {} s.cores c with hc | hc
      · have hq' : q ∈ (s.core c).pge := hq
        rw [State.core, hc] at hq'
        cases hq'
      · exact ⟨_, hc, rfl, hq⟩
    · exact ⟨y, hy, rfl, hq⟩

theorem lineHeld_spentAt {d m : Nat} {write : Bool} {me : Nat × Nat} (h : (spentAt s c l hit).lineHeld d m write me = true) :
    s.lineHeld d m write me = true := by
  have hmx : ((spentAt s c l hit).core d).mx = (s.core d).mx := by rw [spentAt_storeOnly s c l hit d]
  unfold State.lineHeld at h ⊢
  simp only [pge_spentAt, hmx, Bool.or_eq_true] at h ⊢
  refine h.imp_right (fun h => ?_)
  obtain ⟨y, hy, hany⟩ := List.any_eq_true.1 h
  obtain ⟨q, hq, hsent⟩ := List.any_eq_true.1 hany
  obtain ⟨z, hz, hzy, hqz⟩ := cores_spentAt hy hq
  rw [destOf_spentAt, ← hzy] at hsent
  exact List.any_eq_true.2 ⟨z, hz, List.any_eq_true.2 ⟨q, hqz, hsent⟩⟩

/-- A line that may be written may still be once a line has been spent. -/
theorem mayWrite_spentAt {d m : Nat} {me : Nat × Nat} (h : s.mayWrite d m me = true) : (spentAt s c l hit).mayWrite d m me = true := by
  have htag : ((s.core d).tag m).writable = true → (((spentAt s c l hit).core d).tag m).writable = true := by
    rw [spentAt_core]
    split
    · next hd =>
      obtain rfl : d = c := by simpa using (Bool.and_eq_true_iff.1 hd).2
      rw [Core.tag_setTag]
      split
      · next hm => simp [Tag.writable]
      · exact id
    · exact id
  have hheld : (spentAt s c l hit).lineHeld d m true me = false := by
    have hfree : s.lineHeld d m true me = false := by simpa [State.mayWrite] using (Bool.and_eq_true_iff.1 h).2
    exact Bool.eq_false_iff.2 (fun hx => Bool.eq_false_iff.1 hfree (lineHeld_spentAt hx))
  rw [State.mayWrite, hheld, htag (Bool.and_eq_true_iff.1 h).1]
  rfl

end

/-! Copies and sends. -/

/-- Filling a local line leaves every queue of commands. -/
theorem Fills.pge {s t : State} {d e l : Nat} {sp : Space} {bs : List Byte} {g : Tag} (h : Fills s t d sp e bs l g) (c : Nat) :
    (t.core c).pge = (s.core c).pge := by
  by_cases hc : c = d
  · rw [hc, h.rest]
  · rw [h.core.others c hc]

theorem advances_endPge {s : State} {c : Nat} {p : PgeCmd} (hone : ∀ q ∈ (s.core c).pge, q.id = p.id → q = p) (st addr : Nat) :
    Advances s (s.endPge c p.id st addr) c p (endedAs p st (w64 addr)) :=
  advances_modPge hone (fun q => { q with prog := .ended st (w64 addr), outUnits := [] })

/-- Where no job runs, a delivery leaves no record. -/
theorem deliver1_none {s : State} (hj : s.sys.jobs = []) (c : Nat) (p : PgeCmd) (d : Nat) (last : Bool)
    (f : Option Nat → Infl × List Nat) (data : List Byte) : s.deliver1 c p d last f data = s := by
  unfold State.deliver1
  simp only [cutFor_none hj, infl_none hj, Bool.and_false, Bool.false_eq_true, if_false]

section
variable {s : State} {c : Nat} {p : PgeCmd} {t : Team} (h : EngineTurn s c p) (hteam : s.teamOf c = some t)
include h hteam

/-- A copy or send that names no core of its team, or one that takes nothing (R140). -/
theorem EngineTurn.rejected {x : CopyArgs} {y : InboxArgs}
    (hi : (p.ins = .cpy x ∨ p.ins = .sendD x ∨ p.ins = .sendP x) ∨ p.ins = .sendI y)
    (hout : ¬ (p.va.toNat < t.width * t.height ∧ s.refuses c (t.coreOf p.va.toNat) = false)) :
    Advances s (s.pgeStep c p.id) c p (endedAs p 22 p.va) := by
  have hend : Advances s (s.endPge c p.id causeSendReject p.va.toNat) c p (endedAs p 22 p.va) := by
    have hva : w64 p.va.toNat = p.va := by simp [w64]
    have hstep := advances_endPge h.one causeSendReject p.va.toNat
    rw [hva] at hstep
    exact hstep
  have hdest : s.destOf c p = if p.va.toNat < t.width * t.height then some (t.coreOf p.va.toNat) else none := by
    rw [State.destOf, hteam]
  have hcopy : ∀ z, s.copyStep c p z = s.endPge c p.id causeSendReject p.va.toNat := fun z => by
    unfold State.copyStep
    by_cases hrank : p.va.toNat < t.width * t.height
    · have hrefuses : s.refuses c (t.coreOf p.va.toNat) = true := by simpa [hrank] using hout
      simp only [hdest, hrank, hrefuses, if_true]
    · simp only [hdest, hrank, if_false]
  have hsend : ∀ z, s.inboxStep c p z = s.endPge c p.id causeSendReject p.va.toNat := fun z => by
    unfold State.inboxStep
    by_cases hrank : p.va.toNat < t.width * t.height
    · have hrefuses : s.refuses c (t.coreOf p.va.toNat) = true := by simpa [hrank] using hout
      simp only [hdest, hrank, hrefuses, if_true]
    · simp only [hdest, hrank, if_false]
  rcases hi with hi | hi
  · rw [h.copies hi, hcopy]
    exact hend
  · rw [h.sends hi, hsend]
    exact hend

/-- One unit of a copy (R87, R140). -/
theorem EngineTurn.copied {x : CopyArgs} (hi : p.ins = .cpy x ∨ p.ins = .sendD x ∨ p.ins = .sendP x)
    (hrank : p.va.toNat < t.width * t.height) (htakes : s.refuses c (t.coreOf p.va.toNat) = false) (hbuf : p.buffer = [])
    (hpos : p.pos < p.units) (hdsp : x.dsp ≠ .e) (hhi : p.vc.toNat + 8 * p.units ≤ limitOf x.dsp) {d m l : Nat}
    (hd : d = t.coreOf p.va.toNat) (hm : m = lineOf x.dsp (p.vc.toNat + 8 * p.pos)) (hl : l = lineOf x.lsp (p.vb.toNat + 8 * p.pos))
    (ht : x.t = true → p.tagged = true ∨ s.mayRead c l (c, p.id) = true)
    (hdt : x.dt = true → p.dtagged = true ∨ s.mayWrite d m (c, p.id) = true) {last dlast : Bool}
    (hlast : last = lineEnds (p.vb.toNat + 8 * p.pos) (p.vb.toNat + 8 * p.units))
    (hdlast : dlast = lineEnds (p.vc.toNat + 8 * p.pos) (p.vc.toNat + 8 * p.units)) {w : State}
    (hw : w = spentAt s c l (x.t && !x.k && last)) :
    ∃ u, Fills w u d x.dsp (p.vc.toNat + 8 * p.pos) (((s.core c).store x.lsp).read (p.vb.toNat + 8 * p.pos) 8) m
        (filledTag (p.vc.toNat + 8 * p.pos) p.vc.toNat (p.vc.toNat + 8 * p.units) (x.dt && !x.dk) ((s.core c).tag l).p p.badLine
          ((w.core d).tag m)) ∧
      Advances u (s.pgeStep c p.id) c p { p with
        prog := if p.units ≤ p.pos + 1 then .ended 0 0 else .running, pos := p.pos + 1, outUnits := []
        tagged := !last, dtagged := !dlast, badLine := !dlast && (p.badLine || ((s.core c).tag l).p) } := by
  subst hd hm hl hlast hdlast
  have hdest : s.destOf c p = some (t.coreOf p.va.toNat) := by rw [State.destOf, hteam]; exact if_pos hrank
  have hdraw := drawUnit_reads (hi := p.vb.toNat + 8 * p.units) (h.drained c) ht x.k p.colour
  rw [← lineEnds_eq, ← hw] at hdraw
  have hdrain : (w.core (t.coreOf p.va.toNat)).drain = [] := by
    rw [hw, spentAt_storeOnly s c _ _ (t.coreOf p.va.toNat)]
    exact h.drained _
  obtain ⟨u, hfill, hu⟩ := fillUnit_fills (w := w) (a := p.vc.toNat + 8 * p.pos) (me := (c, p.id)) hdsp (by omega) hhi hdrain
    (fun hx => (hdt hx).imp_right (fun hx => by rw [hw]; exact mayWrite_spentAt hx)) x.dk p.vc.toNat
    (((s.core c).store x.lsp).read (p.vb.toNat + 8 * p.pos) 8) ((s.core c).tag (lineOf x.lsp (p.vb.toNat + 8 * p.pos))).p p.badLine
  have hjobs : u.sys.jobs = [] := by
    rw [hu.core.whole, hw]
    exact (congrArg SysDie.jobs (spentAt_sys s c _ _)).trans h.calm.jobs
  have hlocks : u.flat.rmWrites = [] := by
    rw [hu.core.whole, hw]
    exact (congrArg Flat.rmWrites (spentAt_flat s c _ _)).trans h.calm.locks
  have hqueue : (u.core c).pge = (s.core c).pge := by
    rw [hu.pge, hw]
    exact pge_spentAt c _ _ c
  refine ⟨u, hu, ?_⟩
  have hadv := fun tg dtg bad => advances_nextUnit (p := p) (by rw [hqueue]; exact h.one) hlocks tg dtg bad
  rw [h.copies hi]
  unfold State.copyStep
  simp only [hbuf] at hadv
  simp only [hdest, htakes, copyHeld_first h.ahead, cutBefore_none h.calm.jobs, hbuf, hdraw, Bool.false_eq_true, if_false,
    State.copyWrite, hfill, Option.map_some, Option.getD_some, countIfOld_none hjobs, deliver1_none hjobs]
  exact hadv _ _ _

/-- One unit of a SEND.i's payload (R262). -/
theorem EngineTurn.sent {y : InboxArgs} (hi : p.ins = .sendI y) (hrank : p.va.toNat < t.width * t.height)
    (htakes : s.refuses c (t.coreOf p.va.toNat) = false) (hpos : p.pos < p.units) {l : Nat}
    (hl : l = lineOf y.lsp (p.vb.toNat + 8 * p.pos)) (ht : y.t = true → p.tagged = true ∨ s.mayRead c l (c, p.id) = true) {last : Bool}
    (hlast : last = lineEnds (p.vb.toNat + 8 * p.pos) (p.vb.toNat + 8 * p.units)) {w : State}
    (hw : w = spentAt s c l (y.t && !y.k && last)) :
    Advances w (s.pgeStep c p.id) c p { p with
      prog := .running, pos := p.pos + 1, tagged := !last
      img := p.img ++ ((s.core c).store y.lsp).read (p.vb.toNat + 8 * p.pos) 8
      poisoned := p.poisoned + b2n ((s.core c).tag l).p } := by
  subst hl hlast
  have hdest : s.destOf c p = some (t.coreOf p.va.toNat) := by rw [State.destOf, hteam]; exact if_pos hrank
  have hdraw := drawUnit_reads (hi := p.vb.toNat + 8 * p.units) (h.drained c) ht y.k p.colour
  rw [← lineEnds_eq, ← hw] at hdraw
  rw [h.sends hi]
  unfold State.inboxStep
  simp only [hdest, htakes, copyHeld_first h.ahead, hdraw, hpos, Bool.false_eq_true, if_false, if_true]
  exact advances_modPge (by rw [hw, pge_spentAt]; exact h.one) _

end

end Sys2Proof
end

section
/-! The obligation about the engine's transfers, from their issue and their units. -/

namespace Sys2Proof

open Sys2Proof.Machine

/-! Issue. -/

section
variable {s : State}

/-- A transfer of a row issues. -/
theorem xfer_issues {x : XferArgs} (ha : s.me.dbit x.a.val = false) (hb : s.me.dbit x.b.val = false)
    (hc : x.lin = true → s.me.dbit x.c.val = false) (hl : (s.me.sv x.b.val).toNat + x.len.toNat ≤ limitOf x.lsp)
    (h8 : (s.me.sv x.b.val).toNat % 8 = 0) (hg : (s.me.sv (if x.lin then x.c.val else x.a.val)).toNat % 8 = 0) {i : Instr}
    (hi : i = .get x ∨ i = .put x) (hm : MayIssue s i) :
    Issues s (exec i s) (s.me.pc + 12) i (s.me.sv x.a.val) (s.me.sv x.b.val) (s.me.sv x.c.val) [] := by
  have hissue := issues_enqueue s (s.me.pc + 12) i x.a.val x.b.val x.c.val [] hm
  rw [← finish_check (xferChecks_ok ha hb hc hl h8 hg)] at hissue
  rcases hi with rfl | rfl <;> exact hissue

/-- A transfer of blocks issues (R139). -/
theorem grist_issues {x : XferArgs} (hchk : gristChecks x s = .ok ()) {i : Instr} (hi : i = .grist x ∨ i = .gristScatter x)
    (hm : MayIssue s i) : Issues s (exec i s) (s.me.pc + 12) i (s.me.sv x.a.val) (s.me.sv x.b.val) (s.me.sv x.c.val) [] := by
  have hissue := issues_enqueue s (s.me.pc + 12) i x.a.val x.b.val x.c.val [] hm
  rw [← finish_check hchk] at hissue
  rcases hi with rfl | rfl <;> exact hissue

/-- A copy issues (R87). -/
theorem copy_issues {x : CopyArgs} (hchk : copyChecks x s = .ok ()) {i : Instr}
    (hi : i = .cpy x ∨ i = .sendD x ∨ i = .sendP x ∧ s.home.phase.open' = true) (hm : MayIssue s i) :
    Issues s (exec i s) (s.me.pc + 12) i (s.me.sv x.a.val) (s.me.sv x.b.val) (s.me.sv x.c.val) [] := by
  have hissue := issues_enqueue s (s.me.pc + 12) i x.a.val x.b.val x.c.val [] hm
  rw [← finish_check hchk] at hissue
  rcases hi with rfl | rfl | ⟨rfl, hopen⟩
  · exact hissue
  · exact hissue
  · have hexec : exec (.sendP x) s = finish s (s.me.pc + 12) (do
        copyChecks x s
        s.enqueue (.sendP x) x.a.val x.b.val x.c.val []) := by
      show execSendP x s = _
      rw [execSendP, hopen]
      rfl
    rw [hexec]
    exact hissue

/-- A SEND.p of a compute phase is held (R87). -/
theorem sendP_held {x : CopyArgs} (hchk : copyChecks x s = .ok ()) (hopen : s.home.phase.open' = false)
    (hq : s.home.sendq.length < 64) (hos : s.me.os ≠ 0xFFFF) :
    Leaves s (exec (.sendP x) s) (s.me.pc + 12) (issuedCtx (.sendP x) s.home.nextId) (fun y => { y with
      sendq := y.sendq ++ [newCommand s (.sendP x) (s.me.sv x.a.val) (s.me.sv x.b.val) (s.me.sv x.c.val) []]
      nextId := y.nextId + 1 }) := by
  have hexec : exec (.sendP x) s = finish s (s.me.pc + 12) (do
      copyChecks x s
      s.holdSend (.sendP x) x.a.val x.b.val x.c.val) := by
    show execSendP x s = _
    rw [execSendP, hopen]
    rfl
  rw [hexec, finish_check hchk]
  exact leaves_holdSend hq rfl hos

/-- A record for an inbox issues (R262). -/
theorem sendI_issues {x : InboxArgs} (ha : s.me.dbit x.a.val = false) (hb : s.me.dbit x.b.val = false)
    (hl : (s.me.sv x.b.val).toNat + x.len.toNat ≤ limitOf x.lsp) (h8 : (s.me.sv x.b.val).toNat % 8 = 0) (hm : MayIssue s (.sendI x)) :
    Issues s (exec (.sendI x) s) (s.me.pc + 12) (.sendI x) (s.me.sv x.a.val) (s.me.sv x.b.val) 0 [] := by
  have hissue := issues_enqueue s (s.me.pc + 12) (.sendI x) x.a.val x.b.val 0 [] hm
  have hregs : needAll s.me [x.a.val, x.b.val] = .ok () := needAll_ok (by simp [ha, hb])
  rw [← finish_check (localCheck_ok hl h8), ← finish_check hregs] at hissue
  exact hissue

end

/-! The forms of a transfer's global operand (R138, R139, R144). -/

section
variable {p : PgeCmd} {x : XferArgs}

theorem units_xfer (hi : p.ins = .get x ∨ p.ins = .put x) : p.units = x.len.toNat / 8 := by
  unfold PgeCmd.units
  rcases hi with hi | hi <;> rw [hi]

theorem unitVa_xfer (hi : p.ins = .get x ∨ p.ins = .put x) (u : Nat) : p.unitVa u = p.va.toNat + 8 * u := by
  unfold PgeCmd.unitVa
  rcases hi with hi | hi <;> rw [hi]

section
variable {units : Nat} {va : Nat → Nat}

/-- The units of a transfer of a row of flat memory. -/
theorem flat_row (hi : p.ins = .get x ∨ p.ins = .put x) (hlin : x.lin = false) (hu : units = x.len.toNat / 8)
    (hva : ∀ u, va u = p.va.toNat + 8 * u) : units = p.units ∧ isLin p.ins = false ∧ va = p.unitVa := by
  refine ⟨hu.trans (units_xfer hi).symm, ?_, funext (fun u => (hva u).trans (unitVa_xfer hi u).symm)⟩
  rcases hi with hi | hi
  all_goals
    rw [hi]
    exact hlin

/-- The units of a transfer of a participant's blocks. -/
theorem flat_blocks (hi : p.ins = .grist x ∨ p.ins = .gristScatter x) (hbs : 8 ≤ p.vc.toNat % 2 ^ 24)
    (h8 : p.vc.toNat % 2 ^ 24 % 8 = 0) (hlen : x.len.toNat % 8 = 0)
    (hix : p.vc.toNat / 2 ^ 39 % 2 ^ 15 < p.vc.toNat / 2 ^ 24 % 2 ^ 15) (hu : units = (List.range (x.len.toNat / 8)).countP (fun u =>
      decide (8 * u / (p.vc.toNat % 2 ^ 24) % (p.vc.toNat / 2 ^ 24 % 2 ^ 15) = p.vc.toNat / 2 ^ 39 % 2 ^ 15)))
    (hva : ∀ u, va u = p.va.toNat + (8 * u / (p.vc.toNat % 2 ^ 24) * (p.vc.toNat / 2 ^ 24 % 2 ^ 15) +
      p.vc.toNat / 2 ^ 39 % 2 ^ 15) * (p.vc.toNat % 2 ^ 24) + 8 * u % (p.vc.toNat % 2 ^ 24)) :
    units = p.units ∧ isLin p.ins = false ∧ va = p.unitVa := by
  refine ⟨hu.trans (units_grist hi hbs h8 hlen hix).symm, ?_, funext (fun u => (hva u).trans (unitVa_grist hi u).symm)⟩
  rcases hi with hi | hi <;> rw [hi] <;> rfl

end

theorem units_copy {y : CopyArgs} (hi : p.ins = .cpy y ∨ p.ins = .sendD y ∨ p.ins = .sendP y) : p.units = y.len.toNat / 8 := by
  unfold PgeCmd.units
  rcases hi with hi | hi | hi <;> rw [hi]

theorem units_sendI {y : InboxArgs} (hi : p.ins = .sendI y) : p.units = y.len.toNat / 8 := by
  unfold PgeCmd.units
  rw [hi]

end

/-- Settles O29: each command passes the checks of its issue; the engine's step with it then reads a unit, fills or writes the other
side of it, and moves on. -/
theorem transfersIssue : Obligations.TransfersIssue := by
  unfold Obligations.TransfersIssue
  refine ⟨fun x s => ⟨?_, ?_⟩, ?_, ?_, ?_⟩
  · rintro ⟨ha, hb⟩ hc hl h8 hg
    exact ⟨xfer_issues ha hb hc hl h8 hg (.inl rfl), xfer_issues ha hb hc hl h8 hg (.inr rfl)⟩
  · intro v bs np ix ⟨ha, hb⟩ hc hbs hbs' hbs8 hnp hnp' hix hv hl hlen hg
    have hcount : (gristOf (s.me.sv x.c.val)).count x.len.toNat =
        ((List.range (x.len.toNat / 8)).countP (fun u => decide (8 * u / bs % np = ix))) * 8 := by
      rw [gristOf_fields, grist_count _ hbs hbs8 hlen hix, Nat.mul_comm]
    have hchk : gristChecks x s = .ok () := by
      refine gristChecks_ok ha hb hc ?_ ?_ ?_ ?_ ?_ ?_ hv (hcount ▸ hl) hg
      all_goals rw [gristOf_fields]
      · exact hbs
      · exact hbs'
      · exact hbs8
      · exact hnp
      · exact hnp'
      · exact hix
    exact ⟨grist_issues hchk (.inl rfl), grist_issues hchk (.inr rfl)⟩
  · intro x s lb ld cmd ha hb hc hl h8 hd hd8
    have hchk := copyChecks_ok ha hb hc hl h8 hd hd8
    exact ⟨copy_issues hchk (.inl rfl), copy_issues hchk (.inr (.inl rfl)), fun hopen => copy_issues hchk (.inr (.inr ⟨rfl, hopen⟩)),
      sendP_held hchk⟩
  · exact fun x s ha hb hl h8 hm => sendI_issues ha hb hl h8 hm
  · intro c p s h go v bs np ix block last next
    refine ⟨fun x units start va e => ?_, fun x y t hteam => ?_⟩
    · intro inRow inBlocks inNode a hi l pa tag sets hpos hsp hhi
      refine ⟨fun bytes bad hr ht => ?_, ?_⟩
      · suffices hread : (p.ins = .get x ∨ p.ins = .grist x) ∧ units = p.units ∧ s.gRead c p p.pos = .got bytes bad s by
          obtain ⟨hx, rfl, hgot⟩ := hread
          have hget := getStep_advances h hx hpos hsp hhi hgot ht
          rw [← h.reads hpos hx, lineEnds_eq] at hget
          exact hget
        rcases hr with ⟨⟨hx, hlin, hunits, -, hva⟩ | ⟨hx, hbs, hbs8, -, hix, hlen, hunits, -, hva⟩, hh, hpa, rfl, rfl⟩ |
          ⟨hx, ⟨hlin, hva, hunits, -, hoff⟩, hread⟩
        · obtain ⟨hunits, hisLin, rfl⟩ := flat_row (.inl hx) hlin hunits hva
          exact ⟨.inl hx, hunits, gRead_flat h.ahead h.calm hisLin hpa hh⟩
        · obtain ⟨hunits, hisLin, rfl⟩ := flat_blocks (.inl hx) hbs hbs8 hlen hix hunits hva
          exact ⟨.inr hx, hunits, gRead_flat h.ahead h.calm hisLin hpa hh⟩
        · rw [hoff] at hread
          exact ⟨.inl hx, hunits.trans (units_xfer (.inl hx)).symm, gRead_node h.ahead (by rw [hx]; exact hlin) hva hread⟩
      · intro w bytes clears q ht
        refine ⟨fun hx hh hrm hpa h8 => ?_, fun hx hnode u hu => ?_⟩
        · suffices hput : (p.ins = .put x ∧ x.lin = false ∨ p.ins = .gristScatter x) ∧ units = p.units ∧ va = p.unitVa ∧
              start = p.runStart p.pos by
            obtain ⟨hform, rfl, rfl, rfl⟩ := hput
            exact h.put_flat hform hpos rfl ht (lineEnds_eq _ _).symm hh hrm hpa h8
          rcases hx with ⟨hx, hlin, hunits, hstart, hva⟩ | ⟨hx, hbs, hbs8, -, hix, hlen, hunits, hstart, hva⟩
          · obtain ⟨hunits, -, hva⟩ := flat_row (.inr hx) hlin hunits hva
            exact ⟨.inl ⟨hx, hlin⟩, hunits, hva, hstart.trans ((runStart_put hx _).trans (if_neg (by simp [hlin]))).symm⟩
          · obtain ⟨hunits, -, hva⟩ := flat_blocks (.inr hx) hbs hbs8 hlen hix hunits hva
            exact ⟨.inr hx, hunits, hva, hstart.trans (runStart_scatter hx _ (Nat.zero_lt_of_lt hbs)).symm⟩
        · obtain ⟨hlin, hva, hunits, rfl, hoff⟩ := hnode
          obtain rfl : units = p.units := hunits.trans (units_xfer (.inr hx)).symm
          obtain rfl : va = fun u => p.vc.toNat + 8 * u := funext hoff
          exact h.put_node hx hlin hva hpos rfl ht (lineEnds_eq _ _).symm hu
    · intro copies d inside a read
      refine ⟨fun hi hout => h.rejected hteam hi hout, ?_, ?_⟩
      · intro hi hin hbuf units b bhi m hdsp hhi hdt hpos hsp hlo ht
        have hunits : p.units = units := units_copy hi
        clear_value units
        subst hunits
        exact h.copied hteam hi hin.1 hin.2 hbuf hpos hdsp hhi rfl rfl rfl ht hdt (lineEnds_eq _ _).symm (lineEnds_eq _ _).symm rfl
      · intro hi hin hpos hsp hlo ht
        have hunits : p.units = y.len.toNat / 8 := units_sendI hi
        exact h.sent hteam hi hin.1 hin.2 (hunits ▸ hpos) rfl ht ((lineEnds_eq _ _).symm.trans (by rw [hunits])) rfl

end Sys2Proof
end
